-- ==== Sys2Proof/Word.lean ====
section
/-! DEFINITION. The word types of the device (R3, R4): bytes, 32-bit register words and 64-bit dwords. -/

namespace Sys2Proof

/-- A byte of memory (R3). -/
abbrev Byte := BitVec 8

/-- A register word (R4). -/
abbrev Word := BitVec 32

/-- A dword: a clause header, an instruction word, a 64-bit operand (R32, R41). -/
abbrev DWord := BitVec 64

end Sys2Proof
end

