-- ==== Sys2Proof/Syntax.lean ====
section
/-! DEFINITION. The instructions of the CK80 as data: operand forms, modifiers, and the one inductive
`Instr` with a constructor for every row of the table of operations and events. -/

namespace Sys2Proof

/-- Type codes (R46). -/
inductive Ty where
  | b32 | s32 | n32 | f32 | b64 | s64 | n64 | f64 | f16x2 | bf16x2 | s16x2 | n16x2 | s8x4 | n8x4
  deriving DecidableEq, Repr

/-- Rounding modes (R59, R214). -/
inductive RM where
  | rn | rz | rd | ru
  deriving DecidableEq, Repr

/-- MODE of smul, smad, imul and imad (R185, R196). -/
inductive MulMode where
  | lo | hi | wide
  deriving DecidableEq, Repr

/-- Comparisons of ssetp and isetp (R190). -/
inductive ICmp where
  | eq | ne | lt | le | gt | ge
  deriving DecidableEq, Repr

/-- COMB: how a comparison is combined with a predicate (R190). -/
inductive Comb where
  | none | and | or | xor
  deriving DecidableEq, Repr

/-- Comparisons of fsetp (R217). -/
inductive FCmp where
  | eq | ne | lt | le | gt | ge | num | nan | equ | neu | ltu | leu | gtu | geu
  deriving DecidableEq, Repr

/-- KIND of sshf (R189). -/
inductive ShiftKind where
  | shl | shr | sar | rol
  deriving DecidableEq, Repr

/-- WIDTH of class 0x7 accesses (R261). -/
inductive MemW where
  | n8 | s8 | n16 | s16 | b32 | b64 | b128
  deriving DecidableEq, Repr

/-- WIDTH of sld (R192). -/
inductive SldW where
  | b32 | b64 | b128
  deriving DecidableEq, Repr

/-- ORDER of a load (R261). -/
inductive LdOrd where
  | weak | rlx | acq
  deriving DecidableEq, Repr

/-- ORDER of a store (R261). -/
inductive StOrd where
  | weak | rlx | rel
  deriving DecidableEq, Repr

/-- ORDER of an atomic (R345). -/
inductive AtOrd where
  | rlx | acq | rel | acqrel
  deriving DecidableEq, Repr

/-- KIND of fence (R349). -/
inductive FenceKind where
  | acq | rel | acqrel | sc
  deriving DecidableEq, Repr

/-- SCOPE (R261, R345). -/
inductive Scope where
  | wp | blk | cls | dev | sys
  deriving DecidableEq, Repr

/-- CACHE (R261). -/
inductive CacheHint where
  | dflt | na | lu
  deriving DecidableEq, Repr

/-- Special registers read by sread (R193). -/
inductive SReg where
  | laneid | warpid | sliceid | blockidX | blockidY | blockidZ | blockdim | gridid | nblocksX | nblocksY | nblocksZ | coreid | pairrole | role | fstat | batch | clock
  deriving DecidableEq, Repr

/-- KIND of vote (R194). -/
inductive VoteKind where
  | any | all | uni | ballot
  deriving DecidableEq, Repr

/-- MODE of xlane (R231). -/
inductive XMode where
  | idx | rot | xor | shift
  deriving DecidableEq, Repr

/-- OP of redux and scanx (R233). -/
inductive RedOp where
  | add | min | max | and | or | xor
  deriving DecidableEq, Repr

/-- OPC of the atomics (R345). -/
inductive AtOp where
  | add | min | max | and | or | xor | exch | inc | dec
  deriving DecidableEq, Repr

/-- Conversion format codes (R222). -/
inductive CvtFmt where
  | s32 | n32 | s64 | n64 | f64 | f32 | fp16 | bf16 | e4m3 | e5m2 | e2m1 | s16 | n16 | s8 | n8 | s4
  deriving DecidableEq, Repr

/-- OPN of escale (R227). -/
inductive EscOp where
  | derive | div | mul
  deriving DecidableEq, Repr

/-- LEVEL of pref (R272). -/
inductive PrefLevel where
  | l1 | l2 | l2x
  deriving DecidableEq, Repr

/-- OP of cctl (R273). -/
inductive CctlOp where
  | wb | wbinv | wball | wbinvall
  deriving DecidableEq, Repr

/-- MODE of bankcfg (R278) and of a bank (R244). -/
inductive BankMode where
  | cache | scratch | fifo
  deriving DecidableEq, Repr

/-- FORM of setfmt (R172). -/
inductive SetFmtForm where
  | write | writeClear | clear
  deriving DecidableEq, Repr

/-- KIND of tlbinv (R440). -/
inductive InvKind where
  | page | range | all
  deriving DecidableEq, Repr

/-- MODE of provq (R367). -/
inductive ProvqMode where
  | self | pred | upd
  deriving DecidableEq, Repr

/-- Handler control and status registers (R443). -/
inductive Csr where
  | ctx | keyid | ptRoot | frame | poolAvail | wtEntry | aside | resumePc | savedFmt | dutyMode | faultVa
  deriving DecidableEq, Repr

/-- Operand codes (R44), with the predicate fields apart. `none` is a field the instruction does not use. -/
inductive Opd where
  | none | v (r : Fin 128) | s (r : Fin 96) | zero | k | laneid | ones
  | p1 | m1 | half | fone | ftwo | fmone | p (r : Fin 8) | q (r : Fin 4)
  deriving DecidableEq, Repr

/-- GUARD and GNEG (R42): predicate number, 7 meaning always, and its negation. -/
structure Guard where
  idx : Fin 8
  neg : Bool
  deriving DecidableEq, Repr

/-- The fields every full word shares (R41): guard, type, flag select, release bits and operands. -/
structure Opnds where
  guard : Guard
  ty : Ty
  fsel : Bool
  relA : Bool
  relB : Bool
  d : Opd
  a : Opd
  b : Opd
  c : Opd
  deriving DecidableEq, Repr

/-- Pair opcodes (R50). -/
inductive PairOp where
  | nop | add | sub | mul | and | or | xor | shl | shr | min | max | mov
  | fadd | fmul | fmin | fmax | hadd2 | hmul2
  deriving DecidableEq, Repr

/-- Types of a pair half (R49). -/
inductive PairTy where
  | s32 | n32 | b32 | f32 | f16x2 | bf16x2
  deriving DecidableEq, Repr

/-- One half of a pair word (R49): d := d op a under its own guard. -/
structure PairHalf where
  op : PairOp
  d : Fin 128
  a : Opd
  ty : PairTy
  guard : Guard
  deriving DecidableEq, Repr

/-- What asks a block to pre-empt (R396). -/
inductive PreemptTrigger where
  | timeSlice | priority | contextSwitch | curator | host | gwait
  deriving DecidableEq, Repr

/-- The stores whose words an uncorrectable error can poison (R470, R473). -/
inductive ErrStore where
  | cell | ureg | scratch | fifo | accum | latch | scale
  deriving DecidableEq, Repr

/-- The cache and memory errors of R470, R472 and R473: those of L2 and HBM, a correctable error of any store, and dirty bytes of a
core's L1 (notes/assumptions/157). -/
inductive CacheErr where
  | clean | cleanHomeBad | dirtyAccess | dirtyEvict | hbm | corrected
  | dirtyL1 (core : Nat)
  deriving DecidableEq, Repr

/-- The memories a physical address names (R238): MTYPE DEV, PEER and HOST. -/
inductive Space where
  | dev | peer | host
  deriving DecidableEq, Repr

/-- A physical address of a memory (R238, R474). -/
structure SectorAddr where
  space : Space
  pa : Nat
  deriving DecidableEq, Repr

/-- A flit that failed its check (R479): its link, and whether it was itself a retry. -/
structure LinkFlit where
  link : Nat
  retry : Bool
  deriving DecidableEq, Repr

/-- A switch-out (R403): the context and the cores it leaves, whole pairs (R124). -/
structure SwitchOut where
  ctx : Nat
  cores : List Nat
  deriving DecidableEq, Repr

/-- A host agent's access (R319): CXL.mem or CXL.cache on device memory, or its own memory. -/
structure HostAccess where
  write : Bool
  space : Space
  pa : Nat
  len : Nat
  data : List Byte
  deriving DecidableEq, Repr

/-- What a peer device's access does: it reads, writes, or is an atomic executed at this device's L2 (R260), with the
instruction's operation and type, a compare-and-swap, or a compensated sum. -/
inductive PeerOp where
  | read
  | write
  | atom (op : AtOp) (t : Ty)
  | cas (t : Ty)
  | comp
  deriving DecidableEq, Repr

/-- A peer device's access arriving over a link (R260). `data` holds what it writes, or the operands of an atomic. -/
structure PeerAccess where
  port : Nat
  op : PeerOp
  pa : Nat
  len : Nat
  data : List Byte
  deriving DecidableEq, Repr

/-- A Vatas firmware image in a flash bank (R482, R483). -/
structure FirmwareImage where
  body : List Byte
  rsaSig : List Byte
  slhSig : List Byte
  version : Nat
  deriving DecidableEq, Repr

/-- What the world supplies to a boot (R482): whether HBM and links train, which cores fail their scan, and whether I/O die 9 took over
as time master while die 8 was in reset (R408; notes/assumptions/156). -/
structure BootEvent where
  trainOk : Bool
  failedCores : List Nat
  takeover : Bool
  deriving DecidableEq, Repr

/-- The words of a context that system software registers (R75, R96, R103, R110, R129 to R131, R156, R162, R237, R244, R253,
R386, R400, R412): a queue by its place in the context's queue table. -/
inductive CtxField where
  | ptRoot | placeCfg | issueCfg | bankCfg | provCfg | dutyMode | handlerPc | hframeBase | poolBase | flogBase | saveBase
  | saveBytes | dbgCfg | frontBase | annexBase | predBase | vitBase | traceBase | traceCfg | counterBase | dumpBase
  | dumpBytes | dumpFallback | dumpCfg
  | queue (q : Nat)
  deriving DecidableEq, Repr

/-- What system software registers for a context (R237, R259): the key and the words it writes. -/
structure ContextFields where
  key : Nat
  words : List (CtxField × BitVec 64)
  deriving DecidableEq, Repr

/-- The instructions and events of the device: one constructor per row of the table. An instruction word carries
its fields; an event carries what its environment or the arbitration chooses (a core, a slot, a queue, a value). -/
inductive Instr where
  /-- CLAUSE_DISPATCH (R139). -/
  | clauseDispatch (core slot : Nat)
  /-- WARP_AGED (R141). -/
  | warpAged (core slot : Nat)
  /-- DOCENT_EVALUATION (R154). -/
  | docentEvaluation (core : Nat)
  /-- DEMOTION_COMPLETE (R150). -/
  | demotionComplete (core slot : Nat)
  /-- FAIRNESS_SWITCH (R161). -/
  | fairnessSwitch (core slot : Nat)
  /-- FAIRNESS_DEFER_EXPIRY (R161). -/
  | fairnessDeferExpiry (core slot : Nat)
  /-- LONG_LATENCY_COMPLETE (R36). -/
  | longLatencyComplete (core slot k : Nat)
  /-- SLICE_RETIRE (R165). -/
  | sliceRetire (core slot sl : Nat)
  /-- CELL_REFILL (R129). -/
  | cellRefill (core slot : Nat)
  /-- MISS_STATUS_REISSUE (R247). -/
  | missStatusReissue (core : Nat)
  /-- MISS_STATUS_RESERVATION_EXPIRY (R247). -/
  | missStatusReservationExpiry (core : Nat)
  /-- WAIT_COMPLETE (R343). -/
  | waitComplete (core slot : Nat)
  /-- NAP_EXPIRY (R179). -/
  | napExpiry (core slot : Nat)
  /-- ASYNC_FAULT_DELIVERY (R382). -/
  | asyncFaultDelivery (core slot : Nat)
  /-- PARTITION_RESET_COMPLETE (R478). -/
  | partitionResetComplete (die : Nat) (failed : List Nat)
  /-- LINK_RETRAIN_COMPLETE (R479). -/
  | linkRetrainComplete (link : Nat)
  /-- LINK_DOWN_TIMEOUT (R479). -/
  | linkDownTimeout (link : Nat)
  /-- CURATOR_SCAN_COMPLETE (R465). -/
  | curatorScanComplete (core : Nat) (pass : Bool)
  /-- DUMP_WRITE (R430). -/
  | dumpWrite (ctx : Nat)
  /-- CONTEXT_CREATION (R259). -/
  | contextCreation (ctx : Nat) (desc : ContextFields)
  /-- CONTEXT_DESTRUCTION (R259). -/
  | contextDestruction (ctx : Nat)
  /-- BOOT_SEQUENCE (R482). -/
  | bootSequence (ev : BootEvent)
  /-- HOST_MEMORY_ACCESS (R319). -/
  | hostMemoryAccess (acc : HostAccess)
  /-- REGISTER_WRITE (R426). -/
  | registerWrite (offset : Nat) (val : BitVec 64)
  /-- ENGINE_RESET_COMPLETE (R478). -/
  | engineResetComplete (matrix : Bool) (core : Nat)
  /-- TLBINV_COMPLETE (R440). -/
  | tlbinvComplete (core slot : Nat)
  /-- ICINV_COMPLETE (R274). -/
  | icinvComplete (core slot : Nat)
  /-- COPY_COMMAND_FAULT (R251). -/
  | copyCommandFault (core : Nat) (sq : BitVec 32)
  /-- PAIR_WORD (R50). -/
  | pairWord (h1 h2 : PairHalf)
  /-- NOP (R173). -/
  | nop (o : Opnds)
  /-- BRA (R174). -/
  | bra (o : Opnds) (off : BitVec 24) (uni : Bool)
  /-- BRI (R175). -/
  | bri (o : Opnds)
  /-- CALL (R176). -/
  | call (o : Opnds) (off : BitVec 24)
  /-- CALLI (R176). -/
  | calli (o : Opnds)
  /-- RET (R175). -/
  | ret (o : Opnds)
  /-- EXIT (R178). -/
  | exit (o : Opnds)
  /-- YIELD (R173). -/
  | yield (o : Opnds)
  /-- NAP (R179). -/
  | nap (o : Opnds)
  /-- FWAIT (R180). -/
  | fwait (o : Opnds) (mask : BitVec 12)
  /-- SETFMT (R181). -/
  | setfmt (o : Opnds) (form : SetFmtForm)
  /-- GETFMT (R182). -/
  | getfmt (o : Opnds)
  /-- BRK (R183). -/
  | brk (o : Opnds) (code : BitVec 8)
  /-- TRAP (R183). -/
  | trap (o : Opnds) (code : BitVec 8)
  /-- SPRINT (R184). -/
  | sprint (o : Opnds) (clr : Bool)
  /-- SMOV (R186). -/
  | smov (o : Opnds)
  /-- SADD (R187). -/
  | sadd (o : Opnds) (sat : Bool)
  /-- SSUB (R187). -/
  | ssub (o : Opnds) (sat : Bool)
  /-- SMUL (R187). -/
  | smul (o : Opnds) (mode : MulMode)
  /-- SMAD (R187). -/
  | smad (o : Opnds) (mode : MulMode)
  /-- SLOP (R188). -/
  | slop (o : Opnds) (fn : BitVec 8)
  /-- SSHF (R189). -/
  | sshf (o : Opnds) (kind : ShiftKind)
  /-- SSETP (R190). -/
  | ssetp (o : Opnds) (cmp : ICmp) (comb : Comb)
  /-- SSEL (R191). -/
  | ssel (o : Opnds) (negc : Bool)
  /-- SLD (R192). -/
  | sld (o : Opnds) (w : SldW) (ord : LdOrd) (scope : Scope)
  /-- SREAD (R193). -/
  | sread (o : Opnds) (sreg : SReg)
  /-- VOTE (R194). -/
  | vote (o : Opnds) (kind : VoteKind) (nega : Bool)
  /-- SPOP (R187). -/
  | spop (o : Opnds)
  /-- IADD (R196). -/
  | iadd (o : Opnds) (sat : Bool)
  /-- ISUB (R196). -/
  | isub (o : Opnds) (sat : Bool)
  /-- IMUL (R196). -/
  | imul (o : Opnds) (mode : MulMode)
  /-- IMAD (R196). -/
  | imad (o : Opnds) (mode : MulMode)
  /-- IMIN (R196). -/
  | imin (o : Opnds)
  /-- IMAX (R196). -/
  | imax (o : Opnds)
  /-- IABS (R196). -/
  | iabs (o : Opnds) (sat : Bool)
  /-- ISAD (R197). -/
  | isad (o : Opnds)
  /-- ISETP (R190). -/
  | isetp (o : Opnds) (cmp : ICmp) (comb : Comb)
  /-- SEL (R199). -/
  | sel (o : Opnds) (negc : Bool)
  /-- LEA (R200). -/
  | lea (o : Opnds) (sh : Fin 8)
  /-- MOV (R201). -/
  | mov (o : Opnds)
  /-- MOVI (R201). -/
  | movi (o : Opnds) (off : BitVec 24)
  /-- IDP4 (R198). -/
  | idp4 (o : Opnds) (bsign : Bool) (sat : Bool)
  /-- BITFN (R207). -/
  | bitfn (o : Opnds) (fn : BitVec 8)
  /-- SHL (R208). -/
  | shl (o : Opnds) (wrap : Bool)
  /-- SHR (R208). -/
  | shr (o : Opnds) (wrap : Bool)
  /-- FWIN (R209). -/
  | fwin (o : Opnds) (wrap : Bool) (sfill : Bool)
  /-- BFE (R210). -/
  | bfe (o : Opnds)
  /-- BFI (R210). -/
  | bfi (o : Opnds)
  /-- POPC (R211). -/
  | popc (o : Opnds)
  /-- CLZ (R211). -/
  | clz (o : Opnds)
  /-- BREV (R211). -/
  | brev (o : Opnds)
  /-- BSEL (R212). -/
  | bsel (o : Opnds)
  /-- PLOP (R213). -/
  | plop (o : Opnds) (fn : BitVec 8)
  /-- P2V (R213). -/
  | p2v (o : Opnds) (mask : BitVec 7)
  /-- V2P (R213). -/
  | v2p (o : Opnds) (mask : BitVec 7)
  /-- FADD (R215). -/
  | fadd (o : Opnds) (rm : RM)
  /-- FSUB (R215). -/
  | fsub (o : Opnds) (rm : RM)
  /-- FMUL (R215). -/
  | fmul (o : Opnds) (rm : RM)
  /-- FFMA (R215). -/
  | ffma (o : Opnds) (rm : RM)
  /-- FMIN (R216). -/
  | fmin (o : Opnds) (nan : Bool)
  /-- FMAX (R216). -/
  | fmax (o : Opnds) (nan : Bool)
  /-- FSETP (R217). -/
  | fsetp (o : Opnds) (cmp : FCmp) (comb : Comb)
  /-- FCLASS (R218). -/
  | fclass (o : Opnds)
  /-- FRND (R219). -/
  | frnd (o : Opnds) (rm : RM)
  /-- FSCALE (R219). -/
  | fscale (o : Opnds) (rm : RM)
  /-- HADD2 (R221). -/
  | hadd2 (o : Opnds) (rm : RM)
  /-- HMUL2 (R221). -/
  | hmul2 (o : Opnds) (rm : RM)
  /-- HFMA2 (R221). -/
  | hfma2 (o : Opnds) (rm : RM)
  /-- HMIN2 (R221). -/
  | hmin2 (o : Opnds) (nan : Bool)
  /-- HMAX2 (R221). -/
  | hmax2 (o : Opnds) (nan : Bool)
  /-- CVT (R223). -/
  | cvt (o : Opnds) (dfmt : CvtFmt) (sfmt : CvtFmt) (rm : RM) (sat : Bool) (usefmt : Bool)
  /-- CVTS (R224). -/
  | cvts (o : Opnds) (dfmt : CvtFmt) (pos : Fin 4) (rm : RM) (sat : Bool) (usefmt : Bool)
  /-- PACKQ (R225). -/
  | packq (o : Opnds)
  /-- UNPQ (R226). -/
  | unpq (o : Opnds)
  /-- ESCALE (R227). -/
  | escale (o : Opnds) (tfmt : CvtFmt) (opn : EscOp)
  /-- FRCP (R229). -/
  | frcp (o : Opnds) (rm : RM)
  /-- FRSQ (R229). -/
  | frsq (o : Opnds)
  /-- FSQRT (R229). -/
  | fsqrt (o : Opnds) (rm : RM)
  /-- FEX2 (R229). -/
  | fex2 (o : Opnds)
  /-- FLG2 (R229). -/
  | flg2 (o : Opnds)
  /-- FSIN (R229). -/
  | fsin (o : Opnds)
  /-- FCOS (R229). -/
  | fcos (o : Opnds)
  /-- FTANH (R229). -/
  | ftanh (o : Opnds)
  /-- XLANE (R231). -/
  | xlane (o : Opnds) (mode : XMode)
  /-- MATCH (R232). -/
  | matchv (o : Opnds) (all : Bool)
  /-- REDUX (R233). -/
  | redux (o : Opnds) (opr : RedOp)
  /-- SCANX (R233). -/
  | scanx (o : Opnds) (opr : RedOp) (excl : Bool)
  /-- LD (R265). -/
  | ld (o : Opnds) (w : MemW) (ord : LdOrd) (scope : Scope) (cache : CacheHint) (vs : Bool) (ixs : Bool)
  /-- ST (R266). -/
  | st (o : Opnds) (w : MemW) (ord : StOrd) (scope : Scope) (cache : CacheHint) (ixs : Bool)
  /-- LDS (R265). -/
  | lds (o : Opnds) (w : MemW) (ord : LdOrd) (scope : Scope)
  /-- STS (R266). -/
  | sts (o : Opnds) (w : MemW) (ord : StOrd) (scope : Scope)
  /-- LDC (R268). -/
  | ldc (o : Opnds) (w : MemW) (bank : Fin 16)
  /-- LDR (R270). -/
  | ldr (o : Opnds) (w : MemW) (ord : LdOrd) (scope : Scope) (ixs : Bool)
  /-- STC (R271). -/
  | stc (o : Opnds) (w : MemW) (ord : StOrd) (scope : Scope) (ixs : Bool)
  /-- PREF (R272). -/
  | pref (o : Opnds) (level : PrefLevel) (ixs : Bool)
  /-- CCTL (R273). -/
  | cctl (o : Opnds) (opr : CctlOp) (ixs : Bool)
  /-- ICINV (R274). -/
  | icinv (o : Opnds)
  /-- CPG (R276). -/
  | cpg (o : Opnds) (slot : Fin 64) (arrive : Bool)
  /-- CPS (R276). -/
  | cps (o : Opnds)
  /-- CPX (R276). -/
  | cpx (o : Opnds) (slot : Fin 64) (arrive : Bool)
  /-- CPCLOSE (R277). -/
  | cpclose (o : Opnds)
  /-- CPWAIT (R277). -/
  | cpwait (o : Opnds)
  /-- BANKCFG (R278). -/
  | bankcfg (o : Opnds) (mode : BankMode)
  /-- FPUSH (R279). -/
  | fpush (o : Opnds)
  /-- FPOP (R279). -/
  | fpop (o : Opnds)
  /-- VTOPEN (R280). -/
  | vtopen (o : Opnds) (copy : Bool)
  /-- PUBLISH (R280). -/
  | publish (o : Opnds)
  /-- VTDROP (R280). -/
  | vtdrop (o : Opnds)
  /-- COPY_COMMAND_START (R276). -/
  | copyCommandStart (core : Nat)
  /-- COPY_COMMAND_COMPLETE (R249). -/
  | copyCommandComplete (core : Nat) (sq : BitVec 32)
  /-- VTOPEN_COPY_COMPLETE (R255). -/
  | vtopenCopyComplete (ctx i : Nat)
  /-- PUBLISH_ACK_COMPLETE (R256). -/
  | publishAckComplete (ctx i : Nat)
  /-- MLDB (R308). -/
  | mldb (o : Opnds) (slab : Fin 4) (lset : Fin 2) (foll : Bool)
  /-- MLDS (R309). -/
  | mlds (o : Opnds) (lset : Fin 2) (foll : Bool)
  /-- MMA (R310). -/
  | mma (o : Opnds) (mm1 : Fin 32) (lset : Fin 2) (slot : Fin 64)
  /-- MZERO (R311). -/
  | mzero (o : Opnds)
  /-- ACALLOC (R313). -/
  | acalloc (o : Opnds) (wait : Bool)
  /-- ACFREE (R314). -/
  | acfree (o : Opnds)
  /-- MDRAIN (R316). -/
  | mdrain (o : Opnds) (bias : Bool) (act : Bool) (req : Bool) (rm1 : Fin 8) (slot : Fin 64)
  /-- MDRAINS (R316). -/
  | mdrains (o : Opnds) (bias : Bool) (act : Bool) (req : Bool) (rm1 : Fin 8) (slot : Fin 64)
  /-- EPCFG (R315). -/
  | epcfg (o : Opnds)
  /-- ACTLD (R315). -/
  | actld (o : Opnds)
  /-- MATRIX_COMMAND_EXECUTE (R283). -/
  | matrixCommandExecute (pair : Nat)
  /-- MATRIX_COMMAND_COMPLETE (R304). -/
  | matrixCommandComplete (pair : Nat)
  /-- EPILOGUE_COMMAND_EXECUTE (R283). -/
  | epilogueCommandExecute (pair : Nat)
  /-- EPILOGUE_COMMAND_COMPLETE (R304). -/
  | epilogueCommandComplete (pair : Nat)
  /-- ACCUM_GRANULES_CLEARED (R313). -/
  | accumGranulesCleared (pair : Nat)
  /-- ATOM (R347). -/
  | atom (o : Opnds) (opc : AtOp) (ord : AtOrd) (scope : Scope) (koff : Bool)
  /-- ATOMCAS (R347). -/
  | atomcas (o : Opnds) (ord : AtOrd) (scope : Scope) (koff : Bool)
  /-- RED (R347). -/
  | red (o : Opnds) (opc : AtOp) (ord : AtOrd) (scope : Scope) (koff : Bool)
  /-- ATOMS (R347). -/
  | atoms (o : Opnds) (opc : AtOp) (ord : AtOrd) (scope : Scope) (koff : Bool)
  /-- ATOMSC (R347). -/
  | atomsc (o : Opnds) (ord : AtOrd) (scope : Scope) (koff : Bool)
  /-- ATOMC (R348). -/
  | atomc (o : Opnds) (ord : AtOrd) (scope : Scope) (koff : Bool)
  /-- RDC (R348). -/
  | rdc (o : Opnds) (ord : AtOrd) (scope : Scope) (koff : Bool)
  /-- FENCE (R350). -/
  | fence (o : Opnds) (kind : FenceKind) (scope : Scope)
  /-- BAR (R351). -/
  | bar (o : Opnds)
  /-- BARA (R351). -/
  | bara (o : Opnds)
  /-- BARW (R351). -/
  | barw (o : Opnds)
  /-- GBAR (R352). -/
  | gbar (o : Opnds)
  /-- ARV (R353). -/
  | arv (o : Opnds) (scope : Scope) (sp : Bool)
  /-- AWAIT (R353). -/
  | await (o : Opnds) (scope : Scope) (sp : Bool)
  /-- RINGA (R354). -/
  | ringa (o : Opnds) (slot : Fin 64)
  /-- RINGW (R354). -/
  | ringw (o : Opnds) (slot : Fin 64)
  /-- LKACQ (R356). -/
  | lkacq (o : Opnds) (wait : Bool)
  /-- LKREL (R357). -/
  | lkrel (o : Opnds)
  /-- WAITV (R359). -/
  | waitv (o : Opnds) (scope : Scope)
  /-- WAKE (R359). -/
  | wake (o : Opnds) (scope : Scope)
  /-- LAUNCH (R363). -/
  | launch (o : Opnds) (nreg : Fin 5) (wait : Bool) (barrier : Bool) (irq : Bool)
  /-- GWAIT (R365). -/
  | gwait (o : Opnds) (vouch : Bool)
  /-- QPUSH (R362). -/
  | qpush (o : Opnds) (wait : Bool)
  /-- QPOP (R364). -/
  | qpop (o : Opnds) (wait : Bool)
  /-- SHAPE (R366). -/
  | shape (o : Opnds)
  /-- PROVQ (R367). -/
  | provq (o : Opnds) (mode : ProvqMode)
  /-- SVC (R436). -/
  | svc (o : Opnds) (code : BitVec 8)
  /-- RFE (R437). -/
  | rfe (o : Opnds)
  /-- PGPOP (R438). -/
  | pgpop (o : Opnds)
  /-- PGMAP (R439). -/
  | pgmap (o : Opnds) (level : Fin 3)
  /-- TLBINV (R440). -/
  | tlbinv (o : Opnds) (kind : InvKind)
  /-- REPLAY (R441). -/
  | replay (o : Opnds) (tok : Bool)
  /-- PARK (R442). -/
  | park (o : Opnds)
  /-- CSRRD (R444). -/
  | csrrd (o : Opnds) (num : Csr)
  /-- CSRWR (R444). -/
  | csrwr (o : Opnds) (num : Csr)
  /-- POISCK (R445). -/
  | poisck (o : Opnds)
  /-- TRACE (R446). -/
  | trace (o : Opnds) (tag : BitVec 8) (n : Fin 9)
  /-- TMARK (R447). -/
  | tmark (o : Opnds)
  /-- RDCNT (R448). -/
  | rdcnt (o : Opnds) (num : Fin 256)
  /-- RDPTP (R449). -/
  | rdptp (o : Opnds) (full : Bool)
  /-- HALT (R450). -/
  | halt (o : Opnds) (dump : Bool)
  /-- QUEUE_TAIL_OBSERVE (R77). -/
  | queueTailObserve (ctx q : Nat)
  /-- QUEUE_ENTRY_CONSUME (R78). -/
  | queueEntryConsume (ctx q : Nat)
  /-- LAUNCH_ENTRY (R88). -/
  | launchEntry (ctx q : Nat)
  /-- SHAPE_ENTRY (R98). -/
  | shapeEntry (ctx q : Nat)
  /-- REPLAY_ENTRY (R393). -/
  | replayEntry (ctx q : Nat)
  /-- WAITC_ENTRY (R81). -/
  | waitcEntry (ctx q : Nat)
  /-- SIGNAL_ENTRY (R81). -/
  | signalEntry (ctx q : Nat)
  /-- QUEUE_ENTRY_COMPLETE (R81). -/
  | queueEntryComplete (ctx q k : Nat)
  /-- QUEUE_RESTART (R79). -/
  | queueRestart (ctx q : Nat) (skip : Bool)
  /-- QUEUE_STOP (R79). -/
  | queueStop (ctx q : Nat)
  /-- PROXY_FORWARD (R83). -/
  | proxyForward (ctx q : Nat)
  /-- PROXY_FORWARD_TIMER (R83). -/
  | proxyForwardTimer (ctx q : Nat)
  /-- PRIORITY_AGEING (R84). -/
  | priorityAgeing (ctx gid : Nat)
  /-- BLOCK_PLACEMENT (R135). -/
  | blockPlacement (ctx : Nat)
  /-- BLOCK_RETIRE (R94). -/
  | blockRetire (blk : Nat)
  /-- PREEMPTION_REQUEST (R397). -/
  | preemptionRequest (blk : Nat) (trig : PreemptTrigger)
  /-- TIME_SLICE_EXPIRY (R396). -/
  | timeSliceExpiry (blk : Nat)
  /-- PREEMPT_BUDGET_EXPIRY (R397). -/
  | preemptBudgetExpiry (core slot : Nat)
  /-- WARP_STOP_POINT (R398). -/
  | warpStopPoint (core slot : Nat)
  /-- SAVE_SPACE_RETRY (R401). -/
  | saveSpaceRetry (blk : Nat)
  /-- CONTEXT_SWITCH_OUT (R403). -/
  | contextSwitchOut (ctx : SwitchOut)
  /-- CONTEXT_SWITCH_IN (R403). -/
  | contextSwitchIn (ctx : Nat)
  /-- MIG_CLAIM (R395). -/
  | migClaim (val : BitVec 64)
  /-- MIG_RELEASE (R394). -/
  | migRelease (val : BitVec 64)
  /-- MIG_CLAIM_EXPIRY (R394). -/
  | migClaimExpiry (ctx page : Nat)
  /-- PAGE_PIN_EXPIRY (R395). -/
  | pagePinExpiry (ctx page : Nat)
  /-- PPS_INPUT (R408). -/
  | ppsInput (second : BitVec 48)
  /-- TIME_CORRECTION (R408). -/
  | timeCorrection (ticks : Int)
  /-- TRACE_DRAIN (R414). -/
  | traceDrain (ctx src : Nat)
  /-- TRACE_DRAIN_TIMER (R414). -/
  | traceDrainTimer (ctx src : Nat)
  /-- LOSSLESS_ESCAPE (R417). -/
  | losslessEscape (ctx src : Nat)
  /-- TRACE_SAMPLE (R423). -/
  | traceSample (core slot : Nat)
  /-- COUNTER_SWEEP (R425). -/
  | counterSweep (ctx : Nat)
  /-- DBG_HALT_BROADCAST (R429). -/
  | dbgHaltBroadcast (ctx : Nat)
  /-- DBG_RESUME_ALL (R429). -/
  | dbgResumeAll (ctx : Nat)
  /-- DBG_HALT_AND_DUMP (R430). -/
  | dbgHaltAndDump (ctx : Nat)
  /-- DBG_READ (R406). -/
  | dbgRead (cmd : BitVec 64)
  /-- DBG_WRITE (R406). -/
  | dbgWrite (cmd : BitVec 64)
  /-- DBG_SET_PC (R405). -/
  | dbgSetPc (cmd : BitVec 64)
  /-- DBG_RESUME_WARP (R429). -/
  | dbgResumeWarp (cmd : BitVec 64)
  /-- DBG_RESUME_PAST_BREAKPOINT (R427). -/
  | dbgResumePastBreakpoint (cmd : BitVec 64)
  /-- CURATOR_VISIT_START (R464). -/
  | curatorVisitStart (die : Nat)
  /-- CURATOR_DRAIN_EXPIRY (R465). -/
  | curatorDrainExpiry (core : Nat)
  /-- UNCORRECTABLE_WORD_ERROR (R470). -/
  | uncorrectableWordError (store : ErrStore) (owner index lane : Nat)
  /-- CACHE_SECTOR_ERROR (R472). -/
  | cacheSectorError (kind : CacheErr) (pa : SectorAddr)
  /-- FRONTIER_PARITY_ERROR (R473). -/
  | frontierParityError (core slot : Nat)
  /-- TRANSLATION_PARITY_ERROR (R473). -/
  | translationParityError (ctx va : Nat)
  /-- INSTRUCTION_CACHE_PARITY_ERROR (R473). -/
  | instructionCacheParityError (core : Nat)
  /-- REGISTRAR_STATE_ERROR (R478). -/
  | registrarStateError (die : Nat)
  /-- ENGINE_STATE_ERROR (R478). -/
  | engineStateError (matrix : Bool) (core : Nat)
  /-- ENGINE_TIMEOUT (R478). -/
  | engineTimeout (matrix : Bool) (core : Nat)
  /-- PART_RESET (R478). -/
  | partReset (val : BitVec 64)
  /-- FLIT_CHECK_FAILURE (R479). -/
  | flitCheckFailure (link : LinkFlit)
  /-- LANE_FAILURE (R479). -/
  | laneFailure (link : Nat)
  /-- THERMAL_THROTTLE (R486). -/
  | thermalThrottle (temp gate : Nat)
  /-- THERMAL_TRIP (R486). -/
  | thermalTrip
  /-- POWER_LIMIT_WRITE (R485). -/
  | powerLimitWrite (val : BitVec 64)
  /-- FIRMWARE_UPDATE (R483). -/
  | firmwareUpdate (image : FirmwareImage)
  /-- SPDM_MEASUREMENT_REQUEST (R484). -/
  | spdmMeasurementRequest (nonce : BitVec 256)
  /-- PEER_MEMORY_ACCESS (R260). -/
  | peerMemoryAccess (acc : PeerAccess)
  /-- CURATOR_HOST_REQUEST (R464). -/
  | curatorHostRequest (core : Nat)
  /-- HOST_GANG_RELAUNCH_OR_ABANDON (R96). -/
  | hostGangRelaunchOrAbandon (ctx gid gang : Nat) (relaunch : Bool)
  /-- THERMAL_THROTTLE_RELEASE (R486). -/
  | thermalThrottleRelease
  deriving DecidableEq, Repr

end Sys2Proof
end

