-- ==== Sys2Proof/Config.lean ====
section
/-! DEFINITION. What an implementation fixes, and the free values: what the spec leaves open, as constants without a
body. No proof can see what a free value is. -/

namespace Sys2Proof

/-- A value the spec leaves open: the word of a numbered choice (notes/assumptions). -/
opaque Config.freeWord : Nat → Word

/-- A byte the spec leaves open: choice and place (R258: memory read under another key). -/
opaque Config.freeByte : Nat → Nat → Byte

/-- A number the spec leaves open: choice and place (R292: how much of a racing command a drain sees). -/
opaque Config.freeNat : Nat → Nat → Nat

/-- The approximate SFU functions (R229): fixed functions of the input whose bits the spec does not give. -/
opaque Config.frsq : Word → Word

/-- See `Config.frsq`. -/
opaque Config.fex2 : Word → Word

/-- See `Config.frsq`. -/
opaque Config.flg2 : Word → Word

/-- See `Config.frsq`. -/
opaque Config.fsin : Word → Word

/-- See `Config.frsq`. -/
opaque Config.fcos : Word → Word

/-- See `Config.frsq`. -/
opaque Config.ftanh : Word → Word

/-- Whether an image's RSA-3072 signature verifies under the fused key (R482). -/
opaque Config.rsaVerifies : FirmwareImage → Bool

/-- Whether an image's SLH-DSA signature verifies under the fused key (R482). -/
opaque Config.slhVerifies : FirmwareImage → Bool

/-- The measurements of ROM, firmware, fuses and fencing store (R482 step 6). -/
opaque Config.measure : FirmwareImage → List Nat → List Byte

/-- The signature of an attestation report under both algorithms (R484). -/
opaque Config.sign : List Byte → List Byte

/-- The module's power draw and junction temperature registers are physical readings (R485). -/
opaque Config.powerReading : Nat → DWord

/-- The UCIe module, among those in service, that a line of host memory crosses (R260, R481). -/
opaque Config.hostModule : Nat → Nat

/-- The link port that carries accesses to a peer device (R260, R481). -/
opaque Config.peerPort : Nat → Nat

/-- The set of its slice that a line of L2 lies in (R242). -/
opaque Config.l2Set : Nat → Nat

/-- The time, in cycles, within which a strong read of the scope of a strong write no longer misses it: finite, by R333. -/
opaque Config.strongLag : Nat

/-- Installed DEV memory, in bytes (R238, R243). -/
def Config.devBytes : Nat := 1024000000000

/-- Ticks of the time counters in a second: one per 0.4 ns core cycle (R138, R408). -/
def Config.ticksPerSecond : Nat := 2500000000

end Sys2Proof
end

