-- ==== Sys2Proof/Machine/Encoding.lean ====
section
/-! DEFINITION. The encoding tables of the spec (R41 to R54 and the encoding table of each chapter): codes of the
enumerations, the kinds each operand field accepts, the modifier fields of each instruction. -/

namespace Sys2Proof

/-- Codes of `Ty`. -/
def Ty.code : Ty → Nat
  | .b32 => 0
  | .s32 => 1
  | .n32 => 2
  | .f32 => 3
  | .b64 => 4
  | .s64 => 5
  | .n64 => 6
  | .f64 => 7
  | .f16x2 => 8
  | .bf16x2 => 9
  | .s16x2 => 10
  | .n16x2 => 11
  | .s8x4 => 12
  | .n8x4 => 13

/-- The `Ty` of a code, if any. -/
def Ty.ofCode : Nat → Option Ty
  | 0 => some .b32
  | 1 => some .s32
  | 2 => some .n32
  | 3 => some .f32
  | 4 => some .b64
  | 5 => some .s64
  | 6 => some .n64
  | 7 => some .f64
  | 8 => some .f16x2
  | 9 => some .bf16x2
  | 10 => some .s16x2
  | 11 => some .n16x2
  | 12 => some .s8x4
  | 13 => some .n8x4
  | _ => none

/-- Codes of `RM`. -/
def RM.code : RM → Nat
  | .rn => 0
  | .rz => 1
  | .rd => 2
  | .ru => 3

/-- The `RM` of a code, if any. -/
def RM.ofCode : Nat → Option RM
  | 0 => some .rn
  | 1 => some .rz
  | 2 => some .rd
  | 3 => some .ru
  | _ => none

/-- Codes of `MulMode`. -/
def MulMode.code : MulMode → Nat
  | .lo => 0
  | .hi => 1
  | .wide => 2

/-- The `MulMode` of a code, if any. -/
def MulMode.ofCode : Nat → Option MulMode
  | 0 => some .lo
  | 1 => some .hi
  | 2 => some .wide
  | _ => none

/-- Codes of `ICmp`. -/
def ICmp.code : ICmp → Nat
  | .eq => 0
  | .ne => 1
  | .lt => 2
  | .le => 3
  | .gt => 4
  | .ge => 5

/-- The `ICmp` of a code, if any. -/
def ICmp.ofCode : Nat → Option ICmp
  | 0 => some .eq
  | 1 => some .ne
  | 2 => some .lt
  | 3 => some .le
  | 4 => some .gt
  | 5 => some .ge
  | _ => none

/-- Codes of `Comb`. -/
def Comb.code : Comb → Nat
  | .none => 0
  | .and => 1
  | .or => 2
  | .xor => 3

/-- The `Comb` of a code, if any. -/
def Comb.ofCode : Nat → Option Comb
  | 0 => some .none
  | 1 => some .and
  | 2 => some .or
  | 3 => some .xor
  | _ => none

/-- Codes of `FCmp`. -/
def FCmp.code : FCmp → Nat
  | .eq => 0
  | .ne => 1
  | .lt => 2
  | .le => 3
  | .gt => 4
  | .ge => 5
  | .num => 6
  | .nan => 7
  | .equ => 8
  | .neu => 9
  | .ltu => 10
  | .leu => 11
  | .gtu => 12
  | .geu => 13

/-- The `FCmp` of a code, if any. -/
def FCmp.ofCode : Nat → Option FCmp
  | 0 => some .eq
  | 1 => some .ne
  | 2 => some .lt
  | 3 => some .le
  | 4 => some .gt
  | 5 => some .ge
  | 6 => some .num
  | 7 => some .nan
  | 8 => some .equ
  | 9 => some .neu
  | 10 => some .ltu
  | 11 => some .leu
  | 12 => some .gtu
  | 13 => some .geu
  | _ => none

/-- Codes of `ShiftKind`. -/
def ShiftKind.code : ShiftKind → Nat
  | .shl => 0
  | .shr => 1
  | .sar => 2
  | .rol => 3

/-- The `ShiftKind` of a code, if any. -/
def ShiftKind.ofCode : Nat → Option ShiftKind
  | 0 => some .shl
  | 1 => some .shr
  | 2 => some .sar
  | 3 => some .rol
  | _ => none

/-- Codes of `MemW`. -/
def MemW.code : MemW → Nat
  | .n8 => 0
  | .s8 => 1
  | .n16 => 2
  | .s16 => 3
  | .b32 => 4
  | .b64 => 5
  | .b128 => 6

/-- The `MemW` of a code, if any. -/
def MemW.ofCode : Nat → Option MemW
  | 0 => some .n8
  | 1 => some .s8
  | 2 => some .n16
  | 3 => some .s16
  | 4 => some .b32
  | 5 => some .b64
  | 6 => some .b128
  | _ => none

/-- Codes of `SldW`. -/
def SldW.code : SldW → Nat
  | .b32 => 0
  | .b64 => 1
  | .b128 => 2

/-- The `SldW` of a code, if any. -/
def SldW.ofCode : Nat → Option SldW
  | 0 => some .b32
  | 1 => some .b64
  | 2 => some .b128
  | _ => none

/-- Codes of `LdOrd`. -/
def LdOrd.code : LdOrd → Nat
  | .weak => 0
  | .rlx => 1
  | .acq => 2

/-- The `LdOrd` of a code, if any. -/
def LdOrd.ofCode : Nat → Option LdOrd
  | 0 => some .weak
  | 1 => some .rlx
  | 2 => some .acq
  | _ => none

/-- Codes of `StOrd`. -/
def StOrd.code : StOrd → Nat
  | .weak => 0
  | .rlx => 1
  | .rel => 2

/-- The `StOrd` of a code, if any. -/
def StOrd.ofCode : Nat → Option StOrd
  | 0 => some .weak
  | 1 => some .rlx
  | 2 => some .rel
  | _ => none

/-- Codes of `AtOrd`. -/
def AtOrd.code : AtOrd → Nat
  | .rlx => 0
  | .acq => 1
  | .rel => 2
  | .acqrel => 3

/-- The `AtOrd` of a code, if any. -/
def AtOrd.ofCode : Nat → Option AtOrd
  | 0 => some .rlx
  | 1 => some .acq
  | 2 => some .rel
  | 3 => some .acqrel
  | _ => none

/-- Codes of `FenceKind`. -/
def FenceKind.code : FenceKind → Nat
  | .acq => 0
  | .rel => 1
  | .acqrel => 2
  | .sc => 3

/-- The `FenceKind` of a code, if any. -/
def FenceKind.ofCode : Nat → Option FenceKind
  | 0 => some .acq
  | 1 => some .rel
  | 2 => some .acqrel
  | 3 => some .sc
  | _ => none

/-- Codes of `Scope`. -/
def Scope.code : Scope → Nat
  | .wp => 0
  | .blk => 1
  | .cls => 2
  | .dev => 3
  | .sys => 4

/-- The `Scope` of a code, if any. -/
def Scope.ofCode : Nat → Option Scope
  | 0 => some .wp
  | 1 => some .blk
  | 2 => some .cls
  | 3 => some .dev
  | 4 => some .sys
  | _ => none

/-- Codes of `CacheHint`. -/
def CacheHint.code : CacheHint → Nat
  | .dflt => 0
  | .na => 1
  | .lu => 2

/-- The `CacheHint` of a code, if any. -/
def CacheHint.ofCode : Nat → Option CacheHint
  | 0 => some .dflt
  | 1 => some .na
  | 2 => some .lu
  | _ => none

/-- Codes of `SReg`. -/
def SReg.code : SReg → Nat
  | .laneid => 0
  | .warpid => 1
  | .sliceid => 2
  | .blockidX => 3
  | .blockidY => 4
  | .blockidZ => 5
  | .blockdim => 6
  | .gridid => 7
  | .nblocksX => 8
  | .nblocksY => 9
  | .nblocksZ => 10
  | .coreid => 11
  | .pairrole => 12
  | .role => 13
  | .fstat => 14
  | .batch => 15
  | .clock => 16

/-- The `SReg` of a code, if any. -/
def SReg.ofCode : Nat → Option SReg
  | 0 => some .laneid
  | 1 => some .warpid
  | 2 => some .sliceid
  | 3 => some .blockidX
  | 4 => some .blockidY
  | 5 => some .blockidZ
  | 6 => some .blockdim
  | 7 => some .gridid
  | 8 => some .nblocksX
  | 9 => some .nblocksY
  | 10 => some .nblocksZ
  | 11 => some .coreid
  | 12 => some .pairrole
  | 13 => some .role
  | 14 => some .fstat
  | 15 => some .batch
  | 16 => some .clock
  | _ => none

/-- Codes of `VoteKind`. -/
def VoteKind.code : VoteKind → Nat
  | .any => 0
  | .all => 1
  | .uni => 2
  | .ballot => 3

/-- The `VoteKind` of a code, if any. -/
def VoteKind.ofCode : Nat → Option VoteKind
  | 0 => some .any
  | 1 => some .all
  | 2 => some .uni
  | 3 => some .ballot
  | _ => none

/-- Codes of `XMode`. -/
def XMode.code : XMode → Nat
  | .idx => 0
  | .rot => 1
  | .xor => 2
  | .shift => 3

/-- The `XMode` of a code, if any. -/
def XMode.ofCode : Nat → Option XMode
  | 0 => some .idx
  | 1 => some .rot
  | 2 => some .xor
  | 3 => some .shift
  | _ => none

/-- Codes of `RedOp`. -/
def RedOp.code : RedOp → Nat
  | .add => 0
  | .min => 1
  | .max => 2
  | .and => 3
  | .or => 4
  | .xor => 5

/-- The `RedOp` of a code, if any. -/
def RedOp.ofCode : Nat → Option RedOp
  | 0 => some .add
  | 1 => some .min
  | 2 => some .max
  | 3 => some .and
  | 4 => some .or
  | 5 => some .xor
  | _ => none

/-- Codes of `AtOp`. -/
def AtOp.code : AtOp → Nat
  | .add => 0
  | .min => 1
  | .max => 2
  | .and => 3
  | .or => 4
  | .xor => 5
  | .exch => 6
  | .inc => 7
  | .dec => 8

/-- The `AtOp` of a code, if any. -/
def AtOp.ofCode : Nat → Option AtOp
  | 0 => some .add
  | 1 => some .min
  | 2 => some .max
  | 3 => some .and
  | 4 => some .or
  | 5 => some .xor
  | 6 => some .exch
  | 7 => some .inc
  | 8 => some .dec
  | _ => none

/-- Codes of `CvtFmt`. -/
def CvtFmt.code : CvtFmt → Nat
  | .s32 => 0
  | .n32 => 1
  | .s64 => 2
  | .n64 => 3
  | .f64 => 4
  | .f32 => 5
  | .fp16 => 6
  | .bf16 => 7
  | .e4m3 => 8
  | .e5m2 => 9
  | .e2m1 => 10
  | .s16 => 11
  | .n16 => 12
  | .s8 => 13
  | .n8 => 14
  | .s4 => 15

/-- The `CvtFmt` of a code, if any. -/
def CvtFmt.ofCode : Nat → Option CvtFmt
  | 0 => some .s32
  | 1 => some .n32
  | 2 => some .s64
  | 3 => some .n64
  | 4 => some .f64
  | 5 => some .f32
  | 6 => some .fp16
  | 7 => some .bf16
  | 8 => some .e4m3
  | 9 => some .e5m2
  | 10 => some .e2m1
  | 11 => some .s16
  | 12 => some .n16
  | 13 => some .s8
  | 14 => some .n8
  | 15 => some .s4
  | _ => none

/-- Codes of `EscOp`. -/
def EscOp.code : EscOp → Nat
  | .derive => 0
  | .div => 1
  | .mul => 2

/-- The `EscOp` of a code, if any. -/
def EscOp.ofCode : Nat → Option EscOp
  | 0 => some .derive
  | 1 => some .div
  | 2 => some .mul
  | _ => none

/-- Codes of `PrefLevel`. -/
def PrefLevel.code : PrefLevel → Nat
  | .l1 => 0
  | .l2 => 1
  | .l2x => 2

/-- The `PrefLevel` of a code, if any. -/
def PrefLevel.ofCode : Nat → Option PrefLevel
  | 0 => some .l1
  | 1 => some .l2
  | 2 => some .l2x
  | _ => none

/-- Codes of `CctlOp`. -/
def CctlOp.code : CctlOp → Nat
  | .wb => 0
  | .wbinv => 1
  | .wball => 2
  | .wbinvall => 3

/-- The `CctlOp` of a code, if any. -/
def CctlOp.ofCode : Nat → Option CctlOp
  | 0 => some .wb
  | 1 => some .wbinv
  | 2 => some .wball
  | 3 => some .wbinvall
  | _ => none

/-- Codes of `BankMode`. -/
def BankMode.code : BankMode → Nat
  | .cache => 0
  | .scratch => 1
  | .fifo => 2

/-- The `BankMode` of a code, if any. -/
def BankMode.ofCode : Nat → Option BankMode
  | 0 => some .cache
  | 1 => some .scratch
  | 2 => some .fifo
  | _ => none

/-- Codes of `SetFmtForm`. -/
def SetFmtForm.code : SetFmtForm → Nat
  | .write => 0
  | .writeClear => 1
  | .clear => 2

/-- The `SetFmtForm` of a code, if any. -/
def SetFmtForm.ofCode : Nat → Option SetFmtForm
  | 0 => some .write
  | 1 => some .writeClear
  | 2 => some .clear
  | _ => none

/-- Codes of `InvKind`. -/
def InvKind.code : InvKind → Nat
  | .page => 0
  | .range => 1
  | .all => 2

/-- The `InvKind` of a code, if any. -/
def InvKind.ofCode : Nat → Option InvKind
  | 0 => some .page
  | 1 => some .range
  | 2 => some .all
  | _ => none

/-- Codes of `ProvqMode`. -/
def ProvqMode.code : ProvqMode → Nat
  | .self => 0
  | .pred => 1
  | .upd => 2

/-- The `ProvqMode` of a code, if any. -/
def ProvqMode.ofCode : Nat → Option ProvqMode
  | 0 => some .self
  | 1 => some .pred
  | 2 => some .upd
  | _ => none

/-- Codes of `Csr`. -/
def Csr.code : Csr → Nat
  | .ctx => 0
  | .keyid => 1
  | .ptRoot => 2
  | .frame => 3
  | .poolAvail => 4
  | .wtEntry => 5
  | .aside => 6
  | .resumePc => 7
  | .savedFmt => 8
  | .dutyMode => 9
  | .faultVa => 10

/-- The `Csr` of a code, if any. -/
def Csr.ofCode : Nat → Option Csr
  | 0 => some .ctx
  | 1 => some .keyid
  | 2 => some .ptRoot
  | 3 => some .frame
  | 4 => some .poolAvail
  | 5 => some .wtEntry
  | 6 => some .aside
  | 7 => some .resumePc
  | 8 => some .savedFmt
  | 9 => some .dutyMode
  | 10 => some .faultVa
  | _ => none

/-- Bits `lo` to `lo + w - 1` of a number. -/
def fld (x lo w : Nat) : Nat := x / 2 ^ lo % 2 ^ w

/-- A number below `n`. -/
def finOf (n x : Nat) : Option (Fin n) := if h : x < n then some ⟨x, h⟩ else none

/-- The b types (R46, R169). -/
def Ty.isB : Ty → Bool
  | .b32 | .b64 => true
  | _ => false

/-- Registers a value of the type occupies: 2 for a 64-bit type (R44). -/
def tw : Ty → Nat
  | .b64 | .s64 | .n64 | .f64 => 2
  | _ => 1

/-- Width in bits of a conversion format code (R222). -/
def cvtW (c : Nat) : Nat :=
  match c with
  | 2 | 3 | 4 => 64
  | 0 | 1 | 5 => 32
  | 6 | 7 | 11 | 12 => 16
  | 8 | 9 | 13 | 14 => 8
  | _ => 4

/-- Registers of a memory WIDTH code (R261). -/
def memRegs (w : Nat) : Nat :=
  match w with
  | 5 => 2
  | 6 => 4
  | _ => 1

/-- Whether `sread` of a register number may have a uniform destination: all but %laneid and %sliceid (R193). -/
def sregUniform (n : Nat) : Bool := n != 0 && n != 2

/-- The types an OPC accepts (R345). -/
def atOpTypes (opc : Nat) (t : Ty) : Bool :=
  match opc with
  | 0 | 1 | 2 => !t.isB
  | 3 | 4 | 5 | 6 => t.isB
  | _ => t == .n32 || t == .n64

/-- Whether a handler register is 64 bits wide (R443). -/
def csrWide (n : Nat) : Bool := n == 2 || n == 3 || n == 7 || n == 10

/-- What an operand field accepts. `reg v u z k l al span`: vector, uniform, 0xE0, the other constants of KC, and
%laneid (R166), registers a multiple of `al` with `span` registers from there inside the file; `koff`: 0xE0 or 0xE1
(R261); `pred p q`: a predicate field; `imm`: part of a 24-bit immediate (R43). -/
inductive Kind where
  | unused | imm | koff
  | pred (p q : Bool)
  | reg (v u z k l : Bool) (al span : Nat)
  deriving DecidableEq, Repr

/-- One row of the encoding tables at given TYPE and MOD: types accepted, kinds of D, A, B and C, uniform guard
(R167), long-latency (R36), release bits allowed, and the row's further rules. -/
structure RowSpec where
  types : List Ty
  d : Kind
  a : Kind
  b : Kind
  c : Kind
  uguard : Bool
  ll : Bool
  rel : Bool
  ok : Bool
  deriving DecidableEq, Repr

/-- The parts of a full word (R41). -/
structure Parts where
  op : Nat
  o : Opnds
  off : BitVec 24
  m : Nat
  deriving DecidableEq, Repr


/-- The field kinds, types and checks of each full word (R52 and the encoding tables), by OP; `t` is its TYPE and
`m` its MOD. -/
def rowSpec (op : Nat) (t : Ty) (m : Nat) : Option RowSpec :=
  match op with
  | 0x00 => some ⟨[.b32], Kind.unused, Kind.unused, Kind.unused, Kind.unused, false, false, true, true⟩  -- nop
  | 0x01 => some ⟨[.b32], Kind.unused, .imm, .imm, .imm, false, false, false, true⟩  -- bra
  | 0x02 => some ⟨[.b32], Kind.unused, .reg true true false false false (2) (2), Kind.unused, Kind.unused, false, false, true, true⟩  -- bri
  | 0x03 => some ⟨[.b32], Kind.unused, .imm, .imm, .imm, false, false, false, true⟩  -- call
  | 0x04 => some ⟨[.b32], Kind.unused, .reg true true false false false (2) (2), Kind.unused, Kind.unused, false, false, true, true⟩  -- calli
  | 0x05 => some ⟨[.b32], Kind.unused, .reg true true false false false (2) (2), Kind.unused, Kind.unused, false, false, true, true⟩  -- ret
  | 0x06 => some ⟨[.b32], Kind.unused, Kind.unused, Kind.unused, Kind.unused, false, false, true, true⟩  -- exit
  | 0x07 => some ⟨[.b32], Kind.unused, Kind.unused, Kind.unused, Kind.unused, false, false, true, true⟩  -- yield
  | 0x08 => some ⟨[.n32], Kind.unused, .reg false true true true false (1) (1), Kind.unused, Kind.unused, false, false, true, true⟩  -- nap
  | 0x09 => some ⟨[.b32], Kind.unused, Kind.unused, Kind.unused, Kind.unused, false, false, true, true⟩  -- fwait
  | 0x0a => some ⟨[.b32], Kind.unused, (if (fld m 0 2) = 2 then .reg false false true false false 1 1 else .reg false true true true false (1) (1)), Kind.unused, Kind.unused, false, false, true, true⟩  -- setfmt
  | 0x0b => some ⟨[.b32], .reg true true true false false (1) (1), Kind.unused, Kind.unused, Kind.unused, false, false, true, true⟩  -- getfmt
  | 0x0c => some ⟨[.b32], Kind.unused, Kind.unused, Kind.unused, Kind.unused, false, false, true, true⟩  -- brk
  | 0x0d => some ⟨[.b32], Kind.unused, Kind.unused, Kind.unused, Kind.unused, false, false, true, true⟩  -- trap
  | 0x0e => some ⟨[.b32], Kind.unused, Kind.unused, Kind.unused, Kind.unused, false, false, true, true⟩  -- sprint
  | 0x10 => some ⟨[.b32, .b64], .reg false true true false false ((tw t)) ((tw t)), .reg true true true true false ((tw t)) ((tw t)), Kind.unused, Kind.unused, true, false, true, true⟩  -- smov
  | 0x11 => some ⟨[.b32, .s32, .n32, .b64, .s64, .n64], .reg false true true false false ((tw t)) ((tw t)), .reg false true true true false ((tw t)) ((tw t)), .reg false true true true false ((tw t)) ((tw t)), Kind.unused, true, false, true, (fld m 0 1 = 0 || !t.isB)⟩  -- sadd
  | 0x12 => some ⟨[.b32, .s32, .n32, .b64, .s64, .n64], .reg false true true false false ((tw t)) ((tw t)), .reg false true true true false ((tw t)) ((tw t)), .reg false true true true false ((tw t)) ((tw t)), Kind.unused, true, false, true, (fld m 0 1 = 0 || !t.isB)⟩  -- ssub
  | 0x13 => some ⟨[.b32, .s32, .n32, .b64, .s64, .n64], .reg false true true false false ((if fld m 0 2 = 2 then 2 else tw t)) ((if fld m 0 2 = 2 then 2 else tw t)), .reg false true true true false ((tw t)) ((tw t)), .reg false true true true false ((tw t)) ((tw t)), Kind.unused, true, false, true, (fld m 0 2 = 0 || t = .s32 || t = .n32)⟩  -- smul
  | 0x14 => some ⟨[.b32, .s32, .n32, .b64, .s64, .n64], .reg false true true false false ((if fld m 0 2 = 2 then 2 else tw t)) ((if fld m 0 2 = 2 then 2 else tw t)), .reg false true true true false ((tw t)) ((tw t)), .reg false true true true false ((tw t)) ((tw t)), .reg false true true true false ((if fld m 0 2 = 2 then 2 else tw t)) ((if fld m 0 2 = 2 then 2 else tw t)), true, false, true, (fld m 0 2 = 0 || t = .s32 || t = .n32)⟩  -- smad
  | 0x15 => some ⟨[.b32, .b64], .reg false true true false false ((tw t)) ((tw t)), .reg false true true true false ((tw t)) ((tw t)), .reg false true true true false ((tw t)) ((tw t)), .reg false true true true false ((tw t)) ((tw t)), true, false, true, true⟩  -- slop
  | 0x16 => some ⟨[.b32, .b64], .reg false true true false false ((tw t)) ((tw t)), .reg false true true true false ((tw t)) ((tw t)), .reg false true true true false (1) (1), Kind.unused, true, false, true, true⟩  -- sshf
  | 0x17 => some ⟨[.b32, .s32, .n32, .b64, .s64, .n64], .pred false true, .reg false true true true false ((tw t)) ((tw t)), .reg false true true true false ((tw t)) ((tw t)), (if (fld m 3 2) = 0 then Kind.unused else .pred false true), true, false, true, (fld m 0 3 < 2 || !t.isB)⟩  -- ssetp
  | 0x18 => some ⟨[.b32, .b64], .reg false true true false false ((tw t)) ((tw t)), .reg false true true true false ((tw t)) ((tw t)), .reg false true true true false ((tw t)) ((tw t)), .pred false true, true, false, true, true⟩  -- ssel
  | 0x19 => some ⟨[.b32], .reg false true true false false ((2 ^ fld m 0 2)) ((2 ^ fld m 0 2)), .reg false true true false false (2) (2), .reg false true true true false (1) (1), Kind.unused, true, true, true, (fld m 2 2 ≠ 0 || fld m 4 3 = 0)⟩  -- sld
  | 0x1a => some ⟨[.b32, .b64], (.reg true (sregUniform (fld m 0 5)) true false false (tw t) (tw t)), Kind.unused, Kind.unused, Kind.unused, true, false, true, ((fld m 0 5 == 16) == (t == .b64))⟩  -- sread
  | 0x1b => some ⟨[.b32], (if (fld m 0 2) = 3 then .reg false true false false false (1) (1) else .pred false true), .pred true true, Kind.unused, Kind.unused, true, false, true, true⟩  -- vote
  | 0x1c => some ⟨[.b32, .b64], .reg false true true false false (1) (1), .reg false true true true false ((tw t)) ((tw t)), Kind.unused, Kind.unused, true, false, true, true⟩  -- spop
  | 0x20 => some ⟨[.s32, .n32, .b32, .s64, .n64, .b64, .s16x2, .n16x2, .s8x4, .n8x4], .reg true false true false false ((tw t)) ((tw t)), .reg true true true true true ((tw t)) ((tw t)), .reg true true true true true ((tw t)) ((tw t)), .reg true true true true true ((tw t)) ((tw t)), false, false, true, (fld m 0 1 = 0 || !t.isB)⟩  -- iadd
  | 0x21 => some ⟨[.s32, .n32, .b32, .s64, .n64, .b64, .s16x2, .n16x2, .s8x4, .n8x4], .reg true false true false false ((tw t)) ((tw t)), .reg true true true true true ((tw t)) ((tw t)), .reg true true true true true ((tw t)) ((tw t)), Kind.unused, false, false, true, (fld m 0 1 = 0 || !t.isB)⟩  -- isub
  | 0x22 => some ⟨[.b32, .s32, .n32, .b64, .s64, .n64, .s16x2, .n16x2], .reg true false true false false ((if fld m 0 2 = 2 then 2 else tw t)) ((if fld m 0 2 = 2 then 2 else tw t)), .reg true true true true true ((tw t)) ((tw t)), .reg true true true true true ((tw t)) ((tw t)), Kind.unused, false, false, true, (fld m 0 2 = 0 || t = .s32 || t = .n32)⟩  -- imul
  | 0x23 => some ⟨[.b32, .s32, .n32, .b64, .s64, .n64], .reg true false true false false ((if fld m 0 2 = 2 then 2 else tw t)) ((if fld m 0 2 = 2 then 2 else tw t)), .reg true true true true true ((tw t)) ((tw t)), .reg true true true true true ((tw t)) ((tw t)), .reg true true true true true ((if fld m 0 2 = 2 then 2 else tw t)) ((if fld m 0 2 = 2 then 2 else tw t)), false, false, true, (fld m 0 2 = 0 || t = .s32 || t = .n32)⟩  -- imad
  | 0x24 => some ⟨[.s32, .n32, .s64, .n64, .s16x2, .n16x2, .s8x4, .n8x4], .reg true false true false false ((tw t)) ((tw t)), .reg true true true true true ((tw t)) ((tw t)), .reg true true true true true ((tw t)) ((tw t)), Kind.unused, false, false, true, true⟩  -- imin
  | 0x25 => some ⟨[.s32, .n32, .s64, .n64, .s16x2, .n16x2, .s8x4, .n8x4], .reg true false true false false ((tw t)) ((tw t)), .reg true true true true true ((tw t)) ((tw t)), .reg true true true true true ((tw t)) ((tw t)), Kind.unused, false, false, true, true⟩  -- imax
  | 0x26 => some ⟨[.s32, .s64, .s16x2, .s8x4], .reg true false true false false ((tw t)) ((tw t)), .reg true true true true true ((tw t)) ((tw t)), Kind.unused, Kind.unused, false, false, true, true⟩  -- iabs
  | 0x27 => some ⟨[.s32, .n32, .s8x4, .n8x4], .reg true false true false false (1) (1), .reg true true true true true (1) (1), .reg true true true true true (1) (1), .reg true true true true true (1) (1), false, false, true, true⟩  -- isad
  | 0x28 => some ⟨[.b32, .s32, .n32, .b64, .s64, .n64], .pred true false, .reg true true true true true ((tw t)) ((tw t)), .reg true true true true true ((tw t)) ((tw t)), (if (fld m 3 2) = 0 then Kind.unused else .pred true true), false, false, true, (fld m 0 3 < 2 || !t.isB)⟩  -- isetp
  | 0x29 => some ⟨[.b32, .b64], .reg true false true false false ((tw t)) ((tw t)), .reg true true true true true ((tw t)) ((tw t)), .reg true true true true true ((tw t)) ((tw t)), .pred true true, false, false, true, true⟩  -- sel
  | 0x2a => some ⟨[.b32, .n32, .s32, .b64], .reg true false true false false ((if t = .b32 then 1 else 2)) ((if t = .b32 then 1 else 2)), .reg true true true true true ((tw t)) ((tw t)), .reg true true true true true ((if t = .b32 then 1 else 2)) ((if t = .b32 then 1 else 2)), Kind.unused, false, false, true, true⟩  -- lea
  | 0x2b => some ⟨[.b32, .b64], .reg true false true false false ((tw t)) ((tw t)), .reg true true true true true ((tw t)) ((tw t)), Kind.unused, Kind.unused, false, false, true, true⟩  -- mov
  | 0x2c => some ⟨[.b32, .b64], .reg true false true false false ((tw t)) ((tw t)), .imm, .imm, .imm, false, false, false, true⟩  -- movi
  | 0x2d => some ⟨[.s8x4, .n8x4], .reg true false true false false (1) (1), .reg true true true true true (1) (1), .reg true true true true true (1) (1), .reg true true true true true (1) (1), false, false, true, true⟩  -- idp4
  | 0x30 => some ⟨[.b32, .b64], .reg true false true false false ((tw t)) ((tw t)), .reg true true true true true ((tw t)) ((tw t)), .reg true true true true true ((tw t)) ((tw t)), .reg true true true true true ((tw t)) ((tw t)), false, false, true, true⟩  -- bitfn
  | 0x31 => some ⟨[.b32, .b64], .reg true false true false false ((tw t)) ((tw t)), .reg true true true true true ((tw t)) ((tw t)), .reg true true true true true (1) (1), Kind.unused, false, false, true, true⟩  -- shl
  | 0x32 => some ⟨[.b32, .n32, .s32, .b64, .n64, .s64], .reg true false true false false ((tw t)) ((tw t)), .reg true true true true true ((tw t)) ((tw t)), .reg true true true true true (1) (1), Kind.unused, false, false, true, true⟩  -- shr
  | 0x33 => some ⟨[.b32], .reg true false true false false (1) (1), .reg true true true true true (1) (1), .reg true true true true true (1) (1), .reg true true true true true (1) (1), false, false, true, true⟩  -- fwin
  | 0x34 => some ⟨[.s32, .n32, .s64, .n64], .reg true false true false false ((tw t)) ((tw t)), .reg true true true true true ((tw t)) ((tw t)), .reg true true true true true (1) (1), Kind.unused, false, false, true, true⟩  -- bfe
  | 0x35 => some ⟨[.b32, .b64], .reg true false true false false ((tw t)) ((tw t)), .reg true true true true true ((tw t)) ((tw t)), .reg true true true true true ((tw t)) ((tw t)), .reg true true true true true (1) (1), false, false, true, true⟩  -- bfi
  | 0x36 => some ⟨[.b32, .b64], .reg true false true false false (1) (1), .reg true true true true true ((tw t)) ((tw t)), Kind.unused, Kind.unused, false, false, true, true⟩  -- popc
  | 0x37 => some ⟨[.b32, .b64], .reg true false true false false (1) (1), .reg true true true true true ((tw t)) ((tw t)), Kind.unused, Kind.unused, false, false, true, true⟩  -- clz
  | 0x38 => some ⟨[.b32, .b64], .reg true false true false false ((tw t)) ((tw t)), .reg true true true true true ((tw t)) ((tw t)), Kind.unused, Kind.unused, false, false, true, true⟩  -- brev
  | 0x39 => some ⟨[.b32], .reg true false true false false (1) (1), .reg true true true true true (1) (1), .reg true true true true true (1) (1), .reg true true true true true (1) (1), false, false, true, true⟩  -- bsel
  | 0x3a => some ⟨[.b32], .pred true false, .pred true true, .pred true true, .pred true true, false, false, true, true⟩  -- plop
  | 0x3b => some ⟨[.b32], .reg true false true false false (1) (1), Kind.unused, Kind.unused, Kind.unused, false, false, true, true⟩  -- p2v
  | 0x3c => some ⟨[.b32], Kind.unused, .reg true true true true true (1) (1), Kind.unused, Kind.unused, false, false, true, true⟩  -- v2p
  | 0x40 => some ⟨[.f32, .f64], .reg true false true false false ((tw t)) ((tw t)), .reg true true true true false ((tw t)) ((tw t)), .reg true true true true false ((tw t)) ((tw t)), Kind.unused, false, false, true, true⟩  -- fadd
  | 0x41 => some ⟨[.f32, .f64], .reg true false true false false ((tw t)) ((tw t)), .reg true true true true false ((tw t)) ((tw t)), .reg true true true true false ((tw t)) ((tw t)), Kind.unused, false, false, true, true⟩  -- fsub
  | 0x42 => some ⟨[.f32, .f64], .reg true false true false false ((tw t)) ((tw t)), .reg true true true true false ((tw t)) ((tw t)), .reg true true true true false ((tw t)) ((tw t)), Kind.unused, false, false, true, true⟩  -- fmul
  | 0x43 => some ⟨[.f32, .f64], .reg true false true false false ((tw t)) ((tw t)), .reg true true true true false ((tw t)) ((tw t)), .reg true true true true false ((tw t)) ((tw t)), .reg true true true true false ((tw t)) ((tw t)), false, false, true, true⟩  -- ffma
  | 0x44 => some ⟨[.f32, .f64], .reg true false true false false ((tw t)) ((tw t)), .reg true true true true false ((tw t)) ((tw t)), .reg true true true true false ((tw t)) ((tw t)), Kind.unused, false, false, true, true⟩  -- fmin
  | 0x45 => some ⟨[.f32, .f64], .reg true false true false false ((tw t)) ((tw t)), .reg true true true true false ((tw t)) ((tw t)), .reg true true true true false ((tw t)) ((tw t)), Kind.unused, false, false, true, true⟩  -- fmax
  | 0x46 => some ⟨[.f32, .f64], .pred true false, .reg true true true true false ((tw t)) ((tw t)), .reg true true true true false ((tw t)) ((tw t)), (if (fld m 4 2) = 0 then Kind.unused else .pred true true), false, false, true, true⟩  -- fsetp
  | 0x47 => some ⟨[.f32, .f64], .reg true false true false false (1) (1), .reg true true true true false ((tw t)) ((tw t)), Kind.unused, Kind.unused, false, false, true, true⟩  -- fclass
  | 0x48 => some ⟨[.f32, .f64], .reg true false true false false ((tw t)) ((tw t)), .reg true true true true false ((tw t)) ((tw t)), Kind.unused, Kind.unused, false, false, true, true⟩  -- frnd
  | 0x49 => some ⟨[.f32, .f64], .reg true false true false false ((tw t)) ((tw t)), .reg true true true true false ((tw t)) ((tw t)), .reg true true true true false (1) (1), Kind.unused, false, false, true, true⟩  -- fscale
  | 0x50 => some ⟨[.f16x2, .bf16x2], .reg true false true false false (1) (1), .reg true true true true false (1) (1), .reg true true true true false (1) (1), Kind.unused, false, false, true, true⟩  -- hadd2
  | 0x51 => some ⟨[.f16x2, .bf16x2], .reg true false true false false (1) (1), .reg true true true true false (1) (1), .reg true true true true false (1) (1), Kind.unused, false, false, true, true⟩  -- hmul2
  | 0x52 => some ⟨[.f16x2, .bf16x2], .reg true false true false false (1) (1), .reg true true true true false (1) (1), .reg true true true true false (1) (1), .reg true true true true false (1) (1), false, false, true, true⟩  -- hfma2
  | 0x53 => some ⟨[.f16x2, .bf16x2], .reg true false true false false (1) (1), .reg true true true true false (1) (1), .reg true true true true false (1) (1), Kind.unused, false, false, true, true⟩  -- hmin2
  | 0x54 => some ⟨[.f16x2, .bf16x2], .reg true false true false false (1) (1), .reg true true true true false (1) (1), .reg true true true true false (1) (1), Kind.unused, false, false, true, true⟩  -- hmax2
  | 0x55 => some ⟨[.b32], .reg true false true false false ((cvtW (fld m 0 4) / 64 + 1)) ((cvtW (fld m 0 4) / 64 + 1)), .reg true true true true false ((cvtW (fld m 4 4) / 64 + 1)) ((cvtW (fld m 4 4) / 64 + 1)), (if cvtW (fld m 4 4) < 32 then .reg true true true true false (1) (1) else .reg false false true false false 1 1), Kind.unused, false, false, true, (fld m 11 1 = 0 || fld m 8 3 = 0)⟩  -- cvt
  | 0x56 => some ⟨[.f32], .reg true false true false false (1) (1), .reg true true true true false (1) (1), .reg true true true true false (1) (1), (if cvtW (fld m 0 4) = 16 then .reg false false true false false 1 1 else .reg true true true true false (1) (1)), false, false, true, (fld m 11 1 = 0 || fld m 8 3 = 0) && cvtW (fld m 0 4) < 32 && fld m 4 2 < 16 / cvtW (fld m 0 4)⟩  -- cvts
  | 0x57 => some ⟨[.f32], .reg true false true false false (1) (1), .reg true true true true false (1) (1), Kind.unused, Kind.unused, false, false, true, true⟩  -- packq
  | 0x58 => some ⟨[.f32], .reg true false true false false (1) (1), .reg true true true true false (1) (1), Kind.unused, Kind.unused, false, false, true, true⟩  -- unpq
  | 0x59 => some ⟨[.f32], .reg true false true false false (1) (1), .reg true true true true false (1) (1), (if fld m 4 2 = 0 then .reg false false true false false 1 1 else .reg true true true true false (1) (1)), Kind.unused, false, false, true, (if fld m 4 2 = 0 then fld m 0 4 ∈ [8, 9, 10, 13, 15] else fld m 0 4 = 0)⟩  -- escale
  | 0x60 => some ⟨[.f32], .reg true false true false false (1) (1), .reg true true true true false (1) (1), Kind.unused, Kind.unused, false, false, true, true⟩  -- frcp
  | 0x61 => some ⟨[.f32], .reg true false true false false (1) (1), .reg true true true true false (1) (1), Kind.unused, Kind.unused, false, false, true, true⟩  -- frsq
  | 0x62 => some ⟨[.f32], .reg true false true false false (1) (1), .reg true true true true false (1) (1), Kind.unused, Kind.unused, false, false, true, true⟩  -- fsqrt
  | 0x63 => some ⟨[.f32], .reg true false true false false (1) (1), .reg true true true true false (1) (1), Kind.unused, Kind.unused, false, false, true, true⟩  -- fex2
  | 0x64 => some ⟨[.f32], .reg true false true false false (1) (1), .reg true true true true false (1) (1), Kind.unused, Kind.unused, false, false, true, true⟩  -- flg2
  | 0x65 => some ⟨[.f32], .reg true false true false false (1) (1), .reg true true true true false (1) (1), Kind.unused, Kind.unused, false, false, true, true⟩  -- fsin
  | 0x66 => some ⟨[.f32], .reg true false true false false (1) (1), .reg true true true true false (1) (1), Kind.unused, Kind.unused, false, false, true, true⟩  -- fcos
  | 0x67 => some ⟨[.f32], .reg true false true false false (1) (1), .reg true true true true false (1) (1), Kind.unused, Kind.unused, false, false, true, true⟩  -- ftanh
  | 0x68 => some ⟨[.b32, .b64], .reg true false true false false ((tw t)) ((tw t)), .reg true true true true false ((tw t)) ((tw t)), .reg true true true true false (1) (1), .reg false true true true false (1) (1), false, false, true, true⟩  -- xlane
  | 0x69 => some ⟨[.b32, .b64], .reg true false true false false (1) (1), .reg true true true true false ((tw t)) ((tw t)), Kind.unused, Kind.unused, false, false, true, true⟩  -- matchv
  | 0x6a => some ⟨[.b32, .s32, .n32, .b64, .s64, .n64, .f32, .f64], .reg true true true false false ((tw t)) ((tw t)), .reg true true true true false ((tw t)) ((tw t)), Kind.unused, Kind.unused, false, false, true, (if fld m 0 3 < 3 then fld m 0 3 = 0 || !t.isB else t.isB)⟩  -- redux
  | 0x6b => some ⟨[.b32, .s32, .n32, .b64, .s64, .n64, .f32, .f64], .reg true false true false false ((tw t)) ((tw t)), .reg true true true true false ((tw t)) ((tw t)), Kind.unused, Kind.unused, false, false, true, (if fld m 0 3 < 3 then fld m 0 3 = 0 || !t.isB else t.isB)⟩  -- scanx
  | 0x70 => some ⟨[.b32], .reg true false true false false ((memRegs (fld m 0 3))) ((memRegs (fld m 0 3))), .reg true true true false false (2) (2), (.reg true true (fld m 11 1 = 0) false false 1 1), .koff, false, true, true, (fld m 3 2 ≠ 0 || fld m 5 3 = 0)⟩  -- ld
  | 0x71 => some ⟨[.b32], .reg true true true false false ((memRegs (fld m 0 3))) ((memRegs (fld m 0 3))), .reg true true true false false (2) (2), (.reg true true (fld m 11 1 = 0) false false 1 1), .koff, false, false, true, (fld m 3 2 ≠ 0 || fld m 5 3 = 0)⟩  -- st
  | 0x72 => some ⟨[.b32], .reg true false true false false ((memRegs (fld m 0 3))) ((memRegs (fld m 0 3))), .reg true true true false false (1) (1), .reg true true true false false (1) (1), .koff, false, true, true, (fld m 3 2 ≠ 0 || fld m 5 3 = 0) && fld m 5 3 < 3⟩  -- lds
  | 0x73 => some ⟨[.b32], .reg true true true false false ((memRegs (fld m 0 3))) ((memRegs (fld m 0 3))), .reg true true true false false (1) (1), .reg true true true false false (1) (1), .koff, false, false, true, (fld m 3 2 ≠ 0 || fld m 5 3 = 0) && fld m 5 3 < 3⟩  -- sts
  | 0x74 => some ⟨[.b32], .reg true true false false false ((memRegs (fld m 0 3))) ((memRegs (fld m 0 3))), .reg true true true true false (1) (1), Kind.unused, .koff, false, true, true, 4 ≤ fld m 0 3⟩  -- ldc
  | 0x75 => some ⟨[.b32], .reg true false false false false ((memRegs (fld m 0 3))) ((memRegs (fld m 0 3))), .reg true true true false false (2) (2), (.reg true true (fld m 11 1 = 0) false false 1 1), .koff, false, true, true, (fld m 0 3 = 4 || fld m 0 3 = 5) && fld m 3 2 ≠ 0⟩  -- ldr
  | 0x76 => some ⟨[.b32], .reg true false true false false (1) (1), .reg true true true false false (2) (2), (.reg true true (fld m 11 1 = 0) false false 1 1), .reg true true false false false ((memRegs (fld m 0 3))) ((memRegs (fld m 0 3))), false, false, true, (fld m 0 3 = 4 || fld m 0 3 = 5) && fld m 3 2 ≠ 0⟩  -- stc
  | 0x77 => some ⟨[.b32], Kind.unused, .reg true true true false false (2) (2), (.reg true true (fld m 11 1 = 0) false false 1 1), .koff, false, false, true, true⟩  -- pref
  | 0x78 => some ⟨[.b32], Kind.unused, (if fld m 0 3 < 2 then .reg true true true false false (2) (2) else Kind.unused), (if fld m 0 3 < 2 then (.reg true true (fld m 11 1 = 0) false false 1 1) else Kind.unused), (if fld m 0 3 < 2 then .koff else Kind.unused), false, false, true, (fld m 0 3 < 2 || fld m 11 1 = 0)⟩  -- cctl
  | 0x79 => some ⟨[.b32], Kind.unused, .reg false true true false false (2) (2), Kind.unused, .koff, false, false, true, true⟩  -- icinv
  | 0x80 => some ⟨[.b32], Kind.unused, .reg false true false false false (8) (8), (if fld m 6 1 = 1 then .reg false true false true false (1) (1) else .reg false false true false false 1 1), Kind.unused, true, false, true, (fld m 6 1 = 1 || fld m 0 6 = 0)⟩  -- cpg
  | 0x81 => some ⟨[.b32], Kind.unused, .reg false true false false false (8) (8), .reg false false true false false 1 1, Kind.unused, true, false, true, true⟩  -- cps
  | 0x82 => some ⟨[.b32], Kind.unused, .reg false true false false false (8) (8), (if fld m 6 1 = 1 then .reg false true false true false (1) (1) else .reg false false true false false 1 1), Kind.unused, true, false, true, (fld m 6 1 = 1 || fld m 0 6 = 0)⟩  -- cpx
  | 0x83 => some ⟨[.b32], .reg true true true false false (1) (1), Kind.unused, Kind.unused, Kind.unused, true, false, true, true⟩  -- cpclose
  | 0x84 => some ⟨[.b32], Kind.unused, .reg false true true true false (1) (1), Kind.unused, Kind.unused, true, false, true, true⟩  -- cpwait
  | 0x85 => some ⟨[.b32], .reg false true true false false (1) (1), .reg false true true true false (1) (1), Kind.unused, Kind.unused, true, false, true, true⟩  -- bankcfg
  | 0x86 => some ⟨[.b32], Kind.unused, .reg true true true true false (1) (1), .reg false true true true false (1) (1), .pred false true, false, false, true, true⟩  -- fpush
  | 0x87 => some ⟨[.b32], .reg true false false false false (1) (1), Kind.unused, .reg false true true true false (1) (1), .pred false true, false, false, true, true⟩  -- fpop
  | 0x88 => some ⟨[.b32], .reg false true true false false (1) (1), .reg false true true true false (1) (1), Kind.unused, Kind.unused, true, false, true, true⟩  -- vtopen
  | 0x89 => some ⟨[.b32], .reg false true true false false (1) (1), .reg false true true true false (1) (1), Kind.unused, Kind.unused, true, false, true, true⟩  -- publish
  | 0x8a => some ⟨[.b32], Kind.unused, .reg false true true true false (1) (1), Kind.unused, Kind.unused, true, false, true, true⟩  -- vtdrop
  | 0x90 => some ⟨[.b32], Kind.unused, .reg true false false false false 1 64, Kind.unused, Kind.unused, true, true, false, true⟩  -- mldb
  | 0x91 => some ⟨[.b32], Kind.unused, .reg true false false false false 1 16, Kind.unused, Kind.unused, true, true, false, true⟩  -- mlds
  | 0x92 => some ⟨[.b32], (.reg false true (fld m 6 6 = 0) false false 1 1), (.reg true false false false false 2 (2 * (fld m 0 5 + 1))), (.reg true false true false false 1 ((fld m 0 5 + 8) / 8)), .reg false true true true false (1) (1), true, true, false, true⟩  -- mma
  | 0x93 => some ⟨[.b32], Kind.unused, Kind.unused, .reg false true true true false (1) (1), .reg false true true true false (1) (1), true, false, false, true⟩  -- mzero
  | 0x94 => some ⟨[.b32], .reg false true true false false (1) (1), .reg false true true true false (1) (1), Kind.unused, Kind.unused, true, false, false, true⟩  -- acalloc
  | 0x95 => some ⟨[.b32], .reg false true true false false (1) (1), .reg false true true true false (1) (1), Kind.unused, Kind.unused, true, false, false, true⟩  -- acfree
  | 0x96 => some ⟨[.b32], .reg true false false false false (1) (1), .reg false true true true false (1) (1), Kind.unused, (.reg false true (fld m 6 6 = 0) false false 1 1), true, true, false, true⟩  -- mdrain
  | 0x97 => some ⟨[.b32], .reg false true true true false (1) (1), .reg false true true true false (1) (1), .reg false true true true false (1) (1), (.reg false true (fld m 6 6 = 0) false false 1 1), true, false, false, true⟩  -- mdrains
  | 0x98 => some ⟨[.b32], Kind.unused, .reg false true true true false (1) (1), Kind.unused, Kind.unused, true, false, false, true⟩  -- epcfg
  | 0x99 => some ⟨[.b32], Kind.unused, .reg false true true true false (1) (1), Kind.unused, Kind.unused, true, false, false, true⟩  -- actld
  | 0xa0 => some ⟨[.b32, .s32, .n32, .f32, .b64, .s64, .n64, .f64], .reg true false true false false ((tw t)) ((tw t)), .reg true true true false false (2) (2), .reg true true true true false ((tw t)) ((tw t)), Kind.unused, false, true, false, (atOpTypes (fld m 0 4) t)⟩  -- atom
  | 0xa1 => some ⟨[.b32, .b64], .reg true false true false false ((tw t)) ((tw t)), .reg true true true false false (2) (2), .reg true true true true false ((tw t)) ((tw t)), .reg true true true true false ((tw t)) ((tw t)), false, true, false, true⟩  -- atomcas
  | 0xa2 => some ⟨[.b32, .s32, .n32, .f32, .b64, .s64, .n64, .f64], Kind.unused, .reg true true true false false (2) (2), .reg true true true true false ((tw t)) ((tw t)), Kind.unused, false, false, false, (atOpTypes (fld m 0 4) t) && fld m 0 4 ≠ 6 && fld m 4 1 = 0⟩  -- red
  | 0xa3 => some ⟨[.b32, .s32, .n32, .f32, .b64, .s64, .n64, .f64], .reg true false true false false ((tw t)) ((tw t)), .reg true true true false false (1) (1), .reg true true true true false ((tw t)) ((tw t)), Kind.unused, false, true, false, (atOpTypes (fld m 0 4) t) && fld m 6 3 < 3⟩  -- atoms
  | 0xa4 => some ⟨[.b32, .b64], .reg true false true false false ((tw t)) ((tw t)), .reg true true true false false (1) (1), .reg true true true true false ((tw t)) ((tw t)), .reg true true true true false ((tw t)) ((tw t)), false, true, false, fld m 6 3 < 3⟩  -- atomsc
  | 0xa5 => some ⟨[.f32], Kind.unused, .reg true true true false false (2) (2), .reg true true true true false (1) (1), Kind.unused, false, false, false, fld m 4 1 = 0⟩  -- atomc
  | 0xa6 => some ⟨[.f32], .reg true false true false false (1) (1), .reg true true true false false (2) (2), Kind.unused, Kind.unused, false, true, false, fld m 5 1 = 0⟩  -- rdc
  | 0xb0 => some ⟨[.b32], Kind.unused, Kind.unused, Kind.unused, Kind.unused, true, false, false, true⟩  -- fence
  | 0xb1 => some ⟨[.b32], Kind.unused, .reg false true true true false (1) (1), .reg false true true true false (1) (1), Kind.unused, true, false, false, true⟩  -- bar
  | 0xb2 => some ⟨[.b32], .reg false true true false false (1) (1), .reg false true true true false (1) (1), .reg false true true true false (1) (1), Kind.unused, true, false, false, true⟩  -- bara
  | 0xb3 => some ⟨[.b32], Kind.unused, .reg false true true true false (1) (1), .reg false true true true false (1) (1), Kind.unused, true, false, false, true⟩  -- barw
  | 0xb4 => some ⟨[.b32], Kind.unused, Kind.unused, Kind.unused, Kind.unused, true, false, false, true⟩  -- gbar
  | 0xb5 => some ⟨[.b32], .reg false true true false false (1) (1), (if fld m 3 1 = 1 then .reg false true false false false (1) (1) else .reg false true false false false (2) (2)), .reg false true true true false (1) (1), Kind.unused, true, false, false, (fld m 3 1 = 0 || fld m 0 3 < 3)⟩  -- arv
  | 0xb6 => some ⟨[.b32], Kind.unused, (if fld m 3 1 = 1 then .reg false true false false false (1) (1) else .reg false true false false false (2) (2)), .reg false true true true false (1) (1), Kind.unused, true, false, false, (fld m 3 1 = 0 || fld m 0 3 < 3)⟩  -- await
  | 0xb7 => some ⟨[.b32], Kind.unused, .reg false true true true false (1) (1), Kind.unused, Kind.unused, true, false, false, true⟩  -- ringa
  | 0xb8 => some ⟨[.b32], Kind.unused, .reg false true true true false (1) (1), .reg false true true true false (1) (1), Kind.unused, true, false, false, true⟩  -- ringw
  | 0xb9 => some ⟨[.b32], .reg false true true false false (1) (1), .reg false true false false false (2) (2), Kind.unused, Kind.unused, true, false, false, true⟩  -- lkacq
  | 0xba => some ⟨[.b32], .reg false true true false false (1) (1), .reg false true false false false (2) (2), Kind.unused, Kind.unused, true, false, false, true⟩  -- lkrel
  | 0xbb => some ⟨[.b32], .reg false true true false false (1) (1), .reg false true false false false (2) (2), .reg false true true true false (1) (1), Kind.unused, true, false, false, true⟩  -- waitv
  | 0xbc => some ⟨[.b32], .reg false true true false false (1) (1), .reg false true false false false (2) (2), .reg false true true true false (1) (1), .reg false true true true false (1) (1), true, false, false, true⟩  -- wake
  | 0xc0 => some ⟨[.b32], .reg false true true false false (1) (1), .reg false true false false false (2) (2), (if fld m 0 3 = 0 then .reg false false true false false 1 1 else .reg false true false false false 2 (2 * fld m 0 3)), .reg false true true true false (1) (1), true, false, false, true⟩  -- launch
  | 0xc1 => some ⟨[.b32], .reg false true true false false (1) (1), .reg false true false false false (2) (2), Kind.unused, Kind.unused, true, false, false, true⟩  -- gwait
  | 0xc2 => some ⟨[.b32], .reg false true true false false (1) (1), .reg false true false false false (16) (16), .reg false true true true false (1) (1), Kind.unused, true, false, false, true⟩  -- qpush
  | 0xc3 => some ⟨[.b32], .reg false true false false false (16) (16), Kind.unused, .reg false true true true false (1) (1), .pred false true, true, false, false, true⟩  -- qpop
  | 0xc4 => some ⟨[.b32], .reg false true true false false (1) (1), .reg false true false false false (2) (2), .reg false true true true false (1) (1), Kind.unused, true, false, false, true⟩  -- shape
  | 0xc5 => some ⟨[.b32], .reg false true true false false (1) (1), (if fld m 0 2 = 0 then .reg false false true false false 1 1 else .reg false true true true false (1) (1)), (if fld m 0 2 = 2 then .reg false true true true false (1) (1) else .reg false false true false false 1 1), Kind.unused, true, false, false, true⟩  -- provq
  | 0xd0 => some ⟨[.b32], Kind.unused, Kind.unused, Kind.unused, Kind.unused, true, false, false, true⟩  -- svc
  | 0xd1 => some ⟨[.b32], Kind.unused, Kind.unused, Kind.unused, Kind.unused, true, false, false, true⟩  -- rfe
  | 0xd2 => some ⟨[.b32], .reg false true true false false (2) (2), Kind.unused, Kind.unused, Kind.unused, true, false, false, true⟩  -- pgpop
  | 0xd3 => some ⟨[.b32], .reg false true true false false (1) (1), .reg false true false false false (2) (2), .reg false true false false false (2) (2), Kind.unused, true, false, false, true⟩  -- pgmap
  | 0xd4 => some ⟨[.b32], Kind.unused, (if fld m 0 2 = 2 then .reg false false true false false 1 1 else .reg false true false false false (2) (2)), (if fld m 0 2 = 1 then .reg false true false true false (1) (1) else .reg false false true false false 1 1), Kind.unused, true, false, false, true⟩  -- tlbinv
  | 0xd5 => some ⟨[.b32], .reg false true true false false (1) (1), (if fld m 0 1 = 1 then .reg false true true true false (1) (1) else .reg false true false false false (2) (2)), Kind.unused, Kind.unused, true, false, false, true⟩  -- replay
  | 0xd6 => some ⟨[.b32], Kind.unused, .reg false true true true false (1) (1), Kind.unused, Kind.unused, true, false, false, true⟩  -- park
  | 0xd7 => some ⟨[.b32, .b64], .reg false true false false false ((tw t)) ((tw t)), Kind.unused, Kind.unused, Kind.unused, true, false, false, (csrWide (fld m 0 8) == (t == .b64))⟩  -- csrrd
  | 0xd8 => some ⟨[.b32, .b64], Kind.unused, .reg false true true true false ((tw t)) ((tw t)), Kind.unused, Kind.unused, true, false, false, (csrWide (fld m 0 8) == (t == .b64)) && (fld m 0 8 = 7 || fld m 0 8 = 8)⟩  -- csrwr
  | 0xd9 => some ⟨[.b32, .b64], .pred true true, .reg true true false false false ((tw t)) ((tw t)), Kind.unused, Kind.unused, false, false, false, true⟩  -- poisck
  | 0xe0 => some ⟨[.b32], Kind.unused, (.reg false true (fld m 8 4 = 0) false false 1 (fld m 8 4)), Kind.unused, Kind.unused, true, false, false, fld m 0 8 < 240⟩  -- trace
  | 0xe1 => some ⟨[.b32], .reg false true true false false (1) (1), Kind.unused, Kind.unused, Kind.unused, true, false, false, true⟩  -- tmark
  | 0xe2 => some ⟨[.b32], .reg false true false false false (1) (1), Kind.unused, Kind.unused, Kind.unused, true, false, false, true⟩  -- rdcnt
  | 0xe3 => some ⟨[.b32], (.reg false true false false false 2 (if fld m 0 1 = 1 then 3 else 2)), Kind.unused, Kind.unused, Kind.unused, true, false, false, true⟩  -- rdptp
  | 0xe4 => some ⟨[.b32], Kind.unused, Kind.unused, Kind.unused, Kind.unused, true, false, false, true⟩  -- halt
  | _ => none

/-- OP, shared fields, 24-bit immediate and MOD of an instruction word; nothing for an event or a pair word. -/
def Instr.parts : Instr → Option Parts
  | .clauseDispatch _ _ => none
  | .warpAged _ _ => none
  | .docentEvaluation _ => none
  | .demotionComplete _ _ => none
  | .fairnessSwitch _ _ => none
  | .fairnessDeferExpiry _ _ => none
  | .longLatencyComplete _ _ _ => none
  | .sliceRetire _ _ _ => none
  | .cellRefill _ _ => none
  | .missStatusReissue _ => none
  | .missStatusReservationExpiry _ => none
  | .waitComplete _ _ => none
  | .napExpiry _ _ => none
  | .asyncFaultDelivery _ _ => none
  | .pairWord _ _ => none
  | .nop o => some ⟨0x00, o, 0, 0⟩
  | .bra o off uni => some ⟨0x01, o, off, uni.toNat⟩
  | .bri o => some ⟨0x02, o, 0, 0⟩
  | .call o off => some ⟨0x03, o, off, 0⟩
  | .calli o => some ⟨0x04, o, 0, 0⟩
  | .ret o => some ⟨0x05, o, 0, 0⟩
  | .exit o => some ⟨0x06, o, 0, 0⟩
  | .yield o => some ⟨0x07, o, 0, 0⟩
  | .nap o => some ⟨0x08, o, 0, 0⟩
  | .fwait o mask => some ⟨0x09, o, 0, mask.toNat⟩
  | .setfmt o form => some ⟨0x0a, o, 0, form.code⟩
  | .getfmt o => some ⟨0x0b, o, 0, 0⟩
  | .brk o code => some ⟨0x0c, o, 0, code.toNat⟩
  | .trap o code => some ⟨0x0d, o, 0, code.toNat⟩
  | .sprint o clr => some ⟨0x0e, o, 0, clr.toNat⟩
  | .smov o => some ⟨0x10, o, 0, 0⟩
  | .sadd o sat => some ⟨0x11, o, 0, sat.toNat⟩
  | .ssub o sat => some ⟨0x12, o, 0, sat.toNat⟩
  | .smul o mode => some ⟨0x13, o, 0, mode.code⟩
  | .smad o mode => some ⟨0x14, o, 0, mode.code⟩
  | .slop o fn => some ⟨0x15, o, 0, fn.toNat⟩
  | .sshf o kind => some ⟨0x16, o, 0, kind.code⟩
  | .ssetp o cmp comb => some ⟨0x17, o, 0, cmp.code + 8 * comb.code⟩
  | .ssel o negc => some ⟨0x18, o, 0, negc.toNat⟩
  | .sld o w ord scope => some ⟨0x19, o, 0, w.code + 4 * ord.code + 16 * scope.code⟩
  | .sread o sreg => some ⟨0x1a, o, 0, sreg.code⟩
  | .vote o kind nega => some ⟨0x1b, o, 0, kind.code + 4 * nega.toNat⟩
  | .spop o => some ⟨0x1c, o, 0, 0⟩
  | .iadd o sat => some ⟨0x20, o, 0, sat.toNat⟩
  | .isub o sat => some ⟨0x21, o, 0, sat.toNat⟩
  | .imul o mode => some ⟨0x22, o, 0, mode.code⟩
  | .imad o mode => some ⟨0x23, o, 0, mode.code⟩
  | .imin o => some ⟨0x24, o, 0, 0⟩
  | .imax o => some ⟨0x25, o, 0, 0⟩
  | .iabs o sat => some ⟨0x26, o, 0, sat.toNat⟩
  | .isad o => some ⟨0x27, o, 0, 0⟩
  | .isetp o cmp comb => some ⟨0x28, o, 0, cmp.code + 8 * comb.code⟩
  | .sel o negc => some ⟨0x29, o, 0, negc.toNat⟩
  | .lea o sh => some ⟨0x2a, o, 0, sh.val⟩
  | .mov o => some ⟨0x2b, o, 0, 0⟩
  | .movi o off => some ⟨0x2c, o, off, 0⟩
  | .idp4 o bsign sat => some ⟨0x2d, o, 0, bsign.toNat + 2 * sat.toNat⟩
  | .bitfn o fn => some ⟨0x30, o, 0, fn.toNat⟩
  | .shl o wrap => some ⟨0x31, o, 0, wrap.toNat⟩
  | .shr o wrap => some ⟨0x32, o, 0, wrap.toNat⟩
  | .fwin o wrap sfill => some ⟨0x33, o, 0, wrap.toNat + 2 * sfill.toNat⟩
  | .bfe o => some ⟨0x34, o, 0, 0⟩
  | .bfi o => some ⟨0x35, o, 0, 0⟩
  | .popc o => some ⟨0x36, o, 0, 0⟩
  | .clz o => some ⟨0x37, o, 0, 0⟩
  | .brev o => some ⟨0x38, o, 0, 0⟩
  | .bsel o => some ⟨0x39, o, 0, 0⟩
  | .plop o fn => some ⟨0x3a, o, 0, fn.toNat⟩
  | .p2v o mask => some ⟨0x3b, o, 0, mask.toNat⟩
  | .v2p o mask => some ⟨0x3c, o, 0, mask.toNat⟩
  | .fadd o rm => some ⟨0x40, o, 0, rm.code⟩
  | .fsub o rm => some ⟨0x41, o, 0, rm.code⟩
  | .fmul o rm => some ⟨0x42, o, 0, rm.code⟩
  | .ffma o rm => some ⟨0x43, o, 0, rm.code⟩
  | .fmin o nan => some ⟨0x44, o, 0, nan.toNat⟩
  | .fmax o nan => some ⟨0x45, o, 0, nan.toNat⟩
  | .fsetp o cmp comb => some ⟨0x46, o, 0, cmp.code + 16 * comb.code⟩
  | .fclass o => some ⟨0x47, o, 0, 0⟩
  | .frnd o rm => some ⟨0x48, o, 0, rm.code⟩
  | .fscale o rm => some ⟨0x49, o, 0, rm.code⟩
  | .hadd2 o rm => some ⟨0x50, o, 0, rm.code⟩
  | .hmul2 o rm => some ⟨0x51, o, 0, rm.code⟩
  | .hfma2 o rm => some ⟨0x52, o, 0, rm.code⟩
  | .hmin2 o nan => some ⟨0x53, o, 0, nan.toNat⟩
  | .hmax2 o nan => some ⟨0x54, o, 0, nan.toNat⟩
  | .cvt o dfmt sfmt rm sat usefmt => some ⟨0x55, o, 0, dfmt.code + 16 * sfmt.code + 256 * rm.code + 1024 * sat.toNat + 2048 * usefmt.toNat⟩
  | .cvts o dfmt pos rm sat usefmt => some ⟨0x56, o, 0, dfmt.code + 16 * pos.val + 256 * rm.code + 1024 * sat.toNat + 2048 * usefmt.toNat⟩
  | .packq o => some ⟨0x57, o, 0, 0⟩
  | .unpq o => some ⟨0x58, o, 0, 0⟩
  | .escale o tfmt opn => some ⟨0x59, o, 0, tfmt.code + 16 * opn.code⟩
  | .frcp o rm => some ⟨0x60, o, 0, rm.code⟩
  | .frsq o => some ⟨0x61, o, 0, 0⟩
  | .fsqrt o rm => some ⟨0x62, o, 0, rm.code⟩
  | .fex2 o => some ⟨0x63, o, 0, 0⟩
  | .flg2 o => some ⟨0x64, o, 0, 0⟩
  | .fsin o => some ⟨0x65, o, 0, 0⟩
  | .fcos o => some ⟨0x66, o, 0, 0⟩
  | .ftanh o => some ⟨0x67, o, 0, 0⟩
  | .xlane o mode => some ⟨0x68, o, 0, mode.code⟩
  | .matchv o all => some ⟨0x69, o, 0, all.toNat⟩
  | .redux o opr => some ⟨0x6a, o, 0, opr.code⟩
  | .scanx o opr excl => some ⟨0x6b, o, 0, opr.code + 8 * excl.toNat⟩
  | .ld o w ord scope cache vs ixs => some ⟨0x70, o, 0, w.code + 8 * ord.code + 32 * scope.code + 256 * cache.code + 1024 * vs.toNat + 2048 * ixs.toNat⟩
  | .st o w ord scope cache ixs => some ⟨0x71, o, 0, w.code + 8 * ord.code + 32 * scope.code + 256 * cache.code + 2048 * ixs.toNat⟩
  | .lds o w ord scope => some ⟨0x72, o, 0, w.code + 8 * ord.code + 32 * scope.code⟩
  | .sts o w ord scope => some ⟨0x73, o, 0, w.code + 8 * ord.code + 32 * scope.code⟩
  | .ldc o w bank => some ⟨0x74, o, 0, w.code + 8 * bank.val⟩
  | .ldr o w ord scope ixs => some ⟨0x75, o, 0, w.code + 8 * ord.code + 32 * scope.code + 2048 * ixs.toNat⟩
  | .stc o w ord scope ixs => some ⟨0x76, o, 0, w.code + 8 * ord.code + 32 * scope.code + 2048 * ixs.toNat⟩
  | .pref o level ixs => some ⟨0x77, o, 0, level.code + 2048 * ixs.toNat⟩
  | .cctl o opr ixs => some ⟨0x78, o, 0, opr.code + 2048 * ixs.toNat⟩
  | .icinv o => some ⟨0x79, o, 0, 0⟩
  | .cpg o slot arrive => some ⟨0x80, o, 0, slot.val + 64 * arrive.toNat⟩
  | .cps o => some ⟨0x81, o, 0, 0⟩
  | .cpx o slot arrive => some ⟨0x82, o, 0, slot.val + 64 * arrive.toNat⟩
  | .cpclose o => some ⟨0x83, o, 0, 0⟩
  | .cpwait o => some ⟨0x84, o, 0, 0⟩
  | .bankcfg o mode => some ⟨0x85, o, 0, mode.code⟩
  | .fpush o => some ⟨0x86, o, 0, 0⟩
  | .fpop o => some ⟨0x87, o, 0, 0⟩
  | .vtopen o copy => some ⟨0x88, o, 0, copy.toNat⟩
  | .publish o => some ⟨0x89, o, 0, 0⟩
  | .vtdrop o => some ⟨0x8a, o, 0, 0⟩
  | .copyCommandStart _ => none
  | .copyCommandComplete _ _ => none
  | .vtopenCopyComplete _ _ => none
  | .publishAckComplete _ _ => none
  | .mldb o slab lset foll => some ⟨0x90, o, 0, slab.val + 4 * lset.val + 8 * foll.toNat⟩
  | .mlds o lset foll => some ⟨0x91, o, 0, 4 * lset.val + 8 * foll.toNat⟩
  | .mma o mm1 lset slot => some ⟨0x92, o, 0, mm1.val + 32 * lset.val + 64 * slot.val⟩
  | .mzero o => some ⟨0x93, o, 0, 0⟩
  | .acalloc o wait => some ⟨0x94, o, 0, wait.toNat⟩
  | .acfree o => some ⟨0x95, o, 0, 0⟩
  | .mdrain o bias act req rm1 slot => some ⟨0x96, o, 0, bias.toNat + 2 * act.toNat + 4 * req.toNat + 8 * rm1.val + 64 * slot.val⟩
  | .mdrains o bias act req rm1 slot => some ⟨0x97, o, 0, bias.toNat + 2 * act.toNat + 4 * req.toNat + 8 * rm1.val + 64 * slot.val⟩
  | .epcfg o => some ⟨0x98, o, 0, 0⟩
  | .actld o => some ⟨0x99, o, 0, 0⟩
  | .matrixCommandExecute _ => none
  | .matrixCommandComplete _ => none
  | .epilogueCommandExecute _ => none
  | .epilogueCommandComplete _ => none
  | .accumGranulesCleared _ => none
  | .atom o opc ord scope koff => some ⟨0xa0, o, 0, opc.code + 16 * ord.code + 64 * scope.code + 512 * koff.toNat⟩
  | .atomcas o ord scope koff => some ⟨0xa1, o, 0, 16 * ord.code + 64 * scope.code + 512 * koff.toNat⟩
  | .red o opc ord scope koff => some ⟨0xa2, o, 0, opc.code + 16 * ord.code + 64 * scope.code + 512 * koff.toNat⟩
  | .atoms o opc ord scope koff => some ⟨0xa3, o, 0, opc.code + 16 * ord.code + 64 * scope.code + 512 * koff.toNat⟩
  | .atomsc o ord scope koff => some ⟨0xa4, o, 0, 16 * ord.code + 64 * scope.code + 512 * koff.toNat⟩
  | .atomc o ord scope koff => some ⟨0xa5, o, 0, 16 * ord.code + 64 * scope.code + 512 * koff.toNat⟩
  | .rdc o ord scope koff => some ⟨0xa6, o, 0, 16 * ord.code + 64 * scope.code + 512 * koff.toNat⟩
  | .fence o kind scope => some ⟨0xb0, o, 0, kind.code + 4 * scope.code⟩
  | .bar o => some ⟨0xb1, o, 0, 0⟩
  | .bara o => some ⟨0xb2, o, 0, 0⟩
  | .barw o => some ⟨0xb3, o, 0, 0⟩
  | .gbar o => some ⟨0xb4, o, 0, 0⟩
  | .arv o scope sp => some ⟨0xb5, o, 0, scope.code + 8 * sp.toNat⟩
  | .await o scope sp => some ⟨0xb6, o, 0, scope.code + 8 * sp.toNat⟩
  | .ringa o slot => some ⟨0xb7, o, 0, slot.val⟩
  | .ringw o slot => some ⟨0xb8, o, 0, slot.val⟩
  | .lkacq o wait => some ⟨0xb9, o, 0, wait.toNat⟩
  | .lkrel o => some ⟨0xba, o, 0, 0⟩
  | .waitv o scope => some ⟨0xbb, o, 0, scope.code⟩
  | .wake o scope => some ⟨0xbc, o, 0, scope.code⟩
  | .launch o nreg wait barrier irq => some ⟨0xc0, o, 0, nreg.val + 8 * wait.toNat + 16 * barrier.toNat + 32 * irq.toNat⟩
  | .gwait o vouch => some ⟨0xc1, o, 0, vouch.toNat⟩
  | .qpush o wait => some ⟨0xc2, o, 0, wait.toNat⟩
  | .qpop o wait => some ⟨0xc3, o, 0, wait.toNat⟩
  | .shape o => some ⟨0xc4, o, 0, 0⟩
  | .provq o mode => some ⟨0xc5, o, 0, mode.code⟩
  | .svc o code => some ⟨0xd0, o, 0, code.toNat⟩
  | .rfe o => some ⟨0xd1, o, 0, 0⟩
  | .pgpop o => some ⟨0xd2, o, 0, 0⟩
  | .pgmap o level => some ⟨0xd3, o, 0, level.val⟩
  | .tlbinv o kind => some ⟨0xd4, o, 0, kind.code⟩
  | .replay o tok => some ⟨0xd5, o, 0, tok.toNat⟩
  | .park o => some ⟨0xd6, o, 0, 0⟩
  | .csrrd o num => some ⟨0xd7, o, 0, num.code⟩
  | .csrwr o num => some ⟨0xd8, o, 0, num.code⟩
  | .poisck o => some ⟨0xd9, o, 0, 0⟩
  | .trace o tag n => some ⟨0xe0, o, 0, tag.toNat + 256 * n.val⟩
  | .tmark o => some ⟨0xe1, o, 0, 0⟩
  | .rdcnt o num => some ⟨0xe2, o, 0, num.val⟩
  | .rdptp o full => some ⟨0xe3, o, 0, full.toNat⟩
  | .halt o dump => some ⟨0xe4, o, 0, dump.toNat⟩
  | .queueTailObserve _ _ => none
  | .queueEntryConsume _ _ => none
  | .launchEntry _ _ => none
  | .shapeEntry _ _ => none
  | .replayEntry _ _ => none
  | .waitcEntry _ _ => none
  | .signalEntry _ _ => none
  | .queueEntryComplete _ _ _ => none
  | .queueRestart _ _ _ => none
  | .queueStop _ _ => none
  | .proxyForward _ _ => none
  | .proxyForwardTimer _ _ => none
  | .priorityAgeing _ _ => none
  | .blockPlacement _ => none
  | .blockRetire _ => none
  | .preemptionRequest _ _ => none
  | .timeSliceExpiry _ => none
  | .preemptBudgetExpiry _ _ => none
  | .warpStopPoint _ _ => none
  | .saveSpaceRetry _ => none
  | .contextSwitchOut _ => none
  | .contextSwitchIn _ => none
  | .migClaim _ => none
  | .migRelease _ => none
  | .migClaimExpiry _ _ => none
  | .pagePinExpiry _ _ => none
  | .ppsInput _ => none
  | .timeCorrection _ => none
  | .traceDrain _ _ => none
  | .traceDrainTimer _ _ => none
  | .losslessEscape _ _ => none
  | .traceSample _ _ => none
  | .counterSweep _ => none
  | .dbgHaltBroadcast _ => none
  | .dbgResumeAll _ => none
  | .dbgHaltAndDump _ => none
  | .dbgRead _ => none
  | .dbgWrite _ => none
  | .dbgSetPc _ => none
  | .dbgResumeWarp _ => none
  | .dbgResumePastBreakpoint _ => none
  | .dumpWrite _ => none
  | .curatorVisitStart _ => none
  | .curatorDrainExpiry _ => none
  | .curatorScanComplete _ _ => none
  | .uncorrectableWordError _ _ _ _ => none
  | .cacheSectorError _ _ => none
  | .frontierParityError _ _ => none
  | .translationParityError _ _ => none
  | .instructionCacheParityError _ => none
  | .registrarStateError _ => none
  | .engineStateError _ _ => none
  | .engineTimeout _ _ => none
  | .engineResetComplete _ _ => none
  | .partReset _ => none
  | .partitionResetComplete _ _ => none
  | .flitCheckFailure _ => none
  | .laneFailure _ => none
  | .linkRetrainComplete _ => none
  | .linkDownTimeout _ => none
  | .thermalThrottle _ _ => none
  | .thermalTrip => none
  | .powerLimitWrite _ => none
  | .bootSequence _ => none
  | .firmwareUpdate _ => none
  | .spdmMeasurementRequest _ => none
  | .hostMemoryAccess _ => none
  | .peerMemoryAccess _ => none
  | .registerWrite _ _ => none
  | .contextCreation _ _ => none
  | .contextDestruction _ => none
  | .curatorHostRequest _ => none
  | .hostGangRelaunchOrAbandon _ _ _ _ => none
  | .thermalThrottleRelease => none
  | .tlbinvComplete _ _ => none
  | .icinvComplete _ _ => none
  | .copyCommandFault _ _ => none

/-- The instruction of OP, shared fields, immediate and MOD: nothing where OP is unassigned or a MOD field holds a
reserved value. -/
def buildWord (op : Nat) (o : Opnds) (off : BitVec 24) (m : Nat) : Option Instr :=
  match op with
  | 0x00 => some (.nop o)
  | 0x01 => some (.bra o off (fld m 0 1 == 1))
  | 0x02 => some (.bri o)
  | 0x03 => some (.call o off)
  | 0x04 => some (.calli o)
  | 0x05 => some (.ret o)
  | 0x06 => some (.exit o)
  | 0x07 => some (.yield o)
  | 0x08 => some (.nap o)
  | 0x09 => some (.fwait o (BitVec.ofNat 12 (fld m 0 12)))
  | 0x0a => (SetFmtForm.ofCode (fld m 0 2)).bind fun form => some (.setfmt o form)
  | 0x0b => some (.getfmt o)
  | 0x0c => some (.brk o (BitVec.ofNat 8 (fld m 0 8)))
  | 0x0d => some (.trap o (BitVec.ofNat 8 (fld m 0 8)))
  | 0x0e => some (.sprint o (fld m 0 1 == 1))
  | 0x10 => some (.smov o)
  | 0x11 => some (.sadd o (fld m 0 1 == 1))
  | 0x12 => some (.ssub o (fld m 0 1 == 1))
  | 0x13 => (MulMode.ofCode (fld m 0 2)).bind fun mode => some (.smul o mode)
  | 0x14 => (MulMode.ofCode (fld m 0 2)).bind fun mode => some (.smad o mode)
  | 0x15 => some (.slop o (BitVec.ofNat 8 (fld m 0 8)))
  | 0x16 => (ShiftKind.ofCode (fld m 0 2)).bind fun kind => some (.sshf o kind)
  | 0x17 => (ICmp.ofCode (fld m 0 3)).bind fun cmp => (Comb.ofCode (fld m 3 2)).bind fun comb => some (.ssetp o cmp comb)
  | 0x18 => some (.ssel o (fld m 0 1 == 1))
  | 0x19 => (SldW.ofCode (fld m 0 2)).bind fun w => (LdOrd.ofCode (fld m 2 2)).bind fun ord => (Scope.ofCode (fld m 4 3)).bind fun scope => some (.sld o w ord scope)
  | 0x1a => (SReg.ofCode (fld m 0 5)).bind fun sreg => some (.sread o sreg)
  | 0x1b => (VoteKind.ofCode (fld m 0 2)).bind fun kind => some (.vote o kind (fld m 2 1 == 1))
  | 0x1c => some (.spop o)
  | 0x20 => some (.iadd o (fld m 0 1 == 1))
  | 0x21 => some (.isub o (fld m 0 1 == 1))
  | 0x22 => (MulMode.ofCode (fld m 0 2)).bind fun mode => some (.imul o mode)
  | 0x23 => (MulMode.ofCode (fld m 0 2)).bind fun mode => some (.imad o mode)
  | 0x24 => some (.imin o)
  | 0x25 => some (.imax o)
  | 0x26 => some (.iabs o (fld m 0 1 == 1))
  | 0x27 => some (.isad o)
  | 0x28 => (ICmp.ofCode (fld m 0 3)).bind fun cmp => (Comb.ofCode (fld m 3 2)).bind fun comb => some (.isetp o cmp comb)
  | 0x29 => some (.sel o (fld m 0 1 == 1))
  | 0x2a => some (.lea o (Fin.ofNat 8 (fld m 0 3)))
  | 0x2b => some (.mov o)
  | 0x2c => some (.movi o off)
  | 0x2d => some (.idp4 o (fld m 0 1 == 1) (fld m 1 1 == 1))
  | 0x30 => some (.bitfn o (BitVec.ofNat 8 (fld m 0 8)))
  | 0x31 => some (.shl o (fld m 0 1 == 1))
  | 0x32 => some (.shr o (fld m 0 1 == 1))
  | 0x33 => some (.fwin o (fld m 0 1 == 1) (fld m 1 1 == 1))
  | 0x34 => some (.bfe o)
  | 0x35 => some (.bfi o)
  | 0x36 => some (.popc o)
  | 0x37 => some (.clz o)
  | 0x38 => some (.brev o)
  | 0x39 => some (.bsel o)
  | 0x3a => some (.plop o (BitVec.ofNat 8 (fld m 0 8)))
  | 0x3b => some (.p2v o (BitVec.ofNat 7 (fld m 0 7)))
  | 0x3c => some (.v2p o (BitVec.ofNat 7 (fld m 0 7)))
  | 0x40 => (RM.ofCode (fld m 0 2)).bind fun rm => some (.fadd o rm)
  | 0x41 => (RM.ofCode (fld m 0 2)).bind fun rm => some (.fsub o rm)
  | 0x42 => (RM.ofCode (fld m 0 2)).bind fun rm => some (.fmul o rm)
  | 0x43 => (RM.ofCode (fld m 0 2)).bind fun rm => some (.ffma o rm)
  | 0x44 => some (.fmin o (fld m 0 1 == 1))
  | 0x45 => some (.fmax o (fld m 0 1 == 1))
  | 0x46 => (FCmp.ofCode (fld m 0 4)).bind fun cmp => (Comb.ofCode (fld m 4 2)).bind fun comb => some (.fsetp o cmp comb)
  | 0x47 => some (.fclass o)
  | 0x48 => (RM.ofCode (fld m 0 2)).bind fun rm => some (.frnd o rm)
  | 0x49 => (RM.ofCode (fld m 0 2)).bind fun rm => some (.fscale o rm)
  | 0x50 => (RM.ofCode (fld m 0 2)).bind fun rm => some (.hadd2 o rm)
  | 0x51 => (RM.ofCode (fld m 0 2)).bind fun rm => some (.hmul2 o rm)
  | 0x52 => (RM.ofCode (fld m 0 2)).bind fun rm => some (.hfma2 o rm)
  | 0x53 => some (.hmin2 o (fld m 0 1 == 1))
  | 0x54 => some (.hmax2 o (fld m 0 1 == 1))
  | 0x55 => (CvtFmt.ofCode (fld m 0 4)).bind fun dfmt => (CvtFmt.ofCode (fld m 4 4)).bind fun sfmt => (RM.ofCode (fld m 8 2)).bind fun rm => some (.cvt o dfmt sfmt rm (fld m 10 1 == 1) (fld m 11 1 == 1))
  | 0x56 => (CvtFmt.ofCode (fld m 0 4)).bind fun dfmt => (RM.ofCode (fld m 8 2)).bind fun rm => some (.cvts o dfmt (Fin.ofNat 4 (fld m 4 2)) rm (fld m 10 1 == 1) (fld m 11 1 == 1))
  | 0x57 => some (.packq o)
  | 0x58 => some (.unpq o)
  | 0x59 => (CvtFmt.ofCode (fld m 0 4)).bind fun tfmt => (EscOp.ofCode (fld m 4 2)).bind fun opn => some (.escale o tfmt opn)
  | 0x60 => (RM.ofCode (fld m 0 2)).bind fun rm => some (.frcp o rm)
  | 0x61 => some (.frsq o)
  | 0x62 => (RM.ofCode (fld m 0 2)).bind fun rm => some (.fsqrt o rm)
  | 0x63 => some (.fex2 o)
  | 0x64 => some (.flg2 o)
  | 0x65 => some (.fsin o)
  | 0x66 => some (.fcos o)
  | 0x67 => some (.ftanh o)
  | 0x68 => (XMode.ofCode (fld m 0 2)).bind fun mode => some (.xlane o mode)
  | 0x69 => some (.matchv o (fld m 0 1 == 1))
  | 0x6a => (RedOp.ofCode (fld m 0 3)).bind fun opr => some (.redux o opr)
  | 0x6b => (RedOp.ofCode (fld m 0 3)).bind fun opr => some (.scanx o opr (fld m 3 1 == 1))
  | 0x70 => (MemW.ofCode (fld m 0 3)).bind fun w => (LdOrd.ofCode (fld m 3 2)).bind fun ord => (Scope.ofCode (fld m 5 3)).bind fun scope => (CacheHint.ofCode (fld m 8 2)).bind fun cache => some (.ld o w ord scope cache (fld m 10 1 == 1) (fld m 11 1 == 1))
  | 0x71 => (MemW.ofCode (fld m 0 3)).bind fun w => (StOrd.ofCode (fld m 3 2)).bind fun ord => (Scope.ofCode (fld m 5 3)).bind fun scope => (CacheHint.ofCode (fld m 8 2)).bind fun cache => some (.st o w ord scope cache (fld m 11 1 == 1))
  | 0x72 => (MemW.ofCode (fld m 0 3)).bind fun w => (LdOrd.ofCode (fld m 3 2)).bind fun ord => (Scope.ofCode (fld m 5 3)).bind fun scope => some (.lds o w ord scope)
  | 0x73 => (MemW.ofCode (fld m 0 3)).bind fun w => (StOrd.ofCode (fld m 3 2)).bind fun ord => (Scope.ofCode (fld m 5 3)).bind fun scope => some (.sts o w ord scope)
  | 0x74 => (MemW.ofCode (fld m 0 3)).bind fun w => some (.ldc o w (Fin.ofNat 16 (fld m 3 4)))
  | 0x75 => (MemW.ofCode (fld m 0 3)).bind fun w => (LdOrd.ofCode (fld m 3 2)).bind fun ord => (Scope.ofCode (fld m 5 3)).bind fun scope => some (.ldr o w ord scope (fld m 11 1 == 1))
  | 0x76 => (MemW.ofCode (fld m 0 3)).bind fun w => (StOrd.ofCode (fld m 3 2)).bind fun ord => (Scope.ofCode (fld m 5 3)).bind fun scope => some (.stc o w ord scope (fld m 11 1 == 1))
  | 0x77 => (PrefLevel.ofCode (fld m 0 2)).bind fun level => some (.pref o level (fld m 11 1 == 1))
  | 0x78 => (CctlOp.ofCode (fld m 0 3)).bind fun opr => some (.cctl o opr (fld m 11 1 == 1))
  | 0x79 => some (.icinv o)
  | 0x80 => some (.cpg o (Fin.ofNat 64 (fld m 0 6)) (fld m 6 1 == 1))
  | 0x81 => some (.cps o)
  | 0x82 => some (.cpx o (Fin.ofNat 64 (fld m 0 6)) (fld m 6 1 == 1))
  | 0x83 => some (.cpclose o)
  | 0x84 => some (.cpwait o)
  | 0x85 => (BankMode.ofCode (fld m 0 2)).bind fun mode => some (.bankcfg o mode)
  | 0x86 => some (.fpush o)
  | 0x87 => some (.fpop o)
  | 0x88 => some (.vtopen o (fld m 0 1 == 1))
  | 0x89 => some (.publish o)
  | 0x8a => some (.vtdrop o)
  | 0x90 => some (.mldb o (Fin.ofNat 4 (fld m 0 2)) (Fin.ofNat 2 (fld m 2 1)) (fld m 3 1 == 1))
  | 0x91 => some (.mlds o (Fin.ofNat 2 (fld m 2 1)) (fld m 3 1 == 1))
  | 0x92 => some (.mma o (Fin.ofNat 32 (fld m 0 5)) (Fin.ofNat 2 (fld m 5 1)) (Fin.ofNat 64 (fld m 6 6)))
  | 0x93 => some (.mzero o)
  | 0x94 => some (.acalloc o (fld m 0 1 == 1))
  | 0x95 => some (.acfree o)
  | 0x96 => some (.mdrain o (fld m 0 1 == 1) (fld m 1 1 == 1) (fld m 2 1 == 1) (Fin.ofNat 8 (fld m 3 3)) (Fin.ofNat 64 (fld m 6 6)))
  | 0x97 => some (.mdrains o (fld m 0 1 == 1) (fld m 1 1 == 1) (fld m 2 1 == 1) (Fin.ofNat 8 (fld m 3 3)) (Fin.ofNat 64 (fld m 6 6)))
  | 0x98 => some (.epcfg o)
  | 0x99 => some (.actld o)
  | 0xa0 => (AtOp.ofCode (fld m 0 4)).bind fun opc => (AtOrd.ofCode (fld m 4 2)).bind fun ord => (Scope.ofCode (fld m 6 3)).bind fun scope => some (.atom o opc ord scope (fld m 9 1 == 1))
  | 0xa1 => (AtOrd.ofCode (fld m 4 2)).bind fun ord => (Scope.ofCode (fld m 6 3)).bind fun scope => some (.atomcas o ord scope (fld m 9 1 == 1))
  | 0xa2 => (AtOp.ofCode (fld m 0 4)).bind fun opc => (AtOrd.ofCode (fld m 4 2)).bind fun ord => (Scope.ofCode (fld m 6 3)).bind fun scope => some (.red o opc ord scope (fld m 9 1 == 1))
  | 0xa3 => (AtOp.ofCode (fld m 0 4)).bind fun opc => (AtOrd.ofCode (fld m 4 2)).bind fun ord => (Scope.ofCode (fld m 6 3)).bind fun scope => some (.atoms o opc ord scope (fld m 9 1 == 1))
  | 0xa4 => (AtOrd.ofCode (fld m 4 2)).bind fun ord => (Scope.ofCode (fld m 6 3)).bind fun scope => some (.atomsc o ord scope (fld m 9 1 == 1))
  | 0xa5 => (AtOrd.ofCode (fld m 4 2)).bind fun ord => (Scope.ofCode (fld m 6 3)).bind fun scope => some (.atomc o ord scope (fld m 9 1 == 1))
  | 0xa6 => (AtOrd.ofCode (fld m 4 2)).bind fun ord => (Scope.ofCode (fld m 6 3)).bind fun scope => some (.rdc o ord scope (fld m 9 1 == 1))
  | 0xb0 => (FenceKind.ofCode (fld m 0 2)).bind fun kind => (Scope.ofCode (fld m 2 3)).bind fun scope => some (.fence o kind scope)
  | 0xb1 => some (.bar o)
  | 0xb2 => some (.bara o)
  | 0xb3 => some (.barw o)
  | 0xb4 => some (.gbar o)
  | 0xb5 => (Scope.ofCode (fld m 0 3)).bind fun scope => some (.arv o scope (fld m 3 1 == 1))
  | 0xb6 => (Scope.ofCode (fld m 0 3)).bind fun scope => some (.await o scope (fld m 3 1 == 1))
  | 0xb7 => some (.ringa o (Fin.ofNat 64 (fld m 0 6)))
  | 0xb8 => some (.ringw o (Fin.ofNat 64 (fld m 0 6)))
  | 0xb9 => some (.lkacq o (fld m 0 1 == 1))
  | 0xba => some (.lkrel o)
  | 0xbb => (Scope.ofCode (fld m 0 3)).bind fun scope => some (.waitv o scope)
  | 0xbc => (Scope.ofCode (fld m 0 3)).bind fun scope => some (.wake o scope)
  | 0xc0 => (finOf 5 (fld m 0 3)).bind fun nreg => some (.launch o nreg (fld m 3 1 == 1) (fld m 4 1 == 1) (fld m 5 1 == 1))
  | 0xc1 => some (.gwait o (fld m 0 1 == 1))
  | 0xc2 => some (.qpush o (fld m 0 1 == 1))
  | 0xc3 => some (.qpop o (fld m 0 1 == 1))
  | 0xc4 => some (.shape o)
  | 0xc5 => (ProvqMode.ofCode (fld m 0 2)).bind fun mode => some (.provq o mode)
  | 0xd0 => some (.svc o (BitVec.ofNat 8 (fld m 0 8)))
  | 0xd1 => some (.rfe o)
  | 0xd2 => some (.pgpop o)
  | 0xd3 => (finOf 3 (fld m 0 2)).bind fun level => some (.pgmap o level)
  | 0xd4 => (InvKind.ofCode (fld m 0 2)).bind fun kind => some (.tlbinv o kind)
  | 0xd5 => some (.replay o (fld m 0 1 == 1))
  | 0xd6 => some (.park o)
  | 0xd7 => (Csr.ofCode (fld m 0 8)).bind fun num => some (.csrrd o num)
  | 0xd8 => (Csr.ofCode (fld m 0 8)).bind fun num => some (.csrwr o num)
  | 0xd9 => some (.poisck o)
  | 0xe0 => (finOf 9 (fld m 8 4)).bind fun n => some (.trace o (BitVec.ofNat 8 (fld m 0 8)) n)
  | 0xe1 => some (.tmark o)
  | 0xe2 => some (.rdcnt o (Fin.ofNat 256 (fld m 0 8)))
  | 0xe3 => some (.rdptp o (fld m 0 1 == 1))
  | 0xe4 => some (.halt o (fld m 0 1 == 1))
  | _ => none

end Sys2Proof
end

