-- ==== Sys2Proof/WellFormed.lean ====
section
/-! DEFINITION. Well-formed instructions: the static rules that a word must obey to be an instruction of R52 or R50
(R42, R44, R46, R49, R51 and the rules beside each encoding table). -/

namespace Sys2Proof

/-- Whether a field of the kind accepts the operand (R44, R166). -/
def Kind.accepts : Kind → Opd → Bool
  | .unused, .none => true
  | .imm, .none => true
  | .koff, .zero => true
  | .koff, .k => true
  | .pred p _, .p _ => p
  | .pred _ q, .q _ => q
  | .reg v _ _ _ _ al sp, .v r => v && r.val % al == 0 && decide (r.val + sp ≤ 128)
  | .reg _ u _ _ _ al sp, .s r => u && r.val % al == 0 && decide (r.val + sp ≤ 96)
  | .reg _ _ z _ _ _ _, .zero => z
  | .reg _ _ _ _ l _ _, .laneid => l
  | .reg _ _ _ k _ _ _, .k => k
  | .reg _ _ _ k _ _ _, .ones => k
  | .reg _ _ _ k _ _ _, .p1 => k
  | .reg _ _ _ k _ _ _, .m1 => k
  | .reg _ _ _ k _ _ _, .half => k
  | .reg _ _ _ k _ _ _, .fone => k
  | .reg _ _ _ k _ _ _, .ftwo => k
  | .reg _ _ _ k _ _ _, .fmone => k
  | _, _ => false

/-- Whether an operand is a vector register. -/
def Opd.isV : Opd → Bool
  | .v _ => true
  | _ => false

/-- Whether an operand is a uniform register. -/
def Opd.isS : Opd → Bool
  | .s _ => true
  | _ => false

/-- Whether an operand is a q predicate. -/
def Opd.isQ : Opd → Bool
  | .q _ => true
  | _ => false

/-- GUARD and GNEG: (!p7) is reserved (R42); a uniform guard names q0 to q2 or always (R167). -/
def Guard.ok (uniform : Bool) (g : Guard) : Bool :=
  !(g.idx == 7 && g.neg) && (!uniform || decide (g.idx.val < 3) || g.idx == 7)

/-- The rules that relate two operands: `ldc` with a uniform D takes no vector offset (R261), `poisck` with a q
destination takes no vector source (R445). -/
def crossOk (op : Nat) (o : Opnds) : Bool :=
  match op with
  | 0x74 => !(o.d.isS && o.a.isV)
  | 0xD9 => !(o.d.isQ && o.a.isV)
  | _ => true

/-- The static rules of a full word (R42, R44, R46). -/
def Parts.wf (p : Parts) : Bool :=
  match rowSpec p.op p.o.ty p.m with
  | none => false
  | some r =>
    r.ok && r.types.contains p.o.ty && r.d.accepts p.o.d && r.a.accepts p.o.a && r.b.accepts p.o.b
      && r.c.accepts p.o.c && p.o.guard.ok r.uguard && (!p.o.fsel || r.ll)
      && (!p.o.relA || (r.rel && p.o.a.isV)) && (!p.o.relB || (r.rel && p.o.b.isV)) && crossOk p.op p.o

/-- The types each pair opcode accepts (R50). -/
def PairOp.types : PairOp → List PairTy
  | .nop => [.s32]
  | .add | .sub | .mul => [.s32, .n32, .b32]
  | .and | .or | .xor | .shl => [.b32]
  | .shr => [.b32, .n32, .s32]
  | .min | .max => [.s32, .n32]
  | .mov => [.s32, .n32, .b32, .f32, .f16x2, .bf16x2]
  | .fadd | .fmul | .fmin | .fmax => [.f32]
  | .hadd2 | .hmul2 => [.f16x2, .bf16x2]

/-- The source codes a pair half accepts: every source code of R44 (R49). -/
def pairSrc : Kind := .reg true true true true true 1 1

/-- The encoding rules of one half (R50). -/
def PairHalf.ok (h : PairHalf) : Bool :=
  h.op.types.contains h.ty && pairSrc.accepts h.a && h.guard.ok false
    && (h.op != .nop || (h.d == 0 && h.a == .v 0 && h.guard == ⟨7, false⟩))

/-- The vector registers a half reads, its destination counted as read (R51). -/
def PairHalf.reads (h : PairHalf) : List Nat :=
  if h.op == .nop then [] else
    match h.a with
    | .v r => [h.d.val, r.val]
    | _ => [h.d.val]

/-- The vector register a half writes (R51). -/
def PairHalf.writes (h : PairHalf) : List Nat := if h.op == .nop then [] else [h.d.val]

/-- The distinct members of `l` in bank `b` (R51). -/
def bankMembers (b : Nat) (l : List Nat) : Nat := ((l.filter (· % 4 == b)).eraseDups).length

/-- The three bank rules of R51. -/
def bankOk (h1 h2 : PairHalf) : Bool :=
  (h1.writes.all fun x => h2.writes.all fun y => x % 4 != y % 4)
    && (List.range 4).all (fun b => decide (bankMembers b (h1.reads ++ h2.reads) ≤ 2))
    && (h1.writes.all fun x => !(h2.reads ++ h2.writes).contains x)

/-- Well-formed instructions. An event carries no encoding and has no static rule. -/
def Instr.wf (i : Instr) : Bool :=
  match i with
  | .pairWord h1 h2 => h1.ok && h2.ok && bankOk h1 h2
  | i =>
    match i.parts with
    | some p => p.wf
    | none => true

/-- Whether an instruction is a word of a clause (a full word or a pair word), not an event of the device. -/
def Instr.isWord (i : Instr) : Bool :=
  match i with
  | .pairWord _ _ => true
  | i => i.parts.isSome

end Sys2Proof
end

