-- ==== Sys2Proof/Decode.lean ====
section
/-! DEFINITION. From bytes to instructions and back: clause headers (R32, R33), full words (R41 to R46), pair words
(R49 to R51), in the decode order of R54. -/

namespace Sys2Proof

/-- Why bytes are no instruction word (R54), or not enough of them. -/
inductive DecErr where
  | tooShort | illegalOpcode | illegalEncoding | illegalPair
  deriving DecidableEq, Repr

/-- Little-endian value of bytes (R3). -/
def leNat : List Byte → Nat
  | [] => 0
  | b :: bs => b.toNat + 256 * leNat bs

/-- `n` bytes of a value, little-endian (R3). -/
def leBytes : Nat → Nat → List Byte
  | 0, _ => []
  | n + 1, x => BitVec.ofNat 8 x :: leBytes n (x / 256)

/-- The code of an operand (R44). -/
def Opd.code : Opd → Nat
  | .none => 0
  | .v r => r.val
  | .s r => 128 + r.val
  | .zero => 0xE0
  | .k => 0xE1
  | .laneid => 0xE3
  | .ones => 0xE4
  | .p1 => 0xF0
  | .m1 => 0xF1
  | .half => 0xF2
  | .fone => 0xF3
  | .ftwo => 0xF4
  | .fmone => 0xF5
  | .p r => r.val
  | .q r => 8 + r.val

/-- The operand of a code in a field that is no predicate field (R44). -/
def Opd.ofCode (c : Nat) : Option Opd :=
  if h : c < 128 then some (.v ⟨c, h⟩)
  else if h : c - 128 < 96 then some (.s ⟨c - 128, h⟩)
  else if c = 0xE0 then some .zero
  else if c = 0xE1 then some .k
  else if c = 0xE3 then some .laneid
  else if c = 0xE4 then some .ones
  else if c = 0xF0 then some .p1
  else if c = 0xF1 then some .m1
  else if c = 0xF2 then some .half
  else if c = 0xF3 then some .fone
  else if c = 0xF4 then some .ftwo
  else if c = 0xF5 then some .fmone
  else none

/-- The operand of a code in a field of a kind. -/
def decodeOpd (k : Kind) (c : Nat) : Option Opd :=
  match k with
  | .unused => if c = 0 then some .none else none
  | .imm => some .none
  | .pred _ _ =>
    if h : c < 8 then some (.p ⟨c, h⟩)
    else if h : c - 8 < 4 then some (.q ⟨c - 8, h⟩)
    else none
  | .koff => Opd.ofCode c
  | .reg .. => Opd.ofCode c

/-- GUARD and GNEG of a number holding them in [3:1] and [0]. -/
def guardOf (x : Nat) : Guard := ⟨Fin.ofNat 8 (x / 2), x % 2 == 1⟩

/-- The shared fields of a full word, read with the kinds of its row. -/
def decodeOpnds (r : RowSpec) (ty : Ty) (w : Nat) : Option Opnds :=
  (decodeOpd r.d (fld w 47 8)).bind fun d =>
  (decodeOpd r.a (fld w 39 8)).bind fun a =>
  (decodeOpd r.b (fld w 31 8)).bind fun b =>
  (decodeOpd r.c (fld w 23 8)).bind fun c =>
  some ⟨guardOf (fld w 19 4), ty, fld w 14 1 == 1, fld w 13 1 == 1, fld w 12 1 == 1, d, a, b, c⟩

/-- Whether an OP is assigned (R52). -/
def opAssigned (op : Nat) : Bool := (rowSpec op .b32 0).isSome

/-- A full word whose OP is assigned (R54 step 2). -/
def decodeFields (w : Nat) : Option Instr :=
  (Ty.ofCode (fld w 15 4)).bind fun ty =>
  (rowSpec (fld w 55 8) ty (fld w 0 12)).bind fun r =>
  (decodeOpnds r ty w).bind fun o =>
  (buildWord (fld w 55 8) o (BitVec.ofNat 24 (fld w 23 24)) (fld w 0 12)).bind fun i =>
  if i.wf && (i.parts.map Parts.m == some (fld w 0 12)) then some i else none

/-- A full word (R54). -/
def decodeFull (w : Nat) : Except DecErr Instr :=
  if opAssigned (fld w 55 8) then
    match decodeFields w with
    | some i => .ok i
    | none => .error .illegalEncoding
  else .error .illegalOpcode

/-- Codes of the pair opcodes (R50). -/
def PairOp.code : PairOp → Nat
  | .nop => 0x00 | .add => 0x01 | .sub => 0x02 | .mul => 0x03 | .and => 0x04 | .or => 0x05
  | .xor => 0x06 | .shl => 0x07 | .shr => 0x08 | .min => 0x09 | .max => 0x0A | .mov => 0x0B
  | .fadd => 0x10 | .fmul => 0x11 | .fmin => 0x12 | .fmax => 0x13 | .hadd2 => 0x14 | .hmul2 => 0x15

/-- The pair opcode of a code (R50). -/
def PairOp.ofCode : Nat → Option PairOp
  | 0x00 => some .nop | 0x01 => some .add | 0x02 => some .sub | 0x03 => some .mul | 0x04 => some .and
  | 0x05 => some .or | 0x06 => some .xor | 0x07 => some .shl | 0x08 => some .shr | 0x09 => some .min
  | 0x0A => some .max | 0x0B => some .mov | 0x10 => some .fadd | 0x11 => some .fmul | 0x12 => some .fmin
  | 0x13 => some .fmax | 0x14 => some .hadd2 | 0x15 => some .hmul2
  | _ => none

/-- Codes of the pair types (R49). -/
def PairTy.code : PairTy → Nat
  | .s32 => 0 | .n32 => 1 | .b32 => 2 | .f32 => 3 | .f16x2 => 4 | .bf16x2 => 5

/-- The pair type of a code (R49). -/
def PairTy.ofCode : Nat → Option PairTy
  | 0 => some .s32 | 1 => some .n32 | 2 => some .b32 | 3 => some .f32 | 4 => some .f16x2 | 5 => some .bf16x2
  | _ => none

/-- One half, from its 31 bits (R49). -/
def decodeHalf (h : Nat) : Option PairHalf :=
  (PairOp.ofCode (fld h 24 7)).bind fun op =>
  (PairTy.ofCode (fld h 6 3)).bind fun ty =>
  (Opd.ofCode (fld h 9 8)).bind fun a =>
  if fld h 0 2 = 0 then some ⟨op, Fin.ofNat 128 (fld h 17 7), a, ty, guardOf (fld h 2 4)⟩ else none

/-- A pair word (R54): opcodes, then encodings, then the bank rules. -/
def decodePair (w : Nat) : Except DecErr Instr :=
  if (PairOp.ofCode (fld w 56 7)).isSome && (PairOp.ofCode (fld w 24 7)).isSome then
    match decodeHalf (fld w 32 31), decodeHalf (fld w 0 31) with
    | some h1, some h2 =>
      if h1.ok && h2.ok && fld w 31 1 == 0 then
        if bankOk h1 h2 then .ok (.pairWord h1 h2) else .error .illegalPair
      else .error .illegalEncoding
    | _, _ => .error .illegalEncoding
  else .error .illegalOpcode

/-- An instruction dword (R54). -/
def decodeWord (w : DWord) : Except DecErr Instr :=
  if fld w.toNat 63 1 = 1 then decodePair w.toNat else decodeFull w.toNat

/-- The instruction at the head of some bytes, and the bytes after it. -/
def decode (bs : List Byte) : Except DecErr (Instr × List Byte) :=
  if bs.length < 8 then .error .tooShort
  else (decodeWord (BitVec.ofNat 64 (leNat (bs.take 8)))).map fun i => (i, bs.drop 8)

/-- A full word of its parts (R41, R43). -/
def Parts.encode (p : Parts) : Nat :=
  p.m + 2 ^ 12 * p.o.relB.toNat + 2 ^ 13 * p.o.relA.toNat + 2 ^ 14 * p.o.fsel.toNat + 2 ^ 15 * p.o.ty.code
    + 2 ^ 19 * p.o.guard.neg.toNat + 2 ^ 20 * p.o.guard.idx.val + 2 ^ 23 * (p.o.c.code + p.off.toNat)
    + 2 ^ 31 * p.o.b.code + 2 ^ 39 * p.o.a.code + 2 ^ 47 * p.o.d.code + 2 ^ 55 * p.op

/-- The bits of a pair half (R49). -/
def PairHalf.encode (h : PairHalf) : Nat :=
  2 ^ 2 * h.guard.neg.toNat + 2 ^ 3 * h.guard.idx.val + 2 ^ 6 * h.ty.code + 2 ^ 9 * h.a.code
    + 2 ^ 17 * h.d.val + 2 ^ 24 * h.op.code

/-- The word of an instruction; an event has none. -/
def encode (i : Instr) : Option DWord :=
  match i with
  | .pairWord h1 h2 => some (BitVec.ofNat 64 (2 ^ 63 + 2 ^ 32 * h1.encode + h2.encode))
  | i => i.parts.map fun p => BitVec.ofNat 64 p.encode

/-- The bytes of an instruction as the hardware stores them: one dword, little-endian (R3, R41). -/
def encodeBytes (i : Instr) : List Byte :=
  match encode i with
  | some w => leBytes 8 w.toNat
  | none => []

/-- The instruction the decoder reads from an instruction whose bits are `w`: the dword is laid out as the hardware
stores it and given to the decoder. -/
def decodeTableWord (nbits w : Nat) : Option Instr :=
  if nbits ≤ 64 ∧ w < 2 ^ 64 then
    match decode (leBytes 8 w) with
    | .ok (i, _) => some i
    | .error _ => none
  else none

/-- A clause header (R32). -/
structure Header where
  k : Word
  yieldHint : Bool
  fchk : Bool
  flagB : Fin 16
  flagA : Fin 16
  wait : BitVec 12
  len : Fin 16
  deriving DecidableEq, Repr

/-- Why a dword is no clause header, in the order of R33. -/
inductive HdrErr where
  | illegalClause | illegalEncoding
  deriving DecidableEq, Repr

/-- Read a header, reserved bits aside (R32). -/
def Header.ofNat (w : Nat) : Header :=
  { k := BitVec.ofNat 32 (fld w 32 32), yieldHint := fld w 25 1 == 1, fchk := fld w 24 1 == 1,
    flagB := Fin.ofNat 16 (fld w 20 4), flagA := Fin.ofNat 16 (fld w 16 4),
    wait := BitVec.ofNat 12 (fld w 4 12), len := Fin.ofNat 16 (fld w 0 4) }

/-- The header checks, in order (R33). -/
def decodeHeader (w : DWord) : Except HdrErr Header :=
  let h := Header.ofNat w.toNat
  if h.len = 0 then .error .illegalClause
  else if fld w.toNat 26 6 ≠ 0 then .error .illegalEncoding
  else if (12 ≤ h.flagA.val ∧ h.flagA.val ≤ 14) ∨ (12 ≤ h.flagB.val ∧ h.flagB.val ≤ 14) then .error .illegalEncoding
  else .ok h

/-- The dword of a header (R32). -/
def Header.encode (h : Header) : DWord :=
  BitVec.ofNat 64 (h.len.val + 2 ^ 4 * h.wait.toNat + 2 ^ 16 * h.flagA.val + 2 ^ 20 * h.flagB.val
    + 2 ^ 24 * h.fchk.toNat + 2 ^ 25 * h.yieldHint.toNat + 2 ^ 32 * h.k.toNat)

end Sys2Proof
end

