-- ==== Sys2Proof/Machine/Sparse.lean ====
section
/-! DEFINITION. Sparse maps: lists of (key, value) pairs with rising keys. Memory, registers and tables are held in them. -/

namespace Sys2Proof.Machine

/-- A finite map from numbers, keys rising. -/
abbrev Sparse (α : Type) := List (Nat × α)

/-- The value at a key. -/
def alook {α : Type} (k : Nat) : Sparse α → Option α
  | [] => none
  | (j, x) :: m => if k = j then some x else alook k m

/-- Put a value at a key. -/
def aput {α : Type} (k : Nat) (x : α) : Sparse α → Sparse α
  | [] => [(k, x)]
  | (j, y) :: m => if k = j then (k, x) :: m else if k < j then (k, x) :: (j, y) :: m else (j, y) :: aput k x m

/-- Remove a key. -/
def adel {α : Type} (k : Nat) (m : Sparse α) : Sparse α := m.filter fun e => decide (e.1 ≠ k)

/-- Read with a default: what an unlisted key holds. -/
def sget {α : Type} (d : α) (m : Sparse α) (k : Nat) : α := (alook k m).getD d

/-- Write in canonical form: a value equal to the default is not listed. -/
def sput {α : Type} [DecidableEq α] (d : α) (m : Sparse α) (k : Nat) (x : α) : Sparse α :=
  if x = d then adel k m else aput k x m

/-- Change the value at a key, if there is one. -/
def amod {α : Type} (k : Nat) (f : α → α) (m : Sparse α) : Sparse α :=
  match alook k m with
  | some x => aput k (f x) m
  | none => m

/-- Keys rise strictly. -/
def Sorted {α : Type} : Sparse α → Bool
  | [] => true
  | [_] => true
  | (a, _) :: (b, y) :: m => decide (a < b) && Sorted ((b, y) :: m)

/-- Canonical form: keys rise strictly and no value equals the default. -/
def Canon {α : Type} [DecidableEq α] (d : α) (m : Sparse α) : Bool := Sorted m && m.all fun e => decide (e.2 ≠ d)

/-- Insert a number into a rising list without repeats. -/
def nins (k : Nat) : List Nat → List Nat
  | [] => [k]
  | j :: l => if k = j then j :: l else if k < j then k :: j :: l else j :: nins k l

/-- Insert before the first element that an element does not come after. -/
def insBy (le : α → α → Bool) (x : α) : List α → List α
  | [] => [x]
  | y :: l => if le x y then x :: y :: l else y :: insBy le x l

/-- Remove the first occurrence. -/
def dropFirst [BEq α] (x : α) : List α → List α
  | [] => []
  | y :: l => if y == x then l else y :: dropFirst x l

/-- Sort, keeping equal elements in their order. -/
def sortBy (le : α → α → Bool) (l : List α) : List α := l.foldr (insBy le) []

end Sys2Proof.Machine
end

