-- ==== Sys2Proof/Machine/State.lean ====
section
/-! DEFINITION. The state of the device as plain data: warps and their paths, blocks, grids, contexts and queues, cores
and pairs, memory, and the device's own registers. -/

namespace Sys2Proof.Machine

/-- Warp roles (R86, R193). -/
inductive Role where
  | copy | matrix | vector | general
  deriving DecidableEq, Repr

/-- A 32-bit word with its poison mark (R204, R470). -/
structure PWord where
  val : Word
  pois : Bool
  deriving DecidableEq, Repr

/-- The word an unwritten register reads (R48). -/
def PWord.zero : PWord := ⟨0, false⟩

/-- A path of a warp: PC, word index, lanes, `%fmt`, MFMT and AGE (R157). -/
structure Path where
  pc : DWord
  widx : Nat
  mask : Word
  fmt : Word
  mfmt : Word
  age : Word
  deriving DecidableEq, Repr

/-- A waiting frontier entry, in the hardware table or in the annex slot it was spilled to (R157, R162). -/
structure Waiter where
  path : Path
  annex : Option Nat
  deriving DecidableEq, Repr

/-- Trap causes (R381). -/
inductive Cause where
  | illegalOpcode | illegalEncoding | illegalPair | illegalClause | privilege | role | uniformDiverged | format
  | address | firstTouch | permission | misaligned | vitrine | frontierRefill | annex | poison | barrierBroken
  | accum | queue | brk | userTrap | watch | haltRequest | service | double
  deriving DecidableEq, Repr

/-- A trap record (R385). -/
structure TrapRec where
  cause : Cause
  subcode : Nat
  code : Nat
  prior : Nat
  lanes : Word
  pc : DWord
  addr : DWord
  cmdSeq : Word
  gid : Nat
  blkIdx : Nat
  warp : Nat
  core : Nat
  token : Word
  flags : Nat
  time : Nat
  deriving DecidableEq, Repr

/-- Where an outstanding long-latency operation comes from (R36): memory, with the lanes and link ports of PEER loads
(R260), or an engine's command. -/
inductive PendKind where
  | mem
  | peer (ports : List (Nat × Nat))
  | mat (id : Nat)
  deriving DecidableEq, Repr

/-- Where an access goes: a memory key (R3), or a block's scratchpad at an offset (R235). -/
inductive Spot where
  | mem (key : Nat)
  | scr (blk off : Nat)
  deriving DecidableEq, Repr

/-- What a lane's words of a load were read from, and the first register they go to: a sprinter's load may have to read it
again (R148). -/
structure LoadSrc where
  lane : Nat
  spot : Spot
  width : MemW
  reg : Nat
  deriving DecidableEq, Repr

/-- An outstanding long-latency operation: the flag it counts on and the writes it will make (R36, R38). A vector
write is register, lane and word. `src` is what a load read; `fresh` counts the cells that renaming took and whose superseded
ones are freed when the operation completes (R127); `skip` lists the registers whose returns a debugger's write discarded
(R406). -/
structure Pend where
  flag : Option Nat
  kind : PendKind
  vw : List (Nat × Nat × PWord)
  sw : List (Nat × PWord)
  src : List LoadSrc
  fresh : Nat
  skip : List Nat
  deriving DecidableEq, Repr

/-- A lane's store that is not at its coherence point yet (R326, R333): at most 8 B (R267), the poison of its words, the key
identifier it is written under (R258), its warp, how far it is to be seen at once (0 the agents of its core, 1 those of its
cluster, 2 all others: a strong store at such a scope, or one of a last use, R261, R323), when it issued and the lanes of its path
(R321, R322). One without bytes is a release fence (R329). -/
structure Buffered where
  spot : Spot
  bytes : List Byte
  pois : List Bool
  kid : Nat
  wid : Nat
  reach : Nat
  at_ : Nat
  lanes : Word
  deriving DecidableEq, Repr

/-- What a byte held before a write that another core or agent made at a time: a core may still read it, from its L1 or
because a load took effect before an older one (R241, R327, R333). -/
structure OldByte where
  at_ : Nat
  val : Byte
  deriving DecidableEq, Repr

/-- A parked warp's wait (R343 and the waiting rules of each instruction), with the operands it resolved when it parked.
`reissue`, `held`, `quota` and `queue` wait for a change and then issue the instruction again. `publish` holds the new SEQ once the swap is done. -/
inductive Wait where
  | reissue
  | held
  | quota
  | nap (until_ : Nat)
  | fwait (mask : BitVec 12)
  | cpwait (n : Nat)
  | cpclose (d : Opd) (lanes : Word)
  | bar (b : Nat) (token : Word)
  | gbar (phase : Nat)
  | await (place : Nat) (scr : Bool) (owner : Option Nat) (ph : Bool) (va : DWord) (sc : Scope)
  | ringw (ring : Word) (slot : Nat) (phase : Bool)
  | queue
  | lkacq (key : Nat) (va : DWord) (d : Opd) (since : Nat)
  | waitv (key : Nat) (va : DWord) (expect : Word) (d : Opd) (woken : Bool) (since : Nat) (sc : Scope)
  | gwait (key : Nat) (va : DWord) (vouch : Bool) (d : Opd) (since : Nat)
  | acalloc (g : Nat) (d : Opd) (since : Nat)
  | accClear (grans : List Nat)
  | publish (i : Nat) (d : Opd) (seq : Option Nat)
  | vtopen (i : Nat) (d : Opd)
  | engine (id : Nat)
  | tlbinv (kind : InvKind) (va : DWord) (n : Nat)
  | icinv (va : DWord)
  | fault (entry : Option Nat)
  deriving DecidableEq, Repr

/-- The clause a warp has fetched: the header's address, the header and its words (R34). -/
structure Clause where
  addr : DWord
  hdr : Header
  words : List DWord
  deriving DecidableEq, Repr

/-- The supervisor handler a warp runs, with the device's own copies of what `rfe` restores (R387 to R390). `copy` says that
a copy command's fault led to it (R251); `wait`, `rpt`, `frontDue` and `fairStart` are the wait, the lanes of a repeat, the merge or
switch and the fairness timer that it found the warp with (R162, R390). -/
structure Handler where
  trap : TrapRec
  lanes : Word
  aside : Word
  savedS : List PWord
  savedQ : List Bool
  savedFmt : Word
  resumePc : DWord
  resumeWidx : Nat
  frozen : List Waiter
  entry : Option Nat
  frame : DWord
  path : Path
  copy : Bool
  wait : Option Wait
  rpt : Option Word
  frontDue : Bool
  fairStart : Option Nat
  deriving DecidableEq, Repr

/-- The engine a warp runs on (R140, R149, R150). -/
inductive Engine where
  | herd
  | sprinter (since : Nat) (cls : Nat)
  | demoting
  deriving DecidableEq, Repr

/-- What schedules a warp: port, issue order, ageing, engine and promotion (R140 to R142, R149 to R155, R161, R184). `fairRun`
marks a path at a header that a fairness switch chose: its clause runs before another switch (R161); `frontDue` says that the merge and switch after a
branch wait for a refill (R162); `yielded` that a clause with YIELD has just ended (R35); `candSince` is when the warp became a candidate of the Docent. -/
structure Sched where
  port : Option Nat
  lastIssue : Nat
  readySince : Option Nat
  aged : Bool
  engine : Engine
  sprintReq : Bool
  lockCls : List Nat
  candSince : Option Nat
  fairStart : Option Nat
  deferSince : Option Nat
  fairRun : Bool
  frontDue : Bool
  yielded : Bool
  missWait : Option Nat
  deriving DecidableEq, Repr

/-- Save kinds (R398). -/
inductive SaveKind where
  | light | full | heavy
  deriving DecidableEq, Repr

/-- Where a warp stopped for pre-emption (R398): the kind of its save, and the Catalogue entry it stopped at. -/
structure StopNote where
  kind : SaveKind
  entry : Option (List Byte)
  deriving DecidableEq, Repr

/-- A warp's closed batch and the commands it still awaits (R249). -/
structure Batch where
  num : Nat
  cmds : List Word
  deriving DecidableEq, Repr

/-- A warp (R4, R157). Its number in `State.warps` is 2048 times its block plus its number in the block; `loc` is the
core and warp slot it occupies, none while it is saved. `sbuf` holds its stores that no other agent sees yet, oldest first;
`under` is the wait it goes back to once woken from a fault it took in that wait (R251);
`dep` gives the registers computed from loaded values the time those loads took effect (R327); `usedAt` gives its cells the
time of their last use and `spilledAt` when its first cell was spilled (R129); `stop` says that it has stopped for pre-emption
(R398); `bpSkip` is the address whose breakpoint it passes (R427); `stall` names the word that has yet to issue and the events counted for it (R36, R303). -/
structure Warp where
  loc : Option (Nat × Nat)
  role : Role
  budget : Nat
  slices : List (Option Nat)
  v : Sparse (List PWord)
  cells : List Nat
  freed : List Nat
  s : Sparse PWord
  p : List Word
  q : List Bool
  run : Path
  waiting : List Waiter
  dseq : Word
  fstat : Word
  pend : List Pend
  clause : Option Clause
  resv : Sparse Nat
  handler : Option Handler
  batchNum : Nat
  openBatch : List Word
  closed : List Batch
  wait : Option Wait
  under : Option Wait
  stall : Option (DWord × List Nat)
  rpt : Option Word
  heldTrap : Option TrapRec
  async : List TrapRec
  halted : Bool
  stop : Option StopNote
  spilled : List Nat
  spilledAt : Option Nat
  usedAt : Sparse Nat
  sbuf : List Buffered
  dep : Sparse Nat
  bpSkip : Option DWord
  sched : Sched
  deriving DecidableEq, Repr

/-- States of a block (R105, R106, R94, R397). `ended` has exited with children left, `saved` waits to resume. -/
inductive BState where
  | queued | queuedP | running | runningP | endedP | ended | saved | trimmed | retired
  deriving DecidableEq, Repr

/-- A block barrier (R351): completed phases, warps arrived in the phase, the expected count, broken. -/
structure Barrier where
  phase : Word
  arrived : List Nat
  expect : Option Nat
  broken : Bool
  deriving DecidableEq, Repr

/-- A pre-emption request: when it was made, the non-stalled cycles its cores had counted then, why, and the save pages that stand
ready (R396, R397, R401). -/
structure Preempt where
  at_ : Nat
  starts : List (Nat × Nat)
  trig : PreemptTrigger
  pages : List Nat
  deriving DecidableEq, Repr

/-- Matrix state of a block (R133, R284, R291, R293, R312): accumulator rows by their place in the stores, 256 words each;
latch registers by core, set, slab and register, and scale registers by core, set and register, 32 words each; the
epilogue configuration and table; the dynamic granules held, and all granules in the order of their grant. -/
structure MatState where
  acc : Sparse (List PWord)
  latch : Sparse (List PWord)
  scale : Sparse (List PWord)
  epCfg : Sparse Byte
  actTab : Sparse Word
  dyn : Nat
  grans : List Nat
  deriving DecidableEq, Repr

/-- A copy command (R275, R276) with its engine state: `moved` lists the pieces of its data that have moved (R250), and
`faulted` says that it has stopped at a page (R251). -/
structure CopyCmd where
  seq : Word
  wid : Nat
  op : Nat
  blk : List Word
  ring : Option (Word × Nat)
  started : Option Nat
  moved : List Nat
  faulted : Bool
  cancelled : Bool
  deriving DecidableEq, Repr

/-- A block's Registrar record and its state on its cores (R87, R105, R122, R399). `rings` lists the scratchpad offsets of
rings that have taken an arrival (R252); `heldFaults` the faults of copy and matrix commands whose warp is gone, which a
provisional block holds until its confirmation (R108, R251); `lastCore` the last core it ran on (R120). -/
structure Block where
  ctx : Nat
  gid : Nat
  idx : Nat
  nwarps : Nat
  st : BState
  prov : Bool
  cores : List Nat
  scr : Sparse Byte
  scrPois : List Nat
  bars : Sparse Barrier
  mat : MatState
  locks : List Nat
  children : List (Nat × Nat)
  plines : Sparse Byte
  ppois : List Nat
  preempt : Option Preempt
  sliceStart : Nat
  savePages : List Nat
  savedCopies : List CopyCmd
  exited : List Nat
  killed : Bool
  rings : List Nat
  heldFaults : List TrapRec
  lastCore : Nat
  deriving DecidableEq, Repr

/-- The launch descriptor fields of a grid's Provenance record (R85). -/
structure Desc where
  image : DWord
  paramAddr : DWord
  completion : DWord
  gx : Nat
  gy : Nat
  gz : Nat
  counts : List Nat
  regs : List Nat
  scratch : Nat
  accGran : Nat
  gang : Nat
  prio : Nat
  flags : Word
  fmtInit : Word
  trace : Word
  shapeAddr : DWord
  floor : Nat
  predict : Nat
  cap : Nat
  key : Nat
  margin : Nat
  deriving DecidableEq, Repr

/-- STATUS of a completion record (R90). -/
inductive Status where
  | pending | running | done | vouched | suspect | killed | failed
  deriving DecidableEq, Repr

/-- What the Registrar takes from the image (R9 to R18): where the code and constants lie, the entries by role, the
kernel's code and its Catalogue entries. `consts` is what the constants section held at launch, `constAt` where its pages
lay then, as offset, memory key and length, and `constStored` the offsets of the bytes stored to since (R236). -/
structure Image where
  codeBase : DWord
  constBase : DWord
  constBytes : Nat
  consts : List Byte
  constAt : List (Nat × Nat × Nat)
  constStored : List Nat
  entries : List (Option DWord)
  catBase : DWord
  catCount : Nat
  codeFirst : Nat
  codeBytes : Nat
  deriving DecidableEq, Repr

/-- A grid's Registrar record (R85 to R94, R99, R102, R352, R467, R476). `limbo` lists gangs killed under
RELAUNCH_HOST that await the host (R96), `relaunching` the gangs whose relaunch has yet to be placed (R476); `agedFrom` is when its
wait began, which the limit of R100 may put before its registration (R84); `lostOn` the links on which a loss of its stores has been logged (R479). -/
structure Grid where
  desc : Desc
  image : Image
  params : Sparse Byte
  status : Status
  relaunches : Nat
  relaunching : List Nat
  failcode : Nat
  run : Nat
  trimmed : Nat
  tail : Nat
  start : Nat
  fin : Nat
  basePrio : Nat
  boost : Nat
  regTime : Nat
  agedFrom : Nat
  lastPlace : Nat
  depth : Nat
  parent : Option Nat
  origin : Option (Nat × Nat)
  bound : Bool
  resolved : Bool
  te : Nat
  pred : Nat
  next : Nat
  last : Nat
  joining : List Nat
  firstWave : Bool
  joinWave : Bool
  gbarPhase : Nat
  gbarArrived : List Nat
  gbarBroken : Bool
  kills : Sparse Nat
  lostOn : List Nat
  used : Sparse Nat
  markSuspect : Bool
  pendingRes : Option Nat
  limbo : List Nat
  wasKilled : Bool
  deriving DecidableEq, Repr

/-- A queue entry the Registrar has consumed: its index, bytes and state (R78 to R81); `heldAt` is when the registration of its
grid first had to wait (R100). -/
structure QEntry where
  idx : Nat
  bytes : List Byte
  acted : Bool
  done : Bool
  grid : Option Nat
  parent : Option Nat
  heldAt : Option Nat
  deriving DecidableEq, Repr

/-- A registered queue (R75): its QCB's virtual address, the TAIL last observed, entries consumed and not yet complete,
the index of an entry the Registrar could not act on, the block and bytes of each `launch` not registered yet (R93), and
the slots, the FIFO-mode banks that hold them, as core and bank, and the last gather of a proxy queue (R83). -/
structure Queue where
  qcb : DWord
  seen : Nat
  entries : List QEntry
  stuck : Option Nat
  pushers : Sparse (Nat × List Byte)
  slots : Sparse (List Byte)
  banks : List (Nat × Nat)
  lastGather : Nat
  deriving DecidableEq, Repr

/-- The context fields system software registers (R96, R103, R110, R129 to R131, R156, R162, R237, R244, R253, R258,
R386, R412). -/
structure CtxCfg where
  ptRoot : DWord
  placeCfg : Word
  issueCfg : Word
  bankCfg : Word
  provCfg : Word
  dutyMode : Word
  handlerPc : DWord
  hframeBase : DWord
  poolBase : DWord
  flogBase : DWord
  saveBase : DWord
  saveBytes : DWord
  dbgCfg : Word
  frontBase : DWord
  annexBase : DWord
  predBase : DWord
  vitBase : DWord
  traceBase : DWord
  traceCfg : Word
  counterBase : DWord
  dumpBase : DWord
  dumpBytes : DWord
  dumpFallback : DWord
  dumpCfg : Word
  deriving DecidableEq, Repr

/-- A resident vitrine entry (R253). -/
structure Vitrine where
  fields : List Byte
  front : Bool
  opened : Bool
  writer : Option Nat
  seq : Word
  swapped : Bool
  deriving DecidableEq, Repr

/-- A trace unit (R410 to R421): buffer bytes, selected warp, time last sent, pending branch bits, sequence, loss. -/
structure TraceUnit where
  buf : List Byte
  wr : Nat
  selected : Option Nat
  time : Nat
  started : Bool
  bits : Sparse (Bool × List Bool)
  seqNo : Nat
  lost : Nat
  sinceSync : Nat
  lossless : Bool
  escaped : Bool
  heldSince : Option Nat
  lastDrain : Nat
  status : Word
  deriving DecidableEq, Repr

/-- A core dump in progress (R430 to R433). `kills` lists blocks of gangs whose kill waits for its end, `resets` dies whose reset does (R478,
R480). -/
structure Dump where
  trigger : Option TrapRec
  fatal : Option Nat
  resume : Bool
  started : Nat
  stage : Nat
  kills : List Nat
  resets : List Nat
  deriving DecidableEq, Repr

/-- A context (R259): key, registered and applied fields, queues, vitrines, cursor, trace units, counters. `tlb` holds the
entries that a TLB or a walker may have cached, by level and virtual page (R240); `freedCores` the cores with freed resources, by time
(R135), and `childCores` those freed for waiting child grids (R95). -/
structure Ctx where
  cfg : CtxCfg
  eff : CtxCfg
  key : Nat
  resident : Bool
  cursor : Nat
  queues : Sparse Queue
  vits : Sparse Vitrine
  preds : Sparse (List Byte)
  units : Sparse TraceUnit
  rcnt : Sparse Nat
  overflow : List Nat
  halted : Bool
  dump : Option Dump
  savePages : List Nat
  gidNext : Nat
  lastSweep : Nat
  tlb : Sparse (List Nat)
  bp : Sparse DWord
  wp : Sparse DWord
  traceOff : Bool
  freedCores : List (Nat × Nat)
  childCores : List Nat
  deriving DecidableEq, Repr

/-- A core (R1, R138, R193, R244 to R248, R424). `dirty` is what its L1 has not written back, oldest first, and `old` the
bytes it may still read from before others' writes, newest first (R241, R333); `granMap` maps scratchpad granules to a block and the
granule's place in it (R132); `promoting` is the candidate the Docent has chosen and has yet to
promote, and `promotedAt` when a promotion last started (R149, R154); `samples` gives each engine (0 herd, 1 sprinter) the warp
slot it sampled last and the non-stalled cycle of that sample (R423). -/
structure Core where
  ctx : Option Nat
  resetAt : Nat
  stalled : Nat
  held : Option Nat
  modes : List BankMode
  fifos : Sparse (List PWord)
  copies : List CopyCmd
  copySeq : Word
  cnt : Sparse Nat
  fenced : Bool
  draining : Option Nat
  scanning : Option Nat
  postponed : Bool
  lastPass : Nat
  stopped : Bool
  missResv : Option (Nat × Nat)
  engReset : Option Nat
  mismatches : Sparse Nat
  dirty : List Buffered
  old : Sparse (List OldByte)
  granMap : Sparse (Nat × Nat)
  promoting : Option Nat
  promotedAt : Option Nat
  samples : Sparse (Nat × Nat)
  deriving DecidableEq, Repr

/-- A matrix or epilogue command in a queue of a pair (R283, R303), captured at issue: its sequence number, warp and
instruction, `%fmt`, the places of the rows it names, source words and A scale words, ring and slot, scratchpad address
and row stride, when it started, how many of its updates of an element a drain has seen, and, for a drain, what elements of its rows
have held since its issue (R292). -/
structure MatCmd where
  id : Nat
  wid : Nat
  instr : Instr
  fmt : Word
  rows : List Nat
  words : List PWord
  scales : List PWord
  ring : Option (Word × Nat)
  addr : Nat
  stride : Nat
  started : Option Nat
  seen : Sparse Nat
  past : Sparse (List PWord)
  deriving DecidableEq, Repr

/-- A pair of cores: matrix owner, command queues, accumulator granules being cleared (R123, R133, R283, R313). -/
structure Pair where
  owner : Option Nat
  mq : List MatCmd
  eq : List MatCmd
  clearing : List Nat
  mseq : Nat
  eseq : Nat
  engReset : Option Nat
  deriving DecidableEq, Repr

/-- States of a fault wait-table entry (R392). -/
inductive WtState where
  | handling (wid : Nat)
  | host (token : Word)
  deriving DecidableEq, Repr

/-- A fault wait-table entry (R392). -/
structure WtEntry where
  ctx : Nat
  page : Nat
  st : WtState
  parked : List Nat
  conflict : Bool
  deriving DecidableEq, Repr

/-- A conflict-table entry (R395): page, times of its conflicts, last use, when it was pinned. -/
structure Conflict where
  ctx : Nat
  page : Nat
  times : List Nat
  used : Nat
  pinned : Option Nat
  deriving DecidableEq, Repr

/-- A host migration claim (R394). -/
structure Claim where
  ctx : Nat
  page : Nat
  at_ : Nat
  deriving DecidableEq, Repr

/-- A link of the device (R479). -/
structure Link where
  fails : Nat
  half : Bool
  down : Bool
  retrain : Option Nat
  deriving DecidableEq, Repr

/-- Events the device raises to the host: interrupts and reports (R79, R81, R96, R383, R391, R414, R468, R488). -/
inductive HostEvent where
  | msi (ctx vector : Nat)
  | fault (ctx : Nat)
  | suspects (core : Nat)
  | skipped (ctx va : Nat)
  | poolLow (ctx : Nat)
  | gangKilled (ctx gid gang : Nat)
  | sliceEnd (blk : Nat)
  | halted (ctx : Nat)
  | dump (ctx : Nat)
  | traceFault (ctx : Nat)
  | priority (blk : Nat)
  deriving DecidableEq, Repr

/-- Registers and tables of the device outside cores and contexts. -/
structure Device where
  now : Nat
  ptpOff : Int
  slew : Int
  master : Nat
  powered : Bool
  bootStatus : DWord
  flash : List FirmwareImage
  active : Nat
  update : Bool
  rollback : Nat
  measured : List Byte
  keys : Sparse Nat
  withheld : List Nat
  wt : Sparse WtEntry
  claims : List Claim
  migClaim : DWord
  conflicts : List Conflict
  dbgCtx : DWord
  dbgCmd : DWord
  dbgData : Sparse Byte
  errCount : Nat
  errLog : Sparse (List Byte)
  nvErr : List (List Byte)
  corrected : Nat
  suspects : List Nat
  suspectOver : Bool
  links : Sparse Link
  degraded : Bool
  replace : Bool
  partBusy : List Nat
  partDie : Nat
  curator : Sparse Nat
  powerLimit : DWord
  powerStat : DWord
  thermal : Nat
  gate : Nat
  events : List HostEvent
  hostData : List Byte
  deriving DecidableEq, Repr

/-- Memory (R3): cells by address, the space's number times 2^48 plus the physical address; poisoned 32 B sectors
(R242); the key each sector was last written under (R258); ranges of sectors, by first and count, whose contents the spec
leaves unspecified until they are written again (R255, R486). -/
structure Mem where
  cells : List Host.Cell
  pois : List Nat
  keys : Sparse Nat
  vague : List (Nat × Nat)
  deriving DecidableEq, Repr

/-- A turn the environment or the arbitration has chosen next: a word of the warp in a slot of a core, an event of the
device, cycles that pass, a disagreement of a warp's two scoreboard copies (R40), a store that leaves a warp's store buffer,
a copy command that moves a piece, by its place among those left (R250), or a 128 B line that leaves a core's L1 (R241, R333). -/
inductive Turn where
  | word (core slot : Nat)
  | event (i : Instr)
  | time (n : Nat)
  | mismatch (core slot : Nat)
  | storeOut (core slot i : Nat)
  | copyMove (core : Nat) (seq : Word) (i : Nat)
  | evict (core line : Nat)
  deriving DecidableEq, Repr

/-- The machine's state. `agenda` holds the turns chosen next, `cur` the warp whose word is being executed, `free`
numbers the values the spec leaves open: the three are the model's own. -/
structure State where
  agenda : List Turn
  cur : Option Nat
  free : Nat
  dev : Device
  mem : Mem
  cores : Sparse Core
  pairs : Sparse Pair
  ctxs : Sparse Ctx
  grids : Sparse Grid
  blocks : Sparse Block
  warps : Sparse Warp
  blkNext : Nat
  cmdNext : Nat
  deriving DecidableEq, Repr

/-- A core after reset: bank modes as BANK_CFG's reset value gives them (R244), nothing placed. -/
def Core.reset : Core :=
  { ctx := none, resetAt := 0, stalled := 0, held := none,
    modes := List.replicate 30 .cache ++ List.replicate 32 .scratch ++ List.replicate 2 .fifo,
    fifos := [], copies := [], copySeq := 0, cnt := [], fenced := false,
    draining := none, scanning := none, postponed := false, lastPass := 0, stopped := false, missResv := none,
    engReset := none, mismatches := [], dirty := [], old := [], granMap := [], promoting := none, promotedAt := none,
    samples := [] }

/-- A pair after reset. -/
def Pair.reset : Pair :=
  { owner := none, mq := [], eq := [], clearing := [], mseq := 0, eseq := 0,
    engReset := none }

/-- A link after reset. -/
def Link.reset : Link := { fails := 0, half := false, down := false, retrain := none }

/-- An empty flash bank. -/
def emptyImage : FirmwareImage := { body := [], rsaSig := [], slhSig := [], version := 0 }

/-- The device after reset: BOOT_STATUS 0 (R484), LIMIT_W 4,200 (R485), MIG_CLAIM and the debug registers 0 (R394,
R426), die 8 time master (R408), nothing logged. -/
def Device.reset : Device :=
  { now := 0, ptpOff := 0, slew := 0, master := 8, powered := true, bootStatus := 0,
    flash := [emptyImage, emptyImage], active := 0, update := false, rollback := 0, measured := [], keys := [], withheld := [],
    wt := [], claims := [], migClaim := 0, conflicts := [], dbgCtx := 0, dbgCmd := 0, dbgData := [],
    errCount := 0, errLog := [], nvErr := [], corrected := 0, suspects := [], suspectOver := false, links := [],
    degraded := false, replace := false, partBusy := [], partDie := 0, curator := [], powerLimit := 4200, powerStat := 0,
    thermal := 0, gate := 0, events := [], hostData := [] }

/-- The machine right after reset: no context, no grid, no block, no warp, memory with nothing listed; cores, pairs and
links not listed are as `Core.reset`, `Pair.reset` and `Link.reset` say. -/
def State.reset : State :=
  { agenda := [], cur := none, free := 0, dev := Device.reset, mem := ⟨[], [], [], []⟩, cores := [], pairs := [],
    ctxs := [], grids := [], blocks := [], warps := [], blkNext := 0, cmdNext := 0 }

/-- Reasons the machine stops with a fault. No rule of the spec stops the whole device by a fault: a fault of a program
is a trap it takes. `poweredOff`: a step of a module that is powered off (R486); safe. -/
inductive Fault where
  | poweredOff
  deriving DecidableEq, Repr

/-- Reasons a step is refused. `notModelled`: the dispatch, for an instruction without a meaning; safe.
`noWarp`: an instruction word executed when no warp is current; safe. -/
inductive Refusal where
  | notModelled (mnemonic : String)
  | noWarp
  deriving DecidableEq, Repr

end Sys2Proof.Machine
end

