-- ==== Sys2Proof/Machine/Mem.lean ====
section
/-! DEFINITION. Memory: bytes in canonical form, little-endian numbers, poison per 32 B sector (R3, R242, R258). -/

namespace Sys2Proof.Machine

/-- Number of a memory space. -/
def spaceNo : Space → Nat
  | .dev => 0
  | .peer => 1
  | .host => 2

/-- The key of a byte: its space and physical address. -/
def memKey (sp : Space) (pa : Nat) : Nat := spaceNo sp * 2 ^ 48 + pa

/-- What an unlisted byte reads as. The spec gives no contents of memory after power-on: 0, a DESIGN CHOICE. -/
def memDefault : Byte := 0

/-- Canonical form of memory. -/
abbrev Mem.wf (m : Mem) : Prop := Canon memDefault m.cells = true

/-- One byte. -/
def Mem.byte (m : Mem) (k : Nat) : Byte := sget memDefault m.cells k

/-- Write one byte. -/
def Mem.setByte (m : Mem) (k : Nat) (b : Byte) : Mem := { m with cells := sput memDefault m.cells k b }

/-- `n` bytes from a key up. -/
def Mem.bytes (m : Mem) (k : Nat) : Nat → List Byte
  | 0 => []
  | n + 1 => m.byte k :: m.bytes (k + 1) n

/-- Write bytes from a key up. -/
def Mem.setBytes (m : Mem) (k : Nat) : List Byte → Mem
  | [] => m
  | b :: bs => (m.setByte k b).setBytes (k + 1) bs

/-- A little-endian number of `n` bytes (R3). -/
def Mem.num (m : Mem) (k n : Nat) : Nat := leNat (m.bytes k n)

/-- Write a little-endian number of `n` bytes. -/
def Mem.setNum (m : Mem) (k n x : Nat) : Mem := m.setBytes k (leBytes n x)

/-- Poison of the sector that holds a byte (R242, R470). -/
def Mem.poisoned (m : Mem) (k : Nat) : Bool := m.pois.contains (k / 32)

/-- Poison of any sector of a range. -/
def Mem.poisonedIn (m : Mem) (k n : Nat) : Bool := m.pois.any fun t => decide (k / 32 ≤ t ∧ t ≤ (k + n - 1) / 32)

/-- Mark or clear the poison of a sector. -/
def Mem.setPois (m : Mem) (t : Nat) (p : Bool) : Mem :=
  { m with pois := if p then nins t m.pois else m.pois.filter (· != t) }

/-- Sectors of a range. -/
def sectors (k n : Nat) : List Nat := if n = 0 then [] else (List.range ((k + n - 1) / 32 - k / 32 + 1)).map (k / 32 + ·)

/-- A store's poison (R266, R472): a poisoned word marks every sector it touches; a clean store of a whole sector clears
its mark; any other clean store leaves it. -/
def Mem.storePois (m : Mem) (k n : Nat) (p : Bool) : Mem :=
  (sectors k n).foldl (fun m t =>
    if p then m.setPois t true
    else if k ≤ 32 * t ∧ 32 * t + 32 ≤ k + n then m.setPois t false
    else m) m

/-- Whether a sector was last written under another key (R258). -/
def Mem.foreign (m : Mem) (key t : Nat) : Bool :=
  match alook t m.keys with
  | some k => k != key
  | none => false

/-- Whether a number lies in one of some ranges. -/
def inSpans (l : List (Nat × Nat)) (t : Nat) : Bool := l.any fun r => decide (r.1 ≤ t ∧ t < r.1 + r.2)

/-- Ranges without the numbers of another one. -/
def cutRange (l : List (Nat × Nat)) (t n : Nat) : List (Nat × Nat) :=
  l.flatMap fun r =>
    if r.1 < t + n ∧ t < r.1 + r.2 then [(r.1, t - r.1), (t + n, r.1 + r.2 - t - n)].filter (·.2 != 0) else [r]

/-- Ranges without a number. -/
def cutSpans (l : List (Nat × Nat)) (t : Nat) : List (Nat × Nat) := cutRange l t 1

/-- Whether a sector gives an unspecified value to a reader under a key: it was last written under another one (R258), or
its contents are unspecified for all (R255). -/
def Mem.unknown (m : Mem) (key t : Nat) : Bool := m.foreign key t || inSpans m.vague t

/-- A byte read under a key (R258). -/
def Mem.byteUnder (m : Mem) (key free k : Nat) : Byte :=
  if m.unknown key (k / 32) then Config.freeByte free k else m.byte k

/-- Poison of any sector of a range for a reader under a key: an unspecified value carries none (R258). -/
def Mem.poisonedUnder (m : Mem) (key k n : Nat) : Bool :=
  m.pois.any fun t => decide (k / 32 ≤ t ∧ t ≤ (k + n - 1) / 32) && !m.unknown key t

/-- `n` bytes read under a key. -/
def Mem.bytesUnder (m : Mem) (key free k : Nat) : Nat → List Byte
  | 0 => []
  | n + 1 => m.byteUnder key free k :: m.bytesUnder key free (k + 1) n

/-- A sector whose value is unspecified takes definite bytes, which the spec leaves open, before part of it is written. -/
def Mem.settleSector (m : Mem) (key free t : Nat) : Mem :=
  if m.unknown key t then
    let m1 := m.setBytes (32 * t) ((List.range 32).map fun i => Config.freeByte free (32 * t + i))
    { m1 with pois := m1.pois.filter (· != t), vague := cutSpans m1.vague t }
  else m

/-- Take a sector over under a key: what it held under another key is unspecified. Only DEV memory is encrypted (R258). -/
def Mem.claimSector (m : Mem) (key free t : Nat) : Mem :=
  let m1 := m.settleSector key free t
  if 2 ^ 43 ≤ t then m1 else { m1 with keys := aput t key m1.keys }

/-- Bytes written under a key. -/
def Mem.setBytesUnder (m : Mem) (key free k : Nat) (bs : List Byte) : Mem :=
  ((sectors k bs.length).foldl (fun m t => m.claimSector key free t) m).setBytes k bs

/-- What the sectors of some ranges hold becomes unspecified, for every reader (R255). -/
def Mem.forget (m : Mem) (rs : List (Nat × Nat)) : Mem :=
  { m with pois := m.pois.filter fun t => !inSpans rs t, vague := rs ++ m.vague }

/-- The fields of a small record in memory: `n` bytes at an offset of its bytes. -/
def fieldOf (bs : List Byte) (off n : Nat) : Nat := leNat ((bs.drop off).take n)

end Sys2Proof.Machine
end

