-- ==== Sys2Proof/Machine/Base.lean ====
section
/-! DEFINITION. Reading and changing one piece of the state at a time: warps, blocks, grids, contexts, cores, pairs,
counters, time, lanes. -/

namespace Sys2Proof.Machine

/-- The warp of a number. -/
def State.warp (s : State) (wid : Nat) : Option Warp := alook wid s.warps

/-- Put a warp. -/
def State.setWarp (s : State) (wid : Nat) (w : Warp) : State := { s with warps := aput wid w s.warps }

/-- Change a warp that exists. -/
def State.modWarp (s : State) (wid : Nat) (f : Warp → Warp) : State :=
  match alook wid s.warps with
  | some w => s.setWarp wid (f w)
  | none => s

/-- The block a warp number belongs to. -/
def blkOf (wid : Nat) : Nat := wid / 2048

/-- A warp's number within its block (R16, R86). -/
def warpNo (wid : Nat) : Nat := wid % 2048

/-- The number of a warp of a block. -/
def widOf (blk no : Nat) : Nat := blk * 2048 + no

/-- The block of a serial number. -/
def State.block (s : State) (b : Nat) : Option Block := alook b s.blocks

/-- Put a block. -/
def State.setBlock (s : State) (b : Nat) (x : Block) : State := { s with blocks := aput b x s.blocks }

/-- Change a block that exists. -/
def State.modBlock (s : State) (b : Nat) (f : Block → Block) : State :=
  match alook b s.blocks with
  | some x => s.setBlock b (f x)
  | none => s

/-- The key of a grid: its context and identifier (R193). -/
def gridKey (ctx gid : Nat) : Nat := ctx * 2 ^ 24 + gid

/-- The grid of a context and identifier. -/
def State.grid (s : State) (ctx gid : Nat) : Option Grid := alook (gridKey ctx gid) s.grids

/-- Change a grid that exists. -/
def State.modGrid (s : State) (ctx gid : Nat) (f : Grid → Grid) : State :=
  { s with grids := amod (gridKey ctx gid) f s.grids }

/-- The grid of a block. -/
def State.gridOf (s : State) (b : Block) : Option Grid := s.grid b.ctx b.gid

/-- A context that exists. -/
def State.ctx (s : State) (c : Nat) : Option Ctx := alook c s.ctxs

/-- Change a context that exists. -/
def State.modCtx (s : State) (c : Nat) (f : Ctx → Ctx) : State := { s with ctxs := amod c f s.ctxs }

/-- A core: an unlisted one is as after reset. -/
def State.core (s : State) (c : Nat) : Core := sget Core.reset s.cores c

/-- Change a core. -/
def State.modCore (s : State) (c : Nat) (f : Core → Core) : State := { s with cores := aput c (f (s.core c)) s.cores }

/-- A pair, named by its leader core. -/
def State.pair (s : State) (p : Nat) : Pair := sget Pair.reset s.pairs p

/-- Change a pair. -/
def State.modPair (s : State) (p : Nat) (f : Pair → Pair) : State := { s with pairs := aput p (f (s.pair p)) s.pairs }

/-- A link. -/
def State.link (s : State) (l : Nat) : Link := sget Link.reset s.dev.links l

/-- Change a link. -/
def State.modLink (s : State) (l : Nat) (f : Link → Link) : State :=
  { s with dev := { s.dev with links := aput l (f (s.link l)) s.dev.links } }

/-- Change the device. -/
def State.modDev (s : State) (f : Device → Device) : State := { s with dev := f s.dev }

/-- Change memory. -/
def State.modMem (s : State) (f : Mem → Mem) : State := { s with mem := f s.mem }

/-- Take the number of the next free value. -/
def State.takeFree (s : State) : State := { s with free := s.free + 1 }

/-- The grid of a warp. -/
def State.gridOfWarp (s : State) (wid : Nat) : Option Grid := (s.block (blkOf wid)).bind s.gridOf

/-- The context of a warp. -/
def State.ctxNo (s : State) (wid : Nat) : Nat :=
  match s.block (blkOf wid) with
  | some b => b.ctx
  | none => 0

/-- The applied configuration of a context (R131, R156, R386); all zero for one that does not exist. -/
def CtxCfg.zero : CtxCfg :=
  { ptRoot := 0, placeCfg := 0, issueCfg := 0, bankCfg := 0, provCfg := 0, dutyMode := 0, handlerPc := 0, hframeBase := 0,
    poolBase := 0, flogBase := 0, saveBase := 0, saveBytes := 0, dbgCfg := 0, frontBase := 0, annexBase := 0,
    predBase := 0, vitBase := 0, traceBase := 0, traceCfg := 0, counterBase := 0, dumpBase := 0, dumpBytes := 0,
    dumpFallback := 0, dumpCfg := 0 }

/-- See `CtxCfg.zero`. -/
def State.cfg (s : State) (c : Nat) : CtxCfg :=
  match s.ctx c with
  | some x => x.eff
  | none => CtxCfg.zero

/-- The key identifier of a context (R258). -/
def State.keyId (s : State) (c : Nat) : Nat :=
  match s.ctx c with
  | some x => x.key
  | none => 0

/-- Bits of a configuration word. -/
def wfld (x : Word) (lo w : Nat) : Nat := fld x.toNat lo w

/-- Count an event on a core (R424); counters are 32 bits wide. -/
def count (s : State) (core ev : Nat) : State :=
  s.modCore core fun c => { c with cnt := aput ev ((sget 0 c.cnt ev + 1) % 2 ^ 32) c.cnt }

/-- Count an event on the Registrar's counters of a context (R424). -/
def countR (s : State) (ctx ev : Nat) : State :=
  s.modCtx ctx fun c => { c with rcnt := aput ev ((sget 0 c.rcnt ev + 1) % 2 ^ 32) c.rcnt }

/-- PTP time in ticks of 0.4 ns (R408). -/
def State.ptp (s : State) : Nat := ((s.dev.now : Int) + s.dev.ptpOff).toNat

/-- Seconds of a PTP time. -/
def ptpSec (t : Nat) : Nat := (2 * t + 4) / 5 / 1000000000

/-- Nanoseconds of a PTP time: 2 for every 5 ticks, rounded up, so that a reading exceeds every earlier tick (R449;
notes/assumptions/155). -/
def ptpNs (t : Nat) : Nat := (2 * t + 4) / 5 % 1000000000

/-- A PTP time in the form of R90: seconds [31:0] in [63:32], nanoseconds in [31:0]. -/
def timeForm (t : Nat) : Nat := ptpSec t % 2 ^ 32 * 2 ^ 32 + ptpNs t

/-- Cycles of a core since it left reset (R138, R193). -/
def State.clock (s : State) (core : Nat) : Nat := s.dev.now - (s.core core).resetAt

/-- Non-stalled cycles of a core (R138): all cycles but those held. -/
def State.nonStalled (s : State) (core : Nat) : Nat :=
  let c := s.core core
  s.clock core - c.stalled - (match c.held with | some t => s.dev.now - t | none => 0)

/-- The core of a warp, 0 for one that is saved. -/
def Warp.core (w : Warp) : Nat := match w.loc with | some (c, _) => c | none => 0

/-- The slot of a warp. -/
def Warp.slot (w : Warp) : Nat := match w.loc with | some (_, k) => k | none => 0

/-- The warp that occupies a slot of a core. -/
def State.warpAt (s : State) (core slot : Nat) : Option Nat :=
  (s.warps.find? fun e => e.2.loc == some (core, slot)).map Prod.fst

/-- The lanes of a mask, ascending. -/
def lanesOf (m : Word) : List Nat := (List.range 32).filter fun l => m.getLsbD l

/-- The mask of the lanes that satisfy a test. -/
def maskOf (f : Nat → Bool) : Word := BitVec.ofNat 32 ((List.range 32).foldl (fun a l => if f l then a + 2 ^ l else a) 0)

/-- Non-exited lanes of a warp: the running path, every waiting entry and, in a handler, the frozen entries and the
set-aside lanes (R157, R387). -/
def Warp.alive (w : Warp) : Word :=
  let m := (w.waiting.foldl (fun a e => a ||| e.path.mask) w.run.mask)
  match w.handler with
  | some h => (h.frozen.foldl (fun a e => a ||| e.path.mask) m) ||| h.aside
  | none => m

/-- The die of a core (R1). -/
def dieOf (core : Nat) : Nat := core / 32

/-- The cluster of a core (R1): 16 cores each. -/
def clusterOf (core : Nat) : Nat := core / 16

/-- The leader of a core's pair (R1): the even core. -/
def leaderOf (core : Nat) : Nat := core / 2 * 2

/-- The warps on a core. -/
def State.warpsOn (s : State) (core : Nat) : List (Nat × Warp) := s.warps.filter fun e =>
  match e.2.loc with
  | some (c, _) => c == core
  | none => false

/-- The warps of a block. -/
def State.warpsOf (s : State) (b : Nat) : List (Nat × Warp) := s.warps.filter fun e => blkOf e.1 == b

/-- Apply a change to every warp of a block. -/
def State.modWarpsOf (s : State) (b : Nat) (f : Warp → Warp) : State :=
  { s with warps := s.warps.map fun e => if blkOf e.1 == b then (e.1, f e.2) else e }

/-- Report an event to the host. -/
def hostEvent (s : State) (e : HostEvent) : State := s.modDev fun d => { d with events := d.events ++ [e] }

/-- Members of a block's gang, as block serials in ascending linear index (R86). -/
def gangOf (s : State) (b : Nat) : List Nat :=
  match s.block b with
  | none => []
  | some x =>
    let n := match s.gridOf x with | some g => max 1 g.desc.gang | none => 1
    (s.blocks.filter fun e => e.2.ctx == x.ctx && e.2.gid == x.gid && e.2.idx / n == x.idx / n).map Prod.fst

end Sys2Proof.Machine
end

