-- ==== Sys2Proof/Machine/Flags.lean ====
section
/-! DEFINITION. The bits of `%fstat` (R69) and the result of an operation that sets them. -/

namespace Sys2Proof.Machine

/-- INVALID, bit 0 (R69). -/
def fInvalid : Nat := 1

/-- DIVZERO, bit 1 (R69). -/
def fDivZero : Nat := 2

/-- OVERFLOW, bit 2 (R69). -/
def fOverflow : Nat := 4

/-- UNDERFLOW, bit 3 (R69). -/
def fUnderflow : Nat := 8

/-- INEXACT, bit 4 (R69). -/
def fInexact : Nat := 16

/-- FORMAT, bit 5 (R69). -/
def fFormat : Nat := 32

/-- A result and the `%fstat` bits it sets. -/
structure FRes where
  bits : Nat
  fl : Nat
  deriving DecidableEq, Repr

/-- OR of flag sets. -/
def FRes.orFl (r : FRes) (f : Nat) : FRes := ⟨r.bits, r.fl ||| f⟩

/-- `%fstat` bits are sticky: an instruction sets a bit when any active lane meets its condition (R69). -/
def stickFstat (w : Warp) (f : Nat) : Warp := { w with fstat := w.fstat ||| BitVec.ofNat 32 f }

/-- Signed reading of the low `w` bits of a number. -/
def toSigned (w x : Nat) : Int :=
  let y := x % 2 ^ w
  if y < 2 ^ (w - 1) then (y : Int) else (y : Int) - (2 ^ w : Nat)

/-- An integer modulo 2^w, as a pattern. -/
def wrapBits (w : Nat) (v : Int) : Nat := (v % (2 ^ w : Nat)).toNat

/-- A carry or overflow never shows in this device: limits take its place (R169 `fit`). -/
def clampInt (lo hi v : Int) : Int := if v < lo then lo else if hi < v then hi else v

end Sys2Proof.Machine
end

