-- ==== Sys2Proof/Machine/Float.lean ====
section
/-! DEFINITION. The floating formats and their arithmetic (R56 to R63, R70): decoding to exact values, the one rounding
procedure, and exact sums, products, quotients and roots. -/

namespace Sys2Proof.Machine

/-- Rounding modes of R59. -/
inductive RMode where
  | rne | rz | rd | ru
  deriving DecidableEq, Repr

/-- A floating format (R56): exponent bits, fraction bits, bias, and how its top exponent is read (R57): `ieee` has
infinities and NaNs, `e4m3` has two NaNs and no infinity, `e2m1` neither. -/
inductive FKind where
  | ieee | e4m3 | e2m1
  deriving DecidableEq, Repr

/-- See `FKind`. -/
structure Fmt where
  eb : Nat
  fb : Nat
  bias : Nat
  kind : FKind
  deriving DecidableEq, Repr

/-- binary64 (R56). -/
def fmt64 : Fmt := ⟨11, 52, 1023, .ieee⟩

/-- binary32 (R56). -/
def fmt32 : Fmt := ⟨8, 23, 127, .ieee⟩

/-- binary16 (R56). -/
def fmt16 : Fmt := ⟨5, 10, 15, .ieee⟩

/-- bfloat16 (R56). -/
def fmtB16 : Fmt := ⟨8, 7, 127, .ieee⟩

/-- E5M2 (R56). -/
def fmtE5 : Fmt := ⟨5, 2, 15, .ieee⟩

/-- E4M3 (R56). -/
def fmtE4 : Fmt := ⟨4, 3, 7, .e4m3⟩

/-- E2M1 (R56). -/
def fmtE2 : Fmt := ⟨2, 1, 1, .e2m1⟩

/-- Width of the format in bits. -/
def Fmt.width (f : Fmt) : Nat := 1 + f.eb + f.fb

/-- Precision, implicit bit counted (R56). -/
def Fmt.prec (f : Fmt) : Nat := f.fb + 1

/-- Exponent of the smallest normal (R56). -/
def Fmt.emin (f : Fmt) : Int := 1 - (f.bias : Int)

/-- The largest exponent field that holds finite values (R56, R57). -/
def Fmt.topField (f : Fmt) : Nat :=
  match f.kind with
  | .ieee => 2 ^ f.eb - 2
  | _ => 2 ^ f.eb - 1

/-- The magnitude bits of the largest finite value (R56). -/
def Fmt.maxBits (f : Fmt) : Nat :=
  match f.kind with
  | .ieee => f.topField * 2 ^ f.fb + (2 ^ f.fb - 1)
  | .e4m3 => f.topField * 2 ^ f.fb + (2 ^ f.fb - 2)
  | .e2m1 => f.topField * 2 ^ f.fb + (2 ^ f.fb - 1)

/-- The value of an encoding. A NaN carries its sign, whether it is quiet, and its fraction bits below the quiet bit
with their number; a finite value is (-1)^neg × m × 2^e. -/
inductive FVal where
  | nan (neg quiet : Bool) (below width : Nat)
  | inf (neg : Bool)
  | fin (neg : Bool) (m : Nat) (e : Int)
  deriving DecidableEq, Repr

/-- The sign bit of an encoding. -/
def Fmt.neg (f : Fmt) (x : Nat) : Bool := x / 2 ^ (f.eb + f.fb) % 2 == 1

/-- Put a sign on magnitude bits. -/
def Fmt.signed (f : Fmt) (neg : Bool) (mag : Nat) : Nat := if neg then 2 ^ (f.eb + f.fb) + mag else mag

/-- The value an encoding stands for (R56, R57). -/
def Fmt.decode (f : Fmt) (x : Nat) : FVal :=
  let neg := f.neg x
  let ex := x / 2 ^ f.fb % 2 ^ f.eb
  let fr := x % 2 ^ f.fb
  if f.kind = .ieee ∧ ex = 2 ^ f.eb - 1 then
    if fr = 0 then .inf neg else .nan neg (fr / 2 ^ (f.fb - 1) == 1) (fr % 2 ^ (f.fb - 1)) (f.fb - 1)
  else if f.kind = .e4m3 ∧ ex = 2 ^ f.eb - 1 ∧ fr = 2 ^ f.fb - 1 then
    .nan neg true (fr % 2 ^ (f.fb - 1)) (f.fb - 1)
  else if ex = 0 then .fin neg fr (f.emin - f.fb)
  else .fin neg (2 ^ f.fb + fr) ((ex : Int) - f.bias - f.fb)

/-- The canonical NaN of a format (R57); E2M1 has none and gives +0 (R58). -/
def Fmt.canonNaN (f : Fmt) : Nat :=
  match f.kind with
  | .ieee => (2 ^ f.eb - 1) * 2 ^ f.fb + 2 ^ (f.fb - 1)
  | .e4m3 => 2 ^ (f.eb + f.fb) - 1
  | .e2m1 => 0

/-- The infinity of a format, magnitude bits. -/
def Fmt.infBits (f : Fmt) : Nat := (2 ^ f.eb - 1) * 2 ^ f.fb

/-- A value is NaN. -/
def FVal.isNaN : FVal → Bool
  | .nan .. => true
  | _ => false

/-- A value is a signalling NaN (R58). -/
def FVal.isSNaN : FVal → Bool
  | .nan _ q _ _ => !q
  | _ => false

/-- A value is a zero. -/
def FVal.isZero : FVal → Bool
  | .fin _ m _ => m == 0
  | _ => false

/-- The sign of a value. -/
def FVal.isNeg : FVal → Bool
  | .nan n _ _ _ => n
  | .inf n => n
  | .fin n _ _ => n

/-- INVALID for a signalling input (R58). -/
def FVal.snanFl (x : FVal) : Nat := if x.isSNaN then fInvalid else 0

/-- Whether rounding away from the truncated magnitude is called for: sign, odd, remainder against half (R59). -/
def roundUp (mode : RMode) (neg odd : Bool) (rem half2 : Nat) : Bool :=
  match mode with
  | .rne => half2 < 2 * rem || (half2 == 2 * rem && odd)
  | .rz => false
  | .rd => neg && rem != 0
  | .ru => !neg && rem != 0

/-- m × 2^e as an integer multiple of 2^q, rounded; and whether the rounding was exact. -/
def roundAt (mode : RMode) (neg : Bool) (m : Nat) (e q : Int) : Nat × Bool :=
  if q ≤ e then (m * 2 ^ (e - q).toNat, true)
  else
    let d := 2 ^ (q - e).toNat
    let n := m / d
    let r := m % d
    (if roundUp mode neg (n % 2 == 1) r d then n + 1 else n, r == 0)

/-- floor(log2 (m × 2^e)) for m ≠ 0. -/
def expOf (m : Nat) (e : Int) : Int := (Nat.log2 m : Int) + e

/-- Magnitude bits of n × 2^q, where n has at most `prec` bits or is a power of two just above (R56). -/
def Fmt.pack (f : Fmt) (n : Nat) (q : Int) : Nat :=
  -- q is the spacing exponent: a value below 2^fb is subnormal at q = emin - fb
  if n < 2 ^ f.fb then n
  else n + ((q - (f.emin - f.fb)).toNat) * 2 ^ f.fb

/-- Overflow of a finite value (R60): magnitude or NaN bits. -/
def Fmt.overflow (f : Fmt) (mode : RMode) (sat neg : Bool) : Nat :=
  if sat then f.signed neg f.maxBits
  else match f.kind with
    | .e2m1 => f.signed neg f.maxBits
    | .e4m3 => f.signed neg f.canonNaN
    | .ieee =>
      match mode with
      | .rne => f.signed neg f.infBits
      | .rz => f.signed neg f.maxBits
      | .rd => f.signed neg (if neg then f.infBits else f.maxBits)
      | .ru => f.signed neg (if neg then f.maxBits else f.infBits)

/-- The rounding of the device for a finite value (R59 to R61). -/
def Fmt.roundFin (f : Fmt) (mode : RMode) (sat neg : Bool) (m : Nat) (e : Int) : FRes :=
  if m = 0 then ⟨f.signed neg 0, 0⟩
  else
    let ex := expOf m e
    let q := max ex f.emin - f.fb
    let (n, exact) := roundAt mode neg m e q
    let mag := f.pack n q
    if f.maxBits < mag then ⟨f.overflow mode sat neg, fOverflow ||| fInexact⟩
    else
      let (n1, _) := roundAt mode neg m e (ex - f.fb)
      let tiny := decide (expOf n1 (ex - f.fb) < f.emin)
      ⟨f.signed neg mag, if exact then 0 else if tiny then fInexact ||| fUnderflow else fInexact⟩

/-- A NaN converted to a format (R58). DESIGN CHOICE (notes/assumptions/26): E4M3 NaN to binary16 follows the rule's general text
and its binary32 example, 0x7F80, where its binary16 example says 0x7F00. -/
def Fmt.nanConv (f : Fmt) (neg : Bool) (below width : Nat) : FRes :=
  match f.kind with
  | .e2m1 => ⟨0, fInvalid⟩
  | .e4m3 => ⟨f.signed neg f.canonNaN, 0⟩
  | .ieee =>
    let w := f.fb - 1
    let b := if w ≤ width then below / 2 ^ (width - w) else below * 2 ^ (w - width)
    ⟨f.signed neg (f.infBits + 2 ^ (f.fb - 1) + b), 0⟩

/-- An infinity converted to a format (R60). -/
def Fmt.infConv (f : Fmt) (sat neg : Bool) : FRes :=
  match f.kind with
  | .ieee => ⟨f.signed neg (if sat then f.maxBits else f.infBits), 0⟩
  | .e4m3 => if sat then ⟨f.signed neg f.maxBits, 0⟩ else ⟨f.signed neg f.canonNaN, fInvalid⟩
  | .e2m1 => ⟨f.signed neg f.maxBits, 0⟩

/-- `round` and `round_sat` as a conversion: a NaN follows the conversion rule (R58, R59). -/
def Fmt.convert (f : Fmt) (mode : RMode) (sat : Bool) (x : FVal) : FRes :=
  match x with
  | .nan n _ b w => (f.nanConv n b w).orFl x.snanFl
  | .inf n => f.infConv sat n
  | .fin n m e => f.roundFin mode sat n m e

/-- `round` of an arithmetic result: a NaN is the canonical one (R58). -/
def Fmt.result (f : Fmt) (mode : RMode) (x : FVal) : FRes :=
  match x with
  | .nan .. => ⟨f.canonNaN, 0⟩
  | .inf n => f.infConv false n
  | .fin n m e => f.roundFin mode false n m e

/-- The NaN an invalid operation delivers (R70). -/
def FVal.bad : FVal := .nan false true 0 0

/-- Exact sum of two finite values; an exact zero of values of opposite sign is +0, or -0 in RD (R59). -/
def addFin (mode : RMode) (n1 : Bool) (m1 : Nat) (e1 : Int) (n2 : Bool) (m2 : Nat) (e2 : Int) : FVal :=
  let e := min e1 e2
  let a := m1 * 2 ^ (e1 - e).toNat
  let b := m2 * 2 ^ (e2 - e).toNat
  if n1 = n2 then .fin n1 (a + b) e
  else if a = b then .fin (mode == .rd) 0 e
  else if b < a then .fin n1 (a - b) e
  else .fin n2 (b - a) e

/-- Exact sum with specials: the value, and INVALID for ∞ − ∞ (R70). -/
def fvAdd (mode : RMode) (x y : FVal) : FVal × Nat :=
  match x, y with
  | .nan .., _ => (.bad, 0)
  | _, .nan .. => (.bad, 0)
  | .inf a, .inf b => if a = b then (.inf a, 0) else (.bad, fInvalid)
  | .inf a, .fin .. => (.inf a, 0)
  | .fin .., .inf b => (.inf b, 0)
  | .fin n1 m1 e1, .fin n2 m2 e2 => (addFin mode n1 m1 e1 n2 m2 e2, 0)

/-- Exact product with specials (R70). -/
def fvMul (x y : FVal) : FVal × Nat :=
  match x, y with
  | .nan .., _ => (.bad, 0)
  | _, .nan .. => (.bad, 0)
  | .inf a, .inf b => (.inf (a != b), 0)
  | .inf a, .fin b m _ => if m = 0 then (.bad, fInvalid) else (.inf (a != b), 0)
  | .fin a m _, .inf b => if m = 0 then (.bad, fInvalid) else (.inf (a != b), 0)
  | .fin n1 m1 e1, .fin n2 m2 e2 => (.fin (n1 != n2) (m1 * m2) (e1 + e2), 0)

/-- Negation, a NaN kept. -/
def FVal.negate : FVal → FVal
  | .nan n q b w => .nan n q b w
  | .inf n => .inf (!n)
  | .fin n m e => .fin (!n) m e

/-- a + b rounded once (R215). -/
def Fmt.add (f : Fmt) (mode : RMode) (a b : FVal) : FRes :=
  let (r, fl) := fvAdd mode a b
  (f.result mode r).orFl (fl ||| a.snanFl ||| b.snanFl)

/-- a − b rounded once (R215). -/
def Fmt.sub (f : Fmt) (mode : RMode) (a b : FVal) : FRes :=
  let (r, fl) := fvAdd mode a b.negate
  (f.result mode r).orFl (fl ||| a.snanFl ||| b.snanFl)

/-- a × b rounded once (R215). -/
def Fmt.mul (f : Fmt) (mode : RMode) (a b : FVal) : FRes :=
  let (r, fl) := fvMul a b
  (f.result mode r).orFl (fl ||| a.snanFl ||| b.snanFl)

/-- a × b + c rounded once (R70, R215). -/
def Fmt.fma (f : Fmt) (mode : RMode) (a b c : FVal) : FRes :=
  let (p, f1) := fvMul a b
  let (r, f2) := fvAdd mode p c
  (f.result mode r).orFl (f1 ||| f2 ||| a.snanFl ||| b.snanFl ||| c.snanFl)

/-- Order of two values that are not NaN, −0 and +0 equal: -1, 0 or 1. -/
def fvCmp (a b : FVal) : Int :=
  match a, b with
  | .inf x, .inf y => if x = y then 0 else if x then -1 else 1
  | .inf x, _ => if x then -1 else 1
  | _, .inf y => if y then 1 else -1
  | .fin n1 m1 e1, .fin n2 m2 e2 =>
    let e := min e1 e2
    let x : Int := (m1 * 2 ^ (e1 - e).toNat : Nat)
    let y : Int := (m2 * 2 ^ (e2 - e).toNat : Nat)
    let x := if n1 then -x else x
    let y := if n2 then -y else y
    if x < y then -1 else if y < x then 1 else 0
  | _, _ => 0

/-- Order of fmin and fmax: −0 below +0 (R216). -/
def fvLess (a b : FVal) : Bool :=
  let c := fvCmp a b
  c < 0 || (c == 0 && a.isNeg && !b.isNeg)

/-- `fmin` and `fmax` on encodings (R216). -/
def Fmt.minmax (f : Fmt) (isMax nan : Bool) (x y : Nat) : FRes :=
  let a := f.decode x
  let b := f.decode y
  let fl := a.snanFl ||| b.snanFl
  if nan && (a.isNaN || b.isNaN) then ⟨f.canonNaN, fl⟩
  else if a.isNaN && b.isNaN then ⟨f.canonNaN, fl⟩
  else if a.isNaN then ⟨y, fl⟩
  else if b.isNaN then ⟨x, fl⟩
  else if isMax then ⟨if fvLess a b then y else x, fl⟩
  else ⟨if fvLess b a then y else x, fl⟩

/-- The subnormal encodings of a format. -/
def Fmt.isSubnormal (f : Fmt) (x : Nat) : Bool :=
  x / 2 ^ f.fb % 2 ^ f.eb == 0 && x % 2 ^ f.fb != 0

/-- An operand under FLUSH (R62): a binary32 subnormal reads as zero of its sign. -/
def flushIn (flush : Bool) (f : Fmt) (x : Nat) : Nat :=
  if flush && f.isSubnormal x && f == fmt32 then f.signed (f.neg x) 0 else x

/-- A result under FLUSH (R62). -/
def flushOut (flush : Bool) (f : Fmt) (r : FRes) : FRes :=
  if flush && f.isSubnormal r.bits && f == fmt32 then
    ⟨f.signed (f.neg r.bits) 0, r.fl ||| fUnderflow ||| fInexact⟩
  else r

/-- Integer square root by bits: the largest r with r² ≤ x. -/
def isqrt (fuel x : Nat) : Nat :=
  match fuel with
  | 0 => 0
  | n + 1 =>
    let r := isqrt n (x / 4)
    let s := 2 * r + 1
    if s * s ≤ x then s else 2 * r

/-- 1 / a, correctly rounded (R229 `frcp`). Quotients keep enough bits and a sticky last bit. -/
def Fmt.recip (f : Fmt) (mode : RMode) (a : FVal) : FRes :=
  match a with
  | .nan .. => ⟨f.canonNaN, a.snanFl⟩
  | .inf n => ⟨f.signed n 0, 0⟩
  | .fin n m e =>
    if m = 0 then ⟨f.signed n f.infBits, fDivZero⟩
    else
      let k := Nat.log2 m + 2 * f.prec + 4
      let q := 2 ^ k / m
      let st := if 2 ^ k % m = 0 then 0 else 1
      f.roundFin mode false n (2 * q + st) (-(k : Int) - 1 - e)

/-- √a, correctly rounded (R229 `fsqrt`). -/
def Fmt.root (f : Fmt) (mode : RMode) (a : FVal) : FRes :=
  match a with
  | .nan .. => ⟨f.canonNaN, a.snanFl⟩
  | .inf n => if n then ⟨f.canonNaN, fInvalid⟩ else ⟨f.infBits, 0⟩
  | .fin n m e =>
    if m = 0 then ⟨f.signed n 0, 0⟩
    else if n then ⟨f.canonNaN, fInvalid⟩
    else
      let sh := 4 * f.prec + 8
      let odd := (e % 2).toNat
      let x := m * 2 ^ (sh + odd)
      let r := isqrt (Nat.log2 x + 2) x
      let st := if r * r = x then 0 else 1
      f.roundFin mode false false (2 * r + st) ((e - odd) / 2 - (sh / 2 : Nat) - 1)

/-- Round to an integer in a mode; whether exact. -/
def roundInt (mode : RMode) (neg : Bool) (m : Nat) (e : Int) : Int × Bool :=
  let (n, exact) := roundAt mode neg m e 0
  (if neg then -(n : Int) else n, exact)

/-- Floating to integer (R63): rounded, saturated to lo..hi, as a `w`-bit pattern. DESIGN CHOICE (notes/assumptions/27): a NaN
gives 0 with INVALID in the formats s16, n16 and n8 too, which R58 does not name. -/
def toInt (mode : RMode) (w : Nat) (lo hi : Int) (x : FVal) : FRes :=
  match x with
  | .nan .. => ⟨0, fInvalid⟩
  | .inf n => ⟨wrapBits w (if n then lo else hi), fInvalid⟩
  | .fin n m e =>
    let (v, exact) := roundInt mode n m e
    if v < lo ∨ hi < v then ⟨wrapBits w (clampInt lo hi v), fInvalid ||| fInexact⟩
    else ⟨wrapBits w v, if exact then 0 else fInexact⟩

/-- An exact integer as a value. -/
def ofInt (v : Int) : FVal := .fin (decide (v < 0)) v.natAbs 0

/-- `frnd` (R219): an integral value of the same format, sign kept. -/
def Fmt.integral (f : Fmt) (mode : RMode) (x : Nat) : FRes :=
  match f.decode x with
  | .nan n q b w => ⟨f.canonNaN, (FVal.nan n q b w).snanFl⟩
  | .inf n => ⟨f.signed n f.infBits, 0⟩
  | .fin n m e =>
    let (v, _) := roundInt mode n m e
    ⟨(f.roundFin .rne false n v.natAbs 0).bits, 0⟩

/-- a × 2^k rounded once (R219 `fscale`). -/
def Fmt.scale (f : Fmt) (mode : RMode) (x : FVal) (k : Int) : FRes :=
  match x with
  | .nan .. => ⟨f.canonNaN, x.snanFl⟩
  | .inf n => ⟨f.signed n f.infBits, 0⟩
  | .fin n m e => f.roundFin mode false n m (e + k)

/-- Bit of `fclass` (R218). -/
def Fmt.classify (f : Fmt) (x : Nat) : Nat :=
  match f.decode x with
  | .nan _ q _ _ => if q then 1 else 0
  | .inf n => if n then 2 else 9
  | .fin n m _ =>
    if m = 0 then (if n then 5 else 6)
    else if f.isSubnormal x then (if n then 4 else 7)
    else (if n then 3 else 8)

/-- The rounding mode of a modifier (R214). -/
def RMode.ofRM : RM → RMode
  | .rn => .rne
  | .rz => .rz
  | .rd => .rd
  | .ru => .ru

/-- RND of `%fmt` (R67). -/
def rndOf (fmt : Word) : RMode :=
  match fmt.toNat / 256 % 4 with
  | 0 => .rne
  | 1 => .rz
  | 2 => .rd
  | _ => .ru

/-- SAT of `%fmt` (R67). -/
def satOf (fmt : Word) : Bool := fmt.toNat / 1024 % 2 == 1

/-- FLUSH of `%fmt` (R67). -/
def flushOf (fmt : Word) : Bool := fmt.toNat / 2048 % 2 == 1

/-- binary32 sum in RNE, subnormals kept, no status (R71, R73, R296, R347). -/
def add32 (x y : Nat) : Nat := (fmt32.add .rne (fmt32.decode x) (fmt32.decode y)).bits

/-- binary32 difference in RNE. -/
def sub32 (x y : Nat) : Nat := (fmt32.sub .rne (fmt32.decode x) (fmt32.decode y)).bits

end Sys2Proof.Machine
end

