-- ==== Sys2Proof/Machine/Operands.lean ====
section
/-! DEFINITION. Reading and writing operands: registers, predicates, constants (R44, R45), cells and releases (R47, R48,
R127), guards (R42, R167). -/

namespace Sys2Proof.Machine

/-- A value of an operand, 32 or 64 bits, with its poison (R204). -/
structure PV where
  v : Nat
  pois : Bool
  deriving DecidableEq, Repr

/-- The word of a vector register in a lane; one that holds no cell reads 0 (R48). -/
def Warp.vget (w : Warp) (r l : Nat) : PWord := (((alook r w.v).bind fun ws => ws[l]?)).getD PWord.zero

/-- A uniform register. -/
def Warp.sget (w : Warp) (r : Nat) : PWord := Machine.sget PWord.zero w.s r

/-- A predicate of a lane; p7 reads true (R5). -/
def Warp.pget (w : Warp) (n l : Nat) : Bool := if n = 7 then true else (w.p[n]?.getD 0).getLsbD l

/-- A uniform predicate; q3 reads true (R5). -/
def Warp.qget (w : Warp) (n : Nat) : Bool := if n = 3 then true else (w.q[n]?).getD false

/-- A pair of words as a 64-bit value. -/
def pv64 (lo hi : PWord) : PV := ⟨lo.val.toNat + 2 ^ 32 * hi.val.toNat, lo.pois || hi.pois⟩

/-- The slices of a lane mask (R121): 8 lanes each. -/
def slicesOf (m : Word) : List Nat := (List.range 4).filter fun i => fld m.toNat (8 * i) 8 != 0

/-- The lanes of a slice. -/
def sliceMask (i : Nat) : Word := BitVec.ofNat 32 (255 * 2 ^ (8 * i))

/-- Number of the cell of a register and slice. -/
def cellNo (r sl : Nat) : Nat := r * 4 + sl

/-- Write a vector register in the lanes of a mask; slices without a cell take one (R127). -/
def Warp.vput (w : Warp) (r : Nat) (m : Word) (f : Nat → PWord) : Warp :=
  if m = 0 then w
  else
    let ws := (List.range 32).map fun l => if m.getLsbD l then f l else w.vget r l
    { w with v := aput r ws w.v
             cells := (slicesOf m).foldl (fun c sl => nins (cellNo r sl) c) w.cells
             freed := w.freed.filter fun c => !((slicesOf m).any fun sl => c == cellNo r sl) }

/-- Write a 64-bit value to an even pair. -/
def Warp.vput64 (w : Warp) (r : Nat) (m : Word) (f : Nat → PV) : Warp :=
  (w.vput r m fun l => ⟨BitVec.ofNat 32 (f l).v, (f l).pois⟩).vput (r + 1) m
    fun l => ⟨BitVec.ofNat 32 ((f l).v / 2 ^ 32), (f l).pois⟩

/-- Write a uniform register. -/
def Warp.sput (w : Warp) (r : Nat) (x : PWord) : Warp := { w with s := Machine.sput PWord.zero w.s r x }

/-- Write a pair of uniform registers. -/
def Warp.sput64 (w : Warp) (r : Nat) (x : PV) : Warp :=
  (w.sput r ⟨BitVec.ofNat 32 x.v, x.pois⟩).sput (r + 1) ⟨BitVec.ofNat 32 (x.v / 2 ^ 32), x.pois⟩

/-- Write a predicate in the lanes of a mask; p7 discards (R5). -/
def Warp.pput (w : Warp) (n : Nat) (m : Word) (f : Nat → Bool) : Warp :=
  if n < 7 ∧ m ≠ 0 then
    { w with p := (List.range 7).map fun i =>
        if i = n then maskOf fun l => if m.getLsbD l then f l else w.pget n l else (w.p[i]?).getD 0 }
  else w

/-- Write a uniform predicate; q3 discards (R5). -/
def Warp.qput (w : Warp) (n : Nat) (b : Bool) : Warp :=
  if n < 3 then { w with q := (List.range 3).map fun i => if i = n then b else (w.q[i]?).getD false } else w

/-- Release a vector register in the slices of a mask: its cells are freed and it reads 0 there (R47, R48). -/
def Warp.vrelease (w : Warp) (r : Nat) (m : Word) : Warp :=
  let sls := (slicesOf m).filter fun sl => w.cells.contains (cellNo r sl)
  let dead := maskOf fun l => sls.contains (l / 8)
  if sls.isEmpty then w
  else
    { w with v := aput r ((List.range 32).map fun l => if dead.getLsbD l then PWord.zero else w.vget r l) w.v
             cells := w.cells.filter fun c => !(sls.any fun sl => c == cellNo r sl)
             freed := sls.foldl (fun c sl => nins (cellNo r sl) c) w.freed }

/-- binary32 bits widened to binary64; a NaN keeps its sign and its low fraction bits, and is quiet (R45). -/
def widenK (k : Nat) : Nat := (fmt64.convert .rne false (fmt32.decode k)).bits

/-- Copies of a 16-bit or 8-bit element across a word. -/
def rep (w x : Nat) : Nat := if w = 16 then x * 65537 else x * 16843009

/-- One value for each type of R45: 32-bit integer, f32, 64-bit integer, f64, s16x2, s8x4, f16x2, bf16x2. -/
def byType (t : Ty) (i32 f32v i64 f64v i16 i8 f16 bf16 : Nat) : Nat :=
  match t with
  | .b32 | .s32 | .n32 => i32
  | .f32 => f32v
  | .b64 | .s64 | .n64 => i64
  | .f64 => f64v
  | .s16x2 | .n16x2 => i16
  | .s8x4 | .n8x4 => i8
  | .f16x2 => f16
  | .bf16x2 => bf16

/-- The value a constant code supplies (R45). -/
def constVal (t : Ty) (k : Word) (lane : Nat) : Opd → Nat
  | .k =>
    match t with
    | .s64 => (k.signExtend 64).toNat
    | .f64 => widenK k.toNat
    | _ => k.toNat
  | .laneid => lane
  | .ones => if tw t = 2 then 2 ^ 64 - 1 else 2 ^ 32 - 1
  | .p1 => byType t 1 0x3F800000 1 0x3FF0000000000000 0x00010001 0x01010101 0x3C003C00 0x3F803F80
  | .m1 => byType t 0xFFFFFFFF 0xBF800000 (2 ^ 64 - 1) 0xBFF0000000000000 0xFFFFFFFF 0xFFFFFFFF 0xBC00BC00 0xBF80BF80
  | .half => byType t 0x3F000000 0x3F000000 0x3F000000 0x3FE0000000000000 0x3F000000 0x3F000000 0x38003800 0x3F003F00
  | .fone => byType t 0x3F800000 0x3F800000 0x3F800000 0x3FF0000000000000 0x3F800000 0x3F800000 0x3C003C00 0x3F803F80
  | .ftwo => byType t 0x40000000 0x40000000 0x40000000 0x4000000000000000 0x40000000 0x40000000 0x40004000 0x40004000
  | .fmone => byType t 0xBF800000 0xBF800000 0xBF800000 0xBFF0000000000000 0xBF800000 0xBF800000 0xBC00BC00 0xBF80BF80
  | _ => 0

/-- A source operand in a lane, at a type (R44, R45). -/
def Warp.src (w : Warp) (k : Word) (t : Ty) (o : Opd) (l : Nat) : PV :=
  match o with
  | .v r =>
    if tw t = 2 then pv64 (w.vget r.val l) (w.vget (r.val + 1) l)
    else ⟨(w.vget r.val l).val.toNat, (w.vget r.val l).pois⟩
  | .s r =>
    if tw t = 2 then pv64 (w.sget r.val) (w.sget (r.val + 1))
    else ⟨(w.sget r.val).val.toNat, (w.sget r.val).pois⟩
  | o => ⟨constVal t k l o, false⟩

/-- A predicate operand in a lane (R44). -/
def Warp.psrc (w : Warp) (o : Opd) (l : Nat) : Bool :=
  match o with
  | .p r => w.pget r.val l
  | .q r => w.qget r.val
  | _ => false

/-- Write a destination in the lanes of a mask; a uniform one takes lane 0's value when any lane is active, zero
discards (R44). -/
def Warp.dput (w : Warp) (t : Ty) (d : Opd) (m : Word) (f : Nat → PV) : Warp :=
  match d with
  | .v r =>
    if tw t = 2 then w.vput64 r.val m f
    else w.vput r.val m fun l => ⟨BitVec.ofNat 32 (f l).v, (f l).pois⟩
  | .s r =>
    if m = 0 then w
    else if tw t = 2 then w.sput64 r.val (f 0)
    else w.sput r.val ⟨BitVec.ofNat 32 (f 0).v, (f 0).pois⟩
  | _ => w

/-- Write a predicate destination. -/
def Warp.pdput (w : Warp) (d : Opd) (m : Word) (f : Nat → Bool) : Warp :=
  match d with
  | .p r => w.pput r.val m f
  | .q r => if m = 0 then w else w.qput r.val (f 0)
  | _ => w

/-- The lanes of a mask that pass a per-lane guard (R42). -/
def Warp.guarded (w : Warp) (g : Guard) (m : Word) : Word :=
  maskOf fun l => m.getLsbD l && (w.pget g.idx.val l != g.neg)

/-- Whether a uniform guard holds: GUARD 0 to 2 names q0 to q2, 7 is always (R167). -/
def Warp.uguard (w : Warp) (g : Guard) : Bool := if g.idx = 7 then true else w.qget g.idx.val != g.neg

/-- The row of a word instruction. -/
def rowOf (i : Instr) : Option RowSpec := i.parts.bind fun p => rowSpec p.op p.o.ty p.m

/-- Registers an operand of a kind covers. -/
def kindSpan : Kind → Nat
  | .reg _ _ _ _ _ _ sp => sp
  | _ => 1

/-- The vector registers an operand names. -/
def opdV (k : Kind) : Opd → List Nat
  | .v r => (List.range (kindSpan k)).map (r.val + ·)
  | _ => []

/-- The uniform registers an operand names. -/
def opdS (k : Kind) : Opd → List Nat
  | .s r => (List.range (kindSpan k)).map (r.val + ·)
  | _ => []

/-- Registers of an instruction word: vector read, vector written, uniform read, uniform written. A D field that holds
data to store is counted with both. -/
structure RegUse where
  vr : List Nat
  vw : List Nat
  sr : List Nat
  sw : List Nat
  deriving DecidableEq, Repr

/-- The registers an instruction word names (R38, R128), with the link that `call` and `calli` write (R176). D of a pair
half is its first source (R49), that of a `mov` half too, which R50 does not read: DESIGN CHOICE (notes/assumptions/21). -/
def usesOf (i : Instr) : RegUse :=
  match i with
  | .pairWord h1 h2 => ⟨h1.reads ++ h2.reads, h1.writes ++ h2.writes,
      [h1.a, h2.a].flatMap (opdS (.reg true true true true true 1 1)), []⟩
  | i =>
    match i.parts, rowOf i with
    | some p, some r => ⟨opdV r.a p.o.a ++ opdV r.b p.o.b ++ opdV r.c p.o.c, opdV r.d p.o.d,
        opdS r.a p.o.a ++ opdS r.b p.o.b ++ opdS r.c p.o.c,
        if p.op = 0x03 ∨ p.op = 0x04 then [94, 95] else opdS r.d p.o.d⟩
    | _, _ => ⟨[], [], [], []⟩

/-- Registers with an outstanding long-latency write (R38). -/
def Warp.pendV (w : Warp) : List Nat := w.pend.flatMap fun p => p.vw.map Prod.fst

/-- See `Warp.pendV`. -/
def Warp.pendS (w : Warp) : List Nat := w.pend.flatMap fun p => p.sw.map Prod.fst

/-- The count of a completion flag: operations outstanding on it (R36). -/
def Warp.flag (w : Warp) (f : Nat) : Nat := (w.pend.filter fun p => p.flag == some f).length

/-- What the release bits of a word release (R47): the running entry's slices, whatever a per-lane guard says; a uniform guard
that fails leaves the word without effect (R167). -/
def Warp.releases (w : Warp) (i : Instr) (m : Word) : Warp :=
  match i.parts, rowOf i with
  | some p, some r =>
    let rs := (if p.o.relA then opdV r.a p.o.a else []) ++ (if p.o.relB then opdV r.b p.o.b else [])
    if r.uguard && !w.uguard p.o.guard then w else rs.foldl (fun w x => w.vrelease x m) w
  | _, _ => w

end Sys2Proof.Machine
end

