-- ==== Sys2Proof/Machine/Coherence.lean ====
section
/-! DEFINITION. Memory as the agents of the device see it (R241, R320 to R334): writes that reach their coherence point, what
cores may still read from before them, reservations (R270), bytes of constants sections stored to (R236), and the replay of a
sprinter's loads (R148). -/

namespace Sys2Proof.Machine

/-- Counter 0x45, load replay (R148, R424). -/
def evLoadReplay : Nat := 0x45

/-- The UCIe modules in service (R481). -/
def hostModules (s : State) : List Nat := ((List.range 8).map (18 + ·)).filter fun l => !(s.link l).down

/-- The link that an access at a memory key travels over (R260): a peer's port, or one of the UCIe modules in service; module 18
stands for them all where none is. -/
def linkOf (s : State) (key : Nat) : Option Nat :=
  match key / 2 ^ 48 with
  | 1 => some (Config.peerPort (key / 2 ^ 40 % 256) % 18)
  | 2 => some (((hostModules s)[Config.hostModule (key / 128) % (hostModules s).length]?).getD 18)
  | _ => none

/-- Whether the link of a memory key is down (R479). -/
def linkDown (s : State) (key : Nat) : Bool := match linkOf s key with | some l => (s.link l).down | none => false

/-- Whether the link of a memory key is being reset: its accesses wait (R260, R479). -/
def linkWaits (s : State) (key : Nat) : Bool :=
  match linkOf s key with
  | some l => (s.link l).retrain.isSome && !(s.link l).down
  | none => false

/-- Bytes of a WIDTH (R261). -/
def memBytes : MemW → Nat
  | .n8 | .s8 => 1
  | .n16 | .s16 => 2
  | .b32 => 4
  | .b64 => 8
  | .b128 => 16

/-- Words a load delivers (R265): one word extended, or the words of the bytes. -/
def loadWords (w : MemW) (bs : List Byte) (p : Nat → Bool) : List PWord :=
  let x := leNat bs
  match w with
  | .n8 | .n16 | .b32 => [⟨BitVec.ofNat 32 x, p 0⟩]
  | .s8 => [⟨BitVec.ofNat 32 (wrapBits 32 (toSigned 8 x)), p 0⟩]
  | .s16 => [⟨BitVec.ofNat 32 (wrapBits 32 (toSigned 16 x)), p 0⟩]
  | .b64 => (List.range 2).map fun i => ⟨BitVec.ofNat 32 (fld x (32 * i) 32), p i⟩
  | .b128 => (List.range 4).map fun i => ⟨BitVec.ofNat 32 (fld x (32 * i) 32), p i⟩

/-- A byte of a block's provisional lines over the ordinary line (R109). -/
def provByte (b : Block) (k : Nat) (ordinary : Byte) : Byte := (alook k b.plines).getD ordinary

/-- Whether a block's provisional lines hold every byte of a range (R109). -/
def Block.covers (b : Block) (key n : Nat) : Bool := (List.range n).all fun i => (alook (key + i) b.plines).isSome

/-- Poison of a block's read of memory: a sector's poison there counts unless its provisional bytes cover the sector (R109);
over a link that is down what comes from the peer is poisoned (R260). -/
def loadPois (s : State) (b : Block) (key n : Nat) : Bool :=
  ((sectors key n).any fun t => b.ppois.contains t || (s.mem.poisonedUnder (s.keyId b.ctx) (32 * t) 32 && !b.covers (32 * t) 32))
    || (linkDown s key && !b.covers key n)

/-- A block's read of memory: the bytes and their poison, its own provisional lines merged (R109, R265). -/
def loadKey (s : State) (blk key n : Nat) : List Byte × Bool :=
  match s.block blk with
  | none => (List.replicate n 0, false)
  | some b =>
    let bs := s.mem.bytesUnder (s.keyId b.ctx) s.free key n
    ((List.range n).map fun i => provByte b (key + i) (bs[i]?.getD 0), loadPois s b key n)

/-- Scratchpad words a range touches. -/
def scrWords (o n : Nat) : List Nat := if n = 0 then [] else (List.range ((o + n - 1) / 4 - o / 4 + 1)).map (o / 4 + ·)

/-- Read scratchpad bytes and their poison. -/
def scrRead (s : State) (at_ : Option Nat × Nat) (n : Nat) : List Byte × Bool :=
  match at_.1.bind fun b => s.block b with
  | none => ((List.range n).map fun i => Config.freeByte s.free (at_.2 + i), false)
  | some b => ((List.range n).map fun i => sget 0 b.scr (at_.2 + i), (scrWords at_.2 n).any fun w => b.scrPois.contains w)

/-- The line of a memory key (R241). -/
def lineOf (key : Nat) : Nat := key / 128

/-- Whether a memory key lies in one of the lines of a range. -/
def inLines (key n k : Nat) : Bool := decide (lineOf key ≤ lineOf k ∧ lineOf k ≤ lineOf (key + n - 1))

/-- Drop what a core may still read from before others' writes, in the lines of a range. -/
def Core.refreshLines (c : Core) (key n : Nat) : Core := { c with old := c.old.filter fun e => !inLines key n e.1 }

/-- Keep what bytes hold before another's write, before older values (R332, R333). -/
def Core.remember (c : Core) (now : Nat) (key : Nat) (bs : List Byte) : Core :=
  { c with old := (List.range bs.length).foldl (fun o i => aput (key + i) (⟨now, bs[i]?.getD 0⟩ :: sget [] o (key + i)) o) c.old }

/-- Of the aligned 8 B units of a range, a core reads no longer what was written over before a time: it has observed a later
value (R326). -/
def Core.observe (c : Core) (key n t : Nat) : Core :=
  { c with old := c.old.filterMap fun e =>
      if key / 8 ≤ e.1 / 8 ∧ e.1 / 8 ≤ (key + n - 1) / 8 then
        (match e.2.filter fun x => decide (t ≤ x.at_) with | [] => none | l => some (e.1, l))
      else some e }

/-- The core a warp's accesses pass through: its own, or its block's first. -/
def coreOf (s : State) (wid : Nat) : Option Nat :=
  match (s.warp wid).bind Warp.loc with
  | some (c, _) => some c
  | none => (s.block (blkOf wid)).bind fun b => b.cores.head?

/-- What the cores keep when bytes are about to be written (R241, R333): the core the write comes from sees it, every other
core of a context may go on reading the old bytes; where poison is involved none does. -/
def State.remember (s : State) (core : Option Nat) (key n : Nat) (p : Bool) : State :=
  let olds := s.mem.bytes key n
  let fresh := p || s.mem.poisonedIn key n || (sectors key n).any (inSpans s.mem.vague)
  { s with cores := s.cores.map fun e =>
      (e.1, if fresh then e.2.refreshLines key n
        else if some e.1 == core then e.2.observe key n (s.dev.now + 1)
        else if e.2.ctx.isSome then e.2.remember s.dev.now key olds else e.2) }

/-- Clear every reservation on the granules of a range (R270). -/
def clearResv (s : State) (key n : Nat) : State :=
  { s with warps := s.warps.map fun e =>
      (e.1, { e.2 with resv := e.2.resv.filter fun r => !(decide (key / 64 ≤ r.2 ∧ r.2 ≤ (key + n - 1) / 64)) }) }

/-- The offsets of a constants section that a range of memory covers have been stored to (R236). -/
def Image.noteStore (im : Image) (key n : Nat) : Image :=
  { im with constStored := im.constAt.foldl (fun l a =>
      let lo := max key a.2.1
      (List.range (min (key + n) (a.2.1 + a.2.2) - lo)).foldl (fun l i => nins (a.1 + (lo - a.2.1) + i) l) l) im.constStored }

/-- See `Image.noteStore`: of every grid that is running. -/
def noteConsts (s : State) (key n : Nat) : State :=
  { s with grids := s.grids.map fun e =>
      (e.1, { e.2 with image := if e.2.status = .running then e.2.image.noteStore key n else e.2.image }) }

/-- The words a lane of a load gets when it is read again (R148). -/
def LoadSrc.words (s : State) (wid : Nat) (x : LoadSrc) : List (Nat × Nat × PWord) :=
  let n := memBytes x.width
  let ws := match x.spot with
    | .mem k => let d := loadKey s (blkOf wid) k n; loadWords x.width d.1 fun _ => d.2
    | .scr b o => loadWords x.width (scrRead s (some b, o) n).1 fun i => (scrRead s (some b, o + 4 * i) (min n 4)).2
  (List.range ws.length).map fun i => (x.reg + i, x.lane, ws[i]?.getD PWord.zero)

/-- Whether an outstanding operation is a load (R148). -/
def Pend.isLoad (p : Pend) : Bool :=
  match p.kind with
  | .mem | .peer _ => true
  | .mat _ => false

/-- Loads that a write makes the engine replay: those that met it while an older load was outstanding (R148). The flag says
that one was; the number counts the replays. What a debugger's write has discarded stays so (R406). -/
def replayPends (hit : LoadSrc → Bool) (redo : LoadSrc → List (Nat × Nat × PWord)) : Bool → List Pend → List Pend × Nat
  | _, [] => ([], 0)
  | older, p :: ps =>
    let r := replayPends hit redo (older || p.isLoad) ps
    if older && p.src.any hit then
      ({ p with vw := (p.src.flatMap redo).filter fun x => !p.skip.contains x.1 } :: r.1, r.2 + 1)
    else (p :: r.1, r.2)

/-- Whether a warp is promoted (R144). -/
def Warp.promoted (w : Warp) : Bool := match w.sched.engine with | .sprinter _ _ => true | _ => false

/-- A write by an agent makes promoted warps replay loads that read what it wrote while an older load is outstanding; each
replay is counted (R148). An older store of the warp itself is never unresolved, because stores are serialising (R146). -/
def replayLoads (s : State) (who : Option Nat) (hit : LoadSrc → Bool) : State :=
  s.warps.foldl (fun s e =>
    if e.2.promoted && some e.1 != who && e.2.pend.any (fun p => p.src.any hit) then
      let r := replayPends hit (fun x => x.words s e.1) false e.2.pend
      (List.range r.2).foldl (fun s _ => count s e.2.core evLoadReplay) (s.modWarp e.1 fun w => { w with pend := r.1 })
    else s) s

/-- Whether a load read a line of a range of memory. -/
def LoadSrc.inMem (key n : Nat) (x : LoadSrc) : Bool :=
  match x.spot with
  | .mem k => inLines key n k || inLines key n (k + memBytes x.width - 1)
  | .scr _ _ => false

/-- Whether a load read a byte of a range of a block's scratchpad. -/
def LoadSrc.inScr (blk off n : Nat) (x : LoadSrc) : Bool :=
  match x.spot with
  | .mem _ => false
  | .scr b o => b == blk && decide (off < o + memBytes x.width ∧ o < off + n)

/-- A write reaches its coherence point (R326, R333): every agent sees it but for what cores may still read; reservations
on its granules are lost (R270). `who` is the warp and `core` the core it comes from, if any; else it comes from the core of the
warp whose word is being executed. -/
def State.putBy (s : State) (who core : Option Nat) (key n : Nat) (p : Bool) (f : Mem → Mem) : State :=
  if n = 0 then s
  else
    let s1 := (noteConsts (s.remember (core.or (s.cur.bind (coreOf s))) key n p) key n).modMem f
    replayLoads (clearResv s1.takeFree key n) who (LoadSrc.inMem key n)

/-- Bytes written under a key identifier reach memory, clean or poisoned (R258, R266, R472). -/
def State.put (s : State) (who core : Option Nat) (kid key : Nat) (bs : List Byte) (p : Bool) : State :=
  s.putBy who core key bs.length p fun m => (m.setBytesUnder kid s.free key bs).storePois key bs.length p

/-- Write scratchpad bytes, by a warp or by an engine: a poisoned value marks the words it touches, a clean one clears the words
it covers whole (R266). -/
def scrWriteBy (s : State) (who : Option Nat) (at_ : Option Nat × Nat) (bs : List Byte) (p : Bool) : State :=
  match at_.1 with
  | none => s
  | some bn =>
    let o := at_.2
    let ws := scrWords o bs.length
    replayLoads (s.modBlock bn fun b =>
      { b with scr := (List.range bs.length).foldl (fun m i => sput 0 m (o + i) (bs[i]?.getD 0)) b.scr
               scrPois := if p then ws.foldl (fun l w => nins w l) b.scrPois
                 else b.scrPois.filter fun w => !(decide (o ≤ 4 * w ∧ 4 * w + 4 ≤ o + bs.length)) })
      who (LoadSrc.inScr bn o bs.length)

/-- See `scrWriteBy`: by the warp whose word is being executed, if any. -/
def scrWrite (s : State) (at_ : Option Nat × Nat) (bs : List Byte) (p : Bool) : State := scrWriteBy s s.cur at_ bs p

/-- How far a warp's scope reaches (R323): 0 to the agents of its core, 1 to those of its cluster, which holds the cores of its block,
2 beyond. -/
def reachOf (s : State) (wid : Nat) : Scope → Nat
  | .wp => 0
  | .blk => match s.block (blkOf wid) with | some b => if 1 < b.cores.length then 1 else 0 | none => 0
  | .cls => 1
  | .dev | .sys => 2

/-- Whether a scope names an agent on another core than the warp's (R323). -/
def wideScope (s : State) (wid : Nat) (sc : Scope) : Bool := decide (0 < reachOf s wid sc)

/-- A core's L1 is invalidated: what it may still read is what memory holds (R241). -/
def Core.refresh (c : Core) : Core := { c with old := [] }

/-- An acquire (R241, R327): at a scope that names another core, the core's L1 lines are invalidated, whoever wrote since: DEDUCED
(notes/assumptions/8). -/
def acquireAt (s : State) (wid : Nat) (sc : Scope) : State :=
  if wideScope s wid sc then
    match coreOf s wid with
    | some c => s.modCore c Core.refresh
    | none => s
  else s

/-- Whether a buffered store overlaps a range of memory. -/
def Buffered.meets (b : Buffered) (key n : Nat) : Bool :=
  match b.spot with
  | .mem k => decide (key < k + b.bytes.length ∧ k < key + n)
  | .scr _ _ => false

/-- Whether a buffered store overlaps a range of a block's scratchpad. -/
def Buffered.meetsScr (b : Buffered) (blk off n : Nat) : Bool :=
  match b.spot with
  | .mem _ => false
  | .scr x o => x == blk && decide (off < o + b.bytes.length ∧ o < off + n)

/-- Whether a buffered store keeps its place behind earlier ones that do: SCRATCH and HOST stores (R327). -/
def Buffered.ordered (b : Buffered) : Bool :=
  match b.spot with
  | .scr _ _ => true
  | .mem k => decide (2 ≤ k / 2 ^ 48)

/-- Whether two buffered stores have bytes in common. -/
def Buffered.overlaps (a b : Buffered) : Bool :=
  match b.spot with
  | .mem k => a.meets k b.bytes.length
  | .scr x o => a.meetsScr x o b.bytes.length

/-- Whether an earlier store of a buffer goes before another (R321, R322, R326, R327, R329): one to the same bytes; and, where a lane
made both, on either side of a release fence, and of SCRATCH and HOST stores those of an earlier instruction. -/
def Buffered.before (a b : Buffered) : Bool :=
  a.overlaps b || (a.lanes &&& b.lanes != 0
    && (a.bytes.isEmpty || b.bytes.isEmpty || (a.at_ != b.at_ && a.ordered && b.ordered)))

/-- The entries of a store buffer that those a test selects leave with, and the entries that stay (R322). -/
def splitBuffer (f : Buffered → Bool) (l : List Buffered) : List Buffered × List Buffered :=
  l.foldr (fun b acc => if f b || acc.1.any b.before then (b :: acc.1, acc.2) else (acc.1, b :: acc.2)) ([], [])

/-- Paths of a warp that merge make one: what any of them stored came before what the merged path will (R322). -/
def Warp.joinStores (w : Warp) (mask : Word) : Warp :=
  { w with sbuf := w.sbuf.map fun b => if b.lanes &&& mask = 0 then b else { b with lanes := b.lanes ||| mask } }

end Sys2Proof.Machine
end

