-- ==== Sys2Proof/Machine/Walk.lean ====
section
/-! DEFINITION. Translation: page table walks, TLB staleness, permissions and keys, vitrine routing (R237 to R240, R253,
R254, R258), and the device's own accesses to context areas (R488). -/

namespace Sys2Proof.Machine

/-- What an access meets: the step of R264, the cause and its subcode (R381). -/
structure Flt where
  step : Nat
  cause : Cause
  sub : Nat
  deriving DecidableEq, Repr

/-- The two causes that vector the warp to its handler (R264). -/
def Flt.handler (f : Flt) : Bool := f.cause == .firstTouch || (f.cause == .address && f.sub == 1)

/-- A leaf: its level, its entry, the memory key the entry was read from, and the non-leaf entries above it, each by its place
in the caches. -/
structure Leaf where
  level : Nat
  entry : Nat
  at_ : Option Nat
  via : List (Nat × Nat)
  deriving DecidableEq, Repr

/-- Bits of an entry (R238). -/
def Leaf.bits (l : Leaf) (lo w : Nat) : Nat := fld l.entry lo w

/-- Bytes of a page as a power of two, by level (R237). -/
def pageLog (level : Nat) : Nat := 16 + 10 * level

/-- The physical address of a virtual address under a leaf (R237, R238). -/
def Leaf.pa (l : Leaf) (va : Nat) : Nat := l.bits 16 32 * 2 ^ 16 + va % 2 ^ pageLog l.level

/-- A walk error (R239). -/
def walkError : Flt := ⟨4, .address, 2⟩

/-- Whether a valid leaf obeys R238: reserved bits, LEAF, MTYPE, FRAME alignment, VIDX, installed memory. -/
def Leaf.legal (l : Leaf) (va : Nat) : Bool :=
  l.bits 10 6 == 0 && l.bits 1 1 == 1 && decide (l.level < 3) && l.bits 4 2 != 3
    && l.bits 16 32 % 2 ^ (10 * l.level) == 0 && (l.bits 7 1 == 1 || l.bits 56 8 == 0)
    && (l.bits 4 2 != 0 || decide (l.pa va < Config.devBytes))

/-- One entry read by a walker: a single-copy atomic 8 B read (R240). -/
def readEntry (m : Mem) (a : Nat) : Except Flt Nat :=
  if Config.devBytes ≤ a then .error walkError
  else if m.poisonedIn (memKey .dev a) 8 then .error ⟨4, .poison, 0⟩
  else .ok (m.num (memKey .dev a) 8)

/-- The outcome of an entry that is not valid (R239). -/
def invalidEntry (e : Nat) : Flt := if fld e 6 1 = 1 then ⟨4, .firstTouch, 0⟩ else ⟨4, .address, 1⟩

/-- The place in the caches of the entry that an address uses at a level (R237, R240). -/
def tlbKey (level va : Nat) : Nat := level * 2 ^ 40 + va / 2 ^ pageLog level

/-- Whether a cached entry translates an address of a range (R240). -/
def tlbMeets (key lo n : Nat) : Bool :=
  let p := pageLog (key / 2 ^ 40)
  let a := key % 2 ^ 40 * 2 ^ p
  decide (a < lo + n ∧ lo < a + 2 ^ p)

/-- Equal entries, TCH aside. -/
def sameEntry (a b : Nat) : Bool := a / 2 ^ 10 == b / 2 ^ 10 && a % 2 ^ 9 == b % 2 ^ 9

/-- The entry an access uses at a level, with its memory key: the table's, or, while a changed entry has not been invalidated,
that or an old one, which the spec leaves open (R240): a free choice. -/
def usedEntry (m : Mem) (tlb : Sparse (List Nat)) (va fr level a : Nat) : Except Flt (Nat × Option Nat) :=
  let now := (readEntry m a).map fun e => (e, some (memKey .dev a))
  let old := (sget [] tlb (tlbKey level va)).filter fun t => match now with
    | .ok e => !sameEntry e.1 t
    | .error _ => true
  match old[Config.freeNat fr level % (old.length + 1)]? with
  | some t => .ok (t, none)
  | none => now

/-- A walk from a table at a level, past what TLBs and walkers have cached (R237 to R240). -/
def walkFrom (m : Mem) (tlb : Sparse (List Nat)) (va fr : Nat) : Nat → Nat → Except Flt Leaf
  | level, table =>
    match usedEntry m tlb va fr level (table + 8 * (va / 2 ^ pageLog level % 1024)) with
    | .error f => .error f
    | .ok (e, at_) =>
      if fld e 0 1 = 0 then .error (invalidEntry e)
      else if fld e 1 1 = 1 then
        let l : Leaf := ⟨level, e, at_, []⟩
        if l.legal va then .ok l else .error walkError
      else
        match level with
        | 0 => .error walkError
        | n + 1 =>
          if fld e 2 11 = 0 ∧ fld e 48 16 = 0 then
            (walkFrom m tlb va fr n (fld e 13 35 * 2 ^ 13)).map fun l => { l with via := (tlbKey (n + 1) va, e) :: l.via }
          else .error walkError

/-- The walk of a context's tables as they stand. -/
def State.walk (s : State) (ctx va : Nat) : Except Flt Leaf := walkFrom s.mem [] va 0 3 (s.cfg ctx).ptRoot.toNat

/-- The leaf an access uses (R240). -/
def State.leaf (s : State) (ctx va fr : Nat) : Except Flt Leaf :=
  walkFrom s.mem (match s.ctx ctx with | some c => c.tlb | none => []) va fr 3 (s.cfg ctx).ptRoot.toNat

/-- A place of the caches may hold an entry from now on, with those it held before (R240). -/
def addTlb (t : Sparse (List Nat)) (e : Nat × Nat) : Sparse (List Nat) :=
  let l := sget [] t e.1
  if l.any (sameEntry e.2) then t else aput e.1 (l ++ [e.2]) t

/-- TLBs and walkers may hold the entries of a translation from now on (R240). -/
def State.fillTlb (s : State) (ctx va : Nat) (l : Leaf) : State :=
  s.modCtx ctx fun c => { c with tlb := ((tlbKey l.level va, l.entry) :: l.via).foldl addTlb c.tlb }

/-- The valid entries that a walk reads, whatever it ends in: only these are cached (R240). -/
def walkSeen (m : Mem) (tlb : Sparse (List Nat)) (va fr : Nat) : Nat → Nat → List (Nat × Nat)
  | level, table =>
    match usedEntry m tlb va fr level (table + 8 * (va / 2 ^ pageLog level % 1024)) with
    | .error _ => []
    | .ok (e, at_) =>
      if fld e 0 1 = 0 then []
      else if fld e 1 1 = 1 then (if Leaf.legal ⟨level, e, at_, []⟩ va then [(tlbKey level va, e)] else [])
      else
        match level with
        | 0 => []
        | n + 1 => if fld e 2 11 = 0 ∧ fld e 48 16 = 0 then (tlbKey (n + 1) va, e) :: walkSeen m tlb va fr n (fld e 13 35 * 2 ^ 13) else []

/-- A walk whose access has no effect, or faults, fills the caches all the same (R240). -/
def State.walked (s : State) (ctx va fr : Nat) : State :=
  s.modCtx ctx fun c => { c with tlb := (walkSeen s.mem c.tlb va fr 3 c.eff.ptRoot.toNat).foldl addTlb c.tlb }

/-- The first retired access through a leaf sets TCH by an atomic OR (R238, R240). -/
def State.touch (s : State) (l : Leaf) : State :=
  match l.at_ with
  | none => s
  | some k => s.modMem fun m => m.setByte (k + 1) (m.byte (k + 1) ||| 2)

/-- Permission and key (R239, R258). `nokey` leaves the key aside, `noW` the W bit (R273). -/
def permit (ctxKey : Nat) (write : Bool) (l : Leaf) : Option Flt :=
  if write && l.bits 2 1 == 0 then some ⟨5, .permission, 0⟩
  else if l.bits 48 8 != (if l.bits 4 2 == 0 then ctxKey else 0) then some ⟨5, .permission, 2⟩
  else none

/-- A translated access: the memory key of its first byte, its leaf and the virtual address it went to after routing. -/
structure Tgt where
  key : Nat
  leaf : Leaf
  va : Nat
  deriving DecidableEq, Repr

/-- The target of a virtual address under a leaf. -/
def Leaf.tgt (l : Leaf) (va : Nat) : Tgt := ⟨l.bits 4 2 * 2 ^ 48 + l.pa va, l, va⟩

/-- Poison policy of the page (R238). -/
def Tgt.ppol (t : Tgt) : Bool := t.leaf.bits 8 1 == 1

/-- Fields of a vitrine entry (R253). -/
def Vitrine.base (v : Vitrine) : Nat := fieldOf v.fields 0 8

/-- See `Vitrine.base`. -/
def Vitrine.alt (v : Vitrine) : Nat := fieldOf v.fields 8 8

/-- See `Vitrine.base`. -/
def Vitrine.bytes (v : Vitrine) : Nat := fieldOf v.fields 16 4

/-- A vitrine entry that is not used (R253). -/
def Vitrine.unused : Vitrine :=
  { fields := List.replicate 32 0, front := false, opened := false, writer := none, seq := 0, swapped := false }

/-- An entry of a resident context's vitrine table. -/
def State.vitrine (s : State) (ctx i : Nat) : Vitrine :=
  match s.ctx ctx with
  | some c => sget Vitrine.unused c.vits i
  | none => Vitrine.unused

/-- How an access uses vitrines: it writes, it asks for the shadow, and the block it comes from (R254). -/
structure AccKind where
  write : Bool
  vs : Bool
  blk : Option Nat
  deriving DecidableEq, Repr

/-- Where an access to a vitrine page goes (R254). -/
def vitRoute (v : Vitrine) (k : AccKind) (va : Nat) : Except Flt Nat :=
  let front := if v.front then v.alt else v.base
  let shadow := if v.front then v.base else v.alt
  if v.bytes = 0 then .error ⟨6, .address, 0⟩
  else if v.base ≤ va ∧ va < v.base + v.bytes then
    let o := va - v.base
    if k.write then
      if v.opened && v.writer == k.blk && k.blk.isSome then .ok (shadow + o) else .error ⟨6, .vitrine, 0⟩
    else .ok ((if k.vs then shadow else front) + o)
  else if v.alt ≤ va ∧ va < v.alt + v.bytes then .error ⟨6, .vitrine, 0⟩
  else .error ⟨6, .address, 0⟩

/-- The leaf and routed address of an access: translation, then vitrine routing (R239, R254). The flag says that a
VITRINE outcome remains, to be raised after the permission of the page itself (R264). -/
def State.route (s : State) (ctx va fr : Nat) (k : AccKind) : Except Flt (Tgt × Option Flt) :=
  match s.leaf ctx va fr with
  | .error f => .error f
  | .ok l =>
    if l.bits 7 1 = 0 then .ok (l.tgt va, none)
    else
      match vitRoute (s.vitrine ctx (l.bits 56 8)) k va with
      | .error f => if f.step = 6 then .ok (l.tgt va, some f) else .error f
      | .ok va2 =>
        if va2 = va then .ok (l.tgt va, none)
        else match s.leaf ctx va2 (fr + 1) with
          | .error f => .error f
          | .ok l2 => .ok (l2.tgt va2, none)

/-- A data access through all the checks of steps 4 to 6 of R264. -/
def State.access (s : State) (ctx va fr : Nat) (k : AccKind) : Except Flt Tgt :=
  match s.route ctx va fr k with
  | .error f => .error f
  | .ok (t, vf) =>
    match permit (s.keyId ctx) k.write t.leaf with
    | some f => .error f
    | none =>
      match vf with
      | some f => .error f
      | none => .ok t

/-- A translated access retires: TLB entries, of the page it names and of the page it was routed to, and the TCH of the entry
it went through (R238, R240, R254). -/
def State.used (s : State) (ctx va : Nat) (t : Tgt) : State :=
  let s1 := if va = t.va then s else match s.walk ctx va with
    | .ok l => s.fillTlb ctx va l
    | .error _ => s
  (s1.fillTlb ctx t.va t.leaf).touch t.leaf

/-- Instruction fetch of one dword (R34, R239): where it is, or the trap with its subcode. -/
def State.fetchAt (s : State) (ctx va fr : Nat) : Except Flt Tgt :=
  if 2 ^ 56 ≤ va then .error ⟨4, .address, 3⟩
  else match s.leaf ctx va fr with
    | .error f => .error (if f.cause = .poison then f else ⟨4, .address, 3⟩)
    | .ok l =>
      if l.bits 3 1 = 0 then .error ⟨5, .permission, 1⟩
      else match permit (s.keyId ctx) false l with
        | some f => .error f
        | none => .ok (l.tgt va)

/-- Whether a walk of the address meets a walk error (R239). -/
def State.isWalkError (s : State) (ctx va fr : Nat) : Bool :=
  match s.leaf ctx va fr with
  | .error f => f.cause == .address && f.sub == 2
  | .ok _ => false

/-- Poison-aware bytes at a target; over a link that is down, poisoned data (R260). -/
def State.readTgt (s : State) (ctx : Nat) (t : Tgt) (n : Nat) : List Byte × Bool :=
  (s.mem.bytesUnder (s.keyId ctx) s.free t.key n, s.mem.poisonedUnder (s.keyId ctx) t.key n || linkDown s t.key)

/-- Write bytes at a target, clean or poisoned (R266, R472), from a warp and core or from neither. A store over a link that is
down is lost (R260). -/
def State.writeTgt (s : State) (who core : Option Nat) (ctx : Nat) (t : Tgt) (bs : List Byte) (p : Bool) : State :=
  if linkDown s t.key then s else s.put who core (s.keyId ctx) t.key bs p

/-- The pieces of a range that lie in one 64 KiB page each, as address and length. -/
def pieces (va n : Nat) : List (Nat × Nat) :=
  if n = 0 then []
  else (List.range ((va + n - 1) / 65536 - va / 65536 + 1)).map fun i =>
    let lo := if i = 0 then va else (va / 65536 + i) * 65536
    let hi := min (va + n) ((va / 65536 + i + 1) * 65536)
    (lo, hi - lo)

/-- A device access of its own (R488): every page must translate and permit it. -/
def State.devTargets (s : State) (ctx va n : Nat) (write : Bool) : Option (List (Tgt × Nat)) :=
  if 2 ^ 56 ≤ va then none
  else (pieces va n).foldr (fun p acc =>
    match acc, s.access ctx p.1 s.free ⟨write, false, none⟩ with
    | some l, .ok t => some ((t, p.2) :: l)
    | _, _ => none) (some [])

/-- Bytes read by the device; none when the access is skipped (R488). -/
def State.devRead (s : State) (ctx va n : Nat) : Option (List Byte) :=
  match s.devTargets ctx va n false with
  | none => none
  | some ts =>
    if ts.any fun t => s.mem.poisonedUnder (s.keyId ctx) t.1.key t.2 then none
    else some (ts.flatMap fun t => s.mem.bytesUnder (s.keyId ctx) s.free t.1.key t.2)

/-- The entries that a device read of a range goes through are touched, page by page (R238). -/
def State.devTouch (s : State) (ctx va n : Nat) : State :=
  if 2 ^ 56 ≤ va then s
  else ((pieces va n).foldl (fun s p =>
    match s.access ctx p.1 s.free ⟨false, false, none⟩ with
    | .ok t => s.touch t.leaf
    | .error _ => s) s).takeFree

/-- Put bytes at targets. -/
def putTargets (ctx : Nat) : List (Tgt × Nat) → List Byte → State → State
  | [], _, s => s
  | (t, n) :: ts, bs, s => putTargets ctx ts (bs.drop n) ((s.writeTgt none none ctx t (bs.take n) false).touch t.leaf)

/-- Bytes written by the device; none when the access is skipped (R488). -/
def State.devWrite (s : State) (ctx va : Nat) (bs : List Byte) : Option State :=
  (s.devTargets ctx va bs.length true).map fun ts => putTargets ctx ts bs s

end Sys2Proof.Machine
end

