-- ==== Sys2Proof/Machine/Trace.lean ====
section
/-! DEFINITION. Event counter numbers (R424) and trace packets (R410 to R421): the units' buffers, times and packets. -/

namespace Sys2Proof.Machine

/-- Counter 0x23, herd words issued (R424). -/
def evHerdWord : Nat := 0x23

/-- Counter 0x24, sprinter instructions retired (R424). -/
def evSprintInstr : Nat := 0x24

/-- Counter 0x25, trace packets dropped (R424). -/
def evDropped : Nat := 0x25

/-- Counter 0x26, lossless escape (R417). -/
def evEscape : Nat := 0x26

/-- Counter 0x27, trace fault or trace unavailable (R411, R414). -/
def evTraceFault : Nat := 0x27

/-- Counter 0x28, lossless request ignored (R415). -/
def evLosslessIgnored : Nat := 0x28

/-- Counter 0x40, flag saturation (R36). -/
def evFlagSat : Nat := 0x40

/-- Counter 0x41, unflagged read (R38). -/
def evUnflagged : Nat := 0x41

/-- Counter 0x42, scoreboard mismatch (R40). -/
def evMismatch : Nat := 0x42

/-- Counter 0x43, read after release (R48). -/
def evFreedRead : Nat := 0x43

/-- Counter 0x46, promotion (R155). -/
def evPromote : Nat := 0x46

/-- Counter 0x47, demotion (R155). -/
def evDemote : Nat := 0x47

/-- Counter 0x48, uniform disagreement (R163). -/
def evUniDisagree : Nat := 0x48

/-- Counter 0x49, Catalogue invalid (R18). -/
def evCatalogue : Nat := 0x49

/-- Counter 0x4A, repeated resolution (R100). -/
def evRepeatRes : Nat := 0x4A

/-- Counter 0x4B, predictor format (R103). -/
def evPredFormat : Nat := 0x4B

/-- Counter 0x4C, shape limited (R112). -/
def evShapeLimited : Nat := 0x4C

/-- Counter 0x4D, provisional eviction (R118). -/
def evEvict : Nat := 0x4D

/-- Counter 0x4E, miss-status rejection (R247). -/
def evMissReject : Nat := 0x4E

/-- Counter 0x4F, walk error (R239). -/
def evWalkError : Nat := 0x4F

/-- Counter 0x50, bank configuration (R244). -/
def evBankCfg : Nat := 0x50

/-- Counter 0x51, vitrine leak (R257). -/
def evVitLeak : Nat := 0x51

/-- Counter 0x52, engine-queue stall (R303). -/
def evQueueStall : Nat := 0x52

/-- Counter 0x53, pool format (R391). -/
def evPoolFormat : Nat := 0x53

/-- Counter 0x54, save space (R401). -/
def evSaveSpace : Nat := 0x54

/-- Counter 0x55, resource leak (R475). -/
def evLeak : Nat := 0x55

/-- Counter 0x56, N4X anomaly in `mma` (R65). -/
def evN4X : Nat := 0x56

/-- Banks in FIFO and in scratch mode that a BANK_CFG asks for; one that leaves fewer than 4 cache banks acts as its
reset value (R244). The flag says that it did. -/
def bankSplit (cfg : Word) : Nat × Nat × Bool :=
  let f := wfld cfg 8 6
  let sc := wfld cfg 0 6
  if 60 < f + sc then (2, 32, true) else (f, sc, false)

/-- Trace banks of a TRACE_CFG: 1 to 7, 0 acts as 2 (R412). -/
def traceBanks (cfg : Word) : Nat := if wfld cfg 2 3 = 0 then 2 else wfld cfg 2 3

/-- The stream of the Registrar's unit (R413). -/
def regStream : Nat := 256

/-- A trace unit before its first packet. -/
def TraceUnit.fresh : TraceUnit :=
  { buf := [], wr := 0, selected := none, time := 0, started := false, bits := [], seqNo := 0, lost := 0,
    sinceSync := 0, lossless := false, escaped := false, heldSince := none, lastDrain := 0, status := 0 }

/-- A unit of a context. -/
def State.unit (s : State) (ctx src : Nat) : TraceUnit :=
  match s.ctx ctx with
  | some c => sget TraceUnit.fresh c.units src
  | none => TraceUnit.fresh

/-- Put a unit. -/
def State.setUnit (s : State) (ctx src : Nat) (u : TraceUnit) : State :=
  s.modCtx ctx fun c => { c with units := aput src u c.units }

/-- Capacity of a unit's buffer (R411): 32 KiB a bank, none where BANK_CFG supplies too few; 64 KiB for the Registrar. -/
def unitBytes (cfg : CtxCfg) (src : Nat) : Nat :=
  if src = regStream then 65536
  else if (bankSplit cfg.bankCfg).1 < traceBanks cfg.traceCfg then 0
  else 32768 * traceBanks cfg.traceCfg

/-- A packet's header byte (R419). -/
def hdrByte (ty sub : Nat) : Byte := BitVec.ofNat 8 (ty * 16 + sub)

/-- SYNC: the PAD bytes that bring it to a multiple of 16 in the stream, then its 16 B (R419, R420). -/
def syncBytes (u : TraceUnit) (queued : Nat) (ctx src die t : Nat) : List Byte :=
  let off := u.wr + u.buf.length + queued
  let source := if src = regStream then 0x8000 else src
  List.replicate ((16 - off % 16) % 16) 0 ++ [hdrByte 1 die] ++ leBytes 6 (ptpSec t) ++ leBytes 4 (ptpNs t)
    ++ leBytes 2 source ++ leBytes 2 ctx ++ leBytes 1 u.seqNo

/-- The SYNC's time: the latest multiple of 5 ticks (R420). -/
def syncTime (t : Nat) : Nat := t / 5 * 5

/-- Emit a SYNC into a unit, room assumed. -/
def TraceUnit.sync (u : TraceUnit) (ctx src die t : Nat) : TraceUnit :=
  { u with buf := u.buf ++ syncBytes u 0 ctx src die (syncTime t), seqNo := (u.seqNo + 1) % 256, time := syncTime t,
           started := true, sinceSync := syncTime t }

/-- A LOSS and the SYNC after it (R416, R417); a decoder forgets which warp is selected (R422). -/
def TraceUnit.loss (u : TraceUnit) (ctx src die t : Nat) : TraceUnit :=
  let u1 := { u with buf := u.buf ++ hdrByte 15 0 :: leBytes 4 (min u.lost (2 ^ 32 - 1)), lost := 0, selected := none }
  u1.sync ctx src die t

/-- LOSS and SYNC once there is room for the LOSS, the PAD bytes and the SYNC (R416); after a lossless escape, once half
of the buffer is free (R417). -/
def TraceUnit.recover (u : TraceUnit) (cap ctx src die t : Nat) : TraceUnit :=
  let pad := (16 - (u.wr + u.buf.length + 5) % 16) % 16
  if u.lost = 0 ∨ cap < u.buf.length + 5 + pad + 16 ∨ u.escaped then u else u.loss ctx src die t

/-- TIME, where the time differs from the stream's (R420). -/
def timeBytes (d : Nat) : List Byte := if d = 0 then [] else [hdrByte 2 (d / 256), BitVec.ofNat 8 d]

/-- Append a packet with what must precede it: SYNC when due, WARP when the selection changes, TIME (R420, R421). -/
def TraceUnit.put (u : TraceUnit) (ctx src die t : Nat) (slot : Option (Nat × Bool)) (timed : Bool) (pkt : List Byte) :
    TraceUnit :=
  let u1 := if !u.started || decide (u.sinceSync + 4096 ≤ t) || decide (u.time + 4095 < t) then u.sync ctx src die t else u
  let u2 := match slot with
    | some (k, h) => if u1.selected = some (2 * k + h.toNat) then u1
      else { u1 with buf := u1.buf ++ [hdrByte 3 h.toNat, BitVec.ofNat 8 k], selected := some (2 * k + h.toNat) }
    | none => u1
  if timed then { u2 with buf := u2.buf ++ timeBytes (t - u2.time) ++ pkt, time := max t u2.time }
  else { u2 with buf := u2.buf ++ pkt }

/-- The BR packet of the bits held (R419, R421). -/
def brPacket (bits : List Bool) : List Byte :=
  [hdrByte 4 (bits.length - 1), BitVec.ofNat 8 ((List.range bits.length).foldl
    (fun a i => if bits[i]?.getD false then a + 2 ^ i else a) 0)]

/-- Emit the BR bits held for a warp slot, of the selection they were taken under. -/
def TraceUnit.flushSlot (u : TraceUnit) (ctx src die t k : Nat) : TraceUnit :=
  match alook k u.bits with
  | some (h, bits) => { u.put ctx src die t (some (k, h)) true (brPacket bits) with bits := adel k u.bits }
  | none => u

/-- Emit the BR bits that stand before a packet of a warp: those of the warp selected so far, when the selection changes,
and its own (R421). -/
def TraceUnit.flushBits (u : TraceUnit) (ctx src die t : Nat) (slot : Nat × Bool) : TraceUnit :=
  let u1 := match u.selected with
    | some x => if x = 2 * slot.1 + slot.2.toNat then u else u.flushSlot ctx src die t (x / 2)
    | none => u
  u1.flushSlot ctx src die t slot.1

/-- Emit every BR bit held. -/
def TraceUnit.flushAll (u : TraceUnit) (ctx src die t : Nat) : TraceUnit :=
  u.bits.foldl (fun u e => u.flushSlot ctx src die t e.1) u

/-- The die that a unit's SYNC names (R410). -/
def State.unitDie (s : State) (src : Nat) : Nat := if src = regStream then s.dev.master else dieOf src

/-- Count an event of a source: on its core, or on the Registrar's counters. -/
def countSrc (s : State) (ctx src ev : Nat) : State := if src = regStream then countR s ctx ev else count s src ev

/-- Packets that find no room are dropped and counted (R416), and the BR bits held for their warp with them. -/
def dropPackets (s : State) (ctx src n : Nat) (u : TraceUnit) (slot : Option Nat) : State :=
  let s1 := s.setUnit ctx src { u with
    lost := u.lost + n
    bits := match slot with | some k => adel k u.bits | none => u.bits }
  (List.range n).foldl (fun s _ => countSrc s ctx src evDropped) s1

/-- Append to a unit or drop: a packet with those that must precede it stands or falls as a whole (R416). The reserve of a lossless
buffer is room like any other: the hold, not the packet, keeps it for the agents that a hold does not stop. -/
def emit (s : State) (ctx src : Nat) (slot : Option (Nat × Bool)) (timed : Bool) (pkt : List Byte) : State :=
  let cap := unitBytes (s.cfg ctx) src
  if cap = 0 then s
  else
    let t := s.ptp
    let die := s.unitDie src
    let u := (s.unit ctx src).recover cap ctx src die t
    let ub := match slot with
      | some x => u.flushBits ctx src die t x
      | none => u
    let u2 := ub.put ctx src die t slot timed pkt
    if u.lost ≠ 0 ∨ cap < u2.buf.length then
      dropPackets s ctx src (1 + (match slot with | some x => ((alook x.1 u.bits).isSome).toNat | none => 0)) u (slot.map (·.1))
    else s.setUnit ctx src u2

/-- Emit every BR bit that a unit still holds. -/
def flushUnit (s : State) (ctx src : Nat) : State :=
  let u := s.unit ctx src
  let u1 := u.flushAll ctx src (s.unitDie src) s.ptp
  if u.bits.isEmpty then s
  else if u.lost ≠ 0 ∨ unitBytes (s.cfg ctx) src < u1.buf.length then dropPackets s ctx src u.bits.length { u with bits := [] } none
  else s.setUnit ctx src u1

/-- A lossless unit with fewer than 64 B free outside the reserve holds issue on its core (R416). -/
def holdCheck (s : State) (ctx core : Nat) : State :=
  let u := s.unit ctx core
  let cap := unitBytes (s.cfg ctx) core
  if u.lossless && !u.escaped && decide (cap < u.buf.length + 1024 + 64) && (s.core core).held.isNone then
    (s.modCore core fun c => { c with held := some s.dev.now }).setUnit ctx core { u with heldSince := some s.ptp }
  else s

/-- Whether some grid resident on a core has requested lossless recording, and the context permits it (R416). -/
def wantsLossless (s : State) (ctx core : Nat) : Bool :=
  wfld (s.cfg ctx).traceCfg 1 1 == 1 && s.blocks.any fun e =>
    e.2.ctx == ctx && e.2.cores.contains core && (match s.gridOf e.2 with | some g => wfld g.desc.trace 1 1 == 1 | none => false)

/-- A hold on a core ends (R416, R417): its cycles were stalled cycles. -/
def releaseHold (s : State) (core : Nat) : State :=
  match (s.core core).held with
  | none => s
  | some t => s.modCore core fun c => { c with held := none, stalled := c.stalled + (s.dev.now - t) }

/-- A core's buffer becomes lossless or lossy as grids come and go (R416). -/
def setLossless (s : State) (ctx core : Nat) : State :=
  let u := s.unit ctx core
  let want := wantsLossless s ctx core
  if u.lossless == want then s
  else
    let s1 := s.setUnit ctx core { u with lossless := want, escaped := false, heldSince := none }
    if want then s1 else releaseHold s1 core

/-- Whether a block's work is traced (R415). -/
def State.traced (s : State) (b : Block) : Bool :=
  match s.ctx b.ctx, s.gridOf b with
  | some c, some g => wfld c.eff.traceCfg 0 1 == 1 && wfld g.desc.trace 0 1 == 1 && !c.traceOff
  | _, _ => false

/-- A packet of a warp on its core, selecting it (R421). -/
def warpPacket (s : State) (wid : Nat) (pkt : List Byte) : State :=
  match s.warp wid, s.block (blkOf wid) with
  | some w, some b =>
    match w.loc with
    | some (core, slot) =>
      if s.traced b then holdCheck (emit s b.ctx core (some (slot, w.handler.isSome)) true pkt) b.ctx core else s
    | none => s
  | _, _ => s

/-- Hold one BR bit of a warp (R421): bits held under another selection are emitted first, and eight are emitted. -/
def holdBit (s : State) (ctx core slot : Nat) (h taken : Bool) : State :=
  let cap := unitBytes (s.cfg ctx) core
  let die := dieOf core
  let u := (s.unit ctx core).recover cap ctx core die s.ptp
  let u1 := match alook slot u.bits with
    | some (h2, _) => if h2 == h then u else u.flushBits ctx core die s.ptp (slot, h2)
    | none => u
  let bits := (match alook slot u1.bits with | some (_, b) => b | none => []) ++ [taken]
  let u2 := { u1 with bits := aput slot (h, bits) u1.bits }
  let u3 := if bits.length = 8 then u2.flushBits ctx core die s.ptp (slot, h) else u2
  if u3.buf.length = u.buf.length then s.setUnit ctx core u3
  else if u.lost ≠ 0 ∨ cap < u3.buf.length then dropPackets s ctx core 1 u (some slot)
  else s.setUnit ctx core u3

/-- One BR bit (R421). -/
def brBit (s : State) (wid : Nat) (taken : Bool) : State :=
  match s.warp wid, s.block (blkOf wid) with
  | some w, some b =>
    match w.loc with
    | some (core, slot) =>
      if s.traced b && unitBytes (s.cfg b.ctx) core != 0 then
        holdCheck (holdBit s b.ctx core slot w.handler.isSome taken) b.ctx core
      else s
    | none => s
  | _, _ => s

/-- DIV (R158, R421). -/
def divPacket (s : State) (wid : Nat) (lanes : Word) : State := warpPacket s wid (hdrByte 5 0 :: leBytes 4 lanes.toNat)

/-- MRG with its sub (R159, R161, R164). -/
def mrgPacket (s : State) (wid sub : Nat) (mask : Word) : State :=
  warpPacket s wid (hdrByte 6 sub :: leBytes 4 mask.toNat)

/-- EXITL (R164). -/
def exitlPacket (s : State) (wid : Nat) (lanes : Word) : State := warpPacket s wid (hdrByte 7 0 :: leBytes 4 lanes.toNat)

/-- USER with a tag and words (R419). -/
def userPacket (s : State) (wid tag : Nat) (ws : List Nat) : State :=
  warpPacket s wid (hdrByte 12 ws.length :: BitVec.ofNat 8 tag :: ws.flatMap (leBytes 4))

/-- ENG (R419): engine, ring slot, issuing warp slot, sequence; from an agent that a hold does not stop, though it may call for one
(R416). -/
def engPacket (s : State) (b : Block) (core sub engine slot wslot seq : Nat) : State :=
  if s.traced b then
    holdCheck (emit s b.ctx core none true
      ([hdrByte 9 sub, BitVec.ofNat 8 engine, BitVec.ofNat 8 slot, BitVec.ofNat 8 wslot] ++ leBytes 4 seq)) b.ctx core
  else s

/-- PROV (R120), on the Registrar's unit or on a block's last core. -/
def provPacket (s : State) (ctx gid : Nat) (src sub value : Nat) : State :=
  match s.ctx ctx, s.grid ctx gid with
  | some c, some g =>
    if wfld c.eff.traceCfg 0 1 == 1 && wfld g.desc.trace 0 1 == 1 && !c.traceOff then
      holdCheck (emit s ctx src none true (hdrByte 10 sub :: (leBytes 3 gid ++ leBytes 4 value))) ctx src
    else s
  | _, _ => s

end Sys2Proof.Machine
end

