-- ==== Sys2Proof/Machine/Access.lean ====
section
/-! DEFINITION. What a block's accesses do once they are checked: global loads and stores, provisional lines (R107, R109),
the store buffer and the L1's dirty bytes (R241, R327, R333), scratchpad windows and words (R235, R265, R266). -/

namespace Sys2Proof.Machine

/-- Whether a block is provisional now (R105). -/
def Block.isProv (b : Block) : Bool := b.prov

/-- Provisional lines that a block holds, by line number (R109). -/
def Block.lines (b : Block) : List Nat := (b.plines.map fun e => e.1 / 128).eraseDups

/-- Largest number of provisional lines of a context (R110). -/
def quotaLines (cfg : CtxCfg) : Nat := min 256 (wfld cfg.provCfg 0 9) * 8192

/-- Provisional lines the context holds. -/
def State.provLines (s : State) (ctx : Nat) : Nat :=
  (s.blocks.filter fun e => e.2.ctx == ctx).foldl (fun n e => n + e.2.lines.length) 0

/-- A deferred store into provisional lines (R107, R109). -/
def Block.defer (b : Block) (k : Nat) (bs : List Byte) (p : Bool) : Block :=
  let secs := sectors k bs.length
  { b with plines := (List.range bs.length).foldl (fun l i => aput (k + i) (bs[i]?.getD 0) l) b.plines
           ppois := if p then secs.foldl (fun l t => nins t l) b.ppois
             else b.ppois.filter fun t => !(decide (k ≤ 32 * t ∧ 32 * t + 32 ≤ k + bs.length)) }

/-- Append an error record (R474). A CLASS 0x14 record also goes to the non-volatile store. -/
def errRecord (s : State) (cls action core ctx loc grid blk : Nat) : State :=
  let bs := leBytes 1 cls ++ leBytes 1 action ++ leBytes 2 core ++ leBytes 1 ctx ++ leBytes 3 0 ++ leBytes 8 loc
    ++ leBytes 4 grid ++ leBytes 4 blk ++ leBytes 8 (timeForm s.ptp)
  s.modDev fun d => { d with errLog := aput (d.errCount % 255) bs d.errLog, errCount := d.errCount + 1,
                             nvErr := if cls = 0x14 then d.nvErr ++ [bs] else d.nvErr }

/-- A grid's first store that is lost on a link which is down is logged, and the grid becomes SUSPECT at DONE (R473,
R479): CLASS 0x13, ACTION 9. -/
def lostStore (s : State) (b : Block) (key : Nat) : State :=
  let l := (linkOf s key).getD 0xFFFF
  match s.gridOf b with
  | none => s
  | some g =>
    if g.lostOn.contains l then s
    else (errRecord s 0x13 9 l b.ctx 0 b.gid (b.idx % 2 ^ 32)).modGrid b.ctx b.gid
      fun g => { g with markSuspect := true, lostOn := nins l g.lostOn }

/-- A phase word of a ring that has taken an arrival, on any of its slots, holds an unspecified value after a plain store to it
(R252). -/
def spoilRings (s : State) (blk off n : Nat) : State :=
  match s.block blk with
  | none => s
  | some b =>
    ((scrWords off n).filter fun w => b.rings.any fun r => decide (r + 0x40 ≤ 4 * w ∧ 4 * w < r + 0x140)).foldl (fun s w =>
      (s.modBlock blk fun b => { b with scr := (List.range 4).foldl (fun m i => sput 0 m (4 * w + i) (Config.freeByte s.free i)) b.scr }).takeFree) s

/-- The words of a store to scratchpad are written, each with its poison (R266). -/
def scrLand (s : State) (who : Option Nat) (blk o : Nat) (bs : List Byte) (ps : List Bool) : State :=
  (List.range ((bs.length + 3) / 4)).foldl (fun s i =>
    scrWriteBy s who (some blk, o + 4 * i) ((bs.drop (4 * i)).take 4) (ps[i]?.getD false)) s

/-- A store reaches its coherence point: the scratchpad word, or memory; one over a link that is down is lost (R260). -/
def State.land (s : State) (b : Buffered) : State :=
  match b.spot with
  | .scr blk o => spoilRings (scrLand s (some b.wid) blk o b.bytes b.pois) blk o b.bytes.length
  | .mem k =>
    if linkDown s k then
      match s.block (blkOf b.wid) with
      | some x => lostStore s x k
      | none => s
    else
      let s1 := s.put (some b.wid) (coreOf s b.wid) b.kid k b.bytes (b.pois.any id)
      if b.reach = 0 then s1
      else { s1 with cores := s1.cores.map fun e =>
        (e.1, if some (clusterOf e.1) == (coreOf s b.wid).map clusterOf then e.2.observe k b.bytes.length (s.dev.now + 1) else e.2) }

/-- The dirty bytes that a write-back of some of a core's L1 moves: those, and what the cores of its cluster hold for the cluster to
see of the same bytes (R323); in the order they were stored in. -/
def dirtyOf (s : State) (core : Nat) (f : Buffered → Bool) : List (Nat × Buffered) :=
  let own := (s.core core).dirty.filter f
  let near := s.cores.flatMap fun e =>
    if e.1 ≠ core ∧ clusterOf e.1 = clusterOf core then
      (e.2.dirty.filter fun b => decide (0 < b.reach) && (f b || own.any b.overlaps)).map fun b => (e.1, b)
    else []
  sortBy (fun a b => decide (a.2.at_ ≤ b.2.at_)) (near ++ own.map fun b => (core, b))

/-- Whether some stores replace a whole sector by clean bytes (R472). -/
def wholeClean (l : List Buffered) (t : Nat) : Bool :=
  (l.all fun b => !b.meets (32 * t) 32 || !b.pois.any id)
    && (List.range 32).all fun i => l.any fun b => b.meets (32 * t + i) 1

/-- A sector that a write-back replaces whole by clean bytes is no longer poisoned (R472); over a link that is down nothing is
written. -/
def cleanWhole (s : State) (l : List Buffered) : State :=
  if s.mem.pois.isEmpty then s
  else s.modMem fun m => { m with pois := m.pois.filter fun t => linkDown s (32 * t) || !wholeClean l t }

/-- The dirty bytes of a core's L1 that a test selects are written back, oldest first (R241). -/
def landDirty (s : State) (core : Nat) (f : Buffered → Bool) : State :=
  let l := dirtyOf s core f
  if l.isEmpty then s
  else
    let s1 := l.foldl (fun s x => s.modCore x.1 fun c => { c with dirty := dropFirst x.2 c.dirty }) s
    cleanWhole ((l.map Prod.snd).foldl State.land s1) (l.map Prod.snd)

/-- What a release leaves to others of the stores a core holds (R241, R327): at a scope that reaches the cluster, its agents see them;
at one that reaches further, they are written back. -/
def releaseCore (s : State) (core : Nat) : Nat → State
  | 0 => s
  | 1 => s.modCore core fun c => { c with dirty := c.dirty.map fun b => { b with reach := max 1 b.reach } }
  | _ => landDirty s core fun _ => true

/-- A store leaves its warp's store buffer for the core's L1; SCRATCH and HOST stores reach their coherence point, and a release fence
releases (R329). -/
def State.enterL1 (s : State) (core : Nat) (b : Buffered) : State :=
  if b.bytes.isEmpty then releaseCore s core b.reach
  else if b.ordered then s.land b
  else s.modCore core fun c => { c with dirty := c.dirty ++ [b] }

/-- A store leaves its warp's store buffer by itself: one that every agent is to see reaches its coherence point, behind what the L1
holds of its bytes (R333). -/
def State.leaveBuffer (s : State) (core : Nat) (b : Buffered) : State :=
  match b.spot with
  | .mem k => if b.reach = 2 ∧ !b.bytes.isEmpty then (landDirty s core fun x => x.meets k b.bytes.length).land b else s.enterL1 core b
  | .scr _ _ => s.enterL1 core b

/-- Stores of a warp's buffer leave it, in order. -/
def leaveAs (s : State) (wid : Nat) (l : List Buffered) : State :=
  l.foldl (fun s b => match coreOf s wid with
    | some c => s.enterL1 c b
    | none => s.land b) s

/-- The stores of a warp that a test selects leave its store buffer (R322, R327), with those that go before them. -/
def flushSome (s : State) (wid : Nat) (f : Buffered → Bool) : State :=
  match s.warp wid with
  | none => s
  | some w =>
    let p := splitBuffer f w.sbuf
    if p.1.isEmpty then s else leaveAs (s.modWarp wid fun w => { w with sbuf := p.2 }) wid p.1

/-- The stores of some lanes of a warp leave its store buffer (R322, R327). -/
def flushLanes (s : State) (wid : Nat) (lanes : Word) : State := flushSome s wid fun b => b.lanes &&& lanes != 0

/-- A warp's store buffer empties. -/
def flushStores (s : State) (wid : Nat) : State :=
  match s.warp wid with
  | none => s
  | some w => if w.sbuf.isEmpty then s else leaveAs (s.modWarp wid fun w => { w with sbuf := [] }) wid w.sbuf

/-- The stores of the path a warp runs leave its buffer. -/
def flushPath (s : State) (wid : Nat) : State :=
  match s.warp wid with
  | some w => flushLanes s wid w.run.mask
  | none => s

/-- Whether the path that a warp runs has a buffered store that a test selects (R322). -/
def pathStores (s : State) (wid : Nat) (f : Buffered → Bool) : Bool :=
  match s.warp wid with
  | some w => w.sbuf.any fun b => b.lanes &&& w.run.mask != 0 && f b
  | none => false

/-- Accesses to one location act in order (R326): before a path's access to a range of memory, its buffered stores
leave if one meets the range, and the core's dirty bytes of the range are written back. -/
def settle (s : State) (wid key n : Nat) : State :=
  let s1 := if pathStores s wid fun b => b.meets key n then flushPath s wid else s
  match coreOf s1 wid with
  | some c => landDirty s1 c fun b => b.meets key n
  | none => s1

/-- The same before an access to a range of a scratchpad. -/
def settleScr (s : State) (wid : Nat) (p : Option Nat × Nat) (n : Nat) : State :=
  match p.1 with
  | none => s
  | some bn =>
    if pathStores s wid fun b => b.meetsScr bn p.2 n then flushPath s wid else s

/-- The same before the device acts on a range for a core: what its cluster is to see of the range is at its coherence point. -/
def settleCore (s : State) (core key n : Nat) : State := landDirty s core fun b => b.meets key n

/-- A release (R241, R327): the path's buffered stores leave, and the agents of the scope see what the core holds. -/
def releaseAt (s : State) (wid : Nat) (sc : Scope) : State :=
  let s1 := flushPath s wid
  match coreOf s1 wid with
  | some c => releaseCore s1 c (reachOf s1 wid sc)
  | none => s1

/-- A block's store at a memory key that every agent sees at once, or a provisional line while the block is provisional
(R107, R266): a deferred write takes nobody's reservation before it is exposed (R335), but for those of its own block. -/
def storeGlobal (s : State) (wid : Nat) (t : Tgt) (bs : List Byte) (p : Bool) : State :=
  match s.block (blkOf wid) with
  | some b =>
    if b.isProv then
      (s.setBlock (blkOf wid) (b.defer t.key bs p)).modWarpsOf (blkOf wid) fun w =>
        { w with resv := w.resv.filter fun r => !(decide (t.key / 64 ≤ r.2 ∧ r.2 ≤ (t.key + bs.length - 1) / 64)) }
    else if linkDown s t.key then lostStore s b t.key
    else (settle s wid t.key bs.length).put (some wid) (coreOf s wid) (s.keyId b.ctx) t.key bs p
  | none => s

/-- The bytes of a range that memory holds have been observed by an agent of a warp's block: its core reads nothing older of them
(R326). -/
def observeBy (s : State) (wid key n : Nat) : State :=
  match coreOf s wid with
  | some c => s.modCore c fun x => x.observe key n (s.dev.now + 1)
  | none => s

/-- A block's load at a target: the bytes and their poison, its own provisional lines merged (R109, R265). -/
def loadGlobal (s : State) (blk : Nat) (t : Tgt) (n : Nat) : List Byte × Bool := loadKey s blk t.key n

/-- A write to memory by the device, which every agent sees: bytes, poison and reservations. -/
def storeOpen (s : State) (ctx : Nat) (t : Tgt) (bs : List Byte) (p : Bool) : State := s.writeTgt none none ctx t bs p

/-- The lines of a store that its block holds no provisional line for (R109). -/
def newLines (b : Block) (keys : List (Nat × Nat)) : List Nat :=
  ((keys.flatMap fun k => (List.range ((k.1 + k.2 - 1) / 128 - k.1 / 128 + 1)).map (k.1 / 128 + ·)).eraseDups).filter
    fun l => !b.lines.contains l

/-- The L2 slice of a line (R242): bits of the physical address, the peer's number with it for a PEER line (R109). -/
def sliceOf (line : Nat) : Nat :=
  let pa := line * 128 % 2 ^ 48
  (fld pa 7 8) ^^^ (fld pa 15 8) ^^^ (fld pa 23 8) ^^^ (fld pa 31 8) ^^^ (fld pa 39 8) ^^^ (fld pa 47 1)

/-- The L2 set of a line: its slice, and the set in the slice, whose numbering the spec leaves open (R242). -/
def setOf (line : Nat) : Nat := sliceOf line * 1024 + Config.l2Set line % 1024

/-- Provisional lines that an L2 set holds (R109). -/
def State.setLines (s : State) (set : Nat) : Nat :=
  s.blocks.foldl (fun n e => n + (e.2.lines.filter fun l => setOf l == set).length) 0

/-- Whether a deferred store of a block finds room for the lines it needs: in the context's quota, and in their L2 sets,
of which half the 12 ways may hold provisional lines (R109 to R111, R242). -/
def quotaOk (s : State) (b : Block) (keys : List (Nat × Nat)) : Bool :=
  let need := newLines b keys
  need.isEmpty || (decide (s.provLines b.ctx + need.length ≤ quotaLines (s.cfg b.ctx))
    && need.all fun l => decide (s.setLines (setOf l) + (need.filter fun m => setOf m == setOf l).length ≤ 6))

/-- Whether deferred writes that led from one state to another took provisional lines there was no room for (R109 to R111). -/
def overQuota (s s1 : State) (bn : Nat) : Bool :=
  match s.block bn, s1.block bn with
  | some b, some b1 =>
    let need := b1.lines.filter fun l => !b.lines.contains l
    !need.isEmpty && (decide (quotaLines (s.cfg b.ctx) < s1.provLines b.ctx) || need.any fun l => decide (6 < s1.setLines (setOf l)))
  | _, _ => false

/-- Members of a block's gang by position, from the linear indices (R86, R235). -/
def gangMember (s : State) (b : Block) (m : Nat) : Option (Option Nat) :=
  match s.gridOf b with
  | none => none
  | some g =>
    let n := max 1 g.desc.gang
    let total := if wfld g.desc.flags 1 1 = 1 && g.resolved then g.te else g.desc.gx * g.desc.gy * g.desc.gz
    let i := b.idx / n * n + m
    if m < n ∧ i < total then
      some ((s.blocks.find? fun e => e.2.ctx == b.ctx && e.2.gid == b.gid && e.2.idx == i).map Prod.fst)
    else none

/-- Scratchpad bytes of a block. -/
def State.scratchBytes (s : State) (b : Block) : Nat :=
  match s.gridOf b with
  | some g => g.desc.scratch
  | none => 0

/-- Where a scratchpad address of a block leads: the block whose scratchpad it is (none for a gang member that is on no
core) and the offset; nothing where the tests of R235 fail. -/
def scrAddr (s : State) (blk a n : Nat) : Option (Option Nat × Nat) :=
  match s.block blk with
  | none => none
  | some b =>
    let o := if a / 2 ^ 31 % 2 = 0 then a % 2 ^ 31 else a % 2 ^ 27
    if s.scratchBytes b < o + n then none
    else if a / 2 ^ 31 % 2 = 0 then some (some blk, o)
    else (gangMember s b (a / 2 ^ 27 % 16)).map fun t => (t, o)

/-- A scratchpad number. -/
def scrNum (s : State) (at_ : Option Nat × Nat) (n : Nat) : Nat := leNat (scrRead s at_ n).1

/-- A stage ring's fields at a scratchpad address (R252). -/
structure Ring where
  loc : Option Nat × Nat
  nslots : Nat
  expect : Nat
  reserved : Bool
  phase : Nat
  pois : Bool
  deriving DecidableEq, Repr

/-- The ring at a scratchpad address as a slot sees it; none where its window fails R235 (R252, R354). -/
def ringAt (s : State) (blk a slot : Nat) : Option Ring :=
  match scrAddr s blk a 320 with
  | none => none
  | some p =>
    let h := scrRead s p 64
    let w := scrNum s (p.1, p.2 + 0x40 + 4 * slot) 4
    some { loc := p, nslots := fieldOf h.1 0 1, expect := fieldOf h.1 1 1,
           reserved := fieldOf h.1 2 2 != 0 || fieldOf h.1 0x0C 52 != 0 || decide (512 ≤ w),
           phase := w, pois := (scrRead s (p.1, p.2) 4).2 || (scrRead s (p.1, p.2 + 0x40 + 4 * slot) 4).2 }

/-- Whether an arrival or a `ringw` on the slot raises ADDRESS (R252, R354). -/
def Ring.bad (r : Ring) (slot : Nat) : Bool :=
  r.reserved || decide (r.nslots ≤ slot) || r.nslots == 0 || r.expect == 0

/-- The phase word after an arrival (R252): COUNT in [8:1], PH in [0]. -/
def phaseAfter (expect w : Nat) : Nat :=
  let c := (w / 2 % 256 + 1) % 256
  if c = expect then (w + 1) % 2 else c * 2 + w % 2

/-- One arrival on a slot (R252). -/
def ringArrive (s : State) (r : Ring) (slot : Nat) : State :=
  let o := r.loc.2 + 0x40 + 4 * slot
  let s1 := scrWrite s (r.loc.1, o) (leBytes 4 (phaseAfter r.expect r.phase)) r.pois
  match r.loc.1 with
  | some bn => s1.modBlock bn fun b => { b with rings := nins r.loc.2 b.rings }
  | none => s1

/-- The scope of a ring's window (R252): the block's, or the cluster's. -/
def ringScope (a : Word) : Scope := if 2 ^ 31 ≤ a.toNat then .cls else .blk

/-- An engine's arrival is a release at the scope of the ring's window, over all that its command came after (R252, R334). -/
def engineRelease (s : State) (wid core : Nat) (a : Word) : State := releaseCore s core (reachOf s wid (ringScope a))

end Sys2Proof.Machine
end

