-- ==== Sys2Proof/Machine/Copy.lean ====
section
/-! DEFINITION. The copy engine's data movement: the pieces of a command (R275, R276), how poison travels (R248), where it
stops at a fault (R251), completion and arrival (R249, R252). -/

namespace Sys2Proof.Machine

/-- A piece of a copy that lies in one 64 KiB page: its global address, none for the zeros of an index of all ones or of
a poisoned index, the scratchpad address, the length, and whether the zeros are poisoned (R276). -/
structure CpPiece where
  g : Option Nat
  sa : Nat
  n : Nat
  pois : Bool
  deriving DecidableEq, Repr

/-- A register of the command block. -/
def CopyCmd.reg (c : CopyCmd) (i : Nat) : Nat := (c.blk[i]?.getD 0).toNat

/-- GADDR or GBASE (R275). -/
def CopyCmd.gaddr (c : CopyCmd) : Nat := c.reg 0 + 2 ^ 32 * c.reg 1

/-- A range split at page boundaries. -/
def cpSplit (g sa n : Nat) : List CpPiece :=
  (pieces g n).map fun p => ⟨some p.1, (sa + (p.1 - g)) % 2 ^ 32, p.2, false⟩

/-- Pieces of a tile's row (R276). -/
def cpRow (c : CopyCmd) (r : Nat) : List CpPiece :=
  cpSplit (((c.gaddr : Int) + r * toSigned 32 (c.reg 5)) % (2 ^ 64 : Nat)).toNat ((c.reg 2 + r * c.reg 6) % 2 ^ 32) (c.reg 3)

/-- Pieces of an element of `cpx` (R276): the index is read from scratchpad. -/
def cpElem (s : State) (c : CopyCmd) (i : Nat) : List CpPiece :=
  let sa := (c.reg 2 + i * c.reg 3) % 2 ^ 32
  match scrAddr s (blkOf c.wid) ((c.reg 5 + 4 * i) % 2 ^ 32) 4 with
  | none => [⟨none, sa, c.reg 3, false⟩]
  | some p =>
    let x := scrNum s p 4
    if (scrRead s p 4).2 then [⟨none, sa, c.reg 3, true⟩]
    else if x = 0xFFFFFFFF then [⟨none, sa, c.reg 3, false⟩]
    else cpSplit ((c.gaddr + x * c.reg 3) % 2 ^ 64) sa (c.reg 3)

/-- All the pieces of a command, in order. -/
def copyPieces (s : State) (c : CopyCmd) : List CpPiece :=
  if c.op = 2 then (List.range (c.reg 4)).flatMap (cpElem s c) else (List.range (c.reg 4)).flatMap (cpRow c)

/-- Write a piece to scratchpad: bytes clean, then the words whose sector was poisoned (R248). -/
def cpToScratch (s : State) (blk sa key : Nat) (bs : List Byte) (bad : Nat → Bool) : State :=
  match scrAddr s blk sa bs.length with
  | none => s
  | some p =>
    (List.range (bs.length / 4)).foldl (fun s i =>
      if bad ((key + 4 * i) / 32) then scrWrite s (p.1, p.2 + 4 * i) ((bs.drop (4 * i)).take 4) true else s)
      (scrWrite s p bs false)

/-- Write a piece to global memory: bytes clean, then the sectors of poisoned words (R248). -/
def cpToGlobal (s : State) (wid : Nat) (t : Tgt) (src : Option Nat × Nat) (bs : List Byte) : State :=
  (List.range (bs.length / 4)).foldl (fun s i =>
    if (scrRead s (src.1, src.2 + 4 * i) 4).2 then
      storeGlobal s wid { t with key := t.key + 4 * i } ((bs.drop (4 * i)).take 4) true
    else s) (storeGlobal s wid t bs false)

/-- Move one piece. -/
def cpMove (s : State) (c : CopyCmd) (p : CpPiece) : Except Flt State :=
  let blk := blkOf c.wid
  let ctx := s.ctxNo c.wid
  match p.g with
  | none => .ok (match scrAddr s blk p.sa p.n with
    | some a => scrWrite s a (List.replicate p.n 0) p.pois
    | none => s)
  | some g =>
    if 2 ^ 56 ≤ g + p.n - 1 then .error ⟨2, .address, 0⟩
    else match s.access ctx g s.free ⟨c.op == 1, false, some blk⟩ with
      | .error f => .error f
      | .ok t =>
        let s1 := s.used ctx g t
        if c.op = 1 then
          match scrAddr s blk p.sa p.n with
          | none => .ok s1
          | some a => .ok (cpToGlobal s1 c.wid t a (scrRead s a p.n).1)
        else
          let s2 := observeBy (settle s1 c.wid t.key p.n) c.wid t.key p.n
          .ok (cpToScratch s2 blk p.sa t.key (loadGlobal s2 blk t p.n).1 fun sec =>
            match s2.block blk with
            | some b => loadPois s2 b (32 * sec) 32
            | none => false)

/-- Move pieces until a fault: the state, the pieces moved by then, and the fault with its address (R251). -/
def cpRun (c : CopyCmd) : List (CpPiece × Nat) → List Nat → State → State × List Nat × Option (Flt × Nat)
  | [], m, s => (s, m, none)
  | p :: ps, m, s =>
    match cpMove s c p.1 with
    | .error f => (s, m, some (f, p.1.g.getD 0))
    | .ok s1 => cpRun c ps (nins p.2 m) s1

/-- The pieces of a command that have yet to move, with their numbers. -/
def piecesLeft (s : State) (c : CopyCmd) : List (CpPiece × Nat) := (copyPieces s c).zipIdx.filter fun p => !c.moved.contains p.2

/-- Whether a piece of a command waits for a link that is being reset (R260). -/
def copyWaits (s : State) (c : CopyCmd) : Bool :=
  s.dev.links.any (fun e => e.2.retrain.isSome) && (piecesLeft s c).any fun p =>
    match p.1.g with
    | none => false
    | some g =>
      match s.access (s.ctxNo c.wid) g s.free ⟨c.op == 1, false, some (blkOf c.wid)⟩ with
      | .ok t => linkWaits s t.key
      | .error _ => false

/-- A started command moves one of its pieces: its writes are not one event, and not in order (R250). A piece that faults waits for
the command's own event. -/
def copyStep (s : State) (core : Nat) (sq : Word) (i : Nat) : State :=
  match (s.core core).copies.find? fun c => c.seq == sq with
  | none => s
  | some c =>
    match (piecesLeft s c)[i]? with
    | none => s
    | some p =>
      if c.started.isNone || c.faulted || copyWaits s c then s
      else match cpMove s c p.1 with
        | .error _ => s
        | .ok s1 => s1.modCore core fun k => { k with copies := k.copies.map fun x =>
            if x.seq == sq then { x with moved := nins p.2 x.moved } else x }

/-- Move what is left of a command. -/
def copyRun (s : State) (c : CopyCmd) : State × List Nat × Option (Flt × Nat) := cpRun c (piecesLeft s c) c.moved s

/-- A block's copy commands on a core. -/
def CopyCmd.ofBlock (c : CopyCmd) (blk : Nat) : Bool := blkOf c.wid == blk

/-- ENG packet of a copy command: sub 0 start, 1 end, 2 cancel (R419). -/
def copyPacket (s : State) (core sub : Nat) (c : CopyCmd) : State :=
  match s.block (blkOf c.wid) with
  | none => s
  | some b =>
    let slot := match c.ring with | some r => r.2 | none => 255
    let wslot := match s.warp c.wid with | some w => w.slot | none => 0
    engPacket s b core sub 0 slot wslot c.seq.toNat

/-- Take a command out of its warp's batches: a closed batch without commands is complete (R249). -/
def Warp.copyDone (w : Warp) (sq : Word) : Warp :=
  { w with openBatch := dropOne w.openBatch
           closed := (w.closed.map fun b => { b with cmds := dropOne b.cmds }).filter fun b => !b.cmds.isEmpty }
where
  /-- The list without the command. -/
  dropOne (l : List Word) : List Word := l.filter (· != sq)

/-- The command leaves the core's queue. -/
def dropCopy (s : State) (core : Nat) (sq : Word) : State :=
  s.modCore core fun k => { k with copies := k.copies.filter fun c => c.seq != sq }

/-- A command completes: it leaves the queue and its batch, and arrives on its ring; the flag says that the ring refuses
the arrival (R249, R252). -/
def copyFinish (s : State) (core : Nat) (c : CopyCmd) : State × Bool :=
  let s1 := copyPacket ((dropCopy s core c.seq).modWarp c.wid fun w => w.copyDone c.seq) core 1 c
  match c.ring with
  | none => (s1, false)
  | some (a, slot) =>
    match ringAt s1 (blkOf c.wid) a.toNat slot with
    | none => (s1, true)
    | some r => if r.bad slot then (s1, true) else (ringArrive (engineRelease s1 c.wid core a) r slot, false)

/-- Cancel the queued commands of a block and complete those in flight (R115, R475). A provisional block's global writes
go to its lines. -/
def stopCopies (s : State) (blk core : Nat) : State :=
  ((s.core core).copies.filter fun c => c.ofBlock blk).foldl (fun s c =>
    match c.started with
    | none => dropCopy (copyPacket s core 2 c) core c.seq
    | some _ => (copyFinish (copyRun s c).1 core c).1) s

end Sys2Proof.Machine
end

