-- ==== Sys2Proof/Machine/Frontier.lean ====
section
/-! DEFINITION. Thread frontiers (R157 to R164): advancing, branching, merging, switching, the frontier annex, leaving
lanes. A function that meets an unmapped annex slot gives its address, for FRONTIER_REFILL (R162). -/

namespace Sys2Proof.Machine

/-- A warp leaves the word it was to pass the breakpoint of (R427). -/
def Warp.passed (w : Warp) : Warp := { w with bpSkip := w.bpSkip.filter (· != w.run.pc) }

/-- The running path moves to the next word, or past the clause's end to a header (R34); a clause with YIELD makes the warp
the one that issued last (R35). -/
def Warp.advance (w0 : Warp) : Warp :=
  let w := w0.passed
  let next := w.run.pc + 8
  match w.clause with
  | some cl =>
    if w.run.widx < cl.hdr.len.val then { w with run := { w.run with pc := next, widx := w.run.widx + 1 }, rpt := none }
    else { w with run := { w.run with pc := next, widx := 0 }, clause := none, rpt := none,
                  sched := { w.sched with port := none, yielded := cl.hdr.yieldHint } }
  | none => { w with run := { w.run with pc := next, widx := w.run.widx + 1 }, rpt := none }

/-- The warp moves to the next word. -/
def advance (s : State) (wid : Nat) : State := s.modWarp wid Warp.advance

/-- An entry's age (R157). -/
def ageOf (dseq : Word) (p : Path) : Nat := (dseq - p.age).toNat

/-- Whether an entry comes before another by PC, ties to the oldest (R159). -/
def lowerThan (dseq : Word) (a b : Path) : Bool :=
  decide (a.pc.toNat < b.pc.toNat) || (a.pc == b.pc && decide (ageOf dseq b < ageOf dseq a))

/-- Whether an entry comes before another by age, ties to the lowest PC (R161). -/
def olderThan (dseq : Word) (a b : Path) : Bool :=
  decide (ageOf dseq b < ageOf dseq a) || (ageOf dseq a == ageOf dseq b && decide (a.pc.toNat < b.pc.toNat))

/-- The first entry of a list under an order. -/
def bestBy (lt : Path → Path → Bool) : List Waiter → Option Waiter
  | [] => none
  | e :: l =>
    match bestBy lt l with
    | none => some e
    | some b => if lt b.path e.path then some b else some e

/-- The 32 B of a waiting entry (R157): 56 bits of PC. -/
def Path.bytes (p : Path) : List Byte :=
  leBytes 8 (p.pc.toNat % 2 ^ 56) ++ leBytes 4 p.mask.toNat ++ leBytes 4 (p.widx % 256) ++ leBytes 4 p.fmt.toNat
    ++ leBytes 4 p.mfmt.toNat ++ leBytes 4 p.age.toNat ++ leBytes 4 0

/-- The entry that 32 B of the annex hold (R157); what `%fmt` reserves reads 0 (R6, R67). -/
def pathOf (bs : List Byte) : Path :=
  { pc := BitVec.ofNat 64 (fieldOf bs 0 7), mask := BitVec.ofNat 32 (fieldOf bs 8 4), widx := fieldOf bs 0x0C 1 % 16,
    fmt := BitVec.ofNat 32 (fieldOf bs 0x10 2), mfmt := BitVec.ofNat 32 (fieldOf bs 0x14 2),
    age := BitVec.ofNat 32 (fieldOf bs 0x18 4) }

/-- The annex address of a slot of a warp (R162). -/
def annexAddr (cfg : CtxCfg) (core slot i : Nat) : Nat := cfg.frontBase.toNat + ((core * 128 + slot) * 24 + i) * 32

/-- All entries of a warp that take annex slots: those of the handler and the frozen ones (R389). -/
def Warp.entries (w : Warp) : List Waiter :=
  match w.handler with
  | some h => w.waiting ++ h.frozen
  | none => w.waiting

/-- The lowest free annex slot of a warp. -/
def freeAnnex (w : Warp) : Nat :=
  ((List.range 24).find? fun i => !(w.entries.any fun e => e.annex == some i)).getD 0

/-- Spill the oldest table entries until 8 are left in the table (R162). -/
def spillEntries (fuel : Nat) (s : State) (wid : Nat) : Except Nat State :=
  match fuel with
  | 0 => .ok s
  | n + 1 =>
    match s.warp wid with
    | none => .ok s
    | some w =>
      let table := w.waiting.filter fun e => e.annex.isNone
      if table.length ≤ 8 then .ok s
      else
        match bestBy (olderThan w.dseq) table with
        | none => .ok s
        | some e =>
          let i := freeAnnex w
          let a := annexAddr (s.cfg (s.ctxNo wid)) w.core w.slot i
          match s.devWrite (s.ctxNo wid) a e.path.bytes with
          | none => .error a
          | some s1 =>
            spillEntries n (s1.setWarp wid { w with waiting := ⟨e.path, some i⟩ :: dropFirst e w.waiting }) wid

/-- A spilled entry read back from its annex slot (R162); one whose sector is poisoned comes back as it was spilled:
DEDUCED (notes/assumptions/22). -/
def readBack (s : State) (ctx a : Nat) (e : Waiter) : Waiter :=
  match s.devRead ctx a 32 with
  | some bs => ⟨pathOf bs, none⟩
  | none => ⟨e.path, none⟩

/-- Bring spilled entries that a decision concerns back into the table (R162). -/
def refillEntries (s : State) (wid : Nat) (part : Path → Bool) : Except Nat State :=
  match s.warp wid with
  | none => .ok s
  | some w =>
    let at_ := fun (i : Nat) => annexAddr (s.cfg (s.ctxNo wid)) w.core w.slot i
    let due := w.waiting.filterMap fun e => if part e.path then e.annex else none
    match due.find? fun i => (s.devTargets (s.ctxNo wid) (at_ i) 32 false).isNone with
    | some i => .error (at_ i)
    | none => .ok (due.foldl (fun s i => s.devTouch (s.ctxNo wid) (at_ i) 32) (s.setWarp wid { w with
        waiting := w.waiting.map fun e =>
          match e.annex with
          | some i => if part e.path then readBack s (s.ctxNo wid) (at_ i) e else e
          | none => e }))

/-- The refill that reaching a header calls for: of entries at or below its PC, while one is spilled (R162). -/
def refillAt (s : State) (wid : Nat) (pc : DWord) : Except Nat State := refillEntries s wid fun p => decide (p.pc.toNat ≤ pc.toNat)

/-- Restart of the fairness timer at a merge or a switch (R161). -/
def Warp.restartFair (w : Warp) (now : Nat) : Warp :=
  { w with sched := { w.sched with fairStart := if w.waiting.isEmpty then none else some now, deferSince := none } }

/-- Another path runs: the clause a warp holds is of use only to the path that was running. -/
def Warp.become (w : Warp) (p : Path) : Warp :=
  { w with run := p, clause := if p.pc = w.run.pc ∧ p.widx = w.run.widx then w.clause else none
           sched := { w.sched with fairRun := false, port := none } }

/-- Merge at a header whose FCHK is 1 (R159, R160). -/
def mergeStep (s : State) (wid : Nat) : Except Nat State :=
  match s.warp wid with
  | none => .ok s
  | some w0 =>
    if w0.waiting.any fun e => e.path.pc == w0.run.pc then
      match refillEntries s wid fun p => p.pc == w0.run.pc with
      | .error a => .error a
      | .ok s1 =>
        match s1.warp wid with
        | none => .ok s1
        | some w =>
          let eq := w.waiting.filter fun e => e.path.pc == w.run.pc
          let old := eq.foldl (fun (b : Path) e => if decide (ageOf w.dseq b < ageOf w.dseq e.path) then e.path else b) w.run
          let mask := eq.foldl (fun m e => m ||| e.path.mask) w.run.mask
          let run := { w.run with mask := mask, mfmt := old.mfmt, age := old.age, fmt := old.mfmt }
          let w1 := ({ w with run := run, waiting := w.waiting.filter fun e => e.path.pc != w.run.pc } : Warp).joinStores mask
          .ok (mrgPacket (s1.setWarp wid (w1.restartFair (s.nonStalled w.core))) wid 0 mask)
    else .ok s

/-- Switch to the lowest waiting entry when one is below the running path (R159). -/
def switchStep (s : State) (wid : Nat) : Except Nat State :=
  match s.warp wid with
  | none => .ok s
  | some w0 =>
    if w0.waiting.any fun e => decide (e.path.pc.toNat < w0.run.pc.toNat) then
      match refillEntries s wid fun p => decide (p.pc.toNat < w0.run.pc.toNat) with
      | .error a => .error a
      | .ok s1 =>
        match s1.warp wid with
        | none => .ok s1
        | some w =>
          match bestBy (lowerThan w.dseq) w.waiting with
          | none => .ok s1
          | some e =>
            let w1 := { w with waiting := dropFirst e w.waiting ++ [(⟨w.run, none⟩ : Waiter)] }
            spillEntries 32 (mrgPacket (s1.setWarp wid ((w1.become e.path).restartFair (s.nonStalled w.core))) wid 1
              e.path.mask) wid
    else .ok s

/-- The fairness switch (R161). -/
def fairStep (s : State) (wid : Nat) : Except Nat State :=
  match refillEntries s wid fun _ => true with
  | .error a => .error a
  | .ok s1 =>
    match s1.warp wid with
    | none => .ok s1
    | some w =>
      match bestBy (olderThan w.dseq) w.waiting with
      | none => .ok s1
      | some e =>
        let w1 := { w with waiting := dropFirst e w.waiting ++ [(⟨w.run, none⟩ : Waiter)], resv := [] }
        let w2 := (w1.become e.path).restartFair (s.nonStalled w.core)
        let w3 := { w2 with sched := { w2.sched with fairRun := e.path.widx == 0 } }
        spillEntries 32 (mrgPacket (s1.setWarp wid w3) wid 2 e.path.mask) wid

/-- The header at an address as a fetch would read it now, without any effect. -/
def peekHeader (s : State) (ctx : Nat) (pc : DWord) : Option Header :=
  match s.fetchAt ctx pc.toNat s.free with
  | .error _ => none
  | .ok t =>
    match decodeHeader (BitVec.ofNat 64 (s.mem.num t.key 8)) with
    | .ok h => some h
    | .error _ => none

/-- Merge and switch after a branch or at a header (R158, R159). -/
def mergeSwitch (s : State) (wid : Nat) : Except Nat State :=
  match s.warp wid with
  | none => .ok s
  | some w =>
    if w.waiting.isEmpty then .ok s
    else
      let fchk := w.run.widx == 0 && match peekHeader s (s.ctxNo wid) w.run.pc with
        | some h => h.fchk
        | none => false
      match if fchk then mergeStep s wid else .ok s with
      | .error a => .error a
      | .ok s1 => switchStep s1 wid

/-- A group of lanes with the place they go to (R158). -/
structure Group where
  pc : DWord
  widx : Nat
  mask : Word
  deriving DecidableEq, Repr

/-- Insert a group in ascending PC order, joining one with the same PC. -/
def insGroup (g : Group) : List Group → List Group
  | [] => [g]
  | h :: l =>
    if g.pc = h.pc then { h with mask := h.mask ||| g.mask } :: l
    else if g.pc.toNat < h.pc.toNat then g :: h :: l else h :: insGroup g l

/-- Groups in ascending PC order, empty ones left out. -/
def groupsOf (gs : List Group) : List Group :=
  (gs.filter fun g => g.mask != 0).foldl (fun l g => insGroup g l) []

/-- The effect of a branch on the paths, before merge and switch (R158). -/
def Warp.split (w0 : Warp) (gs : List Group) : Warp :=
  let w := w0.passed
  match gs with
  | [] => w
  | g :: rest =>
    let seq := w.run.pc + 8
    if rest.isEmpty then
      { w with run := { w.run with pc := g.pc, widx := g.widx, mask := g.mask }
               clause := if g.pc = seq ∧ g.widx ≠ 0 then w.clause else none, rpt := none }
    else
      let d := w.dseq + 1
      let mk := fun (g : Group) => (⟨⟨g.pc, g.widx, g.mask, w.run.fmt, w.run.fmt, d⟩, none⟩ : Waiter)
      { w with run := { w.run with pc := g.pc, widx := g.widx, mask := g.mask, mfmt := w.run.fmt, age := d }
               clause := if g.pc = seq ∧ g.widx ≠ 0 then w.clause else none
               waiting := w.waiting ++ rest.map mk, dseq := d, rpt := none }

/-- A branch, call or return of the running path (R158): groups, packets, spills, merge and switch. A path that goes on at the
next word of its clause keeps its port (R140); a merge or switch that an unmapped annex slot holds up waits for the path's next
instruction (R162). -/
def branchTo (s : State) (wid : Nat) (gs : List Group) (packet : State → State) : Except Nat State :=
  match s.warp wid with
  | none => .ok s
  | some w =>
    let g := groupsOf gs
    let w1 := w.split g
    let w2 := if g.length ≤ 1 then w1
      else { w1 with sched := { w1.sched with fairStart := w1.sched.fairStart.orElse fun _ => some (s.nonStalled w.core) } }
    let on := w1.clause.isSome
    let hint := !on && match w.clause with | some cl => cl.hdr.yieldHint | none => false
    let w3 := { w2 with sched := { w2.sched with port := if on then w2.sched.port else none, yielded := hint } }
    match spillEntries 32 (packet (s.setWarp wid w3)) wid with
    | .error a => .error a
    | .ok s1 =>
      match mergeSwitch s1 wid with
      | .ok s2 => .ok s2
      | .error _ => .ok (s1.modWarp wid fun w => { w with sched := { w.sched with frontDue := true } })

/-- Lanes leave the running path and every waiting entry (R164); the next path where the running one is left empty, which has no port
yet (R140). -/
def leaveLanes (s : State) (wid : Nat) (lanes : Word) : Except Nat State :=
  match s.warp wid with
  | none => .ok s
  | some w =>
    let cut := fun (p : Path) => { p with mask := p.mask &&& ~~~lanes }
    let waiting := (w.waiting.map fun e => (⟨cut e.path, e.annex⟩ : Waiter)).filter fun e => e.path.mask != 0
    let resv := w.resv.filter fun e => !lanes.getLsbD e.1
    let w1 := { w with run := cut w.run, waiting := waiting, resv := resv }
    if w1.run.mask ≠ 0 ∨ waiting.isEmpty then .ok (s.setWarp wid w1)
    else
      match refillEntries (s.setWarp wid w1) wid fun _ => true with
      | .error a => .error a
      | .ok s1 =>
        match s1.warp wid with
        | none => .ok s1
        | some w2 =>
          match bestBy (lowerThan w2.dseq) w2.waiting with
          | none => .ok s1
          | some e =>
            let w3 := { w2 with waiting := dropFirst e w2.waiting, run := e.path, clause := none, rpt := none
                                sched := { w2.sched with port := none } }
            spillEntries 32 (mrgPacket (s1.setWarp wid (w3.restartFair (s.nonStalled w.core))) wid 3 e.path.mask) wid

end Sys2Proof.Machine
end

