-- ==== Sys2Proof/Machine/Records.lean ====
section
/-! DEFINITION. What the device writes down about its work: error records (R474, R488), completion records and grid statuses
(R90, R91, R463, R467), locks handed on (R357, R358), vitrines dropped (R257), barriers as warps exit (R351). -/

namespace Sys2Proof.Machine

/-- A device access to a context area that is skipped (R488): one record of CLASS 0x15 and ACTION 11, and a host event. -/
def skipAccess (s : State) (ctx va : Nat) : State :=
  hostEvent (errRecord s 0x15 11 0xFFFF ctx va 0xFFFFFFFF 0xFFFFFFFF) (.skipped ctx va)

/-- A device write that is skipped where it is not possible (R488). -/
def State.devPut (s : State) (ctx va : Nat) (bs : List Byte) : State :=
  match s.devWrite ctx va bs with
  | some s1 => s1
  | none => skipAccess s ctx va

/-- Codes of STATUS (R90). -/
def Status.code : Status → Nat
  | .pending => 0
  | .running => 1
  | .done => 2
  | .vouched => 3
  | .suspect => 4
  | .killed => 5
  | .failed => 6

/-- The 32 B of a completion record (R90). -/
def Grid.recordBytes (g : Grid) : List Byte :=
  leBytes 1 g.status.code ++ leBytes 1 (min 255 g.relaunches) ++ leBytes 2 g.failcode
    ++ leBytes 4 (min g.run (2 ^ 32 - 1)) ++ leBytes 4 g.trimmed ++ leBytes 4 g.tail ++ leBytes 8 g.start ++ leBytes 8 g.fin

/-- Write a grid's completion record (R90). -/
def writeRecord (s : State) (ctx gid : Nat) : State :=
  match s.grid ctx gid with
  | none => s
  | some g => s.devPut ctx g.desc.completion.toNat g.recordBytes

/-- Change a grid and write its record. -/
def setGrid (s : State) (ctx gid : Nat) (f : Grid → Grid) : State := writeRecord (s.modGrid ctx gid f) ctx gid

/-- Whether a grid has reached one of its final statuses for those who wait (R91). -/
def Status.finished : Status → Bool
  | .pending | .running => false
  | _ => true

/-- Whether a grid is live: its identifier is not given to another (R193). -/
def Status.live : Status → Bool
  | .pending | .running | .done => true
  | _ => false

/-- A finished child no longer holds its parent block back (R94). -/
def childDone (s : State) (ctx gid : Nat) : State :=
  match s.grid ctx gid with
  | none => s
  | some g =>
    match g.parent with
    | none => s
    | some b => s.modBlock b fun x => { x with children := x.children.filter (· != (0, gid)) }

/-- DONE becomes VOUCHED when every core that ran the grid has since passed a scan (R467), or SUSPECT where the grid is
marked (R468). -/
def vouchCheck (s : State) (ctx gid : Nat) : State :=
  match s.grid ctx gid with
  | none => s
  | some g =>
    if g.status != .done then s
    else if g.markSuspect then setGrid s ctx gid fun g => { g with status := .suspect }
    else if g.used.isEmpty then setGrid s ctx gid fun g => { g with status := .vouched }
    else s

/-- Live blocks of a grid: those with a Registrar record. -/
def liveBlocks (s : State) (ctx gid : Nat) : List (Nat × Block) :=
  s.blocks.filter fun e => e.2.ctx == ctx && e.2.gid == gid

/-- Whether every block of a grid has retired and none is to come (R91, R116). -/
def gridOver (s : State) (ctx gid : Nat) (g : Grid) : Bool :=
  g.resolved && decide (g.last ≤ g.next) && g.joining.isEmpty && g.limbo.isEmpty && (liveBlocks s ctx gid).isEmpty

/-- A grid whose work is over becomes DONE, or KILLED where a gang of it was killed (R91, R463). -/
def gridCheck (s : State) (ctx gid : Nat) : State :=
  match s.grid ctx gid with
  | none => s
  | some g =>
    if (g.status == .pending || g.status == .running) && gridOver s ctx gid g then
      let st := if g.wasKilled then Status.killed else Status.done
      let s1 := setGrid s ctx gid fun g => { g with status := st, fin := timeForm s.ptp }
      vouchCheck (childDone s1 ctx gid) ctx gid
    else s

/-- Whether a block is a matrix block (R123). -/
def isMatrixBlock (s : State) (b : Block) : Bool :=
  match s.gridOf b with
  | some g => g.desc.counts[1]?.getD 0 != 0
  | none => false

/-- Cores that count as having run a block: its own, and the follower of a matrix block's pair (R467). -/
def coresRun (s : State) (b : Block) : List Nat :=
  if isMatrixBlock s b then b.cores.flatMap fun c => [c, c + 1] else b.cores

/-- An empty matrix state (R246, R293). -/
def MatState.empty : MatState := { acc := [], latch := [], scale := [], epCfg := [], actTab := [], dyn := 0, grans := [] }

/-- ENG packet of a matrix (`eng` 1) or epilogue (2) command: sub 0 start, 1 end, 2 cancel (R419). -/
def matPacket (s : State) (leader sub eng : Nat) (c : MatCmd) : State :=
  match s.block (blkOf c.wid) with
  | none => s
  | some b =>
    let slot := match c.ring with | some r => r.2 | none => 255
    let wslot := match s.warp c.wid with | some w => w.slot | none => 0
    engPacket s b leader sub eng slot wslot c.id

/-- A block's commands in a pair's queues are discarded, without ring arrivals (R307). -/
def dropMatrix (s : State) (bn leader : Nat) : State :=
  let p := s.pair leader
  let s1 := (p.mq.filter fun m => blkOf m.wid == bn).foldl (fun s c => matPacket s leader 2 1 c) s
  let s2 := (p.eq.filter fun m => blkOf m.wid == bn).foldl (fun s c => matPacket s leader 2 2 c) s1
  s2.modPair leader fun p =>
    { p with mq := p.mq.filter fun m => blkOf m.wid != bn, eq := p.eq.filter fun m => blkOf m.wid != bn }

/-- Add a core that frees resources at a time to a list of such, in the order they freed them in, at the same moment by `%coreid`
(R135). -/
def addFreed (now : Nat) (l : List (Nat × Nat)) (c : Nat) : List (Nat × Nat) :=
  if l.any fun y => y.2 == c then l
  else insBy (fun a b => decide (a.1 < b.1) || (a.1 == b.1 && decide (a.2 ≤ b.2))) (now, c) l

/-- Cores have freed resources that every context's waiting grids may use (R135). -/
def freeCores (s : State) (cs : List Nat) : State :=
  { s with ctxs := s.ctxs.map fun e => (e.1, { e.2 with freedCores := cs.foldl (addFreed s.dev.now) e.2.freedCores }) }

/-- A block's stores reach their coherence point: those its warps have buffered, and the dirty bytes of its cores (R241). -/
def drainBlock (s : State) (bn : Nat) : State :=
  match s.block bn with
  | none => s
  | some b =>
    let s1 := ((s.warpsOf bn).map Prod.fst).foldl flushStores s
    b.cores.foldl (fun s c => landDirty s c fun _ => true) s1

/-- What a core keeps of warps and of a block that leave it: no scoreboard run (R40), no promotion under way, no scratchpad
granule (R132). -/
def Core.vacate (c : Core) (bn : Nat) (slots wids : List Nat) : Core :=
  { c with mismatches := c.mismatches.filter fun e => !slots.contains e.1
           granMap := c.granMap.filter fun e => e.2.1 != bn
           promoting := match c.promoting with | some x => if wids.contains x then none else some x | none => none }

/-- A block leaves its cores: warps, scratchpad, granules and matrix engine are freed and cleared (R94, R133, R246); its
cores are marked as having run the grid (R467). -/
def leaveCores (s0 : State) (bn : Nat) : State :=
  let s := drainBlock s0 bn
  match s.block bn with
  | none => s
  | some b =>
    let used := coresRun s b
    let ws := s.warpsOf bn
    let s := { s with cores := s.cores.map fun e =>
      (e.1, e.2.vacate bn (ws.filterMap fun w => if w.2.core = e.1 ∧ w.2.loc.isSome then some w.2.slot else none) (ws.map Prod.fst)) }
    let s1 := if isMatrixBlock s b then
        b.cores.foldl (fun s c => (dropMatrix s bn c).modPair c fun p =>
          { p with owner := if p.owner = some bn then none else p.owner, clearing := p.clearing ++ b.mat.grans }) s
      else s
    let s2 := s1.modGrid b.ctx b.gid fun g => { g with used := used.foldl (fun u c => aput c s.dev.now u) g.used }
    let s3 := { s2 with warps := s2.warps.filter fun e => blkOf e.1 != bn }
    let s4 := s3.modBlock bn fun b =>
      { b with cores := [], scr := [], scrPois := [], mat := MatState.empty, rings := [], lastCore := b.cores.getLast?.getD b.lastCore }
    freeCores (b.cores.foldl (fun s c => setLossless s b.ctx c) s4) used

/-- Memory keys of the 64 KiB pages that back a virtual range. -/
def pageKeys (s : State) (ctx va n : Nat) : List Nat :=
  (List.range (n / 65536)).filterMap fun i =>
    match s.walk ctx (va + 65536 * i) with
    | .ok l => some (l.tgt (va + 65536 * i)).key
    | .error _ => none

/-- Whether a memory key lies in one of some pages. -/
def inPages (ks : List Nat) (k : Nat) : Bool := ks.any fun p => decide (p ≤ k ∧ k < p + 65536)

/-- Whether a buffered store goes to one of some pages. -/
def Buffered.inPages (b : Buffered) (ks : List Nat) : Bool :=
  match b.spot with
  | .mem k => Machine.inPages ks k
  | .scr _ _ => false

/-- Stores to some pages that have not reached memory never do, and no core reads those pages from before. -/
def dropStores (s : State) (ks : List Nat) : State :=
  { s with cores := s.cores.map fun e =>
             (e.1, { e.2 with dirty := e.2.dirty.filter fun b => !b.inPages ks
                              old := e.2.old.filter fun x => !inPages ks x.1 })
           warps := s.warps.map fun e => (e.1, { e.2 with sbuf := e.2.sbuf.filter fun b => !b.inPages ks }) }

/-- Drop a vitrine: closed without a swap; its shadow is unspecified, and shadow writes its writer had deferred never
happen (R255, R337). -/
def dropVitrine (s : State) (ctx i : Nat) : State :=
  let v := s.vitrine ctx i
  let ks := pageKeys s ctx (if v.front then v.base else v.alt) v.bytes
  let s1 := ((dropStores s ks).modMem fun m => m.forget (ks.map fun k => (k / 32, 2048))).modCtx ctx fun c =>
    { c with vits := amod i (fun v => { v with opened := false, writer := none }) c.vits }
  match v.writer with
  | some bn => s1.modBlock bn fun b =>
      { b with plines := b.plines.filter fun e => !inPages ks e.1, ppois := b.ppois.filter fun t => !inPages ks (32 * t) }
  | none => s1

/-- Vitrines a block holds open. -/
def openVits (s : State) (ctx bn : Nat) : List Nat :=
  match s.ctx ctx with
  | some c => (c.vits.filter fun e => e.2.opened && e.2.writer == some bn).map Prod.fst
  | none => []

/-- Drop all the vitrines of a block; leaks are counted, except by trimming (R115, R257). -/
def dropVitrines (s : State) (ctx bn core : Nat) (leak : Bool) : State :=
  (openVits s ctx bn).foldl (fun s i => let s1 := dropVitrine s ctx i; if leak then count s1 core evVitLeak else s1) s

/-- The lock word with an identity (R355). -/
def lockWord (ctx gid idx : Nat) (waiters : Bool) : Nat :=
  idx % 2 ^ 31 * 2 ^ 33 + gid * 2 ^ 9 + ctx * 2 ^ 3 + waiters.toNat * 4 + 1

/-- Warps waiting on a lock, with the number their wait began at. -/
def lockWaiters (s : State) (key : Nat) : List (Nat × Nat × Bool) :=
  s.warps.filterMap fun e =>
    match e.2.wait with
    | some (.lkacq k _ _ since) => if k = key then some (e.1, since, e.2.loc.isSome) else none
    | _ => none

/-- The earliest of some waiters. -/
def earliest : List (Nat × Nat × Bool) → Option (Nat × Nat × Bool)
  | [] => none
  | x :: l =>
    match earliest l with
    | none => some x
    | some y => if y.2.1 < x.2.1 then some y else some x

/-- A waiting instruction completes: its uniform destination is written and the warp moves on. -/
def finishWait (s : State) (wid : Nat) (d : Opd) (x : Nat) : State :=
  s.modWarp wid fun w => { (w.dput .b32 d 1 fun _ => ⟨x, false⟩) with wait := none }.advance

/-- Write an 8 B word of a context's memory that every agent sees (lock words). -/
def putWord8 (s : State) (ctx key x : Nat) : State := s.put none none (s.keyId ctx) key (leBytes 8 x) false

/-- Whether a block may take another lock: it holds fewer than 16 (R355). -/
def lockRoom (s : State) (bn : Nat) : Bool := match s.block bn with | some b => decide (b.locks.length < 16) | none => true

/-- Hand a lock on to the resident waiter that began earliest, or free it (R357, R358). A waiter whose block holds 16 locks stays
waiting (R355). -/
def releaseLock (s : State) (bn key : Nat) (abandoned : Bool) : State :=
  let ctx := match s.block bn with | some b => b.ctx | none => 0
  let s0 := (s.modBlock bn fun b => { b with locks := b.locks.filter (· != key) }).modWarpsOf bn fun w =>
    { w with sched := { w.sched with lockCls := w.sched.lockCls.filter (· != key) } }
  let ws := (lockWaiters s0 key).filter fun x => blkOf x.1 != bn || !abandoned
  match earliest (ws.filter fun x => x.2.2 && lockRoom s0 (blkOf x.1)) with
  | some (wid, _, _) =>
    match s0.block (blkOf wid) with
    | none => putWord8 s0 ctx key (if ws.isEmpty then 0 else 4)
    | some b =>
      let s1 := putWord8 s0 ctx key (lockWord b.ctx b.gid b.idx (decide (1 < ws.length)))
      let s2 := s1.setBlock (blkOf wid) { b with locks := nins key b.locks }
      let d := match s2.warp wid with
        | some w => (match w.wait with | some (.lkacq _ _ d _) => d | _ => Opd.zero)
        | none => Opd.zero
      (acquireAt (finishWait s2 wid d (if abandoned then 2 else 0)) wid .dev).modWarp wid
        fun w => { w with sched := { w.sched with lockCls := nins key w.sched.lockCls } }
  | none => putWord8 s0 ctx key ((if ws.isEmpty then 0 else 4) + (if abandoned then 2 else 0))

/-- The locks of a block that exits or is killed are released as abandoned, a release at `.dev` (R357, R358). -/
def abandonLocks (s : State) (bn : Nat) : State :=
  match s.block bn with
  | none => s
  | some b => if b.locks.isEmpty then s else b.locks.foldl (fun s k => releaseLock s bn k true) (drainBlock s bn)

/-- A barrier phase completes when its arrivals and the block's exited warps reach the expected count (R351). -/
def Barrier.settle (br : Barrier) (exited : List Nat) : Barrier :=
  match br.expect with
  | none => br
  | some n =>
    if n ≤ (exited.foldl (fun l x => nins x l) br.arrived).length ∧ !br.broken then
      { br with phase := br.phase + 1, arrived := [], expect := none }
    else br

/-- A fresh barrier (R351). -/
def Barrier.fresh : Barrier := { phase := 0, arrived := [], expect := none, broken := false }

/-- Barriers of a block when the set of exited warps changes. -/
def settleBarriers (s : State) (bn : Nat) : State :=
  s.modBlock bn fun b => { b with bars := b.bars.map fun e => (e.1, e.2.settle b.exited) }

/-- Blocks of a cooperative grid that have arrived: every non-exited warp has executed `gbar` in the phase (R352). -/
def blockArrived (s : State) (g : Grid) (bn : Nat) : Bool :=
  (s.warpsOf bn).all fun e => e.2.alive == 0 || g.gbarArrived.contains e.1

/-- The grid barrier's phase completes when every block has arrived or retired (R352). -/
def settleGbar (s : State) (ctx gid : Nat) : State :=
  match s.grid ctx gid with
  | none => s
  | some g =>
    if !g.gbarArrived.isEmpty && !g.gbarBroken && g.joining.isEmpty && decide (g.last ≤ g.next)
        && (liveBlocks s ctx gid).all fun e => blockArrived s g e.1 then
      s.modGrid ctx gid fun g => { g with gbarPhase := g.gbarPhase + 1, gbarArrived := [] }
    else s

/-- Warps of a block that have not exited (R164). -/
def aliveWarps (s : State) (bn : Nat) : List (Nat × Warp) := (s.warpsOf bn).filter fun e => e.2.alive != 0

/-- A block that is not to be saved after all gives its save pages back (R404). -/
def givePages (s : State) (bn : Nat) : State :=
  match s.block bn with
  | none => s
  | some b =>
    let ps := b.savePages ++ (match b.preempt with | some p => p.pages | none => [])
    if ps.isEmpty then s.modBlock bn fun b => { b with preempt := none }
    else (s.modBlock bn fun b => { b with preempt := none, savePages := [] }).modCtx b.ctx fun c =>
      { c with savePages := c.savePages.filter fun p => !ps.contains p }

/-- Every warp of a block has exited: the block gives its resources back and keeps its record with the vitrines it holds open,
waiting for its children, or for its confirmation (R94, R106, R257). -/
def blockEnded (s : State) (bn : Nat) : State :=
  match s.block bn with
  | none => s
  | some b =>
    if b.prov then (leaveCores (givePages s bn) bn).modBlock bn fun b => { b with st := .endedP }
    else
      let leak := !b.locks.isEmpty || b.mat.dyn != 0
      let s1 := abandonLocks s bn
      let s2 := if leak then count s1 (b.cores.head?.getD b.lastCore) evLeak else s1
      (leaveCores (givePages s2 bn) bn).modBlock bn fun b => { b with st := .ended }

/-- A block that retires drops the vitrines it holds open and counts each as a leak on the last core it ran on (R257). -/
def retireVits (s : State) (bn : Nat) : State :=
  match s.block bn with
  | none => s
  | some b => dropVitrines s b.ctx bn b.lastCore true

/-- A block retires: its vitrines are dropped, it counts in BLOCKS_RUN and its record is gone (R94, R257). -/
def retireBlock (s0 : State) (bn : Nat) : State :=
  let s := retireVits s0 bn
  match s.block bn with
  | none => s
  | some b =>
    let s1 := { s with blocks := adel bn s.blocks }
    let s2 := s1.modGrid b.ctx b.gid fun g => { g with run := g.run + 1 }
    gridCheck (settleGbar s2 b.ctx b.gid) b.ctx b.gid

end Sys2Proof.Machine
end

