-- ==== Sys2Proof/Machine/Gang.lean ====
section
/-! DEFINITION. The ends of blocks and gangs other than retirement: kill and relaunch (R475, R476), confirmation (R114),
trimming (R115), eviction (R118), and the wait table as warps leave it (R392, R393). -/

namespace Sys2Proof.Machine

/-- A warp's copy commands continue from the page they stopped at, but for those whose fault it has yet to take (R251,
R390). -/
def resumeCopies (s : State) (wid : Nat) : State :=
  match s.warp wid with
  | none => s
  | some w =>
    let on := fun (l : List CopyCmd) => l.map fun x =>
      if x.wid = wid ∧ !(w.async.any fun r => r.cmdSeq == x.seq) then { x with faulted := false } else x
    (s.modCore w.core fun c => { c with copies := on c.copies }).modBlock (blkOf wid) fun b => { b with savedCopies := on b.savedCopies }

/-- A warp parked for a fault retries, or goes on in the wait an asynchronous cause found it in, with its copy commands (R251, R392,
R393); one that waits on a word checks it again (R343). -/
def wakeFault (s : State) (wid : Nat) : State :=
  match (s.warp wid).bind Warp.wait with
  | some (.fault _) => resumeCopies (s.modWarp wid fun w => { w with wait := w.under, under := none }) wid
  | some (.waitv k va x d _ since sc) => s.modWarp wid fun w => { w with wait := some (.waitv k va x d true since sc) }
  | _ => s

/-- Free a wait-table entry and wake the warps parked on it (R392). -/
def freeEntry (s : State) (i : Nat) : State :=
  match alook i s.dev.wt with
  | none => s
  | some e => (e.parked).foldl wakeFault (s.modDev fun d => { d with wt := adel i d.wt })

/-- Wake a context's overflow list (R392, R393). -/
def wakeOverflow (s : State) (ctx : Nat) : State :=
  match s.ctx ctx with
  | none => s
  | some c => c.overflow.foldl wakeFault (s.modCtx ctx fun c => { c with overflow := [] })

/-- Wait-table entries that a warp handles. -/
def handlingOf (s : State) (wid : Nat) : List Nat :=
  (s.dev.wt.filter fun e => e.2.st == .handling wid).map Prod.fst

/-- A warp leaves every list it is parked on; the entry it handles is freed (R392, R393). -/
def forgetWarp (s : State) (wid : Nat) : State :=
  let s1 := s.modDev fun d => { d with wt := d.wt.map fun e => (e.1, { e.2 with parked := e.2.parked.filter (· != wid) }) }
  let s2 := (handlingOf s1 wid).foldl freeEntry s1
  s2.modCtx (s.ctxNo wid) fun c => { c with overflow := c.overflow.filter (· != wid) }

/-- Forget all the warps of a block. -/
def forgetBlock (s : State) (bn : Nat) : State := ((s.warpsOf bn).map Prod.fst).foldl forgetWarp s

/-- The warps of a block that is killed wait for nothing any more (R475). -/
def dropWaits (s : State) (bn : Nat) : State := (forgetBlock s bn).modWarpsOf bn fun w => { w with wait := none, under := none }

/-- What ends a block that is killed, its child grids aside (R475): copies, vitrines, locks, leaks; a provisional block is
discarded without leak counting (R106, R115). -/
def killEffects (s : State) (bn : Nat) : State :=
  match s.block bn with
  | none => s
  | some b =>
    let core := b.cores.head?.getD b.lastCore
    let s1 := b.cores.foldl (fun s c => stopCopies s bn c) s
    let s2 := dropVitrines (drainBlock s1 bn) b.ctx bn core !b.prov
    let s3 := abandonLocks s2 bn
    if !b.prov && (!b.locks.isEmpty || b.mat.dyn != 0) then count s3 core evLeak else s3

/-- A block's record goes, its resources freed, without counting as run (R475). -/
def removeBlock (s : State) (bn : Nat) : State :=
  let s1 := leaveCores (givePages s bn) bn
  { s1 with blocks := adel bn s1.blocks }

/-- A grid is killed: KILLED is written, no block of it starts (R91, R94). One that is bound and not resolved stays bound, and counts
so until its resolution: DESIGN CHOICE (notes/assumptions/150). -/
def markKilled (s : State) (ctx gid : Nat) : State :=
  match s.grid ctx gid with
  | none => s
  | some g =>
    if g.status.finished then s
    else childDone (setGrid s ctx gid fun g =>
      { g with status := .killed, fin := timeForm s.ptp, next := g.last, joining := [], limbo := [], resolved := true,
               wasKilled := true }) ctx gid

/-- Kill blocks, their child grids with them (R94, R475): no warp of theirs is handed what another gives up. The fuel bounds the depth
of nesting (R93). -/
def killBlocks : Nat → List Nat → State → State
  | 0, _, s => s
  | n + 1, bs, s0 =>
    let s := bs.foldl dropWaits s0
    bs.foldl (fun s bn =>
      match s.block bn with
      | none => s
      | some b =>
        let s1 := killEffects s bn
        let s2 := b.children.foldl (fun s c =>
          if c.1 = 0 then
            markKilled (killBlocks n ((liveBlocks s b.ctx c.2).map Prod.fst) s) b.ctx c.2
          else s) s1
        let s3 := s2.modGrid b.ctx b.gid fun g => { g with gbarBroken := g.gbarBroken || wfld g.desc.flags 0 1 == 1 }
        removeBlock s3 bn) s

/-- Deepest nesting and one more (R93). -/
def killDepth : Nat := 12

/-- Kill a whole grid (R94, R96). -/
def killGrid (s : State) (ctx gid : Nat) : State :=
  markKilled (killBlocks killDepth ((liveBlocks s ctx gid).map Prod.fst) s) ctx gid

/-- Indices of a gang among some (R86). -/
def ofGang (g : Grid) (gang : Nat) (l : List Nat) : List Nat := l.filter fun i => i / max 1 g.desc.gang == gang

/-- Kill a block's gang and relaunch it or not (R463, R475, R476, R96). Its members that have yet to be placed again go the same way
(R106, R117). -/
def killGang (s : State) (bn : Nat) : State :=
  match s.block bn with
  | none => s
  | some b =>
    match s.gridOf b with
    | none => removeBlock s bn
    | some g =>
      let members := gangOf s bn
      let gang := b.idx / max 1 g.desc.gang
      let idxs := (members.filterMap fun m => (s.block m).map Block.idx).foldl (fun l i => nins i l) (ofGang g gang g.joining)
      let kills := sget 0 g.kills gang + 1
      let s1 := (killBlocks killDepth members s).modGrid b.ctx b.gid fun g =>
        { g with joining := g.joining.filter fun i => !(ofGang g gang g.joining).contains i }
      let rel := wfld g.desc.flags 3 1 == 1
      if rel && wfld (s.cfg b.ctx).dutyMode 6 1 == 1 then
        hostEvent (s1.modGrid b.ctx b.gid fun g => { g with limbo := g.limbo ++ idxs, kills := aput gang kills g.kills })
          (.gangKilled b.ctx b.gid gang)
      else if rel && decide (kills ≤ 3) then
        s1.modGrid b.ctx b.gid fun g =>
          { g with relaunching := nins gang g.relaunching, joining := idxs.foldl (fun l i => nins i l) g.joining, joinWave := true, kills := aput gang kills g.kills }
      else gridCheck (s1.modGrid b.ctx b.gid fun g => { g with wasKilled := true }) b.ctx b.gid

/-- A sector of a block's provisional lines reaches memory (R109, R114): its bytes, poisoned where they are, clean where they
cover the sector; the block's own cores go on seeing them (R326). Over a link that is down what goes to the peer is lost
(R260). -/
def commitSector (b : Block) (s : State) (t : Nat) : State :=
  if linkDown s (32 * t) then lostStore s b (32 * t)
  else
    let kid := s.keyId b.ctx
    b.cores.foldl (fun s c => s.modCore c fun k => k.refreshLines (32 * t) 32) (s.putBy none none (32 * t) 32 (b.ppois.contains t) (fun m =>
      let m1 := (List.range 32).foldl (fun m i =>
        match alook (32 * t + i) b.plines with
        | some x => m.setBytesUnder kid s.free (32 * t + i) [x]
        | none => m) m
      if b.ppois.contains t then m1.setPois t true
      else if b.covers (32 * t) 32 then m1.setPois t false
      else m1))

/-- Merge a block's provisional lines into memory (R114). -/
def commitLines (s : State) (b : Block) : State :=
  ((b.plines.map fun e => e.1 / 32).eraseDups).foldl (commitSector b) s

/-- Confirm a block: its lines become ordinary, its held warps wake; one that has ended retires and drops its vitrines (R106,
R114, R257), unless faults held for warps that are gone end its gang. A held trap is delivered at the warp's next boundary. -/
def confirmBlock (s : State) (bn : Nat) : State :=
  match s.block bn with
  | none => s
  | some b =>
    if !b.prov then s
    else
      let s1 := (commitLines s b).setBlock bn { b with prov := false, plines := [], ppois := []
                                                       st := if b.st = .endedP then .ended else .running }
      let s2 := s1.modWarpsOf bn fun w =>
        match w.wait with
        | some .held => { w with wait := none }
        | some .quota => { w with wait := none }
        | _ => w
      if b.st = .endedP ∧ b.heldFaults.isEmpty then retireBlock s2 bn else s2

/-- What trimming and eviction share (R115 steps 2 to 5 and 7, R118): copies, lines, shadows, waits, resources. -/
def discardBlock (s : State) (bn : Nat) : State :=
  match s.block bn with
  | none => s
  | some b =>
    let s0 := s
    let s1 := b.cores.foldl (fun s c => stopCopies s bn c) s0
    let s2 := dropVitrines s1 b.ctx bn (b.cores.head?.getD 0) false
    removeBlock (forgetBlock s2 bn) bn

/-- Trim a placed provisional block (R115, R120). BLOCKS_TRIMMED is counted by the resolution. -/
def trimBlock (s : State) (bn : Nat) : State :=
  match s.block bn with
  | none => s
  | some b =>
    let core := b.cores.getLast?.getD b.lastCore
    discardBlock (provPacket s b.ctx b.gid core 2 b.idx) bn

/-- Whether a gang has a confirmed member on its cores: it is never evicted (R117). -/
def mixedGang (s : State) (bn : Nat) : Bool :=
  (gangOf s bn).any fun m => match s.block m with
    | some b => !b.prov && !b.cores.isEmpty
    | none => false

/-- Evict a provisional block with the rest of its gang: QUEUED_P again (R106, R117, R118). A block in ENDED_P keeps its lines,
unless its context is switched out (`out`). Pre-emption (`pre`) evicts a mixed gang's provisional members too (R106): R117 is read as
one of evictions for room, DEDUCED (notes/assumptions/149). -/
def evictGang (s : State) (bn : Nat) (pre out : Bool) : State :=
  if mixedGang s bn && !pre then s
  else (gangOf s bn).foldl (fun s m =>
    match s.block m with
    | none => s
    | some b =>
      if b.prov && (out || b.st != .endedP) then
        countR ((discardBlock s m).modGrid b.ctx b.gid fun g => { g with joining := nins b.idx g.joining, joinWave := true }) b.ctx evEvict
      else s) s

end Sys2Proof.Machine
end

