-- ==== Sys2Proof/Machine/Cells.lean ====
section
/-! DEFINITION. The pool of cells of a core and its spills to the register Annex (R126, R127, R129, R130). -/

namespace Sys2Proof.Machine

/-- Cells of a core's pool that hold a register now (R126), with the fresh ones of renamed registers whose writes are
outstanding (R127). -/
def cellsUsed (s : State) (core : Nat) : Nat :=
  (s.warpsOn core).foldl (fun n e => n + (e.2.cells.length - e.2.spilled.length) + (e.2.pend.map Pend.fresh).sum) 0

/-- Counter 0x44, rename stall (R127, R424). -/
def evRenameStall : Nat := 0x44

/-- Free cells of a core's pool of 32,768 (R126). -/
def poolFree (s : State) (core : Nat) : Nat := 32768 - cellsUsed s core

/-- The Annex address of a cell of a warp (R130): the slot of its slice on the core, then the register. -/
def annexCell (cfg : CtxCfg) (w : Warp) (c : Nat) : Nat :=
  cfg.annexBase.toNat + ((w.core * 512 + ((w.slices[c % 4]?).getD none).getD 0) * 128 + c / 4) * 32

/-- The 32 B of a cell: its eight lanes. -/
def cellBytes (w : Warp) (c : Nat) : List Byte :=
  (List.range 8).flatMap fun l => leBytes 4 (w.vget (c / 4) (8 * (c % 4) + l)).val.toNat

/-- ANNEX waits for a warp's next boundary (R130, R382); one is enough. -/
def annexFault (s : State) (wid addr : Nat) : State :=
  s.modWarp wid fun w =>
    if w.async.any fun r => r.cause == .annex then w
    else
      { w with async := w.async ++ [
          { cause := .annex, subcode := 0, code := 0, prior := 0, lanes := 0, pc := 0, addr := BitVec.ofNat 64 addr,
            cmdSeq := 0, gid := 0, blkIdx := 0, warp := 0, core := 0, token := 0, flags := 0, time := 0 }] }

/-- Spill one cell (R129): it keeps its value, which the model leaves in place. None where the Annex has no translation. -/
def spillCell (s : State) (wid c : Nat) : Option State :=
  match s.warp wid with
  | none => none
  | some w =>
    (s.devWrite (s.ctxNo wid) (annexCell (s.cfg (s.ctxNo wid)) w c) (cellBytes w c)).map fun s1 =>
      s1.modWarp wid fun w => { w with spilled := nins c w.spilled, spilledAt := if w.spilled.isEmpty then some s.dev.now else w.spilledAt }

/-- Whether a warp is on the herd engine. -/
def Warp.onHerd (w : Warp) : Bool := match w.sched.engine with | .herd => true | _ => false

/-- The cells of a warp that are not spilled, with the time of their last use. -/
def freshCells (e : Nat × Warp) : List (Nat × Nat × Nat) :=
  (e.2.cells.filter fun c => !e.2.spilled.contains c).map fun c => (sget 0 e.2.usedAt c, e.1, c)

/-- Whether a warp runs the handler of an ANNEX cause, which maps the pages of its own spilled cells (R130). -/
def inAnnexHandler (w : Warp) : Bool := match w.handler with | some h => h.trap.cause == .annex | none => false

/-- Waits in which a warp is parked (R179, R343, R392): not `fwait`, an access that is to be reissued, or an operation that the device
is completing. -/
def Wait.parks : Wait → Bool
  | .reissue | .fwait _ | .publish _ _ (some _) | .vtopen .. | .engine _ | .tlbinv .. | .icinv _ | .accClear _ => false
  | _ => true

/-- Whether a warp is parked: in such a wait, or as long as any of its cells are spilled (R129). -/
def Warp.parked (w : Warp) : Bool := w.wait.any Wait.parks || (!w.spilled.isEmpty && !inAnnexHandler w)

/-- Cells that may be spilled for a warp, in the order of R129: cells of parked warps, and of warps that a spill keeps parked,
least recently used first; then cells of the herd's other warps than the requester, least recently issued first. -/
def victims (s : State) (core wid : Nat) : List (Nat × Nat) :=
  let ws := (s.warpsOn core).filter fun e => e.2.onHerd
  (sortBy (fun a b => decide (a.1 ≤ b.1)) ((ws.filter fun e => e.2.parked).flatMap freshCells)).map Prod.snd
    ++ (sortBy (fun a b => decide (a.2.sched.lastIssue ≤ b.2.sched.lastIssue)) (ws.filter fun e => e.1 != wid && !e.2.parked)).flatMap
      fun e => (freshCells e).map Prod.snd

/-- Spill `n` cells, each the first victim as things then stand (R129); a cell without a translation stays, and its warp takes ANNEX
(R130). The fuel bounds the victims tried. -/
def spillSome : Nat → List (Nat × Nat) → (pick : State → List (Nat × Nat)) → Nat → State → State
  | 0, _, _, _, s => s
  | _, _, _, 0, s => s
  | fuel + 1, tried, pick, n + 1, s =>
    match (pick s).find? fun x => !tried.contains x with
    | none => s
    | some x =>
      match spillCell s x.1 x.2 with
      | some s1 => spillSome fuel tried pick n s1
      | none =>
        let a := match s.warp x.1 with | some w => annexCell (s.cfg (s.ctxNo x.1)) w x.2 | none => 0
        spillSome fuel (x :: tried) pick (n + 1) (annexFault s x.1 a)

/-- Spill `n` cells that stand in the way of a warp's (R129). -/
def spillFor (s : State) (core wid n : Nat) : State :=
  spillSome (victims s core wid).length [] (victims · core wid) n s

/-- Make room for `n` cells of a warp (R129). -/
def makeRoom (s : State) (core wid n : Nat) : State := if n ≤ poolFree s core then s else spillFor s core wid (n - poolFree s core)

/-- Whether the pages of a warp's spilled cells can be read: the first that cannot. -/
def unreadCell (s : State) (wid : Nat) (w : Warp) : Option Nat :=
  (w.spilled.map fun c => annexCell (s.cfg (s.ctxNo wid)) w c).find? fun a => (s.devTargets (s.ctxNo wid) a 32 false).isNone

end Sys2Proof.Machine
end

