-- ==== Sys2Proof/Machine/Ops.lean ====
section
/-! DEFINITION. Taking a trap and returning from the handler (R381 to R393), halting (R384, R429), and issuing a word: the
checks and waits every instruction word shares (R38, R53, R54, R108, R128). -/

namespace Sys2Proof.Machine

/-- A trap about to be taken: cause, subcode, code, lanes, address, copy command, and whether it belongs to no
instruction (R382). -/
structure TrapReq where
  cause : Cause
  sub : Nat
  code : Nat
  lanes : Word
  addr : Nat
  cmdSeq : Word
  async : Bool
  deriving DecidableEq, Repr

/-- Codes of the causes (R381). -/
def Cause.codeNo : Cause → Nat
  | .illegalOpcode => 0x01
  | .illegalEncoding => 0x02
  | .illegalPair => 0x03
  | .illegalClause => 0x04
  | .privilege => 0x05
  | .role => 0x06
  | .uniformDiverged => 0x07
  | .format => 0x08
  | .address => 0x10
  | .firstTouch => 0x11
  | .permission => 0x12
  | .misaligned => 0x13
  | .vitrine => 0x14
  | .frontierRefill => 0x15
  | .annex => 0x16
  | .poison => 0x20
  | .barrierBroken => 0x21
  | .accum => 0x22
  | .queue => 0x23
  | .brk => 0x30
  | .userTrap => 0x31
  | .watch => 0x32
  | .haltRequest => 0x33
  | .service => 0x34
  | .double => 0x3F

/-- Disposition of a cause (R381). -/
inductive Disp where
  | handler | debug | fatal
  deriving DecidableEq, Repr

/-- See `Disp`. -/
def dispOf (c : Cause) (sub : Nat) : Disp :=
  match c with
  | .address => if sub = 1 then .handler else .fatal
  | .firstTouch | .frontierRefill | .annex | .service => .handler
  | .brk | .watch | .haltRequest => .debug
  | _ => .fatal

/-- The trap record of a warp (R385). -/
def mkRec (s : State) (wid : Nat) (w : Warp) (t : TrapReq) (prior : Nat) : TrapRec :=
  { cause := t.cause, subcode := t.sub, code := t.code, prior := prior, lanes := t.lanes, pc := w.run.pc,
    addr := BitVec.ofNat 64 t.addr, cmdSeq := t.cmdSeq,
    gid := (match s.block (blkOf wid) with | some b => b.gid | none => 0),
    blkIdx := (match s.block (blkOf wid) with | some b => b.idx | none => 0),
    warp := warpNo wid, core := w.core, token := 0,
    flags := (if w.handler.isSome then 4 else 0) + (match w.sched.engine with | .herd => 0 | _ => 1), time := timeForm s.ptp }

/-- The 64 B of a trap record (R385). -/
def TrapRec.bytes (r : TrapRec) : List Byte :=
  leBytes 1 r.cause.codeNo ++ leBytes 1 r.subcode ++ leBytes 1 r.code ++ leBytes 1 r.prior ++ leBytes 4 r.lanes.toNat
    ++ leBytes 8 r.pc.toNat ++ leBytes 8 r.addr.toNat ++ leBytes 4 r.cmdSeq.toNat ++ leBytes 4 r.gid
    ++ leBytes 4 (r.blkIdx % 2 ^ 32) ++ leBytes 2 r.warp ++ leBytes 2 r.core ++ leBytes 4 r.token.toNat
    ++ leBytes 4 r.flags ++ leBytes 8 r.time ++ leBytes 4 (r.blkIdx / 2 ^ 32 % 2 ^ 31) ++ leBytes 4 0

/-- Append a record to the context's fault log, record before COUNT (R386, R488). -/
def flogAppend (s : State) (ctx : Nat) (r : TrapRec) : State :=
  let base := (s.cfg ctx).flogBase.toNat
  match s.devRead ctx base 8 with
  | none => skipAccess s ctx base
  | some bs =>
    let n := leNat bs
    (s.devPut ctx (base + 64 + 64 * (n % 256)) r.bytes).devPut ctx base (leBytes 8 (n + 1))

/-- FAULT packet (R419). -/
def faultPacket (s : State) (wid : Nat) (r : TrapRec) (entered : Bool) : State :=
  match s.warp wid with
  | none => s
  | some w => warpPacket s wid ([hdrByte 11 (r.cause.codeNo / 16), BitVec.ofNat 8 (w.slot + 128 * entered.toNat),
      BitVec.ofNat 8 r.cause.codeNo] ++ leBytes 4 (r.addr.toNat / 2 ^ 16) ++ leBytes 1 r.subcode)

/-- A nap ends before its count (R179). -/
def Warp.endNap (w : Warp) : Warp :=
  match w.wait with
  | some (.nap _) => { w with wait := none }.advance
  | _ => w

/-- A halted warp stops at an instruction boundary, demoted (R405); its nap ends (R179), and it reads its clause's header
again when it resumes (R35). -/
def Warp.halt (w : Warp) : Warp :=
  { w.endNap with halted := true, clause := none, sched := { w.endNap.sched with port := none, engine := .herd } }

/-- HALT_REQUEST of every warp of a context that runs, but one: a FAULT packet each for its trap record (R385, R419, R450). -/
def haltPackets (s : State) (ctx : Nat) (but : Option Nat) : State :=
  s.warps.foldl (fun s e =>
    if s.ctxNo e.1 = ctx ∧ (s.block (blkOf e.1)).isSome ∧ some e.1 ≠ but ∧ e.2.loc.isSome ∧ !e.2.halted ∧ e.2.alive ≠ 0 then
      faultPacket s e.1 (mkRec s e.1 e.2 ⟨.haltRequest, 0, 0, e.2.run.mask, 0, 0, true⟩ 0) false
    else s) s

/-- Stop every warp of a context (R429). -/
def haltCtx (s : State) (ctx : Nat) : State :=
  let s1 := s.modCtx ctx fun c => { c with halted := true }
  { s1 with warps := s1.warps.map fun e =>
      (e.1, if (match s.block (blkOf e.1) with | some b => b.ctx == ctx | none => false) then e.2.halt else e.2) }

/-- Start a core dump (R430): the context halts, the trigger is kept. -/
def startDump (s : State) (ctx : Nat) (trigger : Option TrapRec) (fatal : Option Nat) : State :=
  (haltCtx s ctx).modCtx ctx fun c =>
    { c with dump := some { trigger := trigger, fatal := fatal, resume := wfld c.eff.dbgCfg 0 1 == 0,
                            started := s.ptp, stage := 0, kills := [], resets := [] } }

/-- A fatal trap, delivered (R383): fault log, host event, FAULT packet, then the gang is killed or relaunched, after a
core dump where one is due (R430). -/
def fatalNow (s : State) (wid : Nat) (r : TrapRec) : State :=
  let ctx := s.ctxNo wid
  let s1 := faultPacket (hostEvent (flogAppend s ctx r) (.fault ctx)) wid r false
  match s1.ctx ctx with
  | none => killGang s1 (blkOf wid)
  | some c =>
    match c.dump with
    | some _ => s1.modWarp wid fun w => { w.halt with heldTrap := some r, wait := some .held }
    | none =>
      if wfld c.eff.dumpCfg 0 1 = 1 then
        startDump (s1.modWarp wid fun w => { w.halt with heldTrap := some r, wait := some .held }) ctx (some r) (some (blkOf wid))
      else killGang s1 (blkOf wid)

/-- A fatal cause: held in a provisional block, with the state it was raised with (R108), the port and the sprinter given up
(R140, R155); delivered otherwise. -/
def fatalTrap (s : State) (wid : Nat) (r : TrapRec) : State :=
  match s.block (blkOf wid) with
  | some b =>
    if b.isProv then s.modWarp wid fun w =>
      { w with heldTrap := some r, wait := some .held, sched := { w.sched with port := none, engine := .herd } }
    else fatalNow s wid r
  | none => s

/-- A fatal fault whose warp is gone ends its block's gang, with the disposition of its cause (R251, R383): logged, reported, and
after a core dump where one is due or in progress (R430). -/
def orphanFault (s : State) (bn : Nat) (r : TrapRec) : State :=
  match s.block bn with
  | none => s
  | some b =>
    let s1 := hostEvent (flogAppend s b.ctx r) (.fault b.ctx)
    match s1.ctx b.ctx with
    | none => killGang s1 bn
    | some c =>
      if c.dump.isSome then s1.modBlock bn fun b => { b with heldFaults := b.heldFaults ++ [r] }
      else if wfld c.eff.dumpCfg 0 1 = 1 then startDump s1 b.ctx (some r) (some bn)
      else killGang s1 bn

/-- A fault whose warp is gone: a provisional block holds it until its confirmation (R108, R251). -/
def orphanTrap (s : State) (bn : Nat) (r : TrapRec) : State :=
  match s.block bn with
  | some b =>
    if b.isProv then s.modBlock bn fun b => { b with heldFaults := b.heldFaults ++ [{ r with flags := r.flags + 2 }] }
    else orphanFault s bn r
  | none => s

/-- The faults a block held for warps that are gone act at its confirmation (R108). -/
def deliverOrphans (s : State) (bn : Nat) : State :=
  match s.block bn with
  | some b =>
    match b.heldFaults with
    | r :: _ => if b.isProv then s else orphanFault (s.modBlock bn fun b => { b with heldFaults := [] }) bn r
    | [] => s
  | none => s

/-- The 64 KiB unit of an address (R392). -/
def pageOf (va : Nat) : Nat := va % 2 ^ 56 / 2 ^ 16

/-- The wait-table entry of a page of a context. -/
def findEntry (s : State) (ctx page : Nat) : Option Nat :=
  (s.dev.wt.find? fun e => e.2.ctx == ctx && e.2.page == page).map Prod.fst

/-- The lowest free number of the 4,096 entries (R392). -/
def freeNumber (used : List Nat) (limit : Nat) : Option Nat := (List.range limit).find? fun i => !used.contains i

/-- Warps that wait on a memory word with an entry of the wait table of their own (R343). -/
def wordWaiters (s : State) : List Nat :=
  s.warps.filterMap fun e =>
    let word := match e.2.wait with
      | some (.await ..) | some (.lkacq ..) | some (.waitv ..) => true
      | _ => false
    let listed := match s.ctx (s.ctxNo e.1) with
      | some c => c.overflow.contains e.1
      | none => false
    if word && e.2.loc.isSome && !listed then some e.1 else none

/-- Entries of the wait table in use (R343, R392). -/
def tableUsed (s : State) : Nat := s.dev.wt.length + (wordWaiters s).length

/-- See `freeNumber`. The table's keys rise, so its length bounds the search. -/
def freeEntryNo (s : State) : Option Nat :=
  if 4096 ≤ tableUsed s then none else freeNumber (s.dev.wt.map Prod.fst) (min 4096 (s.dev.wt.length + 1))

/-- Put a warp on a wait-table entry, or on its context's overflow list (R392). The wait that an asynchronous cause found it in is
kept, to go on after the wake (R251). -/
def parkOn (s : State) (wid : Nat) (entry : Option Nat) : State :=
  let s1 := s.modWarp wid fun w => { w with wait := some (.fault entry), under := w.wait, sched := { w.sched with port := none, engine := .herd } }
  match entry with
  | some i => s1.modDev fun d => { d with wt := amod i (fun e => { e with parked := e.parked ++ [wid] }) d.wt }
  | none => s1.modCtx (s.ctxNo wid) fun c => { c with overflow := c.overflow ++ [wid] }

/-- Whether a host claim covers a page (R394). -/
def claimed (s : State) (ctx page : Nat) : Bool := s.dev.claims.any fun c => c.ctx == ctx && c.page == page

/-- Create a wait-table entry; where a host claim is granted, it ends with STATUS 1 and the entry is marked (R395). -/
def newEntry (s : State) (i ctx page : Nat) (st : WtState) : State :=
  let conf := claimed s ctx page
  let s1 := s.modDev fun d => { d with wt := aput i ⟨ctx, page, st, [], conf⟩ d.wt }
  if conf then
    s1.modDev fun d => { d with claims := d.claims.filter fun c => !(c.ctx == ctx && c.page == page)
                                migClaim := (d.migClaim &&& ~~~(12 : DWord)) ||| 4 }
  else s1

/-- Count a conflict on a page (R395): 256 entries, least recently used replaced; a third within 10 ms of the first of the three pins
it. -/
def countConflict (s : State) (ctx page : Nat) : State :=
  let now := s.ptp
  let ms10 := 25000000
  let old := s.dev.conflicts.find? fun c => c.ctx == ctx && c.page == page
  let e : Conflict := match old with
    | some c =>
      let ts := (c.times.filter fun t => decide (now - t ≤ ms10)) ++ [now]
      { c with times := ts, used := now, pinned := if 3 ≤ ts.length then some now else c.pinned }
    | none => ⟨ctx, page, [now], now, none⟩
  let rest := s.dev.conflicts.filter fun c => !(c.ctx == ctx && c.page == page)
  let oldest := rest.foldl (fun m c => min m c.used) now
  let kept := if rest.length < 256 then rest
    else match rest.find? fun c => c.used == oldest with
      | some c => dropFirst c rest
      | none => rest
  s.modDev fun d => { d with conflicts := kept ++ [e] }

/-- Park for the host (R393): the warp's entry becomes a HOST entry with the token, or the warp goes to the overflow
list; the record is logged and the host told. -/
def hostPark (s : State) (wid : Nat) (entry : Option Nat) (r : TrapRec) (token : Nat) : State :=
  let ctx := s.ctxNo wid
  let s1 := match entry with
    | some i => s.modDev fun d => { d with wt := amod i (fun e => { e with st := .host (BitVec.ofNat 32 token) }) d.wt }
    | none => s
  hostEvent (flogAppend (parkOn s1 wid entry) ctx { r with token := BitVec.ofNat 32 token }) (.fault ctx)

/-- Uniform registers with the writes outstanding on them (R38): what a save at this point holds. -/
def Warp.settledS (w : Warp) (r : Nat) : PWord :=
  w.pend.foldl (fun x p => match p.sw.find? fun e => e.1 == r with | some e => e.2 | none => x) (w.sget r)

/-- Outstanding writes to uniform registers from s80 to below a bound are discarded: a younger write stands (R38). -/
def Warp.dropPendS (w : Warp) (hi : Nat) : Warp :=
  { w with pend := w.pend.map fun p => { p with sw := p.sw.filter fun e => !(decide (80 ≤ e.1 ∧ e.1 < hi)) } }

/-- The words of s80 to s95, q0 to q2 and `%fmt` in a frame (R388). -/
def frameBytes (h : Handler) : List Byte :=
  h.trap.bytes ++ h.savedS.flatMap (fun x => leBytes 4 x.val.toNat)
    ++ leBytes 4 ((List.range 3).foldl (fun a i => if (h.savedQ[i]?).getD false then a + 2 ^ i else a) 0)
    ++ leBytes 4 h.savedFmt.toNat ++ leBytes 8 h.resumePc.toNat ++ leBytes 4 h.aside.toNat ++ List.replicate 108 0

/-- Causes that look a page up in the wait table (R392). -/
def tableCause (t : TrapReq) : Bool := t.cause == .firstTouch || t.cause == .address

/-- Entry to the supervisor handler (R387, R388). Older writes outstanding on s83 to s95 complete in the handler (R39). A frame
write that fails gives none. -/
def enterHandler (s : State) (wid : Nat) (w : Warp) (t : TrapReq) (entry : Option Nat) : Option State :=
  let ctx := s.ctxNo wid
  let cfg := s.cfg ctx
  let frame := cfg.hframeBase.toNat + (w.core * 128 + w.slot) * 1024
  let r := mkRec s wid w t 0
  let svc := t.cause == .service
  let h : Handler :=
    { trap := r, lanes := t.lanes, aside := w.run.mask &&& ~~~t.lanes,
      savedS := (List.range 16).map fun i => w.settledS (80 + i), savedQ := w.q, savedFmt := w.run.fmt,
      resumePc := if svc then w.run.pc + 8 else w.run.pc, resumeWidx := if svc then w.run.widx + 1 else w.run.widx,
      frozen := w.waiting, entry := entry, frame := BitVec.ofNat 64 frame, path := w.run,
      copy := t.async && tableCause t, wait := w.wait, rpt := w.rpt, frontDue := w.sched.frontDue,
      fairStart := w.sched.fairStart.map (s.nonStalled w.core - ·) }
  match s.devWrite ctx frame (frameBytes h) with
  | none => none
  | some s1 =>
    let run : Path := { pc := cfg.handlerPc, widx := 0, mask := t.lanes, fmt := w.run.fmt, mfmt := w.run.fmt, age := w.dseq }
    let w1 := { w.dropPendS 83 with
      handler := some h, run := run, waiting := [], clause := none, resv := [], rpt := none, wait := none
      sched := { w.sched with engine := .herd, port := none, fairStart := none, deferSince := none, frontDue := false } }
    let w2 := (w1.sput64 80 ⟨frame, false⟩).sput 82 ⟨BitVec.ofNat 32 (t.cause.codeNo + t.sub * 256), false⟩
    some (faultPacket (s1.setWarp wid w2) wid r true)

/-- A trap met in the handler, or a handler entry whose frame cannot be written, becomes DOUBLE (R388, R389). -/
def doubleTrap (s : State) (wid : Nat) (w : Warp) (t : TrapReq) (prior : Cause) : State :=
  fatalTrap s wid (mkRec s wid w { t with cause := .double, sub := 0 } prior.codeNo)

/-- The lanes that a trapped instruction is repeated in (R390, R392): those that met a fault of the word itself. -/
def repeatLanes (t : TrapReq) (w : Warp) : Option Word :=
  if tableCause t && !t.async && w.run.widx != 0 then some t.lanes else w.rpt

/-- A handled cause (R387, R392): the wait table first, then the handler, or the host where there is none. -/
def handledTrap (s : State) (wid : Nat) (w : Warp) (t : TrapReq) : State :=
  let ctx := s.ctxNo wid
  let cfg := s.cfg ctx
  let page := pageOf t.addr
  let host := cfg.handlerPc == 0 || wfld cfg.dutyMode 0 1 == 1
  let setRpt := fun (s : State) => s.modWarp wid fun w => { w with rpt := repeatLanes t w }
  match if tableCause t then findEntry s ctx page else none with
  | some i => parkOn (setRpt s) wid (some i)
  | none =>
    if host then
      let r := mkRec s wid w t 0
      if t.cause = .service then fatalTrap s wid r
      else
        match if tableCause t then freeEntryNo s else none with
        | some i =>
          let s1 := if claimed s ctx page then countConflict s ctx page else s
          hostPark (faultPacket (setRpt (newEntry s1 i ctx page (.host 0))) wid r false) wid (some i) r (0x80000000 + i)
        | none => hostPark (faultPacket (setRpt s) wid r false) wid none r 0xFFFFFFFF
    else
      match if tableCause t then freeEntryNo s else none with
      | some i =>
        let s1 := if claimed s ctx page then countConflict s ctx page else s
        match enterHandler (newEntry s1 i ctx page (.handling wid)) wid w t (some i) with
        | some s2 => s2
        | none => doubleTrap s wid w t t.cause
      | none =>
        match enterHandler s wid w t none with
        | some s2 => s2
        | none => doubleTrap s wid w t t.cause

/-- A debug cause (R384): a halt of the context where a debugger is attached, fatal where none is; HALT_REQUEST always
halts, and is raised in every warp of the context (R450); a halt by BRK or WATCH raises nothing in the others: DEDUCED
(notes/assumptions/158). -/
def debugTrap (s : State) (wid : Nat) (w : Warp) (t : TrapReq) : State :=
  let ctx := s.ctxNo wid
  let r := mkRec s wid w t 0
  if t.cause = .haltRequest ∨ wfld (s.cfg ctx).dbgCfg 0 1 = 1 then
    let s1 := faultPacket s wid r false
    hostEvent (haltCtx (if t.cause = .haltRequest then haltPackets s1 ctx (some wid) else s1) ctx) (.halted ctx)
  else fatalNow s wid r

/-- A walk that met a malformed entry, ADDRESS with SUBCODE 2, is counted (R239). -/
def countWalk (s : State) (core : Nat) (c : Cause) (sub : Nat) : State :=
  if c = .address ∧ sub = 2 then count s core evWalkError else s

/-- Taking a trap (R381, R384, R387, R389): the one entry that every cause goes through. Reservations are lost (R270). -/
def takeTrap (s0 : State) (wid : Nat) (t : TrapReq) : State :=
  let s := flushStores s0 wid
  match s.warp wid with
  | none => s
  | some w0 =>
    let w := { w0 with resv := [] }
    let s1 := s.setWarp wid w
    let s := if t.async then s1 else countWalk s1 w.core t.cause t.sub
    match w.handler with
    | some h => if t.cause = .haltRequest then debugTrap s wid w t else doubleTrap s wid w t h.trap.cause
    | none =>
      match dispOf t.cause t.sub with
      | .handler => handledTrap s wid w t
      | .debug => debugTrap s wid w t
      | .fatal => fatalTrap s wid (mkRec s wid w t 0)

/-- A handler's wait-table entry is freed when its warp leaves without having mapped the page (R392). -/
def releaseHandling (s : State) (wid : Nat) : State := (handlingOf s wid).foldl freeEntry s

/-- The state `rfe` restores from the device's own copies (R390): s80 to s95, q0 to q2, `%fmt`, the waiting entries with their fairness
timer, which stood still (R389), and the set-aside lanes; the merge or switch, the wait and the repeat that the trap came before are
due again. `keep` is the part of LANES that has not exited; `now` counts the core's non-stalled cycles. -/
def Warp.unhandle (w : Warp) (h : Handler) (keep : Word) (now : Nat) : Warp :=
  let w1 := (List.range 16).foldl (fun w i => w.sput (80 + i) ((h.savedS[i]?).getD PWord.zero)) (w.dropPendS 96)
  ({ w1 with q := h.savedQ, handler := none, waiting := h.frozen, clause := none, wait := h.wait, rpt := h.rpt
             run := { h.path with fmt := h.savedFmt, mask := h.aside ||| keep }
             sched := { w.sched with port := none, frontDue := h.frontDue, deferSince := none
                                     fairStart := if h.frozen.isEmpty then none else some (now - h.fairStart.getD 0) } } :
    Warp).joinStores 0xFFFFFFFF

/-- Whether the word that led to a handler is to be repeated in LANES (R390): not after a header's fetch, whose lanes all go on. -/
def Handler.repeats (h : Handler) : Bool :=
  (h.trap.cause == .firstTouch || h.trap.cause == .address) && !h.copy && h.path.widx != 0

/-- Return from the handler (R390): restored state, then the repeat, the boundary, or RESUME_PC. -/
def returnFromHandler (s : State) (wid : Nat) : State :=
  match s.warp wid with
  | none => s
  | some w =>
    match w.handler with
    | none => s
    | some h =>
      let w1 := w.unhandle h w.run.mask (s.nonStalled w.core)
      let w2 := if h.trap.cause = .service then { w1 with run := { w1.run with pc := h.resumePc, widx := h.resumeWidx } }
        else if h.repeats then { w1 with rpt := some w.run.mask } else w1
      let s1 := releaseHandling (s.setWarp wid w2) wid
      if h.copy then resumeCopies s1 wid else s1

/-- `park` with a token (R393): a HOST entry or the overflow list; restored as by `rfe`, nothing repeated. -/
def parkFromHandler (s : State) (wid token : Nat) : State :=
  match s.warp wid with
  | none => s
  | some w =>
    match w.handler with
    | none => s
    | some h =>
      let w1 := w.unhandle h w.run.mask (s.nonStalled w.core)
      let w2 := if h.repeats then { w1 with rpt := some w.run.mask } else w1
      hostPark (s.setWarp wid w2) wid ((handlingOf s wid).head?) h.trap token

/-- A warp waits scheduler-visibly (R343): it gives up its port or sprinter slot. -/
def parkWait (s : State) (wid : Nat) (x : Wait) : State :=
  s.modWarp wid fun w => { w with wait := some x, sched := { w.sched with port := none, engine := .herd } }

/-- What a word finds as it issues: the warp, its place, its running path, the active lanes, the clause constant. -/
structure Iss where
  wid : Nat
  blk : Nat
  ctx : Nat
  core : Nat
  slot : Nat
  w : Warp
  act : Word
  k : Word
  hdr : Option Header
  instr : Instr
  o : Opnds
  deriving DecidableEq, Repr

/-- Raise a trap at the word being issued: nothing of the word has taken effect. -/
def raise (it : Iss) (s : State) (c : Cause) (sub : Nat) (lanes : Word) (addr : Nat) : State :=
  takeTrap s it.wid ⟨c, sub, 0, lanes, addr, 0, false⟩

/-- The operands of an instruction word; none for an event. -/
def opndsOf (i : Instr) : Opnds :=
  match i.parts with
  | some p => p.o
  | none => ⟨⟨7, false⟩, .b32, false, false, false, .none, .none, .none, .none⟩

/-- OP of an instruction word; 256 for a pair word or an event. -/
def opOf (i : Instr) : Nat :=
  match i.parts with
  | some p => p.op
  | none => 256

/-- Privileged instructions (R53). -/
def privileged (op : Nat) : Bool := (decide (0xD1 ≤ op) && decide (op ≤ 0xD8)) || op == 0xE4

/-- Roles that may issue an instruction (R53). -/
def roleOk (op : Nat) (r : Role) : Bool :=
  if 0x80 ≤ op ∧ op ≤ 0x84 then r == .copy || r == .general
  else if 0x90 ≤ op ∧ op ≤ 0x95 then r == .matrix
  else if 0x96 ≤ op ∧ op ≤ 0x99 then r == .vector
  else true

/-- Whether a call stands at a place R176 refuses: its return address is the word after it, a header. -/
def callMisplaced (op : Nat) (w : Warp) : Bool :=
  (op == 0x03 || op == 0x04) && match w.clause with
    | some cl => w.run.widx != cl.hdr.len.val
    | none => false

/-- The decode checks that depend on the warp (R54): register budget (R128), call placement (R176), privilege, role. -/
def decodeTrap (i : Instr) (w : Warp) : Option Cause :=
  let u := usesOf i
  if (u.vr ++ u.vw).any fun r => decide (w.budget ≤ r) then some .illegalEncoding
  else if callMisplaced (opOf i) w then some .illegalEncoding
  else if privileged (opOf i) && w.handler.isNone then some .privilege
  else if !roleOk (opOf i) w.role then some .role
  else none

/-- Instructions a provisional block holds (R108). -/
def heldInstr (i : Instr) : Bool :=
  match i with
  | .atom .. | .atomcas .. | .red .. | .atomc .. | .rdc .. | .stc .. | .lkacq .. | .lkrel .. | .wake .. | .gbar ..
  | .qpush .. | .launch .. | .shape .. | .publish .. => true
  | .provq _ m => m == .upd
  | _ => false

/-- AFMT of a `%fmt` (R67). -/
def afmtOf (f : Word) : Nat := wfld f 0 4

/-- Whether SCALE_MODE selects A (R67). -/
def scaleA (f : Word) : Bool := wfld f 14 1 == 1

/-- E4M3, E5M2 or E2M1: the formats whose scales SCALE_MODE selects (R64). -/
def hasScale (c : Nat) : Bool := c == 2 || c == 3 || c == 4

/-- Whether an `mma` takes A scales (R288). -/
def usesA (f : Word) : Bool := hasScale (afmtOf f) && scaleA f

/-- Instructions whose D field is a source: stores, `epcfg` and `mma`, whose D names the ring (R261, R301). -/
def readsD (op : Nat) : Bool := op == 0x71 || op == 0x73 || op == 0x97 || op == 0x92

/-- Registers a word reads under a `%fmt` (R38): a D field that is a source counts, and an `mma` that takes no A scales does not
read its scale field (R310). -/
def readsOf (i : Instr) (f : Word) : RegUse :=
  let u := usesOf i
  if opOf i = 0x92 ∧ !usesA f then
    match i.parts, rowOf i with
    | some p, some r => { u with vr := opdV r.a p.o.a ++ opdV r.c p.o.c ++ u.vw, sr := u.sr ++ u.sw }
    | _, _ => u
  else if readsD (opOf i) then { u with vr := u.vr ++ u.vw, sr := u.sr ++ u.sw } else u

/-- The flag a long-latency operation counts on (R36). -/
def flagOf (w : Warp) (fsel : Bool) : Option Nat :=
  match w.clause with
  | none => none
  | some cl =>
    let f := (if fsel then cl.hdr.flagB else cl.hdr.flagA).val
    if f < 12 then some f else none

/-- Whether an instruction is a long-latency operation (R36). -/
def isLong (i : Instr) : Bool :=
  match rowOf i with
  | some r => r.ll
  | none => false

/-- Why a word does not issue yet: an outstanding write it reads, one it only writes, a saturated flag (R36, R38). -/
inductive Hazard where
  | read | write | flag
  deriving DecidableEq, Repr

/-- See `Hazard`. -/
def hazardOf (i : Instr) (w : Warp) : Option Hazard :=
  let u := readsOf i w.run.fmt
  let pv := w.pendV
  let ps := w.pendS
  if u.vr.any pv.contains || u.sr.any ps.contains then some .read
  else if u.vw.any pv.contains || u.sw.any ps.contains then some .write
  else if isLong i then
    match flagOf w (opndsOf i).fsel with
    | some f => if w.flag f = 63 then some .flag else none
    | none => none
  else none

/-- A word waits to issue; an event of the wait is counted once for it. -/
def noteStall (s : State) (wid core : Nat) (w : Warp) (ev : Option Nat) : State :=
  let seen := match w.stall with | some x => if x.1 = w.run.pc then x.2 else [] | none => []
  let new := ev.toList.filter fun e => !seen.contains e
  new.foldl (fun s e => count s core e) (s.setWarp wid { w with stall := some (w.run.pc, seen ++ new) })

/-- The event that a hazard counts (R36, R38). -/
def Hazard.event : Hazard → Option Nat
  | .read => some evUnflagged
  | .write => none
  | .flag => some evFlagSat

/-- Whether a word reads a register some slice of the running path has released (R48). -/
def freedRead (i : Instr) (w : Warp) : Bool :=
  (readsOf i w.run.fmt).vr.any fun r => (slicesOf w.run.mask).any fun sl => w.freed.contains (cellNo r sl)

/-- The lanes a word acts on: guard (R42, R167), and the lanes a repeat is limited to (R390). -/
def activeOf (i : Instr) (w : Warp) : Word :=
  let o := opndsOf i
  let u := match rowOf i with | some r => r.uguard | none => false
  let m := if u then (if w.uguard o.guard then w.run.mask else 0) else w.guarded o.guard w.run.mask
  match w.rpt with
  | some r => m &&& r
  | none => m

/-- The cells of the vector registers a word writes, in its active slices. -/
def cellsNamed (i : Instr) (w : Warp) : List Nat :=
  if readsD (opOf i) then [] else (usesOf i).vw.flatMap fun r => (slicesOf (activeOf i w)).map (cellNo r)

/-- Cells a word takes by first writes to vector registers (R127). -/
def cellsWanted (i : Instr) (w : Warp) : Nat := ((cellsNamed i w).filter fun c => !w.cells.contains c).length

/-- Fresh cells a word of a promoted warp takes by renaming registers that hold cells (R127, R145). -/
def renames (i : Instr) (w : Warp) : Nat :=
  if w.promoted then ((cellsNamed i w).filter fun c => w.cells.contains c).length else 0

/-- The numbers of the sources a word computes from: vector registers, uniform ones from 128, predicates from 256 and 264. -/
def predKey : Opd → List Nat
  | .p r => [256 + r.val]
  | .q r => [264 + r.val]
  | _ => []

/-- The time of the newest load that some registers are computed from (R327). -/
def Warp.depOf (w : Warp) (ks : List Nat) : Nat := ks.foldl (fun m k => max m (Machine.sget 0 w.dep k)) 0

/-- The numbers of the registers a word reads. -/
def srcKeys (i : Instr) (f : Word) : List Nat :=
  let u := readsOf i f
  let o := opndsOf i
  u.vr ++ u.sr.map (128 + ·) ++ predKey o.a ++ predKey o.b ++ predKey o.c

/-- The numbers of the registers a word writes. -/
def dstKeys (i : Instr) : List Nat :=
  let u := usesOf i
  if readsD (opOf i) then [] else u.vw ++ u.sw.map (128 + ·) ++ predKey (opndsOf i).d

/-- What a word writes is computed from what it reads (R327); a register it writes in part keeps what it came from. -/
def Warp.carry (w : Warp) (i : Instr) (act : Word) : Warp :=
  if w.dep.isEmpty then w
  else
    let t := w.depOf (srcKeys i w.run.fmt)
    { w with dep := (dstKeys i).foldl (fun d k =>
        Machine.sput 0 d k (if act = w.alive ∨ 128 ≤ k then t else max t (Machine.sget 0 d k))) w.dep }

/-- A word uses the cells it names (R129). -/
def Warp.useCells (w : Warp) (i : Instr) (now : Nat) : Warp :=
  let u := usesOf i
  { w with usedAt := ((u.vr ++ u.vw).flatMap fun r => (slicesOf w.run.mask).map (cellNo r)).foldl (fun m c => aput c now m) w.usedAt }

/-- The record of a word issuing on a warp. -/
def mkIss (i : Instr) (s : State) (wid core slot : Nat) (w : Warp) : Iss :=
  { wid := wid, blk := blkOf wid, ctx := s.ctxNo wid, core := core, slot := slot, w := w, act := activeOf i w,
    k := (match w.clause with | some cl => cl.hdr.k | none => 0),
    hdr := w.clause.map Clause.hdr, instr := i, o := opndsOf i }

/-- A comparison of the scoreboard copies of a warp agrees: its run of mismatches ends (R40). -/
def agree (s : State) (core wid : Nat) : State :=
  match s.warp wid with
  | some w => s.modCore core fun c => { c with mismatches := adel w.slot c.mismatches }
  | none => s

/-- A word that issues gives the warp its place in the order of issue (R141); its sources and cells are noted. -/
def issued (i : Instr) (s : State) (wid core : Nat) (w0 : Warp) : State :=
  let s1 := s.modWarp wid fun w =>
    { ((w.carry i (activeOf i w0)).useCells i s.dev.now) with
      stall := none, sched := { w.sched with lastIssue := s.dev.now, readySince := none, aged := false } }
  let s2 := if freedRead i w0 then count s1 core evFreedRead else s1
  let s2 := if (s.core core).mismatches.isEmpty then s2 else agree s2 core wid
  match s.warp wid with
  | some w => count s2 core (match w.sched.engine with | .sprinter _ _ => evSprintInstr | _ => evHerdWord)
  | none => s2

/-- Whether the queue of the engine a word addresses has a free entry: copy 64 (R248), matrix 16 and epilogue 8 (R303). -/
def engineFree (s : State) (core : Nat) (i : Instr) : Bool :=
  let op := opOf i
  if 0x80 ≤ op ∧ op ≤ 0x84 then decide ((s.core core).copies.length < 64)
  else if 0x90 ≤ op ∧ op ≤ 0x95 then decide ((s.pair (leaderOf core)).mq.length < 16)
  else if 0x96 ≤ op ∧ op ≤ 0x99 then decide ((s.pair (leaderOf core)).eq.length < 8)
  else true

/-- Words that put a command into an engine's queue (R276, R303). -/
def entersQueue (op : Nat) : Bool :=
  (decide (0x80 ≤ op) && decide (op ≤ 0x82)) || (decide (0x90 ≤ op) && decide (op ≤ 0x93))
    || (decide (0x96 ≤ op) && decide (op ≤ 0x99))

/-- A 32-bit field of an epilogue configuration (R293). -/
def MatState.cfgWord (m : MatState) (off : Nat) : Nat := leNat ((List.range 4).map fun i => sget 0 m.epCfg (off + i))

/-- OUT_FMT of a configuration (R293). -/
def MatState.outFmt (m : MatState) : Nat := fld (m.cfgWord 0) 1 3

/-- Registers a drained row takes (R316). -/
def drainRegs (req : Bool) (outFmt : Nat) : Nat := if !req then 8 else if outFmt = 3 then 4 else 2

/-- Bytes a drained row takes in scratchpad (R316). -/
def drainBytes (req : Bool) (outFmt : Nat) : Nat :=
  if !req then 1024 else if outFmt = 3 then 512 else if outFmt = 4 then 144 else 256

/-- The matrix state of a block. -/
def matOf (s : State) (bn : Nat) : MatState :=
  match s.block bn with
  | some b => b.mat
  | none => MatState.empty

/-- Whether an `epcfg` is still in the epilogue queue: it decides the configuration at the tail (R316). -/
def cfgPending (s : State) (core : Nat) : Bool :=
  (s.pair (leaderOf core)).eq.any fun c => match c.instr with
    | .epcfg _ => true
    | _ => false

/-- Whether a drain must wait to be checked or to write its registers: the tail configuration is not known yet, or a
destination has an outstanding write (R38, R316). -/
def drainWaits (s : State) (wid core : Nat) (w : Warp) (i : Instr) : Bool :=
  match i with
  | .mdrain o _ act req rm1 _ =>
    ((act || req) && cfgPending s core) || (match o.d with
      | .v r => (List.range ((rm1.val + 1) * drainRegs req (matOf s (blkOf wid)).outFmt)).any fun j =>
          w.pendV.contains (r.val + j)
      | _ => false)
  | .mdrains _ _ act req _ _ => (act || req) && cfgPending s core
  | _ => false

/-- Words before which a path's stores may stay in its warp's store buffer (R327, R329): all but those that synchronise, act on
memory elsewhere than at one address, or end the warp's work. A FIFO word orders no memory (R334), and a push only its regions
(R82, R338). -/
def keepsStores (i : Instr) : Bool :=
  match i with
  | .ld .. | .st .. | .lds .. | .sts .. | .ldc .. | .pref .. | .sld .. | .fpush .. | .fpop .. | .qpush .. | .launch .. => true
  | .fence _ kind _ => kind != .sc
  | .exit .. => false
  | i => decide (opOf i = 256) || decide (opOf i < 0x70)

/-- The state in which a word acts: it has issued, and its path's stores before a word that needs them have left (R326, R327). -/
def started (i : Instr) (s : State) (wid core : Nat) (w : Warp) : State :=
  let s1 := issued i s wid core w
  if keepsStores i || activeOf i w == 0 then s1 else flushPath s1 wid

/-- A word of the handler of an ANNEX cause names a spilled cell of its warp: it waits for the refill, or meets ANNEX again where
the Annex still has no page (R130, R389). -/
def namesSpilled (i : Instr) (w : Warp) : Bool :=
  !w.spilled.isEmpty && ((usesOf i).vr ++ (usesOf i).vw).any fun r => (slicesOf w.run.mask).any fun sl => w.spilled.contains (cellNo r sl)

/-- Serialising instructions (R146). -/
def serialising (i : Instr) : Bool :=
  match i with
  | .nop .. | .bra .. | .bri .. | .call .. | .calli .. | .ret .. => false
  | .st .. | .sts .. | .stc .. | .ldr .. | .cctl .. | .icinv .. => true
  | .ld _ _ ord _ _ _ _ | .lds _ _ ord _ | .sld _ _ ord _ => ord == .acq
  | i => decide (opOf i < 0x10) || (decide (0x80 ≤ opOf i) && decide (opOf i < 0xF0))

/-- Whether a word of a promoted warp waits until every older one has retired (R146): its loads are outstanding. -/
def waitsToRetire (i : Instr) (w : Warp) : Bool := w.promoted && serialising i && w.pend.any Pend.isLoad

/-- One word issues on a warp: decode checks, outstanding writes, provisional hold, room for its cells (R129), then its
own effect. A stall at an engine's queue keeps the port (R303). With f = 1.0 a first write may still spill where fresh cells of renamed
registers (R127) have taken the last free ones, though R126 says that no spill occurs then: DESIGN CHOICE (notes/assumptions/140).
A promoted warp that finds no fresh cell stalls, and the event is counted (R127). -/
def issueOn (i : Instr) (s : State) (wid core slot : Nat) (w : Warp) (body : Iss → State → State) : State :=
  match decodeTrap i w with
  | some c => takeTrap s wid ⟨c, 0, 0, w.run.mask, 0, 0, false⟩
  | none =>
    match hazardOf i w with
    | some h => noteStall s wid core w h.event
    | none =>
      let prov := match s.block (blkOf wid) with | some b => b.isProv | none => false
      if waitsToRetire i w then s
      else if namesSpilled i w then
        match unreadCell s wid w with
        | some a => takeTrap s wid ⟨.annex, 0, 0, w.run.mask, a, 0, true⟩
        | none => s
      else if prov && heldInstr i && activeOf i w != 0 then parkWait s wid .held
      else if activeOf i w != 0 && entersQueue (opOf i) && !engineFree s core i then noteStall s wid core w (some evQueueStall)
      else if activeOf i w != 0 && drainWaits s wid core w i then s
      else
        let r := makeRoom s core wid (cellsWanted i w)
        if poolFree r core < cellsWanted i w + renames i w then (if w.promoted then noteStall r wid core w (some evRenameStall) else r)
        else body (mkIss i r wid core slot w) (started i r wid core w)

/-- Execute an instruction word for the current warp. -/
def issue (i : Instr) (s : State) (body : Iss → State → State) : Host.Outcome State Fault Refusal :=
  match s.cur with
  | none => .refused .noWarp
  | some wid =>
    match s.warp wid with
    | none => .refused .noWarp
    | some w =>
      match w.loc with
      | none => .refused .noWarp
      | some (core, slot) => .next (issueOn i s wid core slot w body)

/-- A word completes: releases (R47), then its writes, then the next word. -/
def commit (it : Iss) (s : State) (f : Warp → Warp) : State :=
  s.modWarp it.wid fun w => (f (w.releases it.instr w.run.mask)).advance

/-- A source operand in a lane. -/
def Iss.src (it : Iss) (t : Ty) (o : Opd) (l : Nat) : PV := it.w.src it.k t o l

/-- Active lanes, ascending. -/
def Iss.lanes (it : Iss) : List Nat := lanesOf it.act

/-- The lowest active lane that satisfies a test. -/
def Iss.firstLane (it : Iss) (f : Nat → Bool) : Option Nat := it.lanes.find? f

/-- The running path as the lanes of a mask for which a test holds. -/
def Iss.maskWhere (it : Iss) (f : Nat → Bool) : Word := maskOf fun l => it.act.getLsbD l && f l

/-- Long-latency operation: the destination is written and the flag falls when it completes (R36). An operation with no
active lane counts on no flag and completes at issue. -/
def pendLong (it : Iss) (s : State) (kind : PendKind) (vw : List (Nat × Nat × PWord)) (sw : List (Nat × PWord))
    (src : List LoadSrc := []) : State :=
  let s1 := commit it s fun w =>
    if it.act = 0 then w else { w with pend := w.pend ++ [⟨flagOf it.w it.o.fsel, kind, vw, sw, src, renames it.instr it.w, []⟩] }
  s1

/-- The vector words of a value of `n` registers in a lane. -/
def laneWords (d : Opd) (l : Nat) (ws : List PWord) : List (Nat × Nat × PWord) :=
  match d with
  | .v r => (List.range ws.length).map fun i => (r.val + i, l, (ws[i]?).getD PWord.zero)
  | _ => []

/-- Raise FRONTIER_REFILL where a frontier operation meets an unmapped slot, before any effect of the word (R162): `s` is the state
it found. -/
def orRefill (it : Iss) (s : State) (r : Except Nat State) : State :=
  match r with
  | .ok s1 => s1
  | .error a => takeTrap s it.wid ⟨.frontierRefill, 0, 0, it.w.run.mask, a, 0, true⟩

end Sys2Proof.Machine
end

