-- ==== Sys2Proof/Machine/Stop.lean ====
section
/-! DEFINITION. What falls on a warp's instruction boundary before its next instruction (R382): faults that belong to no
instruction, and the stop of a pre-emption (R17, R18, R397, R398). -/

namespace Sys2Proof.Machine

/-- Whether a warp is in an operation that the device is completing: not at an instruction boundary. -/
def midOperation (w : Warp) : Bool :=
  match w.wait with
  | some (.publish _ _ (some _)) | some (.vtopen ..) | some (.engine _) | some (.tlbinv ..) | some (.icinv _)
  | some (.accClear _) => true
  | _ => false

/-- Whether a warp is at a boundary that takes asynchronous faults (R382): not in an operation, nor parked for an earlier fault. -/
def asyncReady (w : Warp) : Bool :=
  !midOperation w && (match w.wait with
    | some (.fault _) => false
    | _ => true)

/-- Deliver what waits at a warp's boundary: a held trap once its block is confirmed, then asynchronous faults in order
(R108, R382). -/
def deliver (s : State) (wid : Nat) (w : Warp) : Option State :=
  match w.heldTrap with
  | some r =>
    let prov := match s.block (blkOf wid) with | some b => b.isProv | none => false
    if prov then none
    else
      let r1 := if r.flags % 4 < 2 then { r with flags := r.flags + 2 } else r
      some (fatalNow (s.setWarp wid { w with heldTrap := none, wait := none }) wid r1)
  | none =>
    match w.async with
    | [] => none
    | r :: rs =>
      if !asyncReady w then none
      else
      let t : TrapReq := ⟨r.cause, r.subcode, 0, w.run.mask, r.addr.toNat, r.cmdSeq, true⟩
      some (takeTrap (s.setWarp wid { w with async := rs }) wid t)

/-- The Catalogue entries of a warp's kernel (R17); none where they cannot be read. -/
def catEntries (s : State) (ctx : Nat) (im : Image) : Option (List (List Byte)) :=
  (s.devRead ctx im.catBase.toNat (128 * im.catCount)).map fun bs =>
    (List.range im.catCount).map fun i => (bs.drop (128 * i)).take 128

/-- Entries in strictly ascending order, all inside the kernel's code (R18). -/
def catOk (im : Image) : List (List Byte) → Bool
  | [] => true
  | [e] => inCode e
  | e :: f :: es => inCode e && decide (fieldOf e 0 4 < fieldOf f 0 4) && catOk im (f :: es)
where
  /-- Whether an entry's PC_OFFSET lies in the kernel's code. -/
  inCode (e : List Byte) : Bool :=
    let o := fieldOf e 0 4
    decide (im.codeFirst ≤ o ∧ o < im.codeFirst + im.codeBytes)

/-- The Catalogue entry at the header a warp has come to (R17); the flag says that the Catalogue is invalid (R18). A Catalogue that
cannot be read counts as invalid: DESIGN CHOICE (notes/assumptions/31). -/
def catHere (s : State) (wid : Nat) (w : Warp) : Option (List Byte) × Bool :=
  match s.gridOfWarp wid with
  | none => (none, true)
  | some g =>
    match catEntries s (s.ctxNo wid) g.image with
    | none => (none, true)
    | some es =>
      if catOk g.image es then
        (if w.run.widx = 0 then es.find? fun e => (g.image.codeBase.toNat + fieldOf e 0 4) % 2 ^ 64 == w.run.pc.toNat else none, false)
      else (none, true)

/-- Whether a block is being pre-empted: save pages stand ready for it (R401). -/
def Block.preempting (b : Block) : Bool := match b.preempt with | some p => !p.pages.isEmpty | none => false

/-- The request of a warp's block, where save pages stand ready. -/
def preemptOf (s : State) (wid : Nat) : Option Preempt :=
  match s.block (blkOf wid) with
  | some b => if b.preempting then b.preempt else none
  | none => none

/-- Whether a core dump of a warp's context is in progress: its warps stay where they are (R430). -/
def dumping (s : State) (wid : Nat) : Bool :=
  match s.ctx (s.ctxNo wid) with
  | some c => c.dump.isSome
  | none => false

/-- Whether a warp stops for pre-emption at its waiting instruction (R398): not in a nap, a swapped `publish`, a
`vtopen.copy`, or an operation the device is completing. -/
def stopsParked : Wait → Bool
  | .nap _ | .publish _ _ (some _) | .vtopen .. | .engine _ | .tlbinv .. | .icinv _ | .accClear _ => false
  | _ => true

/-- Whether 250,000 non-stalled cycles of a core have passed since a request (R397). -/
def Preempt.over (p : Preempt) (s : State) (core : Nat) : Bool :=
  match alook core p.starts with
  | some t => decide (t + 250000 ≤ s.nonStalled core)
  | none => false

/-- Whether the Catalogue is searched as a warp stops: it runs, nothing holds it, and its budget has not run out (R398). -/
def searches (s : State) (core wid : Nat) (w : Warp) : Bool :=
  !w.halted && w.handler.isNone && w.spilled.isEmpty && w.wait.isNone && !(preemptOf s wid).any fun p => p.over s core

/-- Where a warp stops for a pre-emption now, if it may: its save kind, with the Catalogue entry (R398). -/
def stopKind (s : State) (core wid : Nat) (w : Warp) (p : Preempt) : Option StopNote :=
  if w.halted then some ⟨.heavy, none⟩
  else if p.over s core then (if midOperation w then none else some ⟨.heavy, none⟩)
  else if w.handler.isSome then none
  else match w.wait with
    | some x => if stopsParked x then some ⟨.full, none⟩ else none
    | none =>
      if !w.spilled.isEmpty then some ⟨.full, none⟩
      else
        let c := catHere s wid w
        if c.2 then some ⟨.heavy, none⟩
        else if c.1.isSome && w.pend.isEmpty then some ⟨if w.waiting.isEmpty then .light else .full, c.1⟩
        else none

/-- What ends a nap before its count (R179): a pre-emption trigger, the Curator's drain of a core its block runs on, a halt. -/
def napOver (s : State) (wid : Nat) (w : Warp) : Bool :=
  w.halted || (match s.block (blkOf wid) with
    | some b => b.preempt.isSome || (coresRun s b).any fun c => (s.core c).draining.isSome
    | none => false)

/-- The naps of a block's warps end (R179). -/
def endNaps (s : State) (bn : Nat) : State := (s.warpsOf bn).foldl (fun s e => s.setWarp e.1 e.2.endNap) s

/-- The stop that is due at a warp's boundary, before its next header or word (R382, R398): a halted warp stops at once, another once
nothing earlier acts there. A core dump keeps warps where they are (R430). -/
def stopDue (s : State) (core wid : Nat) (w : Warp) : Option StopNote :=
  match preemptOf s wid with
  | none => none
  | some p =>
    if w.stop.isSome || w.alive == 0 || dumping s wid || (!w.halted && (deliver s wid w).isSome) then none
    else stopKind s core wid w p

/-- The pages of the Catalogue that a search reads are touched (R238). -/
def touchCat (s : State) (wid : Nat) : State :=
  match s.gridOfWarp wid with
  | some g => s.devTouch (s.ctxNo wid) g.image.catBase.toNat (128 * g.image.catCount)
  | none => s

/-- A warp stops for pre-emption (R398): a search of a Catalogue that is invalid is counted (R18). -/
def stopWarp (s : State) (core wid : Nat) (w : Warp) (n : StopNote) : State :=
  let s0 := if searches s core wid w then touchCat s wid else s
  let s1 := if searches s core wid w && (catHere s wid w).2 then count s0 core evCatalogue else s0
  s1.setWarp wid { w.endNap with stop := some n, sched := { w.endNap.sched with port := none } }

end Sys2Proof.Machine
end

