-- ==== Sys2Proof/Machine/Turn.lean ====
section
/-! DEFINITION. A warp's turn: reaching a clause header (R33, R34, R139, R159), fetching and decoding the next word
(R35, R54), hardware breakpoints (R427), issue ports (R140, R141). -/

namespace Sys2Proof.Machine

/-- Gated cycles in each 64, by power and by temperature (R485, R486). -/
def gateOf (s : State) : Nat := min 63 (s.dev.gate + s.dev.thermal)

/-- Whether cores are held from issuing: lossless tracing (R416), power gating (R485), stopped by a reset or a scan (R465,
R478). -/
def coreHeld (s : State) (core : Nat) : Bool :=
  decide (s.dev.now % 64 < gateOf s) || (s.core core).held.isSome || (s.core core).stopped || (s.core core).scanning.isSome

/-- Whether a warp cannot issue for a reason other than its next word (R139). A spilled warp waits for its refill (R129), but
for the handler of a refill that failed (R130). -/
def cannotIssue (w : Warp) : Bool :=
  w.halted || w.stop.isSome || w.wait.isSome || (!w.spilled.isEmpty && !inAnnexHandler w) || (w.sched.engine == .demoting)
    || w.run.mask == 0

/-- Ports in use on a core by other warps (R140). -/
def portsUsed (s : State) (core wid : Nat) : List (Nat × Nat) :=
  (s.warpsOn core).filterMap fun e => if e.1 = wid then none else e.2.sched.port.map fun p => (p, e.1)

/-- A dword fetched for a warp, or the fault of the fetch (R34). A poisoned dword is a POISON fault. -/
def fetchDword (s : State) (ctx va : Nat) : Except Flt DWord :=
  match s.fetchAt ctx va s.free with
  | .error f => .error f
  | .ok t =>
    if s.mem.poisonedUnder (s.keyId ctx) t.key 8 then .error ⟨4, .poison, 0⟩
    else .ok (BitVec.ofNat 64 (leNat (s.mem.bytesUnder (s.keyId ctx) s.free t.key 8)))

/-- The instruction at an address, read without effect. -/
def peekWord (s : State) (ctx va : Nat) : Option Instr :=
  match fetchDword s ctx va with
  | .ok d => (match decodeWord d with | .ok i => some i | .error _ => none)
  | .error _ => none

/-- The next word of a mid-clause warp: its clause's, or the one it will fetch again (R35). -/
def nextInstr (s : State) (wid : Nat) (w : Warp) : Option Instr :=
  if w.run.widx = 0 then none
  else match w.clause with
    | some cl => (match decodeWord ((cl.words[w.run.widx - 1]?).getD 0) with | .ok i => some i | .error _ => none)
    | none => peekWord s (s.ctxNo wid) w.run.pc.toNat

/-- Whether every flag a header's WAIT selects is clear (R37). -/
def waitClear (w : Warp) (h : Header) : Bool := (List.range 12).all fun i => !h.wait.getLsbD i || w.flag i == 0

/-- Whether the WAIT flags of the header a warp has come to hold it (R37, R139). -/
def headerWaits (s : State) (wid : Nat) (w : Warp) : Bool :=
  w.run.widx == 0 && w.onHerd && match peekHeader s (s.ctxNo wid) w.run.pc with
    | some h => !waitClear w h
    | none => false

/-- The first word of the clause a warp has come to, or is in (R139). -/
def firstInstr (s : State) (wid : Nat) (w : Warp) : Option Instr :=
  match w.clause with
  | some cl => (match decodeWord (cl.words.headD 0) with | .ok i => some i | .error _ => none)
  | none => peekWord s (s.ctxNo wid) (w.run.pc.toNat + 8 - 8 * w.run.widx)

/-- Whether the engine queue that the first word of a warp's clause addresses is full (R139). -/
def queueFull (s : State) (core wid : Nat) (w : Warp) : Bool :=
  match firstInstr s wid w with
  | some i => !engineFree s core i
  | none => false

/-- Whether a herd warp is dispatchable (R139). -/
def dispatchable (s : State) (core wid : Nat) (w : Warp) : Bool :=
  !cannotIssue w && w.onHerd && !headerWaits s wid w && !queueFull s core wid w

/-- Whether a warp comes before another for a port (R141): aged ones first, longest waiting first, ties to the lower slot; then
the one that issued least recently. -/
def portBefore (a b : Warp) : Bool :=
  let key := fun (w : Warp) => if w.sched.aged then w.sched.readySince.getD 0 else w.sched.lastIssue
  if a.sched.aged != b.sched.aged then a.sched.aged
  else decide (key a < key b) || (key a == key b && decide (a.slot < b.slot))

/-- Whether another dispatchable warp without a port comes before a warp (R141). -/
def outranked (s : State) (core wid : Nat) (w : Warp) : Bool :=
  (s.warpsOn core).any fun e => e.1 != wid && e.2.sched.port.isNone && portBefore e.2 w && dispatchable s core e.1 e.2

/-- Bind a herd warp to an issue port (R139 to R141): its own; a free one where its engine's queue has room and no other warp comes
first; or, for an aged warp, that of a holder that is not aged, which is suspended. A promoted warp needs none (R145). -/
def bindPort (s : State) (core wid : Nat) (w : Warp) : Option State :=
  match w.sched.engine with
  | .sprinter _ _ => some s
  | .demoting => none
  | .herd =>
    if w.sched.port.isSome then some s
    else if queueFull s core wid w || outranked s core wid w then none
    else
      let used := portsUsed s core wid
      let take := fun (p : Nat) (s : State) => s.modWarp wid fun w => { w with sched := { w.sched with port := some p } }
      match (List.range 2).find? fun p => !(used.any fun u => u.1 == p) with
      | some p => some (take p s)
      | none =>
        if w.sched.aged then
          match used.find? fun u => !(match s.warp u.2 with | some x => x.sched.aged | none => false) with
          | some (p, v) => some (take p (s.modWarp v fun w => { w with sched := { w.sched with port := none } }))
          | none => none
        else none

/-- A hardware breakpoint of the context at an address (R427). -/
def breakAt (s : State) (ctx : Nat) (pc : DWord) : Bool :=
  match s.ctx ctx with
  | some c => c.bp.any fun e => fld e.2.toNat 0 1 == 1 && fld e.2.toNat 3 53 == fld pc.toNat 3 53
  | none => false

/-- A trap of the header or word at the running path's PC, of every lane of the path. -/
def pathTrap (s : State) (wid : Nat) (w : Warp) (c : Cause) (sub addr : Nat) : State :=
  takeTrap s wid ⟨c, sub, 0, w.run.mask, addr, 0, false⟩

/-- Fetch `n` dwords from an address on, or give the first address that cannot be fetched (R34). -/
def fetchWords (s : State) (ctx : Nat) : Nat → Nat → Except (Flt × Nat) (List DWord)
  | 0, _ => .ok []
  | n + 1, va =>
    match fetchDword s ctx va with
    | .error f => .error (f, va)
    | .ok w =>
      match fetchWords s ctx n (va + 8) with
      | .error e => .error e
      | .ok ws => .ok (w :: ws)

/-- A fetch of one page retires: TLB and TCH of the page (R238, R240). -/
def fetchedPage (s : State) (ctx va : Nat) : State :=
  match s.fetchAt ctx va s.free with
  | .ok t => (s.used ctx va t).takeFree
  | .error _ => s

/-- The fetch of a clause retires: of both pages where it runs into a second one (R238, R240). -/
def fetched (s : State) (ctx : Nat) (cl : Clause) : State :=
  let last := cl.addr.toNat + 8 * cl.hdr.len.val
  let s1 := fetchedPage s ctx cl.addr.toNat
  if last / 65536 = cl.addr.toNat / 65536 then s1 else fetchedPage s1 ctx last

/-- The trap of a fetch that failed; a walk error is counted (R34), and valid entries that the walk met may stay cached (R240). -/
def fetchTrap (s : State) (wid : Nat) (w : Warp) (f : Flt) (va : Nat) : State :=
  let s1 := s.walked (s.ctxNo wid) va s.free
  let s2 := if s.isWalkError (s.ctxNo wid) va s.free then count s1 w.core evWalkError else s1
  pathTrap s2 wid w f.cause f.sub va

/-- The clause at a header, or the trap it raises (R33, R34). The header is checked before its words are fetched: the spec does not
order the two, DESIGN CHOICE (notes/assumptions/23). -/
def fetchClause (s : State) (wid : Nat) (w : Warp) (hdr : Nat) : Except State Clause :=
  let ctx := s.ctxNo wid
  match fetchDword s ctx hdr with
  | .error f => .error (fetchTrap s wid w f hdr)
  | .ok d =>
    match decodeHeader d with
    | .error .illegalClause => .error (pathTrap s wid w .illegalClause 0 0)
    | .error .illegalEncoding => .error (pathTrap s wid w .illegalEncoding 0 0)
    | .ok h =>
      match fetchWords s ctx h.len.val (hdr + 8) with
      | .error (f, va) => .error (fetchTrap s wid w f va)
      | .ok ws => .ok ⟨BitVec.ofNat 64 hdr, h, ws⟩

/-- Whether the first word of a clause finds room in its engine's queue (R139). -/
def firstFits (s : State) (core : Nat) (cl : Clause) : Bool :=
  match cl.words with
  | [] => true
  | w :: _ =>
    match decodeWord w with
    | .ok i => engineFree s core i
    | .error _ => true

/-- Reaching a clause header (R33, R34, R139, R159): breakpoint, fetch and checks, refill, merge and switch with the spills they cause
(R162), WAIT flags and room in the engine's queue; then the clause starts. A promoted warp waits for neither flags nor queue: R37
lets it issue before the flags clear, DESIGN CHOICE (notes/assumptions/141). -/
def dispatchClause (s : State) (wid core : Nat) (w : Warp) : State :=
  let ctx := s.ctxNo wid
  if breakAt s ctx w.run.pc && w.bpSkip != some w.run.pc then pathTrap s wid w .brk 0 0
  else
    match fetchClause s wid w w.run.pc.toNat with
    | .error s1 => s1
    | .ok cl =>
      match (refillAt s wid w.run.pc).bind fun s => (if cl.hdr.fchk then mergeStep s wid else .ok s).bind fun s =>
          (if w.sched.fairRun then .ok s else switchStep s wid).bind fun s => spillEntries 32 s wid with
      | .error a => takeTrap s wid ⟨.frontierRefill, 0, 0, w.run.mask, a, 0, true⟩
      | .ok s1 =>
        match s1.warp wid with
        | none => s1
        | some w1 =>
          if w1.run.pc ≠ w.run.pc ∨ w1.run.widx ≠ 0 then s1
          else if w1.onHerd && !(waitClear w1 cl.hdr && firstFits s1 core cl) then s1
          else
            match bindPort s1 core wid w1 with
            | none => s1
            | some s2 =>
              (fetched s2 ctx cl).modWarp wid fun w =>
                { w.passed with clause := some cl, run := { w.run with pc := w.run.pc + 8, widx := 1 }, rpt := none
                                sched := { w.sched with fairRun := false } }

/-- The clause a mid-clause warp refetches (R35): where its header is no longer long enough, the next word is a header. The checks
of R33 and R34 are made again, and a trap carries the PC of the word the warp has come to: DESIGN CHOICE
(notes/assumptions/24). -/
def refetch (s : State) (wid : Nat) (w : Warp) : State :=
  match fetchClause s wid w (w.run.pc.toNat - 8 * w.run.widx) with
  | .error s1 => s1
  | .ok cl =>
    if cl.hdr.len.val < w.run.widx then s.setWarp wid { w with run := { w.run with widx := 0 } }
    else (fetched s (s.ctxNo wid) cl).modWarp wid fun w => { w with clause := some cl }

/-- What a warp's turn comes to: a state, or an instruction to execute in a state. -/
inductive Ready where
  | done (s : State)
  | run (i : Instr) (s : State)

/-- Whether a pair word that breaks the bank rule also names a register above the warp's budget: the earlier check of R54. -/
def pairOverBudget (budget : Nat) (d : DWord) : Bool :=
  match decodeHalf (fld d.toNat 32 31), decodeHalf (fld d.toNat 0 31) with
  | some h1, some h2 => (h1.reads ++ h2.reads).any fun r => decide (budget ≤ r)
  | _, _ => false

/-- The word a mid-clause warp has come to: breakpoint, decode traps (R54, R427), or the instruction. -/
def wordReady (s : State) (wid core : Nat) (w : Warp) (cl : Clause) : Ready :=
  if breakAt s (s.ctxNo wid) w.run.pc && w.bpSkip != some w.run.pc then .done (pathTrap s wid w .brk 0 0)
  else
    let d := (cl.words[w.run.widx - 1]?).getD 0
    match decodeWord d with
    | .error .illegalOpcode => .done (pathTrap s wid w .illegalOpcode 0 0)
    | .error .illegalPair =>
      .done (pathTrap s wid w (if pairOverBudget w.budget d then .illegalEncoding else .illegalPair) 0 0)
    | .error _ => .done (pathTrap s wid w .illegalEncoding 0 0)
    | .ok i =>
      match bindPort s core wid w with
      | none => .done s
      | some s1 => .run i { s1 with cur := some wid }

/-- A mid-clause warp's next word: its clause is fetched again where the buffer no longer holds it (R35). -/
def midClause (s : State) (wid core : Nat) (w : Warp) : Ready :=
  match w.clause with
  | some cl => wordReady s wid core w cl
  | none =>
    let s1 := refetch s wid w
    match s1.warp wid with
    | none => .done s1
    | some w1 =>
      match w1.clause with
      | some cl => if w1.run.pc = w.run.pc ∧ w1.wait.isNone then wordReady s1 wid core w1 cl else .done s1
      | none => .done s1

/-- The merge or switch that a branch left waiting for a refill (R162). -/
def frontTurn (s : State) (wid : Nat) (w : Warp) : State :=
  match mergeSwitch s wid with
  | .ok s1 => s1.modWarp wid fun w => { w with sched := { w.sched with frontDue := false } }
  | .error a => takeTrap s wid ⟨.frontierRefill, 0, 0, w.run.mask, a, 0, true⟩

/-- The turn of the warp in a slot: what waits at its boundary first, then a stop of a pre-emption, then its header or its next word
(R382). -/
def warpTurn (s : State) (core slot : Nat) : Ready :=
  match s.warpAt core slot with
  | none => .done s
  | some wid =>
    match s.warp wid with
    | none => .done s
    | some w =>
      match stopDue s core wid w, (if w.halted || w.stop.isSome then none else deliver s wid w) with
      | some n, _ => .done (stopWarp s core wid w n)
      | none, some s1 => .done s1
      | none, none =>
          if cannotIssue w || coreHeld s core then .done s
          else if w.sched.frontDue then .done (frontTurn s wid w)
          else if w.run.widx = 0 then .done (dispatchClause s wid core w)
          else midClause s wid core w

end Sys2Proof.Machine
end

