-- ==== Sys2Proof/Machine/Values.lean ====
section
/-! DEFINITION. What the value instructions share: elements of a type (R46, R169, R170), words of an operand, comparison and
combination (R190), truth tables (R188), shifts (R189, R208), and the shape of a word that computes (R202 to R204). -/

namespace Sys2Proof.Machine

/-- Width of an element of a type (R46). -/
def tyW : Ty → Nat
  | .b64 | .s64 | .n64 | .f64 => 64
  | .s16x2 | .n16x2 | .f16x2 | .bf16x2 => 16
  | .s8x4 | .n8x4 => 8
  | _ => 32

/-- Elements of a type (R46). -/
def tyN : Ty → Nat
  | .s16x2 | .n16x2 | .f16x2 | .bf16x2 => 2
  | .s8x4 | .n8x4 => 4
  | _ => 1

/-- Whether an integer type is signed (R46). -/
def tyS : Ty → Bool
  | .s32 | .s64 | .s16x2 | .s8x4 => true
  | _ => false

/-- `elem`: element `i` of a bit string, as an exact integer (R169). -/
def elem (t : Ty) (x i : Nat) : Int :=
  let y := fld x (tyW t * i) (tyW t)
  if tyS t then toSigned (tyW t) y else y

/-- The least value of an integer type. -/
def tyLo (t : Ty) : Int := if tyS t then -((2 ^ (tyW t - 1) : Nat) : Int) else 0

/-- The greatest value of an integer type. -/
def tyHi (t : Ty) : Int := ((2 ^ (if tyS t then tyW t - 1 else tyW t) - 1 : Nat) : Int)

/-- `fit`: an exact integer as a pattern of the type's width, limited first under SAT (R169). -/
def fit (t : Ty) (sat : Bool) (v : Int) : Nat := wrapBits (tyW t) (if sat then clampInt (tyLo t) (tyHi t) v else v)

/-- Elements put together into a bit string, element 0 lowest. -/
def joinElems (w : Nat) : List Nat → Nat
  | [] => 0
  | x :: xs => x + 2 ^ w * joinElems w xs

/-- An elementwise result (R170). -/
def elementwise (t : Ty) (f : Nat → Nat) : Nat := joinElems (tyW t) ((List.range (tyN t)).map f)

/-- Any of the operands poisoned makes the result so (R204). -/
def PV.of1 (a : PV) (v : Nat) : PV := ⟨v, a.pois⟩

/-- See `PV.of1`. -/
def PV.of2 (a b : PV) (v : Nat) : PV := ⟨v, a.pois || b.pois⟩

/-- See `PV.of1`. -/
def PV.of3 (a b c : PV) (v : Nat) : PV := ⟨v, a.pois || b.pois || c.pois⟩

/-- One word of an operand: the low one (`h` 0) or the high one of a 64-bit operand, with its own poison. -/
def Warp.srcW (w : Warp) (k : Word) (t : Ty) (o : Opd) (h l : Nat) : PV :=
  match o with
  | .v r => ⟨(w.vget (r.val + h) l).val.toNat, (w.vget (r.val + h) l).pois⟩
  | .s r => ⟨(w.sget (r.val + h)).val.toNat, (w.sget (r.val + h)).pois⟩
  | o => ⟨fld (constVal t k l o) (32 * h) 32, false⟩

/-- Write a destination word by word: each word has its own poison. -/
def Warp.dputW (w : Warp) (t : Ty) (d : Opd) (m : Word) (f : Nat → Nat → PV) : Warp :=
  (List.range (tw t)).foldl (fun w h =>
    match d with
    | .v r => w.vput (r.val + h) m fun l => ⟨BitVec.ofNat 32 (f h l).v, (f h l).pois⟩
    | .s r => if m = 0 then w else w.sput (r.val + h) ⟨BitVec.ofNat 32 (f h 0).v, (f h 0).pois⟩
    | _ => w) w

/-- A word of a source operand of the word being issued. -/
def Iss.srcW (it : Iss) (t : Ty) (o : Opd) (h l : Nat) : PV := it.w.srcW it.k t o h l

/-- A word that writes D from its sources, per active lane (R202, R203). -/
def value (it : Iss) (s : State) (t : Ty) (f : Nat → PV) : State := commit it s fun w => w.dput t it.o.d it.act f

/-- A value of one source. -/
def value1 (it : Iss) (s : State) (ta td : Ty) (f : Nat → Nat) : State :=
  value it s td fun l =>
    let a := it.src ta it.o.a l
    a.of1 (f a.v)

/-- A value of two sources. -/
def value2 (it : Iss) (s : State) (ta tb td : Ty) (f : Nat → Nat → Nat) : State :=
  value it s td fun l =>
    let a := it.src ta it.o.a l
    let b := it.src tb it.o.b l
    a.of2 b (f a.v b.v)

/-- A value of three sources. -/
def value3 (it : Iss) (s : State) (ta tb tc td : Ty) (f : Nat → Nat → Nat → Nat) : State :=
  value it s td fun l =>
    let a := it.src ta it.o.a l
    let b := it.src tb it.o.b l
    let c := it.src tc it.o.c l
    a.of3 b c (f a.v b.v c.v)

/-- A value computed word by word, each word of D from the same words of the sources. -/
def valueW (it : Iss) (s : State) (f : Nat → Nat → PV) : State :=
  commit it s fun w => w.dputW it.o.ty it.o.d it.act f

/-- A predicate is written from sources: a poisoned one in an active lane raises POISON first (R204, R471). -/
def predicate (it : Iss) (s : State) (pois : Nat → Bool) (f : Nat → Bool) : State :=
  match it.firstLane pois with
  | some _ => raise it s .poison 0 (it.maskWhere pois) 0
  | none => commit it s fun w => w.pdput it.o.d it.act f

/-- Whether A or B is poisoned in a lane. -/
def Iss.poisAB (it : Iss) (l : Nat) : Bool := (it.src it.o.ty it.o.a l).pois || (it.src it.o.ty it.o.b l).pois

/-- The 64-bit type of a wide product's operand C (R187, R196). -/
def wideTy (t : Ty) : Ty := if t = .s32 then .s64 else .n64

/-- Product forms of smul, smad, imul and imad on one element (R187, R196). -/
def mulAdd (t : Ty) (mode : MulMode) (x y z : Int) : Nat :=
  match mode with
  | .lo => fit t false (x * y + z)
  | .hi => fit t false (x * y / 2 ^ 32 + z)
  | .wide => wrapBits 64 (x * y + z)

/-- The type of a product's result. -/
def mulTy (t : Ty) (mode : MulMode) : Ty := if mode = .wide then .b64 else t

/-- Comparisons (R190). -/
def icmp (c : ICmp) (x y : Int) : Bool :=
  match c with
  | .eq => x == y
  | .ne => x != y
  | .lt => decide (x < y)
  | .le => decide (x ≤ y)
  | .gt => decide (y < x)
  | .ge => decide (y ≤ x)

/-- COMB (R190). -/
def combine (c : Comb) (r p : Bool) : Bool :=
  match c with
  | .none => r
  | .and => r && p
  | .or => r || p
  | .xor => r != p

/-- One bit of a truth table (R188). -/
def lutBit (fn : BitVec 8) (a b c : Bool) : Bool := fn.getLsbD (a.toNat + 2 * b.toNat + 4 * c.toNat)

/-- A truth table over words of `w` bits (R188). -/
def lut (w : Nat) (fn : BitVec 8) (a b c : Nat) : Nat :=
  (List.range w).foldl (fun r j => if lutBit fn (a.testBit j) (b.testBit j) (c.testBit j) then r + 2 ^ j else r) 0

/-- A left shift in width `w` (R189, R208). -/
def shlW (w a n : Nat) : Nat := if w ≤ n then 0 else a * 2 ^ n % 2 ^ w

/-- A logical right shift in width `w`. -/
def shrW (w a n : Nat) : Nat := if w ≤ n then 0 else a / 2 ^ n

/-- An arithmetic right shift in width `w`. -/
def sarW (w a n : Nat) : Nat := wrapBits w (toSigned w a / 2 ^ min n (w - 1))

/-- A left rotation in width `w`. -/
def rolW (w a n : Nat) : Nat := (a * 2 ^ (n % w) + a / 2 ^ (w - n % w)) % 2 ^ w

/-- Number of 1 bits. -/
def popCount (w a : Nat) : Nat := ((List.range w).filter a.testBit).length

end Sys2Proof.Machine
end

