-- ==== Sys2Proof/Machine/Bits.lean ====
section
/-! DEFINITION. Class 0x3, bits and predicates (R206 to R213). -/

namespace Sys2Proof.Machine

/-- `bitfn` (R207). -/
def execBitfn (o : Opnds) (fn : BitVec 8) (s : State) : Host.Outcome State Fault Refusal :=
  issue (.bitfn o fn) s fun it s => valueW it s fun h l =>
    let a := it.srcW it.o.ty it.o.a h l
    let b := it.srcW it.o.ty it.o.b h l
    let c := it.srcW it.o.ty it.o.c h l
    a.of3 b c (lut 32 fn a.v b.v c.v)

/-- A shift amount under WRAP (R208). -/
def wrapAmount (wrap : Bool) (w n : Nat) : Nat := if wrap then n % w else n

/-- Whether one of some words of a source operand is poisoned. -/
def Iss.poisIn (it : Iss) (o : Opd) (hs : List Nat) (l : Nat) : Bool := hs.any fun h => (it.srcW it.o.ty o h l).pois

/-- The words of a 64-bit source at or below word `h`: what a shift to the left takes word `h` of its result from. -/
def upTo (h : Nat) : List Nat := List.range (h + 1)

/-- The words of a source of a type at or above word `h`: what a shift to the right takes word `h` of its result from. -/
def aboveIn (t : Ty) (h : Nat) : List Nat := (List.range (tw t)).filter fun g => decide (h ≤ g)

/-- A value whose words have each its own poison (R204): word `h` is poisoned when a source word it is computed from is. DEDUCED
(notes/assumptions/34): a word is computed from every source word that some amount or position could bring into it. -/
def valueP (it : Iss) (s : State) (v : Nat → Nat) (pois : Nat → Nat → Bool) : State :=
  valueW it s fun h l => ⟨fld (v l) (32 * h) 32, pois h l⟩

/-- `shl` (R208). -/
def execShl (o : Opnds) (wrap : Bool) (s : State) : Host.Outcome State Fault Refusal :=
  issue (.shl o wrap) s fun it s =>
    let t := it.o.ty
    let n := fun l => it.src .n32 it.o.b l
    valueP it s (fun l => shlW (tyW t) (it.src t it.o.a l).v (wrapAmount wrap (tyW t) (n l).v))
      fun h l => (n l).pois || it.poisIn it.o.a (upTo h) l

/-- `shr` (R208): arithmetic on s types. -/
def execShr (o : Opnds) (wrap : Bool) (s : State) : Host.Outcome State Fault Refusal :=
  issue (.shr o wrap) s fun it s =>
    let t := it.o.ty
    let n := fun l => it.src .n32 it.o.b l
    let shift := if tyS t then sarW else shrW
    valueP it s (fun l => shift (tyW t) (it.src t it.o.a l).v (wrapAmount wrap (tyW t) (n l).v))
      fun h l => (n l).pois || it.poisIn it.o.a (aboveIn t h) l

/-- A 32-bit window of b ++ a (R209). -/
def window (wrap sfill : Bool) (a b c : Nat) : Nat :=
  let n := if wrap then c % 64 else min c 64
  let fill := if sfill && b.testBit 31 then 2 ^ 32 - 1 else 0
  (a + 2 ^ 32 * b + 2 ^ 64 * fill) / 2 ^ n % 2 ^ 32

/-- `fwin` (R209). -/
def execFwin (o : Opnds) (wrap sfill : Bool) (s : State) : Host.Outcome State Fault Refusal :=
  issue (.fwin o wrap sfill) s fun it s => value3 it s .b32 .b32 .n32 .b32 (window wrap sfill)

/-- The field of `bfe` (R210). -/
def extract (t : Ty) (a q : Nat) : Nat :=
  let pos := fld q 0 8
  let len := fld q 8 8
  let f := elem t a 0 / 2 ^ pos % 2 ^ len
  fit t false (if tyS t && len != 0 && decide ((2 : Int) ^ (len - 1) ≤ f) then f - 2 ^ len else f)

/-- `bfe` (R210): a sign may come from any word. -/
def execBfe (o : Opnds) (s : State) : Host.Outcome State Fault Refusal :=
  issue (.bfe o) s fun it s =>
    let t := it.o.ty
    let q := fun l => it.src .n32 it.o.b l
    valueP it s (fun l => extract t (it.src t it.o.a l).v (q l).v)
      fun h l => (q l).pois || it.poisIn it.o.a (aboveIn t (if tyS t then 0 else h)) l

/-- The result of `bfi` (R210). -/
def insertField (w a b q : Nat) : Nat :=
  let pos := fld q 0 8
  let len := fld q 8 8
  (List.range w).foldl (fun r j =>
    let x := if pos ≤ j ∧ j < pos + len then b.testBit (j - pos) else a.testBit j
    if x then r + 2 ^ j else r) 0

/-- `bfi` (R210). -/
def execBfi (o : Opnds) (s : State) : Host.Outcome State Fault Refusal :=
  issue (.bfi o) s fun it s =>
    let t := it.o.ty
    let q := fun l => it.src .n32 it.o.c l
    valueP it s (fun l => insertField (tyW t) (it.src t it.o.a l).v (it.src t it.o.b l).v (q l).v)
      fun h l => (q l).pois || it.poisIn it.o.a [h] l || it.poisIn it.o.b (upTo h) l

/-- `popc` (R211). -/
def execPopc (o : Opnds) (s : State) : Host.Outcome State Fault Refusal :=
  issue (.popc o) s fun it s => value1 it s it.o.ty .b32 (popCount (tyW it.o.ty))

/-- Zeros above the highest 1 bit (R211). -/
def leadingZeros (w a : Nat) : Nat := if a = 0 then w else w - 1 - Nat.log2 a

/-- `clz` (R211). -/
def execClz (o : Opnds) (s : State) : Host.Outcome State Fault Refusal :=
  issue (.clz o) s fun it s => value1 it s it.o.ty .b32 (leadingZeros (tyW it.o.ty))

/-- Bits in reverse order (R211). -/
def reverseBits (w a : Nat) : Nat := (List.range w).foldl (fun r j => if a.testBit (w - 1 - j) then r + 2 ^ j else r) 0

/-- `brev` (R211). -/
def execBrev (o : Opnds) (s : State) : Host.Outcome State Fault Refusal :=
  issue (.brev o) s fun it s =>
    valueP it s (fun l => reverseBits (tyW it.o.ty) (it.src it.o.ty it.o.a l).v)
      fun h l => it.poisIn it.o.a [tw it.o.ty - 1 - h] l

/-- A byte that a selector chooses from b ++ a (R212). -/
def selectByte (a b c : Nat) (i : Nat) : Nat :=
  let sel := fld c (8 * i) 8
  let y := fld (a + 2 ^ 32 * b) (8 * (sel % 8)) 8
  match sel / 8 % 4 with
  | 0 => y
  | 1 => 0
  | 2 => if y.testBit 7 then 0xFF else 0
  | _ => 0xFF

/-- `bsel` (R212). -/
def execBsel (o : Opnds) (s : State) : Host.Outcome State Fault Refusal :=
  issue (.bsel o) s fun it s => value3 it s .b32 .b32 .b32 .b32 fun a b c =>
    joinElems 8 ((List.range 4).map (selectByte a b c))

/-- `plop` (R213). -/
def execPlop (o : Opnds) (fn : BitVec 8) (s : State) : Host.Outcome State Fault Refusal :=
  issue (.plop o fn) s fun it s => predicate it s (fun _ => false) fun l =>
    lutBit fn (it.w.psrc it.o.a l) (it.w.psrc it.o.b l) (it.w.psrc it.o.c l)

/-- `p2v` (R213). -/
def execP2v (o : Opnds) (mask : BitVec 7) (s : State) : Host.Outcome State Fault Refusal :=
  issue (.p2v o mask) s fun it s => value it s .b32 fun l =>
    ⟨(List.range 7).foldl (fun r i => if mask.getLsbD i && it.w.pget i l then r + 2 ^ i else r) 0, false⟩

/-- `v2p` (R213): the predicates of MASK; a poisoned source raises POISON (R204). -/
def execV2p (o : Opnds) (mask : BitVec 7) (s : State) : Host.Outcome State Fault Refusal :=
  issue (.v2p o mask) s fun it s =>
    let a := fun l => it.src .b32 it.o.a l
    match it.firstLane fun l => (a l).pois with
    | some _ => raise it s .poison 0 (it.maskWhere fun l => (a l).pois) 0
    | none => commit it s fun w =>
      (List.range 7).foldl (fun w i => if mask.getLsbD i then w.pput i it.act (fun l => (a l).v.testBit i) else w) w

end Sys2Proof.Machine
end

