-- ==== Sys2Proof/Machine/Quad.lean ====
section
/-! DEFINITION. The N4X block (R65, R66) and E8M0 scales (R64, R227). -/

namespace Sys2Proof.Machine

/-- A nibble as a two's-complement integer (R65). -/
def int4 (n : Nat) : Int := toSigned 4 n

/-- The four values of a quad, and whether it is malformed (R65). -/
def decodeQuad (b0 b1 : Nat) : List FVal × Bool :=
  let n0 := fld b0 0 4
  let n1 := fld b0 4 4
  let n2 := fld b1 0 4
  let n3 := fld b1 4 4
  let z := ofInt 0
  if n0 = 8 ∧ n1 = 8 then ([z, z, z, z], true)
  else if n0 = 8 then ([fmtE4.decode b1, ofInt (int4 n1), z, z], false)
  else if n1 = 8 then ([ofInt (int4 n0), fmtE4.decode b1, z, z], false)
  else
    let v := fun n => if n = 8 then z else ofInt (int4 n)
    ([v n0, v n1, v n2, v n3], n2 == 8 || n3 == 8)

/-- The magnitude of a finite binary32 value in units of 2^-149. -/
def FVal.units : FVal → Nat
  | .fin _ m e => m * 2 ^ (e + 149).toNat
  | _ => 0

/-- Whether a value is finite. -/
def FVal.isFin : FVal → Bool
  | .fin .. => true
  | _ => false

/-- The smallest e in −127..127 with x ≤ top × 2^e, or 127; x in units of 2^-149 (R66, R227). -/
def leastExp (x top : Nat) : Int :=
  match (List.range 255).find? fun i => decide (x ≤ top * 2 ^ (i + 22)) with
  | some i => (i : Int) - 127
  | none => 127

/-- A quad's outlier slot, if it is an outlier quad (R66 step 2). -/
def outlierSlot (q : List Nat) : Option Nat :=
  match q with
  | [a, b, c, d] =>
    if b ≤ a then (if 8 * max b (max c d) < a then some 0 else none)
    else if 8 * max a (max c d) < b then some 1 else none
  | _ => none

/-- Bound and outlier magnitude of a quad (R66 step 3). -/
def quadBounds (q : List Nat) : Nat × Nat :=
  match outlierSlot q, q with
  | some 0, a :: b :: _ => (b, a)
  | some _, a :: b :: _ => (a, b)
  | _, _ => (q.foldl max 0, 0)

/-- x / 2^k, exactly. -/
def FVal.shift (x : FVal) (k : Int) : FVal :=
  match x with
  | .fin n m e => .fin n m (e + k)
  | x => x

/-- An element as an integer limited to −7..7, with its status bits (R66 steps 5 and 7). -/
def quadInt (mode : RMode) (e : Int) (x : FVal) : Int × Nat :=
  match x.shift (-e) with
  | .fin n m e1 =>
    let (v, exact) := roundInt mode n m e1
    let r := clampInt (-7) 7 v
    (r, (if exact && r == v then 0 else fInexact) ||| (if r == 0 && m != 0 then fUnderflow else 0))
  | _ => (0, 0)

/-- Status of an element that is dropped (R66 steps 6 and 7). -/
def dropFl (x : FVal) : Nat := if x.isZero then 0 else fInexact ||| fUnderflow

/-- The two bytes of a quad, and its status bits (R66 steps 5 to 7). -/
def packQuad (mode : RMode) (e : Int) (xs : List FVal) : List Nat × Nat :=
  let nib := fun (v : Int) => wrapBits 4 v
  match xs with
  | [a, b, c, d] =>
    match outlierSlot (xs.map FVal.units) with
    | none =>
      let (ra, fa) := quadInt mode e a
      let (rb, fb) := quadInt mode e b
      let (rc, fc) := quadInt mode e c
      let (rd, fd) := quadInt mode e d
      ([nib ra + 16 * nib rb, nib rc + 16 * nib rd], fa ||| fb ||| fc ||| fd)
    | some k =>
      let (x, y) := if k = 0 then (a, b) else (b, a)
      let (ry, fy) := quadInt mode e y
      let o := fmtE4.convert mode true (x.shift (-e))
      let fo := (if o.fl = 0 then 0 else fInexact) ||| (if o.bits % 128 = 0 then fUnderflow else 0)
      ([if k = 0 then 8 + 16 * nib ry else nib ry + 16 * 8, o.bits], fo ||| fy ||| dropFl c ||| dropFl d)
  | _ => ([], 0)

/-- A 32-element block: 16 data bytes, scale, status bits (R66). -/
structure N4X where
  bytes : List Nat
  scale : Nat
  fl : Nat
  deriving DecidableEq, Repr

/-- Quad `j` of 32 values. -/
def quadOf {α : Type} (xs : List α) (j : Nat) : List α := (xs.drop (4 * j)).take 4

/-- The quantisation algorithm (R66). -/
def packN4X (mode : RMode) (xs : List FVal) : N4X :=
  if xs.any fun x => !x.isFin then ⟨List.replicate 16 0, 0xFF, fInvalid⟩
  else
    let us := xs.map FVal.units
    let bo := (List.range 8).map fun j => quadBounds (quadOf us j)
    let b := bo.foldl (fun m x => max m x.1) 0
    let o := bo.foldl (fun m x => max m x.2) 0
    let e := if b = 0 ∧ o = 0 then 0
      else max (if b = 0 then -127 else leastExp b 7) (if o = 0 then -127 else leastExp o 448)
    let qs := (List.range 8).map fun j => packQuad mode e (quadOf xs j)
    ⟨qs.flatMap Prod.fst, (e + 127).toNat, qs.foldl (fun f q => f ||| q.2) 0⟩

/-- An element of a block as binary32 (R226). -/
def unpackElem (bytes : List Nat) (scale l : Nat) : FRes :=
  let q := decodeQuad ((bytes[2 * (l / 4)]?).getD 0) ((bytes[2 * (l / 4) + 1]?).getD 0)
  if scale = 0xFF then ⟨fmt32.canonNaN, 0⟩
  else
    match (q.1[l % 4]?).getD (ofInt 0) with
    | .nan .. => ⟨fmt32.canonNaN, 0⟩
    | x => fmt32.result .rne (x.shift ((scale : Int) - 127))

/-- Whether some quad of a block is malformed (R65). -/
def malformedN4X (bytes : List Nat) : Bool :=
  (List.range 8).any fun j => (decodeQuad ((bytes[2 * j]?).getD 0) ((bytes[2 * j + 1]?).getD 0)).2

/-- The E8M0 code that `escale.derive` gives (R227). -/
def deriveScale (top : Nat) (x : FVal) : FRes :=
  match x with
  | .fin _ m _ => ⟨(if m = 0 then 127 else leastExp x.units top + 127).toNat, 0⟩
  | _ => ⟨0xFF, fInvalid⟩

end Sys2Proof.Machine
end

