-- ==== Sys2Proof/Machine/FloatOps.lean ====
section
/-! DEFINITION. Classes 0x4 and 0x5: floating point, packed arithmetic, conversion (R214 to R227). -/

namespace Sys2Proof.Machine

/-- The format of a floating type's elements (R46). -/
def tyFmt : Ty → Fmt
  | .f64 => fmt64
  | .f16x2 => fmt16
  | .bf16x2 => fmtB16
  | _ => fmt32

/-- A floating result in a lane: pattern, status bits, poison. -/
structure FOut where
  bits : Nat
  fl : Nat
  pois : Bool
  deriving DecidableEq, Repr

/-- A word that writes D and sets `%fstat` bits, per active lane (R69, R203). -/
def fvalue (it : Iss) (s : State) (td : Ty) (f : Nat → FOut) : State :=
  commit it s fun w => stickFstat (w.dput td it.o.d it.act fun l => ⟨(f l).bits, (f l).pois⟩)
    (it.lanes.foldl (fun a l => a ||| (f l).fl) 0)

/-- Whether FLUSH is in force on the running path (R62). -/
def Iss.flush (it : Iss) : Bool := flushOf it.w.run.fmt

/-- A source operand of class 0x4 as read under FLUSH. -/
def Iss.fsrc (it : Iss) (o : Opd) (l : Nat) : PV :=
  let a := it.src it.o.ty o l
  ⟨flushIn it.flush (tyFmt it.o.ty) a.v, a.pois⟩

/-- A floating function of one operand, under FLUSH. -/
def float1 (it : Iss) (s : State) (f : Fmt → Nat → FRes) : State :=
  let fm := tyFmt it.o.ty
  fvalue it s it.o.ty fun l =>
    let a := it.fsrc it.o.a l
    let r := flushOut it.flush fm (f fm a.v)
    ⟨r.bits, r.fl, a.pois⟩

/-- A floating function of two operands, under FLUSH. -/
def float2 (it : Iss) (s : State) (f : Fmt → Nat → Nat → FRes) : State :=
  let fm := tyFmt it.o.ty
  fvalue it s it.o.ty fun l =>
    let a := it.fsrc it.o.a l
    let b := it.fsrc it.o.b l
    let r := flushOut it.flush fm (f fm a.v b.v)
    ⟨r.bits, r.fl, a.pois || b.pois⟩

/-- `fadd` (R215). -/
def execFadd (o : Opnds) (rm : RM) (s : State) : Host.Outcome State Fault Refusal :=
  issue (.fadd o rm) s fun it s => float2 it s fun f a b => f.add (.ofRM rm) (f.decode a) (f.decode b)

/-- `fsub` (R215). -/
def execFsub (o : Opnds) (rm : RM) (s : State) : Host.Outcome State Fault Refusal :=
  issue (.fsub o rm) s fun it s => float2 it s fun f a b => f.sub (.ofRM rm) (f.decode a) (f.decode b)

/-- `fmul` (R215). -/
def execFmul (o : Opnds) (rm : RM) (s : State) : Host.Outcome State Fault Refusal :=
  issue (.fmul o rm) s fun it s => float2 it s fun f a b => f.mul (.ofRM rm) (f.decode a) (f.decode b)

/-- `ffma` (R215). -/
def execFfma (o : Opnds) (rm : RM) (s : State) : Host.Outcome State Fault Refusal :=
  issue (.ffma o rm) s fun it s =>
    let fm := tyFmt it.o.ty
    fvalue it s it.o.ty fun l =>
      let a := it.fsrc it.o.a l
      let b := it.fsrc it.o.b l
      let c := it.fsrc it.o.c l
      let r := flushOut it.flush fm (fm.fma (.ofRM rm) (fm.decode a.v) (fm.decode b.v) (fm.decode c.v))
      ⟨r.bits, r.fl, a.pois || b.pois || c.pois⟩

/-- `fmin` (R216). -/
def execFmin (o : Opnds) (nan : Bool) (s : State) : Host.Outcome State Fault Refusal :=
  issue (.fmin o nan) s fun it s => float2 it s fun f a b => f.minmax false nan a b

/-- `fmax` (R216). -/
def execFmax (o : Opnds) (nan : Bool) (s : State) : Host.Outcome State Fault Refusal :=
  issue (.fmax o nan) s fun it s => float2 it s fun f a b => f.minmax true nan a b

/-- The test of `fsetp` (R217) on values. -/
def fcmp (c : FCmp) (a b : FVal) : Bool :=
  let un := a.isNaN || b.isNaN
  let x := fvCmp a b
  match c with
  | .eq => !un && x == 0
  | .ne => !un && x != 0
  | .lt => !un && decide (x < 0)
  | .le => !un && decide (x ≤ 0)
  | .gt => !un && decide (0 < x)
  | .ge => !un && decide (0 ≤ x)
  | .num => !un
  | .nan => un
  | .equ => un || x == 0
  | .neu => un || x != 0
  | .ltu => un || decide (x < 0)
  | .leu => un || decide (x ≤ 0)
  | .gtu => un || decide (0 < x)
  | .geu => un || decide (0 ≤ x)

/-- INVALID of `fsetp` (R217): any NaN for the ordered inequalities, a signalling one otherwise. -/
def fcmpFl (c : FCmp) (a b : FVal) : Nat :=
  let anyNaN := if a.isNaN || b.isNaN then fInvalid else 0
  match c with
  | .lt | .le | .gt | .ge => anyNaN
  | _ => a.snanFl ||| b.snanFl

/-- `fsetp` (R217). -/
def execFsetp (o : Opnds) (cmp : FCmp) (comb : Comb) (s : State) : Host.Outcome State Fault Refusal :=
  issue (.fsetp o cmp comb) s fun it s =>
    let fm := tyFmt it.o.ty
    let a := fun l => it.fsrc it.o.a l
    let b := fun l => it.fsrc it.o.b l
    match it.firstLane it.poisAB with
    | some _ => raise it s .poison 0 (it.maskWhere it.poisAB) 0
    | none => commit it s fun w =>
      stickFstat (w.pdput it.o.d it.act fun l =>
        combine comb (fcmp cmp (fm.decode (a l).v) (fm.decode (b l).v)) (it.w.psrc it.o.c l))
        (it.lanes.foldl (fun x l => x ||| fcmpFl cmp (fm.decode (a l).v) (fm.decode (b l).v)) 0)

/-- `fclass` (R218). -/
def execFclass (o : Opnds) (s : State) : Host.Outcome State Fault Refusal :=
  issue (.fclass o) s fun it s => value it s .b32 fun l =>
    let a := it.fsrc it.o.a l
    ⟨2 ^ (tyFmt it.o.ty).classify a.v, a.pois⟩

/-- `frnd` (R219). -/
def execFrnd (o : Opnds) (rm : RM) (s : State) : Host.Outcome State Fault Refusal :=
  issue (.frnd o rm) s fun it s => float1 it s fun f a => f.integral (.ofRM rm) a

/-- A scaling exponent: beyond ±8192 every result is the same (R219). -/
def scaleExp (n : Nat) : Int := clampInt (-8192) 8192 (toSigned 32 n)

/-- `fscale` (R219). -/
def execFscale (o : Opnds) (rm : RM) (s : State) : Host.Outcome State Fault Refusal :=
  issue (.fscale o rm) s fun it s =>
    let fm := tyFmt it.o.ty
    fvalue it s it.o.ty fun l =>
      let a := it.fsrc it.o.a l
      let n := it.src .s32 it.o.b l
      let r := flushOut it.flush fm (fm.scale (.ofRM rm) (fm.decode a.v) (scaleExp n.v))
      ⟨r.bits, r.fl, a.pois || n.pois⟩

/-- Two elements, each its own operation (R221): FLUSH does not apply. -/
def packed (it : Iss) (s : State) (f : Fmt → Nat → Nat → Nat → FRes) : State :=
  let fm := tyFmt it.o.ty
  fvalue it s it.o.ty fun l =>
    let a := it.src it.o.ty it.o.a l
    let b := it.src it.o.ty it.o.b l
    let c := it.src it.o.ty it.o.c l
    let r0 := f fm (fld a.v 0 16) (fld b.v 0 16) (fld c.v 0 16)
    let r1 := f fm (fld a.v 16 16) (fld b.v 16 16) (fld c.v 16 16)
    ⟨r0.bits + 65536 * r1.bits, r0.fl ||| r1.fl, a.pois || b.pois || c.pois⟩

/-- `hadd2` (R221). -/
def execHadd2 (o : Opnds) (rm : RM) (s : State) : Host.Outcome State Fault Refusal :=
  issue (.hadd2 o rm) s fun it s => packed it s fun f a b _ => f.add (.ofRM rm) (f.decode a) (f.decode b)

/-- `hmul2` (R221). -/
def execHmul2 (o : Opnds) (rm : RM) (s : State) : Host.Outcome State Fault Refusal :=
  issue (.hmul2 o rm) s fun it s => packed it s fun f a b _ => f.mul (.ofRM rm) (f.decode a) (f.decode b)

/-- `hfma2` (R221). -/
def execHfma2 (o : Opnds) (rm : RM) (s : State) : Host.Outcome State Fault Refusal :=
  issue (.hfma2 o rm) s fun it s =>
    packed it s fun f a b c => f.fma (.ofRM rm) (f.decode a) (f.decode b) (f.decode c)

/-- `hmin2` (R221). -/
def execHmin2 (o : Opnds) (nan : Bool) (s : State) : Host.Outcome State Fault Refusal :=
  issue (.hmin2 o nan) s fun it s => packed it s fun f a b _ => f.minmax false nan a b

/-- `hmax2` (R221). -/
def execHmax2 (o : Opnds) (nan : Bool) (s : State) : Host.Outcome State Fault Refusal :=
  issue (.hmax2 o nan) s fun it s => packed it s fun f a b _ => f.minmax true nan a b

/-- A conversion format: floating, or an integer with its width and sign (R222). -/
inductive CFmt where
  | float (f : Fmt)
  | int (w : Nat) (signed : Bool)
  deriving DecidableEq, Repr

/-- The format of a code (R222). -/
def cfmtOf : CvtFmt → CFmt
  | .s32 => .int 32 true
  | .n32 => .int 32 false
  | .s64 => .int 64 true
  | .n64 => .int 64 false
  | .f64 => .float fmt64
  | .f32 => .float fmt32
  | .fp16 => .float fmt16
  | .bf16 => .float fmtB16
  | .e4m3 => .float fmtE4
  | .e5m2 => .float fmtE5
  | .e2m1 => .float fmtE2
  | .s16 => .int 16 true
  | .n16 => .int 16 false
  | .s8 => .int 8 true
  | .n8 => .int 8 false
  | .s4 => .int 4 true

/-- Width of a conversion format. -/
def CFmt.width : CFmt → Nat
  | .float f => f.width
  | .int w _ => w

/-- The column of R45 that SFMT selects (R223), which also gives the source's width. -/
def srcTy : CvtFmt → Ty
  | .s32 | .n32 => .s32
  | .s64 => .s64
  | .n64 => .n64
  | .f64 => .f64
  | .f32 => .f32
  | .fp16 => .f16x2
  | .bf16 => .bf16x2
  | .s16 | .n16 => .s16x2
  | .s8 | .n8 => .s8x4
  | .e4m3 | .e5m2 | .e2m1 | .s4 => .b32

/-- The registers of a destination format. -/
def dstTy (c : CFmt) : Ty := if c.width = 64 then .b64 else .b32

/-- Least and greatest value of an integer format. -/
def intBounds (w : Nat) (signed : Bool) : Int × Int :=
  if signed then (-((2 ^ (w - 1) : Nat) : Int), ((2 ^ (w - 1) - 1 : Nat) : Int)) else (0, ((2 ^ w - 1 : Nat) : Int))

/-- An integer pattern's value. -/
def intValue (w : Nat) (signed : Bool) (x : Nat) : Int := if signed then toSigned w x else fld x 0 w

/-- One conversion (R223): the destination's pattern in its own width. An integer is rounded to a floating format, never
saturated. -/
def convertOne (dst src : CFmt) (mode : RMode) (sat flush : Bool) (x : Nat) : FRes :=
  match src, dst with
  | .float f, .float g =>
    flushOut flush g (g.convert mode (sat && f != g) (f.decode (flushIn flush f x)))
  | .float f, .int w sg => toInt mode w (intBounds w sg).1 (intBounds w sg).2 (f.decode (flushIn flush f x))
  | .int w sg, .float g => flushOut flush g (g.convert mode false (ofInt (intValue w sg x)))
  | .int w sg, .int w2 sg2 =>
    let v := intValue w sg x
    ⟨wrapBits w2 (if sat then clampInt (intBounds w2 sg2).1 (intBounds w2 sg2).2 v else v), 0⟩

/-- The destination extension of R222. -/
def extendTo (dst : CFmt) (x : Nat) : Nat :=
  match dst with
  | .int w true => wrapBits (max 32 w) (toSigned w x)
  | _ => x

/-- Rounding mode of a conversion (R220). -/
def Iss.cvtMode (it : Iss) (rm : RM) (usefmt : Bool) : RMode := if usefmt then rndOf it.w.run.fmt else .ofRM rm

/-- Saturation of a conversion (R220). -/
def Iss.cvtSat (it : Iss) (sat usefmt : Bool) : Bool := if usefmt then satOf it.w.run.fmt else sat

/-- The element of a narrow source (R223). -/
def pickElem (w a i : Nat) : Nat := if w < 32 then fld a (w * (i % (32 / w))) w else a

/-- The words of a source that word `h` of a conversion's result is computed from (R204, R223): the low bits of an integer, or a value
that stays as it is, word by word, but that the quiet bit of a NaN depends on all of it; else every word. -/
def cvtFrom (dst src : CFmt) (sat : Bool) (h : Nat) : List Nat :=
  match src, dst with
  | .int w sg, .int w2 sg2 => if sat && !(w == w2 && sg == sg2) then List.range (if w = 64 then 2 else 1) else if w = 64 then [h] else [0]
  | .float f, .float g => if f == g then upTo h else List.range (if src.width = 64 then 2 else 1)
  | _, _ => List.range (if src.width = 64 then 2 else 1)

/-- `cvt` (R223). -/
def execCvt (o : Opnds) (dfmt sfmt : CvtFmt) (rm : RM) (sat usefmt : Bool) (s : State) :
    Host.Outcome State Fault Refusal :=
  issue (.cvt o dfmt sfmt rm sat usefmt) s fun it s =>
    let dst := cfmtOf dfmt
    let src := cfmtOf sfmt
    let r := fun l => convertOne dst src (it.cvtMode rm usefmt) (it.cvtSat sat usefmt) it.flush
      (pickElem src.width (it.src (srcTy sfmt) it.o.a l).v (it.src .n32 it.o.b l).v)
    commit it s fun w => stickFstat
      (w.dputW (dstTy dst) it.o.d it.act fun h l => ⟨fld (extendTo dst (r l).bits) (32 * h) 32,
        (it.src .n32 it.o.b l).pois || (cvtFrom dst src (it.cvtSat sat usefmt) h).any fun g => (it.srcW (srcTy sfmt) it.o.a g l).pois⟩)
      (it.lanes.foldl (fun a l => a ||| (r l).fl) 0)

/-- The word `cvts` builds (R224): elements from a and b at POS, the rest from c. -/
def mergeWord (w pos x y c : Nat) : Nat :=
  let lo := 2 * w * pos
  c % 2 ^ lo + 2 ^ lo * (x + 2 ^ w * y) + c / 2 ^ (lo + 2 * w) * 2 ^ (lo + 2 * w)

/-- `cvts` (R224): FLUSH does not apply. -/
def execCvts (o : Opnds) (dfmt : CvtFmt) (pos : Fin 4) (rm : RM) (sat usefmt : Bool) (s : State) :
    Host.Outcome State Fault Refusal :=
  issue (.cvts o dfmt pos rm sat usefmt) s fun it s =>
    let dst := cfmtOf dfmt
    let one := fun x => convertOne dst (.float fmt32) (it.cvtMode rm usefmt) (it.cvtSat sat usefmt) false x
    fvalue it s .b32 fun l =>
      let a := it.src .f32 it.o.a l
      let b := it.src .f32 it.o.b l
      let c := it.src .b32 it.o.c l
      let x := one a.v
      let y := one b.v
      ⟨mergeWord dst.width pos.val x.bits y.bits c.v, x.fl ||| y.fl, a.pois || b.pois || c.pois⟩

/-- `packq` (R225): the 32 inputs of the block, inactive lanes +0. -/
def execPackq (o : Opnds) (s : State) : Host.Outcome State Fault Refusal :=
  issue (.packq o) s fun it s =>
    let xs := (List.range 32).map fun l => if it.act.getLsbD l then (it.src .f32 it.o.a l).v else 0
    let q := packN4X (rndOf it.w.run.fmt) (xs.map fmt32.decode)
    let pois := it.lanes.any fun l => (it.src .f32 it.o.a l).pois
    fvalue it s .b32 fun l =>
      ⟨if l < 4 then joinElems 8 ((q.bytes.drop (4 * l)).take 4) else if l = 4 then q.scale else 0, q.fl, pois⟩

/-- `unpq` (R226): A is read in lanes 0 to 4 whatever their state. -/
def execUnpq (o : Opnds) (s : State) : Host.Outcome State Fault Refusal :=
  issue (.unpq o) s fun it s =>
    let a := (List.range 5).map fun l => it.src .f32 it.o.a l
    let word := fun l => ((a[l]?).getD ⟨0, false⟩).v
    let bytes := (List.range 16).map fun i => fld (word (i / 4)) (8 * (i % 4)) 8
    let pois := a.any PV.pois
    let bad := if malformedN4X bytes then fFormat else 0
    fvalue it s .b32 fun l =>
      let r := unpackElem bytes (word 4 % 256) l
      ⟨r.bits, r.fl ||| bad, pois⟩

/-- maxf of R227. -/
def scaleTop : CvtFmt → Nat
  | .e4m3 => 448
  | .e5m2 => 57344
  | .e2m1 => 6
  | .s8 => 127
  | _ => 7

/-- `escale` on a value (R227). -/
def scaleBy (tfmt : CvtFmt) (opn : EscOp) (a b : Nat) : FRes :=
  let x := fmt32.decode a
  let k : Int := (b % 256 : Nat)
  match opn with
  | .derive => deriveScale (scaleTop tfmt) x
  | .div => if b % 256 = 0xFF then ⟨fmt32.canonNaN, fInvalid⟩ else fmt32.scale .rne x (127 - k)
  | .mul => if b % 256 = 0xFF then ⟨fmt32.canonNaN, fInvalid⟩ else fmt32.scale .rne x (k - 127)

/-- `escale` (R227). -/
def execEscale (o : Opnds) (tfmt : CvtFmt) (opn : EscOp) (s : State) : Host.Outcome State Fault Refusal :=
  issue (.escale o tfmt opn) s fun it s =>
    fvalue it s .b32 fun l =>
      let a := it.src .f32 it.o.a l
      let b := it.src .n32 it.o.b l
      let r := scaleBy tfmt opn a.v b.v
      ⟨r.bits, r.fl, a.pois || b.pois⟩

end Sys2Proof.Machine
end

