-- ==== Sys2Proof/Machine/Memory.lean ====
section
/-! DEFINITION. Class 0x7, loads, stores, reservations, cache control (R261 to R274), and `sld` (R192). -/

namespace Sys2Proof.Machine

/-- A sum of address terms with their poison. -/
def addPV (bits : Nat) (a b : PV) (off : Nat) : PV := ⟨(a.v + b.v + off) % 2 ^ bits, a.pois || b.pois⟩

/-- The clause constant as an offset when C is 0xE1 (R263). -/
def Iss.koff (it : Iss) (bits : Nat) : Nat := if it.o.c = .k then (it.k.signExtend bits).toNat else 0

/-- The index term (R263): sign-extended under IXS. -/
def Iss.index (it : Iss) (ixs : Bool) (l : Nat) : PV :=
  let b := it.src .b32 it.o.b l
  if it.o.b = .zero then ⟨0, false⟩ else if ixs then ⟨wrapBits 64 (toSigned 32 b.v), b.pois⟩ else b

/-- `ea` of a global access (R263). -/
def Iss.ea (it : Iss) (ixs : Bool) (l : Nat) : PV :=
  addPV 64 (it.src .b64 it.o.a l) (it.index ixs l) (it.koff 64)

/-- The address of `lds` and `sts` (R263). -/
def Iss.ea32 (it : Iss) (l : Nat) : PV := addPV 32 (it.src .b32 it.o.a l) (it.src .b32 it.o.b l) (it.koff 32)

/-- What the checks of R264 find in a lane: the target, or the cause at its step. -/
abbrev LaneChk (α : Type) := Nat × Nat × Except Flt α

/-- The lanes without a fault, and the handler cause that is raised after they have acted: cause, lanes, address (R264). -/
structure Checked (α : Type) where
  ok : List (Nat × α)
  later : Option (Flt × Word × Nat)

/-- The fault of a lane's check. -/
def chkFlt {α : Type} (c : LaneChk α) : Option Flt :=
  match c.2.2 with
  | .error f => some f
  | .ok _ => none

/-- The mask of the lanes whose check gives a fault that satisfies a test. -/
def chkMask {α : Type} (cs : List (LaneChk α)) (f : Flt → Bool) : Word :=
  maskOf fun l => cs.any fun c => c.1 == l && ((chkFlt c).map f).getD false

/-- The fatal fault that R264 reports: the first step, then the lowest lane; its address. -/
def fatalOf {α : Type} (cs : List (LaneChk α)) : Option (Flt × Nat) :=
  cs.foldl (fun best c =>
    match chkFlt c with
    | none => best
    | some f =>
      if f.handler then best
      else match best with
        | none => some (f, c.2.1)
        | some (g, a) => if f.step < g.step then some (f, c.2.1) else some (g, a)) none

/-- The handler fault of the lowest faulting lane. -/
def handlerOf {α : Type} (cs : List (LaneChk α)) : Option (Flt × Word × Nat) :=
  match cs.find? fun c => (chkFlt c).isSome with
  | none => none
  | some c =>
    match chkFlt c with
    | some f => some (f, chkMask cs fun _ => true, c.2.1)
    | none => none

/-- The lanes that passed. -/
def okLanes {α : Type} (cs : List (LaneChk α)) : List (Nat × α) :=
  cs.filterMap fun c => match c.2.2 with
    | .ok x => some (c.1, x)
    | .error _ => none

/-- The number of the free choice a lane's translation uses. -/
def laneFree (s : State) (l : Nat) : Nat := s.free * 64 + 2 * l

/-- A word that stops at a step of R264 after its lanes' addresses were translated has filled the caches (R240). -/
def walkLanes {α : Type} (it : Iss) (s : State) (step : Nat) (cs : List (LaneChk α)) : State :=
  if 4 ≤ step then cs.foldl (fun s c => s.walked it.ctx c.2.1 (laneFree s c.1)) s else s

/-- R264: a fatal cause traps the word with no lane acting; handler causes are left for after the other lanes. -/
def checked {α : Type} (it : Iss) (s : State) (cs : List (LaneChk α)) (k : Checked α → State) : State :=
  match fatalOf cs with
  | some (f, a) => raise it (walkLanes it s f.step cs) f.cause f.sub (chkMask cs fun g => g == f) a
  | none => k ⟨okLanes cs, handlerOf cs⟩

/-- Steps 1 to 3 of R264 for a global address. -/
def chkAddr (a : PV) (n : Nat) : Except Flt Unit :=
  if a.pois then .error ⟨1, .poison, 0⟩
  else if 2 ^ 56 ≤ a.v then .error ⟨2, .address, 0⟩
  else if a.v % n != 0 then .error ⟨3, .misaligned, 0⟩
  else .ok ()

/-- Steps 1 to 6 of R264 for a global access of a lane. -/
def chkGlobal (it : Iss) (s : State) (k : AccKind) (n : Nat) (ea : Nat → PV) (l : Nat) : LaneChk Tgt :=
  (l, (ea l).v, match chkAddr (ea l) n with
    | .error f => .error f
    | .ok _ => s.access it.ctx (ea l).v (laneFree s l) k)

/-- Steps 1 to 3 of R264 for a scratchpad access of a lane (R235). -/
def chkScratch (it : Iss) (s : State) (n : Nat) (ea : Nat → PV) (l : Nat) : LaneChk (Option Nat × Nat) :=
  (l, (ea l).v,
    if (ea l).pois then .error ⟨1, .poison, 0⟩
    else match scrAddr s it.blk (ea l).v n with
      | none => .error ⟨2, .address, 0⟩
      | some p => if (ea l).v % n != 0 then .error ⟨3, .misaligned, 0⟩ else .ok p)

/-- Whether a watchpoint of the context matches a range (R426, R428). -/
def watched (s : State) (ctx : Nat) (scratch read write : Bool) (a n : Nat) : Bool :=
  match s.ctx ctx with
  | none => false
  | some c => (List.range 4).any fun j =>
    let ctl := (sget 0 c.wp (2 * j + 1)).toNat
    let lo := (sget 0 c.wp (2 * j)).toNat % 2 ^ 56
    (fld ctl 7 1 == 1) == scratch && ((read && fld ctl 5 1 == 1) || (write && fld ctl 6 1 == 1))
      && decide (lo < a + n ∧ a < lo + 2 ^ fld ctl 0 5)

/-- The lanes whose accesses a watchpoint matches. -/
def watchLanes (it : Iss) (s : State) (scratch read write : Bool) (ea : Nat → PV) (n : Nat) : Word :=
  it.maskWhere fun l => watched s it.ctx scratch read write (ea l).v n

/-- Whether an access of an active lane waits for a link that is being reset (R260). -/
def waitsForLink (it : Iss) (s : State) (ea : Nat → PV) : Bool :=
  s.dev.links.any (fun e => e.2.retrain.isSome) && it.lanes.any fun l =>
    match s.access it.ctx (ea l).v (laneFree s l) ⟨false, false, some it.blk⟩ with
    | .ok t => linkWaits s t.key
    | .error _ => false

/-- WATCH before any lane acts (R428), otherwise go on; over a link that is being reset the access waits (R260). -/
def watchFirst (it : Iss) (s : State) (scratch read write : Bool) (ea : Nat → PV) (n : Nat) (k : State) : State :=
  if !scratch && waitsForLink it s ea then s
  else
  let m := watchLanes it s scratch read write ea n
  match lanesOf m with
  | l :: _ => raise it s .watch 0 m (ea l).v
  | [] => k

/-- The trap of the lanes that faulted, after the others have acted (R264). -/
def raiseLater (it : Iss) (s : State) (later : Option (Flt × Word × Nat)) : State :=
  match later with
  | none => s
  | some (f, m, a) => raise it s f.cause f.sub m a

/-- Requests of an outstanding operation that went beyond the bank array, one a lane: scratchpad loads stay inside it (R247). -/
def Pend.requests (p : Pend) : Nat :=
  match p.kind with
  | .mat _ => 0
  | .mem | .peer _ =>
    if p.src.isEmpty then (p.vw.map fun e => e.2.1).eraseDups.length + (if p.sw.isEmpty then 0 else 1)
    else (p.src.filter fun x => match x.spot with | .mem _ => true | .scr _ _ => false).length

/-- Miss-status entries of a warp: its loads, and its stores to memory that no agent sees yet (R247). -/
def missOf (w : Warp) : Nat :=
  (w.pend.map Pend.requests).sum + (w.sbuf.filter fun b => !b.bytes.isEmpty && match b.spot with | .mem _ => true | .scr _ _ => false).length

/-- Entries that the copy engine holds: one for each command that moves, 2,048 at most (R247). -/
def missCopies (s : State) (core : Nat) : Nat := min 2048 ((s.core core).copies.filter fun c => c.started.isSome).length

/-- Miss-status entries in use on a core. -/
def missUsed (s : State) (core : Nat) : Nat := (s.warpsOn core).foldl (fun n e => n + missOf e.2) (missCopies s core)

/-- Whether a freed entry is reserved for another warp (R247). -/
def missKept (s : State) (core wid : Nat) : Nat :=
  match (s.core core).missResv with
  | some (x, _) => if x = wid then 0 else 1
  | none => 0

/-- An access that finds no free entry is rejected back to its warp, and issues again later (R247). -/
def orReject (it : Iss) (s : State) (n : Nat) (k : State) : State :=
  if n = 0 ∨ missUsed s it.core + n + missKept s it.core it.wid ≤ 4096 then k
  else
    (count s it.core evMissReject).modWarp it.wid fun w =>
      { w with wait := some .reissue
               sched := { w.sched with missWait := some (w.sched.missWait.getD s.dev.now) } }

/-- A word that got its miss-status entry waits no more (R247). -/
def Warp.unmiss (w : Warp) : Warp := { w with sched := { w.sched with missWait := none } }

/-- The loads of lanes that passed are outstanding, on the flag of the word; the word goes on unless lanes faulted
(R36, R264). -/
def loadEnd (it : Iss) (s : State) (kind : PendKind) (vw : List (Nat × Nat × PWord)) (src : List LoadSrc) (done : Bool)
    (later : Option (Flt × Word × Nat)) : State :=
  match later with
  | none => pendLong it s kind vw [] src
  | some _ =>
    let s1 := if done then s.modWarp it.wid fun w => { w with pend := w.pend ++ [⟨flagOf it.w it.o.fsel, kind, vw, [], src, 0, []⟩] }
      else s
    raiseLater it s1 later

/-- Where loads come from: the lanes whose data travel over a link, with its port (R260). -/
def loadKind (s : State) (ok : List (Nat × Tgt)) : PendKind :=
  match ok.filterMap fun x => (linkOf s x.2.key).map fun p => (x.1, p) with
  | [] => .mem
  | ps => .peer ps

/-- Whether the bytes at a target are poisoned on a page whose policy is to trap at the load (R265). -/
def trapsAtLoad (s : State) (blk : Nat) (t : Tgt) (n : Nat) : Bool := t.ppol && (loadGlobal s blk t n).2

/-- The lanes' translations retire: TLB entries and TCH bits (R238, R240). -/
def usedLanes (it : Iss) (s : State) (ea : Nat → PV) (ok : List (Nat × Tgt)) : State :=
  (ok.foldl (fun s x => s.used it.ctx (ea x.1).v x.2) s).takeFree

/-- The parts of an access of `n` bytes that are one event each: 16 B are two of 8 B (R267). -/
def parts8 (n : Nat) : List (Nat × Nat) := if n = 16 then [(0, 8), (8, 8)] else [(0, n)]

/-- The times of others' writes to a range that a core may still read from before (R332). -/
def Core.writesTo (c : Core) (key n : Nat) : List Nat :=
  ((List.range n).flatMap fun i => (sget [] c.old (key + i)).map OldByte.at_).eraseDups

/-- The bytes of a range as they were before a time, where a core may still read them so: `now` is what is there. -/
def Core.asOf (c : Core) (key n t : Nat) (now : List Byte) : List Byte :=
  (List.range n).map fun i =>
    match ((sget [] c.old (key + i)).filter fun x => decide (t ≤ x.at_)).getLast? with
    | some x => x.val
    | none => now[i]?.getD 0

/-- Whether a load may read from before others' writes: a weak one, one whose scope names no other core, one of HOST memory, or
one that may take effect before an older load that is outstanding; an acquire never does (R327, R331 to R333). -/
def mayLag (s : State) (it : Iss) (ord : LdOrd) (sc : Scope) (key : Nat) : Bool :=
  ord != .acq && (ord == .weak || !wideScope s it.wid sc || decide (2 ≤ key / 2 ^ 48) || it.w.pend.any Pend.isLoad)

/-- What one event of a load finds: its bytes, the time it took effect, and the time before which it saw every write. -/
structure Sight where
  bytes : List Byte
  at_ : Nat
  seen : Nat
  deriving DecidableEq, Repr

/-- The writes to a range that a load may read from before (R327, R332, R333): those after the loads its address comes from; for a
strong one whose scope names other cores, of a bounded time ago. -/
def lagTimes (s : State) (it : Iss) (ord : LdOrd) (sc : Scope) (floor key n : Nat) : List Nat :=
  if mayLag s it ord sc key then
    ((s.core it.core).writesTo key n).filter fun t =>
      decide (floor < t) && (ord == .weak || !wideScope s it.wid sc || decide (s.dev.now < t + Config.strongLag))
  else []

/-- A load's event on a range of at most 8 B (R326, R332): the bytes there, or as they were before one of the writes it may read from
before, by a free choice, with the block's provisional ones. Its bytes are those of one moment: DESIGN CHOICE (notes/assumptions/143).
`floor` is the time of the loads its address comes from. The time of a HOST load that is no acquire orders nothing but what depends
on those (R331). -/
def sightOf (s : State) (it : Iss) (ord : LdOrd) (sc : Scope) (floor key n : Nat) : Sight :=
  let stamp := fun t => if ord != .acq && decide (2 ≤ key / 2 ^ 48) then floor else t
  let ts := lagTimes s it ord sc floor key n
  match ts[Config.freeNat s.free (key / 8) % (ts.length + 1)]? with
  | some t =>
    let bs := (s.core it.core).asOf key n t (s.mem.bytesUnder (s.keyId it.ctx) s.free key n)
    ⟨match s.block it.blk with
      | some b => (List.range n).map fun i => provByte b (key + i) (bs[i]?.getD 0)
      | none => bs, stamp (t - 1), t⟩
  | none => ⟨(loadKey s it.blk key n).1, stamp s.dev.now, s.dev.now + 1⟩

/-- What a lane's load finds: the events of its parts. -/
def laneSights (s : State) (it : Iss) (ord : LdOrd) (sc : Scope) (key n : Nat) : List (Nat × Nat × Sight) :=
  let floor := it.w.depOf (srcKeys it.instr it.w.run.fmt)
  (parts8 n).map fun p => (key + p.1, p.2, sightOf s it ord sc floor (key + p.1) p.2)

/-- After a load: its core reads nothing older than what it saw, and its destination comes from what took effect then (R326,
R327). -/
def sighted (it : Iss) (s : State) (xs : List (Nat × Nat × Sight)) : State :=
  if it.act = 0 then s
  else
  let t := xs.foldl (fun m x => max m x.2.2.at_) 0
  let s1 := if (s.core it.core).old.isEmpty then s
    else xs.foldl (fun s x => s.modCore it.core fun c => c.observe x.1 x.2.1 x.2.2.seen) s
  s1.modWarp it.wid fun w => { w with dep := (dstKeys it.instr).foldl (fun d k => Machine.sput 0 d k (max t (Machine.sget 0 d k))) w.dep }

/-- A lane's and its core's earlier stores to the bytes of an access reach memory first (R326). -/
def settleLanes (it : Iss) (s : State) (ok : List (Nat × Tgt)) (n : Nat) : State :=
  ok.foldl (fun s x => settle s it.wid x.2.key n) s

/-- The line of an access marked as a last use leaves the L1, written back if it is dirty (R261). -/
def lastUse (it : Iss) (s : State) (cache : CacheHint) (ok : List (Nat × Tgt)) : State :=
  if cache = .lu then ok.foldl (fun s x =>
    (landDirty s it.core fun b => match b.spot with | .mem k => lineOf k == lineOf x.2.key | .scr _ _ => false).modCore it.core
      fun c => c.refreshLines x.2.key 1) s
  else s

/-- The sources of a load whose destination is a vector register (R148). -/
def loadSrcs (it : Iss) (w : MemW) (ok : List (Nat × Spot)) : List LoadSrc :=
  match it.o.d with
  | .v r => ok.map fun x => ⟨x.1, x.2, w, r.val⟩
  | _ => []

/-- An acquire load's effect after it (R241, R327). -/
def acquired (it : Iss) (s : State) (ord : LdOrd) (sc : Scope) : State :=
  if ord = .acq ∧ it.act ≠ 0 then acquireAt s it.wid sc else s

/-- A global load (R264, R265, R267): POISON at the load where the page says so. `after` follows what the load does to the lanes
that passed; `spec` says that a promoted warp may have to replay it (R148). -/
def globalLoad (it : Iss) (s0 : State) (w : MemW) (vs : Bool) (ea : Nat → PV) (ord : LdOrd) (sc : Scope) (cache : CacheHint)
    (spec : Bool) (after : State → List (Nat × Tgt) → State) : State :=
  let n := memBytes w
  checked it s0 (it.lanes.map fun l => chkGlobal it s0 ⟨false, vs, some it.blk⟩ n ea l) fun r =>
    let s := settleLanes it s0 r.ok n
    match r.ok.find? fun x => trapsAtLoad s it.blk x.2 n with
    | some x => raise it s .poison 0 (maskOf fun l => r.ok.any fun y => y.1 == l && trapsAtLoad s it.blk y.2 n) (ea x.1).v
    | none =>
      watchFirst it s false true false ea n
        (orReject it s r.ok.length
          (let got := r.ok.map fun x => (x, laneSights s it ord sc x.2.key n)
          let vw := got.flatMap fun g =>
            laneWords it.o.d g.1.1 (loadWords w (g.2.flatMap fun p => p.2.2.bytes) fun _ => (loadGlobal s it.blk g.1.2 n).2)
          let src := if spec then loadSrcs it w (r.ok.map fun x => (x.1, .mem x.2.key)) else []
          let s1 := sighted it ((after (usedLanes it s ea r.ok) r.ok).modWarp it.wid Warp.unmiss) (got.flatMap Prod.snd)
          acquired it (loadEnd it (lastUse it s1 cache r.ok) (loadKind s r.ok) vw src (!r.ok.isEmpty) r.later) ord sc))

/-- `ld` (R265). -/
def execLd (o : Opnds) (w : MemW) (ord : LdOrd) (scope : Scope) (cache : CacheHint) (vs ixs : Bool) (s : State) :
    Host.Outcome State Fault Refusal :=
  issue (.ld o w ord scope cache vs ixs) s fun it s =>
    globalLoad it s w vs (it.ea ixs) ord scope cache (ord != .acq) fun s _ => s

/-- The granule that a reservation of a lane is held on: that of the shadow where the block has the vitrine of the address open for
writing (R270, R271). -/
def resvGranule (it : Iss) (s : State) (va : Nat) (l : Nat) (t : Tgt) : Nat :=
  if t.va = va ∧ t.leaf.bits 7 1 = 0 then t.key / 64
  else match s.access it.ctx va (laneFree s l) ⟨true, false, some it.blk⟩ with
    | .ok x => x.key / 64
    | .error _ => t.key / 64

/-- The core's earlier stores to the granules of some lanes reach memory before a reservation is taken there (R270). -/
def settleGranules (it : Iss) (s : State) (gs : List Nat) : State :=
  landDirty s it.core fun b => gs.any fun g => b.meets (64 * g) 64

/-- `ldr` (R270): a load that gives each lane a reservation on its granule. -/
def execLdr (o : Opnds) (w : MemW) (ord : LdOrd) (scope : Scope) (ixs : Bool) (s : State) :
    Host.Outcome State Fault Refusal :=
  issue (.ldr o w ord scope ixs) s fun it s =>
    globalLoad it s w false (it.ea ixs) .acq (if ord = .acq then scope else .wp) .dflt false fun s ok =>
      let gs := ok.map fun x => (x.1, resvGranule it s (it.ea ixs x.1).v x.1 x.2)
      (settleGranules it s (gs.map Prod.snd)).modWarp it.wid fun w =>
        { w with resv := gs.foldl (fun r x => aput x.1 x.2 r) w.resv }

/-- A word of a store's data field in a lane (R261, R266). -/
def Iss.dataWord (it : Iss) (d : Opd) (i l : Nat) : PWord :=
  match d with
  | .v r => it.w.vget (r.val + i) l
  | .s r => it.w.sget (r.val + i)
  | _ => PWord.zero

/-- A part of a lane's store, which is one event (R267): its offset, bytes, and the poison of its words. -/
structure Part where
  off : Nat
  bytes : List Byte
  pois : List Bool
  deriving DecidableEq, Repr

/-- The parts that a store of `n` bytes writes in a lane (R266, R267). -/
def Iss.dataParts (it : Iss) (d : Opd) (n l : Nat) : List Part :=
  (parts8 n).map fun p =>
    let ws := (List.range ((p.2 + 3) / 4)).map fun i => it.dataWord d (p.1 / 4 + i) l
    ⟨p.1, ws.flatMap fun x => leBytes (min p.2 4) x.val.toNat, ws.map PWord.pois⟩

/-- The bytes a store writes in a lane, and whether any word of them is poisoned. -/
def Iss.dataBytes (it : Iss) (d : Opd) (n l : Nat) : List Byte × Bool :=
  let ps := it.dataParts d n l
  (ps.flatMap Part.bytes, ps.any fun p => p.pois.any id)

/-- The block that is evicted where a block finds no room for provisional lines: the highest above it that is RUNNING_P and holds
some, in a gang that may be evicted (R111, R117). -/
def quotaVictim (s : State) (bn : Nat) : Option Nat :=
  match s.block bn with
  | none => none
  | some b =>
    let rank := fun (x : Block) => ((match s.gridOf x with | some g => g.regTime | none => 0), x.gid, x.idx)
    let above := fun (x y : Block) =>
      decide ((rank y).1 < (rank x).1) || ((rank y).1 == (rank x).1 && x.gid != y.gid && decide (y.gid < x.gid))
        || (x.gid == y.gid && decide (y.idx < x.idx))
    let cands := s.blocks.filter fun e =>
      e.2.ctx == b.ctx && e.2.st == .runningP && !e.2.plines.isEmpty && above e.2 b && !mixedGang s e.1
    (cands.foldl (fun (m : Option (Nat × Block)) e =>
      match m with
      | none => some e
      | some x => if above e.2 x.2 then some e else some x) none).map Prod.fst

/-- See `quotaVictim`. -/
def quotaEvict (s : State) (bn : Nat) : State :=
  match quotaVictim s bn with
  | some x => evictGang s x false false
  | none => s

/-- A store that finds no room for its provisional lines waits (R111). -/
def orQuota (it : Iss) (s : State) (keys : List (Nat × Nat)) (k : State) : State :=
  match s.block it.blk with
  | none => s
  | some b => if !b.isProv || quotaOk s b keys then k else quotaEvict (parkWait s it.wid .quota) it.blk

/-- A store's end: the next word, or the trap of the lanes that faulted. -/
def storeEnd (it : Iss) (s : State) (later : Option (Flt × Word × Nat)) : State :=
  match later with
  | none => commit it s id
  | some _ => raiseLater it s later

/-- A store's part at a spot enters the warp's store buffer (R267, R326). -/
def Warp.bufferStore (w : Warp) (b : Buffered) : Warp := { w with sbuf := w.sbuf ++ [b] }

/-- A warp loses its reservations on the granules of a range (R270). -/
def Warp.loseResv (w : Warp) (key n : Nat) : Warp :=
  { w with resv := w.resv.filter fun r => !(decide (key / 64 ≤ r.2 ∧ r.2 ≤ (key + n - 1) / 64)) }

/-- A lane's global store (R107, R266, R267): provisional lines while the block is provisional; otherwise its parts enter the
store buffer, and the warp's own reservations on the granule are lost at once (R270). A release's write follows every earlier store of
its path for the agents of its scope, and is seen at once (R327). -/
def laneStore (it : Iss) (s : State) (rel : Bool) (reach : Nat) (t : Tgt) (ps : List Part) : State :=
  let bs := ps.flatMap Part.bytes
  match s.block it.blk with
  | none => s
  | some b =>
    if b.isProv || rel then storeGlobal s it.wid t bs (ps.any fun p => p.pois.any id)
    else s.modWarp it.wid fun w => ps.foldl (fun w p =>
      w.bufferStore ⟨.mem (t.key + p.off), p.bytes, p.pois, s.keyId it.ctx, it.wid, reach, s.dev.now, it.w.run.mask⟩)
      (w.loseResv t.key bs.length)

/-- How far a store is to be seen at once (R261, R323): a last use by everyone, a strong one by the agents of its scope. -/
def storeReach (s : State) (it : Iss) (ord : StOrd) (sc : Scope) (cache : CacheHint) : Nat :=
  if cache = .lu then 2 else if ord = .weak then 0 else reachOf s it.wid sc

/-- What a release store does before it (R241, R327). -/
def released (it : Iss) (s : State) (ord : StOrd) (sc : Scope) : State :=
  if ord = .rel ∧ it.act ≠ 0 then releaseAt s it.wid sc else s

/-- `st` (R266). -/
def execSt (o : Opnds) (w : MemW) (ord : StOrd) (scope : Scope) (cache : CacheHint) (ixs : Bool) (s : State) :
    Host.Outcome State Fault Refusal :=
  issue (.st o w ord scope cache ixs) s fun it s =>
    let n := memBytes w
    let ea := it.ea ixs
    checked it s (it.lanes.map fun l => chkGlobal it s ⟨true, false, some it.blk⟩ n ea l) fun r =>
      watchFirst it s false false true ea n
        (orQuota it s (r.ok.map fun x => (x.2.key, n))
          (orReject it s (r.ok.length * (parts8 n).length)
            (let s1 := r.ok.foldl (fun s x =>
                laneStore it s (ord == .rel) (storeReach s it ord scope cache) x.2 (it.dataParts it.o.d n x.1))
              (released it (s.modWarp it.wid Warp.unmiss) ord scope)
            storeEnd it (lastUse it (usedLanes it s1 ea r.ok) cache r.ok) r.later)))

/-- Words of a scratchpad load with their own poison (R265). -/
def scrPoisAt (s : State) (p : Option Nat × Nat) (n i : Nat) : Bool := (scrRead s (p.1, p.2 + 4 * i) (min n 4)).2

/-- Where a scratchpad place is, if its block is on its cores. -/
def scrSpot (p : Option Nat × Nat) : Option Spot := p.1.map fun b => .scr b p.2

/-- `lds` (R265). -/
def execLds (o : Opnds) (w : MemW) (ord : LdOrd) (scope : Scope) (s : State) : Host.Outcome State Fault Refusal :=
  issue (.lds o w ord scope) s fun it s =>
    let n := memBytes w
    checked it s (it.lanes.map fun l => chkScratch it s n it.ea32 l) fun r =>
      watchFirst it s true true false it.ea32 n
        (let s0 := r.ok.foldl (fun s x => settleScr s it.wid x.2 n) s
        let vw := r.ok.flatMap fun x => laneWords it.o.d x.1 (loadWords w (scrRead s0 x.2 n).1 fun i => scrPoisAt s0 x.2 n i)
        let src := if ord = .acq then [] else loadSrcs it w (r.ok.filterMap fun x => (scrSpot x.2).map fun p => (x.1, p))
        acquired it (pendLong it (sighted it s0.takeFree [(0, 0, ⟨[], s.dev.now, 0⟩)]) .mem vw [] src) ord scope)

/-- A part of a lane's scratchpad store enters the store buffer, or is written at once by a release (R266, R267, R327). -/
def partStore (it : Iss) (rel : Bool) (p : Option Nat × Nat) (s : State) (d : Part) : State :=
  match scrSpot (p.1, p.2 + d.off) with
  | none => s
  | some x =>
    let b : Buffered := ⟨x, d.bytes, d.pois, 0, it.wid, 2, s.dev.now, it.w.run.mask⟩
    if rel then s.land b else s.modWarp it.wid fun w => w.bufferStore b

/-- `sts` (R266). -/
def execSts (o : Opnds) (w : MemW) (ord : StOrd) (scope : Scope) (s : State) : Host.Outcome State Fault Refusal :=
  issue (.sts o w ord scope) s fun it s =>
    let n := memBytes w
    checked it s (it.lanes.map fun l => chkScratch it s n it.ea32 l) fun r =>
      watchFirst it s true false true it.ea32 n
        (commit it (r.ok.foldl (fun s x => (it.dataParts it.o.d n x.1).foldl (partStore it (ord == .rel) x.2) s)
          (released it s ord scope)) id)

/-- The size of a constant bank of a grid (R236). -/
def bankSize (g : Grid) (bank : Nat) : Nat := if bank = 0 then g.image.constBytes else if bank = 1 then 4096 else 0

/-- A byte of the constants section as it was at launch: one stored to since, or whose page could not be read then, is
unspecified (R236). -/
def constByte (s : State) (g : Grid) (off : Nat) : Byte :=
  match g.image.consts[off]? with
  | some b =>
    if g.image.constStored.contains off || !(g.image.constAt.any fun a => decide (a.1 ≤ off ∧ off < a.1 + a.2.2)) then
      Config.freeByte s.free off
    else b
  | none => Config.freeByte s.free off

/-- Whether a range of the constants section lies in a poisoned sector of memory (R470). -/
def constPois (s : State) (ctx : Nat) (g : Grid) (off n : Nat) : Bool :=
  g.image.constAt.any fun a =>
    let lo := max a.1 off
    let hi := min (a.1 + a.2.2) (off + n)
    decide (lo < hi) && s.mem.poisonedUnder (s.keyId ctx) (a.2.1 + (lo - a.1)) (hi - lo)

/-- The checks of an `ldc` in a lane (R236, R264): a byte offset in the bank. The constant space is not translated (R234). -/
def chkConst (it : Iss) (g : Grid) (bank n l : Nat) : LaneChk Nat :=
  let a := it.src .b32 it.o.a l
  let off := (a.v + it.koff 32) % 2 ^ 32
  (l, off,
    if a.pois then .error ⟨1, .poison, 0⟩
    else if bankSize g bank < off + n then .error ⟨2, .address, 0⟩
    else if off % n != 0 then .error ⟨3, .misaligned, 0⟩
    else .ok off)

/-- The words `ldc` reads at a checked offset of a bank (R236, R268). -/
def constWords (s : State) (ctx : Nat) (g : Grid) (w : MemW) (bank off : Nat) : List PWord :=
  let n := memBytes w
  if bank = 1 then loadWords w ((List.range n).map fun i => sget 0 g.params (off + i)) fun _ => false
  else loadWords w ((List.range n).map fun i => constByte s g (off + i)) fun _ => constPois s ctx g off n

/-- The uniform words of a value. -/
def uniWords (d : Opd) (ws : List PWord) : List (Nat × PWord) :=
  match d with
  | .s r => (List.range ws.length).map fun i => (r.val + i, (ws[i]?).getD PWord.zero)
  | _ => []

/-- `ldc` (R236, R268): with a uniform D once, when a lane is active. -/
def execLdc (o : Opnds) (w : MemW) (bank : Fin 16) (s : State) : Host.Outcome State Fault Refusal :=
  issue (.ldc o w bank) s fun it s =>
    match s.gridOfWarp it.wid with
    | none => commit it s id
    | some g =>
      checked it s (it.lanes.map fun l => chkConst it g bank.val (memBytes w) l) fun r =>
        let ws := fun off => constWords s it.ctx g w bank.val off
        let sw := match r.ok with
          | x :: _ => uniWords it.o.d (ws x.2)
          | [] => []
        orReject it s (if sw.isEmpty then r.ok.length else 1)
          (pendLong it (s.takeFree.modWarp it.wid Warp.unmiss) .mem (r.ok.flatMap fun x => laneWords it.o.d x.1 (ws x.2)) sw)

/-- One lane of `stc` (R271): earlier stores to its bytes act first; the store, seen at once, when the reservation stands, which every
lane's reservation on the granule ends with; and the status. -/
def stcLane (it : Iss) (n : Nat) (acc : State × List (Nat × Nat)) (x : Nat × Tgt) : State × List (Nat × Nat) :=
  let s := settle acc.1 it.wid x.2.key n
  let held := match s.warp it.wid with
    | some w => alook x.1 w.resv == some (x.2.key / 64)
    | none => false
  let d := it.dataBytes it.o.c n x.1
  let s1 := if held then clearResv (storeGlobal s it.wid x.2 d.1 d.2) x.2.key n else s
  (s1.modWarp it.wid fun w => { w with resv := adel x.1 w.resv }, acc.2 ++ [(x.1, if held then 1 else 0)])

/-- `stc` (R271): lanes in ascending order, status written at once. -/
def execStc (o : Opnds) (w : MemW) (ord : StOrd) (scope : Scope) (ixs : Bool) (s : State) :
    Host.Outcome State Fault Refusal :=
  issue (.stc o w ord scope ixs) s fun it s =>
    let n := memBytes w
    let ea := it.ea ixs
    let cs := it.lanes.map fun l => chkGlobal it s ⟨true, false, some it.blk⟩ n ea l
    checked it s cs fun r =>
      watchFirst it s false false true ea n
        (orReject it s r.ok.length
          (let q := r.ok.foldl (stcLane it n) (released it (s.modWarp it.wid Warp.unmiss) ord scope, [])
        let m := maskOf fun l => q.2.any fun e => e.1 == l
        let put := fun (w : Warp) => w.dput .b32 it.o.d m fun l =>
          ⟨((q.2.find? fun e => e.1 == l).map Prod.snd).getD 0, false⟩
        let s1 := usedLanes it q.1 ea r.ok
        match r.later with
        | none => commit it s1 put
        | some _ => raiseLater it (s1.modWarp it.wid put) r.later))

/-- The walks of some lanes fill the caches (R240). -/
def walkAll (it : Iss) (s : State) (ea : Nat → PV) (ls : List Nat) : State :=
  (ls.foldl (fun s l => s.walked it.ctx (ea l).v (laneFree s l)) s).takeFree

/-- `pref` (R272): no effect on any value, but for what the caches of translations keep (R240); it never traps. -/
def execPref (o : Opnds) (level : PrefLevel) (ixs : Bool) (s : State) : Host.Outcome State Fault Refusal :=
  issue (.pref o level ixs) s fun it s =>
    commit it (walkAll it s (it.ea ixs) (it.lanes.filter fun l => !(it.ea ixs l).pois && decide ((it.ea ixs l).v < 2 ^ 56))) id

/-- The checks of `cctl` in a lane: steps 1 to 4 of R264 (R273); a page under another key has no line in the L1. -/
def chkCctl (it : Iss) (s : State) (ixs : Bool) (l : Nat) : LaneChk (Option Nat) :=
  let a := it.ea ixs l
  (l, a.v, match chkAddr a 1 with
    | .error f => .error f
    | .ok _ =>
      match s.leaf it.ctx a.v (laneFree s l) with
      | .error f => .error f
      | .ok lf => .ok (if (permit (s.keyId it.ctx) false lf).isNone then some (lf.tgt a.v).key else none))

/-- Write a line of a core's L1 back, and drop it (R273). -/
def cctlLine (core : Nat) (inv : Bool) (s : State) (key : Nat) : State :=
  let s1 := landDirty s core fun b => match b.spot with | .mem k => lineOf k == lineOf key | .scr _ _ => false
  if inv then s1.modCore core fun c => c.refreshLines key 1 else s1

/-- `cctl` (R273): write-backs and invalidations of the L1. The warp's own stores have left its store buffer. -/
def execCctl (o : Opnds) (opr : CctlOp) (ixs : Bool) (s : State) : Host.Outcome State Fault Refusal :=
  issue (.cctl o opr ixs) s fun it s =>
    match opr with
    | .wball => commit it (if it.act = 0 then s else landDirty s it.core fun _ => true) id
    | .wbinvall => commit it (if it.act = 0 then s else (landDirty s it.core fun _ => true).modCore it.core Core.refresh) id
    | .wb | .wbinv => checked it s (it.lanes.map fun l => chkCctl it s ixs l) fun r =>
        storeEnd it (walkAll it ((r.ok.filterMap Prod.snd).foldl (cctlLine it.core (opr == .wbinv)) s) (it.ea ixs) (r.ok.map Prod.fst)) r.later

/-- `icinv` (R274): the warp's stores are visible; it waits until the line is dropped everywhere in its partition. -/
def execIcinv (o : Opnds) (s : State) : Host.Outcome State Fault Refusal :=
  issue (.icinv o) s fun it s =>
    if it.act = 0 then commit it s id
    else
      let a := addPV 64 (it.src .b64 it.o.a 0) ⟨0, false⟩ (it.koff 64)
      (landDirty s it.core fun _ => true).modWarp it.wid fun w => { w with wait := some (.icinv (BitVec.ofNat 64 a.v)) }

/-- The registers of `sld`'s WIDTH (R192). -/
def sldWidth : SldW → MemW
  | .b32 => .b32
  | .b64 => .b64
  | .b128 => .b128

/-- The address of `sld`: A + sext(b, 32) (R192). -/
def Iss.eaU (it : Iss) : PV :=
  let b := it.src .s32 it.o.b 0
  addPV 64 (it.src .b64 it.o.a 0) ⟨wrapBits 64 (toSigned 32 b.v), b.pois⟩ 0

/-- `sld` (R192): one access for the warp; a fault is one of every lane of the running path. -/
def execSld (o : Opnds) (w : SldW) (ord : LdOrd) (scope : Scope) (s : State) : Host.Outcome State Fault Refusal :=
  issue (.sld o w ord scope) s fun it s0 =>
    let n := memBytes (sldWidth w)
    let ea := fun _ => it.eaU
    let one := if it.act = 0 then [] else [chkGlobal it s0 ⟨false, false, some it.blk⟩ n ea 0]
    match fatalOf one, handlerOf one, okLanes one with
    | some (f, a), _, _ => raise it s0 f.cause f.sub it.act a
    | none, some (f, _, a), _ => raise it s0 f.cause f.sub it.act a
    | none, none, [] => commit it s0 id
    | none, none, x :: xs =>
      let s := settle s0 it.wid x.2.key n
      if trapsAtLoad s it.blk x.2 n then raise it s .poison 0 it.act it.eaU.v
      else
        watchFirst it s false true false ea n
          (orReject it s 1
            (let got := laneSights s it ord scope x.2.key n
            let ws := uniWords it.o.d (loadWords (sldWidth w) (got.flatMap fun p => p.2.2.bytes) fun _ => (loadGlobal s it.blk x.2 n).2)
            acquired it (pendLong it (sighted it ((usedLanes it s ea (x :: xs)).modWarp it.wid Warp.unmiss) got) (loadKind s [x]) [] ws)
              ord scope))

end Sys2Proof.Machine
end

