-- ==== Sys2Proof/Machine/Atomics.lean ====
section
/-! DEFINITION. Class 0xA: read-modify-write atomics (R342 to R348). -/

namespace Sys2Proof.Machine

/-- Where an atomic acts: a translated global address, or a scratchpad place. -/
inductive Place where
  | glob (t : Tgt)
  | scr (p : Option Nat × Nat)
  deriving DecidableEq, Repr

/-- Whether an atomic acquires, and whether it releases (R325, R345). -/
def acquires (o : AtOrd) : Bool := o == .acq || o == .acqrel

/-- See `acquires`. -/
def releases (o : AtOrd) : Bool := o == .rel || o == .acqrel

/-- Read a number and its poison at a place. -/
def readPlace (s : State) (wid : Nat) (p : Place) (n : Nat) : Nat × Bool :=
  match p with
  | .glob t =>
    let d := loadGlobal s (blkOf wid) t n
    (leNat d.1, d.2)
  | .scr a =>
    let d := scrRead s a n
    (leNat d.1, d.2)

/-- Write a number at a place. -/
def writePlace (s : State) (wid : Nat) (p : Place) (n x : Nat) (pois : Bool) : State :=
  match p with
  | .glob t => storeGlobal s wid t (leBytes n x) pois
  | .scr a => scrWrite s a (leBytes n x) pois

/-- One step of an atomic (R347). -/
def atomStep (opc : AtOp) (t : Ty) (v x : Nat) : Nat :=
  let w := tyW t
  let fm := tyFmt t
  let flt := t == .f32 || t == .f64
  let less := fun (a b : Nat) => if tyS t then decide (toSigned w a < toSigned w b) else decide (a < b)
  match opc with
  | .add => if flt then (fm.add .rne (fm.decode v) (fm.decode x)).bits else (v + x) % 2 ^ w
  | .min => if flt then (fm.minmax false false v x).bits else if less x v then x else v
  | .max => if flt then (fm.minmax true false v x).bits else if less v x then x else v
  | .and => v &&& x
  | .or => v ||| x
  | .xor => v ^^^ x
  | .exch => x
  | .inc => if x ≤ v then 0 else v + 1
  | .dec => if v = 0 ∨ x < v then x else v - 1

/-- What a lane of a group gets back: lane, old value, poison. -/
abbrev Old := Nat × Nat × Bool

/-- The lanes of a group in ascending order: the value left, its poison, the old values (R347). -/
def rmwGroup (step : Nat → Nat → Nat) (pois : Nat → Bool) (v0 : Nat) (p0 : Bool) (ls : List Nat) : Nat × Bool × List Old :=
  ls.foldl (fun a l => (step l a.1, a.2.1 || pois l, a.2.2 ++ [(l, a.1, a.2.1)])) (v0, p0, [])

/-- The groups of lanes with one address, each one read-modify-write (R347). The groups of an atomic act in one step, one after the
other: DESIGN CHOICE (notes/assumptions/144). -/
def rmwAll (s : State) (wid n : Nat) (ok : List (Nat × Nat × Place)) (step : Nat → Nat → Nat) (pois : Nat → Bool) :
    State × List Old :=
  ((ok.map fun x => x.2.1).eraseDups).foldl (fun a addr =>
    let g := ok.filter fun x => x.2.1 == addr
    match g with
    | [] => a
    | (_, _, p) :: _ =>
      let v := readPlace a.1 wid p n
      let r := rmwGroup step pois v.1 v.2 (g.map Prod.fst)
      (writePlace a.1 wid p n r.1 r.2.1, a.2 ++ r.2.2)) (s, [])

/-- The words of old values in D. -/
def oldWords (d : Opd) (n : Nat) (os : List Old) : List (Nat × Nat × PWord) :=
  os.flatMap fun o => laneWords d o.1
    ((List.range (n / 4)).map fun i => ⟨BitVec.ofNat 32 (fld o.2.1 (32 * i) 32), o.2.2⟩)

/-- The address of a global atomic in a lane (R346). -/
def Iss.eaAtom (it : Iss) (koff : Bool) (l : Nat) : PV :=
  addPV 64 (it.src .b64 it.o.a l) ⟨0, false⟩ (if koff then (it.k.signExtend 64).toNat else 0)

/-- The address of a scratchpad atomic in a lane (R346). -/
def Iss.eaAtoms (it : Iss) (koff : Bool) (l : Nat) : PV :=
  addPV 32 (it.src .b32 it.o.a l) ⟨0, false⟩ (if koff then it.k.toNat else 0)

/-- What surrounds an atomic's effect (R326, R327): the warp's and core's earlier stores to its bytes are in memory and, for a
release, all of its earlier accesses; its core then has nothing older of its lines. -/
def beforeAtom (it : Iss) (s : State) (ord : AtOrd) (scope : Scope) (ok : List (Nat × Tgt)) (n : Nat) : State :=
  let s1 := if releases ord ∧ it.act ≠ 0 then releaseAt s it.wid scope else s
  sighted it (settleLanes it s1 ok n) (ok.map fun x => (x.2.key, n, ⟨[], s.dev.now, s.dev.now + 1⟩))

/-- See `beforeAtom`: an acquire orders what follows. -/
def afterAtom (it : Iss) (s : State) (ord : AtOrd) (scope : Scope) : State :=
  if acquires ord ∧ it.act ≠ 0 then acquireAt s it.wid scope else s

/-- The checks of R264 on every lane of a global atomic, then `k` on the targets; `write` is false for `rdc` (R346). -/
def globalRmw (it : Iss) (s : State) (koff write : Bool) (n : Nat) (ord : AtOrd) (scope : Scope)
    (k : State → List (Nat × Nat × Place) → Option (Flt × Word × Nat) → State) : State :=
  let ea := it.eaAtom koff
  checked it s (it.lanes.map fun l => chkGlobal it s ⟨write, false, some it.blk⟩ n ea l) fun r =>
    watchFirst it s false true true ea n
      (orReject it s r.ok.length
        (afterAtom it (k ((usedLanes it (beforeAtom it s ord scope r.ok n) ea r.ok).modWarp it.wid Warp.unmiss)
          (r.ok.map fun x => (x.1, (ea x.1).v, .glob x.2)) r.later) ord scope))

/-- The same for a scratchpad atomic. -/
def scratchRmw (it : Iss) (s : State) (koff : Bool) (n : Nat) (ord : AtOrd) (scope : Scope)
    (k : State → List (Nat × Nat × Place) → State) : State :=
  let ea := it.eaAtoms koff
  checked it s (it.lanes.map fun l => chkScratch it s n ea l) fun r =>
    watchFirst it s true true true ea n
      (let s1 := r.ok.foldl (fun s x => settleScr s it.wid x.2 n) (beforeAtom it s ord scope [] n)
      afterAtom it (k (sighted it s1.takeFree [(0, 0, ⟨[], s.dev.now, 0⟩)]) (r.ok.map fun x => (x.1, (ea x.1).v, .scr x.2))) ord scope)

/-- The step of an operation in a lane. -/
def Iss.opStep (it : Iss) (opc : AtOp) (l v : Nat) : Nat := atomStep opc it.o.ty v (it.src it.o.ty it.o.b l).v

/-- The step of a compare-and-swap in a lane (R347). -/
def Iss.casStep (it : Iss) (l v : Nat) : Nat :=
  if v = (it.src it.o.ty it.o.b l).v then (it.src it.o.ty it.o.c l).v else v

/-- Whether the data of a lane are poisoned. -/
def Iss.poisB (it : Iss) (l : Nat) : Bool := (it.src it.o.ty it.o.b l).pois

/-- Whether the compare or new word of a lane is poisoned. -/
def Iss.poisBC (it : Iss) (l : Nat) : Bool := (it.src it.o.ty it.o.b l).pois || (it.src it.o.ty it.o.c l).pois

/-- Bytes of the operation's type. -/
def Iss.tyBytes (it : Iss) : Nat := tyW it.o.ty / 8

/-- A returning global atomic. -/
def atomReturn (it : Iss) (s : State) (koff : Bool) (ord : AtOrd) (scope : Scope) (step : Nat → Nat → Nat) (pois : Nat → Bool) : State :=
  globalRmw it s koff true it.tyBytes ord scope fun s ok later =>
    let r := rmwAll s it.wid it.tyBytes ok step pois
    loadEnd it r.1 .mem (oldWords it.o.d it.tyBytes r.2) [] (!ok.isEmpty) later

/-- `atom` (R345 to R347). -/
def execAtom (o : Opnds) (opc : AtOp) (ord : AtOrd) (scope : Scope) (koff : Bool) (s : State) :
    Host.Outcome State Fault Refusal :=
  issue (.atom o opc ord scope koff) s fun it s => atomReturn it s koff ord scope (it.opStep opc) it.poisB

/-- `atomcas` (R347). -/
def execAtomcas (o : Opnds) (ord : AtOrd) (scope : Scope) (koff : Bool) (s : State) : Host.Outcome State Fault Refusal :=
  issue (.atomcas o ord scope koff) s fun it s => atomReturn it s koff ord scope it.casStep it.poisBC

/-- `red` (R347): no old value is returned. -/
def execRed (o : Opnds) (opc : AtOp) (ord : AtOrd) (scope : Scope) (koff : Bool) (s : State) :
    Host.Outcome State Fault Refusal :=
  issue (.red o opc ord scope koff) s fun it s =>
    globalRmw it s koff true it.tyBytes ord scope fun s ok later =>
      storeEnd it (rmwAll s it.wid it.tyBytes ok (it.opStep opc) it.poisB).1 later

/-- A returning scratchpad atomic. -/
def atomsReturn (it : Iss) (s : State) (koff : Bool) (ord : AtOrd) (scope : Scope) (step : Nat → Nat → Nat) (pois : Nat → Bool) : State :=
  scratchRmw it s koff it.tyBytes ord scope fun s ok =>
    let r := rmwAll s it.wid it.tyBytes ok step pois
    pendLong it r.1 .mem (oldWords it.o.d it.tyBytes r.2) []

/-- `atoms` (R347). -/
def execAtoms (o : Opnds) (opc : AtOp) (ord : AtOrd) (scope : Scope) (koff : Bool) (s : State) :
    Host.Outcome State Fault Refusal :=
  issue (.atoms o opc ord scope koff) s fun it s => atomsReturn it s koff ord scope (it.opStep opc) it.poisB

/-- `atomsc` (R347). -/
def execAtomsc (o : Opnds) (ord : AtOrd) (scope : Scope) (koff : Bool) (s : State) : Host.Outcome State Fault Refusal :=
  issue (.atomsc o ord scope koff) s fun it s => atomsReturn it s koff ord scope it.casStep it.poisBC

/-- Whether a binary32 pattern is finite. -/
def finite32 (x : Nat) : Bool := (fmt32.decode x).isFin

/-- `two_sum` (R348): the rounded sum and its exact error. -/
def twoSum (a b : Nat) : Nat × Nat :=
  let s1 := add32 a b
  if !finite32 s1 then (s1, 0)
  else
    let exact := (fvAdd .rne (fmt32.decode a) (fmt32.decode b)).1
    (s1, (fmt32.result .rne (fvAdd .rne exact (fmt32.decode s1).negate).1).bits)

/-- The warp side of `atomc` (R348): the group's sum and its error. -/
def warpSum : List Nat → Nat × Nat
  | [] => (0, 0)
  | x :: xs => xs.foldl (fun a y => ((twoSum a.1 y).1, add32 a.2 (twoSum a.1 y).2)) (x, 0)

/-- The memory side of `atomc` (R348) on the pair. -/
def pairAdd (pair t c : Nat) : Nat :=
  let r := twoSum (fld pair 0 32) t
  let e := if finite32 r.1 then add32 (fld pair 32 32) (add32 c r.2) else 0
  r.1 + 2 ^ 32 * e

/-- One group of `atomc`: lanes of one address. -/
def atomcGroup (it : Iss) (s : State) (p : Place) (ls : List Nat) : State :=
  let v := readPlace s it.wid p 8
  let r := warpSum (ls.map fun l => (it.src .f32 it.o.b l).v)
  writePlace s it.wid p 8 (pairAdd v.1 r.1 r.2) (v.2 || ls.any fun l => (it.src .f32 it.o.b l).pois)

/-- `atomc` (R348). -/
def execAtomc (o : Opnds) (ord : AtOrd) (scope : Scope) (koff : Bool) (s : State) : Host.Outcome State Fault Refusal :=
  issue (.atomc o ord scope koff) s fun it s =>
    globalRmw it s koff true 8 ord scope fun s ok later =>
      storeEnd it (((ok.map fun x => x.2.1).eraseDups).foldl (fun s addr =>
        match ok.filter fun x => x.2.1 == addr with
        | [] => s
        | (l, a, p) :: g => atomcGroup it s p (((l, a, p) :: g).map Prod.fst)) s) later

/-- `rdc` (R348): one read of the pair. -/
def execRdc (o : Opnds) (ord : AtOrd) (scope : Scope) (koff : Bool) (s : State) : Host.Outcome State Fault Refusal :=
  issue (.rdc o ord scope koff) s fun it s =>
    globalRmw it s koff false 8 ord scope fun s ok later =>
      let os : List Old := ok.map fun x =>
        let v := readPlace s it.wid x.2.2 8
        (x.1, add32 (fld v.1 0 32) (fld v.1 32 32), v.2)
      loadEnd it s .mem (oldWords it.o.d 4 os) [] (!ok.isEmpty) later

end Sys2Proof.Machine
end

