-- ==== Sys2Proof/Machine/Launchpad.lean ====
section
/-! DEFINITION. The state in which a program's first word is about to run, as the loading of an image and the launch of a
grid of one block of one warp leave it (R11, R77 to R94, R121, R157): what `State.withFetchWord` stands for. -/

namespace Sys2Proof.Machine

/-- A context with everything at the reset values of its words (R96, R110, R131, R156, R244, R412). -/
def CtxCfg.reset : CtxCfg :=
  { CtxCfg.zero with placeCfg := 0x00FF0A00, issueCfg := 0x000D0001, bankCfg := 0x0220, provCfg := 64,
                     traceCfg := 0x000A1408 }

/-- A context as created with a configuration and a key (R259). -/
def Ctx.fresh (cfg : CtxCfg) (key : Nat) : Ctx :=
  { cfg := cfg, eff := cfg, key := key, resident := true, cursor := 0, queues := [], vits := [], preds := [], units := [],
    rcnt := [], overflow := [], halted := false, dump := none, savePages := [],
    gidNext := 1, lastSweep := 0, tlb := [], bp := [], wp := [], traceOff := false, freedCores := [], childCores := [] }

/-- A descriptor of one block of one warp of a role (R85). -/
def Desc.one (counts : List Nat) : Desc :=
  { image := 0, paramAddr := 0, completion := 0, gx := 1, gy := 1, gz := 1, counts := counts,
    regs := [128, 128, 128, 128], scratch := 0, accGran := 0, gang := 1, prio := 4, flags := 0, fmtInit := 0, trace := 0,
    shapeAddr := 0, floor := 0, predict := 0, cap := 0, key := 0, margin := 0 }

/-- A grid that has started its blocks (R91). -/
def Grid.started (d : Desc) : Grid :=
  { desc := d, image := { codeBase := 0, constBase := 0, constBytes := 0, consts := [], constAt := [], constStored := [], entries := [none, none, none, none],
                          catBase := 0, catCount := 0, codeFirst := 0, codeBytes := 0 },
    params := [], status := .running, relaunches := 0, relaunching := [], failcode := 0, run := 0, trimmed := 0, tail := 0, start := 0, fin := 0,
    basePrio := 4, boost := 0, regTime := 0, agedFrom := 0, lastPlace := 0, depth := 1, parent := none, origin := none, bound := false,
    resolved := true, te := d.gx, pred := d.gx, next := d.gx * d.gy * d.gz, last := d.gx * d.gy * d.gz, joining := [],
    firstWave := false, joinWave := false, gbarPhase := 0, gbarArrived := [], gbarBroken := false, kills := [], lostOn := [], used := [],
    markSuspect := false, pendingRes := none, limbo := [], wasKilled := false }

/-- A block placed on some cores (R121 to R123). -/
def Block.placed (ctx gid idx nwarps : Nat) (cores : List Nat) (prov : Bool) (now : Nat) : Block :=
  { ctx := ctx, gid := gid, idx := idx, nwarps := nwarps, st := if prov then .runningP else .running, prov := prov,
    cores := cores, scr := [], scrPois := [], bars := [], mat := MatState.empty, locks := [], children := [], plines := [],
    ppois := [], preempt := none, sliceStart := now, savePages := [], savedCopies := [], exited := [], killed := false,
    rings := [], heldFaults := [], lastCore := cores.getLast?.getD 0 }

/-- Scheduling state of a warp as it starts (R139 to R155). -/
def Sched.fresh (now : Nat) : Sched :=
  { port := none, lastIssue := now, readySince := none, aged := false, engine := .herd, sprintReq := false,
    lockCls := [], candSince := none, fairStart := none, deferSince := none, fairRun := false, frontDue := false, yielded := false,
    missWait := none }

/-- A warp as it starts (R48, R67, R69, R157): all lanes at its role's entry, registers 0, `%fmt` and MFMT at FMT_INIT. -/
def Warp.start (core slot : Nat) (slices : List Nat) (role : Role) (budget : Nat) (entry : DWord) (fmtInit : Word)
    (now : Nat) : Warp :=
  { loc := some (core, slot), role := role, budget := budget, slices := slices.map some, v := [], cells := [], freed := [],
    s := [], p := List.replicate 7 0, q := [false, false, false],
    run := { pc := entry, widx := 0, mask := 0xFFFFFFFF, fmt := fmtInit, mfmt := fmtInit, age := 0 },
    waiting := [], dseq := 0, fstat := 0, pend := [], clause := none, resv := [], handler := none, batchNum := 0,
    openBatch := [], closed := [], wait := none, under := none, stall := none, rpt := none, heldTrap := none, async := [],
    halted := false, stop := none, spilled := [], spilledAt := none, usedAt := [], sbuf := [], dep := [], bpSkip := none, sched := Sched.fresh now }

/-- Physical address of the page of code. -/
def padPage : Nat := 0x20000

/-- The header of a clause of one word, no flags (R32). -/
def padHeader : Nat := 0x0000000000FF0001

/-- Page tables that map the page at its own address, executable and writable, under key 1 (R237, R238), and the clause. -/
def padMem (m : Mem) (w : Nat) : Mem :=
  let put := fun (m : Mem) (a x : Nat) => (m.setNum (memKey .dev a) 8 x)
  let m1 := put (put (put m 0x10000 0x12001) 0x12000 0x14001) 0x14000 0x16001
  let m2 := put m1 (0x16000 + 8 * 2) (1 * 2 ^ 48 + padPage + 0x20F)
  put (put m2 padPage padHeader) (padPage + 8) w

/-- The role a word needs (R53). -/
def padRole (w : Nat) : Role :=
  let op := fld w 55 8
  if 0x90 ≤ op ∧ op ≤ 0x95 then .matrix else if 0x96 ≤ op ∧ op ≤ 0x99 then .vector else .general

/-- The handler state a privileged word needs (R53, R387): as on entry for a service at the same word. -/
def padHandler (w : Nat) (p : Path) : Option Handler :=
  if fld w 63 1 = 0 && privileged (fld w 55 8) then
    some { trap := { cause := .service, subcode := 0, code := 0, prior := 0, lanes := p.mask, pc := p.pc, addr := 0, cmdSeq := 0,
                     gid := 1, blkIdx := 0, warp := 0, core := 0, token := 0, flags := 0, time := 0 },
           lanes := p.mask, aside := 0, savedS := List.replicate 16 PWord.zero, savedQ := [false, false, false],
           savedFmt := 0, resumePc := p.pc + 8, resumeWidx := 2, frozen := [], entry := none, frame := 0, path := p,
           copy := false, wait := none, rpt := none, frontDue := false, fairStart := none }
  else none

/-- See `State.withFetchWord`. -/
def placeWord (s : State) (w : Nat) : State :=
  let role := padRole w
  let counts := match role with
    | .matrix => [0, 1, 0, 0]
    | .vector => [0, 1, 1, 0]
    | _ => [0, 0, 0, 1]
  let w0 := Warp.start 0 0 [0, 1, 2, 3] role 128 (BitVec.ofNat 64 padPage) 0 s.dev.now
  let run := { w0.run with pc := BitVec.ofNat 64 (padPage + 8), widx := 1 }
  let w1 := { w0 with run := run, handler := padHandler w run }
  let cfg := { CtxCfg.reset with ptRoot := 0x10000 }
  { s with
    agenda := [.word 0 0]
    mem := padMem s.mem w
    ctxs := aput 0 (Ctx.fresh cfg 1) s.ctxs
    grids := aput (gridKey 0 1) (Grid.started (Desc.one counts)) s.grids
    blocks := aput 0 (Block.placed 0 1 0 1 [0] false s.dev.now) s.blocks
    warps := aput (widOf 0 0) w1 s.warps
    cores := aput 0 { s.core 0 with ctx := some 0 } s.cores
    pairs := if role = .general then s.pairs else aput 0 { s.pair 0 with owner := some 0 } s.pairs
    blkNext := 1 }

end Sys2Proof.Machine
end

