-- ==== Sys2Proof/Machine/CopyOps.lean ====
section
/-! DEFINITION. Class 0x8: copy commands and batches, banks and FIFOs, vitrines (R245, R248 to R257, R275 to R280), and the
events of the copy engine. -/

namespace Sys2Proof.Machine

/-- A check of a command block: cause, subcode, address. -/
abbrev CmdChk := Option (Cause × Nat × Nat)

/-- The first check that fails. -/
def firstChk : List CmdChk → CmdChk
  | [] => none
  | some c :: _ => some c
  | none :: l => firstChk l

/-- Whether `n` bytes of scratchpad from an address stay in the window it names (R235, R275). -/
def inWindow (s : State) (blk a n : Nat) : Bool :=
  let sh := if a / 2 ^ 31 % 2 = 1 then 27 else 31
  decide (a < 2 ^ 32) && (a + n - 1) / 2 ^ sh == a / 2 ^ sh && (scrAddr s blk a n).isSome

/-- Step 4 of R275 for a list of scratchpad ranges. -/
def chkWindows (s : State) (blk : Nat) (rs : List (Nat × Nat)) : CmdChk :=
  (rs.find? fun r => !inWindow s blk r.1 r.2).map fun r => (.address, 0, r.1)

/-- Address of a global row. -/
def CopyCmd.rowAddr (c : CopyCmd) (r : Nat) : Nat := (((c.gaddr : Int) + r * toSigned 32 (c.reg 5)) % (2 ^ 64 : Nat)).toNat

/-- The checks of R275 after poison for `cpg` and `cps`. -/
def chkTile (s : State) (blk : Nat) (c : CopyCmd) : CmdChk :=
  let rb := c.reg 3
  let rows := c.reg 4
  if rb < 4 ∨ 65536 < rb ∨ rb % 4 ≠ 0 ∨ rows < 1 ∨ 4096 < rows ∨ c.reg 7 ≠ 0 then some (.address, 4, 0)
  else if c.gaddr % 4 ≠ 0 ∨ c.reg 2 % 4 ≠ 0 ∨ c.reg 5 % 4 ≠ 0 ∨ c.reg 6 % 4 ≠ 0 then some (.misaligned, 0, 0)
  else firstChk [
    chkWindows s blk ((List.range rows).map fun r => (c.reg 2 + r * c.reg 6, rb)),
    ((List.range rows).find? fun r =>
      decide (2 ^ 56 ≤ c.rowAddr r) || decide (2 ^ 56 ≤ (c.rowAddr r + rb - 1) % 2 ^ 64)).map fun r => (.address, 0, c.rowAddr r)]

/-- The checks of R275 after poison for `cpx`. -/
def chkGather (s : State) (blk : Nat) (c : CopyCmd) : CmdChk :=
  let eb := c.reg 3
  let n := c.reg 4
  if !([4, 8, 16, 32, 64, 128, 256].contains eb) ∨ n < 1 ∨ 4096 < n ∨ c.reg 6 ≠ 0 ∨ c.reg 7 ≠ 0 then some (.address, 4, 0)
  else if c.gaddr % eb ≠ 0 ∨ c.reg 2 % min eb 64 ≠ 0 ∨ c.reg 5 % 4 ≠ 0 then some (.misaligned, 0, 0)
  else chkWindows s blk [(c.reg 2, n * eb), (c.reg 5, 4 * n)]

/-- The ring check of R275. -/
def chkRing (c : CopyCmd) : CmdChk :=
  match c.ring with
  | some (a, slot) => if a.toNat % 64 ≠ 0 ∨ 64 ≤ slot then some (.address, 4, a.toNat) else none
  | none => none

/-- Issue a copy command: the checks of R275, then a release at block scope (R250), a queue entry, a sequence number and a place in
the open batch (R276). -/
def copyIssue (it : Iss) (s : State) (op : Nat) (ring : Option (PV × Nat)) : State :=
  if it.act = 0 then commit it s id
  else
    let base := match it.o.a with
      | .s r => r.val
      | _ => 0
    let ws := (List.range 8).map fun i => it.w.sget (base + i)
    if ws.any PWord.pois || (match ring with | some r => r.1.pois | none => false) then raise it s .poison 0 it.act 0
    else
      let sq := (s.core it.core).copySeq + 1
      let c : CopyCmd := { seq := sq, wid := it.wid, op := op, blk := ws.map PWord.val,
                           ring := ring.map fun r => (BitVec.ofNat 32 r.1.v, r.2), started := none, moved := [],
                           faulted := false, cancelled := false }
      match firstChk [if op = 2 then chkGather s it.blk c else chkTile s it.blk c, chkRing c] with
      | some (cause, sub, a) => raise it s cause sub it.act a
      | none =>
        commit it ((releaseAt s it.wid .blk).modCore it.core fun k => { k with copies := k.copies ++ [c], copySeq := sq }) fun w =>
          { w with openBatch := w.openBatch ++ [sq] }

/-- The ring of a command with ARRIVE set. -/
def Iss.ringArg (it : Iss) (slot : Fin 64) (arrive : Bool) : Option (PV × Nat) :=
  if arrive then some (it.src .b32 it.o.b 0, slot.val) else none

/-- `cpg` (R276). -/
def execCpg (o : Opnds) (slot : Fin 64) (arrive : Bool) (s : State) : Host.Outcome State Fault Refusal :=
  issue (.cpg o slot arrive) s fun it s => copyIssue it s 0 (it.ringArg slot arrive)

/-- `cps` (R276). -/
def execCps (o : Opnds) (s : State) : Host.Outcome State Fault Refusal :=
  issue (.cps o) s fun it s => copyIssue it s 1 none

/-- `cpx` (R276). -/
def execCpx (o : Opnds) (slot : Fin 64) (arrive : Bool) (s : State) : Host.Outcome State Fault Refusal :=
  issue (.cpx o slot arrive) s fun it s => copyIssue it s 2 (it.ringArg slot arrive)

/-- Close a warp's open batch (R249, R277): its number; a batch without commands is complete at once. -/
def Warp.closeBatch (w : Warp) : Warp :=
  let n := w.batchNum % 65535 + 1
  { w with batchNum := n, openBatch := []
           closed := if w.openBatch.isEmpty then w.closed else w.closed ++ [⟨n, w.openBatch⟩] }

/-- `cpclose` (R277). -/
def execCpclose (o : Opnds) (s : State) : Host.Outcome State Fault Refusal :=
  issue (.cpclose o) s fun it s =>
    if it.act = 0 then commit it s id
    else if 255 ≤ it.w.closed.length then parkWait s it.wid (.cpclose it.o.d it.act)
    else commit it s fun w =>
      let w1 := w.closeBatch
      w1.dput .b32 it.o.d it.act fun _ => ⟨w1.batchNum, false⟩

/-- Whether every closed batch that `cpwait n` waits for is complete (R249). -/
def batchesDone (w : Warp) (n : Nat) : Bool := w.closed.all fun b => decide (32768 ≤ (n + 65536 - b.num) % 65536)

/-- `cpwait` (R277): an acquire at `.blk` (R250). -/
def execCpwait (o : Opnds) (s : State) : Host.Outcome State Fault Refusal :=
  issue (.cpwait o) s fun it s =>
    let n := (it.src .b32 it.o.a 0).v % 65536
    if it.act = 0 then commit it s id
    else if batchesDone it.w n then commit it (acquireAt s it.wid .blk) id else parkWait s it.wid (.cpwait n)

/-- Whether a bank of a core belongs to the context's trace buffer (R411): the highest-numbered FIFO banks. -/
def traceBank (cfg : CtxCfg) (bank : Nat) : Bool :=
  wfld cfg.traceCfg 0 1 == 1 && decide (traceBanks cfg.traceCfg ≤ (bankSplit cfg.bankCfg).1)
    && decide (64 - traceBanks cfg.traceCfg ≤ bank)

/-- Whether a bank of a core holds slots of a proxy queue (R83, R244). -/
def proxyBank (s : State) (core bank : Nat) : Bool :=
  s.ctxs.any fun e => e.2.queues.any fun q => q.2.banks.contains (core, bank)

/-- Granules of 2 KiB a block's scratchpad takes on each of its cores (R122, R132). -/
def scrGranules (s : State) (b : Block) : Nat := ((s.scratchBytes b + max 1 b.cores.length - 1) / max 1 b.cores.length + 2047) / 2048

/-- Scratchpad granules allocated on a core (R132). -/
def granulesUsed (s : State) (core : Nat) : Nat := (s.core core).granMap.length

/-- Banks of a core in a mode. -/
def banksIn (s : State) (core : Nat) (m : BankMode) : Nat := ((s.core core).modes.filter (· == m)).length

/-- Whether a bank holds an allocated granule (R132, R245). -/
def bankHeld (s : State) (core bank : Nat) : Bool := (s.core core).granMap.any fun e => e.1 / 16 == bank

/-- The status of a `bankcfg` (R278). -/
def bankStatus (s : State) (cfg : CtxCfg) (core bank : Nat) (mode : BankMode) : Nat :=
  if 63 < bank then 4
  else
    let now := ((s.core core).modes[bank]?).getD .cache
    if now = mode then 0
    else match now with
      | .scratch => if bankHeld s core bank then 1 else 0
      | .fifo => if !(sget [] (s.core core).fifos bank).isEmpty || traceBank cfg bank || proxyBank s core bank then 2 else 0
      | .cache => if banksIn s core .cache ≤ 4 then 3 else 0

/-- A bank of a core enters a mode (R245): where it leaves cache mode, its dirty sectors are written back and its lines are
invalidated. -/
def setBank (s : State) (core bank : Nat) (mode : BankMode) : State :=
  let now := ((s.core core).modes[bank]?).getD .cache
  let s1 := if now = .cache ∧ mode ≠ .cache then (landDirty s core fun _ => true).modCore core Core.refresh else s
  s1.modCore core fun c =>
    { c with modes := c.modes.set bank mode, fifos := if mode = .fifo then c.fifos else adel bank c.fifos }

/-- `bankcfg` (R245, R278). -/
def execBankcfg (o : Opnds) (mode : BankMode) (s : State) : Host.Outcome State Fault Refusal :=
  issue (.bankcfg o mode) s fun it s =>
    if it.act = 0 then commit it s id
    else
      let bank := (it.src .b32 it.o.a 0).v
      let st := bankStatus s (s.cfg it.ctx) it.core bank mode
      let s1 := if st = 0 then freeCores (setBank s it.core bank mode) [it.core] else s
      commit it s1 fun w => w.dput .b32 it.o.d it.act fun _ => ⟨st, false⟩

/-- The FIFO bank that B names, if programs may use it (R279). -/
def fifoBank (it : Iss) (s : State) : Option Nat :=
  let bank := (it.src .b32 it.o.b 0).v % 64
  if ((s.core it.core).modes[bank]?).getD .cache = .fifo ∧ !traceBank (s.cfg it.ctx) bank
      ∧ !proxyBank s it.core bank then some bank else none

/-- Write the status predicate that C names (R262, R279). -/
def Warp.statusC (w : Warp) (c : Opd) (b : Bool) : Warp :=
  match c with
  | .q r => w.qput r.val b
  | _ => w

/-- `fpush` (R279): a predicate comes of a poisoned bank number, which raises POISON (R471). -/
def execFpush (o : Opnds) (s : State) : Host.Outcome State Fault Refusal :=
  issue (.fpush o) s fun it s =>
    if it.act = 0 then commit it s fun w => w.statusC it.o.c true
    else if (it.src .b32 it.o.b 0).pois then raise it s .poison 0 it.act 0
    else
      match fifoBank it s with
      | none => raise it s .address 0 it.act 0
      | some bank =>
        let q := sget [] (s.core it.core).fifos bank
        let ws := it.lanes.map fun l =>
          let a := it.src .b32 it.o.a l
          (⟨BitVec.ofNat 32 a.v, a.pois⟩ : PWord)
        let ok := decide (q.length + ws.length ≤ 8192)
        let s1 := if ok then s.modCore it.core fun c => { c with fifos := aput bank (q ++ ws) c.fifos } else s
        commit it s1 fun w => w.statusC it.o.c ok

/-- `fpop` (R279); POISON as for `fpush` (R471). -/
def execFpop (o : Opnds) (s : State) : Host.Outcome State Fault Refusal :=
  issue (.fpop o) s fun it s =>
    if it.act = 0 then commit it s fun w => w.statusC it.o.c true
    else if (it.src .b32 it.o.b 0).pois then raise it s .poison 0 it.act 0
    else
      match fifoBank it s with
      | none => raise it s .address 0 it.act 0
      | some bank =>
        let q := sget [] (s.core it.core).fifos bank
        let n := it.lanes.length
        let ok := decide (n ≤ q.length)
        let rest := q.drop n
        let s1 := if ok then s.modCore it.core fun c =>
            { c with fifos := if rest.isEmpty then adel bank c.fifos else aput bank rest c.fifos } else s
        let put := fun (w : Warp) => if ok then
            w.dput .b32 it.o.d it.act fun l =>
              let x := (q[(it.lanes.filter (· < l)).length]?).getD PWord.zero
              ⟨x.val.toNat, x.pois⟩
          else w
        commit it s1 fun w => (put w).statusC it.o.c ok

/-- The vitrine an instruction names (R280): none for an index above 255 or an unused entry. -/
def vitArg (it : Iss) (s : State) : Option (Nat × Vitrine) :=
  let i := (it.src .b32 it.o.a 0).v
  let v := s.vitrine it.ctx i
  if 255 < i ∨ v.bytes = 0 then none else some (i, v)

/-- Change a vitrine entry. -/
def State.modVit (s : State) (ctx i : Nat) (f : Vitrine → Vitrine) : State :=
  s.modCtx ctx fun c => { c with vits := aput i (f (sget Vitrine.unused c.vits i)) c.vits }

/-- The first page of a vitrine that a `.copy` cannot copy: its fault and address. The shadow's pages are written. -/
def copyOpenFault (s : State) (ctx : Nat) (v : Vitrine) : Option (Flt × Nat) :=
  let pages := (List.range (v.bytes / 65536)).flatMap fun i =>
    [((if v.front then v.alt else v.base) + 65536 * i, false), ((if v.front then v.base else v.alt) + 65536 * i, true)]
  pages.findSome? fun p =>
    match s.leaf ctx p.1 s.free with
    | .error f => some (f, p.1)
    | .ok l => (permit (s.keyId ctx) p.2 l).map fun f => (f, p.1)

/-- `vtopen` (R255, R280). -/
def execVtopen (o : Opnds) (copy : Bool) (s : State) : Host.Outcome State Fault Refusal :=
  issue (.vtopen o copy) s fun it s =>
    if it.act = 0 then commit it s id
    else
      match vitArg it s with
      | none => raise it s .address 0 it.act 0
      | some (i, v) =>
        let put := fun (x : Nat) (w : Warp) => w.dput .b32 it.o.d it.act fun _ => ⟨x, false⟩
        let openIt := fun (s : State) => s.modVit it.ctx i fun v => { v with opened := true, writer := some it.blk }
        if v.opened then commit it s (put 1)
        else if copy then
          match copyOpenFault s it.ctx v with
          | some (f, a) => raise it s f.cause f.sub it.act a
          | none => parkWait (openIt s) it.wid (.vtopen i it.o.d)
        else commit it (openIt s) (put 0)

/-- Clear every reservation on a granule of some pages (R270). -/
def clearResvIn (s : State) (ks : List Nat) : State :=
  { s with warps := s.warps.map fun e => (e.1, { e.2 with resv := e.2.resv.filter fun r => !inPages ks (64 * r.2) }) }

/-- No core reads some pages from before any more (R256). -/
def freshPages (s : State) (ks : List Nat) : State :=
  { s with cores := s.cores.map fun e => (e.1, { e.2 with old := e.2.old.filter fun x => !inPages ks x.1 }) }

/-- Memory keys of both ranges of a vitrine. -/
def vitPages (s : State) (ctx : Nat) (v : Vitrine) : List Nat := pageKeys s ctx v.base v.bytes ++ pageKeys s ctx v.alt v.bytes

/-- The swap of a `publish`, one event (R256, R270, R337): the writer block's stores reach memory before it, every core loses both
ranges. With it, the new SEQ. -/
def swapVitrine (s0 : State) (bn ctx i : Nat) : State × Nat :=
  let s := drainBlock s0 bn
  let v := s.vitrine ctx i
  let sq := (v.seq.toNat + 1) % 65536
  let ks := vitPages s ctx v
  (freshPages (clearResvIn (s.modVit ctx i fun v =>
    { v with front := !v.front, opened := false, writer := none, seq := BitVec.ofNat 32 sq, swapped := true }) ks) ks, sq)

/-- Whether a block has copy commands under way that write global memory (R256 step 1). -/
def copiesUnder (s : State) (bn : Nat) : Bool :=
  match s.block bn with
  | none => false
  | some b => b.cores.any fun c => (s.core c).copies.any fun k => k.ofBlock bn && k.op == 1

/-- `publish` (R256, R280). -/
def execPublish (o : Opnds) (s : State) : Host.Outcome State Fault Refusal :=
  issue (.publish o) s fun it s =>
    if it.act = 0 then commit it s id
    else
      match vitArg it s with
      | none => raise it s .address 0 it.act 0
      | some (i, v) =>
        if !v.opened || v.writer != some it.blk then raise it s .vitrine 0 it.act 0
        else if copiesUnder s it.blk then parkWait s it.wid (.publish i it.o.d none)
        else
          let (s1, sq) := swapVitrine s it.blk it.ctx i
          parkWait s1 it.wid (.publish i it.o.d (some sq))

/-- `vtdrop` (R255, R280). -/
def execVtdrop (o : Opnds) (s : State) : Host.Outcome State Fault Refusal :=
  issue (.vtdrop o) s fun it s =>
    if it.act = 0 then commit it s id
    else
      match vitArg it s with
      | none => raise it s .address 0 it.act 0
      | some (i, v) =>
        if !v.opened then commit it s id
        else if v.writer != some it.blk then raise it s .vitrine 0 it.act 0
        else commit it (dropVitrine s it.ctx i).takeFree id

/-- The next command a core's engine may start (R248, R416, R429): unstarted, its warp not halted. -/
def nextCopy (s : State) (core : Nat) : Option CopyCmd :=
  if (s.core core).held.isSome || (s.core core).engReset.isSome then none
  else (s.core core).copies.find? fun c => c.started.isNone && (match s.warp c.wid with | some w => !w.halted | none => true)

/-- Change a command of a core's queue. -/
def modCopy (s : State) (core : Nat) (sq : Word) (f : CopyCmd → CopyCmd) : State :=
  s.modCore core fun k => { k with copies := k.copies.map fun c => if c.seq = sq then f c else c }

/-- A copy command starts (R276). -/
def execCopyCommandStart (core : Nat) (s : State) : Host.Outcome State Fault Refusal :=
  .next (match nextCopy s core with
    | some c => copyPacket (modCopy s core c.seq fun c => { c with started := some (s.nonStalled core) }) core 0 c
    | none => s)

/-- A command under way that is not stopped at a fault. -/
def runningCopy (s : State) (core : Nat) (sq : Word) : Option CopyCmd :=
  if (s.core core).engReset.isSome then none
  else (s.core core).copies.find? fun c => c.seq == sq && c.started.isSome && !c.faulted

/-- The record of a fault whose warp's own record is gone: no lanes, no PC, its block's core (R251, R385). -/
def goneRec (s : State) (wid : Nat) (c : Cause) (sub addr : Nat) (sq : Word) : TrapRec :=
  { cause := c, subcode := sub, code := 0, prior := 0, lanes := 0, pc := 0, addr := BitVec.ofNat 64 addr, cmdSeq := sq,
    gid := (match s.block (blkOf wid) with | some b => b.gid | none => 0),
    blkIdx := (match s.block (blkOf wid) with | some b => b.idx | none => 0),
    warp := warpNo wid, core := (match s.block (blkOf wid) with | some b => b.cores.head?.getD b.lastCore | none => 0),
    token := 0, flags := 0, time := timeForm s.ptp }

/-- An asynchronous fault for a warp (R251, R382): delivered at its next boundary; that of a warp that has exited ends its block's
gang, at its confirmation where the block is provisional (R108). -/
def asyncFault (s : State) (wid : Nat) (c : Cause) (sub addr : Nat) (sq : Word) : State :=
  match s.warp wid with
  | none =>
    let r := goneRec s wid c sub addr sq
    orphanTrap (countWalk s r.core c sub) (blkOf wid) r
  | some w =>
    let s := countWalk s w.core c sub
    let r := { mkRec s wid w ⟨c, sub, 0, w.run.mask, addr, sq, true⟩ 0 with cmdSeq := sq }
    if w.alive = 0 then orphanTrap s (blkOf wid) r else s.modWarp wid fun w => { w with async := w.async ++ [r] }

/-- The trap of a ring that refuses an arrival (R252). -/
def ringFault (s : State) (c : CopyCmd) : State :=
  match c.ring with
  | none => s
  | some (a, slot) =>
    asyncFault s c.wid .address (if (ringAt s (blkOf c.wid) a.toNat slot).isSome then 4 else 0) a.toNat c.seq

/-- A copy command completes (R249, R252): its data has moved. It waits for a link that is being reset (R260), and a provisional
block's for room (R111). -/
def execCopyCommandComplete (core : Nat) (sq : BitVec 32) (s : State) : Host.Outcome State Fault Refusal :=
  .next (match runningCopy s core sq with
    | none => s
    | some c =>
      let (s1, _, flt) := copyRun s c
      if flt.isSome || copyWaits s c then s
      else if overQuota s s1 (blkOf c.wid) then quotaEvict s (blkOf c.wid)
      else
        let (s2, bad) := copyFinish s1 core c
        if bad then ringFault s2 c else s2)

/-- A copy command meets a fault (R251): it stops at the page, or is abandoned, its batch never complete. -/
def execCopyCommandFault (core : Nat) (sq : BitVec 32) (s : State) : Host.Outcome State Fault Refusal :=
  .next (match runningCopy s core sq with
    | none => s
    | some c =>
      match copyRun s c with
      | (_, _, none) => s
      | (s1, n, some (f, a)) =>
        let s2 := if f.handler then modCopy s1 core sq fun c => { c with moved := n, faulted := true }
          else dropCopy s1 core sq
        asyncFault s2 c.wid f.cause f.sub a sq)

/-- The first warp of a context in a wait. -/
def waitingWarp (s : State) (ctx : Nat) (f : Wait → Bool) : Option (Nat × Warp) :=
  s.warps.find? fun e => s.ctxNo e.1 == ctx && (e.2.wait.map f).getD false

/-- Copy a page of a vitrine's front onto its shadow, sector by sector, through its entries (R238, R255). -/
def copyVitPage (s : State) (ctx wid src dst : Nat) : State :=
  match s.leaf ctx src s.free, s.leaf ctx dst s.free with
  | .ok l1, .ok l2 =>
    (List.range 2048).foldl (fun s i =>
      let d := loadGlobal s (blkOf wid) (l1.tgt (src + 32 * i)) 32
      storeGlobal s wid (l2.tgt (dst + 32 * i)) d.1 d.2) ((s.used ctx src (l1.tgt src)).used ctx dst (l2.tgt dst))
  | _, _ => skipAccess s ctx dst

/-- The copy of a `vtopen.copy` completes (R255): the warp goes on with status 0. A provisional block's copy that finds no room for
its lines waits (R107, R111). -/
def execVtopenCopyComplete (ctx i : Nat) (s : State) : Host.Outcome State Fault Refusal :=
  .next (match waitingWarp s ctx fun x => (match x with | .vtopen j _ => j == i | _ => false) with
    | some (wid, w) =>
      let v := s.vitrine ctx i
      let (f, sh) := if v.front then (v.alt, v.base) else (v.base, v.alt)
      let s1 := (List.range (v.bytes / 65536)).foldl
        (fun s k => copyVitPage s ctx wid (f + 65536 * k) (sh + 65536 * k)) (drainBlock s (blkOf wid))
      match w.wait with
      | some (.vtopen _ d) => if overQuota s s1 (blkOf wid) then quotaEvict s (blkOf wid) else finishWait s1 wid d 0
      | _ => s
    | none => s)

/-- Every core has acknowledged a `publish` (R256 steps 3 and 4): TLBs drop both ranges, the warp goes on with SEQ. -/
def execPublishAckComplete (ctx i : Nat) (s : State) : Host.Outcome State Fault Refusal :=
  .next (match waitingWarp s ctx fun x => (match x with | .publish j _ q => j == i && q.isSome | _ => false) with
    | some (wid, w) =>
      let v := s.vitrine ctx i
      let s1 := s.modCtx ctx fun c =>
        { c with tlb := c.tlb.filter fun e => !(tlbMeets e.1 v.base v.bytes || tlbMeets e.1 v.alt v.bytes) }
      match w.wait with
      | some (.publish _ d (some q)) => finishWait s1 wid d q
      | _ => s
    | none => s)

end Sys2Proof.Machine
end

