-- ==== Sys2Proof/Machine/Resolve.lean ====
section
/-! DEFINITION. Shape words and their resolution (R97 to R100, R112, R113, R116), the predictor table (R102 to R104), and
replay (R393). -/

namespace Sys2Proof.Machine

/-- A predictor entry (R103). -/
structure PredEntry where
  key : Nat
  count : Nat
  next : Nat
  ts : List Nat
  deriving DecidableEq, Repr

/-- An empty entry. -/
def PredEntry.empty : PredEntry := { key := 0, count := 0, next := 0, ts := [0, 0, 0, 0] }

/-- Its 32 B. -/
def PredEntry.bytes (e : PredEntry) : List Byte :=
  leBytes 2 e.key ++ leBytes 1 e.count ++ leBytes 1 e.next ++ leBytes 4 0 ++ e.ts.flatMap (leBytes 4) ++ leBytes 8 0

/-- An entry as its bytes give it; none where it breaks the format (R103). -/
def predParse (bs : List Byte) : Option PredEntry :=
  let e : PredEntry := { key := fieldOf bs 0 2, count := fieldOf bs 2 1, next := fieldOf bs 3 1,
                         ts := (List.range 4).map fun i => fieldOf bs (8 + 4 * i) 4 }
  if 4 < e.count ∨ 3 < e.next ∨ fieldOf bs 4 4 ≠ 0 ∨ fieldOf bs 0x18 8 ≠ 0 then none else some e

/-- Whether predictor entries belong to system software (R96). -/
def shapeHost (s : State) (ctx : Nat) : Bool := wfld (s.cfg ctx).dutyMode 1 1 == 1

/-- Address of an entry (R103). -/
def predAddr (s : State) (ctx i : Nat) : Nat := (s.cfg ctx).predBase.toNat + 32 * i

/-- The bytes of an entry: the cached copy, or memory's, which is then kept unless SHAPE_HOST is set (R103, R104). -/
def predBytes (s : State) (ctx i : Nat) : State × Option (List Byte) :=
  match if shapeHost s ctx then none else (s.ctx ctx).bind fun c => alook i c.preds with
  | some bs => (s, some bs)
  | none =>
    match s.devRead ctx (predAddr s ctx i) 32 with
    | none => (skipAccess s ctx (predAddr s ctx i), none)
    | some bs =>
      let s1 := s.devTouch ctx (predAddr s ctx i) 32
      (if shapeHost s ctx then s1 else s1.modCtx ctx fun c => { c with preds := aput i bs c.preds }, some bs)

/-- Read an entry (R103): a skipped read and a malformed entry are empty. -/
def readPred (s : State) (ctx i : Nat) : State × PredEntry :=
  match predBytes s ctx i with
  | (s1, none) => (s1, PredEntry.empty)
  | (s1, some bs) =>
    match predParse bs with
    | some e => (s1, e)
    | none => (countR s1 ctx evPredFormat, PredEntry.empty)

/-- The largest recorded extent of a key; none without a match (R102, R367). -/
def PredEntry.most (e : PredEntry) (key : Nat) : Option Nat :=
  if e.key = key ∧ 0 < e.count then some ((e.ts.take e.count).foldl max 0) else none

/-- The entry after an update (R104). -/
def PredEntry.update (e : PredEntry) (key te : Nat) : PredEntry :=
  if e.key ≠ key ∨ e.count = 0 then { key := key, count := 1, next := 1, ts := [te, 0, 0, 0] }
  else { e with ts := e.ts.set e.next te, next := (e.next + 1) % 4, count := min 4 (e.count + 1) }

/-- Update the predictor and write the entry back (R104). -/
def updatePred (s : State) (ctx key te : Nat) : State :=
  let i := key % 1024
  let r := readPred s ctx i
  let bs := (r.2.update key te).bytes
  let s1 := if shapeHost s ctx then r.1 else r.1.modCtx ctx fun c => { c with preds := aput i bs c.preds }
  s1.devPut ctx (predAddr s ctx i) bs

/-- The limited extent (R112). -/
def Desc.limit (d : Desc) (t : Nat) : Nat := min (max t d.floor) d.cap

/-- Whether a grid takes its prediction from the predictor (R85). -/
def Desc.usesPred (d : Desc) : Bool := wfld d.flags 2 1 == 1

/-- Whether a grid launches provisionally (R85). -/
def Desc.provisional (d : Desc) : Bool := wfld d.flags 1 1 == 1

/-- Blocks of a grid that are provisional still, with linear indices in a range, ascending. -/
def provBlocks (s : State) (ctx gid lo hi : Nat) : List (Nat × Nat) :=
  let bs := (liveBlocks s ctx gid).filter fun e => e.2.prov && decide (lo ≤ e.2.idx ∧ e.2.idx < hi)
  sortBy (fun a b => decide (a.1 ≤ b.1)) (bs.map fun e => (e.2.idx, e.1))

/-- Trimmed blocks at a resolution (R115): indices from te to P − 1 that are unstarted or live. -/
def trimCount (s : State) (ctx gid : Nat) (g : Grid) (te : Nat) : Nat :=
  (g.pred - max te g.next) + (g.joining.filter fun i => decide (te ≤ i ∧ i < g.pred)).length
    + (provBlocks s ctx gid te g.pred).length

/-- What a resolution fixes in the grid's record: its extent, what is trimmed and what the tail adds (R112, R115, R116). -/
def Grid.resolve (g : Grid) (te trimmed : Nat) : Grid :=
  { g with resolved := true, bound := false, te := te, trimmed := g.trimmed + trimmed, tail := te - g.pred, last := te,
           joinWave := g.joinWave || decide (g.pred < te),
           joining := g.joining.filter fun i => decide (i < te), pendingRes := none }

/-- The resolution procedure on one bound grid (R112); faults held for warps that are gone act after it (R108, R251). -/
def resolveGrid (s : State) (ctx gid t : Nat) : State :=
  match s.grid ctx gid with
  | none => s
  | some g =>
    let d := g.desc
    let te := d.limit t
    let s1 := if te = t then s else countR s ctx evShapeLimited
    let s2 := provPacket s1 ctx gid regStream 1 te
    let trims := provBlocks s2 ctx gid te g.pred
    let s3 := s2.modGrid ctx gid fun g => g.resolve te (trimCount s2 ctx gid g te)
    let s4 := (provBlocks s2 ctx gid d.floor (min te g.pred)).foldl (fun s e => confirmBlock s e.2) s3
    let s5 := (provBlocks s2 ctx gid d.floor (min te g.pred)).foldl (fun s e => deliverOrphans s e.2)
      (trims.foldl (fun s e => trimBlock s e.2) s4)
    let s6 := if g.pred < te then provPacket s5 ctx gid regStream 3 (te - g.pred) else s5
    let s7 := if d.usesPred && !shapeHost s ctx then updatePred s6 ctx d.key te else s6
    gridCheck s7 ctx gid

/-- Whether a context is resident on cores (R403). -/
def isResident (s : State) (ctx : Nat) : Bool :=
  match s.ctx ctx with
  | some c => c.resident
  | none => false

/-- A resolution reaches a grid: applied, or recorded for the switch-in (R112, R113). -/
def reachGrid (s : State) (ctx gid t : Nat) : State :=
  if isResident s ctx then resolveGrid s ctx gid t
  else s.modGrid ctx gid fun g => { g with pendingRes := some (g.pendingRes.getD t) }

/-- Identifiers of the grids of a context, ascending. -/
def gridsOf (s : State) (ctx : Nat) : List (Nat × Grid) :=
  (s.grids.filter fun e => e.1 / 2 ^ 24 == ctx).map fun e => (e.1 % 2 ^ 24, e.2)

/-- The resolution of a shape word, once its access is checked (R98, R100): the word is written, every bound grid is
reached. The flag says that RESOLVED was set before. -/
def resolveWord (s : State) (ctx va : Nat) (t : Tgt) (x : Nat) : State × Bool :=
  let old := fld (leNat (s.mem.bytesUnder (s.keyId ctx) s.free t.key 8)) 63 1 == 1
  let s1 := storeOpen s ctx t (leBytes 8 (2 ^ 63 + x)) false
  let s2 := if old then countR s1 ctx evRepeatRes else s1
  let bound := (gridsOf s2 ctx).filter fun e => e.2.bound && e.2.desc.shapeAddr.toNat == va
  (bound.foldl (fun s e => reachGrid s ctx e.1 x) s2, old)

/-- What a replay names (R393, R441). -/
inductive ReplayKey where
  | page (va : Nat)
  | token (t : Word)
  deriving DecidableEq, Repr

/-- HOST entries of a context that a replay names. -/
def replayHits (s : State) (ctx : Nat) (k : ReplayKey) : List Nat :=
  (s.dev.wt.filter fun e =>
    match e.2.st with
    | .host tok => e.2.ctx == ctx && (match k with | .page va => e.2.page == pageOf va | .token t => tok == t)
    | .handling _ => false).map Prod.fst

/-- A replay (R393): the matching entries are freed and their warps woken, and the overflow list is woken. -/
def replayAll (s : State) (ctx : Nat) (k : ReplayKey) : State :=
  wakeOverflow ((replayHits s ctx k).foldl freeEntry s) ctx

end Sys2Proof.Machine
end

