-- ==== Sys2Proof/Machine/Queues.lean ====
section
/-! DEFINITION. Queues (R75 to R83): control blocks, pushing, validating and consuming entries, acting on them, completing
them, restart and stop, and proxy forwarding. -/

namespace Sys2Proof.Machine

/-- The fields of a queue control block (R75). -/
structure Qcb where
  tail : Nat
  head : Nat
  base : Nat
  log2 : Nat
  prio : Nat
  kind : Nat
  state : Nat
  err : Nat
  peer : Nat
  msi : Nat
  deriving DecidableEq, Repr

/-- The fields in the 128 B of a block. -/
def qcbOf (bs : List Byte) : Qcb :=
  { tail := fieldOf bs 0 8, head := fieldOf bs 0x40 8, base := fieldOf bs 0x48 8, log2 := fieldOf bs 0x50 1,
    prio := fieldOf bs 0x51 1, kind := fieldOf bs 0x52 1, state := fieldOf bs 0x53 1, err := fieldOf bs 0x54 4,
    peer := fieldOf bs 0x58 8, msi := fieldOf bs 0x60 2 }

/-- The slot of an entry (R75). -/
def Qcb.slot (c : Qcb) (i : Nat) : Nat := i % 2 ^ c.log2

/-- The address of an entry's slot (R75). -/
def Qcb.slotAddr (c : Qcb) (i : Nat) : Nat := c.base + 64 * c.slot i

/-- Whether a queue has a free slot (R77, R362). -/
def Qcb.room (c : Qcb) : Bool := decide (c.tail < c.head + 2 ^ c.log2)

/-- A registered queue. -/
def State.queue (s : State) (ctx q : Nat) : Option Queue := (s.ctx ctx).bind fun c => alook q c.queues

/-- Change a registered queue. -/
def State.modQueue (s : State) (ctx q : Nat) (f : Queue → Queue) : State :=
  s.modCtx ctx fun c => { c with queues := amod q f c.queues }

/-- A queue and its control block as the Registrar reads it. -/
def State.qcb (s : State) (ctx q : Nat) : Option (Queue × Qcb) :=
  match s.queue ctx q with
  | none => none
  | some x => (s.devRead ctx x.qcb.toNat 128).map fun bs => (x, qcbOf bs)

/-- Write a field of a control block. -/
def putQcb (s : State) (ctx : Nat) (x : Queue) (off : Nat) (bs : List Byte) : State := s.devPut ctx (x.qcb.toNat + off) bs

/-- Stop a queue with an error (R79): QSTATE, ERROR and the host's interrupt. -/
def queueError (s : State) (ctx : Nat) (x : Queue) (c : Qcb) (slot code : Nat) : State :=
  hostEvent (putQcb s ctx x 0x53 (leBytes 1 2 ++ leBytes 4 (slot % 65536 + code * 65536))) (.msi ctx c.msi)

/-- Region `i` of an entry (R80). -/
def regionOf (bs : List Byte) (i : Nat) : Nat := fieldOf bs (8 + 8 * i) 8

/-- Whether a queue kind takes an entry kind (R76). -/
def kindTaken (qkind k : Nat) : Bool := if qkind = 2 then k == 6 else decide (1 ≤ k ∧ k ≤ 5)

/-- A reserved field of an entry that is not 0, or a MINSTAT other than 2 or 3 (R79, R80). -/
def entryReserved (bs : List Byte) : Bool :=
  let k := fieldOf bs 0 1
  let p1 := fieldOf bs 48 8
  let p2 := fieldOf bs 56 8
  decide (4 ≤ fieldOf bs 1 1) || fieldOf bs 4 4 != 0
    || (List.range 4).any (fun i => decide (fieldOf bs 2 2 ≤ i) && regionOf bs i != 0)
    || (match k with
      | 1 => p1 != 0 || p2 != 0
      | 2 => decide (2 ^ 32 ≤ p1) || p2 != 0
      | 3 => decide (2 ≤ p1) || p2 != 0
      | 4 => (p1 != 2 && p1 != 3) || p2 != 0
      | 5 => p2 != 0
      | _ => false)

/-- Alignment of the address in a payload (R80, R90); 1 where there is none. -/
def payloadAlign (k : Nat) : Nat :=
  match k with
  | 1 => 128
  | 2 => 8
  | 4 => 32
  | 5 => 8
  | _ => 1

/-- Whether every page of a range translates. -/
def mapsAll (s : State) (ctx va n : Nat) : Bool :=
  decide (va + n ≤ 2 ^ 56) && (pieces va n).all fun p =>
    match s.leaf ctx p.1 s.free with
    | .ok _ => true
    | .error _ => false

/-- Address and length of a region as its translation is checked (R79, R80). DESIGN CHOICE (log 28): the spec does not say whether
the address of a region of length 0 must translate; it is checked as one of 64 B. -/
def regionSpan (r : Nat) : Nat × Nat := (r % 2 ^ 48, max 1 (r / 2 ^ 48) * 64)

/-- Where an address of a region leads for a block, or for none (R254, R339): the shadow of a vitrine that the block writes, the front
of another. -/
def regionKey (s : State) (ctx va : Nat) (blk : Option Nat) : Option Nat :=
  match s.route ctx va s.free ⟨true, false, blk⟩, s.route ctx va s.free ⟨false, false, none⟩ with
  | .ok (t, none), _ => some t.key
  | _, .ok t => some t.1.key
  | _, .error _ => none

/-- The memory behind an entry's regions, as keys and lengths (R80, R82, R339). -/
def entryMem (s : State) (ctx : Nat) (blk : Option Nat) (bs : List Byte) : List (Nat × Nat) :=
  (List.range (min 4 (fieldOf bs 2 2))).flatMap fun i =>
    (pieces (regionOf bs i % 2 ^ 48) (regionOf bs i / 2 ^ 48 * 64)).filterMap fun p =>
      (regionKey s ctx p.1 blk).map fun k => (k, p.2)

/-- Whether a memory key lies in a line of some ranges. -/
def inRegions (rs : List (Nat × Nat)) (k : Nat) : Bool := rs.any fun r => inLines r.1 r.2 k

/-- The memory of a queue's control block. -/
def queueMem (s : State) (ctx q : Nat) : List (Nat × Nat) :=
  match s.queue ctx q with
  | some x => ((s.devTargets ctx x.qcb.toNat 128 false).getD []).map fun t => (t.1.key, t.2)
  | none => []

/-- The stores of the path a warp runs to some ranges leave its buffer (R326, R338). -/
def flushRegions (s : State) (wid : Nat) (rs : List (Nat × Nat)) : State :=
  match s.warp wid with
  | some w => flushSome s wid fun b =>
      b.lanes &&& w.run.mask != 0 && match b.spot with | .mem k => inRegions rs k | .scr _ _ => false
  | none => s

/-- What a push of an entry orders of its path's stores: those to the entry's regions, and to the queue itself (R82, R338). -/
def pushReady (s : State) (wid ctx q : Nat) (bs : List Byte) : State :=
  flushRegions s wid (queueMem s ctx q ++ entryMem s ctx (some (blkOf wid)) bs)

/-- A core writes back its dirty lines of some ranges (R82). -/
def writeBack (s : State) (core : Nat) (rs : List (Nat × Nat)) : State :=
  if rs.isEmpty then s
  else landDirty s core fun b => match b.spot with | .mem k => inRegions rs k | .scr _ _ => false

/-- A core invalidates its lines of some ranges (R82); what is dirty there is written back first. -/
def invalidate (s : State) (core : Nat) (rs : List (Nat × Nat)) : State :=
  if rs.isEmpty then s
  else (writeBack s core rs).modCore core fun c => { c with old := c.old.filter fun e => !inRegions rs e.1 }

/-- The memory behind the regions of the LAUNCH entry that a grid came from, while the entry is in hand (R82). -/
def launchMem (s : State) (ctx gid : Nat) : List (Nat × Nat) :=
  match s.ctx ctx with
  | none => []
  | some c => c.queues.flatMap fun q => (q.2.entries.filter fun e => e.grid == some gid).flatMap fun e => entryMem s ctx none e.bytes

/-- The descriptor a LAUNCH entry names. -/
def entryDesc (s : State) (ctx : Nat) (bs : List Byte) : Option (List Byte) := s.devRead ctx (fieldOf bs 40 8) 128

/-- Validation of an entry (R79): the lowest code that applies, or 0. A REPLAY's page address must translate too. DESIGN CHOICE
(log 29): a descriptor that translates but cannot be read (another key, poison) is code 6, as one without a translation. -/
def entryError (s : State) (ctx qkind : Nat) (bs : List Byte) : Nat :=
  let k := fieldOf bs 0 1
  let n := fieldOf bs 2 2
  let a := fieldOf bs 40 8
  let spans := (List.range n).map fun i => regionSpan (regionOf bs i)
  let rec_ := match entryDesc s ctx bs with | some d => fieldOf d 0x10 8 | none => 32
  if !kindTaken qkind k then 2
  else if 4 < n then 3
  else if entryReserved bs then 4
  else if (spans.any fun r => r.1 % 64 != 0) || a % payloadAlign k != 0 || (k == 1 && (rec_ == 0 || rec_ % 32 != 0)) then 5
  else if (spans.any fun r => !mapsAll s ctx r.1 r.2) || (payloadAlign k != 1 && !mapsAll s ctx a 8)
      || (k == 3 && fieldOf bs 48 1 % 2 == 0 && !mapsAll s ctx a 1) || (k == 1 && ((entryDesc s ctx bs).isNone || !mapsAll s ctx rec_ 32)) then 6
  else 0

/-- A pending child is withdrawn when another entry stands in its place (R93): one with any byte different. DESIGN CHOICE
(notes/assumptions/148). -/
def withdraw (s : State) (ctx q idx : Nat) (x : Queue) (bs : List Byte) : State :=
  match alook idx x.pushers with
  | none => s
  | some (b, old) =>
    if old = bs then s
    else (s.modQueue ctx q fun x => { x with pushers := adel idx x.pushers }).modBlock b fun blk =>
      { blk with children := blk.children.filter (· != (q + 1, idx)) }

/-- QUEUE_TAIL_OBSERVE (R77, R79): the Registrar rereads TAIL of a running queue of any kind. -/
def execQueueTailObserve (ctx q : Nat) (s : State) : Host.Outcome State Fault Refusal :=
  .next (match s.qcb ctx q with
    | none => s
    | some (x, c) =>
      if c.state ≠ 0 then s
      else if c.tail < max x.seen c.head ∨ c.head + 2 ^ c.log2 < c.tail then queueError s ctx x c (c.slot c.head) 1
      else (s.devTouch ctx x.qcb.toNat 128).modQueue ctx q fun x => { x with seen := c.tail })

/-- BARRIER of an entry (R80). -/
def QEntry.barrier (e : QEntry) : Bool := fieldOf e.bytes 1 1 % 2 == 1

/-- KIND of an entry. -/
def QEntry.kind (e : QEntry) : Nat := fieldOf e.bytes 0 1

/-- The entry to act on next (R81): the first not acted on, unless a WAITC or its own BARRIER holds it. A WAITC that has
not completed is acted on again. `clear` says that every earlier entry has completed. -/
def nextAct (clear : Bool) : List QEntry → Option QEntry
  | [] => none
  | e :: es =>
    if e.acted then
      if e.kind = 4 ∧ !e.done then some e else nextAct false es
    else if e.barrier && !clear then none
    else some e

/-- Whether an entry in hand waits for nothing but the Registrar, which acts on consumed entries at once (R81). -/
def toAct (x : Queue) : Bool := match nextAct true x.entries with | some e => !e.acted | none => false

/-- The code with which a work queue stops at the entry at its HEAD, or 0 (R76, R79, R361). -/
def workError (s : State) (ctx : Nat) (c : Qcb) : Nat :=
  match if c.kind = 2 ∧ c.head < c.tail then s.devRead ctx (c.slotAddr c.head) 64 else none with
  | some bs => entryError s ctx 2 bs
  | none => 0

/-- QUEUE_ENTRY_CONSUME (R78, R79, R81): the entry at HEAD is read and validated, and HEAD advances; or the queue stops. The entries
of a work queue are left to `qpop`. -/
def execQueueEntryConsume (ctx q : Nat) (s : State) : Host.Outcome State Fault Refusal :=
  .next (match s.qcb ctx q with
    | none => s
    | some (x, c) =>
      if c.state = 0 ∧ workError s ctx c ≠ 0 then queueError s ctx x c (c.slot c.head) (workError s ctx c)
      else if 1 < c.kind ∨ c.state ≠ 0 ∨ x.seen ≤ c.head ∨ x.stuck.isSome ∨ toAct x then s
      else
        match s.devRead ctx (c.slotAddr c.head) 64 with
        | none => s
        | some bs =>
          let code := entryError s ctx c.kind bs
          if code ≠ 0 then queueError s ctx x c (c.slot c.head) code
          else
            let e : QEntry := { idx := c.head, bytes := bs, acted := false, done := false, grid := none, parent := none, heldAt := none }
            let s1 := withdraw (putQcb (s.devTouch ctx (c.slotAddr c.head) 64) ctx x 0x40 (leBytes 8 (c.head + 1))) ctx q c.head x bs
            s1.modQueue ctx q fun x => { x with entries := x.entries ++ [e] })

/-- The entry of a kind that an event acts on, in a queue that is not held on a failed one. -/
def actOn (s : State) (ctx q kind : Nat) (k : Queue → QEntry → State) : Host.Outcome State Fault Refusal :=
  .next (match s.queue ctx q with
    | none => s
    | some x =>
      if x.stuck.isSome then s
      else match nextAct true x.entries with
        | none => s
        | some e => if e.kind = kind then k x e else s)

/-- Change an entry of a queue. -/
def modEntry (s : State) (ctx q idx : Nat) (f : QEntry → QEntry) : State :=
  s.modQueue ctx q fun x => { x with entries := x.entries.map fun e => if e.idx = idx then f e else e }

/-- An entry has been acted on and its action is done. -/
def entryDone (s : State) (ctx q idx : Nat) : State := modEntry s ctx q idx fun e => { e with acted := true, done := true }

/-- An entry could not be acted on (R79): the queue stops with code 7, holding its own copy. -/
def entryStuck (s : State) (ctx q : Nat) (x : Queue) (e : QEntry) : State :=
  let s1 := s.modQueue ctx q fun x => { x with stuck := some e.idx }
  match s1.qcb ctx q with
  | some (_, c) => queueError s1 ctx x c (c.slot e.idx) 7
  | none => s1

/-- SHAPE_ENTRY (R98): a shape word is resolved with T. -/
def execShapeEntry (ctx q : Nat) (s : State) : Host.Outcome State Fault Refusal :=
  actOn s ctx q 2 fun x e =>
    let a := fieldOf e.bytes 40 8
    match s.access ctx a s.free ⟨true, false, none⟩ with
    | .error _ => entryStuck s ctx q x e
    | .ok t =>
      if s.mem.poisonedUnder (s.keyId ctx) t.key 8 then entryStuck s ctx q x e
      else entryDone (resolveWord (s.used ctx a t) ctx a t (fieldOf e.bytes 48 4)).1 ctx q e.idx

/-- REPLAY_ENTRY (R80, R393). -/
def execReplayEntry (ctx q : Nat) (s : State) : Host.Outcome State Fault Refusal :=
  actOn s ctx q 3 fun _ e =>
    let a := fieldOf e.bytes 40 8
    let k := if fieldOf e.bytes 48 1 % 2 = 1 then ReplayKey.token (BitVec.ofNat 32 a) else .page a
    entryDone (replayAll s ctx k) ctx q e.idx

/-- Whether a completion record belongs to a live grid that launched with VOUCH_FIRST (R85, R365). -/
def vouchFirst (s : State) (ctx va : Nat) : Bool :=
  (gridsOf s ctx).any fun e => e.2.status.live && e.2.desc.completion.toNat == va && wfld e.2.desc.flags 4 1 == 1

/-- WAITC_ENTRY (R80, R81): the record's STATUS is read; the entry completes once it has reached MINSTAT. -/
def execWaitcEntry (ctx q : Nat) (s : State) : Host.Outcome State Fault Refusal :=
  actOn s ctx q 4 fun x e =>
    let a := fieldOf e.bytes 40 8
    match s.devRead ctx a 32 with
    | none => entryStuck s ctx q x e
    | some bs =>
      let m := if vouchFirst s ctx a then 3 else fieldOf e.bytes 48 1
      if m ≤ fieldOf bs 0 1 then entryDone (s.devTouch ctx a 32) ctx q e.idx
      else modEntry (s.devTouch ctx a 32) ctx q e.idx fun e => { e with acted := true }

/-- SIGNAL_ENTRY (R80, R81): 8 B are written. -/
def execSignalEntry (ctx q : Nat) (s : State) : Host.Outcome State Fault Refusal :=
  actOn s ctx q 5 fun x e =>
    let a := fieldOf e.bytes 40 8
    match s.access ctx a s.free ⟨true, false, none⟩ with
    | .error _ => entryStuck s ctx q x e
    | .ok t => entryDone (storeOpen (s.used ctx a t) ctx t (leBytes 8 (fieldOf e.bytes 48 8)) false) ctx q e.idx

/-- Whether a resolution of a shape word is still recorded for the switch-in of its context (R113). -/
def shapePending (s : State) (ctx va : Nat) : Bool :=
  (gridsOf s ctx).any fun e => e.2.pendingRes.isSome && e.2.desc.shapeAddr.toNat == va

/-- Whether an entry's completion condition holds (R80): a LAUNCH waits for its grid, VOUCHED under VOUCH_FIRST; a SHAPE until its
resolution has been applied. -/
def entryOver (s : State) (ctx : Nat) (e : QEntry) : Bool :=
  match e.grid.bind fun g => s.grid ctx g with
  | none => e.done && !(e.kind == 2 && shapePending s ctx (fieldOf e.bytes 40 8))
  | some g => if wfld g.desc.flags 4 1 = 1 then g.status.finished && g.status != .done else g.status.finished

/-- QUEUE_ENTRY_COMPLETE (R81): the `k`-th entry still in hand completes; with IRQ the host is told. -/
def execQueueEntryComplete (ctx q k : Nat) (s : State) : Host.Outcome State Fault Refusal :=
  .next (match s.queue ctx q with
    | none => s
    | some x =>
      match x.entries[k]? with
      | none => s
      | some e =>
        if !e.acted || !entryOver s ctx e then s
        else
          let s1 := s.modQueue ctx q fun x => { x with entries := x.entries.filter fun y => y.idx != e.idx }
          match if fieldOf e.bytes 1 1 / 2 % 2 = 1 then s.qcb ctx q else none with
          | some (_, c) => hostEvent s1 (.msi ctx c.msi)
          | none => s1)

/-- A queue held on a failed entry goes on (R79): the entry is acted on again, or completes without its action. -/
def resumeStuck (s : State) (ctx q : Nat) (skips : Bool) : State :=
  match (s.queue ctx q).bind Queue.stuck with
  | none => s
  | some i =>
    let s1 := s.modQueue ctx q fun x => { x with stuck := none }
    if skips then entryDone s1 ctx q i else modEntry s1 ctx q i fun e => { e with acted := false }

/-- QUEUE_RESTART (R79): system software writes QSTATE 0, with SKIP or not; a failed entry is acted on again, or completes
without its action. -/
def execQueueRestart (ctx q : Nat) (skip : Bool) (s : State) : Host.Outcome State Fault Refusal :=
  .next (match s.qcb ctx q with
    | none => s
    | some (x, c) =>
      let skips := skip || fld c.err 24 1 == 1
      let s1 := putQcb (putQcb s ctx x 0x54 (leBytes 4 (c.err - fld c.err 24 1 * 2 ^ 24))) ctx x 0x53 (leBytes 1 0)
      resumeStuck s1 ctx q skips)

/-- A write by the host or a peer to some bytes of memory restarts the queues whose QSTATE it sets to 0 (R79): SKIP is cleared. -/
def noteQstate (s : State) (key n : Nat) : State :=
  s.ctxs.foldl (fun s e => e.2.queues.foldl (fun s q =>
    if q.2.stuck.isNone then s
    else match s.access e.1 (q.2.qcb.toNat + 0x53) s.free ⟨false, false, none⟩, s.qcb e.1 q.1 with
      | .ok t, some (x, c) =>
        if key ≤ t.key ∧ t.key < key + n ∧ c.state = 0 then
          resumeStuck (putQcb s e.1 x 0x54 (leBytes 4 (c.err - fld c.err 24 1 * 2 ^ 24))) e.1 q.1 (fld c.err 24 1 == 1)
        else s
      | _, _ => s) s) s

/-- QUEUE_STOP (R79): system software writes QSTATE 1. -/
def execQueueStop (ctx q : Nat) (s : State) : Host.Outcome State Fault Refusal :=
  .next (match s.queue ctx q with
    | none => s
    | some x => putQcb s ctx x 0x53 (leBytes 1 1))

/-- Write a list of entries into the slots of a queue from an index on. -/
def putEntries (ctx : Nat) (c : Qcb) : Nat → List (List Byte) → State → State
  | _, [], s => s
  | i, b :: bs, s => putEntries ctx c (i + 1) bs (s.devPut ctx (c.slotAddr i) b)

/-- The forwarding engine gathers entries of a proxy queue, writes them to the true queue and advances its TAIL (R83): at
most 64, as many as find room. -/
def forward (s : State) (ctx q : Nat) (due : Qcb → Queue → Bool) : State :=
  match s.qcb ctx q with
  | none => s
  | some (x, c) =>
    if c.kind ≠ 3 || c.state != 0 || !due c x then s
    else
      match s.devRead ctx c.peer 128 with
      | none => s
      | some bs =>
        let t := qcbOf bs
        let n := min (min 64 (c.tail - c.head)) (t.head + 2 ^ t.log2 - t.tail)
        if n = 0 ∨ t.state ≠ 0 then s.devTouch ctx c.peer 128
        else
          let es := (List.range n).map fun i => (alook (c.slot (c.head + i)) x.slots).getD (List.replicate 64 0)
          let s1 := (putEntries ctx t t.tail es s).devPut ctx c.peer (leBytes 8 (t.tail + n))
          (putQcb s1 ctx x 0x40 (leBytes 8 (c.head + n))).modQueue ctx q fun x =>
            { x with lastGather := s.dev.now, banks := if c.tail = c.head + n then [] else x.banks }

/-- The FIFO-mode banks of a cluster that may take slots of a proxy queue: those of the context's cores that hold no words and serve
nothing else (R83, R244). -/
def freeFifoBanks (s : State) (ctx cluster : Nat) : List (Nat × Nat) :=
  ((List.range 16).map (16 * cluster + ·)).flatMap fun c =>
    if (s.core c).ctx != some ctx then []
    else ((List.range 64).filter fun b => ((s.core c).modes[b]?).getD .cache == .fifo && !traceBank (s.cfg ctx) b
      && !proxyBank s c b && (sget [] (s.core c).fifos b).isEmpty).map fun b => (c, b)

/-- The banks that hold a proxy queue's slots once a core of a cluster has pushed (R83): what it has there, or the lowest free ones,
of 512 slots each. None where they do not suffice. -/
def proxyBanks (s : State) (ctx core : Nat) (x : Queue) (c : Qcb) : Option (List (Nat × Nat)) :=
  if x.banks.any fun b => clusterOf b.1 == clusterOf core then some x.banks
  else
    let n := (2 ^ c.log2 + 511) / 512
    let free := freeFifoBanks s ctx (clusterOf core)
    if free.length < n then none else some (x.banks ++ free.take n)

/-- PROXY_FORWARD (R83): 64 entries have gathered. -/
def execProxyForward (ctx q : Nat) (s : State) : Host.Outcome State Fault Refusal :=
  .next (forward s ctx q fun c _ => decide (c.head + 64 ≤ c.tail))

/-- PROXY_FORWARD_TIMER (R83): 2 µs have passed since the last gather. -/
def execProxyForwardTimer (ctx q : Nat) (s : State) : Host.Outcome State Fault Refusal :=
  .next (forward s ctx q fun c x => decide (c.head < c.tail) && decide (x.lastGather + 5000 ≤ s.dev.now))

end Sys2Proof.Machine
end

