-- ==== Sys2Proof/Machine/Counters.lean ====
section
/-! DEFINITION. The counter sweeper (R425), draining trace buffers (R411 to R414), and cores passing from one context to another
(R124, R244, R246, R403). -/

namespace Sys2Proof.Machine

/-- Add to a 64-bit total of a context (R425); a skipped add is lost (R488). -/
def addTotal (s : State) (ctx num n : Nat) : State :=
  let a := (s.cfg ctx).counterBase.toNat + 8 * num
  if n = 0 then s
  else match s.devRead ctx a 8 with
    | none => skipAccess s ctx a
    | some bs => s.devPut ctx a (leBytes 8 (leNat bs + n))

/-- Add counters to the totals. -/
def addTotals (s : State) (ctx : Nat) (cnt : Sparse Nat) : State := cnt.foldl (fun s e => addTotal s ctx e.1 e.2) s

/-- Sweep a core's counters into its context's totals (R425). Under SWEEP_HOST the sweeper does not run. -/
def sweepCore (s : State) (core : Nat) : State :=
  match (s.core core).ctx with
  | none => s
  | some ctx =>
    if wfld (s.cfg ctx).dutyMode 5 1 = 1 then s
    else addTotals (s.modCore core fun c => { c with cnt := [] }) ctx (s.core core).cnt

/-- Cores a context runs on. -/
def coresOf (s : State) (ctx : Nat) : List Nat := (s.cores.filter fun e => e.2.ctx == some ctx).map Prod.fst

/-- Sweep every counter of a context: its cores' and the Registrar's. -/
def sweepAll (s : State) (ctx : Nat) : State :=
  if wfld (s.cfg ctx).dutyMode 5 1 = 1 then s
  else
    let s1 := (coresOf s ctx).foldl sweepCore s
    match s1.ctx ctx with
    | none => s1
    | some c => (addTotals (s1.modCtx ctx fun c => { c with rcnt := [] }) ctx c.rcnt).modCtx ctx
        fun c => { c with lastSweep := s.dev.now }

/-- SEG_LOG2 of a TRACE_CFG: 16 to 24, other values act as 20 (R412). -/
def segBytes (cfg : CtxCfg) : Nat :=
  let n := wfld cfg.traceCfg 8 8
  2 ^ (if 16 ≤ n ∧ n ≤ 24 then n else 20)

/-- A stream's control block (R413). -/
def streamBlock (cfg : CtxCfg) (src : Nat) : Nat := cfg.traceBase.toNat + 64 * src

/-- A stream's data segment (R413). -/
def streamSeg (cfg : CtxCfg) (src : Nat) : Nat := cfg.traceBase.toNat + 65536 + src * segBytes cfg

/-- Write bytes into a segment from an offset on, wrapping at its end (R414). -/
def segWrite (s : State) (ctx src off : Nat) (bs : List Byte) : Option State :=
  let cfg := s.cfg ctx
  let n := segBytes cfg
  let o := off % n
  let first := bs.take (n - o)
  (s.devWrite ctx (streamSeg cfg src + o) first).bind fun s1 =>
    if bs.length ≤ n - o then some s1 else s1.devWrite ctx (streamSeg cfg src) (bs.drop (n - o))

/-- Bytes a stream's segment has room for (R414). -/
def segRoom (s : State) (ctx src : Nat) (u : TraceUnit) : Option Nat :=
  (s.devRead ctx (streamBlock (s.cfg ctx) src + 8) 8).map fun rd => leNat rd + segBytes (s.cfg ctx) - u.wr

/-- A stream that a drain fault closes: STATUS 1 and a LOSS packet, where they can be written (R414). -/
def closeStream (s : State) (ctx src : Nat) (u : TraceUnit) : State :=
  let cfg := s.cfg ctx
  match s.devWrite ctx (streamBlock cfg src + 0x10) [1] with
  | none => s
  | some s1 =>
    let loss := hdrByte 15 0 :: leBytes 4 (min u.lost (2 ^ 32 - 1))
    let s2 := match segRoom s1 ctx src u with
      | none => s1
      | some n =>
        if n < 5 then s1
        else match segWrite s1 ctx src u.wr loss with
          | none => s1
          | some x => ((x.devWrite ctx (streamBlock cfg src) (leBytes 8 (u.wr + 5))).getD x).setUnit ctx src { u with wr := u.wr + 5 }
    s2

/-- A fault on the trace area: the context's trace is disabled on every source (R414). -/
def traceFail (s : State) (ctx src : Nat) : State :=
  match s.ctx ctx with
  | none => s
  | some c =>
    let s1 := (List.range (regStream + 1)).foldl (fun s i => closeStream s ctx i (sget TraceUnit.fresh c.units i)) s
    let s2 := s1.modCtx ctx fun c =>
      { c with traceOff := true, units := c.units.map fun e => (e.1, { e.2 with buf := [], bits := [], status := 1, lossless := false }) }
    hostEvent (countSrc ((coresOf s ctx).foldl releaseHold s2) ctx src evTraceFault) (.traceFault ctx)

/-- What more free space brings: LOSS and SYNC for the packets dropped, once they find room (R416); a hold ends at 2 KiB (R416);
an escaped buffer returns to lossless mode once half of it is free, with LOSS and SYNC (R417). -/
def afterDrain (s : State) (ctx src : Nat) : State :=
  let u := s.unit ctx src
  let cap := unitBytes (s.cfg ctx) src
  if u.escaped && decide (2 * u.buf.length ≤ cap) then
    countSrc (s.setUnit ctx src (({ u with escaped := false } : TraceUnit).loss ctx src (s.unitDie src) s.ptp)) ctx src evEscape
  else if u.lossless && u.heldSince.isSome && decide (u.buf.length + 2048 ≤ cap) then
    releaseHold (s.setUnit ctx src { u with heldSince := none }) src
  else s.setUnit ctx src (u.recover cap ctx src (s.unitDie src) s.ptp)

/-- One drain of a buffer (R414): RD, the bytes that fit, then WR. -/
def drainUnit (s : State) (ctx src : Nat) : State :=
  let u := s.unit ctx src
  match segRoom s ctx src u with
  | none => traceFail s ctx src
  | some room =>
    let n := min u.buf.length room
    match (segWrite s ctx src u.wr (u.buf.take n)).bind fun s1 =>
      s1.devWrite ctx (streamBlock (s.cfg ctx) src) (leBytes 8 (u.wr + n)) with
    | none => traceFail s ctx src
    | some s1 => afterDrain (s1.setUnit ctx src { u with buf := u.buf.drop n, wr := u.wr + n, lastDrain := s.ptp }) ctx src

/-- Whether a source of a context records. -/
def recording (s : State) (ctx : Nat) : Bool :=
  match s.ctx ctx with
  | some c => wfld c.eff.traceCfg 0 1 == 1 && !c.traceOff
  | none => false

/-- Drain a source of a context that records, the BR bits held first (R411, R421). -/
def drainSource (s : State) (ctx src : Nat) : State :=
  if recording s ctx then
    let s1 := flushUnit s ctx src
    if (s1.unit ctx src).buf.isEmpty then s1 else drainUnit s1 ctx src
  else s

/-- Whether a core may pass to a context: no other's packets are left in its trace buffer once that has been drained (R411). -/
def mayPass (s : State) (ctx core : Nat) : Bool :=
  match (s.core core).ctx with
  | none => true
  | some c => c == ctx || !recording s c || ((drainSource s c core).unit c core).buf.isEmpty

/-- Bank modes a context's BANK_CFG gives its cores (R244). -/
def modesOf (cfg : CtxCfg) : List BankMode :=
  let b := bankSplit cfg.bankCfg
  List.replicate (64 - b.1 - b.2.1) .cache ++ List.replicate b.2.1 .scratch ++ List.replicate b.1 .fifo

/-- Under SWEEP_HOST the counts of a core that leaves a context go on among the Registrar's of the context (R425): DESIGN CHOICE
(notes/assumptions/147). -/
def keepCounts (s : State) (ctx core : Nat) : State :=
  if wfld (s.cfg ctx).dutyMode 5 1 = 0 then s
  else s.modCtx ctx fun c =>
    { c with rcnt := (s.core core).cnt.foldl (fun r e => aput e.1 ((sget 0 r e.1 + e.2) % 2 ^ 32) r) c.rcnt }

/-- A core leaves its context: its L1 is written back and invalidated, its counters are swept, its FIFO banks emptied (R241, R246,
R403). -/
def dropCore (s : State) (core : Nat) : State :=
  let s0 := match (s.core core).ctx with
    | some ctx => keepCounts (drainSource s ctx core) ctx core
    | none => s
  (sweepCore (landDirty s0 core fun _ => true) core).modCore core fun c =>
    { c with ctx := none, fifos := [], missResv := none, cnt := [], dirty := [], old := [], granMap := [] }

/-- A core passes to a context: BANK_CFG sets its banks (R244); a trace without banks is counted (R411). -/
def takeCore (s : State) (ctx core : Nat) : State :=
  if (s.core core).ctx = some ctx then s
  else
    let cfg := s.cfg ctx
    let s1 := (dropCore s core).modCore core fun c => { c with ctx := some ctx, modes := modesOf cfg }
    let s2 := if (bankSplit cfg.bankCfg).2.2 then count s1 core evBankCfg else s1
    if wfld cfg.traceCfg 0 1 = 1 ∧ unitBytes cfg core = 0 then count s2 core evTraceFault else s2

/-- Both cores of a pair pass to a context (R124). -/
def takePair (s : State) (ctx core : Nat) : State := takeCore (takeCore s ctx (leaderOf core)) ctx (leaderOf core + 1)

end Sys2Proof.Machine
end

