-- ==== Sys2Proof/Machine/MatrixUnit.lean ====
section
/-! DEFINITION. The arithmetic of the matrix engine and of the epilogue chain (R72 to R74, R281 to R298): operand layouts,
group updates, poison, drained rows. -/

namespace Sys2Proof.Machine

/-- BFMT of a `%fmt` (R67). -/
def bfmtOf (f : Word) : Nat := wfld f 4 4

/-- ACC_MODE of a `%fmt` (R67). -/
def accModeOf (f : Word) : Nat := wfld f 12 2

/-- Whether SCALE_MODE selects B (R67). -/
def scaleB (f : Word) : Bool := wfld f 15 1 == 1

/-- E4M3 or E5M2. -/
def isF8 (c : Nat) : Bool := c == 2 || c == 3

/-- BF16, FP16, S8 or S4: the formats without scales (R72). -/
def noScale (c : Nat) : Bool := c == 0 || c == 1 || c == 6 || c == 7

/-- Whether `%fmt` names a pairing that `mma` accepts, with its accumulation and scale modes (R72). -/
def pairingOk (f : Word) : Bool :=
  let a := afmtOf f
  let b := bfmtOf f
  let m := accModeOf f
  (((a == 0 || a == 1 || a == 4 || a == 6 || a == 7) && a == b) || (isF8 a && (isF8 b || b == 5)))
    && (if a == 6 || a == 7 then m == 1 || m == 2 else m == 0)
    && !(scaleA f && noScale a) && !(scaleB f && noScale b)

/-- Bits of an element of a format code (R67): N4X is held as 4-bit slots. -/
def codeW (c : Nat) : Nat :=
  match c with
  | 0 | 1 => 16
  | 2 | 3 | 6 => 8
  | _ => 4

/-- K of a pairing, by AFMT (R281). -/
def kOf (a : Nat) : Nat := 2048 / codeW a

/-- Elements of a group (R73, R74). -/
def groupOf (a : Nat) : Nat := if a = 0 ∨ a = 1 then 16 else 32

/-- An element of a floating format code (R56). -/
def codeVal (c x : Nat) : FVal :=
  match c with
  | 0 => fmtB16.decode x
  | 1 => fmt16.decode x
  | 2 => fmtE4.decode x
  | 3 => fmtE5.decode x
  | _ => fmtE2.decode x

/-- The factor of an E8M0 scale (R64). -/
def scaleVal (x : Nat) : FVal := if x = 0xFF then .bad else .fin false 1 ((x : Int) - 127)

/-- The factor 1. -/
def unitVal : FVal := .fin false 1 0

/-- Word `i` of a list of words. -/
def wordAt (ws : List PWord) (i : Nat) : PWord := (ws[i]?).getD PWord.zero

/-- Byte `b` of a word. -/
def byteAt (w : PWord) (b : Nat) : Nat := fld w.val.toNat (8 * b) 8

/-- The word of element `k` of row `m` among the captured A words, and its lowest bit (R287). -/
def aPlace (a m k : Nat) : Nat × Nat := (64 * m + k * codeW a / 32, k * codeW a % 32)

/-- The code of element `k` of row `m` (R287). -/
def aBits (c : MatCmd) (m k : Nat) : Nat :=
  let a := afmtOf c.fmt
  let p := aPlace a m k
  fld (wordAt c.words p.1).val.toNat p.2 (codeW a)

/-- The scale byte of row `m` and group `g`: its word and byte (R288). -/
def aScale (m g : Nat) : Nat × Nat := (m / 8 * 32 + 4 * (m % 8) + g / 4, g % 4)

/-- Number of a latch register: core, set, slab, register (R284). -/
def latchNo (h set slab r : Nat) : Nat := ((h * 2 + set) * 4 + slab) * 64 + r

/-- A latch word. -/
def MatState.latchWord (m : MatState) (reg lane : Nat) : PWord := wordAt (sget [] m.latch reg) lane

/-- The latch register, lane and lowest bit of element (k, n) of a set of a core, formats other than N4X (R285). -/
def bPlace (b h set k n : Nat) : Nat × Nat × Nat :=
  match codeW b with
  | 16 => (latchNo h set (k / 32) (2 * (k % 32) + n / 64), n % 64 / 2, 16 * (n % 2))
  | 8 => (latchNo h set (k / 64) (k % 64), n / 4, 8 * (n % 4))
  | _ => (latchNo h set (k / 128) (k % 128 / 2), 16 * (k % 2) + n / 8, 4 * (n % 8))

/-- The latch register that holds column `n` under N4X (R285). -/
def n4xReg (h set n : Nat) : Nat := latchNo h set (n / 64) (n % 64)

/-- The two bytes of the quad that holds element (k, n) under N4X (R65, R285). -/
def n4xQuad (m : MatState) (h set k n : Nat) : Nat × Nat :=
  let w := m.latchWord (n4xReg h set n) (4 * (k / 32) + k % 32 / 8)
  let y := k % 32 / 4 % 2 * 2
  (byteAt w y, byteAt w (y + 1))

/-- The value of element (k, n) of a latch set (R285). -/
def bVal (m : MatState) (b h set k n : Nat) : FVal :=
  if b = 5 then
    let q := n4xQuad m h set k n
    ((decodeQuad q.1 q.2).1[k % 4]?).getD (ofInt 0)
  else
    let p := bPlace b h set k n
    codeVal b (fld (m.latchWord p.1 p.2.1).val.toNat p.2.2 (codeW b))

/-- The integer element (k, n) of a latch set. -/
def bInt (m : MatState) (b h set k n : Nat) : Int :=
  let p := bPlace b h set k n
  toSigned (codeW b) (fld (m.latchWord p.1 p.2.1).val.toNat p.2.2 (codeW b))

/-- The scale register, lane and byte of column `n` and group `g` of a set of a core (R286). -/
def bScale (h set n g : Nat) : Nat × Nat × Nat :=
  let q := n * 16 + g
  ((h * 2 + set) * 16 + q / 128, q % 128 / 4, q % 4)

/-- The scale word of a column and group. -/
def MatState.scaleWord (m : MatState) (h set n g : Nat) : PWord :=
  wordAt (sget [] m.scale (bScale h set n g).1) (bScale h set n g).2.1

/-- Whether an `mma` takes B scales (R286). -/
def usesB (f : Word) : Bool := bfmtOf f == 5 || (hasScale (bfmtOf f) && scaleB f)

/-- SET of a command. -/
def MatCmd.set (c : MatCmd) : Nat :=
  match c.instr with
  | .mma _ _ lset _ => lset.val
  | .mldb _ _ lset _ => lset.val
  | .mlds _ lset _ => lset.val
  | _ => 0

/-- One product of a group with its factors (R73). -/
def product (m : MatState) (c : MatCmd) (row h n k : Nat) : FVal × Nat :=
  let g := k / 32
  let fa := if usesA c.fmt then scaleVal (byteAt (wordAt c.scales (aScale row g).1) (aScale row g).2) else unitVal
  let fb := if usesB c.fmt then scaleVal (byteAt (m.scaleWord h c.set n g) (bScale h c.set n g).2.2) else unitVal
  let a := (fvMul (codeVal (afmtOf c.fmt) (aBits c row k)) fa).1
  let b := (fvMul (bVal m (bfmtOf c.fmt) h c.set k n) fb).1
  fvMul a b

/-- The exact sum of a group (R73). -/
def groupSum (m : MatState) (c : MatCmd) (row h n g : Nat) : FVal :=
  let gs := groupOf (afmtOf c.fmt)
  (List.range gs).foldl (fun s i => (fvAdd .rne s (product m c row h n (g * gs + i)).1).1) (.fin false 0 0)

/-- The exact integer sum of a group (R74). -/
def groupInt (m : MatState) (c : MatCmd) (row h n g : Nat) : Int :=
  (List.range 32).foldl (fun s i =>
    let k := g * 32 + i
    s + toSigned (codeW (afmtOf c.fmt)) (aBits c row k) * bInt m (bfmtOf c.fmt) h c.set k n) 0

/-- One group's update of an accumulator element (R73, R74). -/
def groupStep (m : MatState) (c : MatCmd) (row h n : Nat) (acc g : Nat) : Nat :=
  match accModeOf c.fmt with
  | 0 => add32 acc (fmt32.result .rne (groupSum m c row h n g)).bits
  | 1 => wrapBits 32 (toSigned 32 acc + groupInt m c row h n g)
  | _ => wrapBits 32 (clampInt (-(2 ^ 31)) (2 ^ 31 - 1) (toSigned 32 acc + groupInt m c row h n g))

/-- Groups along K of a command's pairing. -/
def groups (f : Word) : Nat := kOf (afmtOf f) / groupOf (afmtOf f)

/-- Whether a latch word that holds column `n` within the set is poisoned (R290). -/
def bPois (m : MatState) (f : Word) (h set n : Nat) : Bool :=
  let b := bfmtOf f
  if b = 5 then (List.range 32).any fun l => (m.latchWord (n4xReg h set n) l).pois
  else (List.range (kOf (afmtOf f))).any fun k => (m.latchWord (bPlace b h set k n).1 (bPlace b h set k n).2.1).pois

/-- Whether an operand of an element's update is poisoned (R290). -/
def mmaPois (m : MatState) (c : MatCmd) (row h n : Nat) : Bool :=
  let gs := List.range (kOf (afmtOf c.fmt) / 32)
  ((List.range 64).any fun i => (wordAt c.words (64 * row + i)).pois)
    || bPois m c.fmt h c.set n
    || (usesA c.fmt && gs.any fun g => (wordAt c.scales (aScale row g).1).pois)
    || (usesB c.fmt && gs.any fun g => (m.scaleWord h c.set n g).pois)

/-- The first `j` group updates of an element of pair column `x` of row `row` of an `mma` (R289, R290). -/
def mmaElem (m : MatState) (c : MatCmd) (row x : Nat) (acc : PWord) (j : Nat) : PWord :=
  if j = 0 then acc
  else
    let v := (List.range (min j (groups c.fmt))).foldl (groupStep m c row (x / 128) (x % 128)) acc.val.toNat
    ⟨BitVec.ofNat 32 v, acc.pois || mmaPois m c row (x / 128) (x % 128)⟩

/-- A row of the accumulator stores. -/
def MatState.accRow (m : MatState) (place : Nat) : List PWord := sget (List.replicate 256 PWord.zero) m.acc place

/-- Put a row of the accumulator stores. -/
def MatState.setRow (m : MatState) (place : Nat) (ws : List PWord) : MatState := { m with acc := aput place ws m.acc }

/-- An `mma` executes (R289). -/
def MatState.mma (m : MatState) (c : MatCmd) : MatState :=
  (List.range c.rows.length).foldl (fun acc i =>
    let place := (c.rows[i]?).getD 0
    acc.setRow place ((List.range 256).map fun x => mmaElem m c i x (wordAt (acc.accRow place) x) (groups c.fmt))) m

/-- An `mzero` executes (R311). -/
def MatState.mzero (m : MatState) (c : MatCmd) : MatState :=
  c.rows.foldl (fun m r => m.setRow r (List.replicate 256 PWord.zero)) m

/-- Whether an `mma` under N4X decodes a malformed quad, on either core (R65). -/
def n4xAnomaly (m : MatState) (c : MatCmd) : Bool :=
  bfmtOf c.fmt == 5 && (List.range 256).any fun x => (List.range 64).any fun q =>
    let p := n4xQuad m (x / 128) c.set (4 * q) (x % 128)
    (decodeQuad p.1 p.2).2

/-- What a latch or scale load writes (R308, R309). -/
def MatState.load (m : MatState) (c : MatCmd) : MatState :=
  let row := fun (r : Nat) => (c.words.drop (32 * r)).take 32
  match c.instr with
  | .mldb _ slab lset foll =>
    { m with latch := (List.range 64).foldl (fun l r => aput (latchNo foll.toNat lset.val slab.val r) (row r) l) m.latch }
  | .mlds _ lset foll =>
    { m with scale := (List.range 16).foldl (fun l r => aput ((foll.toNat * 2 + lset.val) * 16 + r) (row r) l) m.scale }
  | _ => m

/-- How many indivisible updates a command makes of an element of a row (R292). -/
def MatCmd.updates (c : MatCmd) (place : Nat) : Nat :=
  if c.rows.contains place then
    match c.instr with
    | .mma .. => groups c.fmt
    | .mzero .. => 1
    | _ => 0
  else 0

/-- What a racing drain sees of an element: the first updates of the commands under way, each computed with the latches that the
commands before it leave (R283, R292). -/
def raceElem (m : MatState) (place x : Nat) : List MatCmd → Nat → PWord → PWord
  | [], _, acc => acc
  | c :: cs, j, acc =>
    let m1 := m.load c
    match c.rows.findIdx? (· == place) with
    | none => raceElem m1 place x cs j acc
    | some i =>
      match c.instr with
      | .mma .. => raceElem m1 place x cs (j - groups c.fmt) (mmaElem m1 c i x acc j)
      | .mzero .. => raceElem m1 place x cs (j - 1) (if j = 0 then acc else PWord.zero)
      | _ => raceElem m1 place x cs j acc

/-- How many updates of an element the drains that have read it have seen of some commands (R292). -/
def seenOf (cs : List MatCmd) (k : Nat) : Nat := (cs.map fun c => sget 0 c.seen k).sum

/-- What a drain reads of an element, and how many updates of the commands under way it has then seen (R292): any value held since
its issue. `past` holds the values that commands completed since have replaced; the updates that drains before its issue had seen
are in every value. -/
def MatState.drainSees (m : MatState) (cs : List MatCmd) (d : MatCmd) (free place x : Nat) : PWord × Nat :=
  let k := place * 256 + x
  let old := sget [] d.past k
  let lo := sget 0 d.seen k
  let n := Config.freeNat free k % (old.length + (cs.map fun c => c.updates place).sum - lo + 1)
  match old[n]? with
  | some v => (v, lo)
  | none => (raceElem m place x cs (lo + (n - old.length)) (wordAt (m.accRow place) x), lo + (n - old.length))

/-- A drain that waits while a command completes keeps the values that the command's updates have replaced (R292). -/
def MatState.outlive (m : MatState) (c d : MatCmd) : MatCmd :=
  (c.rows.filter fun r => d.rows.contains r).foldl (fun d r => (List.range 256).foldl (fun d x =>
    let k := r * 256 + x
    let n := c.updates r
    let lo := min (sget 0 d.seen k) n
    { d with seen := sput 0 d.seen k (sget 0 d.seen k - lo)
             past := sput [] d.past k (sget [] d.past k ++ (List.range (n - lo)).map fun j =>
               raceElem m r x [c] (lo + j) (wordAt (m.accRow r) x)) }) d) d

/-- A drain at its issue: what earlier drains have seen of its elements, it sees too (R292). -/
def MatCmd.sinceIssue (d : MatCmd) (cs : List MatCmd) : MatCmd :=
  if cs.isEmpty then d
  else { d with seen := d.rows.foldl (fun a r => (List.range 256).foldl (fun a x =>
      sput 0 a (r * 256 + x) (seenOf cs (r * 256 + x))) a) [] }

/-- A drain has seen some updates of an element (R292). -/
def seenBy (place x : Nat) : Nat → List MatCmd → List MatCmd
  | _, [] => []
  | j, c :: cs =>
    let n := c.updates place
    if c.started.isSome && n != 0 then
      { c with seen := aput (place * 256 + x) (max (sget 0 c.seen (place * 256 + x)) (min j n)) c.seen } :: seenBy place x (j - n) cs
    else c :: seenBy place x j cs

/-- A binary32 field of the configuration. -/
def MatState.cfgVal (m : MatState) (off : Nat) : FVal := fmt32.decode (m.cfgWord off)

/-- Whether a configuration has LO ≥ HI (R293). -/
def MatState.loHiBad (m : MatState) : Bool := decide (0 ≤ fvCmp (m.cfgVal 8) (m.cfgVal 0x0C))

/-- A table entry (R293). -/
def MatState.tab (m : MatState) (i : Nat) : Nat := (sget 0 m.actTab i).toNat

/-- round(t + d × slope), where a product of 0 and an infinity counts as 0 (R295). -/
def endBranch (t d slope : Nat) : Nat :=
  let a := fmt32.decode d
  let b := fmt32.decode slope
  match a, b with
  | .inf _, .fin _ 0 _ => (fmt32.result .rne (fmt32.decode t)).bits
  | .fin _ 0 _, .inf _ => (fmt32.result .rne (fmt32.decode t)).bits
  | _, _ => (fmt32.fma .rne a b (fmt32.decode t)).bits

/-- The activation (R295). -/
def MatState.activate (m : MatState) (x : Nat) : Nat :=
  let xv := fmt32.decode x
  let lo := m.cfgWord 8
  let hi := m.cfgWord 0x0C
  if xv.isNaN then fmt32.canonNaN
  else if fvCmp xv (fmt32.decode lo) < 0 then endBranch (m.tab 0) (sub32 x lo) (m.cfgWord 0x14)
  else if 0 < fvCmp xv (fmt32.decode hi) then endBranch (m.tab 511) (sub32 x hi) (m.cfgWord 0x18)
  else
    let u := fmt32.decode (fmt32.mul .rne (fmt32.decode (sub32 x lo)) (m.cfgVal 0x10)).bits
    if u.isNaN then fmt32.canonNaN
    else
      let uc := if fvCmp u (ofInt 0) < 0 then ofInt 0 else if 0 < fvCmp u (ofInt 511) then ofInt 511 else u
      let i : Nat := match uc with
        | .fin n mm e => (clampInt 0 510 (roundInt .rz n mm e).1).toNat
        | _ => 0
      let f := (fvAdd .rne uc (ofInt (-(i : Int)))).1
      let dt := sub32 (m.tab (i + 1)) (m.tab i)
      (fmt32.fma .rne f (fmt32.decode dt) (fmt32.decode (m.tab i))).bits

/-- Stages of a drain: bias, activation, requantisation. -/
structure Stages where
  bias : Bool
  act : Bool
  req : Bool
  deriving DecidableEq, Repr

/-- Element `n` of a drained row before requantisation (R294). -/
def MatState.drainElem (m : MatState) (st : Stages) (n x0 : Nat) : Nat :=
  if !st.bias && !st.act && !st.req then x0
  else
    let x := if fld (m.cfgWord 0) 0 1 = 0 then x0 else (fmt32.roundFin .rne false (decide (toSigned 32 x0 < 0)) (toSigned 32 x0).natAbs 0).bits
    let y := if st.bias then add32 x (m.cfgWord (0x40 + 4 * n)) else x
    if st.act then m.activate y else y

/-- y × QSCALE, rounded and saturated to a format (R297). -/
def requant (f : Fmt) (y q : Nat) : Nat :=
  match (fvMul (fmt32.decode y) (fmt32.decode q)).1 with
  | .nan .. => f.canonNaN
  | .inf n => (f.infConv true n).bits
  | .fin n m e => (f.roundFin .rne true n m e).bits

/-- y × QSCALE as S8 (R297). -/
def requantS8 (y q : Nat) : Nat := (toInt .rne 8 (-128) 127 (fvMul (fmt32.decode y) (fmt32.decode q)).1).bits

/-- Words of packed elements, with the poison of the accumulator words that contributed (R298). -/
def packWords (w : Nat) (xs : List (Nat × Bool)) : List PWord :=
  let n := 32 / w
  (List.range (xs.length / n)).map fun i =>
    let g := (xs.drop (n * i)).take n
    ⟨BitVec.ofNat 32 (joinElems w (g.map Prod.fst)), g.any Prod.snd⟩

/-- The eight blocks of an N4X row (R297). -/
def n4xBlocks (m : MatState) (ys : List (Nat × Bool)) : List (N4X × Bool) :=
  (List.range 8).map fun j =>
    let g := (ys.drop (32 * j)).take 32
    (packN4X .rne (g.map fun y => fmt32.decode (fmt32.mul .rne (fmt32.decode y.1) (m.cfgVal 4)).bits), g.any Prod.snd)

/-- The four data words of an N4X block. -/
def n4xWords (b : N4X × Bool) : List PWord :=
  (packWords 8 (b.1.bytes.map fun x => (x, b.2)))

/-- A drained row: the words of its registers, and the words of its bytes in scratchpad (R294, R297, R298). -/
def MatState.drainRow (m : MatState) (st : Stages) (row : List PWord) : List PWord × List PWord :=
  let ys := (List.range 256).map fun n =>
    let w := wordAt row n
    (m.drainElem st n w.val.toNat, w.pois)
  let q := m.cfgWord 4
  let same := fun (ws : List PWord) => (ws, ws)
  if !st.req then same (packWords 32 ys)
  else
    match m.outFmt with
    | 0 => same (packWords 8 (ys.map fun y => (requant fmtE4 y.1 q, y.2)))
    | 1 => same (packWords 8 (ys.map fun y => (requant fmtE5 y.1 q, y.2)))
    | 2 => same (packWords 8 (ys.map fun y => (requantS8 y.1 q, y.2)))
    | 3 => same (packWords 16 (ys.map fun y => (requant fmtB16 y.1 q, y.2)))
    | _ =>
      let bs := n4xBlocks m ys
      let data := bs.flatMap n4xWords
      let scales := bs.map fun b => (b.1.scale, b.2)
      (data ++ (scales.map fun x => ⟨BitVec.ofNat 32 x.1, x.2⟩) ++ List.replicate 24 PWord.zero,
        data ++ packWords 8 scales ++ [PWord.zero, PWord.zero])

end Sys2Proof.Machine
end

