-- ==== Sys2Proof/Machine/Matrix.lean ====
section
/-! DEFINITION. Class 0x9: matrix and epilogue commands (R301 to R318), accumulator granules (R312 to R314), and the events
of the engine's queues. -/

namespace Sys2Proof.Machine

/-- POISON of the uniform operands of a command (R306), then `k`. -/
def uniClean (it : Iss) (s : State) (os : List Opd) (k : State) : State :=
  if os.any fun o => (it.src .n32 o 0).pois then raise it s .poison 0 it.act 0 else k

/-- Granules a block has reserved at placement (R133). -/
def accReserved (s : State) (bn : Nat) : Nat :=
  match s.gridOfWarp (widOf bn 0) with
  | some g => g.desc.accGran
  | none => 0

/-- Whether a block owns its pair's engine: it has matrix warps (R123, R282). -/
def ownsEngine (s : State) (bn : Nat) : Bool :=
  match s.block bn with
  | some b => isMatrixBlock s b
  | none => false

/-- H: the rows a block holds (R312). -/
def accRows (s : State) (bn : Nat) : Nat := 64 * (matOf s bn).grans.length

/-- ACCUM where rows lie outside the allocation, or there is none (R312), then `k`. -/
def rowsIn (it : Iss) (s : State) (r0 n : Nat) (k : State) : State :=
  if accRows s it.blk = 0 ∨ accRows s it.blk < r0 + n then raise it s .accum 0 it.act 0 else k

/-- The places of rows in the stores (R133). -/
def rowPlaces (m : MatState) (r0 n : Nat) : List Nat :=
  (List.range n).map fun i => 64 * (m.grans[(r0 + i) / 64]?).getD 0 + (r0 + i) % 64

/-- A ring operand: address and slot (R305). -/
def ringOpd (it : Iss) (o : Opd) (slot : Fin 64) : Option (Word × Nat) :=
  match o with
  | .s _ => some (BitVec.ofNat 32 (it.src .n32 o 0).v, slot.val)
  | _ => none

/-- ADDRESS for a ring that is not at a multiple of 64 (R305), then `k`. -/
def ringAligned (it : Iss) (s : State) (ring : Option (Word × Nat)) (k : State) : State :=
  match ring with
  | some (a, _) => if a.toNat % 64 ≠ 0 then raise it s .address 4 it.act a.toNat else k
  | none => k

/-- The words of `n` vector registers, lane by lane (R287, R308). -/
def Iss.vecWords (it : Iss) (o : Opd) (n : Nat) : List PWord :=
  match o with
  | .v r => (List.range (32 * n)).map fun i => it.w.vget (r.val + i / 32) (i % 32)
  | _ => []

/-- A command captured at issue, without its own operands. -/
def newCmd (it : Iss) (id : Nat) : MatCmd :=
  { id := id, wid := it.wid, instr := it.instr, fmt := it.w.run.fmt, rows := [], words := [], scales := [], ring := none,
    addr := 0, stride := 0, started := none, seen := [], past := [] }

/-- Put a command into the matrix queue (R283, R303): it counts on its flag when it is long (R304). -/
def toMatrixQueue (it : Iss) (s : State) (f : MatCmd → MatCmd) (long : Bool) : State :=
  let lead := leaderOf it.core
  let id := ((s.pair lead).mseq + 1) % 2 ^ 32
  let s1 := s.modPair lead fun p => { p with mq := p.mq ++ [f (newCmd it id)], mseq := id }
  if long then pendLong it s1 (.mat id) [] [] else commit it s1 id'
where
  /-- No write at issue. -/
  id' (w : Warp) : Warp := w

/-- Put a command into the epilogue queue: the command's number (R283, R303). -/
def toEpilogueQueue (it : Iss) (s : State) (f : MatCmd → MatCmd) : State × Nat :=
  let lead := leaderOf it.core
  let id := ((s.pair lead).eseq + 1) % 2 ^ 32
  (s.modPair lead fun p => { p with eq := p.eq ++ [(f (newCmd it id)).sinceIssue p.mq], eseq := id }, id)

/-- `mldb` (R308). -/
def execMldb (o : Opnds) (slab : Fin 4) (lset : Fin 2) (foll : Bool) (s : State) : Host.Outcome State Fault Refusal :=
  issue (.mldb o slab lset foll) s fun it s =>
    if it.act = 0 then commit it s id
    else toMatrixQueue it s (fun c => { c with words := it.vecWords it.o.a 64 }) true

/-- `mlds` (R309). -/
def execMlds (o : Opnds) (lset : Fin 2) (foll : Bool) (s : State) : Host.Outcome State Fault Refusal :=
  issue (.mlds o lset foll) s fun it s =>
    if it.act = 0 then commit it s id
    else toMatrixQueue it s (fun c => { c with words := it.vecWords it.o.a 16 }) true

/-- `mma` (R310, R318): POISON, FORMAT, ACCUM, the ring, then the queue. -/
def execMma (o : Opnds) (mm1 : Fin 32) (lset : Fin 2) (slot : Fin 64) (s : State) : Host.Outcome State Fault Refusal :=
  issue (.mma o mm1 lset slot) s fun it s =>
    let m := mm1.val + 1
    let f := it.w.run.fmt
    let r0 := (it.src .n32 it.o.c 0).v
    let ring := ringOpd it it.o.d slot
    if it.act = 0 then commit it s id
    else uniClean it s [it.o.d, it.o.c]
      (if !pairingOk f || (usesA f && it.o.b == .zero) then raise it s .format 0 it.act 0
      else rowsIn it s r0 m (ringAligned it s ring
        (toMatrixQueue it s (fun c =>
          { c with rows := rowPlaces (matOf s it.blk) r0 m, ring := ring, words := it.vecWords it.o.a (2 * m)
                   scales := if usesA f then it.vecWords it.o.b ((m + 7) / 8) else [] }) true)))

/-- `mzero` (R311). -/
def execMzero (o : Opnds) (s : State) : Host.Outcome State Fault Refusal :=
  issue (.mzero o) s fun it s =>
    let n := (it.src .n32 it.o.b 0).v
    let r0 := (it.src .n32 it.o.c 0).v
    if it.act = 0 then commit it s id
    else uniClean it s [it.o.b, it.o.c] (rowsIn it s r0 n
      (if n = 0 then commit it s id
      else toMatrixQueue it s (fun c => { c with rows := rowPlaces (matOf s it.blk) r0 n }) false))

/-- Granules of a pair that are free and cleared (R133). -/
def freeGranules (s : State) (lead : Nat) : List Nat :=
  let p := s.pair lead
  let held := match p.owner with
    | some bn => (matOf s bn).grans
    | none => []
  (List.range 256).filter fun g => !held.contains g && !p.clearing.contains g

/-- Warps that wait for granules of a pair, with the number their wait began at (R313). -/
def accWaiters (s : State) (lead : Nat) : List (Nat × Nat × Bool) :=
  s.warps.filterMap fun e =>
    match e.2.wait, e.2.loc with
    | some (.acalloc _ _ since), some (c, _) => if c = lead then some (e.1, since, true) else none
    | _, _ => none

/-- Grant dynamic granules to a block (R313): the status word. -/
def grantGranules (s : State) (bn lead g : Nat) : State × Nat :=
  let first := accRows s bn
  (s.modBlock bn fun b =>
    { b with mat := { b.mat with grans := b.mat.grans ++ (freeGranules s lead).take g, dyn := b.mat.dyn + g } },
   first * 2 ^ 16)

/-- The other waiters of a block that now holds dynamic granules leave the list with status 2 (R313). -/
def dismissWaiters (s : State) (bn : Nat) : State :=
  (s.warpsOf bn).foldl (fun s e =>
    match e.2.wait with
    | some (.acalloc _ d _) => finishWait s e.1 d 2
    | _ => s) s

/-- `acalloc` (R313). -/
def execAcalloc (o : Opnds) (wait : Bool) (s : State) : Host.Outcome State Fault Refusal :=
  issue (.acalloc o wait) s fun it s =>
    let lead := leaderOf it.core
    let g := (it.src .n32 it.o.a 0).v
    let put := fun (x : Nat) (w : Warp) => w.dput .b32 it.o.d it.act fun _ => ⟨x, false⟩
    if it.act = 0 then commit it s id
    else uniClean it s [it.o.a]
      (if g = 0 ∨ 256 - accReserved s it.blk < g then commit it s (put 3)
      else if g ≤ (freeGranules s lead).length ∧ (accWaiters s lead).isEmpty then
        let r := grantGranules s it.blk lead g
        commit it r.1 (put r.2)
      else if !wait then commit it s (put 1)
      else if (matOf s it.blk).dyn ≠ 0 then commit it s (put 2)
      else { parkWait s it.wid (.acalloc g it.o.d s.cmdNext) with cmdNext := s.cmdNext + 1 })

/-- Whether a queued command of a pair names a row of some granules (R314). -/
def granulesNamed (s : State) (lead : Nat) (gs : List Nat) : Bool :=
  let p := s.pair lead
  (p.mq ++ p.eq).any fun c => c.rows.any fun r => gs.contains (r / 64)

/-- `acfree` (R314). -/
def execAcfree (o : Opnds) (s : State) : Host.Outcome State Fault Refusal :=
  issue (.acfree o) s fun it s =>
    let lead := leaderOf it.core
    if it.act = 0 then commit it s id
    else uniClean it s [it.o.a]
      (let m := matOf s it.blk
      let n := min (it.src .n32 it.o.a 0).v m.dyn
      let gs := m.grans.drop (m.grans.length - n)
      let s1 := (s.modBlock it.blk fun b =>
        { b with mat := { b.mat with grans := b.mat.grans.take (m.grans.length - n), dyn := b.mat.dyn - n } }).modPair lead
          fun p => { p with clearing := p.clearing ++ gs }
      let s2 := commit it s1 fun w => w.dput .b32 it.o.d it.act fun _ => ⟨n, false⟩
      if granulesNamed s lead gs then s2.modWarp it.wid fun w => { w with wait := some (.accClear gs) } else s2)

/-- `epcfg` and `actld` up to the queue (R315): the warp stalls until the command has executed. -/
def epilogueLoad (it : Iss) (s : State) (n : Nat) : State :=
  let a := (it.src .n32 it.o.a 0).v
  if it.act = 0 then commit it s id
  else uniClean it s [it.o.a]
    (if !ownsEngine s it.blk then raise it s .accum 0 it.act 0
    else if 2 ^ 31 ≤ a ∨ (scrAddr s it.blk a n).isNone then raise it s .address 0 it.act a
    else if a % 64 ≠ 0 then raise it s .misaligned 0 it.act a
    else
      let r := toEpilogueQueue it s fun c => { c with addr := a }
      r.1.modWarp it.wid fun w => { w with wait := some (.engine r.2) })

/-- `epcfg` (R315). -/
def execEpcfg (o : Opnds) (s : State) : Host.Outcome State Fault Refusal :=
  issue (.epcfg o) s fun it s => epilogueLoad it s 1088

/-- `actld` (R315). -/
def execActld (o : Opnds) (s : State) : Host.Outcome State Fault Refusal :=
  issue (.actld o) s fun it s => epilogueLoad it s 2048

/-- The checks that `mdrain` and `mdrains` share: POISON, FORMAT, ACCUM (R316, R318), then `k`. -/
def drainChecks (it : Iss) (s : State) (act : Bool) (n : Nat) (os : List Opd) (k : State) : State :=
  uniClean it s os
    (if act && (matOf s it.blk).loHiBad then raise it s .format 0 it.act 0
    else rowsIn it s (it.src .n32 it.o.a 0).v n k)

/-- `mdrain` (R316, R318). -/
def execMdrain (o : Opnds) (bias act req : Bool) (rm1 : Fin 8) (slot : Fin 64) (s : State) :
    Host.Outcome State Fault Refusal :=
  issue (.mdrain o bias act req rm1 slot) s fun it s =>
    let n := rm1.val + 1
    let m := matOf s it.blk
    let g := drainRegs req m.outFmt
    let ring := ringOpd it it.o.c slot
    let r0 := (it.src .n32 it.o.a 0).v
    let base := match it.o.d with
      | .v r => r.val
      | _ => 0
    if it.act = 0 then commit it s id
    else drainChecks it s act n [it.o.a, it.o.c]
      (if 128 < base + n * g ∨ it.w.budget < base + n * g then raise it s .illegalEncoding 0 it.act 0
      else ringAligned it s ring
        (let r := toEpilogueQueue it s fun c => { c with rows := rowPlaces m r0 n, ring := ring, addr := base }
        pendLong it r.1 (.mat r.2) ((List.range (n * g)).map fun j => (base + j, 0, PWord.zero)) []))

/-- `mdrains` (R316, R318). -/
def execMdrains (o : Opnds) (bias act req : Bool) (rm1 : Fin 8) (slot : Fin 64) (s : State) :
    Host.Outcome State Fault Refusal :=
  issue (.mdrains o bias act req rm1 slot) s fun it s =>
    let n := rm1.val + 1
    let m := matOf s it.blk
    let z := drainBytes req m.outFmt
    let ring := ringOpd it it.o.c slot
    let r0 := (it.src .n32 it.o.a 0).v
    let a := (it.src .n32 it.o.d 0).v
    let t := (it.src .n32 it.o.b 0).v
    if it.act = 0 then commit it s id
    else drainChecks it s act n [it.o.d, it.o.a, it.o.b, it.o.c]
      (if a % 16 ≠ 0 ∨ t % 16 ≠ 0 then raise it s .misaligned 0 it.act a
      else if 2 ^ 31 ≤ a ∨ (1 < n ∧ t < z) ∨ (scrAddr s it.blk a ((n - 1) * t + z)).isNone then
        raise it s .address 0 it.act a
      else ringAligned it s ring
        (commit it (toEpilogueQueue it s fun c =>
          { c with rows := rowPlaces m r0 n, ring := ring, addr := a, stride := t }).1 id))

/-- The arrival of a command on its ring as it completes (R252, R305), a release by both cores of the engine's pair; a ring that
refuses it faults its warp. -/
def matArrive (s : State) (lead : Nat) (c : MatCmd) : State :=
  match c.ring with
  | none => s
  | some (a, slot) =>
    match ringAt s (blkOf c.wid) a.toNat slot with
    | none => asyncFault s c.wid .address 0 a.toNat 0
    | some r =>
      if r.bad slot then asyncFault s c.wid .address 4 a.toNat 0
      else ringArrive (engineRelease (engineRelease s c.wid lead a) c.wid (lead + 1) a) r slot

/-- A completed long-latency command no longer counts on its flag (R304). -/
def matDone (s : State) (c : MatCmd) : State :=
  s.modWarp c.wid fun w => { w with pend := w.pend.filter fun p => p.kind != .mat c.id }

/-- Change the matrix state of a command's block. -/
def modMat (s : State) (bn : Nat) (f : MatState → MatState) : State := s.modBlock bn fun b => { b with mat := f b.mat }

/-- Whether an engine's queue moves: not while it is being reset (R478). -/
def engRuns (s : State) (lead : Nat) : Bool := (s.pair lead).engReset.isNone

/-- Start the first command that has not started. -/
def startFirst (now : Nat) : List MatCmd → List MatCmd
  | [] => []
  | c :: cs => if c.started.isSome then c :: startFirst now cs else { c with started := some now } :: cs

/-- A command of the matrix queue starts (R283). -/
def execMatrixCommandExecute (lead : Nat) (s : State) : Host.Outcome State Fault Refusal :=
  .next (match (s.pair lead).mq.find? fun c => c.started.isNone with
    | some c => if engRuns s lead then
        matPacket (s.modPair lead fun p => { p with mq := startFirst (s.nonStalled lead) p.mq }) lead 0 1 c else s
    | none => s)

/-- What a matrix command writes (R289, R308, R309, R311). -/
def MatState.runMatrix (m : MatState) (c : MatCmd) : MatState :=
  match c.instr with
  | .mma .. => m.mma c
  | .mzero .. => m.mzero c
  | _ => m.load c

/-- The first command of the matrix queue completes (R304): its writes, its flag, its arrival. -/
def execMatrixCommandComplete (lead : Nat) (s : State) : Host.Outcome State Fault Refusal :=
  .next (match (s.pair lead).mq with
    | [] => s
    | c :: cs =>
      if c.started.isNone || !engRuns s lead then s
      else
        let bn := blkOf c.wid
        let isMma := match c.instr with
          | .mma .. => true
          | _ => false
        let s1 := if isMma && n4xAnomaly (matOf s bn) c then count s lead evN4X else s
        let s2 := (modMat s1 bn fun m => m.runMatrix c).modPair lead fun p =>
          { p with mq := cs, eq := p.eq.map ((matOf s bn).outlive c) }
        matArrive (matPacket (matDone s2 c) lead 1 1 c) lead c)

/-- A command of the epilogue queue starts (R283): `epcfg` and `actld` only when every earlier one has completed (R315). -/
def execEpilogueCommandExecute (lead : Nat) (s : State) : Host.Outcome State Fault Refusal :=
  .next (match (s.pair lead).eq.find? fun c => c.started.isNone with
    | some c =>
      let first := (s.pair lead).eq.head?.map MatCmd.id == some c.id
      let load := match c.instr with
        | .epcfg _ | .actld _ => true
        | _ => false
      if engRuns s lead && (first || !load) then
        matPacket (s.modPair lead fun p => { p with eq := startFirst (s.nonStalled lead) p.eq }) lead 0 2 c else s
    | none => s)

/-- Whether 1,088 bytes are not a configuration (R293). -/
def badConfig (bs : List Byte) : Bool :=
  let ctrl := fieldOf bs 0 4
  let lo := fmt32.decode (fieldOf bs 8 4)
  let hi := fmt32.decode (fieldOf bs 0x0C 4)
  decide (16 ≤ ctrl) || decide (4 < fld ctrl 1 3) || fieldOf bs 0x1C 36 != 0
    || !lo.isFin || !hi.isFin || decide (0 ≤ fvCmp lo hi)

/-- `epcfg` or `actld` executes (R293, R315): the trap at the command, or the new contents. -/
def runLoad (s : State) (c : MatCmd) (n : Nat) (bad : List Byte → Bool) (put : List Byte → MatState → MatState) : State :=
  match s.warp c.wid, scrAddr s (blkOf c.wid) c.addr n with
  | some w, some p =>
    let d := scrRead s p n
    let trap := fun (k : Cause) =>
      takeTrap (s.modWarp c.wid fun w => { w with wait := none }) c.wid ⟨k, 0, 0, w.run.mask, 0, 0, false⟩
    if d.2 then trap .poison
    else if bad d.1 then trap .format
    else (modMat s (blkOf c.wid) (put d.1)).modWarp c.wid fun w => { w with wait := none }.advance
  | _, _ => s

/-- The commands of a pair's matrix queue that have started: a drain races with them (R292). -/
def racing (s : State) (lead : Nat) : List MatCmd := (s.pair lead).mq.filter fun c => c.started.isSome

/-- The rows a drain reads (R292). -/
def drainRows (s : State) (lead : Nat) (c : MatCmd) : List (List PWord) :=
  c.rows.map fun r => (List.range 256).map fun x => ((matOf s (blkOf c.wid)).drainSees (racing s lead) c s.free r x).1

/-- What a drain has seen of the commands it races with, drains issued from then on see too (R292). -/
def noteSeen (s : State) (lead : Nat) (c : MatCmd) : State :=
  let cs := racing s lead
  if cs.isEmpty then s
  else s.modPair lead fun p => { p with mq := c.rows.foldl (fun q r =>
    (List.range 256).foldl (fun q x => seenBy r x ((matOf s (blkOf c.wid)).drainSees cs c s.free r x).2 q) q) p.mq }

/-- The lanes of a warp's slices that have not retired (R165, R316). -/
def Warp.liveLanes (w : Warp) : Word :=
  maskOf fun l => ((w.slices[l / 8]?).bind fun x => x).isSome

/-- Deliver the rows of an `mdrain` to registers (R298, R316), but for those a debugger has written since (R406). -/
def drainToRegs (s : State) (c : MatCmd) (ws : List PWord) : State :=
  s.modWarp c.wid fun w =>
    let due := (w.pend.filter fun p => p.kind == .mat c.id).flatMap fun p => p.vw.map Prod.fst
    (List.range (ws.length / 32)).foldl (fun w j =>
      if due.contains (c.addr + j) then w.vput (c.addr + j) w.liveLanes fun l => wordAt ws (32 * j + l) else w) w

/-- Cells that the rows of an `mdrain` still take (R127). -/
def drainCells (w : Warp) (c : MatCmd) (n : Nat) : Nat :=
  ((List.range n).flatMap fun j => (slicesOf w.liveLanes).map (cellNo (c.addr + j))).countP fun x => !w.cells.contains x

/-- Deliver the rows of an `mdrains` to scratchpad (R298, R317). -/
def drainToScratch (s : State) (c : MatCmd) (rows : List (List PWord)) : State :=
  (List.range rows.length).foldl (fun s i =>
    let ws := (rows[i]?).getD []
    (List.range ws.length).foldl (fun s j =>
      let x := wordAt ws j
      scrWrite s (some (blkOf c.wid), c.addr + i * c.stride + 4 * j) (leBytes 4 x.val.toNat) x.pois) s) s

/-- The first command of the epilogue queue completes (R304, R315, R316); an `mdrain` waits for the cells it writes (R129). -/
def execEpilogueCommandComplete (lead : Nat) (s : State) : Host.Outcome State Fault Refusal :=
  .next (match (s.pair lead).eq with
    | [] => s
    | c :: cs =>
      if c.started.isNone || !engRuns s lead then s
      else
        let m := matOf s (blkOf c.wid)
        let s1 := matPacket ((noteSeen s lead c).modPair lead fun p => { p with eq := cs }) lead 1 2 c
        match c.instr with
        | .epcfg _ => runLoad s1 c 1088 badConfig fun bs m =>
            { m with epCfg := (List.range 1088).foldl (fun l i => sput 0 l i ((bs[i]?).getD 0)) m.epCfg }
        | .actld _ => runLoad s1 c 2048 (fun _ => false) fun bs m =>
            { m with actTab := (List.range 512).foldl (fun l i => sput 0 l i (BitVec.ofNat 32 (fieldOf bs (4 * i) 4))) m.actTab }
        | .mdrain _ bias act req _ _ =>
          let rows := (drainRows s lead c).map fun r => (m.drainRow ⟨bias, act, req⟩ r).1
          let w := (s.warp c.wid).map fun w => (w.core, drainCells w c (rows.flatten.length / 32))
          let core := (w.map Prod.fst).getD 0
          let need := (w.map Prod.snd).getD 0
          let r := makeRoom s core c.wid need
          if poolFree r core < need then r
          else matArrive (matDone (drainToRegs (makeRoom s1.takeFree core c.wid need) c rows.flatten) c) lead c
        | .mdrains _ bias act req _ _ =>
          let rows := (drainRows s lead c).map fun r => (m.drainRow ⟨bias, act, req⟩ r).2
          matArrive (drainToScratch s1.takeFree c rows) lead c
        | _ => s1)

/-- Granules being cleared that no queued command names are zero and free (R133, R246, R314). -/
def execAccumGranulesCleared (lead : Nat) (s : State) : Host.Outcome State Fault Refusal :=
  let p := s.pair lead
  let done := p.clearing.filter fun g => !granulesNamed s lead [g]
  let s1 := s.modPair lead fun p => { p with clearing := p.clearing.filter fun g => !done.contains g }
  let s2 := if done.isEmpty then s1 else freeCores s1 [lead]
  .next (match p.owner with
    | some bn => modMat s2 bn fun m => { m with acc := m.acc.filter fun e => !done.contains (e.1 / 64) }
    | none => s2)

end Sys2Proof.Machine
end

