-- ==== Sys2Proof/Machine/Save.lean ====
section
/-! DEFINITION. Saving a block (R397 to R401) and what of it is restored (R402): stop points, save kinds, the records
written into the save area, and the state the Registrar keeps of a saved block. -/

namespace Sys2Proof.Machine

/-- How a stopped warp is saved: as it stopped, or HEAVY once it is halted (R398). -/
def Warp.note (w : Warp) : StopNote := if w.halted then ⟨.heavy, none⟩ else w.stop.getD ⟨.heavy, none⟩

/-- Blocks pre-empted together (R396): a cooperative grid, or a gang. -/
def preemptGroup (s : State) (bn : Nat) : List Nat :=
  match s.block bn with
  | none => []
  | some b =>
    match s.gridOf b with
    | some g => if wfld g.desc.flags 0 1 = 1 then (liveBlocks s b.ctx b.gid).map Prod.fst else gangOf s bn
    | none => [bn]

/-- Accumulator words by the row's number in its block (R133). -/
def relAcc (m : MatState) : Sparse (List PWord) :=
  (m.acc.filterMap fun e =>
    match m.grans.findIdx? (· == e.1 / 64) with
    | some i => some (64 * i + e.1 % 64, e.2)
    | none => none).foldl (fun a e => aput e.1 e.2 a) []

/-- The words of a row number list's accumulator rows. -/
def absAcc (grans : List Nat) (rel : Sparse (List PWord)) : Sparse (List PWord) :=
  rel.foldl (fun a e =>
    match grans[e.1 / 64]? with
    | some g => aput (64 * g + e.1 % 64) e.2 a
    | none => a) []

/-- Bytes as unpoisoned words. -/
def plainWords (bs : List Byte) : List PWord :=
  (List.range ((bs.length + 3) / 4)).map fun i => ⟨BitVec.ofNat 32 (fieldOf bs (4 * i) 4), false⟩

/-- A section: its words, then the bitmap of their poison marks (R400). -/
def sectionBytes (ws : List PWord) : List Byte :=
  ws.flatMap (fun x => leBytes 4 x.val.toNat) ++ (List.range ((ws.length + 7) / 8)).map fun i =>
    BitVec.ofNat 8 ((List.range 8).foldl (fun a j => if ((ws[8 * i + j]?).map PWord.pois).getD false then a + 2 ^ j else a) 0)

/-- Vector registers of a warp that hold a cell. -/
def heldRegs (w : Warp) : List Nat := (List.range 128).filter fun r => (List.range 4).any fun sl => w.cells.contains (cellNo r sl)

/-- WAIT of a warp record and its wait-table entry (R400, R460): a halted warp's wait, or 4 where it was running. -/
def waitCode (w : Warp) : Nat × Nat :=
  match w.wait with
    | none => (if w.halted then 4 else 0, 0xFFFFFFFF)
    | some .held => (if w.halted && w.heldTrap.isSome then 4 else 1, 0xFFFFFFFF)
    | some (.fault (some i)) => (2, i)
    | some (.fault none) => (3, 0xFFFFFFFF)
    | some _ => (1, 0xFFFFFFFF)

/-- Codes of the save kinds. -/
def SaveKind.code : SaveKind → Nat
  | .light => 0
  | .full => 1
  | .heavy => 2

/-- The fixed part of a warp record, FRONT, uniform and vector words (R400). `front` leaves the entries in or out. -/
def warpRecord (w : Warp) (no : Nat) (kind : SaveKind) (regs : List Nat) (front : Bool) : List PWord :=
  let c := waitCode w
  let bits := fun (f : Nat → Bool) (n : Nat) => (List.range n).foldl (fun a i => if f i then a + 2 ^ i else a) 0
  plainWords (leBytes 1 kind.code ++ leBytes 1 c.1 ++ leBytes 2 no ++ leBytes 8 w.run.pc.toNat ++ leBytes 1 w.run.widx
    ++ leBytes 1 w.entries.length ++ leBytes 1 (bits (fun i => ((w.slices[i]?).getD none).isSome) 4)
    ++ leBytes 1 (bits (fun i => (w.q[i]?).getD false) 3)
    ++ leBytes 4 w.run.mask.toNat ++ leBytes 4 w.run.fmt.toNat ++ leBytes 4 w.run.mfmt.toNat ++ leBytes 4 w.run.age.toNat
    ++ leBytes 4 w.dseq.toNat ++ leBytes 4 w.fstat.toNat ++ leBytes 4 c.2 ++ leBytes 4 0
    ++ leBytes 16 (bits (fun i => regs.contains i) 128)
    ++ (List.range 7).flatMap (fun i => leBytes 4 ((w.p[i]?).getD 0).toNat) ++ List.replicate 36 0
    ++ (if front then w.entries.flatMap fun e => e.path.bytes else []))
  ++ (List.range 96).map w.sget ++ regs.flatMap fun r => (List.range 32).map (w.vget r)

/-- The 40 B of a saved copy command (R400). -/
def CopyCmd.saveBytes (c : CopyCmd) : List Byte :=
  c.blk.flatMap (fun x => leBytes 4 x.toNat)
    ++ leBytes 4 (match c.ring with | some r => r.1.toNat | none => 0)
    ++ leBytes 4 (match c.ring with | some r => r.2 + 64 | none => 0)

/-- Words of a range of a block's scratchpad. -/
def scrRange (b : Block) (o n : Nat) : List PWord :=
  (List.range (n / 4)).map fun i =>
    ⟨BitVec.ofNat 32 (leNat ((List.range 4).map fun j => sget 0 b.scr (o + 4 * i + j))), b.scrPois.contains (o / 4 + i)⟩

/-- What a block's save covers: scratchpad and accumulator ranges (offset or row, length), latch sets (R399). -/
structure SaveScope where
  scr : List (Nat × Nat)
  acc : List (Nat × Nat)
  sets : List Nat
  deriving DecidableEq, Repr

/-- The scope of a Catalogue entry (R17). NSCR above 6 and NACC above 4 count as 6 and 4; DESIGN CHOICE (notes/assumptions/32). -/
def entryScope (e : List Byte) : SaveScope :=
  { scr := (List.range (min 6 (fieldOf e 4 1))).map fun i => (fieldOf e (0x28 + 8 * i) 4, fieldOf e (0x2C + 8 * i) 4),
    acc := (List.range (min 4 (fieldOf e 5 1))).map fun i => (fieldOf e (0x58 + 4 * i) 2, fieldOf e (0x5A + 4 * i) 2),
    sets := (List.range 2).filter fun i => fieldOf e 6 1 / 2 ^ i % 2 == 1 }

/-- The runs of consecutive numbers below `n` with a property. -/
def runsOf (p : Nat → Bool) (n : Nat) : List (Nat × Nat) :=
  (List.range n).foldr (fun i l =>
    if p i then match l with
      | (j, k) :: r => if j = i + 1 then (i, k + 1) :: r else (i, 1) :: l
      | [] => [(i, 1)]
    else l) []

/-- The union of the scopes of entries (R399): whole 64 B units of the block's scratchpad, and rows it holds. What a range names
beyond them is not there: DESIGN CHOICE (notes/assumptions/32). -/
def unionScope (scratch rows : Nat) (ss : List SaveScope) : SaveScope :=
  let scr := ss.flatMap SaveScope.scr
  let acc := ss.flatMap SaveScope.acc
  { scr := (runsOf (fun u => scr.any fun r => decide (0 < r.2 ∧ r.1 < 64 * (u + 1) ∧ 64 * u < r.1 + r.2)) ((scratch + 63) / 64)).map
      fun x => (64 * x.1, min (64 * x.2) (scratch - 64 * x.1)),
    acc := runsOf (fun i => acc.any fun r => decide (r.1 ≤ i ∧ i < r.1 + r.2)) rows,
    sets := (List.range 2).filter fun i => ss.any fun x => x.sets.contains i }

/-- The scope of a block's save (R399): the union of its warps' entries when every warp takes LIGHT, all of it otherwise. -/
def blockScope (s : State) (b : Block) (ws : List (Nat × Warp)) : SaveScope :=
  if ws.all fun e => e.2.note.kind == .light then
    unionScope (s.scratchBytes b) (64 * b.mat.grans.length) (ws.filterMap fun e => e.2.note.entry.map entryScope)
  else { scr := [(0, s.scratchBytes b)], acc := [(0, 64 * b.mat.grans.length)], sets := [0, 1] }

/-- Whether a range list covers a number. -/
def covers (rs : List (Nat × Nat)) (x : Nat) : Bool := rs.any fun r => decide (r.1 ≤ x ∧ x < r.1 + r.2)

/-- The scratchpad section (R400). -/
def scrSection (b : Block) (rs : List (Nat × Nat)) : List PWord :=
  plainWords (leBytes 4 rs.length ++ rs.flatMap fun r => leBytes 4 r.1 ++ leBytes 4 r.2) ++ rs.flatMap fun r => scrRange b r.1 r.2

/-- The accumulator section (R400): 256 words a row, the leader's 128 first. -/
def accSection (m : MatState) (rs : List (Nat × Nat)) : List PWord :=
  rs.flatMap fun r => (List.range r.2).flatMap fun i =>
    (List.range 256).map fun j => (((alook (r.1 + i) (relAcc m)).getD [])[j]?).getD PWord.zero

/-- The latch section (R400): for each set and core, the slabs, then the scale store. -/
def latchSection (m : MatState) (sets : List Nat) : List PWord :=
  sets.flatMap fun st => (List.range 2).flatMap fun h =>
    (List.range 256).flatMap (fun r => (List.range 32).map fun l => (((alook (latchNo h st 0 r) m.latch).getD [])[l]?).getD PWord.zero)
      ++ (List.range 16).flatMap fun r => (List.range 32).map fun l => (((alook ((h * 2 + st) * 16 + r) m.scale).getD [])[l]?).getD PWord.zero

/-- The epilogue section (R400): configuration, then table. -/
def epiSection (m : MatState) : List PWord :=
  plainWords ((List.range 1088).map fun i => sget 0 m.epCfg i) ++ (List.range 512).map fun i => ⟨sget 0 m.actTab i, false⟩

/-- A barrier of a header (R400). -/
def barrierBytes (b : Block) (i : Nat) : List Byte :=
  let x := sget Barrier.fresh b.bars i
  leBytes 4 x.phase.toNat ++ leBytes 2 (x.expect.getD 0) ++ leBytes 2 x.arrived.length

/-- What remains of a warp that a save leaves (R398, R399): after LIGHT only what its Catalogue entry marks live;
reservations, flags and the sprint request are clear. Its registers are restored into fresh cells, so a read of one it had
released before no longer counts: DESIGN CHOICE (notes/assumptions/25). -/
def Warp.saved (w : Warp) : Warp :=
  let w1 := { w with loc := none, stop := none, resv := [], pend := [], clause := none, bpSkip := none
                     spilled := [], spilledAt := none, usedAt := [], sbuf := [], dep := [], freed := []
                     sched := { w.sched with port := none, engine := .herd, sprintReq := false, readySince := none,
                                             aged := false, fairStart := none, deferSince := none, missWait := none } }
  match w.note with
  | ⟨.light, some e⟩ =>
    let live := fun (off n i : Nat) => fieldOf e off n / 2 ^ i % 2 == 1
    { w1 with v := w.v.filter fun x => live 8 16 x.1, cells := w.cells.filter fun c => live 8 16 (c / 4)
              s := w.s.filter fun x => live 0x18 12 x.1
              p := (List.range 7).map fun i => if live 0x24 1 i then (w.p[i]?).getD 0 else 0
              q := (List.range 3).map fun i => live 0x25 1 i && (w.q[i]?).getD false }
  | _ => w1

/-- The save record of a block (R400). -/
def saveRecord (s : State) (b : Block) (ws : List (Nat × Warp)) (copies : List CopyCmd) : List Byte :=
  let sc := blockScope s b ws
  let kinds := ws.map fun e => e.2.note.kind
  let warps := sectionBytes (ws.flatMap fun e =>
    let live := match e.2.note with
      | ⟨.light, some c⟩ => (List.range 128).filter fun r => fieldOf c 8 16 / 2 ^ r % 2 == 1
      | _ => heldRegs e.2
    warpRecord e.2.saved (warpNo e.1) e.2.note.kind live true)
  let secs := [warps, sectionBytes (scrSection b sc.scr), sectionBytes (accSection b.mat sc.acc),
    sectionBytes (latchSection b.mat sc.sets), sectionBytes (epiSection b.mat),
    sectionBytes (plainWords (copies.flatMap CopyCmd.saveBytes))]
  let offs := (secs.foldl (fun (a : Nat × List Nat) x => (a.1 + x.length, a.2 ++ [a.1])) (256, [])).2
  let total := 256 + (secs.map List.length).foldl (· + ·) 0
  let kind := (if kinds.contains .heavy then 1 else 0) + (if kinds.contains .full then 2 else 0)
  leBytes 4 0x42564153 ++ leBytes 2 kind ++ leBytes 2 ws.length ++ leBytes 4 b.gid ++ leBytes 4 (b.idx % 2 ^ 32)
    ++ leBytes 8 total ++ offs.flatMap (leBytes 4) ++ leBytes 2 copies.length ++ leBytes 2 b.mat.dyn
    ++ leBytes 4 (b.idx / 2 ^ 32) ++ List.replicate 8 0 ++ (List.range 16).flatMap (barrierBytes b) ++ List.replicate 64 0
    ++ secs.flatten

/-- Write a record over the pages of a save area, in their order (R400). -/
def putPages (s : State) (ctx : Nat) : List Nat → List Byte → State
  | [], _ => s
  | p :: ps, bs => if bs.isEmpty then s
      else putPages (s.devPut ctx ((s.cfg ctx).saveBase.toNat + 65536 * p) (bs.take 65536)) ctx ps (bs.drop 65536)

/-- Bytes of a section of `n` words with its bitmap (R400). -/
def sectionLen (n : Nat) : Nat := 4 * n + (n + 7) / 8

/-- Pages a block's worst case takes (R401): a HEAVY save of every register, all scratchpad, all held granules and both
latch sets, each section with its poison bitmap, and the copy commands of its cores' queues. -/
def worstPages (s : State) (b : Block) : Nat :=
  match s.gridOf b with
  | none => 1
  | some g =>
    let warps := ((List.range 4).map fun r => (g.desc.counts[r]?.getD 0) * b.cores.length
      * (32 + 31 * 8 + 96 + 32 * (g.desc.regs[r]?.getD 0))).foldl (· + ·) 0
    let words := [warps, s.scratchBytes b / 4 + 3, 16384 * b.mat.grans.length, 4 * 8704, 784, 640 * b.cores.length]
    (256 + (words.map sectionLen).foldl (· + ·) 0 + 65535) / 65536

/-- The lowest free pages of a context's save area (R400). -/
def freePages (s : State) (ctx n : Nat) : Option (List Nat) :=
  let total := (s.cfg ctx).saveBytes.toNat / 65536
  let used := match s.ctx ctx with | some c => c.savePages | none => []
  let free := (List.range (min total (used.length + n))).filter fun p => !used.contains p
  if n ≤ free.length then some (free.take n) else none

/-- Take pages, or give them back. -/
def holdPages (s : State) (ctx : Nat) (ps : List Nat) : State := s.modCtx ctx fun c => { c with savePages := c.savePages ++ ps }

/-- See `holdPages`. -/
def dropPages (s : State) (ctx : Nat) (ps : List Nat) : State :=
  s.modCtx ctx fun c => { c with savePages := c.savePages.filter fun p => !ps.contains p }

/-- Copy commands of a block that are still queued, or stopped at a fault (R251, R397). -/
def queuedCopies (s : State) (b : Block) (bn : Nat) : List CopyCmd :=
  b.cores.flatMap fun c => (s.core c).copies.filter fun x => x.ofBlock bn && (x.started.isNone || x.faulted)

/-- Whether a block can be saved now (R397 step 2): every warp has stopped with its operations complete, no copy is in
flight, no matrix or epilogue command of it is queued. -/
def savable (s : State) (bn : Nat) : Bool :=
  match s.block bn with
  | none => true
  | some b =>
    b.st != .running
      || ((s.warpsOf bn).all fun e => (e.2.stop.isSome || e.2.alive == 0) && e.2.pend.isEmpty)
        && b.cores.all fun c =>
          (s.core c).copies.all (fun x => !x.ofBlock bn || x.started.isNone || x.faulted)
            && (s.pair (leaderOf c)).mq.all (fun m => blkOf m.wid != bn) && (s.pair (leaderOf c)).eq.all fun m => blkOf m.wid != bn

/-- Save a block (R397 steps 4 to 6): its record is written, its cores are freed, it waits for placement. The room of a block that
R95 chose is kept for waiting children. -/
def saveBlock (s : State) (bn : Nat) : State :=
  match s.block bn with
  | none => s
  | some b =>
    if b.st != .running then s
    else
      let s := drainBlock s bn
      let ws := (s.warpsOf bn).filter fun e => e.2.alive != 0
      let copies := queuedCopies s b bn
      let pages := match b.preempt with | some p => p.pages | none => []
      let sc := blockScope s b ws
      let kept := ws.map fun e => (e.1, e.2.saved)
      let mat : MatState := { b.mat with
        acc := (relAcc b.mat).filter fun e => covers sc.acc e.1
        latch := b.mat.latch.filter fun e => sc.sets.contains (e.1 / 256 % 2)
        scale := b.mat.scale.filter fun e => sc.sets.contains (e.1 / 16 % 2) }
      let s1 := putPages s b.ctx pages (saveRecord s b ws copies)
      let s2 := b.cores.foldl (fun s c => s.modCore c fun k => { k with copies := k.copies.filter fun x => !x.ofBlock bn }) s1
      let s3 := leaveCores s2 bn
      let s4 := kept.foldl (fun s e => s.setWarp e.1 e.2) s3
      let s5 := s4.modBlock bn fun x => { x with
        st := .saved, preempt := none, savePages := pages, savedCopies := copies, mat := mat, rings := b.rings
        scr := b.scr.filter fun e => covers sc.scr e.1, scrPois := b.scrPois.filter fun w => covers sc.scr (4 * w) }
      let s6 := if b.preempt.any fun p => p.trig == .gwait then
          s5.modCtx b.ctx fun c => { c with childCores := c.childCores ++ coresRun s b } else s5
      s6.modGrid b.ctx b.gid fun g => { g with joinWave := true }

/-- Save pages for the granules that a block has taken since its pages were reserved (R401). -/
def topUp (s : State) (bn : Nat) : State :=
  match s.block bn with
  | none => s
  | some b =>
    match b.preempt with
    | none => s
    | some p =>
      let more := worstPages s b - p.pages.length
      match if b.preempting && more != 0 then freePages s b.ctx more else none with
      | some ps => (holdPages s b.ctx ps).modBlock bn fun b => { b with preempt := some { p with pages := p.pages ++ ps } }
      | none => s

/-- Whether a block that runs has the save pages it needs. A save waits for pages that granules taken since the request need:
DESIGN CHOICE (notes/assumptions/146). -/
def pagesReady (s : State) (bn : Nat) : Bool :=
  match s.block bn with
  | none => true
  | some b => b.st != .running || match b.preempt with
    | some p => !p.pages.isEmpty && decide (worstPages s b ≤ p.pages.length)
    | none => false

/-- Save a group of blocks once all of them can be (R396). -/
def trySave (s : State) (bn : Nat) : State :=
  let grp := preemptGroup s bn
  if grp.all (savable s) then
    let s1 := grp.foldl topUp s
    if grp.all (pagesReady s1) then grp.foldl saveBlock s1 else s1
  else s

end Sys2Proof.Machine
end

