-- ==== Sys2Proof/Machine/Uniform.lean ====
section
/-! DEFINITION. Class 0x1, uniform instructions (R185 to R194), `sld` apart. -/

namespace Sys2Proof.Machine

/-- The lowest lane of the running path (R186). -/
def lowLane (w : Warp) : Nat := ((lanesOf w.run.mask).head?).getD 0

/-- `smov` (R186): a vector source gives its value in the lowest lane of the running path. -/
def execSmov (o : Opnds) (s : State) : Host.Outcome State Fault Refusal :=
  issue (.smov o) s fun it s => valueW it s fun h _ => it.srcW it.o.ty it.o.a h (lowLane it.w)

/-- `sadd` (R187). -/
def execSadd (o : Opnds) (sat : Bool) (s : State) : Host.Outcome State Fault Refusal :=
  issue (.sadd o sat) s fun it s =>
    let t := it.o.ty
    value2 it s t t t fun a b => fit t sat (elem t a 0 + elem t b 0)

/-- `ssub` (R187). -/
def execSsub (o : Opnds) (sat : Bool) (s : State) : Host.Outcome State Fault Refusal :=
  issue (.ssub o sat) s fun it s =>
    let t := it.o.ty
    value2 it s t t t fun a b => fit t sat (elem t a 0 - elem t b 0)

/-- `smul` (R187). -/
def execSmul (o : Opnds) (mode : MulMode) (s : State) : Host.Outcome State Fault Refusal :=
  issue (.smul o mode) s fun it s =>
    let t := it.o.ty
    value2 it s t t (mulTy t mode) fun a b => mulAdd t mode (elem t a 0) (elem t b 0) 0

/-- `smad` (R187): under `.wide`, C is a 64-bit addend. -/
def execSmad (o : Opnds) (mode : MulMode) (s : State) : Host.Outcome State Fault Refusal :=
  issue (.smad o mode) s fun it s =>
    let t := it.o.ty
    let tc := if mode = .wide then wideTy t else t
    value3 it s t t tc (mulTy t mode) fun a b c => mulAdd t mode (elem t a 0) (elem t b 0) (elem tc c 0)

/-- `slop` (R188). -/
def execSlop (o : Opnds) (fn : BitVec 8) (s : State) : Host.Outcome State Fault Refusal :=
  issue (.slop o fn) s fun it s => valueW it s fun h l =>
    let a := it.srcW it.o.ty it.o.a h l
    let b := it.srcW it.o.ty it.o.b h l
    let c := it.srcW it.o.ty it.o.c h l
    a.of3 b c (lut 32 fn a.v b.v c.v)

/-- `sshf` on values (R189). -/
def shiftBy (kind : ShiftKind) (w a n : Nat) : Nat :=
  match kind with
  | .shl => shlW w a n
  | .shr => shrW w a n
  | .sar => sarW w a n
  | .rol => rolW w a n

/-- `sshf` (R189). -/
def execSshf (o : Opnds) (kind : ShiftKind) (s : State) : Host.Outcome State Fault Refusal :=
  issue (.sshf o kind) s fun it s =>
    let t := it.o.ty
    value2 it s t .n32 t fun a n => shiftBy kind (tyW t) a n

/-- A comparison of A and B in a lane, combined with C (R190). -/
def Iss.compare (it : Iss) (cmp : ICmp) (comb : Comb) (l : Nat) : Bool :=
  let t := it.o.ty
  combine comb (icmp cmp (elem t (it.src t it.o.a l).v 0) (elem t (it.src t it.o.b l).v 0)) (it.w.psrc it.o.c l)

/-- `ssetp` (R190). -/
def execSsetp (o : Opnds) (cmp : ICmp) (comb : Comb) (s : State) : Host.Outcome State Fault Refusal :=
  issue (.ssetp o cmp comb) s fun it s => predicate it s it.poisAB (it.compare cmp comb)

/-- A selection by the predicate in C (R191, R199): the words of the operand chosen. -/
def Iss.selected (it : Iss) (negc : Bool) (h l : Nat) : PV :=
  it.srcW it.o.ty (if it.w.psrc it.o.c l != negc then it.o.a else it.o.b) h l

/-- `ssel` (R191). -/
def execSsel (o : Opnds) (negc : Bool) (s : State) : Host.Outcome State Fault Refusal :=
  issue (.ssel o negc) s fun it s => valueW it s (it.selected negc)

/-- Number of a role (R193). -/
def Role.num : Role → Nat
  | .copy => 0
  | .matrix => 1
  | .vector => 2
  | .general => 3

/-- A block's coordinate (R86, R193): x varies fastest. -/
def Block.coord (b : Block) (d : Desc) (axis : Nat) : Nat :=
  match axis with
  | 0 => b.idx % max 1 d.gx
  | 1 => b.idx / max 1 d.gx % max 1 d.gy
  | _ => b.idx / (max 1 d.gx * max 1 d.gy)

/-- GRID_X of the descriptor, or the cap of a provisional grid (R193). -/
def Desc.nblocksX (d : Desc) : Nat := if wfld d.flags 1 1 = 1 then d.cap else d.gx

/-- Special registers of a lane (R193). -/
def sregVal (it : Iss) (s : State) (r : SReg) (l : Nat) : Nat :=
  match s.block it.blk with
  | none => 0
  | some b =>
    match s.gridOf b with
    | none => 0
    | some g =>
      match r with
      | .laneid => l
      | .warpid => warpNo it.wid
      | .sliceid => ((it.w.slices[l / 8]?).bind id).getD 0
      | .blockidX => b.coord g.desc 0
      | .blockidY => b.coord g.desc 1
      | .blockidZ => b.coord g.desc 2
      | .blockdim => 32 * b.nwarps
      | .gridid => b.gid
      | .nblocksX => g.desc.nblocksX
      | .nblocksY => g.desc.gy
      | .nblocksZ => g.desc.gz
      | .coreid => it.core
      | .pairrole => it.core % 2
      | .role => it.w.role.num
      | .fstat => it.w.fstat.toNat
      | .batch => it.w.batchNum
      | .clock => s.clock it.core

/-- `sread` (R193). -/
def execSread (o : Opnds) (sreg : SReg) (s : State) : Host.Outcome State Fault Refusal :=
  issue (.sread o sreg) s fun it s => value it s it.o.ty fun l => ⟨sregVal it s sreg l, false⟩

/-- The lanes of the running path in which `vote`'s predicate holds (R194). -/
def Iss.votes (it : Iss) (nega : Bool) : Word := maskOf fun l => it.act.getLsbD l && (it.w.psrc it.o.a l != nega)

/-- `vote` (R194). -/
def execVote (o : Opnds) (kind : VoteKind) (nega : Bool) (s : State) : Host.Outcome State Fault Refusal :=
  issue (.vote o kind nega) s fun it s =>
    let x := it.votes nega
    commit it s fun w =>
      match kind with
      | .any => w.pdput it.o.d it.act fun _ => x != 0
      | .all => w.pdput it.o.d it.act fun _ => x == it.act
      | .uni => w.pdput it.o.d it.act fun _ => x == 0 || x == it.act
      | .ballot => w.dput .b32 it.o.d it.act fun _ => ⟨x.toNat, false⟩

/-- `spop` (R187). -/
def execSpop (o : Opnds) (s : State) : Host.Outcome State Fault Refusal :=
  issue (.spop o) s fun it s => value1 it s it.o.ty .b32 (popCount (tyW it.o.ty))

end Sys2Proof.Machine
end

