-- ==== Sys2Proof/Machine/Place.lean ====
section
/-! DEFINITION. Placement (R84, R89, R121 to R126, R132 to R137, R402): what a block needs, which cores have room, the order of
placement, starting and resuming warps, eviction for placement (R118), ageing of priorities. -/

namespace Sys2Proof.Machine

/-- What a block needs on each of its cores (R125, R126). -/
structure Need where
  warps : Nat
  cells : Nat
  granules : Nat
  acc : Nat
  matrix : Bool
  span : Nat
  deriving DecidableEq, Repr

/-- Warps of a descriptor per core (R86). -/
def Desc.perCore (d : Desc) : Nat := d.counts.foldl (· + ·) 0

/-- Cores a block spans (R85, R122). -/
def Desc.span (d : Desc) : Nat := 2 ^ wfld d.flags 8 4

/-- Cell admission of a descriptor (R126): the reservation over f = 1 + OVERCOMMIT / 8. -/
def Desc.admission (d : Desc) (cfg : CtxCfg) : Nat :=
  let res := ((List.range 4).map fun r => (d.counts[r]?.getD 0) * 4 * (((d.regs[r]?.getD 0) + 7) / 8 * 8)).foldl (· + ·) 0
  let f := 8 + min 8 (wfld cfg.placeCfg 0 4)
  (res * 8 + f - 1) / f

/-- Granules of a descriptor on each core (R122, R132). -/
def Desc.granules (d : Desc) : Nat := ((d.scratch + d.span - 1) / d.span + 2047) / 2048

/-- See `Need`. -/
def Desc.need (d : Desc) (cfg : CtxCfg) : Need :=
  { warps := d.perCore, cells := d.admission cfg, granules := d.granules, acc := d.accGran,
    matrix := d.counts[1]?.getD 0 != 0, span := d.span }

/-- Blocks on a core. -/
def blocksOn (s : State) (core : Nat) : List (Nat × Block) := s.blocks.filter fun e => e.2.cores.contains core

/-- Scratch banks of a core for a context (R132): its own, or those BANK_CFG gives it when it passes to the context. -/
def scratchBanks (s : State) (ctx core : Nat) : Nat :=
  if (s.core core).ctx = some ctx then banksIn s core .scratch else (bankSplit (s.cfg ctx).bankCfg).2.1

/-- Sum over the blocks of a core. -/
def sumOn (s : State) (core : Nat) (f : Desc → CtxCfg → Nat) : Nat :=
  (blocksOn s core).foldl (fun n e => n + (match s.gridOf e.2 with | some g => f g.desc (s.cfg e.2.ctx) | none => 0)) 0

/-- Slice slots in use on a core (R121). -/
def slicesOn (s : State) (core : Nat) : List Nat := (s.warpsOn core).flatMap fun e => e.2.slices.filterMap id

/-- Whether a core takes blocks of a context at all: not fenced, drained, scanned or stopped, its pair holding no block and no trace
bytes of another context (R124, R411, R465, R468, R478). -/
def coreOpen (s : State) (ctx core : Nat) : Bool :=
  let c := s.core core
  !c.fenced && c.draining.isNone && c.scanning.isNone && !c.stopped
    && ([leaderOf core, leaderOf core + 1].all fun x => mayPass s ctx x && (blocksOn s x).all fun e => e.2.ctx == ctx)

/-- Whether a core has room for a block (R125). -/
def coreRoom (s : State) (ctx core : Nat) (n : Need) : Bool :=
  coreOpen s ctx core
    && decide ((slicesOn s core).length + 4 * n.warps ≤ 512) && decide ((s.warpsOn core).length + n.warps ≤ 128)
    && decide ((blocksOn s core).length < 64) && decide (sumOn s core Desc.admission + n.cells ≤ 32768)
    && decide (sumOn s core (fun d _ => d.granules) + n.granules ≤ 16 * scratchBanks s ctx core)

/-- Whether a pair takes a matrix block (R123, R133, R465, R468, R478). `clean` counts only granules already cleared. -/
def pairRoom (s : State) (lead : Nat) (n : Need) (clean : Bool) : Bool :=
  let f := s.core (lead + 1)
  (s.pair lead).owner.isNone && (s.pair lead).engReset.isNone && !f.fenced && f.draining.isNone && f.scanning.isNone && !f.stopped
    && (!clean || decide (n.acc ≤ (freeGranules s lead).length))

/-- Whether a candidate holds one more block. -/
def candRoom (s : State) (ctx : Nat) (cs : List Nat) (n : Need) (clean : Bool) : Bool :=
  cs.all (fun c => coreRoom s ctx c n) && (!n.matrix || cs.all fun c => pairRoom s c n clean)

/-- The placement order of a context (R134, R468). -/
def placeOrder (s : State) (ctx : Nat) : List Nat :=
  (List.range 256).filter fun c => wfld (s.cfg ctx).placeCfg (16 + dieOf c) 1 == 1 && !(s.core c).fenced

/-- The candidates for a block: leader cores, aligned spans, or cores (R122, R123, R134). -/
def candidates (s : State) (ctx : Nat) (n : Need) : List (List Nat) :=
  let o := placeOrder s ctx
  if n.matrix then (o.filter fun c => c % 2 == 0 && o.contains (c + 1)).map fun c => [c]
  else ((o.filter fun c => c % n.span == 0).map fun c => (List.range n.span).map (c + ·)).filter fun cs => cs.all o.contains

/-- Candidates from a context's cursor on, wrapping round (R134, R135). -/
def fromCursor (s : State) (ctx : Nat) (cands : List (List Nat)) : List (List Nat) :=
  let o := placeOrder s ctx
  let start := match s.ctx ctx with
    | some c => o[c.cursor % max 1 o.length]?.getD 0
    | none => 0
  (cands.filter fun cs => decide (start ≤ cs.head?.getD 0)) ++ cands.filter fun cs => decide (cs.head?.getD 0 < start)

/-- The cursor moves to the core after the last one that received a block (R135). -/
def moveCursor (s : State) (ctx last : Nat) : State :=
  let o := placeOrder s ctx
  match o.findIdx? (· == last) with
  | some i => s.modCtx ctx fun c => { c with cursor := (i + 1) % max 1 o.length }
  | none => s

/-- The first `n` numbers below a limit that are not in use. -/
def lowestFree (used : List Nat) (limit n : Nat) : List Nat := ((List.range limit).filter fun i => !used.contains i).take n

/-- A warp takes the lowest free warp slot and slice slots of a core (R121). A slice that has retired takes none. Its fairness timer
starts where it has waiting entries (R161). -/
def seatWarp (s : State) (core wid : Nat) (w : Warp) : State :=
  let slot := (lowestFree ((s.warpsOn core).map fun e => e.2.slot) 128 1).head?.getD 0
  let free := lowestFree (slicesOn s core) 512 4
  let sl := (List.range 4).map fun i =>
    if ((w.slices[i]?).getD none).isSome then free[((w.slices.take i).filter Option.isSome).length]? else none
  s.setWarp wid ({ w with loc := some (core, slot), slices := sl }.restartFair (s.nonStalled core))

/-- The role of a warp by its number on its core (R16). -/
def roleAt (counts : List Nat) (i : Nat) : Role :=
  let a := counts[0]?.getD 0
  let b := a + counts[1]?.getD 0
  let c := b + counts[2]?.getD 0
  if i < a then .copy else if i < b then .matrix else if i < c then .vector else .general

/-- USER tag 0xFE as a warp starts (R419). -/
def startPacket (s : State) (wid : Nat) : State :=
  match s.block (blkOf wid), s.warp wid with
  | some b, some w => userPacket s wid 0xFE [b.gid, b.idx % 2 ^ 32, warpNo wid + w.role.num * 2 ^ 16]
  | _, _ => s

/-- One warp of a block starts at its role's entry (R16, R121, R157). -/
def startWarp (s : State) (bn : Nat) (g : Grid) (cores : List Nat) (no : Nat) : State :=
  let per := max 1 g.desc.perCore
  let core := cores[no / per]?.getD 0
  let role := roleAt g.desc.counts (no % per)
  let entry := (g.image.entries[role.num]?.getD none).getD 0
  let w := Warp.start core 0 [0, 1, 2, 3] role (g.desc.regs[role.num]?.getD 0) entry g.desc.fmtInit s.dev.now
  startPacket (seatWarp s core (widOf bn no) w) (widOf bn no)

/-- Whether a block of a grid is provisional when it is placed (R105, R117). -/
def provNow (g : Grid) (idx : Nat) : Bool :=
  g.desc.provisional && !g.resolved && decide (g.desc.floor ≤ idx ∧ idx < g.pred)

/-- A killed gang is placed again: its relaunch counts (R476). -/
def noteRelaunch (s : State) (ctx gid idx : Nat) : State :=
  match s.grid ctx gid with
  | none => s
  | some g =>
    let gang := idx / max 1 g.desc.gang
    if g.relaunching.contains gang then
      setGrid s ctx gid fun g => { g with relaunches := g.relaunches + 1, relaunching := g.relaunching.filter (· != gang) }
    else s

/-- A grid's block has been placed: START at the first one, its wait begins anew (R84, R91). -/
def notePlaced (s0 : State) (ctx gid idx : Nat) : State :=
  let s := noteRelaunch s0 ctx gid idx
  let s1 := s.modGrid ctx gid fun g =>
    { g with next := if idx = g.next then g.next + 1 else g.next, joining := g.joining.filter (· != idx),
             lastPlace := s.ptp, boost := 0 }
  match s.grid ctx gid with
  | some g => if g.status == .pending then
      setGrid s1 ctx gid fun g => { g with status := .running, start := timeForm s.ptp } else s1
  | none => s1

/-- A matrix block takes its pair's engine and granules (R123, R133). -/
def takeEngine (s : State) (bn : Nat) (g : Grid) (cs : List Nat) (more : Nat) : State :=
  if g.desc.counts[1]?.getD 0 = 0 then s
  else cs.foldl (fun s c =>
    let gs := (freeGranules s c).take (g.desc.accGran + more)
    (s.modBlock bn fun b => { b with mat := { b.mat with grans := gs } }).modPair c fun p => { p with owner := some bn }) s

/-- Scratchpad granules of a core that may be allocated: those of its banks in scratch mode that are in no block's map (R132). -/
def freeScratch (s : State) (core : Nat) : List Nat :=
  ((List.range 64).filter fun b => ((s.core core).modes[b]?).getD .cache == .scratch).flatMap fun b =>
    ((List.range 16).map (16 * b + ·)).filter fun g => (alook g (s.core core).granMap).isNone

/-- A block takes the lowest free granules of a core for its share of scratchpad there, in their order (R132). -/
def takeScratch (bn n : Nat) (s : State) (core : Nat) : State :=
  let gs := (freeScratch s core).take n
  if gs.isEmpty then s
  else s.modCore core fun c => { c with granMap := (List.range gs.length).foldl (fun m i => aput (gs[i]?.getD 0) (bn, i) m) c.granMap }

/-- A core that is to start the first block of a grid invalidates the regions of the grid's entry (R82). -/
def enterGrid (ctx gid : Nat) (g : Grid) (s : State) (core : Nat) : State :=
  if (alook core g.used).isSome || (s.blocks.any fun e => e.2.ctx == ctx && e.2.gid == gid && e.2.cores.contains core) then s
  else invalidate s core (launchMem s ctx gid)

/-- A new block starts on some cores (R121 to R123, R135). -/
def startBlock (s : State) (ctx gid idx : Nat) (cs : List Nat) : State :=
  match s.grid ctx gid with
  | none => s
  | some g =>
    let bn := s.blkNext
    let n := g.desc.perCore * g.desc.span
    let s1 := cs.foldl (takeScratch bn g.desc.granules) (cs.foldl (enterGrid ctx gid g) (cs.foldl (fun s c => takePair s ctx c) s))
    let b := Block.placed ctx gid idx n cs (provNow g idx) (s.nonStalled (cs.head?.getD 0))
    let s2 := takeEngine { s1.setBlock bn b with blkNext := bn + 1 } bn g cs 0
    let s3 := cs.foldl (fun s c => setLossless s ctx c) s2
    notePlaced ((List.range n).foldl (fun s no => startWarp s bn g cs no) s3) ctx gid idx

/-- Saved copy commands are queued again with new sequence numbers, in their batches (R402). -/
def requeueCopy (s : State) (core : Nat) (c : CopyCmd) : State :=
  let sq := (s.core core).copySeq + 1
  let ren := fun (l : List Word) => l.map fun x => if x = c.seq then sq else x
  (s.modCore core fun k =>
    { k with copySeq := sq, copies := k.copies ++ [{ c with seq := sq, started := none }] }).modWarp c.wid fun w =>
      { w with openBatch := ren w.openBatch, closed := w.closed.map fun b => { b with cmds := ren b.cmds } }

/-- A warp that resumes takes cells of its core for the registers it holds (R129): room is made for them, and those that find none
go to the Annex. -/
def seatCells (s : State) (core wid : Nat) : State :=
  match s.warp wid with
  | none => s
  | some w =>
    let excess := cellsUsed s core - 32768
    if excess = 0 then s
    else
      let s1 := spillFor s core wid excess
      let own := (w.cells.filter fun c => !w.spilled.contains c).map fun c => (wid, c)
      if cellsUsed s1 core ≤ 32768 then s1
      else spillSome own.length [] (fun s => own.filter fun x => match s.warp wid with
        | some w => !w.spilled.contains x.2
        | none => false) (cellsUsed s1 core - 32768) s1

/-- A saved block resumes on some cores (R402): its warps take slots, its rows new granules, its copies are reissued, its
pages are free. Its cores have nothing older than memory in their L1 (R326). -/
def resumeBlock (s : State) (bn : Nat) (cs : List Nat) : State :=
  match s.block bn with
  | none => s
  | some b =>
    match s.gridOf b with
    | none => s
    | some g =>
      let per := max 1 g.desc.perCore
      let s1 := cs.foldl (takeScratch bn g.desc.granules) (cs.foldl (fun s c => (takePair s b.ctx c).modCore c Core.refresh) s)
      let s2 := takeEngine (s1.modBlock bn fun b =>
        { b with cores := cs, st := .running, sliceStart := s.nonStalled (cs.head?.getD 0), savePages := [], savedCopies := [] })
        bn g cs b.mat.dyn
      let s3 := s2.modBlock bn fun x => { x with mat := { x.mat with acc := absAcc x.mat.grans b.mat.acc } }
      let s4 := (s.warpsOf bn).foldl (fun s e =>
        let c := cs[warpNo e.1 / per]?.getD 0
        seatCells (seatWarp s c e.1 e.2) c e.1) s3
      let s5 := b.savedCopies.foldl (fun s c => requeueCopy s (cs[warpNo c.wid / per]?.getD 0) c) s4
      let s6 := s5.modWarpsOf bn fun w =>
        match w.wait with
        | some (.waitv k va x d _ since sc) => { w with wait := some (.waitv k va x d true since sc) }
        | _ => w
      notePlaced (cs.foldl (fun s c => setLossless s b.ctx c) (dropPages s6 b.ctx b.savePages)) b.ctx b.gid b.idx

/-- The saved block of an index of a grid. -/
def savedAt (s : State) (ctx gid idx : Nat) : Option Nat :=
  ((liveBlocks s ctx gid).find? fun e => e.2.st == .saved && e.2.idx == idx).map Prod.fst

/-- Place the block of an index on a candidate: start it, or resume it. -/
def placeAt (s : State) (ctx gid idx : Nat) (cs : List Nat) : State :=
  match savedAt s ctx gid idx with
  | some bn => resumeBlock s bn cs
  | none => startBlock s ctx gid idx cs

/-- What the block of an index needs now: a saved one needs its dynamic granules too (R402). -/
def needAt (s : State) (ctx gid idx : Nat) (g : Grid) : Need :=
  let n := g.desc.need (s.cfg ctx)
  match (savedAt s ctx gid idx).bind s.block with
  | some b => { n with acc := n.acc + b.mat.dyn }
  | none => n

/-- Whether a member of an index's gang is still on its cores, being pre-empted: the gang resumes together (R396). -/
def gangLeaving (s : State) (ctx gid : Nat) (g : Grid) (i : Nat) : Bool :=
  (liveBlocks s ctx gid).any fun e => e.2.idx / max 1 g.desc.gang == i / max 1 g.desc.gang && e.2.preempting && !e.2.cores.isEmpty

/-- Indices of a grid waiting for placement before its unstarted blocks, in order: saved blocks, then those that joined
(R402, R476). -/
def joinedIdx (s : State) (ctx gid : Nat) (g : Grid) : List Nat :=
  (sortBy (· ≤ ·) (((liveBlocks s ctx gid).filter fun e => e.2.st == .saved).map fun e => e.2.idx) ++ g.joining).filter fun i =>
    !gangLeaving s ctx gid g i

/-- The next index of a grid to place (R135). -/
def nextIdx (s : State) (ctx gid : Nat) : Option Nat :=
  match s.grid ctx gid with
  | none => none
  | some g =>
    match joinedIdx s ctx gid g with
    | i :: _ => some i
    | [] => if g.next < g.last ∧ !g.status.finished then some g.next else none

/-- The waiting indices of the gang that is next (R89, R136). -/
def nextGang (s : State) (ctx gid : Nat) (g : Grid) : List Nat :=
  match nextIdx s ctx gid with
  | none => []
  | some i =>
    let n := max 1 g.desc.gang
    ((List.range n).map (i / n * n + ·)).filter fun j =>
      (joinedIdx s ctx gid g).contains j || decide (g.next ≤ j ∧ j < g.last)

/-- Ticks of a context's ageing period: 2^n µs of 2,500 ticks (R84, R131). -/
def agePeriod (cfg : CtxCfg) : Nat := 2500 * 2 ^ min 16 (max 6 (wfld cfg.placeCfg 8 5))

/-- When a waiting grid's wait began (R84). -/
def Grid.waitSince (g : Grid) : Nat := if g.status == .pending then g.agedFrom else g.lastPlace

/-- Own effective priority (R84). -/
def ownPrio (s : State) (ctx gid : Nat) (g : Grid) : Nat :=
  if (nextIdx s ctx gid).isSome then min 7 (g.basePrio + (s.ptp - g.waitSince) / agePeriod (s.cfg ctx)) else g.basePrio

/-- The grids whose warps wait on a lock that a block of some grids holds (R358). -/
def lenders (s : State) (gs : List (Nat × Nat)) : List (Nat × Nat) :=
  let locks := gs.flatMap fun x => (liveBlocks s x.1 x.2).flatMap fun e => e.2.locks
  if locks.isEmpty then []
  else s.warps.filterMap fun e => match e.2.wait with
    | some (.lkacq k _ _ _) => if locks.contains k then (s.block (blkOf e.1)).map fun b => (b.ctx, b.gid) else none
    | _ => none

/-- A grid and all that wait on it, through chains of locks. -/
def waitersOn (s : State) (ctx gid : Nat) : List (Nat × Nat) :=
  if (lenders s [(ctx, gid)]).isEmpty then [(ctx, gid)]
  else (List.range s.grids.length).foldl (fun gs _ => (gs ++ lenders s gs).eraseDups) [(ctx, gid)]

/-- The effective priority of a grid: its own, or the greatest that the waiters on its blocks' locks lend it (R84, R358). -/
def prioOf (s : State) (ctx gid : Nat) : Nat :=
  ((waitersOn s ctx gid).filterMap fun x => (s.grid x.1 x.2).map fun g => ownPrio s x.1 x.2 g).foldl max 0

/-- The next index that a wave of joining blocks covers (R135): saved blocks, those that joined, then tail blocks once every
unstarted one before them has started (R116). -/
def nextJoin (s : State) (ctx gid : Nat) : Option Nat :=
  match s.grid ctx gid with
  | none => none
  | some g =>
    match joinedIdx s ctx gid g with
    | i :: _ => some i
    | [] => if g.resolved ∧ g.desc.provisional ∧ g.pred ≤ g.next ∧ g.next < g.last ∧ !g.status.finished then some g.next else none

/-- Place blocks over a list of candidates by the first-wave rule (R135): each at the first candidate from the scan position
that holds it; the wave ends when a full circuit finds none. `join` says that it covers joining blocks only. Answers the last core
used. -/
def wave : Nat → State → Nat → Nat → Bool → List (List Nat) → Option Nat → State × Option Nat
  | 0, s, _, _, _, _, last => (s, last)
  | f + 1, s, ctx, gid, join, cands, last =>
    match if join then nextJoin s ctx gid else nextIdx s ctx gid, s.grid ctx gid with
    | some i, some g =>
      let n := needAt s ctx gid i g
      match cands.findIdx? fun cs => candRoom s ctx cs n true with
      | none => (s, last)
      | some k =>
        let cs := cands[k]?.getD []
        wave f (placeAt s ctx gid i cs) ctx gid join (cands.drop (k + 1) ++ cands.take (k + 1)) cs.getLast?
    | _, _ => (s, last)

/-- Most blocks that all cores hold at once (R125). -/
def waveFuel : Nat := 16384

/-- Refill: place blocks on one candidate while it holds the next (R135). -/
def refill : Nat → State → Nat → Nat → List Nat → State
  | 0, s, _, _, _ => s
  | f + 1, s, ctx, gid, cs =>
    match nextIdx s ctx gid, s.grid ctx gid with
    | some i, some g => if candRoom s ctx cs (needAt s ctx gid i g) true then refill f (placeAt s ctx gid i cs) ctx gid cs else s
    | _, _ => s

/-- Members of a gang on the candidates of one cluster, each at the first candidate after the previous member's (R136). -/
def gangOn (s : State) (ctx gid : Nat) (g : Grid) : List Nat → List (List Nat) → Option (State × Option Nat)
  | [], _ => some (s, none)
  | i :: is, cands =>
    match cands.findIdx? fun cs => candRoom s ctx cs (needAt s ctx gid i g) true with
    | none => none
    | some k =>
      let cs := cands[k]?.getD []
      (gangOn (placeAt s ctx gid i cs) ctx gid g is (cands.drop (k + 1))).map fun r => (r.1, r.2.or cs.getLast?)

/-- The clusters of some candidates in placement order from the cursor's cluster on (R136), with their candidates. -/
def clustersOf (s : State) (ctx : Nat) (cands : List (List Nat)) : List (List (List Nat)) :=
  let at_ := fun (cs : List Nat) => clusterOf (cs.head?.getD 0)
  let o := placeOrder s ctx
  let cur := match s.ctx ctx with
    | some c => clusterOf (o[c.cursor % max 1 o.length]?.getD 0)
    | none => 0
  let ids := (cands.map at_).eraseDups
  ((ids.filter fun c => decide (cur ≤ c)) ++ ids.filter fun c => decide (c < cur)).map fun c => cands.filter fun cs => at_ cs == c

/-- Place whole gangs while they fit (R89, R136). -/
def gangs : Nat → State → Nat → Nat → List (List Nat) → Option Nat → State × Option Nat
  | 0, s, _, _, _, last => (s, last)
  | f + 1, s, ctx, gid, cands, last =>
    match s.grid ctx gid with
    | none => (s, last)
    | some g =>
      let is := nextGang s ctx gid g
      if is.isEmpty then (s, last)
      else match (clustersOf s ctx cands).findSome? fun cl => gangOn s ctx gid g is cl with
        | none => (s, last)
        | some (s1, l) => gangs f s1 ctx gid cands (l.or last)

/-- Provisional blocks that may yield to a waiting block (R117, R118): gangs on some cores all of whose placed members are
provisional, of grids of lower effective priority where the waiting block is itself provisional; lowest priority first,
then highest index. -/
def yielding (s : State) (prio : Nat) (prov : Bool) (cs : List Nat) : List Nat :=
  let ok := s.blocks.filter fun e =>
    e.2.prov && e.2.cores.any cs.contains && (!prov || decide (prioOf s e.2.ctx e.2.gid < prio)) && !mixedGang s e.1
  (sortBy (fun a b =>
    let pa := prioOf s a.2.ctx a.2.gid
    let pb := prioOf s b.2.ctx b.2.gid
    decide (pa < pb) || pa == pb && (decide (b.2.gid < a.2.gid) || a.2.gid == b.2.gid && decide (b.2.idx ≤ a.2.idx))) ok).map Prod.fst

/-- Evict gangs one by one until a test holds; none where it never does. -/
def evictUntil (ok : State → Bool) : List Nat → State → Option State
  | [], s => if ok s then some s else none
  | b :: bs, s => if ok s then some s else evictUntil ok bs (evictGang s b false false)

/-- Evict provisional blocks from the first candidate, or cluster, that can then hold the next block or gang (R118), with those
candidates. Nothing where room only awaits a clearing. -/
def evictFor (s : State) (ctx gid : Nat) (g : Grid) (cands : List (List Nat)) : Option (State × List (List Nat)) :=
  match nextIdx s ctx gid with
  | none => none
  | some i =>
    let n := needAt s ctx gid i g
    let places := if 1 < g.desc.gang then (clustersOf s ctx cands) else (fromCursor s ctx cands).map fun c => [c]
    let size := (nextGang s ctx gid g).length
    let ok := fun (cl : List (List Nat)) (s : State) => decide (size ≤ (cl.filter fun cs => candRoom s ctx cs n false).length)
    if places.any fun cl => ok cl s then none
    else places.findSome? fun cl =>
      (evictUntil (ok cl) (yielding s (prioOf s ctx gid) (provNow g i) cl.flatten) s).map fun s1 => (s1, cl)

/-- Place the next block, or gang, of a grid on some candidates if they hold it (R118). -/
def placeNext (s : State) (ctx gid : Nat) (cl : List (List Nat)) : Option State :=
  match s.grid ctx gid, nextIdx s ctx gid with
  | some g, some i =>
    if 1 < g.desc.gang then (gangOn s ctx gid g (nextGang s ctx gid g) cl).map Prod.fst
    else (cl.find? fun cs => candRoom s ctx cs (needAt s ctx gid i g) true).map fun cs => placeAt s ctx gid i cs
  | _, _ => none

/-- The candidates of a grid's blocks, but for the dies that a cooperative grid bars (R89). -/
def gridCands (s : State) (ctx : Nat) (g : Grid) (bar : List Nat) : List (List Nat) :=
  (candidates s ctx (g.desc.need (s.cfg ctx))).filter fun cs => !cs.any fun c => bar.contains (dieOf c)

/-- Whole gangs, or blocks by the first-wave rule, of a cooperative grid (R136), with the last core used. -/
def placeAll (s : State) (ctx gid : Nat) (g : Grid) (bar : List Nat) (last : Option Nat) : State × Option Nat :=
  if 1 < g.desc.gang then gangs waveFuel s ctx gid (gridCands s ctx g bar) last
  else wave waveFuel s ctx gid false (fromCursor s ctx (gridCands s ctx g bar)) last

/-- Place a cooperative grid as one reservation (R89, R136), evicting provisional blocks for each block or gang that cannot be
placed otherwise (R118); none where that does not place it whole. The fuel bounds the evictions. -/
def placeCoop : Nat → State → Nat → Nat → List Nat → Option Nat → Option (State × Option Nat)
  | 0, _, _, _, _, _ => none
  | f + 1, s, ctx, gid, bar, last =>
    match s.grid ctx gid with
    | none => none
    | some g =>
      let r := placeAll s ctx gid g bar last
      if (nextIdx r.1 ctx gid).isNone then some r
      else match evictFor r.1 ctx gid g (gridCands r.1 ctx g bar) with
        | none => none
        | some (s1, cl) => (placeNext s1 ctx gid cl).bind fun s2 => placeCoop f s2 ctx gid bar r.2

/-- One pass over a grid's waiting blocks: the first wave, or a wave of those that joined and refill of the freed cores (R135, R136).
Only a wave moves the cursor. -/
def placeGrid (s : State) (ctx gid : Nat) (bar freed : List Nat) : State :=
  match s.grid ctx gid with
  | none => s
  | some g =>
    let n := g.desc.need (s.cfg ctx)
    let cands := gridCands s ctx g bar
    let move := fun (r : State × Option Nat) => match r.2 with | some c => moveCursor r.1 ctx c | none => r.1
    let begun := s.modGrid ctx gid fun g => { g with firstWave := false, joinWave := false }
    if wfld g.desc.flags 0 1 = 1 then
      match placeCoop waveFuel s ctx gid bar none with
      | some r => move r
      | none => s
    else if 1 < g.desc.gang then
      (if g.firstWave || g.joinWave then move (gangs waveFuel begun ctx gid cands none) else (gangs waveFuel s ctx gid cands none).1)
    else if g.firstWave then move (wave waveFuel begun ctx gid false (fromCursor s ctx cands) none)
    else
      let s1 := if g.joinWave then
          move (wave waveFuel (s.modGrid ctx gid fun g => { g with joinWave := false }) ctx gid true (fromCursor s ctx cands) none)
        else s
      freed.foldl (fun s c =>
        match cands.find? fun cs => cs.contains (if n.matrix then leaderOf c else c) with
        | some cs => refill 64 s ctx gid cs
        | none => s) s1

/-- Place a grid's waiting blocks, then evict for the next one and place it there, while that helps (R118). -/
def placeEvict : Nat → State → Nat → Nat → List Nat → List Nat → State
  | 0, s, _, _, _, _ => s
  | f + 1, s, ctx, gid, bar, freed =>
    let s1 := placeGrid s ctx gid bar freed
    match s1.grid ctx gid with
    | none => s1
    | some g =>
      if wfld g.desc.flags 0 1 = 1 then s1
      else match evictFor s1 ctx gid g (gridCands s1 ctx g bar) with
        | none => s1
        | some (s2, cl) =>
          match placeNext s2 ctx gid cl with
          | none => s2
          | some s3 => placeEvict f s3 ctx gid bar []

/-- Partitions of a context, by die (R131, R134). -/
def partsOf (s : State) (ctx : Nat) : List Nat := (List.range 8).filter fun d => wfld (s.cfg ctx).placeCfg (16 + d) 1 == 1

/-- Contexts that may place blocks: resident and not halted. -/
def placing (s : State) : List Nat := (s.ctxs.filter fun e => e.2.resident && !e.2.halted).map Prod.fst

/-- The partitions that a context's have in common with others', and those with others' in turn (R84, R134). -/
def sharedParts (s : State) (ctx : Nat) : List Nat :=
  (List.range 8).foldl (fun ds _ =>
    (ds ++ (placing s).flatMap fun c => if (partsOf s c).any ds.contains then partsOf s c else []).eraseDups) (partsOf s ctx)

/-- Contexts whose grids compete for the partitions of a context, or for those of a context that does (R84, R134). -/
def rivals (s : State) (ctx : Nat) : List Nat :=
  let ds := sharedParts s ctx
  (placing s).filter fun c => (partsOf s c).any ds.contains

/-- Whether the next block of a grid is a saved one all of whose warps wait in `gwait` while a child grid of its context waits for
placement: the children come first (R95). -/
def letsChildren (s : State) (ctx gid : Nat) : Bool :=
  match (nextIdx s ctx gid).bind (savedAt s ctx gid) with
  | none => false
  | some bn =>
    (aliveWarps s bn).all (fun e => match e.2.wait with | some (.gwait ..) => true | _ => false)
      && (gridsOf s ctx).any fun e => e.2.parent.isSome && (nextIdx s ctx e.1).isSome

/-- Whether a grid is served before another (R84, R95): higher effective priority, then earlier registration, then lower queue. -/
def servedBefore (s : State) (a b : Nat × Nat × Grid) : Bool :=
  let la := letsChildren s a.1 a.2.1
  let lb := letsChildren s b.1 b.2.1
  let pa := prioOf s a.1 a.2.1
  let pb := prioOf s b.1 b.2.1
  let q := fun (g : Grid) => (g.origin.map Prod.fst).getD 0
  if la != lb then lb
  else decide (pb < pa) || pa == pb && (decide (a.2.2.regTime < b.2.2.regTime)
    || a.2.2.regTime == b.2.2.regTime && decide (q a.2.2 ≤ q b.2.2))

/-- Grids with blocks waiting that compete for a context's partitions, in the order they are served (R84). -/
def servedOrder (s : State) (ctx : Nat) : List (Nat × Nat × Grid) :=
  sortBy (servedBefore s) ((rivals s ctx).flatMap fun c =>
    ((gridsOf s c).filter fun e => (nextIdx s c e.1).isSome).map fun e => (c, e.1, e.2))

/-- The partitions in which a cooperative grid that waits at priority 7 holds back a younger grid of lower base priority: those of its
context (R89). -/
def barredParts (s : State) (g : Grid) (ws : List (Nat × Nat × Grid)) : List Nat :=
  (ws.filter fun e => wfld e.2.2.desc.flags 0 1 == 1 && prioOf s e.1 e.2.1 == 7 && decide (g.basePrio < e.2.2.basePrio)
    && decide (e.2.2.regTime < g.regTime)).flatMap fun e => partsOf s e.1

/-- Place blocks of a waiting child grid on the cores that a parent was pre-empted from for it (R95). -/
def placeChild (s : State) (ctx gid : Nat) (cores : List Nat) : State :=
  match s.grid ctx gid with
  | none => s
  | some g =>
    let cands := (gridCands s ctx g []).filter fun cs => cs.any cores.contains
    if wfld g.desc.flags 0 1 = 1 then
      (match placeCoop waveFuel s ctx gid [] none with | some r => r.1 | none => s)
    else if 1 < g.desc.gang then (gangs waveFuel s ctx gid cands none).1
    else cands.foldl (fun s cs => refill 64 s ctx gid cs) s

/-- The cores that a context's parents were pre-empted from go to its waiting child grids first (R95). -/
def placeChildren (s : State) (ws : List (Nat × Nat × Grid)) : State :=
  let s1 := (ws.filter fun e => e.2.2.parent.isSome).foldl (fun s e =>
    match s.ctx e.1 with
    | some c => if c.childCores.isEmpty then s else placeChild s e.1 e.2.1 c.childCores
    | none => s) s
  { s1 with ctxs := s1.ctxs.map fun e => (e.1, { e.2 with childCores := [] }) }

/-- BLOCK_PLACEMENT (R135): the Registrar serves the waiting grids of a resident context, and of those that share its partitions, on
the resources that are free. -/
def execBlockPlacement (ctx : Nat) (s : State) : Host.Outcome State Fault Refusal :=
  .next (match s.ctx ctx with
    | none => s
    | some c =>
      if !c.resident || c.halted then s
      else
        let ws := servedOrder s ctx
        let freed := fun (c : Nat) => match s.ctx c with | some x => x.freedCores | none => []
        let s0 := if s.ctxs.any fun e => !e.2.childCores.isEmpty then placeChildren s ws else s
        let s1 := ws.foldl (fun s e => placeEvict 256 s e.1 e.2.1 (barredParts s e.2.2 ws) ((freed e.1).map Prod.snd)) s0
        (rivals s ctx).foldl (fun t r =>
          t.modCtx r fun x => { x with freedCores := x.freedCores.filter fun k => !(freed r).contains k }) s1)

/-- PRIORITY_AGEING (R84): an ageing period of a waiting grid has ended, and the Registrar notes it. -/
def execPriorityAgeing (ctx gid : Nat) (s : State) : Host.Outcome State Fault Refusal :=
  .next (match s.grid ctx gid with
    | none => s
    | some g =>
      if (nextIdx s ctx gid).isSome ∧ g.waitSince + (g.boost + 1) * agePeriod (s.cfg ctx) ≤ s.ptp then
        s.modGrid ctx gid fun g => { g with boost := g.boost + 1 }
      else s)

/-- BLOCK_RETIRE (R94): a block whose warps have exited and whose child grids have finished retires. -/
def execBlockRetire (bn : Nat) (s : State) : Host.Outcome State Fault Refusal :=
  .next (match s.block bn with
    | none => s
    | some b => if b.st = .ended ∧ b.children.isEmpty then retireBlock s bn else s)

/-- HOST_GANG_RELAUNCH_OR_ABANDON (R96, R117, R476, R480): system software relaunches a killed gang, at most 3 times, or
abandons it. A member that a resolution has since put beyond the extent counts as trimmed. -/
def execHostGangRelaunchOrAbandon (ctx gid gang : Nat) (relaunch : Bool) (s : State) : Host.Outcome State Fault Refusal :=
  .next (match s.grid ctx gid with
    | none => s
    | some g =>
      let mine := g.limbo.filter fun i => i / max 1 g.desc.gang == gang
      let s1 := s.modGrid ctx gid fun g => { g with limbo := g.limbo.filter fun i => i / max 1 g.desc.gang != gang }
      if mine.isEmpty then s
      else if !relaunch || decide (3 < sget 0 g.kills gang) then
        if relaunch then gridCheck (s1.modGrid ctx gid fun g => { g with wasKilled := true }) ctx gid
        else killGrid s1 ctx gid
      else
        let out := mine.filter fun i => g.resolved && g.desc.provisional && decide (g.te ≤ i)
        gridCheck (s1.modGrid ctx gid fun g =>
          { g with relaunching := nins gang g.relaunching, joinWave := true, trimmed := g.trimmed + out.length,
                   joining := (mine.filter fun i => !out.contains i).foldl (fun l i => nins i l) g.joining }) ctx gid)

end Sys2Proof.Machine
end

