-- ==== Sys2Proof/Machine/Stall.lean ====
section
/-! DEFINITION. What keeps a warp from issuing (R139, R423), and what passing cycles count and age (R138, R141, R161,
R424). -/

namespace Sys2Proof.Machine

/-- The stall reason of a wait (R423). -/
def waitReason : Wait → Nat
  | .reissue => 9
  | .held | .quota => 25
  | .nap _ => 23
  | .fwait _ => 2
  | .cpwait _ | .cpclose .. => 20
  | .bar .. | .gbar _ => 16
  | .await .. | .waitv .. => 19
  | .ringw .. => 17
  | .queue => 21
  | .lkacq .. => 18
  | .gwait .. => 22
  | .fault _ => 24
  | .acalloc .. | .accClear _ | .publish .. | .vtopen .. | .engine _ | .tlbinv .. | .icinv _ => 31

/-- Whether a warp has lost its port within a clause, or gives way after a clause with YIELD (R140, R35). -/
def Warp.gaveWay (w : Warp) : Bool := w.onHerd && w.sched.port.isNone && (w.run.widx != 0 || w.sched.yielded)

/-- Every stall reason that holds of a warp that has not issued (R423); `Other` where none does. Reasons 5 to 7, 10, 11 and 14 never
hold: a word takes no time in a pipe, nor a fetch or a replay, in this model (notes/assumptions/142). -/
def reasons (s : State) (core wid : Nat) (w : Warp) : List Nat :=
  let parked := match w.wait with | some x => [waitReason x] | none => []
  let squashed := (alook w.slot (s.core core).mismatches).isSome
  let at_ := if w.wait.isSome || w.alive == 0 then []
    else (if headerWaits s wid w then [1] else [])
      ++ (if (nextInstr s wid w).bind (hazardOf · w) == some .read then [3] else [])
      ++ (if dispatchable s core wid w && !squashed then [4] else [])
      ++ (if queueFull s core wid w then [8] else [])
      ++ (if (nextInstr s wid w).any fun i => w.promoted && decide (poolFree s core < cellsWanted i w + renames i w) then [12] else [])
      ++ (if (nextInstr s wid w).any fun i => waitsToRetire i w then [13] else [])
      ++ (if w.sched.frontDue then [27] else []) ++ (if w.gaveWay then [29] else [])
  at_ ++ (if w.sched.engine = .demoting then [15] else []) ++ parked ++ (if w.spilled.isEmpty then [] else [26])
    ++ (if w.halted then [28] else [])
    ++ (if squashed then [30] else []) ++ [31]

/-- The stall reason of a warp: the lowest that holds (R423). -/
def stallReason (s : State) (core wid : Nat) (w : Warp) : Nat := (reasons s core wid w).foldl min 31

/-- Whether a warp issued a word in the cycle of a turn. -/
def issuedNow (s : State) (t : Turn) (w : Warp) : Bool :=
  match t, w.loc with
  | .word c k, some l => l == (c, k) && w.sched.lastIssue == s.dev.now && w.stall.isNone
  | _, _ => false

/-- Add to a counter of a core (R424): 32 bits. -/
def bump (c : Sparse Nat) (ev n : Nat) : Sparse Nat := if n = 0 then c else aput ev ((sget 0 c ev + n) % 2 ^ 32) c

/-- Counters 0x00 to 0x22 of a core in `n` cycles, `g` of them gated (R424, R485). -/
def countCycles (s : State) (t : Turn) (n g core : Nat) (c : Core) : Core :=
  if c.ctx.isNone then { c with stalled := if c.held.isSome then c.stalled else c.stalled + g }
  else if c.held.isSome then { c with cnt := bump (bump c.cnt 0x20 n) 0x22 n }
  else
    { c with
      stalled := c.stalled + g
      cnt := (s.warpsOn core).foldl (fun m e => bump m (if issuedNow s t e.2 then 0 else stallReason s core e.1 e.2) (n - g))
        (bump (bump (bump c.cnt 0x20 n) 0x21 (n - g)) 0x22 g) }

/-- Timers of a warp in `n` non-stalled cycles: those of a warp that is parked, or stopped, stand still (R138); a dispatchable one's
age begins (R141). -/
def ageWarp (s : State) (n core wid : Nat) (w : Warp) : Warp :=
  let now := s.nonStalled core
  if w.parked || w.halted || w.stop.isSome then
    { w with sched := { w.sched with fairStart := w.sched.fairStart.map (· + n), deferSince := w.sched.deferSince.map (· + n),
                                     readySince := none, aged := false } }
  else if dispatchable s core wid w then { w with sched := { w.sched with readySince := some (w.sched.readySince.getD now) } }
  else { w with sched := { w.sched with readySince := none, aged := false } }

/-- Gated cycles among `n` from a time on: the first of each 64 (R485). -/
def gatedIn (s : State) (now n : Nat) : Nat :=
  let g := gateOf s
  let upto := fun (t : Nat) => t / 64 * g + min g (t % 64)
  if g = 0 then 0 else upto (now + n) - upto now

/-- A clause with YIELD that has just ended makes its warp the one that issued last (R35, R141). -/
def Warp.noteYield (w : Warp) (now : Nat) : Warp :=
  if w.sched.yielded then { w with sched := { w.sched with lastIssue := now, yielded := false } } else w

/-- What cycles count and age on the cores. -/
def passCycles (s : State) (t : Turn) (n : Nat) : State :=
  let g := gatedIn s s.dev.now n
  { s with
    cores := s.cores.map fun e => (e.1, countCycles s t n g e.1 e.2)
    warps := s.warps.map fun e => (e.1, match e.2.loc with
      | some (core, _) =>
        if (s.core core).held.isSome then e.2.noteYield s.dev.now else (ageWarp s (n - g) core e.1 e.2).noteYield s.dev.now
      | none => e.2) }

/-- CLAUSE_DISPATCH (R33, R139, R140): a warp at a header starts the clause, a mid-clause one takes a port. -/
def execClauseDispatch (core slot : Nat) (s : State) : Host.Outcome State Fault Refusal :=
  .next (match s.warpAt core slot with
    | none => s
    | some wid =>
      match s.warp wid with
      | none => s
      | some w =>
        if cannotIssue w || coreHeld s core || (deliver s wid w).isSome || (stopDue s core wid w).isSome || w.sched.frontDue then s
        else if w.run.widx = 0 then dispatchClause s wid core w
        else if dispatchable s core wid w then (bindPort s core wid w).getD s
        else s)

/-- WARP_AGED (R141): after 512 non-stalled cycles dispatchable without a word, a warp is aged and takes a port at once. -/
def execWarpAged (core slot : Nat) (s : State) : Host.Outcome State Fault Refusal :=
  .next (match s.warpAt core slot with
    | none => s
    | some wid =>
      match s.warp wid with
      | none => s
      | some w =>
        match w.sched.readySince with
        | none => s
        | some t =>
          if t + 512 ≤ s.nonStalled core && dispatchable s core wid w && !coreHeld s core then
            let w1 := { w with sched := { w.sched with aged := true } }
            let s1 := s.setWarp wid w1
            (bindPort s1 core wid w1).getD s1
          else s)

/-- The fairness timer's limit (R156, R161): 2^FAIR_LOG2 with 10 to 20. -/
def fairLimit (cfg : CtxCfg) : Nat :=
  let n := wfld cfg.issueCfg 16 5
  2 ^ (if n < 10 then 10 else if 20 < n then 20 else n)

/-- Whether a warp stands at an instruction boundary where a fairness switch may happen (R161), with nothing that acts before it
(R382). -/
def fairPoint (s : State) (core : Nat) (wid : Nat) (w : Warp) : Bool :=
  w.wait.isNone && w.rpt.isNone && !w.waiting.isEmpty && !w.halted && w.stop.isNone && (deliver s wid w).isNone
    && (stopDue s core wid w).isNone && match w.sched.fairStart with
    | some t => decide (t + fairLimit (s.cfg (s.ctxNo wid)) ≤ s.nonStalled core)
    | none => false

/-- The switch, or FRONTIER_REFILL where the annex is not mapped (R161, R162). -/
def fairNow (s : State) (wid : Nat) (w : Warp) : State :=
  match fairStep s wid with
  | .ok s1 => s1
  | .error a => takeTrap s wid ⟨.frontierRefill, 0, 0, w.run.mask, a, 0, true⟩

/-- FAIRNESS_SWITCH (R161): deferred while a lane of the running path holds a reservation. -/
def execFairnessSwitch (core slot : Nat) (s : State) : Host.Outcome State Fault Refusal :=
  .next (match s.warpAt core slot with
    | none => s
    | some wid =>
      match s.warp wid with
      | none => s
      | some w =>
        if !fairPoint s core wid w then s
        else if w.resv.any fun e => w.run.mask.getLsbD e.1 then
          s.setWarp wid { w with sched := { w.sched with deferSince := some (w.sched.deferSince.getD (s.nonStalled core)) } }
        else fairNow s wid w)

/-- FAIRNESS_DEFER_EXPIRY (R161): 256 further non-stalled cycles have passed. -/
def execFairnessDeferExpiry (core slot : Nat) (s : State) : Host.Outcome State Fault Refusal :=
  .next (match s.warpAt core slot with
    | none => s
    | some wid =>
      match s.warp wid with
      | none => s
      | some w =>
        match w.sched.deferSince with
        | some t => if fairPoint s core wid w ∧ t + 256 ≤ s.nonStalled core then fairNow s wid w else s
        | none => s)

end Sys2Proof.Machine
end

