-- ==== Sys2Proof/Machine/Tracing.lean ====
section
/-! DEFINITION. The events of trace units: drains (R414), lossless escapes (R417), samples (R423), and of the counter sweeper
(R425). -/

namespace Sys2Proof.Machine

/-- TRACE_DRAIN (R414): a buffer that holds at least 256 B. -/
def execTraceDrain (ctx src : Nat) (s : State) : Host.Outcome State Fault Refusal :=
  .next (if recording s ctx ∧ 256 ≤ (s.unit ctx src).buf.length then drainUnit s ctx src else s)

/-- TRACE_DRAIN_TIMER (R414): 4 µs after the last drain. -/
def execTraceDrainTimer (ctx src : Nat) (s : State) : Host.Outcome State Fault Refusal :=
  .next (if recording s ctx && !(s.unit ctx src).buf.isEmpty && decide ((s.unit ctx src).lastDrain + 10000 ≤ s.ptp) then
    drainUnit s ctx src
    else s)

/-- STALL_LIMIT_LOG2 in ticks: 2^n µs, values above 20 act as 20 (R412). -/
def stallLimit (cfg : CtxCfg) : Nat := 2500 * 2 ^ min 20 (wfld cfg.traceCfg 16 8)

/-- Whether a hold of a context's unit has lasted as long as STALL_LIMIT_LOG2 allows (R417). -/
def overheld (s : State) (ctx : Nat) (u : TraceUnit) : Bool :=
  match u.heldSince with
  | some t => decide (t + stallLimit (s.cfg ctx) ≤ s.ptp)
  | none => false

/-- LOSSLESS_ESCAPE (R417): a hold that has lasted too long ends, and the buffer is lossy for a while. -/
def execLosslessEscape (ctx src : Nat) (s : State) : Host.Outcome State Fault Refusal :=
  .next (let u := s.unit ctx src
    if overheld s ctx u then afterDrain (releaseHold (s.setUnit ctx src { u with escaped := true, heldSince := none }) src) ctx src
    else s)

/-- SAMP (R419, R423). -/
def sampPacket (s : State) (core wid : Nat) (w : Warp) (g : Grid) : List Byte :=
  let issued := w.sched.lastIssue + 1 == s.dev.now && w.stall.isNone
  let reason := if issued then 0 else stallReason s core wid w
  [hdrByte 8 issued.toNat, BitVec.ofNat 8 (w.slot + 128 * (!w.onHerd).toNat), BitVec.ofNat 8 reason]
    ++ leBytes 4 ((w.run.pc.toNat + 2 ^ 64 - g.image.codeBase.toNat) % 2 ^ 64 / 8) ++ [0]

/-- Whether a sample of an engine, since its last one at `since`, may choose the warp in a slot (R415, R423): it is on that engine, and
its grid is traced and sampled: a multiple of 2^k non-stalled cycles has come. -/
def mayBeSampled (s : State) (core : Nat) (herd : Bool) (since slot : Nat) : Bool :=
  match s.warpAt core slot with
  | none => false
  | some wid =>
    match s.warp wid, s.block (blkOf wid), s.gridOfWarp wid with
    | some w, some b, some g => w.onHerd == herd && s.traced b && wfld g.desc.trace 2 1 == 1
        && decide (since / 2 ^ wfld g.desc.trace 8 5 < s.nonStalled core / 2 ^ wfld g.desc.trace 8 5)
    | _, _, _ => false

/-- An engine's number in `Core.samples`. -/
def engineNo (herd : Bool) : Nat := if herd then 0 else 1

/-- The slot an engine samples in this cycle (R423): the next one that may be sampled, in ascending order and wrapping round. -/
def sampleSlot (s : State) (core : Nat) (herd : Bool) : Option Nat :=
  let last := sget (127, 0) (s.core core).samples (engineNo herd)
  ((List.range 128).map fun i => (last.1 + 1 + i) % 128).find? (mayBeSampled s core herd last.2)

/-- TRACE_SAMPLE (R415, R423): a sample of the warp in a slot, where its engine's sample chooses it. -/
def execTraceSample (core slot : Nat) (s : State) : Host.Outcome State Fault Refusal :=
  .next (match s.warpAt core slot with
    | none => s
    | some wid =>
      match s.warp wid, s.block (blkOf wid), s.gridOfWarp wid with
      | some w, some b, some g =>
        if sampleSlot s core w.onHerd = some slot ∧ (s.core core).held = none then
          let s1 := s.modCore core fun c => { c with samples := aput (engineNo w.onHerd) (slot, s.nonStalled core) c.samples }
          holdCheck (emit s1 b.ctx core none true (sampPacket s core wid w g)) b.ctx core
        else s
      | _, _, _ => s)

/-- Whether a counter has come to 2^31 (R425). -/
def halfFull (c : Sparse Nat) : Bool := c.any fun e => decide (2 ^ 31 ≤ e.2)

/-- Whether a context must be swept now (R425): half a second has passed since its last sweep, or a counter has come to 2^31. Under
SWEEP_HOST the sweeper does not run. -/
def sweepDue (s : State) (ctx : Nat) (c : Ctx) : Bool :=
  c.resident && wfld (s.cfg ctx).dutyMode 5 1 == 0
    && (decide (c.lastSweep + Config.ticksPerSecond / 2 ≤ s.dev.now) || halfFull c.rcnt
        || s.cores.any fun e => e.2.ctx == some ctx && halfFull e.2.cnt)

/-- COUNTER_SWEEP (R425). -/
def execCounterSweep (ctx : Nat) (s : State) : Host.Outcome State Fault Refusal :=
  .next (if (match s.ctx ctx with | some c => c.resident | none => false) then sweepAll s ctx else s)

end Sys2Proof.Machine
end

