-- ==== Sys2Proof/Machine/Switch.lean ====
section
/-! DEFINITION. Pre-emption (R95, R396 to R398, R401), context switches (R403), page migration claims (R394, R395). -/

namespace Sys2Proof.Machine

/-- Whether the host alone decides pre-emption for a context (R96). -/
def preemptHost (s : State) (ctx : Nat) : Bool := wfld (s.cfg ctx).dutyMode 3 1 == 1

/-- Blocks of a group that run, with the save pages each takes in the worst case (R401). -/
def savesOf (s : State) (grp : List Nat) : List (Nat × Nat) :=
  grp.filterMap fun m => match s.block m with
    | some b => if b.st == .running then some (m, worstPages s b) else none
    | none => none

/-- Give pages of a list to blocks in turn. -/
def dealPages : List (Nat × Nat) → List Nat → List (Nat × List Nat)
  | [], _ => []
  | x :: xs, ps => (x.1, ps.take x.2) :: dealPages xs (ps.drop x.2)

/-- A block's warps leave the sprinter engine as it is pre-empted (R155, R397). -/
def Warp.leaveSprint (w : Warp) : Warp :=
  match w.sched.engine with
  | .herd => w
  | _ => { w with sched := { w.sched with engine := .herd } }

/-- A request stands against a block, with its save pages or none (R397, R401); the naps of its warps end (R179). -/
def askBlock (s : State) (bn : Nat) (trig : PreemptTrigger) (ps : List Nat) : State :=
  endNaps (s.modBlock bn fun b =>
    { b with preempt := some ⟨s.dev.now, (coresRun s b).map fun c => (c, s.nonStalled c), trig, ps⟩ }) bn

/-- A request to pre-empt the block's group (R396, R397, R401): provisional blocks are evicted; pages are allocated, and
where the area cannot hold the group the request waits for a retry. A postponed drain counts its own event (R466). -/
def requestPreempt (s : State) (bn : Nat) (trig : PreemptTrigger) : State :=
  let grp := preemptGroup s bn
  let s1 := evictGang s bn true (trig == .contextSwitch)
  let saves := (savesOf s1 grp).filter fun x => match s1.block x.1 with | some b => !b.preempting | none => false
  match s1.block bn with
  | none => s1
  | some b =>
    match freePages s1 b.ctx (saves.foldl (fun n x => n + x.2) 0) with
    | none =>
      saves.foldl (fun s x => askBlock s x.1 trig [])
        (if trig = .curator then s1 else count s1 (b.cores.head?.getD 0) evSaveSpace)
    | some ps =>
      (dealPages saves ps).foldl (fun s x => (askBlock s x.1 trig x.2).modWarpsOf x.1 Warp.leaveSprint) (holdPages s1 b.ctx ps)

/-- Whether a waiting grid finds room as things stand (R135, R136, R89). -/
def fitsNow (s : State) (ctx gid : Nat) (g : Grid) (i : Nat) : Bool :=
  let n := needAt s ctx gid i g
  let cands := gridCands s ctx g []
  if wfld g.desc.flags 0 1 = 1 then (placeCoop waveFuel s ctx gid [] none).isSome
  else if 1 < g.desc.gang then
    (clustersOf s ctx cands).any fun cl => decide ((nextGang s ctx gid g).length ≤ (cl.filter fun cs => candRoom s ctx cs n false).length)
  else cands.any fun cs => candRoom s ctx cs n false

/-- Whether a block holds resources of a candidate for a block of a context: it runs on one of its cores, or is another context's on
their pairs (R124). -/
def standsOn (b : Block) (ctx : Nat) (cs : List Nat) : Bool :=
  b.cores.any fun c => cs.contains c || (b.ctx != ctx && cs.any fun k => leaderOf k == leaderOf c)

/-- Whether a waiting grid needs a block's resources (R396): it finds no room, and a candidate that the block stands on would have room
without the blocks there of lower effective priority than the grid. -/
def needsOf (s : State) (b : Block) (ctx gid : Nat) (g : Grid) (i : Nat) : Bool :=
  let p := prioOf s ctx gid
  !fitsNow s ctx gid g i && (gridCands s ctx g []).any fun cs =>
    let below := s.blocks.filter fun e => standsOn e.2 ctx cs && decide (prioOf s e.2.ctx e.2.gid < p)
    standsOn b ctx cs && candRoom ((below.map Prod.fst).foldl leaveCores s) ctx cs (needAt s ctx gid i g) false

/-- Whether a waiting grid of higher effective priority than a block's needs its resources (R396). -/
def prioWaits (s : State) (b : Block) : Bool :=
  (rivals s b.ctx).any fun c => (gridsOf s c).any fun e =>
    match nextIdx s c e.1 with
    | some i => decide (prioOf s b.ctx b.gid < prioOf s c e.1) && needsOf s b c e.1 e.2 i
    | none => false

/-- Whether a `gwait` is on the completion record of a grid of a context (R95, R365). -/
def onGridOf (s : State) (ctx : Nat) (va : DWord) : Bool := (gridsOf s ctx).any fun e => e.2.desc.completion == va

/-- When the last warp of a block parked in `gwait` on a grid of its context, if all have (R95). -/
def gwaitSince (s : State) (bn : Nat) : Option Nat :=
  let ws := aliveWarps s bn
  if ws.isEmpty then none
  else ws.foldl (fun m e => match m, e.2.wait with
    | some a, some (.gwait _ va _ _ since) => if onGridOf s (s.ctxNo e.1) va then some (max a since) else none
    | _, _ => none) (some 0)

/-- Whether R95 selects a block: a child grid waits, no core has room for its next block, and the block has been parked
in `gwait` longest. -/
def gwaitChosen (s : State) (bn : Nat) (b : Block) : Bool :=
  let full := (gridsOf s b.ctx).any fun e =>
    e.2.parent.isSome && (match nextIdx s b.ctx e.1 with
      | some i =>
        let n := needAt s b.ctx e.1 i e.2
        (candidates s b.ctx n).all fun cs => !candRoom s b.ctx cs n false
      | none => false)
  full && match gwaitSince s bn with
    | none => false
    | some t => s.blocks.all fun e => e.2.ctx != b.ctx || e.2.st != .running
        || (match gwaitSince s e.1 with | some u => decide (t ≤ u) | none => true)

/-- Time slice of a PREEMPT_CLASS in non-stalled cycles (R396); class 2 has none. -/
def sliceLimit (s : State) (b : Block) : Option Nat :=
  match s.gridOf b with
  | none => none
  | some g => match wfld g.desc.flags 6 2 with
    | 0 => some 5000000
    | 1 => some 20000000
    | _ => none

/-- Whether a block's time slice has ended. -/
def sliceOver (s : State) (b : Block) : Bool :=
  match sliceLimit s b with
  | some n => decide (b.sliceStart + n ≤ s.nonStalled (b.cores.head?.getD 0))
  | none => false

/-- Whether a reason to pre-empt a block holds (R396). A host request and a context switch are the environment's. -/
def triggerHolds (s : State) (bn : Nat) (b : Block) : PreemptTrigger → Bool
  | .timeSlice => sliceOver s b
  | .priority => prioWaits s b
  | .contextSwitch => true
  | .curator => b.cores.any fun c => (s.core c).draining.isSome
  | .host => true
  | .gwait => gwaitChosen s bn b

/-- Triggers that PREEMPT_HOST turns into host events, or switches off (R96). -/
def hostOnly : PreemptTrigger → Bool
  | .timeSlice | .priority | .gwait => true
  | _ => false

/-- PREEMPTION_REQUEST (R396, R397). -/
def execPreemptionRequest (bn : Nat) (trig : PreemptTrigger) (s : State) : Host.Outcome State Fault Refusal :=
  .next (match s.block bn with
    | none => s
    | some b =>
      if b.cores.isEmpty || b.preempt.isSome || !triggerHolds s bn b trig then s
      else if preemptHost s b.ctx && hostOnly trig then (if trig = .priority then hostEvent s (.priority bn) else s)
      else requestPreempt s bn trig)

/-- TIME_SLICE_EXPIRY (R396, R96). -/
def execTimeSliceExpiry (bn : Nat) (s : State) : Host.Outcome State Fault Refusal :=
  .next (match s.block bn with
    | none => s
    | some b =>
      if b.cores.isEmpty || b.preempt.isSome || !sliceOver s b then s
      else if preemptHost s b.ctx then
        hostEvent (s.modBlock bn fun b => { b with sliceStart := s.nonStalled (b.cores.head?.getD 0) }) (.sliceEnd bn)
      else requestPreempt s bn .timeSlice)

/-- PREEMPT_BUDGET_EXPIRY (R397, R398): 250,000 non-stalled cycles from the request the warp stops at its next boundary. -/
def execPreemptBudgetExpiry (core slot : Nat) (s : State) : Host.Outcome State Fault Refusal :=
  .next (match s.warpAt core slot with
    | none => s
    | some wid =>
      match s.warp wid, preemptOf s wid with
      | some w, some p =>
        match if p.over s core then stopDue s core wid w else none with
        | some n => trySave (stopWarp s core wid w n) (blkOf wid)
        | none => s
      | _, _ => s)

/-- WARP_STOP_POINT (R382, R398): a warp of a block being pre-empted stops where it may, and the block is saved once all
have. -/
def execWarpStopPoint (core slot : Nat) (s : State) : Host.Outcome State Fault Refusal :=
  .next (match s.warpAt core slot with
    | none => s
    | some wid =>
      match s.warp wid, preemptOf s wid with
      | some w, some _ =>
        if dumping s wid then s
        else if w.stop.isSome || w.alive == 0 then trySave s (blkOf wid)
        else match stopDue s core wid w with
          | some n => trySave (stopWarp s core wid w n) (blkOf wid)
          | none => s
      | _, _ => s)

/-- SAVE_SPACE_RETRY (R401): a request that found no room is made again after 1 ms. -/
def execSaveSpaceRetry (bn : Nat) (s : State) : Host.Outcome State Fault Refusal :=
  .next (match s.block bn with
    | none => s
    | some b =>
      match b.preempt with
      | none => s
      | some p =>
        if p.pages.isEmpty ∧ p.at_ + 2500000 ≤ s.dev.now then
          let s1 := (preemptGroup s bn).foldl (fun s m => s.modBlock m fun b =>
            if b.preempting then b else { b with preempt := none }) s
          requestPreempt s1 bn p.trig
        else s)

/-- The 32 B of a vitrine entry as it is written back (R253). -/
def Vitrine.bytesBack (s : State) (v : Vitrine) : List Byte :=
  let wb := v.writer.bind s.block
  v.fields.take 20 ++ leBytes 1 v.opened.toNat ++ leBytes 1 v.front.toNat ++ leBytes 2 v.seq.toNat
    ++ leBytes 4 (match wb with | some b => b.gid | none => 0) ++ leBytes 4 (match wb with | some b => b.idx % 2 ^ 32 | none => 0)

/-- Write the vitrine table and the predictor entries back (R104, R253, R403). -/
def writeTables (s : State) (ctx : Nat) (c : Ctx) : State :=
  let s1 := c.vits.foldl (fun s e => s.devPut ctx (c.eff.vitBase.toNat + 32 * e.1) (e.2.bytesBack s)) s
  let s2 := if wfld c.eff.dutyMode 1 1 = 1 then s1
    else c.preds.foldl (fun s e => s.devPut ctx (c.eff.predBase.toNat + 32 * e.1) e.2) s1
  s2.modCtx ctx fun c => { c with preds := [] }

/-- Read the vitrine table at a switch-in (R253), entry by entry; a skipped entry reads as an unused one (R488). The writer of an
open entry is the block whose record names it. -/
def readVits (s : State) (ctx : Nat) (c : Ctx) : State :=
  (List.range 256).foldl (fun s n =>
    let a := c.cfg.vitBase.toNat + 32 * n
    let r := s.devRead ctx a 32
    let s1 := match r with | some _ => s.devTouch ctx a 32 | none => skipAccess s ctx a
    let e := r.getD []
    let old := sget Vitrine.unused c.vits n
    let v : Vitrine := if fieldOf e 16 4 = 0 then Vitrine.unused
      else { fields := e, front := fieldOf e 0x15 1 % 2 == 1, opened := fieldOf e 0x14 1 % 2 == 1,
             writer := if fieldOf e 0x14 1 % 2 = 1 then old.writer else none, seq := BitVec.ofNat 32 (fieldOf e 0x16 2),
             swapped := false }
    s1.modCtx ctx fun c => { c with vits := if v = Vitrine.unused then adel n c.vits else aput n v c.vits }) s

/-- Blocks of a context that are on cores. -/
def placedBlocks (s : State) (ctx : Nat) : List (Nat × Block) := s.blocks.filter fun e => e.2.ctx == ctx && !e.2.cores.isEmpty

/-- A provisional block whose warps have exited goes back to QUEUED_P at a switch-out (R106). -/
def requeueEnded (s : State) (bn : Nat) : State :=
  match s.block bn with
  | some b => if b.st = .endedP then evictGang s bn true true else s
  | none => s

/-- Drain a context's buffers as far as they go, those of some sources (R411). -/
def drainAll (s : State) (ctx : Nat) (of : Nat → Bool) : State :=
  match s.ctx ctx with
  | some c => (c.units.filter fun e => of e.1).foldl (fun s e => drainSource s ctx e.1) s
  | none => s

/-- Whether those of a context's trace buffers are empty, or record nothing. -/
def drained (s : State) (ctx : Nat) (of : Nat → Bool) : Bool :=
  !recording s ctx || match s.ctx ctx with
    | some c => c.units.all fun e => !of e.1 || e.2.buf.isEmpty
    | none => true

/-- Cores pass on (R403 steps 2 to 4): their L1s are written back, tables, counters and trace are written, TLBs and banks emptied;
with its last core a context is resident no more. A proxy queue keeps its entries, and takes banks again at its next push: DESIGN
CHOICE (notes/assumptions/33). -/
def leaveSome (s : State) (ctx : Nat) (cores : List Nat) : State :=
  match s.ctx ctx with
  | none => s
  | some c =>
    let s1 := sweepAll (writeTables s ctx c) ctx
    let s2 := ((coresOf s1 ctx).filter cores.contains).foldl dropCore s1
    let stays := !(coresOf s2 ctx).isEmpty
    s2.modCtx ctx fun c =>
      { c with tlb := [], resident := stays, freedCores := if stays then c.freedCores else [], childCores := if stays then c.childCores else []
               queues := c.queues.map fun e => (e.1, { e.2 with banks := e.2.banks.filter fun b => !cores.contains b.1 }) }

/-- Blocks of a context that are on some cores, a matrix block's follower among them (R124, R403). -/
def blocksAt (s : State) (ctx : Nat) (cores : List Nat) : List (Nat × Block) :=
  s.blocks.filter fun e => e.2.ctx == ctx && (coresRun s e.2).any cores.contains

/-- CONTEXT_SWITCH_OUT (R403) of some cores, whole pairs (R124): the context's blocks on them are pre-empted or evicted; once none is
left there, and the trace buffers are drained, the cores pass on. A provisional block that has ended goes with the context's last
core (R106). -/
def execContextSwitchOut (ctx : SwitchOut) (s : State) : Host.Outcome State Fault Refusal :=
  .next (let cores := ctx.cores
    let ctx := ctx.ctx
    match s.ctx ctx with
    | none => s
    | some c =>
      if !c.resident then s
      else
        let cs := cores.flatMap fun c => [leaderOf c, leaderOf c + 1]
        let all := (coresOf s ctx).all cs.contains
        let ended := (s.blocks.filter fun e => e.2.ctx == ctx && e.2.st == .endedP).map Prod.fst
        let s1 := if all then ended.foldl requeueEnded s else s
        let s2 := (blocksAt s1 ctx cs).foldl (fun s e =>
          match s.block e.1 with
          | some b => if b.preempt.isSome || b.cores.isEmpty then s else requestPreempt s e.1 .contextSwitch
          | none => s) s1
        if (blocksAt s2 ctx cs).isEmpty then
          let of := fun (src : Nat) => all || cs.contains src
          let s3 := drainAll s2 ctx of
          if drained s3 ctx of then leaveSome s3 ctx cs else s3
        else s2)

/-- CONTEXT_SWITCH_IN (R113, R403): registered fields are applied, the vitrine table is read, recorded resolutions are
applied; the context's waiting blocks may be placed. -/
def execContextSwitchIn (ctx : Nat) (s : State) : Host.Outcome State Fault Refusal :=
  .next (match s.ctx ctx with
    | none => s
    | some c =>
      if c.resident then s
      else
        let s1 := s.modCtx ctx fun c => { c with eff := c.cfg, resident := true, tlb := [], lastSweep := s.dev.now }
        let s2 := readVits s1 ctx c
        let s3 := (gridsOf s2 ctx).foldl (fun s e =>
          match e.2.pendingRes with
          | some t => resolveGrid s ctx e.1 t
          | none => s) s2
        s3.modCtx ctx fun c => { c with freedCores := (placeOrder s3 ctx).map fun k => (s.dev.now, k) })

/-- Set the STATUS field of MIG_CLAIM (R394). -/
def migStatus (s : State) (n : Nat) : State := s.modDev fun d => { d with migClaim := BitVec.ofNat 64 (4 * n) }

/-- The context and page of a value written to MIG_CLAIM (R394). -/
def migPage (val : BitVec 64) : Nat × Nat := (fld val.toNat 56 6, fld val.toNat 16 40)

/-- A HANDLING entry of a page: a device claim (R395). -/
def deviceClaim (s : State) (ctx page : Nat) : Option Nat :=
  (s.dev.wt.find? fun e => e.2.ctx == ctx && e.2.page == page && (match e.2.st with | .handling _ => true | .host _ => false)).map
    Prod.fst

/-- Whether a page is pinned (R395). -/
def pagePinned (s : State) (ctx page : Nat) : Bool :=
  s.dev.conflicts.any fun c => c.ctx == ctx && c.page == page && c.pinned.isSome

/-- A host claim (R394, R395). -/
def hostClaim (s : State) (ctx page : Nat) : State :=
  if pagePinned s ctx page then migStatus s 2
  else match deviceClaim s ctx page with
    | some i =>
      countConflict (migStatus (s.modDev fun d => { d with wt := amod i (fun e => { e with conflict := true }) d.wt }) 1) ctx page
    | none => migStatus (s.modDev fun d =>
        { d with claims := (d.claims.filter fun c => !(c.ctx == ctx && c.page == page)) ++ [⟨ctx, page, s.ptp⟩] }) 0

/-- A host's release of its claim (R394). -/
def hostRelease (s : State) (ctx page : Nat) : State :=
  s.modDev fun d => { d with claims := d.claims.filter fun c => !(c.ctx == ctx && c.page == page) }

/-- MIG_CLAIM (R394, R395): a write with OP 1; OP 0 and 3 are malformed. -/
def execMigClaim (val : BitVec 64) (s : State) : Host.Outcome State Fault Refusal :=
  .next (match fld val.toNat 0 2 with
    | 1 => hostClaim s (migPage val).1 (migPage val).2
    | 2 => s
    | _ => migStatus s 3)

/-- MIG_RELEASE (R394): a write with OP 2. -/
def execMigRelease (val : BitVec 64) (s : State) : Host.Outcome State Fault Refusal :=
  .next (if fld val.toNat 0 2 = 2 then hostRelease s (migPage val).1 (migPage val).2 else s)

/-- MIG_CLAIM_EXPIRY (R394): a granted claim ends after 10 ms. -/
def execMigClaimExpiry (ctx page : Nat) (s : State) : Host.Outcome State Fault Refusal :=
  .next (if s.dev.claims.any fun c => c.ctx == ctx && c.page == page && decide (c.at_ + 25000000 ≤ s.ptp) then
      hostRelease s ctx page
    else s)

/-- PAGE_PIN_EXPIRY (R395): a page is pinned for 10 ms. -/
def execPagePinExpiry (ctx page : Nat) (s : State) : Host.Outcome State Fault Refusal :=
  .next (s.modDev fun d => { d with conflicts := d.conflicts.map fun c =>
    if c.ctx = ctx ∧ c.page = page ∧ (match c.pinned with | some t => decide (t + 25000000 ≤ s.ptp) | none => false) = true then
      { c with pinned := none }
    else c })

end Sys2Proof.Machine
end

