-- ==== Sys2Proof/Machine/Contain.lean ====
section
/-! DEFINITION. The Curator's visits (R464 to R468), containment of errors (R40, R470 to R473), reset domains (R478) and links
(R479). -/

namespace Sys2Proof.Machine

/-- Blocks that run on a core: those placed on it, and the owner of its pair's matrix engine (R465). -/
def runsOn (s : State) (core : Nat) : List Nat :=
  let bs := (blocksOn s core).map Prod.fst
  match (s.pair (leaderOf core)).owner with
  | some bn => if bs.contains bn then bs else bs ++ [bn]
  | none => bs

/-- Ticks of 1 ms. -/
def msTicks : Nat := 2500000

/-- Whether a core runs blocks of a context whose cores only the host has drained (R464). -/
def curatorHost (s : State) (core : Nat) : Bool :=
  (runsOn s core).any fun bn => match s.block bn with
    | some b => wfld (s.cfg b.ctx).dutyMode 2 1 == 1
    | none => false

/-- Whether a core can be visited: in service, and not being visited. -/
def visitable (s : State) (core : Nat) : Bool :=
  let c := s.core core
  !c.fenced && !c.stopped && c.draining.isNone && c.scanning.isNone

/-- The next core of a die's rotation: a postponed one first, then ascending from the die's position, wrapping round
(R464, R466). -/
def nextVisit (s : State) (die : Nat) : Option Nat :=
  let cores := (List.range 32).map (32 * die + ·)
  let p := sget 0 s.dev.curator die
  let order := cores.drop p ++ cores.take p
  (cores.find? fun c => (s.core c).postponed && visitable s c).orElse fun _ => order.find? fun c => visitable s c && !curatorHost s c

/-- A visit begins (R465 step 1): nothing more is placed on the core, and the naps of its blocks end (R179). -/
def startVisit (s : State) (core : Nat) : State :=
  (runsOn s core).foldl endNaps (s.modCore core fun c => { c with draining := some (s.nonStalled core), postponed := false })

/-- CURATOR_VISIT_START (R464): a die starts one core every 1 ms. -/
def execCuratorVisitStart (die : Nat) (s : State) : Host.Outcome State Fault Refusal :=
  .next (if 8 ≤ die || s.dev.partBusy.contains die
      || (match alook (16 + die) s.dev.curator with | some t => decide (s.dev.now < t + msTicks) | none => false) then s
    else match nextVisit s die with
      | none => s
      | some c =>
        let pos := if (s.core c).postponed then sget 0 s.dev.curator die else (c % 32 + 1) % 32
        startVisit (s.modDev fun d => { d with curator := aput (16 + die) s.dev.now (aput die pos d.curator) }) c)

/-- CURATOR_HOST_REQUEST (R464): the host has a core visited. -/
def execCuratorHostRequest (core : Nat) (s : State) : Host.Outcome State Fault Refusal :=
  .next (if 256 ≤ core || s.dev.partBusy.contains (dieOf core) || !visitable s core then s else startVisit s core)

/-- Whether a block waits for save pages for a pre-emption (R401). -/
def Block.pageless (b : Block) : Bool := b.preempt.isSome && !b.preempting

/-- A drain's request for a block that waits for save pages is withdrawn (R466). -/
def Block.withdrawDrain (b : Block) : Block :=
  match b.preempt with
  | some p => if p.trig == .curator && p.pages.isEmpty then { b with preempt := none } else b
  | none => b

/-- A visit is postponed (R466): the save area cannot take a block; the drain's requests are withdrawn, and one save-space event
counts. -/
def postpone (s : State) (core : Nat) : State :=
  count (((runsOn s core).foldl (fun s bn => (preemptGroup s bn).foldl (fun s m => s.modBlock m Block.withdrawDrain) s) s).modCore core
    fun c => { c with draining := none, postponed := true }) core evSaveSpace

/-- CURATOR_DRAIN_EXPIRY (R465 step 2, R466): a core without blocks is scanned; after 500,000 non-stalled cycles the blocks
still there are pre-empted or evicted. -/
def execCuratorDrainExpiry (core : Nat) (s : State) : Host.Outcome State Fault Refusal :=
  .next (match (s.core core).draining with
    | none => s
    | some t =>
      if (runsOn s core).isEmpty then s.modCore core fun c => { c with draining := none, scanning := some s.dev.now }
      else if s.nonStalled core < t + 500000 then s
      else
        let s1 := (runsOn s core).foldl (fun s bn =>
          match s.block bn with
          | some b => if b.preempt.isSome then s else requestPreempt s bn .curator
          | none => s) s
        if (runsOn s1 core).any fun bn => match s1.block bn with | some b => b.pageless | none => false then
          postpone s1 core
        else s1)

/-- Grids that a core has run blocks of since its last passed scan, and those it runs now (R467, R468). -/
def gridsOn (s : State) (core : Nat) : List (Nat × Nat) :=
  (s.grids.filter fun e => (alook core e.2.used).isSome
      || (runsOn s core).any fun bn => match s.block bn with | some b => gridKey b.ctx b.gid == e.1 | none => false).map
    fun e => (e.1 / 2 ^ 24, e.1 % 2 ^ 24)

/-- A grid that ran on a failed core (R468): SUSPECT now, or when it is DONE; a killed or failed one keeps its status. -/
def suspectGrid (s : State) (g : Nat × Nat) : State :=
  match s.grid g.1 g.2 with
  | none => s
  | some x =>
    match x.status with
    | .done | .vouched => setGrid s g.1 g.2 fun x => { x with status := .suspect, markSuspect := true }
    | .pending | .running => s.modGrid g.1 g.2 fun x => { x with markSuspect := true }
    | _ => s

/-- List grid identifiers for the host: at most 4,096, then the overflow bit (R468). -/
def listSuspects (s : State) (gs : List Nat) : State :=
  s.modDev fun d => { d with suspects := (d.suspects ++ gs).take 4096,
                             suspectOver := d.suspectOver || decide (4096 < (d.suspects ++ gs).length) }

/-- A core is fenced for good (R468). -/
def fenceCore (s : State) (core : Nat) : State :=
  let gs := gridsOn s core
  let s1 := s.modCore core fun c => { c with fenced := true, draining := none, scanning := none, postponed := false, mismatches := [] }
  let s2 := errRecord (gs.foldl suspectGrid s1) 0x12 10 core 0xFF 0 0xFFFFFFFF 0xFFFFFFFF
  hostEvent ((listSuspects s2 (gs.map Prod.snd)).modDev fun d => { d with replace := true, degraded := true }) (.suspects core)

/-- A core has passed a scan begun at a time: grids whose last block left it before are one core nearer to VOUCHED
(R467). -/
def passScan (s : State) (core began : Nat) : State :=
  let hit := (s.grids.filter fun e => match alook core e.2.used with | some t => decide (t ≤ began) | none => false).map Prod.fst
  hit.foldl (fun s k =>
    vouchCheck (s.modGrid (k / 2 ^ 24) (k % 2 ^ 24) fun g => { g with used := adel core g.used }) (k / 2 ^ 24) (k % 2 ^ 24))
    (s.modCore core fun c => { c with lastPass := began })

/-- CURATOR_SCAN_COMPLETE (R465 steps 3 and 4, R467, R468): after 100 µs the scan has passed or failed. -/
def execCuratorScanComplete (core : Nat) (pass : Bool) (s : State) : Host.Outcome State Fault Refusal :=
  .next (match (s.core core).scanning with
    | none => s
    | some t =>
      if s.dev.now < t + 250000 then s
      else
        let s1 := s.modCore core fun c => { c with scanning := none }
        if pass then freeCores (passScan s1 core t) [core] else fenceCore s1 core)

/-- A warp's two scoreboard copies disagree at an issue (R40): squashed and reissued without architectural effect, and counted; 16 in a row
fence the core. -/
def mismatch (s : State) (core slot : Nat) : State :=
  match (s.warpAt core slot).bind s.warp with
  | none => s
  | some w =>
    if w.halted || w.stop.isSome || w.wait.isSome || !w.spilled.isEmpty || w.alive == 0 then s
    else
      let n := sget 0 (s.core core).mismatches slot + 1
      let s1 := count (s.modCore core fun c => { c with mismatches := aput slot n c.mismatches }) core evMismatch
      if 16 ≤ n then fenceCore s1 core else s1

/-- A transparent or corrected error is counted only (R470, R473). -/
def counted (s : State) : State := s.modDev fun d => { d with corrected := d.corrected + 1 }

/-- Poison one word of a list. -/
def poisonAt (ws : List PWord) (i n : Nat) : List PWord :=
  (List.range n).map fun j => let x := (ws[j]?).getD PWord.zero; if j = i then ⟨x.val, true⟩ else x

/-- The class of an error in a store, and the block it belongs to (R473). -/
def storeClass : ErrStore → Nat
  | .cell | .ureg => 1
  | .scratch | .fifo => 2
  | .accum => 3
  | .latch | .scale => 4

/-- Mark a word of a store poisoned (R470). `owner` is the warp, block or core; none where there is no such word. -/
def poisonStore (s : State) (store : ErrStore) (owner index lane : Nat) : Option State :=
  match store with
  | .cell => match s.warp owner with
    | some w => if w.loc.isSome ∧ w.cells.contains (cellNo index (lane / 8)) ∧ lane < 32 then
        some (s.setWarp owner { w with v := aput index (poisonAt ((alook index w.v).getD []) lane 32) w.v }) else none
    | none => none
  | .ureg => match s.warp owner with
    | some w => if w.loc.isSome ∧ index < 96 then some (s.setWarp owner (w.sput index ⟨(w.sget index).val, true⟩)) else none
    | none => none
  | .scratch => match s.block owner with
    | some b => if !b.cores.isEmpty ∧ 4 * index < s.scratchBytes b then some (s.setBlock owner { b with scrPois := nins index b.scrPois }) else none
    | none => none
  | .fifo =>
    let f := (alook index (s.core owner).fifos).getD []
    if lane < f.length then
      some (s.modCore owner fun c => { c with fifos := aput index (poisonAt f lane f.length) c.fifos }) else none
  | .accum => match s.block owner with
    | some b => some (s.setBlock owner { b with mat :=
        { b.mat with acc := aput index (poisonAt ((alook index b.mat.acc).getD []) lane 256) b.mat.acc } })
    | none => none
  | .latch => match s.block owner with
    | some b => some (s.setBlock owner { b with mat :=
        { b.mat with latch := aput index (poisonAt ((alook index b.mat.latch).getD []) lane 32) b.mat.latch } })
    | none => none
  | .scale => match s.block owner with
    | some b => some (s.setBlock owner { b with mat :=
        { b.mat with scale := aput index (poisonAt ((alook index b.mat.scale).getD []) lane 32) b.mat.scale } })
    | none => none

/-- The block a store's word belongs to. -/
def storeBlock (store : ErrStore) (owner : Nat) : Option Nat :=
  match store with
  | .cell | .ureg => some (blkOf owner)
  | .fifo => none
  | _ => some owner

/-- The core whose store holds a word (R122, R235, R473): a warp's own; of scratchpad, the one with the byte's share; of the matrix unit's
stores, the pair's leader. -/
def storeCore (s : State) (b : Block) (store : ErrStore) (owner index : Nat) : Nat :=
  match store with
  | .cell | .ureg => match s.warp owner with | some w => w.core | none => 0xFFFF
  | .fifo => owner
  | .scratch => (b.cores[4 * index / max 1 (2048 * scrGranules s b)]?).getD 0xFFFF
  | .accum | .latch | .scale => match b.cores with | c :: _ => leaderOf c | [] => 0xFFFF

/-- UNCORRECTABLE_WORD_ERROR (R470, R473): the word is poisoned and one error record is appended. -/
def execUncorrectableWordError (store : ErrStore) (owner index lane : Nat) (s : State) : Host.Outcome State Fault Refusal :=
  .next (match poisonStore s store owner index lane with
    | none => s
    | some s1 =>
      match (storeBlock store owner).bind s.block with
      | some b => errRecord s1 (storeClass store) 2 (storeCore s b store owner index) b.ctx 0 b.gid (b.idx % 2 ^ 32)
      | none => errRecord s1 (storeClass store) 2 owner (((s.core owner).ctx).getD 0xFF) 0 0xFFFFFFFF 0xFFFFFFFF)

/-- A sector of memory is poisoned (R472): no core reads an older copy of it. -/
def poisonSector (s : State) (key : Nat) : State :=
  (s.remember none (key / 32 * 32) 32 true).modMem fun m => m.setPois (key / 32) true

/-- The blocks with a provisional line over a sector (R109). -/
def provHolders (s : State) (key : Nat) : List Nat := (s.blocks.filter fun e => e.2.lines.contains (lineOf key)).map Prod.fst

/-- A sector of memory is poisoned, and an error record names its physical address (R472, R474). -/
def badSector (s : State) (cls : Nat) (space : Space) (pa : Nat) : State :=
  errRecord (poisonSector s (memKey space pa)) cls 2 0xFFFF 0xFF pa 0xFFFFFFFF 0xFFFFFFFF

/-- A dirty line of the L2 has an error when it is accessed (R109, R472): the ordinary line, which the local L2 has of DEV and HOST
addresses only (R242), or a provisional one. Which of those over the address is the environment's: a free choice. -/
def badDirty (s : State) (space : Space) (pa : Nat) : State :=
  let key := memKey space pa
  let hs := provHolders s key
  let i := Config.freeNat s.free 1 % max 1 (hs.length + (if space = .peer then 0 else 1))
  match hs[i]?, (hs[i]?).bind s.block with
  | some bn, some b =>
    (errRecord (s.modBlock bn fun b => { b with ppois := nins (key / 32) b.ppois }) 0x06 2 0xFFFF b.ctx pa b.gid
      (b.idx % 2 ^ 32)).takeFree
  | _, _ => if space = .peer then s else if hs.isEmpty then badSector s 0x06 space pa else (badSector s 0x06 space pa).takeFree

/-- Dirty bytes of a sector in a core's L1 have an error (R470): the sector is poisoned and written back so. -/
def badL1 (s : State) (core : Nat) (space : Space) (pa : Nat) : State :=
  let sector := memKey space pa / 32 * 32
  let mine := fun (b : Buffered) => b.meets sector 32
  if (s.core core).dirty.any mine then badSector (landDirty s core mine) 0x06 space pa else s

/-- CACHE_SECTOR_ERROR (R109, R470, R472, R473): a clean sector is read again from its home, and a correctable error is corrected, which
is counted only; the other kinds poison the sector and append a record with its physical address. -/
def execCacheSectorError (kind : CacheErr) (pa : SectorAddr) (s : State) : Host.Outcome State Fault Refusal :=
  .next (match kind with
    | .clean | .corrected => counted s
    | .cleanHomeBad => badSector s 0x05 pa.space pa.pa
    | .dirtyAccess => badDirty s pa.space pa.pa
    | .dirtyEvict => if pa.space = .peer then s else badSector s 0x07 pa.space pa.pa
    | .hbm => if pa.space = .dev then badSector s 0x08 pa.space pa.pa else s
    | .dirtyL1 core => badL1 s core pa.space pa.pa)

/-- Whether a gang's grid relaunches it now (R96, R476): ACTION 4 instead of 3 in the record. -/
def willRelaunch (s : State) (bn : Nat) : Bool :=
  match s.block bn with
  | none => false
  | some b => match s.gridOf b with
    | none => false
    | some g => wfld g.desc.flags 3 1 == 1 && wfld (s.cfg b.ctx).dutyMode 6 1 == 0
        && decide (sget 0 g.kills (b.idx / max 1 g.desc.gang) + 1 ≤ 3)

/-- Whether a core dump of a block's context is in progress: a kill waits until it ends (R480). -/
def dumpHolds (s : State) (bn : Nat) : Bool :=
  match s.block bn with
  | none => false
  | some b => match s.ctx b.ctx with | some c => c.dump.isSome | none => false

/-- A gang is killed, or after the core dump of its context that is in progress (R430, R480). -/
def killAfterDump (s : State) (bn : Nat) : State :=
  match s.block bn with
  | some b => if dumpHolds s bn then s.modCtx b.ctx fun c => { c with dump := c.dump.map fun d => { d with kills := d.kills ++ [bn] } }
    else killGang s bn
  | none => s

/-- FRONTIER_PARITY_ERROR (R473): the warp is killed, and with it its gang. -/
def execFrontierParityError (core slot : Nat) (s : State) : Host.Outcome State Fault Refusal :=
  .next (match s.warpAt core slot with
    | none => s
    | some wid =>
      match s.block (blkOf wid) with
      | none => s
      | some b =>
        killAfterDump (errRecord s 0x0A (if willRelaunch s (blkOf wid) then 4 else 3) core b.ctx 0 b.gid (b.idx % 2 ^ 32)) (blkOf wid))

/-- TRANSLATION_PARITY_ERROR (R473): the entry is invalidated, and the next access walks again. -/
def execTranslationParityError (ctx va : Nat) (s : State) : Host.Outcome State Fault Refusal :=
  .next (counted (s.modCtx ctx fun c => { c with tlb := c.tlb.filter fun e => !tlbMeets e.1 va 1 }))

/-- INSTRUCTION_CACHE_PARITY_ERROR (R473): the core's clause buffers are fetched again. -/
def execInstructionCacheParityError (core : Nat) (s : State) : Host.Outcome State Fault Refusal :=
  .next (counted { s with warps := s.warps.map fun e =>
    (e.1, if e.2.loc.isSome && e.2.core == core then { e.2 with clause := none } else e.2) })

/-- A partition reset of a die (R478): its gangs are killed and relaunched or not, its cores stop and are reset. A drain
is abandoned (R480). -/
def resetDie (s : State) (die : Nat) : State :=
  let cores := (List.range 32).map (32 * die + ·)
  let bs := (s.blocks.filter fun e => e.2.cores.any fun c => dieOf c == die).map Prod.fst
  let s1 := bs.foldl killGang s
  let s2 := cores.foldl (fun s c => s.modCore c fun k =>
    { Core.reset with fenced := k.fenced, lastPass := k.lastPass, stopped := true, resetAt := s.dev.now }) s1
  let s3 := (cores.filter fun c => c % 2 == 0).foldl (fun s c => s.modPair c fun _ => Pair.reset) s2
  let s4 : State := { s3 with ctxs := s3.ctxs.map fun e => (e.1, { e.2 with
    queues := e.2.queues.map fun q => (q.1, { q.2 with banks := q.2.banks.filter fun b => dieOf b.1 != die })
    tlb := if s.cores.any fun c => c.2.ctx == some e.1 && dieOf c.1 != die then e.2.tlb else [] }) }
  s4.modDev fun d => { d with partBusy := nins die d.partBusy }

/-- Whether a die can be reset: a compute die that is not being reset. -/
def resettable (s : State) (die : Nat) : Bool := decide (die < 8) && !s.dev.partBusy.contains die

/-- A die is reset, or after a core dump in progress of a context with a block on it: its gangs are not killed before (R478, R480). -/
def resetAfterDump (s : State) (die : Nat) : State :=
  match s.blocks.find? fun e => (e.2.cores.any fun c => dieOf c == die) && dumpHolds s e.1 with
  | some e => s.modCtx e.2.ctx fun c =>
      { c with dump := c.dump.map fun d => { d with resets := nins die d.resets } }
  | none => resetDie s die

/-- REGISTRAR_STATE_ERROR (R473, R478). The Registrar's state is rebuilt, so that no entry and no grid is lost. -/
def execRegistrarStateError (die : Nat) (s : State) : Host.Outcome State Fault Refusal :=
  .next (if resettable s die then resetAfterDump (errRecord s 0x0D 6 0xFFFF 0xFF 0 0xFFFFFFFF 0xFFFFFFFF) die else s)

/-- PART_RESET (R478): DIE in [3:0], GO in [8]. -/
def execPartReset (val : BitVec 64) (s : State) : Host.Outcome State Fault Refusal :=
  .next (let s1 := s.modDev fun d => { d with partDie := fld val.toNat 0 4 }
    if fld val.toNat 8 1 = 1 ∧ resettable s (fld val.toNat 0 4) then resetAfterDump s1 (fld val.toNat 0 4) else s1)

/-- PARTITION_RESET_COMPLETE (R478): every core has been scanned; the cores that failed are fenced, the others return. -/
def execPartitionResetComplete (die : Nat) (failed : List Nat) (s : State) : Host.Outcome State Fault Refusal :=
  .next (if !s.dev.partBusy.contains die then s
    else
      let cores := (List.range 32).map (32 * die + ·)
      let s1 := cores.foldl (fun s c =>
        if (s.core c).fenced then s
        else
          let r := s.modCore c fun k => { k with stopped := false, resetAt := s.dev.now }
          if failed.contains c then fenceCore r c else passScan r c s.dev.now) s
      freeCores (s1.modDev fun d => { d with partBusy := d.partBusy.filter (· != die) }) cores)

/-- A copy engine's reset (R251, R478): its commands are abandoned, and each issuing warp takes ADDRESS with SUBCODE 5. -/
def resetCopyEngine (s : State) (core : Nat) : State :=
  let cs := (s.core core).copies
  let s1 := cs.foldl (fun s c => copyPacket s core 2 c) s
  let s2 := s1.modCore core fun c => { c with copies := [], engReset := some s.dev.now }
  ((cs.map CopyCmd.wid).eraseDups).foldl (fun s w =>
    asyncFault s w .address 5 0 (((cs.find? fun c => c.wid == w).map CopyCmd.seq).getD 0)) s2

/-- A matrix engine's reset (R478): the owner's gang is killed, and the engine's state cleared. -/
def resetMatrixEngine (s : State) (lead : Nat) : State :=
  let s1 := match (s.pair lead).owner with | some bn => killAfterDump s bn | none => s
  s1.modPair lead fun p => { p with mq := [], eq := [], engReset := some s.dev.now }

/-- An engine reset with its record (R473, R478). -/
def resetEngine (s : State) (matrix : Bool) (core : Nat) : State :=
  if matrix then
    let lead := leaderOf core
    match (s.pair lead).owner.bind s.block with
    | some b => resetMatrixEngine (errRecord s 0x0F 5 lead b.ctx 0 b.gid (b.idx % 2 ^ 32)) lead
    | none => resetMatrixEngine (errRecord s 0x0F 5 lead 0xFF 0 0xFFFFFFFF 0xFFFFFFFF) lead
  else resetCopyEngine (errRecord s 0x0E 5 core (((s.core core).ctx).getD 0xFF) 0 0xFFFFFFFF 0xFFFFFFFF) core

/-- ENGINE_STATE_ERROR (R473, R478). -/
def execEngineStateError (matrix : Bool) (core : Nat) (s : State) : Host.Outcome State Fault Refusal :=
  .next (resetEngine s matrix core)

/-- Start times of an engine's commands under way. -/
def runningSince (s : State) (matrix : Bool) (core : Nat) : List Nat :=
  if matrix then ((s.pair (leaderOf core)).mq ++ (s.pair (leaderOf core)).eq).filterMap MatCmd.started
  else (s.core core).copies.filterMap CopyCmd.started

/-- ENGINE_TIMEOUT (R478): a command has not completed within 2^24 non-stalled cycles of its start. -/
def execEngineTimeout (matrix : Bool) (core : Nat) (s : State) : Host.Outcome State Fault Refusal :=
  .next (if (runningSince s matrix core).any (fun t => decide (t + 2 ^ 24 ≤ s.nonStalled (if matrix then leaderOf core else core))) then
      resetEngine s matrix core
    else s)

/-- ENGINE_RESET_COMPLETE (R478): the engine is in service again, within 10 µs. -/
def execEngineResetComplete (matrix : Bool) (core : Nat) (s : State) : Host.Outcome State Fault Refusal :=
  .next (if matrix then s.modPair (leaderOf core) fun p => { p with engReset := none }
    else s.modCore core fun c => { c with engReset := none })

/-- The class of a link's errors (R473): ports 0 to 17 are scale-up ports, the 8 numbers from 18 on UCIe modules. -/
def linkClass (link : Nat) : Nat := if link < 18 then 0x11 else 0x10

/-- A record about a link (R473). -/
def linkRecord (s : State) (link action : Nat) : State :=
  errRecord s (linkClass link) action link 0xFF 0 0xFFFFFFFF 0xFFFFFFFF

/-- A link reset begins (R479). -/
def resetLink (s : State) (link : Nat) : State :=
  linkRecord (s.modLink link fun l => { l with fails := 0, retrain := some s.dev.now }) link 8

/-- FLIT_CHECK_FAILURE (R479): the flit is resent; eight consecutive failed retries reset the link. The count goes on where the flit
was a retry itself; a flit sent for the first time comes after a retry that succeeded. -/
def execFlitCheckFailure (link : LinkFlit) (s : State) : Host.Outcome State Fault Refusal :=
  .next (let fails := if link.retry then (s.link link.link).fails + 1 else 0
    let link := link.link
    if 26 ≤ link || (s.link link).down || (s.link link).retrain.isSome then s
    else if 8 ≤ fails then resetLink s link
    else linkRecord (s.modLink link fun l => { l with fails := fails }) link 7)

/-- LANE_FAILURE (R479): the link is reset and retrains at half width, which sets DEGRADED. -/
def execLaneFailure (link : Nat) (s : State) : Host.Outcome State Fault Refusal :=
  .next (if 26 ≤ link || (s.link link).down then s
    else resetLink ((s.modLink link fun l => { l with half := true }).modDev fun d => { d with degraded := true }) link)

/-- LINK_RETRAIN_COMPLETE (R479). -/
def execLinkRetrainComplete (link : Nat) (s : State) : Host.Outcome State Fault Refusal :=
  .next (if (s.link link).retrain.isSome ∧ !(s.link link).down then
      s.modLink link fun l => { l with retrain := none, fails := 0 }
    else s)

/-- Outstanding loads over a link end with poisoned data (R260). Whether a load of HOST memory crosses its module or finds its line in
L2 is a free choice, for all its lanes. -/
def poisonLoads (s : State) (link : Nat) : State :=
  let crossed := fun (wid : Nat) (p : Pend) => decide (link < 18) || Config.freeNat s.free (64 * wid + p.flag.getD 63) % 2 == 1
  let poison := fun (wid : Nat) (p : Pend) =>
    match p.kind with
    | .peer ps =>
      if crossed wid p then
        { p with vw := p.vw.map fun x => if ps.contains (x.2.1, link) then (x.1, x.2.1, ⟨x.2.2.val, true⟩) else x
                 sw := if ps.any fun x => x.2 == link then p.sw.map fun x => (x.1, ⟨x.2.val, true⟩) else p.sw }
      else p
    | _ => p
  (State.takeFree { s with warps := s.warps.map fun e => (e.1, { e.2 with pend := e.2.pend.map (poison e.1) }) })

/-- LINK_DOWN_TIMEOUT (R479): a link that has not recovered within 10 ms is down. A UCIe module lost sets DEGRADED (R481). -/
def execLinkDownTimeout (link : Nat) (s : State) : Host.Outcome State Fault Refusal :=
  .next (match (s.link link).retrain with
    | none => s
    | some t =>
      if (s.link link).down || decide (s.dev.now < t + 10 * msTicks) then s
      else
        let s1 := linkRecord (poisonLoads (s.modLink link fun l => { l with down := true, retrain := none }) link) link 9
        if link < 18 then s1 else s1.modDev fun d => { d with degraded := true })

end Sys2Proof.Machine
end

