-- ==== Sys2Proof/Machine/Control.lean ====
section
/-! DEFINITION. Class 0x0, control (R172 to R184). -/

namespace Sys2Proof.Machine

/-- The place after a word: the next word of the clause, or the header that follows it. -/
def nextPlace (w : Warp) : DWord × Nat :=
  match w.clause with
  | some cl => (w.run.pc + 8, if w.run.widx < cl.hdr.len.val then w.run.widx + 1 else 0)
  | none => (w.run.pc + 8, w.run.widx + 1)

/-- The lanes of a mask that go on at the next word. -/
def stayGroup (w : Warp) (m : Word) : Group := ⟨(nextPlace w).1, (nextPlace w).2, m⟩

/-- `nop` (R173). -/
def execNop (o : Opnds) (s : State) : Host.Outcome State Fault Refusal :=
  issue (.nop o) s fun it s => commit it s id

/-- Give the issue port up and count as issued most recently (R140, R173). -/
def Warp.yieldPort (w : Warp) (now : Nat) : Warp := { w with sched := { w.sched with port := none, lastIssue := now } }

/-- `yield` (R173). -/
def execYield (o : Opnds) (s : State) : Host.Outcome State Fault Refusal :=
  issue (.yield o) s fun it s =>
    let s1 := commit it s id
    if it.act = 0 then s1 else s1.modWarp it.wid fun w => w.yieldPort s.dev.now

/-- The target of `bra` and `call` (R43, R174): a PC has 56 bits (R157). -/
def relTarget (pc : DWord) (off : BitVec 24) : DWord := (pc + 8 * off.signExtend 64) &&& 0x00FFFFFFFFFFFFFF

/-- The lanes of a conditional branch that take it, the lanes that do not, and the packet (R174, R421). `s0` is the state the word
found, in which FRONTIER_REFILL is taken (R162). -/
def condBranch (it : Iss) (s0 s : State) (t : DWord) (taken : Word) (cond : Bool) : State :=
  let m := it.w.run.mask
  let rest := m &&& ~~~taken
  let packet := fun (s : State) =>
    if taken != 0 && rest != 0 && (nextPlace it.w).1 != t then divPacket s it.wid taken
    else if cond then brBit s it.wid (taken != 0) else s
  orRefill it s0 (branchTo s it.wid [stayGroup it.w rest, ⟨t, 0, taken⟩] packet)

/-- `bra` (R163, R174): with UNI, lanes that disagree raise UNIFORM_DIVERGED, or follow the lowest lane. -/
def execBra (o : Opnds) (off : BitVec 24) (uni : Bool) (s : State) : Host.Outcome State Fault Refusal :=
  issue (.bra o off uni) s fun it s =>
    let t := relTarget it.w.run.pc off
    let m := it.w.run.mask
    let cond := uni || it.o.guard.idx != 7
    if uni && it.act != 0 && it.act != m then
      if wfld (s.cfg it.ctx).issueCfg 8 1 = 0 then raise it s .uniformDiverged 0 m 0
      else
        let low := match lanesOf m with | l :: _ => it.act.getLsbD l | [] => false
        condBranch it s (count s it.core evUniDisagree) t (if low then m else 0) cond
    else condBranch it s s t it.act cond

/-- A per-lane target of `bri`, `calli` and `ret` (R175). -/
def Iss.target (it : Iss) (l : Nat) : PV := it.src .b64 it.o.a l

/-- One group of an indirect branch per target, for the packets (R421). -/
def targetPackets (it : Iss) (s : State) (gs : List Group) : State :=
  gs.foldl (fun s g => userPacket s it.wid 0xFF [g.mask.toNat, g.pc.toNat % 2 ^ 32, g.pc.toNat / 2 ^ 32]) s

/-- The checks of R175 and R471 on the active lanes' targets, then `k` on the targets' groups. -/
def indirect (it : Iss) (s : State) (k : List Group → State) : State :=
  match it.firstLane fun l => (it.target l).pois with
  | some _ => raise it s .poison 0 (it.maskWhere fun l => (it.target l).pois) 0
  | none =>
    match it.firstLane fun l => decide (2 ^ 56 ≤ (it.target l).v) with
    | some l => raise it s .address 0 (it.maskWhere fun l => decide (2 ^ 56 ≤ (it.target l).v)) (it.target l).v
    | none =>
      match it.firstLane fun l => (it.target l).v % 8 != 0 with
      | some l => raise it s .misaligned 0 (it.maskWhere fun l => (it.target l).v % 8 != 0) (it.target l).v
      | none => k (it.lanes.map fun l => ⟨BitVec.ofNat 64 (it.target l).v, 0, maskOf (· == l)⟩)

/-- Go to the groups of an indirect branch (R158, R175); `s0` as in `condBranch`. -/
def goIndirect (it : Iss) (s0 s : State) (gs : List Group) : State :=
  let s1 := s.modWarp it.wid fun w => w.releases it.instr w.run.mask
  let rest := it.w.run.mask &&& ~~~it.act
  orRefill it s0 (branchTo s1 it.wid (stayGroup it.w rest :: gs) fun s => targetPackets it s (groupsOf gs))

/-- `bri` (R175). -/
def execBri (o : Opnds) (s : State) : Host.Outcome State Fault Refusal :=
  issue (.bri o) s fun it s => indirect it s (goIndirect it s s)

/-- `ret` (R175). -/
def execRet (o : Opnds) (s : State) : Host.Outcome State Fault Refusal :=
  issue (.ret o) s fun it s => indirect it s (goIndirect it s s)

/-- The link that `call` and `calli` write with at least one active lane (R176). -/
def linked (it : Iss) (s : State) : State :=
  if it.act = 0 then s else s.modWarp it.wid fun w => w.sput64 94 ⟨(it.w.run.pc + 8).toNat, false⟩

/-- `call` (R176). -/
def execCall (o : Opnds) (off : BitVec 24) (s : State) : Host.Outcome State Fault Refusal :=
  issue (.call o off) s fun it s =>
    condBranch it s (linked it s) (relTarget it.w.run.pc off) it.act (it.o.guard.idx != 7)

/-- `calli` (R176). -/
def execCalli (o : Opnds) (s : State) : Host.Outcome State Fault Refusal :=
  issue (.calli o) s fun it s => indirect it s fun gs => goIndirect it s (linked it s) gs

/-- A warp whose last lane has left: it counts as exited at its block's barriers (R164, R351, R352). -/
def warpGone (s : State) (wid : Nat) : State :=
  match s.warp wid with
  | none => s
  | some w =>
    if w.alive ≠ 0 then s
    else
      let bn := blkOf wid
      let s1 := s.modWarp wid fun w =>
        { w with clause := none, wait := none, sched := { w.sched with port := none, engine := .herd, sprintReq := false } }
      let s2 := s1.modBlock bn fun b => { b with exited := nins (warpNo wid) b.exited }
      match s.block bn with
      | some b => settleGbar (settleBarriers s2 bn) b.ctx b.gid
      | none => s2

/-- A handler that no lane is left in ends (R390): the set-aside lanes go on after the trapping word, or the next entry. -/
def handlerEmptied (s : State) (wid : Nat) : Except Nat State :=
  match s.warp wid with
  | none => .ok s
  | some w =>
    match w.handler with
    | none => .ok s
    | some h =>
      if w.run.mask ≠ 0 ∨ !w.waiting.isEmpty then .ok s
      else
        let w1 := w.unhandle h 0 (s.nonStalled w.core)
        let s1 := releaseHandling (s.setWarp wid w1) wid
        if h.aside ≠ 0 then .ok (if h.trap.cause = .service ∨ tableCauseOf h then advance s1 wid else s1)
        else leaveLanes s1 wid 0
where
  /-- Whether the trapping word itself has been completed by the set-aside lanes. -/
  tableCauseOf (h : Handler) : Bool := (h.trap.cause == .firstTouch || h.trap.cause == .address) && !h.copy

/-- `exit` (R164, R178). -/
def execExit (o : Opnds) (s : State) : Host.Outcome State Fault Refusal :=
  issue (.exit o) s fun it s =>
    if it.act = 0 then commit it s id
    else
      let s1 := exitlPacket s it.wid it.act
      let s2 := if it.w.run.mask &&& ~~~it.act = 0 then s1 else advance s1 it.wid
      match leaveLanes s2 it.wid it.act with
      | .error a => takeTrap s it.wid ⟨.frontierRefill, 0, 0, it.w.run.mask, a, 0, true⟩
      | .ok s3 =>
        match handlerEmptied s3 it.wid with
        | .error a => takeTrap s it.wid ⟨.frontierRefill, 0, 0, it.w.run.mask, a, 0, true⟩
        | .ok s4 => warpGone s4 it.wid

/-- `nap` (R179): the count of non-stalled cycles, at most 2^20. -/
def execNap (o : Opnds) (s : State) : Host.Outcome State Fault Refusal :=
  issue (.nap o) s fun it s =>
    let a := it.src .n32 it.o.a 0
    let n := min a.v (2 ^ 20)
    if it.act = 0 then commit it s id
    else if a.pois then raise it s .poison 0 it.act 0
    else if n = 0 ∨ napOver s it.wid it.w then (commit it s id).modWarp it.wid fun w => w.yieldPort s.dev.now
    else parkWait s it.wid (.nap (s.nonStalled it.core + n))

/-- Whether every flag of a mask is clear (R37, R180). -/
def flagsClear (w : Warp) (mask : BitVec 12) : Bool := (List.range 12).all fun i => !mask.getLsbD i || w.flag i == 0

/-- A warp waits for flags (R180): it gives its port up; a promoted one stays promoted. -/
def parkFlags (s : State) (wid : Nat) (mask : BitVec 12) : State :=
  s.modWarp wid fun w => { w with wait := some (.fwait mask), sched := { w.sched with port := none } }

/-- `fwait` (R180). -/
def execFwait (o : Opnds) (mask : BitVec 12) (s : State) : Host.Outcome State Fault Refusal :=
  issue (.fwait o mask) s fun it s =>
    if it.act = 0 || flagsClear it.w mask then commit it s id else parkFlags s it.wid mask

/-- The values of `%fmt` that raise FORMAT (R68, R181). -/
def badFmt (v : Nat) : Bool := v / 2 ^ 16 != 0 || v / 2 ^ 12 % 4 == 3

/-- `setfmt` (R181). -/
def execSetfmt (o : Opnds) (form : SetFmtForm) (s : State) : Host.Outcome State Fault Refusal :=
  issue (.setfmt o form) s fun it s =>
    let a := it.src .b32 it.o.a 0
    if it.act = 0 then commit it s id
    else if form = .clear then commit it s fun w => { w with fstat := 0 }
    else if a.pois then raise it s .poison 0 it.act 0
    else if badFmt a.v then raise it s .format 0 it.act 0
    else commit it s fun w =>
      { w with run := { w.run with fmt := BitVec.ofNat 32 a.v }, fstat := if form = .writeClear then 0 else w.fstat }

/-- `getfmt` (R182). -/
def execGetfmt (o : Opnds) (s : State) : Host.Outcome State Fault Refusal :=
  issue (.getfmt o) s fun it s => commit it s fun w => w.dput .b32 it.o.d it.act fun _ => ⟨it.w.run.fmt.toNat, false⟩

/-- A trap that carries a code (R183). -/
def codeTrap (it : Iss) (s : State) (c : Cause) (code : BitVec 8) : State :=
  if it.act = 0 then commit it s id else takeTrap s it.wid ⟨c, 0, code.toNat, it.act, 0, 0, false⟩

/-- `brk` (R183). -/
def execBrk (o : Opnds) (code : BitVec 8) (s : State) : Host.Outcome State Fault Refusal :=
  issue (.brk o code) s fun it s => codeTrap it s .brk code

/-- `trap` (R183). -/
def execTrap (o : Opnds) (code : BitVec 8) (s : State) : Host.Outcome State Fault Refusal :=
  issue (.trap o code) s fun it s => codeTrap it s .userTrap code

/-- `sprint` (R184). -/
def execSprint (o : Opnds) (clr : Bool) (s : State) : Host.Outcome State Fault Refusal :=
  issue (.sprint o clr) s fun it s =>
    commit it s fun w => if it.act = 0 then w else { w with sched := { w.sched with sprintReq := !clr } }

end Sys2Proof.Machine
end

