-- ==== Sys2Proof/Machine/Register.lean ====
section
/-! DEFINITION. LAUNCH_ENTRY: reading a descriptor and its image (R9 to R16, R85), the checks of a launch (R15, R68, R85, R86,
R88, R101, R123, R125, R415), registration (R84, R91, R93, R99, R102, R120). -/

namespace Sys2Proof.Machine

/-- A descriptor's fields (R85). -/
def descOf (bs : List Byte) : Desc :=
  { image := BitVec.ofNat 64 (fieldOf bs 0 8), paramAddr := BitVec.ofNat 64 (fieldOf bs 8 8),
    completion := BitVec.ofNat 64 (fieldOf bs 0x10 8), gx := fieldOf bs 0x18 4, gy := fieldOf bs 0x1C 2, gz := fieldOf bs 0x1E 2,
    counts := (List.range 4).map fun i => fieldOf bs (0x20 + i) 1, regs := (List.range 4).map fun i => fieldOf bs (0x24 + i) 1,
    scratch := fieldOf bs 0x28 4, accGran := fieldOf bs 0x2C 2, gang := fieldOf bs 0x2E 1, prio := fieldOf bs 0x2F 1,
    flags := BitVec.ofNat 32 (fieldOf bs 0x30 4), fmtInit := BitVec.ofNat 32 (fieldOf bs 0x34 4),
    trace := BitVec.ofNat 32 (fieldOf bs 0x38 4), shapeAddr := BitVec.ofNat 64 (fieldOf bs 0x40 8), floor := fieldOf bs 0x48 4,
    predict := fieldOf bs 0x4C 4, cap := fieldOf bs 0x50 4, key := fieldOf bs 0x54 2, margin := fieldOf bs 0x56 2 }

/-- A section of an image: its address and MEM_BYTES (R10, R11). Of two entries of one kind, which R10 forbids, the first counts:
DESIGN CHOICE (notes/assumptions/151). -/
def sectionOf (h kind : Nat) (table : List Byte) (n : Nat) : Option (Nat × Nat) :=
  ((List.range n).find? fun i => fieldOf table (32 * i) 1 == kind).map fun i =>
    ((h + fieldOf table (32 * i + 8) 8) % 2 ^ 64, fieldOf table (32 * i + 0x18) 8)

/-- The constants section of an image as it lies in memory (R13, R236): the offset, memory key and length of each page's part that
the context may read. -/
def constParts (s : State) (ctx va n : Nat) : List (Nat × Nat × Nat) :=
  (pieces va n).filterMap fun p =>
    match s.access ctx p.1 s.free ⟨false, false, none⟩ with
    | .ok t => some (p.1 - va, t.key, p.2)
    | .error _ => none

/-- What the parts of a constants section hold; a byte of a page that cannot be read is none of them (R236). -/
def constBytesOf (s : State) (ctx n : Nat) (parts : List (Nat × Nat × Nat)) : List Byte :=
  (List.range n).map fun i =>
    match parts.find? fun a => decide (a.1 ≤ i ∧ i < a.1 + a.2.2) with
    | some a => s.mem.byteUnder (s.keyId ctx) s.free (a.2.1 + (i - a.1))
    | none => 0

/-- The kernel record, header and sections that a descriptor's IMAGE names (R9 to R14): the kernel record with what the
Registrar keeps; none where R15's first check or a translation fails. DESIGN CHOICE (log 30): so is an image whose record, header or
section table translates and cannot be read, or whose table has no code, constants or Catalogue entry. -/
def readImage (s : State) (ctx : Nat) (d : Desc) : Option (List Byte × Image) :=
  if d.image.toNat % 64 ≠ 0 then none
  else match s.devRead ctx d.image.toNat 64 with
    | none => none
    | some k =>
      let h := (d.image - BitVec.ofNat 64 (fieldOf k 0 8)).toNat
      match s.devRead ctx h 64 with
      | none => none
      | some hd =>
        let n := fieldOf hd 6 2
        if fieldOf hd 0 4 ≠ 0x31494854 ∨ fieldOf hd 4 2 ≠ 1 then none
        else match s.devRead ctx ((h + fieldOf hd 0x18 8) % 2 ^ 64) (32 * n) with
          | none => none
          | some tb =>
            match sectionOf h 1 tb n, sectionOf h 2 tb n, sectionOf h 4 tb n with
            | some code, some con, some cat =>
              let parts := constParts s ctx con.1 (min 65536 con.2)
              some (k, { codeBase := BitVec.ofNat 64 code.1, constBase := BitVec.ofNat 64 con.1, constBytes := min 65536 con.2,
                         consts := constBytesOf s ctx (min 65536 con.2) parts, constAt := parts, constStored := [],
                         entries := (List.range 4).map fun r =>
                           let e := fieldOf k (8 + 4 * r) 4
                           if e = 0xFFFFFFFF then none else some (BitVec.ofNat 64 (code.1 + e)),
                         catBase := BitVec.ofNat 64 (cat.1 + 128 * fieldOf k 0x2C 4), catCount := fieldOf k 0x30 4,
                         codeFirst := fieldOf k 0x34 4, codeBytes := fieldOf k 0x38 4 })
            | _, _, _ => none

/-- Blocks of a grid's extents (R86). -/
def Desc.total (d : Desc) : Nat := d.gx * d.gy * d.gz

/-- Whether a candidate that holds no other work has room for `k` blocks (R125). -/
def emptyRoom (s : State) (ctx : Nat) (cs : List Nat) (n : Need) (k : Nat) : Bool :=
  decide (k * n.warps ≤ 128) && decide (k ≤ 64) && decide (k * n.cells ≤ 32768)
    && (cs.all fun c => decide (k * n.granules ≤ 16 * scratchBanks s ctx c))
    && (!n.matrix || decide (k ≤ 1 ∧ n.acc ≤ 256))

/-- The most blocks an empty candidate holds. -/
def emptyCap (s : State) (ctx : Nat) (cs : List Nat) (n : Need) : Nat :=
  ((List.range 65).filter fun k => emptyRoom s ctx cs n k).getLast?.getD 0

/-- The most gangs of `m` blocks that candidates of one cluster hold, each gang's members on different candidates (R136). -/
def gangCap (caps : List Nat) (m : Nat) : Nat :=
  ((List.range 1025).filter fun k => decide (m * k ≤ (caps.map (min k)).foldl (· + ·) 0)).getLast?.getD 0

/-- Whether empty clusters, by the capacities of their candidates, hold a number of blocks in gangs of `m` at once, the last one
maybe shorter (R86, R89): either a whole gang more would fit, or the short one fits beside the whole ones of some cluster. -/
def gangsFit (clusters : List (List Nat)) (m total : Nat) : Bool :=
  let whole := (clusters.map fun caps => gangCap caps m).sum
  let short := total % m
  decide (total / m < whole) || (total / m == whole && (short == 0 || clusters.any fun caps =>
    decide (m * gangCap caps m + short ≤ (caps.map (min (gangCap caps m + 1))).sum)))

/-- Code 0x0C (R88, R123, R131, R469): no core at all, a block or gang that never fits, a cooperative grid that cannot be
co-resident. -/
def neverFits (s : State) (ctx : Nat) (d : Desc) : Bool :=
  let n := d.need (s.cfg ctx)
  let cands := candidates s ctx n
  let m := max 1 d.gang
  let clusters := (clustersOf s ctx cands).map fun cl => cl.map fun cs => emptyCap s ctx cs n
  let first := min m d.total
  let coop := wfld d.flags 0 1 == 1
  !(clusters.any fun caps => decide (first ≤ caps.countP fun k => decide (0 < k))) || (n.matrix && decide (8 < m))
    || (coop && (if m = 1 then decide ((cands.map fun cs => emptyCap s ctx cs n).sum < d.total) else !gangsFit clusters m d.total))

/-- Code 0x0D (R101). -/
def badShape (s : State) (ctx : Nat) (d : Desc) : Bool :=
  let a := d.shapeAddr.toNat
  if d.provisional then
    d.gy != 1 || d.gz != 1 || a == 0 || a % 8 != 0 || !mapsAll s ctx a 8 || d.cap != d.gx || decide (d.cap < d.floor)
      || decide (d.predict < d.floor) || decide (d.cap < d.predict) || (!d.usesPred && (d.key != 0 || d.margin != 0))
  else d.usesPred || a != 0 || d.floor != 0 || d.predict != 0 || d.cap != 0 || d.key != 0 || d.margin != 0

/-- Roles with warps. -/
def Desc.roles (d : Desc) : List Nat := (List.range 4).filter fun r => d.counts[r]?.getD 0 != 0

/-- The checks of a launch by code, lowest first (R88): the lowest code that applies, or 0. -/
def failCode (s : State) (ctx : Nat) (bs : List Byte) (d : Desc) (img : Option (List Byte × Image)) : Nat :=
  match img with
  | none => 0x01
  | some (k, im) =>
    let fl := wfld d.flags
    let tests : List (Nat × Bool) := [
      (0x02, d.roles.any fun r => (im.entries[r]?.getD none).isNone),
      (0x03, d.roles.any fun r => let n := d.regs[r]?.getD 0
        n == 0 || decide (128 < n) || decide (n < fieldOf k (0x1C + r) 1)),
      (0x04, decide (d.scratch < fieldOf k 0x20 4) || decide (d.accGran < fieldOf k 0x24 2)),
      (0x05, d.gx == 0 || decide (2 ^ 31 ≤ d.gx) || d.gy == 0 || d.gz == 0),
      (0x06, (d.counts.any fun c => decide (128 < c)) || d.perCore == 0 || decide (128 < d.perCore)),
      (0x07, decide (2097152 * d.span < d.scratch)),
      (0x08, decide (256 < d.accGran) || (d.accGran != 0 && d.counts[1]?.getD 0 == 0)),
      (0x09, decide (4 < fl 8 4) || d.gang == 0 || decide (16 < d.gang * d.span) || (d.counts[1]?.getD 0 != 0 && fl 8 4 != 0)),
      (0x0A, badFmt d.fmtInit.toNat),
      (0x0B, fl 12 20 != 0 || fl 6 2 == 3 || (decide (7 < d.prio) && d.prio != 255) || (fl 0 1 == 1 && (fl 1 1 == 1 || fl 3 1 == 1))),
      (0x0C, neverFits s ctx d),
      (0x0D, badShape s ctx d),
      (0x0E, fieldOf bs 0x3C 4 != 0 || fieldOf bs 0x58 40 != 0),
      (0x0F, wfld d.trace 3 5 != 0 || wfld d.trace 13 19 != 0
        || (wfld d.trace 2 1 == 1 && (decide (wfld d.trace 8 5 < 8) || decide (20 < wfld d.trace 8 5)))),
      (0x10, d.paramAddr.toNat % 64 != 0)]
    ((tests.find? fun t => t.2).map Prod.fst).getD 0

/-- The parameter store (R85): each 64 B unit that cannot be read reads 0; a poisoned one is such a unit: DESIGN CHOICE
(notes/assumptions/152). -/
def paramStore (s : State) (ctx : Nat) (d : Desc) : Sparse Byte :=
  if d.paramAddr = 0 then []
  else (List.range 64).foldl (fun m i =>
    match s.devRead ctx (d.paramAddr.toNat + 64 * i) 64 with
    | none => m
    | some bs => (List.range 64).foldl (fun m j => sput 0 m (64 * i + j) (bs[j]?.getD 0)) m) []

/-- The prediction P (R102) of a provisional grid. -/
def predictP (s : State) (ctx : Nat) (d : Desc) : State × Nat :=
  if !d.usesPred then (s, d.predict)
  else
    let r := readPred s ctx (d.key % 1024)
    (r.1, match r.2.most d.key with
      | some m => min d.cap (max d.floor (m + d.margin))
      | none => d.predict)

/-- The number of bound, unresolved grids of a context (R100). -/
def boundCount (s : State) (ctx : Nat) : Nat := ((gridsOf s ctx).filter fun e => e.2.bound).length

/-- The base priority (R84). -/
def basePrioOf (s : State) (qprio : Nat) (d : Desc) (parent : Option Nat) : Nat :=
  let own := if d.prio = 255 then qprio else min qprio d.prio
  match parent.bind s.block with
  | some b => (match s.gridOf b with | some g => min g.basePrio own | none => own)
  | none => own

/-- The depth (R93). -/
def depthOf (s : State) (parent : Option Nat) : Nat :=
  match parent.bind s.block with
  | some b => (match s.gridOf b with | some g => g.depth + 1 | none => 1)
  | none => 1

/-- A grid as it is registered, before its shape is looked at. -/
def newGrid (s : State) (ctx qprio : Nat) (d : Desc) (im : Image) (parent : Option Nat) (origin : Nat × Nat) : Grid :=
  { desc := d, image := im, params := paramStore s ctx d, status := .pending, relaunches := 0, failcode := 0, run := 0,
    trimmed := 0, tail := 0, start := 0, fin := 0, basePrio := basePrioOf s qprio d parent, boost := 0, regTime := s.ptp, agedFrom := s.ptp,
    lastPlace := s.ptp, depth := depthOf s parent, parent := parent, origin := some origin, bound := false, resolved := true,
    te := d.gx, pred := d.gx, next := 0, last := d.total, joining := [], firstWave := true, joinWave := false, gbarPhase := 0,
    gbarArrived := [], gbarBroken := false, kills := [], used := [], markSuspect := false, pendingRes := none, limbo := [],
    wasKilled := false, relaunching := [], lostOn := [] }

/-- The shape of a provisional grid at registration (R99, R102): resolved by its word, or bound. -/
def shapeAtReg (s : State) (ctx gid : Nat) (d : Desc) : State :=
  if !d.provisional then s
  else
    let w := match s.devRead ctx d.shapeAddr.toNat 8 with | some bs => leNat bs | none => 0
    if fld w 63 1 = 1 then
      let t := fld w 0 32
      let te := d.limit t
      let s1 := if te = t then s else countR s ctx evShapeLimited
      let s2 := s1.modGrid ctx gid fun g => { g with te := te, pred := te, last := te }
      let s3 := provPacket s2 ctx gid regStream 1 te
      if d.usesPred && !shapeHost s ctx then updatePred s3 ctx d.key te else s3
    else
      let r := predictP s ctx d
      provPacket (r.1.modGrid ctx gid fun g => { g with bound := true, resolved := false, pred := r.2, last := r.2 })
        ctx gid regStream 0 r.2

/-- The block that pushed a LAUNCH entry by `launch`, while it lives (R93). -/
def pusherOf (s : State) (ctx q idx : Nat) : Option Nat × Bool :=
  match (s.queue ctx q).bind fun x => alook idx x.pushers with
  | some (b, _) => (if (s.block b).isSome then some b else none, true)
  | none => (none, false)

/-- The pending child of a `launch` becomes a registered grid, or nothing (R93). -/
def settleChild (s : State) (ctx q idx : Nat) (gid : Option Nat) : State :=
  let p := (pusherOf s ctx q idx).1
  let s1 := s.modQueue ctx q fun x => { x with pushers := adel idx x.pushers }
  match p with
  | none => s1
  | some b => s1.modBlock b fun x =>
      { x with children := x.children.filter (· != (q + 1, idx)) ++ (match gid with | some g => [(0, g)] | none => []) }

/-- A launch fails (R88): FAILED and the code, and the entry is done. -/
def failLaunch (s : State) (ctx q idx : Nat) (d : Desc) (im : Image) (code : Nat) : State :=
  let g := { newGrid s ctx 0 d im none (q, idx) with status := .failed, failcode := code, fin := timeForm s.ptp, params := [] }
  entryDone (settleChild (s.devPut ctx d.completion.toNat g.recordBytes) ctx q idx none) ctx q idx

/-- A lossless request that the context does not permit is counted (R415). -/
def countLossless (s : State) (ctx : Nat) (d : Desc) : State :=
  if wfld d.trace 1 1 = 1 ∧ wfld (s.cfg ctx).traceCfg 1 1 = 0 then countR s ctx evLosslessIgnored else s

/-- Whether the shape word of a grid to be registered is resolved (R99). -/
def wordResolved (s : State) (ctx : Nat) (d : Desc) : Bool :=
  match s.devRead ctx d.shapeAddr.toNat 8 with
  | some bs => fld (leNat bs) 63 1 == 1
  | none => false

/-- The identifier of the next grid of a context: 24 bits (R193), skipping those of live grids, DONE ones not yet vouched for among
them. The fuel is their number. -/
def freeGid (s : State) (ctx : Nat) : Nat → Nat → Nat
  | 0, i => i % 2 ^ 24
  | f + 1, i =>
    match s.grid ctx (i % 2 ^ 24) with
    | some g => if g.status.live then freeGid s ctx f (i + 1) else i % 2 ^ 24
    | none => i % 2 ^ 24

/-- A grid is registered (R84, R85, R91, R93, R99). A registration that had to wait ages from then on (R100). A child of a block that has been killed is killed at once (R94). -/
def registerGrid (s : State) (ctx q : Nat) (e : QEntry) (qprio : Nat) (d : Desc) (im : Image) : State :=
  match s.ctx ctx with
  | none => s
  | some c =>
    let gid := freeGid s ctx s.grids.length c.gidNext
    let p := pusherOf s ctx q e.idx
    let g := { newGrid s ctx qprio d im p.1 (q, e.idx) with agedFrom := e.heldAt.getD s.ptp }
    let s1 := { s with grids := aput (gridKey ctx gid) g s.grids }
    let s2 := settleChild (s1.modCtx ctx fun c => { c with gidNext := (gid + 1) % 2 ^ 24 }) ctx q e.idx (some gid)
    let s3 := modEntry s2 ctx q e.idx fun x => { x with acted := true, grid := some gid }
    let s4 := gridCheck (shapeAtReg (countLossless (writeRecord s3 ctx gid) ctx d) ctx gid d) ctx gid
    if p.2 && p.1.isNone then markKilled s4 ctx gid else s4

/-- What a launch reads is touched (R238): descriptor, kernel record, header, section table, constants, parameters, shape word. -/
def launchTouched (s : State) (ctx desc : Nat) (d : Desc) (img : Option (List Byte × Image)) : State :=
  let s1 := (s.devTouch ctx desc 128).devTouch ctx d.image.toNat 64
  let s2 := match img with
    | none => s1
    | some (k, im) =>
      let h := (d.image - BitVec.ofNat 64 (fieldOf k 0 8)).toNat
      let hd := (s.devRead ctx h 64).getD []
      ((s1.devTouch ctx h 64).devTouch ctx ((h + fieldOf hd 0x18 8) % 2 ^ 64) (32 * fieldOf hd 6 2)).devTouch ctx
        im.constBase.toNat im.constBytes
  let s3 := if d.paramAddr = 0 then s2 else s2.devTouch ctx d.paramAddr.toNat 4096
  if d.provisional then s3.devTouch ctx d.shapeAddr.toNat 8 else s3

/-- LAUNCH_ENTRY (R85, R88, R99): the descriptor is read and checked; the grid is registered, or the launch fails. A grid
that would exceed the context's bindings waits (R100). A descriptor that passed validation and can no longer be read stops the queue
with code 7: DESIGN CHOICE (notes/assumptions/29). -/
def execLaunchEntry (ctx q : Nat) (s : State) : Host.Outcome State Fault Refusal :=
  actOn s ctx q 1 fun x e =>
    match entryDesc s ctx e.bytes, s.qcb ctx q with
    | some bs, some (_, c) =>
      let d := descOf bs
      let img := readImage s ctx d
      match failCode s ctx bs d img, img with
      | 0, some (_, im) =>
        if d.provisional && decide (256 ≤ boundCount s ctx) && !wordResolved s ctx d then
          modEntry s ctx q e.idx fun x => { x with heldAt := some (x.heldAt.getD s.ptp) }
        else registerGrid (launchTouched s ctx (fieldOf e.bytes 40 8) d img) ctx q e c.prio d im
      | code, im =>
        failLaunch (launchTouched s ctx (fieldOf e.bytes 40 8) d img) ctx q e.idx d ((im.map Prod.snd).getD
          { codeBase := 0, constBase := 0, constBytes := 0, consts := [], constAt := [], constStored := [], entries := [], catBase := 0, catCount := 0,
            codeFirst := 0, codeBytes := 0 }) (if code = 0 then 1 else code)
    | _, _ => entryStuck s ctx q x e

end Sys2Proof.Machine
end

