-- ==== Sys2Proof/Machine/Docent.lean ====
section
/-! DEFINITION. The Docent (R152 to R155): classes of candidates, promotion and demotion. -/

namespace Sys2Proof.Machine

/-- Whether a barrier's phase count says that the phase of a token has completed (R351). -/
def phaseOver (phase token : Word) : Bool := decide (1 ≤ (phase - token).toNat ∧ (phase - token).toNat ≤ 2 ^ 31)

/-- A barrier of a warp's block at which at least three quarters of the block's warps wait, in a phase that has not completed,
without it (R153). -/
def barrierLaggard (s : State) (wid : Nat) : Bool :=
  match s.block (blkOf wid) with
  | none => false
  | some b => b.bars.any fun e =>
      let waiting := ((s.warpsOf (blkOf wid)).filter fun x => match x.2.wait with
        | some (.bar i tok) => i == e.1 && !phaseOver e.2.phase tok
        | _ => false).length
      decide (3 * b.nwarps ≤ 4 * waiting) && !e.2.arrived.contains (warpNo wid)

/-- Whether a grid has no unstarted block and no unresolved shape, and few warps on a core (R153). -/
def gridTail (s : State) (wid core : Nat) : Bool :=
  match s.block (blkOf wid), s.gridOfWarp wid with
  | some b, some g =>
    decide (g.last ≤ g.next) && g.joining.isEmpty && (g.resolved || !g.bound)
      && decide (((s.warpsOn core).filter fun e => match s.block (blkOf e.1) with
        | some x => x.ctx == b.ctx && x.gid == b.gid
        | none => false).length ≤ 4)
  | _, _ => false

/-- The highest class whose condition a warp meets, 5 for none (R153). -/
def docentClass (s : State) (wid core : Nat) (w : Warp) : Nat :=
  if !w.sched.lockCls.isEmpty then 1
  else if barrierLaggard s wid then 2
  else if gridTail s wid core then 3
  else if w.sched.sprintReq then 4
  else 5

/-- Whether the Docent may promote a warp (R152): its class apart. -/
def promotable (s : State) (wid : Nat) (w : Warp) : Bool :=
  (match s.gridOfWarp wid with | some g => wfld g.desc.flags 5 1 == 1 | none => false)
    && wfld (s.cfg (s.ctxNo wid)).issueCfg 0 1 == 1 && w.onHerd && w.wait.isNone && w.spilled.isEmpty && !w.halted
    && w.stop.isNone && w.handler.isNone && w.alive != 0

/-- A warp leaves the sprinter engine by the Docent's choice (R150, R155): fetch stops until the demotion is complete. -/
def demote (s : State) (wid core : Nat) : State :=
  count (s.modWarp wid fun w => { w with sched := { w.sched with engine := .demoting } }) core evDemote

/-- A warp moves to the sprinter engine (R149); a displacement made for it is over (R154). -/
def promote (s : State) (wid core : Nat) (cls : Nat) : State :=
  count ((s.modWarp wid fun w => { w with sched := { w.sched with engine := .sprinter (s.nonStalled core) cls } }).modCore core
    fun c => { c with promoting := if c.promoting = some wid then none else c.promoting, promotedAt := some s.dev.now }) core evPromote

/-- Whether a warp is promoted, and since when. -/
def sprintSince (w : Warp) : Option Nat := match w.sched.engine with | .sprinter t _ => some t | _ => none

/-- Sprinter slots of a core in use (R145). -/
def sprinters (s : State) (core : Nat) : List (Nat × Warp) := (s.warpsOn core).filter fun e => !e.2.onHerd

/-- Candidates of a core, with class, time and slot (R154). -/
def candidates154 (s : State) (core : Nat) : List (Nat × Nat × Nat × Nat) :=
  (s.warpsOn core).filterMap fun e =>
    let c := docentClass s e.1 core e.2
    if promotable s e.1 e.2 && decide (c < 5) then some (e.1, c, e.2.sched.candSince.getD 0, e.2.slot)
    else none

/-- Candidates as R154 ranks them: by class, then longest a candidate, then the lower slot. -/
def ranked (cs : List (Nat × Nat × Nat × Nat)) : List (Nat × Nat × Nat × Nat) :=
  sortBy (fun x y => decide (x.2.1 < y.2.1)
    || (x.2.1 == y.2.1 && (decide (x.2.2.1 < y.2.2.1) || (x.2.2.1 == y.2.2.1 && decide (x.2.2.2 ≤ y.2.2.2))))) cs

/-- Warps of a core become candidates, or cease to be (R154). -/
def noteCands (s : State) (core : Nat) : State :=
  (s.warpsOn core).foldl (fun s e =>
    let c := promotable s e.1 e.2 && decide (docentClass s e.1 core e.2 < 5)
    s.modWarp e.1 fun w => { w with sched := { w.sched with
      candSince := if c then some (w.sched.candSince.getD s.dev.now) else none } }) s

/-- Promoted warps whose class condition no longer holds are demoted once their stay is over (R155). -/
def demoteIdle (s : State) (core : Nat) : State :=
  (sprinters s core).foldl (fun s e =>
    match sprintSince e.2 with
    | some t => if docentClass s e.1 core e.2 = 5 ∧ t + 1000 ≤ s.nonStalled core then demote s e.1 core else s
    | none => s) s

/-- Whether a candidate's promotion may start now (R149): it holds no port, and none has started for 8 cycles. -/
def mayPromote (s : State) (core wid : Nat) : Bool :=
  (match s.warp wid with | some w => w.sched.port.isNone | none => false)
    && match (s.core core).promotedAt with | some t => decide (t + 8 ≤ s.dev.now) | none => true

/-- The candidates in line for the free sprinter slots (R154): one for which a warp has been displaced comes first. -/
def inLine (s : State) (core : Nat) : List (Nat × Nat × Nat × Nat) :=
  let cs := ranked (candidates154 s core)
  let first := cs.filter fun x => (s.core core).promoting == some x.1
  (first ++ cs.filter fun x => (s.core core).promoting != some x.1).take (4 - (sprinters s core).length)

/-- A free sprinter slot goes to the best candidate in line that may be promoted (R149, R154); one for which a warp was displaced is
forgotten where it is a candidate no more. -/
def fillSlot (s : State) (core : Nat) : State :=
  let s1 := match (s.core core).promoting with
    | some wid => if (candidates154 s core).any fun x => x.1 == wid then s else s.modCore core fun c => { c with promoting := none }
    | none => s
  match (inLine s1 core).find? fun x => mayPromote s1 core x.1 with
  | some x => promote s1 x.1 core x.2.1
  | none => s1

/-- The promoted warp of the lowest class below a class; of several, the one promoted longest: DESIGN CHOICE
(notes/assumptions/145). One that is being demoted already is none of them. -/
def lowestBelow (s : State) (core cls : Nat) : Option (Nat × Nat × Nat) :=
  (sprinters s core).foldl (fun (m : Option (Nat × Nat × Nat)) e =>
    let c := docentClass s e.1 core e.2
    match sprintSince e.2 with
    | none => m
    | some t =>
      if c ≤ cls then m
      else match m with
        | some y => if decide (y.2.1 < c) || (y.2.1 == c && decide (t < y.2.2)) then some (e.1, c, t) else m
        | none => some (e.1, c, t)) none

/-- The best candidate displaces the sprinter warp of the lowest class below its own, where that one has stayed for 1,000
cycles and no other displacement is in progress; it is promoted when the demotion ends (R154). -/
def displace (s : State) (core : Nat) : State :=
  if (s.core core).promoting.isSome then s
  else
    match ranked (candidates154 s core) with
    | [] => s
    | x :: _ =>
      match lowestBelow s core x.2.1 with
      | some y =>
        if y.2.2 + 1000 ≤ s.nonStalled core then demote (s.modCore core fun c => { c with promoting := some x.1 }) y.1 core
        else s
      | none => s

/-- The Docent evaluates a core, every 8 cycles (R154, R155). -/
def execDocentEvaluation (core : Nat) (s : State) : Host.Outcome State Fault Refusal :=
  .next (if s.clock core % 8 ≠ 0 then s
    else
      let s1 := demoteIdle (noteCands s core) core
      if (sprinters s1 core).length < 4 then fillSlot s1 core else displace s1 core)

/-- A demotion ends (R150): the warp is on the herd engine, and the candidate that displaced it is promoted (R154). -/
def execDemotionComplete (core slot : Nat) (s : State) : Host.Outcome State Fault Refusal :=
  .next (match s.warpAt core slot with
    | none => s
    | some wid =>
      match s.warp wid with
      | none => s
      | some w =>
        if w.sched.engine = .demoting then
          fillSlot (s.setWarp wid { w with sched := { w.sched with engine := .herd } }) core
        else s)

/-- A warp that held a lock, retires `lkrel` and meets no class condition any more is demoted at once, whatever its stay (R155). -/
def lockLeft (s : State) (wid core : Nat) : State :=
  match s.warp wid with
  | none => s
  | some w =>
    match w.sched.engine with
    | .sprinter _ _ => if docentClass s wid core w = 5 then demote s wid core else s
    | _ => s

end Sys2Proof.Machine
end

