-- ==== Sys2Proof/Machine/Sync.lean ====
section
/-! DEFINITION. Class 0xB: fences, barriers, barrier words, rings, locks and waits on words (R343, R344, R349 to R359), and
how each wait is re-evaluated. -/

namespace Sys2Proof.Machine

/-- What re-evaluating a wait comes to: it goes on, it completes with a value for D, or it traps (R343). -/
inductive Eval where
  | wait (s : State)
  | done (s : State) (d : Opd) (v : Nat)
  | trap (c : Cause) (sub addr : Nat)

/-- Park on a memory word: an entry of the wait table, or the context's overflow list (R343). -/
def parkWord (s : State) (wid : Nat) (x : Wait) : State :=
  let s1 := parkWait s wid x
  if 4096 ≤ tableUsed s then s1.modCtx (s.ctxNo wid) fun c => { c with overflow := c.overflow ++ [wid] } else s1

/-- The scope at which the end of a wait is an acquire (R325). -/
def Wait.acquires : Wait → Option Scope
  | .cpwait _ | .bar _ _ => some .blk
  | .gbar _ | .lkacq .. => some .dev
  | .await _ _ _ _ _ sc | .waitv _ _ _ _ _ _ sc => some sc
  | .ringw ring _ _ => some (ringScope ring)
  | .gwait .. => some .sys
  | _ => none

/-- The acquire that the end of a wait is, if it is one (R241, R325). -/
def waitAcquires (s : State) (wid : Nat) (x : Wait) : State :=
  match x.acquires with
  | some sc => acquireAt s wid sc
  | none => s

/-- An instruction that may wait, evaluated in a state: it completes, traps, or parks in the wait `x`. -/
def orWait (it : Iss) (s : State) (x : Wait) (park : State → Nat → Wait → State) (f : State → Eval) : State :=
  match f s with
  | .wait s1 => park s1 it.wid x
  | .done s1 d v => commit it (waitAcquires s1 it.wid x) fun w => w.dput .b32 d it.act fun _ => ⟨v, false⟩
  | .trap c sub addr => raise it s c sub it.act addr

/-- Access kinds of control words: MTYPE DEV alone, or DEV and HOST. -/
def devOnly (t : Tgt) : Bool := t.key / 2 ^ 48 == 0

/-- See `devOnly`. -/
def devHost (t : Tgt) : Bool := t.key / 2 ^ 48 != 1

/-- POISON of uniform operands with 32-bit and 64-bit types (R344), then `k`. -/
def opsClean (it : Iss) (s : State) (os : List (Ty × Opd)) (k : State) : State :=
  if os.any fun o => (it.src o.1 o.2 0).pois then raise it s .poison 0 it.act 0 else k

/-- The checks of R264 on a control word at a uniform pair, its memory type and its poison (R344), then `k` on the target
and the word, which the core has then observed (R326). -/
def ctrlWord (it : Iss) (s : State) (o : Opd) (n : Nat) (write ctl : Bool) (types : Tgt → Bool) (sub : Nat)
    (k : State → Tgt → Nat → State) : State :=
  let ea := fun _ => it.src .b64 o 0
  match chkGlobal it s ⟨write, false, some it.blk⟩ n ea 0 with
  | (_, a, .error f) => raise it s f.cause f.sub it.act a
  | (_, a, .ok t) =>
    if !types t then raise it s .address sub it.act a
    else
      let s := settle s it.wid t.key n
      let d := loadGlobal s it.blk t n
      if ctl && d.2 then raise it s .poison 0 it.act a
      else watchFirst it s false true write ea n (k (observeBy (s.used it.ctx a t).takeFree it.wid t.key n) t (leNat d.1))

/-- The release side of a fence (R329): where the path has buffered stores, its place in the buffer, so that those leave before any
later one; else its core's stores are left to the scope's agents at once. -/
def fenceRel (it : Iss) (s : State) (scope : Scope) : State :=
  if pathStores s it.wid fun _ => true then
    s.modWarp it.wid fun w =>
      w.bufferStore ⟨.mem 0, [], [], 0, it.wid, reachOf s it.wid scope, s.dev.now, it.w.run.mask⟩
  else releaseAt s it.wid scope

/-- `fence` (R329, R350): a release side orders the path's earlier stores before its later ones, an acquire side leaves its core
nothing older than memory; `.sc` is both, with every earlier store left to the scope's agents, and its place in the order S is its
step. -/
def execFence (o : Opnds) (kind : FenceKind) (scope : Scope) (s : State) : Host.Outcome State Fault Refusal :=
  issue (.fence o kind scope) s fun it s =>
    if it.act = 0 then commit it s id
    else
      let s1 := match kind with
        | .acq => s
        | .rel | .acqrel => fenceRel it s scope
        | .sc => releaseAt s it.wid scope
      commit it (if kind = .rel then s1 else acquireAt s1 it.wid scope) id

/-- A barrier of a block. -/
def barrierOf (s : State) (bn i : Nat) : Barrier :=
  match s.block bn with
  | some b => sget Barrier.fresh b.bars i
  | none => Barrier.fresh

/-- Change a barrier of a block. -/
def modBarrier (s : State) (bn i : Nat) (f : Barrier → Barrier) : State :=
  s.modBlock bn fun b => { b with bars := aput i (f (sget Barrier.fresh b.bars i)) b.bars }

/-- Whether a phase with a token has completed (R351). -/
def phaseDone (p token : Word) : Bool :=
  let d := (p - token).toNat
  decide (1 ≤ d ∧ d ≤ 2 ^ 31)

/-- Waiting for a block barrier's phase (R351). -/
def evalBar (s : State) (bn i : Nat) (token : Word) : Eval :=
  let br := barrierOf s bn i
  if phaseDone br.phase token then .done s .zero 0
  else if br.broken then .trap .barrierBroken 0 0
  else .wait s

/-- The checks of a barrier number and its operands (R344, R351), then `k` on the number. -/
def barNumber (it : Iss) (s : State) (k : Nat → State) : State :=
  opsClean it s [(.b32, it.o.a), (.b32, it.o.b)]
    (let i := (it.src .b32 it.o.a 0).v
    if 15 < i then raise it s .address 0 it.act 0
    else if (barrierOf s it.blk i).broken then raise it s .barrierBroken 0 it.act 0
    else k i)

/-- The expected count of an arrival (R351 step 1). -/
def barCount (it : Iss) (s : State) : Nat :=
  if it.o.b = .zero then (match s.block it.blk with | some b => b.nwarps | none => 0) else (it.src .b32 it.o.b 0).v

/-- An arrival (R351 steps 2 to 4), then `k` on the state and the value of P at the arrival. -/
def arrive (it : Iss) (s : State) (i : Nat) (k : State → Word → State) : State :=
  let n := barCount it s
  let br := barrierOf s it.blk i
  match s.block it.blk with
  | none => s
  | some b =>
    if n = 0 ∨ b.nwarps < n ∨ (!br.arrived.isEmpty ∧ br.expect ≠ some n) then
      raise it (modBarrier s it.blk i fun br => { br with broken := true }) .barrierBroken 0 it.act 0
    else
      k (modBarrier (releaseAt s it.wid .blk) it.blk i fun br =>
        ({ br with arrived := nins (warpNo it.wid) br.arrived, expect := some n } : Barrier).settle b.exited) br.phase

/-- `bar` (R351). -/
def execBar (o : Opnds) (s : State) : Host.Outcome State Fault Refusal :=
  issue (.bar o) s fun it s =>
    if it.act = 0 then commit it s id
    else barNumber it s fun i => arrive it s i fun s token =>
      orWait it s (.bar i token) parkWait fun s => evalBar s it.blk i token

/-- `bara` (R351). -/
def execBara (o : Opnds) (s : State) : Host.Outcome State Fault Refusal :=
  issue (.bara o) s fun it s =>
    if it.act = 0 then commit it s id
    else barNumber it s fun i => arrive it s i fun s token =>
      commit it s fun w => w.dput .b32 it.o.d it.act fun _ => ⟨token.toNat, false⟩

/-- `barw` (R351). -/
def execBarw (o : Opnds) (s : State) : Host.Outcome State Fault Refusal :=
  issue (.barw o) s fun it s =>
    if it.act = 0 then commit it s id
    else barNumber it s fun i =>
      let token := BitVec.ofNat 32 (it.src .b32 it.o.b 0).v
      orWait it s (.bar i token) parkWait fun s => evalBar s it.blk i token

/-- Waiting for the grid barrier's phase (R352). -/
def evalGbar (s : State) (wid phase : Nat) : Eval :=
  match s.gridOfWarp wid with
  | none => .wait s
  | some g =>
    if phase < g.gbarPhase then .done s .zero 0
    else if g.gbarBroken then .trap .barrierBroken 0 0
    else .wait s

/-- `gbar` (R352). -/
def execGbar (o : Opnds) (s : State) : Host.Outcome State Fault Refusal :=
  issue (.gbar o) s fun it s =>
    match s.block it.blk, s.gridOfWarp it.wid with
    | some b, some g =>
      if it.act = 0 then commit it s id
      else if wfld g.desc.flags 0 1 = 0 ∨ g.gbarBroken then raise it s .barrierBroken 0 it.act 0
      else
        let s1 := settleGbar ((releaseAt s it.wid .dev).modGrid b.ctx b.gid fun g =>
          { g with gbarArrived := nins it.wid g.gbarArrived }) b.ctx b.gid
        orWait it s1 (.gbar g.gbarPhase) parkWait fun s => evalGbar s it.wid g.gbarPhase
    | _, _ => commit it s id

/-- The word after an arrival of `n` on a barrier word; none where R353 traps. -/
def barrierArrive (x n : Nat) : Option Nat :=
  let expect := fld x 0 16
  let cnt := fld x 16 16
  let ph := fld x 32 1
  if fld x 33 31 ≠ 0 ∨ expect = 0 ∨ expect ≤ cnt ∨ n = 0 ∨ expect - cnt < n then none
  else if cnt + n = expect then some ((1 - ph) * 2 ^ 32 + expect)
  else some (ph * 2 ^ 32 + (cnt + n) * 2 ^ 16 + expect)

/-- The checks of a scratchpad control word (R235, R264, R344), then `k`. -/
def ctrlScr (it : Iss) (s : State) (write : Bool) (k : Option Nat × Nat → Nat → State) : State :=
  let ea := fun _ => it.src .b32 it.o.a 0
  match chkScratch it s 8 ea 0 with
  | (_, a, .error f) => raise it s f.cause f.sub it.act a
  | (_, a, .ok p) =>
    let s := settleScr s it.wid p 8
    if (scrRead s p 8).2 then raise it s .poison 0 it.act a
    else watchFirst it s true true write ea 8 (k p (scrNum s p 8))

/-- `arv` (R353): with SP on a scratchpad word, otherwise on a word of DEV memory. -/
def execArv (o : Opnds) (scope : Scope) (sp : Bool) (s : State) : Host.Outcome State Fault Refusal :=
  issue (.arv o scope sp) s fun it s =>
    let n := (it.src .b32 it.o.b 0).v
    let a := (it.src (if sp then .b32 else .b64) it.o.a 0).v
    let finish := fun (s : State) (x : Nat) =>
      commit it (wakeOverflow s it.ctx) fun w => w.dput .b32 it.o.d it.act fun _ => ⟨fld x 32 1, false⟩
    if it.act = 0 then commit it s id
    else opsClean it s [(if sp then .b32 else .b64, it.o.a), (.b32, it.o.b)]
      (if sp then ctrlScr it s true fun p x =>
        match barrierArrive x n with
        | none => raise it s .address 4 it.act a
        | some y => finish (scrWrite (releaseAt s it.wid scope) p (leBytes 8 y) false) x
      else ctrlWord it s it.o.a 8 true true devOnly 4 fun s t x =>
        match barrierArrive x n with
        | none => raise it s .address 4 it.act a
        | some y => orQuota it s [(t.key, 8)] (finish (storeGlobal (releaseAt s it.wid scope) it.wid t (leBytes 8 y) false) x))

/-- A target that names only a memory key. -/
def keyTgt (key va : Nat) : Tgt := ⟨key, ⟨0, 0, none, []⟩, va⟩

/-- Waiting for a phase of a barrier word (R353). -/
def evalAwait (s0 : State) (wid place : Nat) (scr : Bool) (owner : Option Nat) (ph : Bool) (va : DWord) : Eval :=
  let s := if scr then settleScr s0 wid (owner, place) 8 else settle s0 wid place 8
  let d := if scr then scrRead s (owner, place) 8 else loadGlobal s (blkOf wid) (keyTgt place 0) 8
  if d.2 then .trap .poison 0 va.toNat
  else if fld (leNat d.1) 32 1 == ph.toNat then .wait s
  else .done (if scr then s else observeBy s wid place 8) .zero 0

/-- `await` (R353). -/
def execAwait (o : Opnds) (scope : Scope) (sp : Bool) (s : State) : Host.Outcome State Fault Refusal :=
  issue (.await o scope sp) s fun it s =>
    let ph := (it.src .b32 it.o.b 0).v % 2 == 1
    let va := BitVec.ofNat 64 (it.src (if sp then .b32 else .b64) it.o.a 0).v
    let go := fun (s : State) (place : Nat) (owner : Option Nat) =>
      orWait it s (.await place sp owner ph va scope) parkWord fun s => evalAwait s it.wid place sp owner ph va
    if it.act = 0 then commit it s id
    else opsClean it s [(if sp then .b32 else .b64, it.o.a), (.b32, it.o.b)]
      (if sp then ctrlScr it s false fun p _ => go s p.2 p.1
      else ctrlWord it s it.o.a 8 false true devOnly 4 fun s t _ => go s t.key none)

/-- What the checks of R354 find of a ring: the trap, or the ring. -/
def ringCheck (s : State) (bn a slot : Nat) : Except (Cause × Nat) Ring :=
  if a % 64 ≠ 0 then .error (.address, 4)
  else match ringAt s bn a slot with
    | none => .error (.address, 0)
    | some r => if r.pois then .error (.poison, 0) else if r.bad slot then .error (.address, 4) else .ok r

/-- The path's own stores to the ring at A's address have landed (R252, R326). -/
def settleRing (it : Iss) (s : State) : State :=
  match scrAddr s it.blk (it.src .b32 it.o.a 0).v 320 with
  | some p => settleScr s it.wid p 320
  | none => s

/-- A watchpoint on the header of the ring that A names, or on a slot's phase word, matches (R252, R428); otherwise go on. -/
def watchRing (it : Iss) (s : State) (slot : Nat) (write : Bool) (k : State) : State :=
  let at_ := fun (o l : Nat) => addPV 32 (it.src .b32 it.o.a l) ⟨0, false⟩ o
  watchFirst it s true true false (at_ 0) 64 (watchFirst it s true true write (at_ (0x40 + 4 * slot)) 4 k)

/-- `ringa` (R354). -/
def execRinga (o : Opnds) (slot : Fin 64) (s : State) : Host.Outcome State Fault Refusal :=
  issue (.ringa o slot) s fun it s =>
    let a := (it.src .b32 it.o.a 0).v
    if it.act = 0 then commit it s id
    else opsClean it s [(.b32, it.o.a)]
      (let s := settleRing it s
      match ringCheck s it.blk a slot.val with
      | .error (c, sub) => raise it s c sub it.act a
      | .ok r => watchRing it s slot.val true
          (commit it (ringArrive (releaseAt s it.wid (ringScope (BitVec.ofNat 32 a))) r slot.val) id))

/-- Waiting for a phase of a ring's slot (R354). -/
def evalRing (s : State) (bn : Nat) (a : Word) (slot : Nat) (phase : Bool) : Eval :=
  match ringCheck s bn a.toNat slot with
  | .error (c, sub) => .trap c sub a.toNat
  | .ok r => if r.phase % 2 == phase.toNat then .done s .zero 0 else .wait s

/-- `ringw` (R354). -/
def execRingw (o : Opnds) (slot : Fin 64) (s : State) : Host.Outcome State Fault Refusal :=
  issue (.ringw o slot) s fun it s =>
    let a := BitVec.ofNat 32 (it.src .b32 it.o.a 0).v
    let ph := (it.src .b32 it.o.b 0).v % 2 == 1
    if it.act = 0 then commit it s id
    else opsClean it s [(.b32, it.o.a), (.b32, it.o.b)]
      (let s := settleRing it s
      match ringCheck s it.blk a.toNat slot.val with
      | .error (c, sub) => raise it s c sub it.act a.toNat
      | .ok _ => watchRing it s slot.val false
          (orWait it s (.ringw a slot.val ph) parkWait fun s => evalRing s it.blk a slot.val ph))

/-- Whether another live block's record holds a lock (R355). -/
def lockBusy (s : State) (bn key : Nat) : Bool := s.blocks.any fun e => e.1 != bn && e.2.locks.contains key

/-- Whether a block's record holds a lock. -/
def holdsLock (s : State) (bn key : Nat) : Bool :=
  match s.block bn with
  | some b => b.locks.contains key
  | none => false

/-- Acquire a free lock for a warp's block (R356): the status, 2 where the word shows a holder that left. -/
def takeLock (s : State) (wid key x : Nat) : State × Nat :=
  let bn := blkOf wid
  match s.block bn with
  | none => (s, 0)
  | some b =>
    let others := (lockWaiters s key).any fun e => e.1 != wid
    let s1 := putWord8 s b.ctx key (lockWord b.ctx b.gid b.idx others)
    ((s1.setBlock bn { b with locks := nins key b.locks }).modWarp wid fun w =>
      { w with sched := { w.sched with lockCls := nins key w.sched.lockCls } }, if x % 4 = 0 then 0 else 2)

/-- A wait for a lock is retried (R356, R357): on a busy lock WAITERS is set again. -/
def evalLock (s0 : State) (wid key : Nat) (va : DWord) (d : Opd) : Eval :=
  let bn := blkOf wid
  let s := settle s0 wid key 8
  let w := loadGlobal s bn (keyTgt key 0) 8
  if w.2 then .trap .poison 0 va.toNat
  else match s.block bn with
    | none => .wait s
    | some b =>
      if b.locks.contains key || decide (16 ≤ b.locks.length) then .wait s
      else if lockBusy s bn key then .wait (if fld (leNat w.1) 2 1 = 1 then s else putWord8 s (s.ctxNo wid) key (leNat w.1 + 4))
      else
        let r := takeLock s wid key (leNat w.1)
        .done (observeBy r.1 wid key 8) d r.2

/-- `lkacq` (R355, R356). -/
def execLkacq (o : Opnds) (wait : Bool) (s : State) : Host.Outcome State Fault Refusal :=
  issue (.lkacq o wait) s fun it s =>
    let put := fun (v : Nat) (w : Warp) => w.dput .b32 it.o.d it.act fun _ => ⟨v, false⟩
    if it.act = 0 then commit it s id
    else opsClean it s [(.b64, it.o.a)]
      (ctrlWord it s it.o.a 8 true true devOnly 4 fun s t x =>
        match s.block it.blk with
        | none => s
        | some b =>
          if b.locks.contains t.key then commit it s (put 3)
          else if 16 ≤ b.locks.length then commit it s (put 4)
          else if lockBusy s it.blk t.key then
            if !wait then commit it s (put 1)
            else
              let s1 := if fld x 2 1 = 1 then s else putWord8 s it.ctx t.key (x + 4)
              { parkWord s1 it.wid (.lkacq t.key (BitVec.ofNat 64 (it.src .b64 it.o.a 0).v) it.o.d s.cmdNext) with
                cmdNext := s.cmdNext + 1 }
          else
            let r := takeLock s it.wid t.key x
            commit it (acquireAt r.1 it.wid .dev) (put r.2))

/-- `lkrel` (R357). -/
def execLkrel (o : Opnds) (s : State) : Host.Outcome State Fault Refusal :=
  issue (.lkrel o) s fun it s =>
    let put := fun (v : Nat) (w : Warp) => w.dput .b32 it.o.d it.act fun _ => ⟨v, false⟩
    if it.act = 0 then commit it s id
    else opsClean it s [(.b64, it.o.a)]
      (ctrlWord it s it.o.a 8 true true devOnly 4 fun s t _ =>
        if holdsLock s it.blk t.key then
          (if it.w.sched.lockCls.isEmpty then fun s _ _ => s else lockLeft)
            (commit it (wakeOverflow (releaseLock (releaseAt s it.wid .dev) it.blk t.key false) it.ctx) (put 0)) it.wid it.core
        else commit it (wakeOverflow s it.ctx) (put 1))

/-- Waiting on a word (R359): only a woken waiter reads again. -/
def evalWaitv (s0 : State) (wid key : Nat) (va : DWord) (expect : Word) (d : Opd) (woken : Bool) (since : Nat) (sc : Scope) :
    Eval :=
  if !woken then .wait s0
  else
    let s := settle s0 wid key 4
    let w := loadGlobal s (blkOf wid) (keyTgt key 0) 4
    if w.2 then .trap .poison 0 va.toNat
    else if leNat w.1 = expect.toNat then
      .wait (s.modWarp wid fun w => { w with wait := some (.waitv key va expect d false since sc) })
    else .done (observeBy s.takeFree wid key 4) d (leNat w.1)

/-- `waitv` (R359). -/
def execWaitv (o : Opnds) (scope : Scope) (s : State) : Host.Outcome State Fault Refusal :=
  issue (.waitv o scope) s fun it s =>
    let b := BitVec.ofNat 32 (it.src .b32 it.o.b 0).v
    if it.act = 0 then commit it s id
    else opsClean it s [(.b64, it.o.a), (.b32, it.o.b)]
      (ctrlWord it s it.o.a 4 false true devHost 0 fun s t x =>
        if x ≠ b.toNat then commit it (acquireAt s it.wid scope) fun w => w.dput .b32 it.o.d it.act fun _ => ⟨x, false⟩
        else { parkWord s it.wid (.waitv t.key (BitVec.ofNat 64 (it.src .b64 it.o.a 0).v) b it.o.d false s.cmdNext scope) with
               cmdNext := s.cmdNext + 1 })

/-- Resident warps parked on a word, with the number their wait began at (R359). -/
def waitvOn (s : State) (key : Nat) : List (Nat × Nat × Bool) :=
  s.warps.filterMap fun e =>
    match e.2.wait with
    | some (.waitv k _ _ _ false since _) => if k = key ∧ (wordWaiters s).contains e.1 then some (e.1, since, true) else none
    | _ => none

/-- Take the earliest `n` of some waiters; the fuel is their number. -/
def firstWaiters : Nat → Nat → List (Nat × Nat × Bool) → List Nat
  | 0, _, _ => []
  | _, 0, _ => []
  | f + 1, n + 1, ws =>
    match earliest ws with
    | none => []
    | some x => x.1 :: firstWaiters f n (ws.filter fun y => y.1 != x.1)

/-- `wake` (R359). -/
def execWake (o : Opnds) (scope : Scope) (s : State) : Host.Outcome State Fault Refusal :=
  issue (.wake o scope) s fun it s =>
    let x := (it.src .b32 it.o.b 0).v
    let c := (it.src .b32 it.o.c 0).v
    if it.act = 0 then commit it s id
    else opsClean it s [(.b64, it.o.a), (.b32, it.o.b), (.b32, it.o.c)]
      (ctrlWord it s it.o.a 4 true false devHost 0 fun s t _ =>
        let ws := waitvOn s t.key
        let ids := firstWaiters ws.length (if c = 0xFFFFFFFF then ws.length else c) ws
        let s1 := ids.foldl wakeFault (storeGlobal (releaseAt s it.wid scope) it.wid t (leBytes 4 x) false)
        commit it (wakeOverflow s1 it.ctx) fun w => w.dput .b32 it.o.d it.act fun _ => ⟨ids.length, false⟩)

end Sys2Proof.Machine
end

