-- ==== Sys2Proof/Machine/Launch.lean ====
section
/-! DEFINITION. Class 0xC: pushing, popping and launching (R360 to R364), waiting for grids (R365), resolving shapes (R366) and
querying the provisional machinery (R367). -/

namespace Sys2Proof.Machine

/-- Words of a range of uniform registers from an operand on. -/
def Iss.uniRange (it : Iss) (o : Opd) (n : Nat) : List PWord :=
  match o with
  | .s r => (List.range n).map fun i => it.w.sget (r.val + i)
  | _ => []

/-- The queue an operand names and its control block, where the instruction's QKINDs accept it (R361); unreadable control
blocks raise QUEUE too. -/
def queueOpd (it : Iss) (s : State) (o : Opd) (kinds : List Nat) : Option (Nat × Queue × Qcb) :=
  let q := (it.src .n32 o 0).v
  match if 63 < q then none else s.qcb it.ctx q with
  | some (x, c) => if kinds.contains c.kind then some (q, x, c) else none
  | none => none

/-- Push an entry (R362): the core writes back its regions (R82), then its slot, then TAIL; the slots of a proxy queue lie in FIFO
banks (R83). -/
def pushEntry (s0 : State) (ctx blk core q : Nat) (x : Queue) (c : Qcb) (bs : List Byte) : Option State :=
  let s := writeBack (s0.devTouch ctx x.qcb.toNat 128) core (entryMem s0 ctx (some blk) bs)
  let s1 := if c.kind = 3 then (proxyBanks s ctx core x c).map fun banks =>
        s.modQueue ctx q fun x => { x with slots := aput (c.slot c.tail) bs x.slots, banks := banks }
    else s.devWrite ctx (c.slotAddr c.tail) bs
  s1.bind fun s => s.devWrite ctx x.qcb.toNat (leBytes 8 (c.tail + 1))

/-- Whether a push finds a free slot: room in the queue and, in a proxy queue, banks for its slots (R83, R362). -/
def pushRoom (s : State) (ctx core : Nat) (x : Queue) (c : Qcb) : Bool :=
  c.room && (c.kind != 3 || (proxyBanks s ctx core x c).isSome)

/-- What `qpush` and `launch` share once an entry has passed its checks: a full queue waits or answers 2; `k` follows a
push. -/
def pushOrWait (it : Iss) (s : State) (wait : Bool) (t : Nat × Queue × Qcb) (bs : List Byte) (k : State → State) : State :=
  let put := fun (v : Nat) (w : Warp) => w.dput .b32 it.o.d it.act fun _ => ⟨v, false⟩
  if !pushRoom s it.ctx it.core t.2.1 t.2.2 then if wait then parkWait s it.wid .queue else commit it s (put 2)
  else match pushEntry s it.ctx it.blk it.core t.1 t.2.1 t.2.2 bs with
    | none => raise it s .queue 0 it.act 0
    | some s1 => commit it (k s1) (put 0)

/-- An entry that `qpush` refuses (R361). -/
def pushRefused (c : Qcb) (bs : List Byte) : Bool :=
  let k := fieldOf bs 0 1
  k == 1 || (c.kind != 3 && !kindTaken c.kind k) || decide (4 < fieldOf bs 2 2) || entryReserved bs

/-- `qpush` (R361, R362). -/
def execQpush (o : Opnds) (wait : Bool) (s : State) : Host.Outcome State Fault Refusal :=
  issue (.qpush o wait) s fun it s =>
    let ws := it.uniRange it.o.a 16
    let bs := ws.flatMap fun x => leBytes 4 x.val.toNat
    if it.act = 0 then commit it s id
    else if (ws.any PWord.pois) || (it.src .n32 it.o.b 0).pois then raise it s .poison 0 it.act 0
    else
      let s := pushReady s it.wid it.ctx (it.src .n32 it.o.b 0).v bs
      match queueOpd it s it.o.b [1, 2, 3] with
      | none => raise it s .queue 0 it.act 0
      | some t => if pushRefused t.2.2 bs then raise it s .queue 0 it.act 0 else pushOrWait it s wait t bs id

/-- The LAUNCH entry of a `launch` (R363). -/
def launchBytes (flags nreg : Nat) (regions : List PWord) (desc : Nat) : List Byte :=
  leBytes 1 1 ++ leBytes 1 flags ++ leBytes 2 nreg ++ leBytes 4 0
    ++ (List.range 8).flatMap (fun i => leBytes 4 ((regions[i]?).getD PWord.zero).val.toNat) ++ leBytes 8 desc ++ leBytes 16 0

/-- The pushed launch is a child its block waits for, in a queue of this device (R93, R94, R363). -/
def childPushed (s : State) (ctx q bn idx : Nat) (bs : List Byte) : State :=
  (s.modQueue ctx q fun x => { x with pushers := aput idx (bn, bs) x.pushers }).modBlock bn fun b =>
    { b with children := b.children ++ [(q + 1, idx)] }

/-- `launch` (R361, R363, R93). -/
def execLaunch (o : Opnds) (nreg : Fin 5) (wait barrier irq : Bool) (s : State) : Host.Outcome State Fault Refusal :=
  issue (.launch o nreg wait barrier irq) s fun it s =>
    let d := it.src .b64 it.o.a 0
    let rs := it.uniRange it.o.b (2 * nreg.val)
    let bs := launchBytes (barrier.toNat + 2 * irq.toNat) nreg.val rs d.v
    if it.act = 0 then commit it s id
    else if d.pois || (rs.any PWord.pois) || (it.src .n32 it.o.c 0).pois then raise it s .poison 0 it.act 0
    else
      let s := pushReady s it.wid it.ctx (it.src .n32 it.o.c 0).v bs
      match queueOpd it s it.o.c [1, 3] with
      | none => raise it s .queue 0 it.act 0
      | some t =>
        let depth := match s.gridOfWarp it.wid with | some g => g.depth | none => 1
        if 10 ≤ depth then commit it s fun w => w.dput .b32 it.o.d it.act fun _ => ⟨1, false⟩
        else pushOrWait it s wait t bs fun s =>
          if t.2.2.kind = 1 then childPushed s it.ctx t.1 it.blk t.2.2.tail bs else s

/-- Put words into uniform registers from an operand on. -/
def Warp.sputRange (w : Warp) (o : Opd) (ws : List PWord) : Warp :=
  match o with
  | .s r => (List.range ws.length).foldl (fun w i => w.sput (r.val + i) ((ws[i]?).getD PWord.zero)) w
  | _ => w

/-- What a pop does beside the registers (R81, R82, R364): HEAD advances, the popping core invalidates the entry's regions, and a
TASK with IRQ, which completes by being popped, raises the queue's interrupt. -/
def popped (s : State) (ctx blk core : Nat) (x : Queue) (c : Qcb) (bs : List Byte) : State :=
  let s1 := putQcb ((s.devTouch ctx x.qcb.toNat 128).devTouch ctx (c.slotAddr c.head) 64) ctx x 0x40 (leBytes 8 (c.head + 1))
  let s2 := invalidate s1 core (entryMem s1 ctx (some blk) bs)
  if fieldOf bs 1 1 / 2 % 2 = 1 then hostEvent s2 (.msi ctx c.msi) else s2

/-- `qpop` (R361, R364). A queue that is stopped, or stops at the entry, gives none (R79, R361). -/
def execQpop (o : Opnds) (wait : Bool) (s : State) : Host.Outcome State Fault Refusal :=
  issue (.qpop o wait) s fun it s =>
    if it.act = 0 then commit it s id
    else if (it.src .n32 it.o.b 0).pois then raise it s .poison 0 it.act 0
    else match queueOpd it s it.o.b [2] with
      | none => raise it s .queue 0 it.act 0
      | some (_, x, c) =>
        let code := workError s it.ctx c
        let stops := c.state = 0 && code != 0
        if c.state ≠ 0 ∨ stops ∨ c.tail ≤ c.head then
          let s1 := if stops then queueError s it.ctx x c (c.slot c.head) code else s
          if wait then parkWait s1 it.wid .queue else commit it s1 fun w => w.statusC it.o.c false
        else match s.devRead it.ctx (c.slotAddr c.head) 64 with
          | none => raise it s .queue 0 it.act 0
          | some bs => commit it (popped s it.ctx it.blk it.core x c bs) fun w =>
              (w.sputRange it.o.d (plainWords bs)).statusC it.o.c true

/-- STATUS that a `gwait` needs (R85, R365). -/
def gwaitMin (s : State) (ctx va : Nat) (vouch : Bool) : Nat := if vouch || vouchFirst s ctx va then 3 else 2

/-- Waiting for a completion record (R365). -/
def evalGwait (s : State) (wid key : Nat) (va : DWord) (vouch : Bool) (d : Opd) : Eval :=
  let s := settle s wid key 32
  let r := loadGlobal s (blkOf wid) (keyTgt key 0) 32
  if r.2 then .trap .poison 0 va.toNat
  else if fieldOf r.1 0 1 < gwaitMin s (s.ctxNo wid) va.toNat vouch then .wait s
  else .done s.takeFree d (fieldOf r.1 0 1)

/-- `gwait` (R365). -/
def execGwait (o : Opnds) (vouch : Bool) (s : State) : Host.Outcome State Fault Refusal :=
  issue (.gwait o vouch) s fun it s =>
    if it.act = 0 then commit it s id
    else opsClean it s [(.b64, it.o.a)]
      (ctrlWord it s it.o.a 32 false true (fun _ => true) 0 fun s t _ =>
        let va := BitVec.ofNat 64 (it.src .b64 it.o.a 0).v
        let s1 := { s with cmdNext := s.cmdNext + 1 }
        orWait it s1 (.gwait t.key va vouch it.o.d s.cmdNext) parkWait fun s => evalGwait s it.wid t.key va vouch it.o.d)

/-- `shape` (R98, R366). -/
def execShape (o : Opnds) (s : State) : Host.Outcome State Fault Refusal :=
  issue (.shape o) s fun it s =>
    if it.act = 0 then commit it s id
    else opsClean it s [(.b64, it.o.a), (.b32, it.o.b)]
      (ctrlWord it s it.o.a 8 true true (fun _ => true) 0 fun s t _ =>
        let r := resolveWord (releaseAt s it.wid .dev) it.ctx (it.src .b64 it.o.a 0).v t (it.src .b32 it.o.b 0).v
        commit it r.1 fun w => w.dput .b32 it.o.d it.act fun _ => ⟨r.2.toNat, false⟩)

/-- `provq` (R367). -/
def execProvq (o : Opnds) (mode : ProvqMode) (s : State) : Host.Outcome State Fault Refusal :=
  issue (.provq o mode) s fun it s =>
    let put := fun (s : State) (v : Nat) => commit it s fun w => w.dput .b32 it.o.d it.act fun _ => ⟨v, false⟩
    let key := (it.src .b32 it.o.a 0).v % 65536
    if it.act = 0 then commit it s id
    else opsClean it s [(.b32, it.o.a), (.b32, it.o.b)]
      (match mode with
      | .self =>
        let p := match s.block it.blk with | some b => b.isProv | none => false
        let r := match s.gridOfWarp it.wid with | some g => g.resolved | none => true
        put s (p.toNat + 2 * r.toNat)
      | .pred =>
        let r := readPred s it.ctx (key % 1024)
        put r.1 ((r.2.most key).getD 0)
      | .upd => put (updatePred s it.ctx key (it.src .b32 it.o.b 0).v) 0)

end Sys2Proof.Machine
end

