-- ==== Sys2Proof/Machine/System.lean ====
section
/-! DEFINITION. Class 0xD: the supervisor handler's instructions (R434 to R445) and the page pool (R391). -/

namespace Sys2Proof.Machine

/-- `svc` (R436). -/
def execSvc (o : Opnds) (code : BitVec 8) (s : State) : Host.Outcome State Fault Refusal :=
  issue (.svc o code) s fun it s => codeTrap it s .service code

/-- `rfe` (R389, R390, R437). -/
def execRfe (o : Opnds) (s : State) : Host.Outcome State Fault Refusal :=
  issue (.rfe o) s fun it s =>
    if it.act = 0 then commit it s id
    else if !it.w.waiting.isEmpty then raise it s .double 0 it.act 0
    else returnFromHandler s it.wid

/-- A page of a context becomes zeros under its key (R391). -/
def Mem.zeroPage (m : Mem) (key k : Nat) : Mem :=
  { m with cells := m.cells.filter fun c => !(decide (k ≤ c.1 ∧ c.1 < k + 65536))
           pois := m.pois.filter fun t => !(decide (k / 32 ≤ t ∧ t < k / 32 + 2048))
           keys := (List.range 2048).foldl (fun l i => aput (k / 32 + i) key l) m.keys
           vague := cutRange m.vague (k / 32) 2048 }

/-- The pool's HEAD, TAIL, SLOTS_LOG2 and LOW_WATER (R391); a skipped read gives an empty pool (R488). -/
def poolHeader (s : State) (ctx : Nat) : State × Nat × Nat × Nat × Nat :=
  let a := (s.cfg ctx).poolBase.toNat
  match s.devRead ctx a 64 with
  | none => (skipAccess s ctx a, 0, 0, 0, 0)
  | some bs => (s.devTouch ctx a 64, fieldOf bs 0 8, fieldOf bs 8 8, fieldOf bs 0x10 1, fieldOf bs 0x14 4)

/-- A slot that holds a frame of installed memory (R391). -/
def frameOk (x : Nat) : Bool := x % 65536 == 0 && decide (x < 2 ^ 48) && decide (x + 65536 ≤ Config.devBytes)

/-- Count malformed slots of a pool (R391, R424). -/
def countPool (s : State) (ctx n : Nat) : State :=
  s.modCtx ctx fun c => { c with rcnt := aput evPoolFormat ((sget 0 c.rcnt evPoolFormat + n) % 2 ^ 32) c.rcnt }

/-- Take frames from HEAD on until one is good or HEAD is TAIL (R391, R438): the state, the new HEAD and the frame. Malformed slots are
counted. The fuel is the number of slots: where all of them are malformed, every one up to TAIL is. -/
def takeFrame (ctx base log2 tail : Nat) : Nat → Nat → State → State × Nat × Option Nat
  | 0, head, s => (countPool s ctx ((tail + 2 ^ 64 - head) % 2 ^ 64), tail, none)
  | f + 1, head, s =>
    if head = tail then (s, head, none)
    else
      let a := base + 0x40 + 8 * (head % 2 ^ log2)
      match s.devRead ctx a 8 with
      | none => (skipAccess s ctx a, head, none)
      | some bs =>
        let next := (head + 1) % 2 ^ 64
        if frameOk (leNat bs) then (s.devTouch ctx a 8, next, some (leNat bs))
        else takeFrame ctx base log2 tail f next (countPool (s.devTouch ctx a 8) ctx 1)

/-- One pool event to the host as TAIL − HEAD falls below LOW_WATER (R391). -/
def poolCheck (s : State) (ctx before after low : Nat) : State :=
  if after < low ∧ low ≤ before then hostEvent s (.poolLow ctx) else s

/-- Take one frame from the pool, zero-filled (R391, R438): the state and the value of D. A SLOTS_LOG2 above 20 acts as 20: DESIGN
CHOICE (notes/assumptions/153). -/
def popFrame (s : State) (ctx : Nat) : State × Nat :=
  let base := (s.cfg ctx).poolBase.toNat
  let (s0, head, tail, log2, low) := poolHeader s ctx
  let (s1, head1, fr) := takeFrame ctx base (min 20 log2) tail (2 ^ min 20 log2) head s0
  let left := fun (h : Nat) => (tail + 2 ^ 64 - h) % 2 ^ 64
  let s2 := if head1 = head then s1 else poolCheck (s1.devPut ctx base (leBytes 8 head1)) ctx (left head) (left head1) low
  match fr with
  | none => (s2, 0)
  | some f => (s2.putBy none none (memKey .dev f) 65536 false fun m => m.zeroPage (s.keyId ctx) (memKey .dev f), f + 1)

/-- `pgpop` (R438). Its read of TAIL is an acquire at `.sys`. -/
def execPgpop (o : Opnds) (s : State) : Host.Outcome State Fault Refusal :=
  issue (.pgpop o) s fun it s =>
    if it.act = 0 then commit it s id
    else
      let r := popFrame s it.ctx
      commit it (acquireAt r.1 it.wid .sys) fun w => w.dput .b64 it.o.d it.act fun _ => ⟨r.2, false⟩

/-- The physical address of the entry of a level on the walk of an address, or the level above it at which there is no
table, or the poison met (R240, R439). -/
def entryAt (m : Mem) (va level : Nat) : Nat → Nat → Except Flt (Option Nat)
  | l, table =>
    let a := table + 8 * (va / 2 ^ pageLog l % 1024)
    if l ≤ level then .ok (if a < Config.devBytes then some a else none)
    else match readEntry m a with
      | .error f => if f.cause = .poison then .error f else .ok none
      | .ok e =>
        match l with
        | 0 => .ok none
        | n + 1 => if fld e 0 1 = 0 ∨ fld e 1 1 = 1 ∨ fld e 2 11 ≠ 0 ∨ fld e 48 16 ≠ 0 then .ok none
            else entryAt m va level n (fld e 13 35 * 2 ^ 13)

/-- A well-formed leaf of a level for a context (R439). -/
def leafFits (ctxKey level x va : Nat) : Bool :=
  let l : Leaf := ⟨level, x, none, []⟩
  l.bits 0 1 == 1 && l.legal va && (l.bits 4 2 != 0 || decide (l.bits 16 32 * 2 ^ 16 + 2 ^ pageLog level ≤ Config.devBytes))
    && l.bits 48 8 == (if l.bits 4 2 == 0 then ctxKey else 0)

/-- Whether a 64 KiB page lies in the range of a leaf. -/
def inLeaf (va level page : Nat) : Bool := page / 2 ^ (10 * level) == va / 2 ^ pageLog level

/-- Whether a page in a leaf's range is pinned (R395). -/
def pinnedIn (s : State) (ctx va level : Nat) : Bool :=
  s.dev.conflicts.any fun c => c.ctx == ctx && c.pinned.isSome && inLeaf va level c.page

/-- Whether a wait-table entry in a leaf's range is marked CONFLICT (R395). -/
def conflictIn (s : State) (ctx va level : Nat) : Bool :=
  s.dev.wt.any fun e => e.2.ctx == ctx && e.2.conflict && inLeaf va level e.2.page

/-- The status of a `pgmap` and the address it writes (R439); POISON where a table entry is poisoned. -/
def mapStatus (s : State) (ctx va level x : Nat) : Except Flt (Nat × Nat) :=
  if 2 ^ 56 ≤ va ∨ va % 2 ^ pageLog level ≠ 0 ∨ !leafFits (s.keyId ctx) level x va then .ok (5, 0)
  else match entryAt s.mem va level 3 (s.cfg ctx).ptRoot.toNat with
    | .error f => .error f
    | .ok none => .ok (4, 0)
    | .ok (some a) =>
      match readEntry s.mem a with
      | .error f => .error f
      | .ok e =>
        if fld e 0 1 = 1 then .ok (3, 0)
        else if fld x 4 2 = 0 ∧ conflictIn s ctx va level then .ok (1, 0)
        else if fld x 4 2 = 0 ∧ pinnedIn s ctx va level then .ok (2, 0)
        else .ok (0, a)

/-- The effect of a `pgmap` that maps (R392, R439): the entry, and the warps it wakes. -/
def mapLeaf (s : State) (ctx va level x a : Nat) : State :=
  let s1 := s.putBy none none (memKey .dev a) 8 false fun m => m.setNum (memKey .dev a) 8 x
  let es := (s1.dev.wt.filter fun e => e.2.ctx == ctx && inLeaf va level e.2.page).map Prod.fst
  wakeOverflow (es.foldl freeEntry s1) ctx

/-- `pgmap` (R439); one that maps is a release at `.dev`. -/
def execPgmap (o : Opnds) (level : Fin 3) (s : State) : Host.Outcome State Fault Refusal :=
  issue (.pgmap o level) s fun it s =>
    let va := it.src .b64 it.o.a 0
    let x := it.src .b64 it.o.b 0
    if it.act = 0 then commit it s id
    else if va.pois || x.pois then raise it s .poison 0 it.act 0
    else match mapStatus s it.ctx va.v level.val x.v with
      | .error f => raise it s f.cause f.sub it.act va.v
      | .ok (st, a) =>
        commit it (if st = 0 then mapLeaf (releaseAt s it.wid .dev) it.ctx va.v level.val x.v a else s) fun w =>
          w.dput .b32 it.o.d it.act fun _ => ⟨st, false⟩

/-- `tlbinv` (R440): the warp's stores become visible at `.dev`, and it waits until the device has dropped the entries. -/
def execTlbinv (o : Opnds) (kind : InvKind) (s : State) : Host.Outcome State Fault Refusal :=
  issue (.tlbinv o kind) s fun it s =>
    let n := (it.src .n32 it.o.b 0).v
    if it.act = 0 then commit it s id
    else opsClean it s [(.b64, it.o.a), (.n32, it.o.b)]
      (if kind = .range ∧ n = 0 then commit it s id
      else (releaseAt s it.wid .dev).modWarp it.wid fun w =>
        { w with wait := some (.tlbinv (if kind = .range ∧ 2 ^ 20 < n then .all else kind)
            (BitVec.ofNat 64 (it.src .b64 it.o.a 0).v) n) })

/-- Whether a cached entry is dropped (R440): KIND 2 drops all of them, the other kinds the leaves that translate an address of
the range. Non-leaf entries are named for KIND 2 alone, so the others leave them (DEDUCED). -/
def tlbHit (kind : InvKind) (va n : Nat) (e : Nat × Nat) : Bool :=
  match kind with
  | .all => true
  | .page => fld e.2 1 1 == 1 && tlbMeets e.1 va 1
  | .range => fld e.2 1 1 == 1 && tlbMeets e.1 va (n * 65536)

/-- What the TLBs may still hold after an invalidation (R440). -/
def dropTlb (kind : InvKind) (va n : Nat) (t : Sparse (List Nat)) : Sparse (List Nat) :=
  t.filterMap fun e => match e.2.filter fun x => !tlbHit kind va n (e.1, x) with
    | [] => none
    | l => some (e.1, l)

/-- TLBINV_COMPLETE (R240, R440). -/
def execTlbinvComplete (core slot : Nat) (s : State) : Host.Outcome State Fault Refusal :=
  .next (match (s.warpAt core slot).bind fun wid => (s.warp wid).map fun w => (wid, w) with
    | some (wid, w) =>
      (match w.wait with
      | some (.tlbinv kind va n) =>
        (s.modCtx (s.ctxNo wid) fun c => { c with tlb := dropTlb kind va.toNat n c.tlb }).modWarp wid
          fun w => { w with wait := none }.advance
      | _ => s)
    | none => s)

/-- `replay` (R393, R441). -/
def execReplay (o : Opnds) (tok : Bool) (s : State) : Host.Outcome State Fault Refusal :=
  issue (.replay o tok) s fun it s =>
    let a := it.src (if tok then .n32 else .b64) it.o.a 0
    let k := if tok then ReplayKey.token (BitVec.ofNat 32 a.v) else .page a.v
    if it.act = 0 then commit it s id
    else if a.pois then raise it s .poison 0 it.act 0
    else
      let n := (replayHits s it.ctx k).length
      commit it (replayAll s it.ctx k) fun w => w.dput .b32 it.o.d it.act fun _ => ⟨n, false⟩

/-- `park` (R389, R393, R442). -/
def execPark (o : Opnds) (s : State) : Host.Outcome State Fault Refusal :=
  issue (.park o) s fun it s =>
    let t := it.src .n32 it.o.a 0
    if it.act = 0 then commit it s id
    else if t.pois then raise it s .poison 0 it.act 0
    else if t.v / 2 ^ 31 % 2 = 1 ∨ !it.w.waiting.isEmpty then raise it s .double 0 it.act 0
    else parkFromHandler s it.wid t.v

/-- A handler register (R443); POOL_AVAIL may skip its read (R488). -/
def csrVal (it : Iss) (s : State) (h : Handler) (n : Csr) : State × Nat :=
  let cfg := s.cfg it.ctx
  match n with
  | .ctx => (s, it.ctx % 64)
  | .keyid => (s, s.keyId it.ctx)
  | .ptRoot => (s, cfg.ptRoot.toNat)
  | .frame => (s, h.frame.toNat)
  | .poolAvail =>
    let (s1, head, tail, _, _) := poolHeader s it.ctx
    (s1, min ((tail + 2 ^ 64 - head) % 2 ^ 64) 0xFFFFFFFF)
  | .wtEntry => (s, ((handlingOf s it.wid).head?).getD 0xFFFFFFFF)
  | .aside => (s, h.aside.toNat)
  | .resumePc => (s, h.resumePc.toNat)
  | .savedFmt => (s, h.savedFmt.toNat)
  | .dutyMode => (s, cfg.dutyMode.toNat)
  | .faultVa => (s, h.trap.addr.toNat)

/-- `csrrd` (R443, R444). -/
def execCsrrd (o : Opnds) (num : Csr) (s : State) : Host.Outcome State Fault Refusal :=
  issue (.csrrd o num) s fun it s =>
    match it.w.handler with
    | none => commit it s id
    | some h =>
      if it.act = 0 then commit it s id
      else
        let r := csrVal it s h num
        commit it r.1 fun w => w.dput it.o.ty it.o.d it.act fun _ => ⟨r.2, false⟩

/-- The handler after a write to a register (R444); none where it raises DOUBLE. -/
def csrPut (h : Handler) (n : Csr) (v : Nat) : Option Handler :=
  match n with
  | .resumePc => if h.trap.cause ≠ .service ∨ v % 8 ≠ 0 then none
      else some { h with resumePc := BitVec.ofNat 64 v, resumeWidx := 0 }
  | .savedFmt => if badFmt v then none else some { h with savedFmt := BitVec.ofNat 32 v }
  | _ => some h

/-- `csrwr` (R443, R444). -/
def execCsrwr (o : Opnds) (num : Csr) (s : State) : Host.Outcome State Fault Refusal :=
  issue (.csrwr o num) s fun it s =>
    let a := it.src it.o.ty it.o.a 0
    match it.w.handler with
    | none => commit it s id
    | some h =>
      if it.act = 0 then commit it s id
      else if a.pois then raise it s .poison 0 it.act 0
      else match csrPut h num a.v with
        | none => raise it s .double 0 it.act 0
        | some h1 => commit it s fun w => { w with handler := some h1 }

/-- `poisck` (R445). -/
def execPoisck (o : Opnds) (s : State) : Host.Outcome State Fault Refusal :=
  issue (.poisck o) s fun it s => commit it s fun w => w.pdput it.o.d it.act fun l => (it.src it.o.ty it.o.a l).pois

end Sys2Proof.Machine
end

