-- ==== Sys2Proof/Machine/Nalux.lean ====
section
/-! DEFINITION. Class 0xE: trace, time, counters and halts (R446 to R450). -/

namespace Sys2Proof.Machine

/-- `trace` (R446). -/
def execTrace (o : Opnds) (tag : BitVec 8) (n : Fin 9) (s : State) : Host.Outcome State Fault Refusal :=
  issue (.trace o tag n) s fun it s =>
    let ws := it.uniRange it.o.a n.val
    if it.act = 0 then commit it s id
    else if ws.any PWord.pois then raise it s .poison 0 it.act 0
    else commit it (userPacket s it.wid tag.toNat (ws.map fun x => x.val.toNat)) id

/-- Emit a SYNC at once on a core (R447): its sequence number, or none where it found no room (R416). It is no packet of a warp, so
BR bits held stay held (R421). -/
def syncNow (s : State) (ctx core : Nat) : State × Option Nat :=
  let cap := unitBytes (s.cfg ctx) core
  let die := dieOf core
  let t := s.ptp
  let u := (s.unit ctx core).recover cap ctx core die t
  let u1 := u.sync ctx core die t
  if cap = 0 then (s, none)
  else if u.lost ≠ 0 ∨ cap < u1.buf.length then (count (s.setUnit ctx core { u with lost := u.lost + 1 }) core evDropped, none)
  else (holdCheck (s.setUnit ctx core u1) ctx core, some u.seqNo)

/-- `tmark` (R447). -/
def execTmark (o : Opnds) (s : State) : Host.Outcome State Fault Refusal :=
  issue (.tmark o) s fun it s =>
    let on := match s.block it.blk with | some b => s.traced b | none => false
    if it.act = 0 then commit it s id
    else
      let r := if on then syncNow s it.ctx it.core else (s, none)
      commit it r.1 fun w => w.dput .b32 it.o.d it.act fun _ => ⟨r.2.getD 0xFFFFFFFF, false⟩

/-- `rdcnt` (R448). -/
def execRdcnt (o : Opnds) (num : Fin 256) (s : State) : Host.Outcome State Fault Refusal :=
  issue (.rdcnt o num) s fun it s =>
    commit it s fun w => w.dput .b32 it.o.d it.act fun _ => ⟨sget 0 (s.core it.core).cnt num.val, false⟩

/-- `rdptp` (R449). -/
def execRdptp (o : Opnds) (full : Bool) (s : State) : Host.Outcome State Fault Refusal :=
  issue (.rdptp o full) s fun it s =>
    let t := s.ptp
    let ws := [ptpNs t, ptpSec t % 2 ^ 32] ++ if full then [ptpSec t / 2 ^ 32 % 2 ^ 16] else []
    commit it s fun w => if it.act = 0 then w else w.sputRange it.o.d (ws.map fun x => ⟨BitVec.ofNat 32 x, false⟩)

/-- `halt` (R384, R429, R430, R450): the issuing warp stops at the word after it. -/
def execHalt (o : Opnds) (dump : Bool) (s : State) : Host.Outcome State Fault Refusal :=
  issue (.halt o dump) s fun it s =>
    if it.act = 0 then commit it s id
    else
      let s1 := commit it s id
      let t : TrapReq := ⟨.haltRequest, 0, 0, it.act, 0, 0, false⟩
      let s2 := takeTrap s1 it.wid t
      match s1.warp it.wid, s2.ctx it.ctx with
      | some w, some c => if dump && c.dump.isNone then startDump s2 it.ctx (some (mkRec s1 it.wid w t 0)) none else s2
      | _, _ => s2

end Sys2Proof.Machine
end

