-- ==== Sys2Proof/Machine/Pair.lean ====
section
/-! DEFINITION. Pair words (R49 to R51). -/

namespace Sys2Proof.Machine

/-- The type a half computes in (R49). -/
def pairTy : PairTy → Ty
  | .s32 => .s32
  | .n32 => .n32
  | .b32 => .b32
  | .f32 => .f32
  | .f16x2 => .f16x2
  | .bf16x2 => .bf16x2

/-- A floating half's result, under FLUSH (R62). -/
def halfFloat (it : Iss) (t : Ty) (a b : PV) (f : Fmt → Nat → Nat → FRes) : FOut :=
  let fm := tyFmt t
  let r := flushOut it.flush fm (f fm (flushIn it.flush fm a.v) (flushIn it.flush fm b.v))
  ⟨r.bits, r.fl, a.pois || b.pois⟩

/-- A packed half's result (R221). -/
def halfPacked (t : Ty) (a b : PV) (f : Fmt → Nat → Nat → FRes) : FOut :=
  let fm := tyFmt t
  let r0 := f fm (fld a.v 0 16) (fld b.v 0 16)
  let r1 := f fm (fld a.v 16 16) (fld b.v 16 16)
  ⟨r0.bits + 65536 * r1.bits, r0.fl ||| r1.fl, a.pois || b.pois⟩

/-- What a half computes in a lane (R50). -/
def halfOut (it : Iss) (h : PairHalf) (l : Nat) : FOut :=
  let t := pairTy h.ty
  let a := it.src t (.v h.d) l
  let b := it.src t h.a l
  let int := fun (v : Nat) => (⟨v, 0, a.pois || b.pois⟩ : FOut)
  let x := elem t a.v 0
  let y := elem t b.v 0
  match h.op with
  | .nop => ⟨a.v, 0, a.pois⟩
  | .add => int (fit t false (x + y))
  | .sub => int (fit t false (x - y))
  | .mul => int (fit t false (x * y))
  | .and => int (Nat.land a.v b.v)
  | .or => int (Nat.lor a.v b.v)
  | .xor => int (Nat.xor a.v b.v)
  | .shl => int (shlW 32 a.v (it.src .n32 h.a l).v)
  | .shr => int (if tyS t then sarW 32 a.v (it.src .n32 h.a l).v else shrW 32 a.v (it.src .n32 h.a l).v)
  | .min => int (fit t false (min x y))
  | .max => int (fit t false (max x y))
  | .mov => ⟨b.v, 0, b.pois⟩
  | .fadd => halfFloat it t a b fun f a b => f.add (.ofRM .rn) (f.decode a) (f.decode b)
  | .fmul => halfFloat it t a b fun f a b => f.mul (.ofRM .rn) (f.decode a) (f.decode b)
  | .fmin => halfFloat it t a b fun f a b => f.minmax false false a b
  | .fmax => halfFloat it t a b fun f a b => f.minmax true false a b
  | .hadd2 => halfPacked t a b fun f a b => f.add (.ofRM .rn) (f.decode a) (f.decode b)
  | .hmul2 => halfPacked t a b fun f a b => f.mul (.ofRM .rn) (f.decode a) (f.decode b)

/-- A half's write, of results computed before either half writes (R50, R51). -/
def Warp.putHalf (w : Warp) (it : Iss) (h : PairHalf) : Warp :=
  if h.op = .nop then w
  else
    let m := it.w.guarded h.guard it.act
    stickFstat (w.dput .b32 (.v h.d) m fun l => ⟨(halfOut it h l).bits, (halfOut it h l).pois⟩)
      ((lanesOf m).foldl (fun a l => a ||| (halfOut it h l).fl) 0)

/-- A pair word (R50). -/
def execPairWord (h1 h2 : PairHalf) (s : State) : Host.Outcome State Fault Refusal :=
  issue (.pairWord h1 h2) s fun it s => commit it s fun w => (w.putHalf it h1).putHalf it h2

end Sys2Proof.Machine
end

