-- ==== Sys2Proof/Machine/Waits.lean ====
section
/-! DEFINITION. What ends a warp's wait: its condition, its count, an outstanding operation, a freed entry (R36, R129, R165,
R179, R247, R274, R343, R382). -/

namespace Sys2Proof.Machine

/-- A warp in a slot of a core, and an effect on it. -/
def onWarp (s : State) (core slot : Nat) (f : Nat → Warp → State) : State :=
  match s.warpAt core slot with
  | none => s
  | some wid =>
    match s.warp wid with
    | none => s
    | some w => f wid w

/-- Whether a warp stands on its context's overflow list (R343, R392). -/
def onOverflow (s : State) (wid : Nat) : Bool :=
  match s.ctx (s.ctxNo wid) with
  | some c => c.overflow.contains wid
  | none => false

/-- The acquire that the end of a warp's wait is, if it is one (R325). -/
def endAcquire (s : State) (wid : Nat) : State :=
  match (s.warp wid).bind Warp.wait with
  | some x => waitAcquires s wid x
  | none => s

/-- A warp that goes on waiting on a memory word returns to its context's overflow list where the wait table is full (R343). -/
def listAgain (s : State) (wid : Nat) : State :=
  if (wordWaiters s).contains wid && decide (4096 < tableUsed s) then
    s.modCtx (s.ctxNo wid) fun c => { c with overflow := c.overflow ++ [wid] }
  else s

/-- An evaluation's outcome on a waiting warp (R343): it goes on waiting, completes, or traps. -/
def settleWait (s : State) (wid : Nat) (e : Eval) : State :=
  match e with
  | .wait s1 => listAgain s1 wid
  | .done s1 d v => finishWait (endAcquire s1 wid) wid d v
  | .trap c sub addr =>
    match s.warp wid with
    | none => s
    | some w => takeTrap (s.setWarp wid { w with wait := none }) wid ⟨c, sub, 0, activeHere w, addr, 0, false⟩
where
  /-- The lanes of the waiting instruction: those of the running path that its guard lets through. -/
  activeHere (w : Warp) : Word :=
    match w.clause with
    | some cl =>
      match decodeWord ((cl.words[w.run.widx - 1]?).getD 0) with
      | .ok i => activeOf i w
      | .error _ => w.run.mask
    | none => w.run.mask

/-- The word ends its wait and the warp moves on. -/
def endWait (s : State) (wid : Nat) : State := finishWait (endAcquire s wid) wid .zero 0

/-- The word is issued again. -/
def reissue (s : State) (wid : Nat) : State := s.modWarp wid fun w => { w with wait := none }

/-- A wait for granules ends when they are free and its warp is the one that began earliest (R313). -/
def evalAcalloc (s : State) (wid core g : Nat) (d : Opd) : State :=
  let lead := leaderOf core
  match earliest (accWaiters s lead) with
  | none => s
  | some x =>
    if x.1 = wid ∧ g ≤ (freeGranules s lead).length then
      let r := grantGranules s (blkOf wid) lead g
      dismissWaiters (finishWait r.1 wid d r.2) (blkOf wid)
    else s

/-- A wait for the batch limit (R249, R277). -/
def evalCpclose (s : State) (wid : Nat) (w : Warp) (d : Opd) (lanes : Word) : State :=
  if 255 ≤ w.closed.length then s
  else
    let w1 := w.closeBatch
    s.setWarp wid { w1.dput .b32 d lanes fun _ => ⟨w1.batchNum, false⟩ with wait := none }.advance

/-- Whether a deferred store may find a line: its block is confirmed, its context's quota has room, or a block above its own holds
lines, which its reissue evicts (R111). -/
def quotaRoom (s : State) (wid : Nat) : Bool :=
  match s.block (blkOf wid) with
  | some b => !b.isProv || decide (s.provLines b.ctx < quotaLines (s.cfg b.ctx)) || (quotaVictim s (blkOf wid)).isSome
  | none => true

/-- A parked warp's condition is evaluated again (R343). -/
def evalWait (s : State) (wid core : Nat) (w : Warp) : State :=
  match w.wait with
  | none => s
  | some x =>
    match x with
    | .reissue | .queue => reissue s wid
    | .quota => if quotaRoom s wid then reissue s wid else s
    | .held => match s.block (blkOf wid) with
      | some b => if b.isProv then s else reissue s wid
      | none => s
    | .nap _ | .vtopen .. | .engine _ | .tlbinv .. | .icinv _ | .fault _ => s
    | .fwait m => if flagsClear w m then endWait s wid else s
    | .cpwait n => if batchesDone w n then endWait s wid else s
    | .cpclose d lanes => evalCpclose s wid w d lanes
    | .bar b t => settleWait s wid (evalBar s (blkOf wid) b t)
    | .gbar p => settleWait s wid (evalGbar s wid p)
    | .await place scr owner ph va _ =>
      if onOverflow s wid then s else settleWait s wid (evalAwait s wid place scr owner ph va)
    | .ringw r slot ph => settleWait s wid (evalRing s (blkOf wid) r slot ph)
    | .lkacq key va d _ => if onOverflow s wid then s else settleWait s wid (evalLock s wid key va d)
    | .waitv key va e d woken since sc =>
      if onOverflow s wid then s else settleWait s wid (evalWaitv s wid key va e d woken since sc)
    | .gwait key va vouch d _ => settleWait s wid (evalGwait s wid key va vouch d)
    | .acalloc g d _ => evalAcalloc s wid core g d
    | .accClear gs => if granulesNamed s (leaderOf core) gs then s else reissue s wid
    | .publish i d none =>
      if copiesUnder s (blkOf wid) then s
      else
        let r := swapVitrine s (blkOf wid) (s.ctxNo wid) i
        r.1.modWarp wid fun w => { w with wait := some (.publish i d (some r.2)) }
    | .publish _ _ (some _) => s

/-- Whether events may act on a warp: a halted or stopped warp stays where it is (R382, R405). -/
def movable (w : Warp) : Bool := !w.halted && w.stop.isNone

/-- WAIT_COMPLETE (R343). -/
def execWaitComplete (core slot : Nat) (s : State) : Host.Outcome State Fault Refusal :=
  .next (onWarp s core slot fun wid w => if movable w then evalWait s wid core w else s)

/-- NAP_EXPIRY (R179): the next word, once the count has passed or a trigger has ended it. -/
def execNapExpiry (core slot : Nat) (s : State) : Host.Outcome State Fault Refusal :=
  .next (onWarp s core slot fun wid w =>
    match w.wait with
    | some (.nap t) => if t ≤ s.nonStalled core ∨ napOver s wid w then endWait s wid else s
    | _ => s)

/-- ASYNC_FAULT_DELIVERY (R382): at the warp's boundary. -/
def execAsyncFaultDelivery (core slot : Nat) (s : State) : Host.Outcome State Fault Refusal :=
  .next (onWarp s core slot fun wid w => if movable w then (deliver s wid w).getD s else s)

/-- Whether a clause's words touch a 128 B line. -/
def Clause.touches (c : Clause) (va : Nat) : Bool :=
  let a := c.addr.toNat
  decide (a < va / 128 * 128 + 128 ∧ va / 128 * 128 < a + 8 * (c.hdr.len.val + 1))

/-- ICINV_COMPLETE (R274): the clause buffers of the partition have dropped the line. -/
def execIcinvComplete (core slot : Nat) (s : State) : Host.Outcome State Fault Refusal :=
  .next (onWarp s core slot fun wid w =>
    match w.wait with
    | some (.icinv va) =>
      let s1 := endWait s wid
      { s1 with warps := s1.warps.map fun e =>
          (e.1, if e.2.loc.isSome && dieOf e.2.core == dieOf core then
              { e.2 with clause := e.2.clause.filter fun c => !c.touches va.toNat }
            else e.2) }
    | _ => s)

/-- The writes of an outstanding operation. -/
def Warp.landed (w : Warp) (p : Pend) : Warp :=
  let w1 := p.vw.foldl (fun w x => w.vput x.1 (maskOf fun l => l == x.2.1) fun _ => x.2.2) w
  p.sw.foldl (fun w x => w.sput x.1 x.2) w1

/-- Cells that the writes of an outstanding operation still take. -/
def landCells (w : Warp) (p : Pend) : Nat :=
  (((p.vw.map fun x => cellNo x.1 (x.2.1 / 8)).eraseDups).filter fun c => !w.cells.contains c).length

/-- LONG_LATENCY_COMPLETE (R36): the `k`-th outstanding memory operation writes its destinations and its flag falls. -/
def execLongLatencyComplete (core slot k : Nat) (s : State) : Host.Outcome State Fault Refusal :=
  .next (onWarp s core slot fun wid w =>
    match w.pend[k]? with
    | some p =>
      if (match p.kind with | .mat _ => false | _ => true) then
        let s1 := makeRoom s core wid (landCells w p)
        if poolFree s1 core < landCells w p then s1
        else s1.modWarp wid fun w => { w.landed p with pend := w.pend.eraseIdx k }
      else s
    | none => s)

/-- Whether an outstanding operation writes cells of a slice, or may (R39, R165). -/
def writesSlice (p : Pend) (sl : Nat) : Bool :=
  match p.kind with
  | .mat _ => !p.vw.isEmpty
  | .mem | .peer _ => p.vw.any fun x => x.2.1 / 8 == sl

/-- A slice gives its cells and its slot back (R165). -/
def Warp.dropSlice (w : Warp) (sl : Nat) : Warp :=
  { w with slices := w.slices.set sl none
           v := w.v.map fun e => (e.1, (List.range e.2.length).map fun l => if l / 8 = sl then PWord.zero else (e.2[l]?).getD PWord.zero)
           cells := w.cells.filter fun c => c % 4 != sl, freed := w.freed.filter fun c => c % 4 != sl
           spilled := w.spilled.filter fun c => c % 4 != sl, usedAt := w.usedAt.filter fun e => e.1 % 4 != sl }

/-- Whether a block has no command left in the engines of its cores. -/
def enginesIdle (s : State) (bn : Nat) : Bool :=
  match s.block bn with
  | none => true
  | some b => b.cores.all fun c =>
      (s.core c).copies.all (fun x => !x.ofBlock bn)
        && (s.pair (leaderOf c)).mq.all (fun m => blkOf m.wid != bn) && (s.pair (leaderOf c)).eq.all fun m => blkOf m.wid != bn

/-- A warp that goes leaves the faults it has not taken to its block (R108, R251). -/
def leaveFaults (s : State) (bn : Nat) (w : Warp) : State :=
  match w.heldTrap.or (w.async.find? fun r => r.cause != .annex) with
  | some r => orphanTrap s bn r
  | none => s

/-- SLICE_RETIRE (R39, R165): with its last slice the warp is gone, and its slot's run of mismatches with it (R40); with its last
warp the block has ended (R94). -/
def execSliceRetire (core slot sl : Nat) (s : State) : Host.Outcome State Fault Refusal :=
  .next (onWarp s core slot fun wid w =>
    let last := (w.slices.set sl none).all Option.isNone
    let bn := blkOf wid
    let lastWarp := last && (s.warpsOf bn).all fun e => e.1 == wid
    if ((w.slices[sl]?).getD none).isNone || w.alive &&& sliceMask sl != 0 || w.pend.any (writesSlice · sl)
        || (last && !w.pend.isEmpty) || (lastWarp && !enginesIdle s bn) then s
    else if last then
      let s0 := ({ s with warps := adel wid s.warps }).modCore core fun c => { c with mismatches := adel slot c.mismatches }
      let s1 := leaveFaults (freeCores s0 [core]) bn w
      if lastWarp then blockEnded s1 bn else s1
    else freeCores (s.setWarp wid (w.dropSlice sl)) [core])

/-- Whether a spilled warp is ready for its refill (R129). -/
def refillReady (w : Warp) : Bool := !w.spilled.isEmpty && w.wait.isNone && movable w

/-- Whether another ready warp of the core was spilled before a warp (R129). -/
def refillAfter (s : State) (core : Nat) (w : Warp) : Bool :=
  (s.warpsOn core).any fun e => refillReady e.2 && (unreadCell s e.1 e.2).isNone && decide (e.2.spilledAt.getD 0 < w.spilledAt.getD 0)

/-- CELL_REFILL (R129, R130): a warp that could issue gets its spilled cells back, the one spilled longest first. The handler of an
ANNEX cause goes on without them while their pages are missing. -/
def execCellRefill (core slot : Nat) (s : State) : Host.Outcome State Fault Refusal :=
  .next (onWarp s core slot fun wid w =>
    if !refillReady w then s
    else match unreadCell s wid w with
      | some a => if inAnnexHandler w then s else takeTrap s wid ⟨.annex, 0, 0, w.run.mask, a, 0, true⟩
      | none =>
        if refillAfter s core w then s
        else
          let s1 := makeRoom s core wid w.spilled.length
          if poolFree s1 core < w.spilled.length then s1 else s1.modWarp wid fun w => { w with spilled := [], spilledAt := none })

/-- Rejected warps of a core, with the time of their first rejection and their number (R247). -/
def rejected (s : State) (core : Nat) : List (Nat × Nat) :=
  (s.warpsOn core).filterMap fun e => e.2.sched.missWait.map fun t => (t, e.1)

/-- The earliest rejected warp after a place in their order. -/
def nextRejected (ws : List (Nat × Nat)) (after : Option (Nat × Nat)) : Option (Nat × Nat) :=
  let before := fun (a b : Nat × Nat) => decide (a.1 < b.1) || (a.1 == b.1 && decide (a.2 < b.2))
  (ws.filter fun x => match after with | some y => before y x | none => true).foldl
    (fun m x => match m with | some y => if before x y then some x else m | none => some x) none

/-- Reserve a freed entry for a rejected warp, whose word issues again (R247). -/
def reserveMiss (s : State) (core : Nat) (x : Option (Nat × Nat)) : State :=
  let s1 := s.modCore core fun c => { c with missResv := x.map fun y => (y.2, s.dev.now) }
  match x with
  | none => s1
  | some y => s1.modWarp y.2 fun w => if w.wait = some .reissue then { w with wait := none } else w

/-- MISS_STATUS_REISSUE (R247): a freed entry is reserved for the warp rejected first. -/
def execMissStatusReissue (core : Nat) (s : State) : Host.Outcome State Fault Refusal :=
  .next (let kept := match (s.core core).missResv with
      | some (wid, _) => (match s.warp wid with | some w => w.sched.missWait.isSome | none => false)
      | none => false
    if 4096 ≤ missUsed s core || kept then s else reserveMiss s core (nextRejected (rejected s core) none))

/-- MISS_STATUS_RESERVATION_EXPIRY (R247): after 64 cycles the entry passes to the next warp. -/
def execMissStatusReservationExpiry (core : Nat) (s : State) : Host.Outcome State Fault Refusal :=
  .next (match (s.core core).missResv with
    | none => s
    | some (wid, t) =>
      if s.dev.now < t + 64 then s
      else reserveMiss s core (nextRejected (rejected s core)
        ((s.warp wid).bind fun w => w.sched.missWait.map fun m => (m, wid))))

end Sys2Proof.Machine
end

