-- ==== Sys2Proof/Machine/Debug.lean ====
section
/-! DEFINITION. The debugger's commands (R405, R406, R426 to R429) and the core dump (R430 to R433). -/

namespace Sys2Proof.Machine

/-- Warps of a context that are on cores. -/
def ctxWarps (s : State) (ctx : Nat) : List (Nat × Warp) := s.warps.filter fun e => e.2.loc.isSome && s.ctxNo e.1 == ctx

/-- HALTED of DBG_HALT: every warp of the context is halted, at an instruction boundary (R405, R426). -/
def allHalted (s : State) (ctx : Nat) : Bool :=
  !(ctxWarps s ctx).isEmpty && (ctxWarps s ctx).all fun e => e.2.halted && !midOperation e.2

/-- The context that DBG_CTX addresses (R426). -/
def State.dbgContext (s : State) : Nat := s.dev.dbgCtx.toNat % 64

/-- What a read of DBG_HALT gives: OP is write-only, HALTED is bit 8 (R426). -/
def dbgHaltValue (s : State) : DWord := if allHalted s s.dbgContext then 0x100 else 0

/-- DBG_HALT OP 1 (R429): HALT_REQUEST is raised in every warp of the addressed context (R384), the one that DBG_CTX names (R426). -/
def execDbgHaltBroadcast (ctx : Nat) (s : State) : Host.Outcome State Fault Refusal :=
  .next (if ctx = s.dbgContext ∧ (s.ctx ctx).isSome then haltCtx (haltPackets s ctx none) ctx else s)

/-- Every warp of a context goes on (R429). -/
def liftHalt (s : State) (ctx : Nat) : State :=
  let s1 := s.modCtx ctx fun c => { c with halted := false }
  { s1 with warps := s1.warps.map fun e => (e.1, if s.ctxNo e.1 == ctx then { e.2 with halted := false } else e.2) }

/-- DBG_HALT OP 2 (R429) for the context that DBG_CTX names. A dump in progress keeps its warps halted. -/
def execDbgResumeAll (ctx : Nat) (s : State) : Host.Outcome State Fault Refusal :=
  .next (match s.ctx ctx with
    | some c => if ctx ≠ s.dbgContext ∨ c.dump.isSome then s else liftHalt s ctx
    | none => s)

/-- A trap record of the device's own, of no warp. -/
def ownRec (s : State) (c : Cause) (sub addr : Nat) : TrapRec :=
  { cause := c, subcode := sub, code := 0, prior := 0, lanes := 0, pc := 0, addr := BitVec.ofNat 64 addr, cmdSeq := 0,
    gid := 0, blkIdx := 0, warp := 0, core := 0, token := 0, flags := 0, time := timeForm s.ptp }

/-- DBG_HALT OP 3 (R430) for the context that DBG_CTX names. -/
def execDbgHaltAndDump (ctx : Nat) (s : State) : Host.Outcome State Fault Refusal :=
  .next (match s.ctx ctx with
    | some c => if ctx ≠ s.dbgContext ∨ c.dump.isSome then s else startDump (haltPackets s ctx none) ctx (some (ownRec s .haltRequest 0 0)) none
    | none => s)

/-- STATUS of DBG_CMD (R426): 0 done, 1 PENDING, 2 refused, 3 busy. -/
def dbgStatus (s : State) (n : Nat) : State := s.modDev fun d => { d with dbgCmd := BitVec.ofNat 64 (n * 2 ^ 62) }

/-- The halted warp of the addressed context that a command names, or the status it ends with (R426). -/
def dbgWarp (s : State) (cmd : BitVec 64) : Except Nat (Nat × Warp) :=
  match s.warpAt (fld cmd.toNat 4 8) (fld cmd.toNat 12 7) with
  | none => .error 2
  | some wid =>
    match s.warp wid with
    | none => .error 2
    | some w =>
      if s.ctxNo wid ≠ s.dbgContext ∨ !w.halted then .error 2 else if midOperation w then .error 3 else .ok (wid, w)

/-- Put bytes into DBG_DATA. -/
def putData (s : State) (off : Nat) (bs : List Byte) : State :=
  s.modDev fun d => { d with dbgData := (List.range bs.length).foldl (fun m i => sput 0 m (off + i) ((bs[i]?).getD 0)) d.dbgData }

/-- A number in DBG_DATA. -/
def getData (s : State) (off n : Nat) : Nat := leNat ((List.range n).map fun i => sget 0 s.dev.dbgData (off + i))

/-- What a debugger reads (R406, R426): bytes of DBG_DATA, or the status. -/
def dbgValue (w : Warp) (space index : Nat) : Except Nat (List Byte) :=
  match space with
  | 0 => if w.pendV.contains index then .error 1
      else .ok ((List.range 32).flatMap fun l => leBytes 4 (w.vget index l).val.toNat)
  | 1 => if 96 ≤ index then .error 2 else if w.pendS.contains index then .error 1 else .ok (leBytes 4 (w.sget index).val.toNat)
  | 2 => if 7 ≤ index then .error 2 else .ok (leBytes 4 ((w.p[index]?).getD 0).toNat)
  | 3 => if 3 ≤ index then .error 2 else .ok (leBytes 4 ((w.q[index]?).getD false).toNat)
  | 4 => .ok (leBytes 4 w.run.fmt.toNat)
  | 5 => .ok (leBytes 8 w.run.pc.toNat ++ leBytes 4 w.run.widx)
  | _ => .error 2

/-- DBG_CMD OP 1 (R406, R426). -/
def execDbgRead (cmd : BitVec 64) (s : State) : Host.Outcome State Fault Refusal :=
  .next (match dbgWarp s cmd with
    | .error n => dbgStatus s n
    | .ok (_, w) =>
      match dbgValue w (fld cmd.toNat 19 3) (fld cmd.toNat 22 7) with
      | .error n => dbgStatus s n
      | .ok bs => dbgStatus (putData s 0 bs) 0)

/-- Outstanding writes to a register are discarded in every lane, by a replay of their load too (R148); their flags stay (R406). -/
def Warp.dropWrites (w : Warp) (vec : Bool) (r : Nat) : Warp :=
  { w with pend := w.pend.map fun p =>
      if vec then { p with vw := p.vw.filter fun x => x.1 != r, skip := if p.vw.any (fun x => x.1 == r) then nins r p.skip else p.skip }
      else { p with sw := p.sw.filter fun x => x.1 != r } }

/-- A warp is taken off the wait lists it stands on as its PC is set. -/
def unpark (s : State) (wid : Nat) : State :=
  let s1 := s.modDev fun d => { d with wt := d.wt.map fun e => (e.1, { e.2 with parked := e.2.parked.filter (· != wid) }) }
  s1.modCtx (s.ctxNo wid) fun c => { c with overflow := c.overflow.filter (· != wid) }

/-- A PC with its WIDX from DBG_DATA (R405): a header, or a word in mid-clause. -/
def setPc (s : State) (wid : Nat) (w : Warp) : State :=
  let pc := getData s 0 8 % 2 ^ 56
  (unpark s wid).setWarp wid
    { w with run := { w.run with pc := BitVec.ofNat 64 pc, widx := getData s 8 4 % 16 }, clause := none, rpt := none, wait := none }

/-- What a debugger writes (R406, R426), none where it is refused; reserved bits of `%fmt` stay 0 (R6, R67). -/
def dbgPut (s : State) (w : Warp) (space index : Nat) : Option Warp :=
  let d := BitVec.ofNat 32 (getData s 0 4)
  match space with
  | 0 => if w.budget ≤ index then none
      else some ((w.dropWrites true index).vput index w.liveLanes fun l => ⟨BitVec.ofNat 32 (getData s (4 * l) 4), false⟩)
  | 1 => if 96 ≤ index then none else some ((w.dropWrites false index).sput index ⟨d, false⟩)
  | 2 => if 7 ≤ index then none else some { w with p := w.p.set index d }
  | 3 => if 3 ≤ index then none else some { w with q := w.q.set index (d.getLsbD 0) }
  | 4 => some { w with run := { w.run with fmt := d &&& 0xFFFF } }
  | _ => none

/-- Cells that a debugger's write to a vector register takes (R127, R406). -/
def dbgCells (w : Warp) (space index : Nat) : Nat :=
  if space = 0 ∧ index < w.budget then ((slicesOf w.liveLanes).map (cellNo index)).countP fun c => !w.cells.contains c else 0

/-- DBG_CMD OP 2 (R406, R426). A write that takes cells makes room for them (R129), and answers busy where it finds none. -/
def execDbgWrite (cmd : BitVec 64) (s : State) : Host.Outcome State Fault Refusal :=
  .next (match dbgWarp s cmd with
    | .error n => dbgStatus s n
    | .ok (wid, w) =>
      let space := fld cmd.toNat 19 3
      let index := fld cmd.toNat 22 7
      if space = 5 then dbgStatus (setPc s wid w) 0
      else
        let need := dbgCells w space index
        let s1 := makeRoom s w.core wid need
        if poolFree s1 w.core < need then dbgStatus s1 3
        else match (s1.warp wid).bind fun w => dbgPut s1 w space index with
          | none => dbgStatus s1 2
          | some w1 => dbgStatus (s1.setWarp wid w1) 0)

/-- DBG_CMD OP 3 (R405, R426). -/
def execDbgSetPc (cmd : BitVec 64) (s : State) : Host.Outcome State Fault Refusal :=
  .next (match dbgWarp s cmd with
    | .error n => dbgStatus s n
    | .ok (wid, w) => dbgStatus (setPc s wid w) 0)

/-- DBG_CMD OP 4 (R429). -/
def execDbgResumeWarp (cmd : BitVec 64) (s : State) : Host.Outcome State Fault Refusal :=
  .next (match dbgWarp s cmd with
    | .error n => dbgStatus s n
    | .ok (wid, w) => if dumping s wid then dbgStatus s 3 else dbgStatus (s.setWarp wid { w with halted := false }) 0)

/-- DBG_CMD OP 5 (R427): the word at the PC runs without matching again. -/
def execDbgResumePastBreakpoint (cmd : BitVec 64) (s : State) : Host.Outcome State Fault Refusal :=
  .next (match dbgWarp s cmd with
    | .error n => dbgStatus s n
    | .ok (wid, w) =>
      if dumping s wid then dbgStatus s 3 else dbgStatus (s.setWarp wid { w with halted := false, bpSkip := some w.run.pc }) 0)

/-- The tag of a dump record (R432). -/
def dumpTag (gid idx core warp : Nat) (body : List Byte) : List Byte :=
  leBytes 4 gid ++ leBytes 4 (idx % 2 ^ 32) ++ leBytes 2 core ++ leBytes 2 warp ++ leBytes 4 body.length ++ body

/-- A record of a block. -/
def blockRec (b : Block) (core : Nat) (body : List Byte) : List Byte := dumpTag b.gid b.idx core 0xFFFF body

/-- A record of a warp. -/
def warpRec (s : State) (e : Nat × Warp) (body : List Byte) : List Byte :=
  match s.block (blkOf e.1) with
  | some b => dumpTag b.gid b.idx e.2.core (warpNo e.1) body
  | none => []

/-- The address a wait watches and its token (R432). -/
def watchOf (s : State) (w : Warp) : Nat × Nat :=
  match w.wait with
  | some (.await _ _ _ _ va _) => (va.toNat, 0)
  | some (.ringw r _ _) => (r.toNat, 0)
  | some (.lkacq _ va _ _) => (va.toNat, 0)
  | some (.waitv _ va _ _ _ _ _) => (va.toNat, 0)
  | some (.gwait _ va _ _ _) => (va.toNat, 0)
  | some (.bar _ t) => (0, t.toNat)
  | some (.fault (some i)) => (0, match alook i s.dev.wt with | some e => (match e.st with | .host t => t.toNat | _ => 0) | none => 0)
  | _ => (0, 0)

/-- Poison bits of words, one bit a word (R400). -/
def poisonMap (n : Nat) (f : Nat → Bool) : List Byte :=
  (List.range ((n + 7) / 8)).map fun i => BitVec.ofNat 8 ((List.range 8).foldl (fun a j => if f (8 * i + j) then a + 2 ^ j else a) 0)

/-- Section 1 (R432): the warp save record with every register of its role saved and
FRONT left out. -/
def dumpRegs (s : State) (ctx : Nat) : List (List Byte) :=
  (ctxWarps s ctx).map fun e => warpRec s e
    ((warpRecord e.2 (warpNo e.1) .heavy (List.range e.2.budget) false).flatMap fun x => leBytes 4 x.val.toNat)

/-- Section 2: scratchpad bytes and poison bitmap. -/
def dumpScratch (s : State) (ctx : Nat) : List (List Byte) :=
  (placedBlocks s ctx).map fun e =>
    let n := s.scratchBytes e.2
    blockRec e.2 (e.2.cores.head?.getD 0) ((List.range n).map (fun i => sget 0 e.2.scr i)
      ++ poisonMap ((n + 3) / 4) fun w => e.2.scrPois.contains w)

/-- Section 3: barriers and held locks of a block, then its warps' waits. -/
def dumpSync (s : State) (ctx : Nat) : List (List Byte) :=
  (placedBlocks s ctx).flatMap fun e =>
    blockRec e.2 (e.2.cores.head?.getD 0) ((List.range 16).flatMap (barrierBytes e.2)
        ++ (List.range 16).flatMap fun i => leBytes 8 ((e.2.locks[i]?).getD 0))
      :: (s.warpsOf e.1).map fun x =>
        let t := watchOf s x.2
        warpRec s x (leBytes 1 (waitCode x.2).1 ++ leBytes 3 0 ++ leBytes 8 t.1 ++ leBytes 4 t.2)

/-- Section 4: waiting frontier entries, those a handler has frozen among them (R157, R390). -/
def dumpFrontier (s : State) (ctx : Nat) : List (List Byte) :=
  (ctxWarps s ctx).map fun e => warpRec s e (e.2.entries.flatMap fun x => x.path.bytes)

/-- Commands of a block that a dump cancels on a core: queued, or stopped at a fault. -/
def cancelOn (s : State) (bn core : Nat) : List CopyCmd :=
  (s.core core).copies.filter fun x => x.ofBlock bn && (x.started.isNone || x.faulted)

/-- Section 5: the cancelled copy commands of each block and core. -/
def dumpCopies (s : State) (ctx : Nat) : List (List Byte) :=
  (placedBlocks s ctx).flatMap fun e => e.2.cores.filterMap fun c =>
    let cs := cancelOn s e.1 c
    if cs.isEmpty then none
    else some (blockRec e.2 c (cs.flatMap fun x => x.saveBytes ++ leBytes 4 x.seq.toNat
      ++ leBytes 4 (match s.warp x.wid with | some w => w.slot | none => 0)))

/-- The dump header (R431). -/
def dumpHeader (ctx : Nat) (d : Dump) (truncated fallback : Bool) (sects : List (Nat × Nat)) (bytes : Nat)
    (second : Option TrapRec) : List Byte :=
  leBytes 4 0x504D5544 ++ leBytes 2 1 ++ leBytes 2 (truncated.toNat + 2 * fallback.toNat) ++ leBytes 1 ctx
    ++ leBytes 1 sects.length ++ leBytes 6 0 ++ leBytes 8 bytes ++ leBytes 8 (timeForm d.started)
    ++ (match d.trigger with | some r => r.bytes.take 64 | none => leBytes 64 0)
    ++ (match second with | some r => r.bytes.take 64 | none => leBytes 64 0)
    ++ (List.range 8).flatMap (fun i => match sects[i]? with
      | some x => leBytes 4 (i + 1) ++ leBytes 4 x.1 ++ leBytes 4 x.2 ++ leBytes 4 0
      | none => leBytes 16 0)
    ++ leBytes 224 0

/-- What a dump comes to as it is written: the state, the next offset, the sections complete, the fault met. -/
structure DumpRun where
  s : State
  off : Nat
  sects : List (Nat × Nat)
  fault : Option TrapRec

/-- Write the pieces of a dump in ascending address order, up to the first that faults (R433, R460): what SECONDARY then
holds is the cause an access to that address would raise. -/
def dumpPieces (ctx : Nat) : List (Nat × Nat) → List Byte → DumpRun → DumpRun
  | [], _, r => r
  | (va, n) :: ps, bs, r =>
    match r.s.devWrite ctx va (bs.take n) with
    | some s1 => dumpPieces ctx ps (bs.drop n) { r with s := s1, off := r.off + n }
    | none => { r with fault := some (match r.s.access ctx va r.s.free ⟨true, false, none⟩ with
        | .error f => ownRec r.s f.cause f.sub va
        | .ok _ => ownRec r.s .address 0 va) }

/-- Write one record of a dump (R433): one that would pass DUMP_BYTES is not begun. -/
def dumpPut (ctx : Nat) (r : DumpRun) (bs : List Byte) : DumpRun :=
  let cfg := r.s.cfg ctx
  let va := cfg.dumpBase.toNat + r.off
  if r.fault.isSome then r
  else if cfg.dumpBytes.toNat < r.off + bs.length then { r with fault := some (ownRec r.s .address 0 va) }
  else dumpPieces ctx (pieces va bs.length) bs r

/-- Write a section's records; it counts when all of them are written. -/
def dumpSection (ctx : Nat) (r : DumpRun) (recs : List (List Byte)) : DumpRun :=
  let r1 := recs.foldl (dumpPut ctx) r
  if r1.fault.isSome then r1 else { r1 with sects := r1.sects ++ [(r.off, r1.off - r.off)] }

/-- The fallback header at its physical address, under KEYID 0 (R412, R433). -/
def dumpFallback (s : State) (ctx : Nat) (d : Dump) (r : DumpRun) : State :=
  let pa := (s.cfg ctx).dumpFallback.toNat
  s.put none none 0 (pa % 2 ^ 48) (dumpHeader ctx d true true r.sects r.off r.fault) false

/-- Steps 2 and 3 of a dump (R430): header, sections in the order of their KIND, header again. -/
def dumpOut (s : State) (ctx : Nat) (d : Dump) : State :=
  let r0 : DumpRun := dumpPut ctx ⟨s, 0, [], none⟩ (dumpHeader ctx d true false [] 512 none)
  let r := [dumpRegs s ctx, dumpScratch s ctx, dumpSync s ctx, dumpFrontier s ctx, dumpCopies s ctx].foldl (dumpSection ctx) r0
  match r.fault with
  | some _ => dumpFallback r.s ctx d r
  | none =>
    let e := dumpPieces ctx (pieces (s.cfg ctx).dumpBase.toNat 512) (dumpHeader ctx d false false r.sects r.off none) r
    if e.fault.isSome then dumpFallback e.s ctx d { e with off := r.off } else e.s

/-- Blocks of a context with fatal traps that a dump has put off, in the order those were raised (R430): of warps, and of copy commands
whose warps are gone. -/
def putOff (s : State) (ctx : Nat) : List Nat :=
  let bs := s.blocks.filter fun e => e.2.ctx == ctx && !e.2.isProv
  let ws := bs.flatMap fun e => (s.warpsOf e.1).filterMap fun x => match x.2.heldTrap, x.2.wait with
    | some r, some .held => some (r.time, e.1)
    | _, _ => none
  let gone := bs.flatMap fun e => e.2.heldFaults.map fun r => (r.time, e.1)
  (sortBy (fun a b => decide (a.1 ≤ b.1)) (ws ++ gone)).map Prod.snd

/-- Cancelled commands of a context: ENG sub 2 for each (R430). -/
def cancelCopies (s : State) (ctx : Nat) : State :=
  (placedBlocks s ctx).foldl (fun s e => e.2.cores.foldl (fun s c =>
    (cancelOn s e.1 c).foldl (fun s x => copyPacket s c 2 x) s) s) s

/-- Cancelled commands of surviving blocks are queued again (R402, R430). -/
def reissueCopies (s : State) (ctx : Nat) : State :=
  (placedBlocks s ctx).foldl (fun s e => e.2.cores.foldl (fun s c =>
    (cancelOn s e.1 c).foldl (fun s x => requeueCopy (dropCopy s c x.seq) c { x with faulted := false }) s) s) s

/-- Whether a halted context's operations are complete, so that its state may be dumped (R430). -/
def dumpReady (s : State) (ctx : Nat) : Bool :=
  (ctxWarps s ctx).all (fun e => (e.2.halted || e.2.alive == 0) && e.2.pend.isEmpty && !midOperation e.2)
    && (placedBlocks s ctx).all fun e => e.2.cores.all fun c =>
      (s.core c).copies.all fun x => !x.ofBlock e.1 || x.started.isNone || x.faulted

/-- DUMP_WRITE (R430 to R433): the dump is written, then the triggering gang and those that trapped since are killed or
relaunched, and the halt is lifted where no debugger is attached. Resets that waited for the end act next (R478, R480). -/
def execDumpWrite (ctx : Nat) (s : State) : Host.Outcome State Fault Refusal :=
  .next (match s.ctx ctx with
    | none => s
    | some c =>
      match c.dump with
      | none => s
      | some d =>
        if !dumpReady s ctx then s
        else
          let s1 := hostEvent (dumpOut (cancelCopies s ctx) ctx d) (.dump ctx)
          let s2 := s1.modCtx ctx fun c => { c with dump := none }
          let later := putOff s2 ctx ++ d.kills
          let s3 := match d.fatal with | some b => killGang s2 b | none => s2
          let s4 := later.foldl (fun s b => if (s.block b).isSome then killGang s b else s) s3
          let s5 := reissueCopies (if d.resume then liftHalt s4 ctx else s4) ctx
          d.resets.foldl (fun s die => if resettable s die then resetAfterDump s die else s) s5)

end Sys2Proof.Machine
end

