-- ==== Sys2Proof/Machine/Integer.lean ====
section
/-! DEFINITION. Class 0x2, integer instructions (R195 to R202). -/

namespace Sys2Proof.Machine

/-- `iadd` (R196): the exact three-way sum, limited once. -/
def execIadd (o : Opnds) (sat : Bool) (s : State) : Host.Outcome State Fault Refusal :=
  issue (.iadd o sat) s fun it s =>
    let t := it.o.ty
    value3 it s t t t t fun a b c => elementwise t fun i => fit t sat (elem t a i + elem t b i + elem t c i)

/-- `isub` (R196). -/
def execIsub (o : Opnds) (sat : Bool) (s : State) : Host.Outcome State Fault Refusal :=
  issue (.isub o sat) s fun it s =>
    let t := it.o.ty
    value2 it s t t t fun a b => elementwise t fun i => fit t sat (elem t a i - elem t b i)

/-- `imul` (R196). -/
def execImul (o : Opnds) (mode : MulMode) (s : State) : Host.Outcome State Fault Refusal :=
  issue (.imul o mode) s fun it s =>
    let t := it.o.ty
    value2 it s t t (mulTy t mode) fun a b => elementwise t fun i => mulAdd t mode (elem t a i) (elem t b i) 0

/-- `imad` (R196): under `.wide`, C is a 64-bit addend. -/
def execImad (o : Opnds) (mode : MulMode) (s : State) : Host.Outcome State Fault Refusal :=
  issue (.imad o mode) s fun it s =>
    let t := it.o.ty
    let tc := if mode = .wide then wideTy t else t
    value3 it s t t tc (mulTy t mode) fun a b c => mulAdd t mode (elem t a 0) (elem t b 0) (elem tc c 0)

/-- `imin` (R196). -/
def execImin (o : Opnds) (s : State) : Host.Outcome State Fault Refusal :=
  issue (.imin o) s fun it s =>
    let t := it.o.ty
    value2 it s t t t fun a b => elementwise t fun i => fit t false (min (elem t a i) (elem t b i))

/-- `imax` (R196). -/
def execImax (o : Opnds) (s : State) : Host.Outcome State Fault Refusal :=
  issue (.imax o) s fun it s =>
    let t := it.o.ty
    value2 it s t t t fun a b => elementwise t fun i => fit t false (max (elem t a i) (elem t b i))

/-- `iabs` (R196). -/
def execIabs (o : Opnds) (sat : Bool) (s : State) : Host.Outcome State Fault Refusal :=
  issue (.iabs o sat) s fun it s =>
    let t := it.o.ty
    value1 it s t t fun a => elementwise t fun i => fit t sat ((elem t a i).natAbs : Int)

/-- `isad` (R197). -/
def execIsad (o : Opnds) (s : State) : Host.Outcome State Fault Refusal :=
  issue (.isad o) s fun it s =>
    let t := it.o.ty
    value3 it s t t .n32 .b32 fun a b c =>
      ((List.range (tyN t)).foldl (fun x i => x + (elem t a i - elem t b i).natAbs) c) % 2 ^ 32

/-- `isetp` (R190). -/
def execIsetp (o : Opnds) (cmp : ICmp) (comb : Comb) (s : State) : Host.Outcome State Fault Refusal :=
  issue (.isetp o cmp comb) s fun it s => predicate it s it.poisAB (it.compare cmp comb)

/-- `sel` (R199). -/
def execSel (o : Opnds) (negc : Bool) (s : State) : Host.Outcome State Fault Refusal :=
  issue (.sel o negc) s fun it s => valueW it s (it.selected negc)

/-- `lea` (R200): A is 32-bit but in b64; B and D are 64-bit but in b32. -/
def execLea (o : Opnds) (sh : Fin 8) (s : State) : Host.Outcome State Fault Refusal :=
  issue (.lea o sh) s fun it s =>
    let t := it.o.ty
    let wide : Ty := if t = .b32 then .b32 else .b64
    value2 it s t wide wide fun a b => wrapBits (tyW wide) ((b : Int) + elem t a 0 * 2 ^ sh.val)

/-- `mov` (R201). -/
def execMov (o : Opnds) (s : State) : Host.Outcome State Fault Refusal :=
  issue (.mov o) s fun it s => valueW it s fun h l => it.srcW it.o.ty it.o.a h l

/-- `movi` (R201). -/
def execMovi (o : Opnds) (off : BitVec 24) (s : State) : Host.Outcome State Fault Refusal :=
  issue (.movi o off) s fun it s => value it s it.o.ty fun _ => ⟨(off.signExtend 64).toNat, false⟩

/-- `idp4` (R198). -/
def execIdp4 (o : Opnds) (bsign sat : Bool) (s : State) : Host.Outcome State Fault Refusal :=
  issue (.idp4 o bsign sat) s fun it s =>
    let t := it.o.ty
    let tb : Ty := if bsign then .s8x4 else .n8x4
    value3 it s t t .s32 .b32 fun a b c =>
      fit .s32 sat ((List.range 4).foldl (fun x i => x + elem t a i * elem tb b i) (elem .s32 c 0))

end Sys2Proof.Machine
end

