-- ==== Sys2Proof/Machine/Approx.lean ====
section
/-! DEFINITION. The accuracy of the approximate SFU functions (R229): the exact functions in fixed point with 160 fraction
bits or more, and a free result kept where it lies within its bound of the exact one. -/

namespace Sys2Proof.Machine

/-- 1.0 with 160 fraction bits. -/
def fixOne : Int := 2 ^ 160

/-- π/2 with 160 fraction bits. -/
def fixHalfPi : Int := 0x1921fb54442d18469898cc51701b839a252049c11

/-- ln 2 with 160 fraction bits. -/
def fixLn2 : Int := 0xb17217f7d1cf79abc9e3b39803f2f6af40f34326

/-- A product of two numbers with 160 fraction bits. -/
def fixMul (x y : Int) : Int := x * y / fixOne

/-- A power series: `fuel` terms from term `k` on, each from the one before it, each divided by its weight. -/
def series (weight : Nat → Int) (next : Nat → Int → Int) : Nat → Nat → Int → Int
  | 0, _, _ => 0
  | n + 1, k, t => t / weight k + series weight next n (k + 1) (next k t)

/-- sin r for r below π/2. -/
def fixSinSmall (r : Int) : Int :=
  series (fun _ => 1) (fun k t => -fixMul t (fixMul r r) / ((2 * k + 2) * (2 * k + 3) : Nat)) 30 0 r

/-- cos r for r below π/2. -/
def fixCosSmall (r : Int) : Int :=
  series (fun _ => 1) (fun k t => -fixMul t (fixMul r r) / ((2 * k + 1) * (2 * k + 2) : Nat)) 30 0 fixOne

/-- sin (a + q × π/2) for a ≥ 0, by its quadrant. -/
def fixSin (a : Int) (q : Nat) : Int :=
  let r := a % fixHalfPi
  match ((a / fixHalfPi).toNat + q) % 4 with
  | 0 => fixSinSmall r
  | 1 => fixCosSmall r
  | 2 => -fixSinSmall r
  | _ => -fixCosSmall r

/-- e^y for y below 1. -/
def fixExpSmall (y : Int) : Int := series (fun _ => 1) (fun k t => fixMul t y / (k + 1 : Nat)) 45 0 fixOne

/-- tanh a for 0 ≤ a < 10, from e^(2a) as the 32nd power of e^(a/16). -/
def fixTanh (a : Int) : Int :=
  let e := (List.range 5).foldl (fun x _ => fixMul x x) (fixExpSmall (a / 16))
  (e - fixOne) * fixOne / (e + fixOne)

/-- log2 (m × 2^e) for m ≠ 0: the exponent, and the logarithm of the mantissa by the series of atanh. -/
def fixLog2 (m : Nat) (e : Int) : Int :=
  let x : Int := (m * 2 ^ 160 / 2 ^ Nat.log2 m : Nat)
  let z := (x - fixOne) * fixOne / (x + fixOne)
  let ln := 2 * series (fun k => (2 * k + 1 : Nat)) (fun _ t => fixMul t (fixMul z z)) 55 0 z
  expOf m e * fixOne + ln * fixOne / fixLn2

/-- A finite value with `p` fraction bits; exact for binary32 when `p` is 149 or more. -/
def FVal.fixed (p : Nat) : FVal → Option Int
  | .fin n m e =>
    let v : Int := (m * 2 ^ (e + p).toNat : Nat)
    some (if n then -v else v)
  | _ => none

/-- The binary32 value nearest a number with `p` fraction bits. -/
def nearest32 (p : Nat) (v : Int) : Nat := (fmt32.roundFin .rne false (decide (v < 0)) v.natAbs (-(p : Int))).bits

/-- A free pattern where it lies within a bound of the exact result, which has `p` fraction bits; else the value nearest that
result. -/
def approximate (p : Nat) (free : Nat) (exact bound : Int) : Nat :=
  match (fmt32.decode free).fixed p with
  | some v => if (v - exact).natAbs ≤ bound.natAbs then free else nearest32 p exact
  | none => nearest32 p exact

/-- `n` ulp of an exact result with `p` fraction bits: the ulp of its binary32 binade, 2^-149 at least. -/
def ulps (p n : Nat) (exact : Int) : Int := (n * max (2 ^ (Nat.log2 exact.natAbs - 23)) (2 ^ (p - 149)) : Nat)

end Sys2Proof.Machine
end

