-- ==== Sys2Proof/Machine/Lanes.lean ====
section
/-! DEFINITION. Class 0x6: SFU functions and lane exchange (R228 to R233). -/

namespace Sys2Proof.Machine

/-- `frcp` (R229). -/
def execFrcp (o : Opnds) (rm : RM) (s : State) : Host.Outcome State Fault Refusal :=
  issue (.frcp o rm) s fun it s => float1 it s fun f a => f.recip (.ofRM rm) (f.decode a)

/-- `fsqrt` (R229). -/
def execFsqrt (o : Opnds) (rm : RM) (s : State) : Host.Outcome State Fault Refusal :=
  issue (.fsqrt o rm) s fun it s => float1 it s fun f a => f.root (.ofRM rm) (f.decode a)

/-- 1/√(m × 2^e) with 360 fraction bits, truncated, and whether it is exact. -/
def invRoot (m : Nat) (e : Int) : Nat × Bool :=
  let odd := (e % 2).toNat
  let k := 720
  let x := 2 ^ (k + ((odd : Int) - e).toNat) / (m * 2 ^ (odd + (e - odd).toNat))
  let r := isqrt (Nat.log2 x + 2) x
  (r, r * r * m * 2 ^ (odd + (e - odd).toNat) == 2 ^ (k + ((odd : Int) - e).toNat))

/-- `frsq` on a pattern (R229): where the result is not exact, any value within 1 ulp, which the spec leaves open. -/
def frsqOf (x : Nat) : FRes :=
  match fmt32.decode x with
  | .nan n q b w => ⟨fmt32.canonNaN, (FVal.nan n q b w).snanFl⟩
  | .inf n => if n then ⟨fmt32.canonNaN, fInvalid⟩ else ⟨0, 0⟩
  | .fin n m e =>
    if m = 0 then ⟨fmt32.signed n fmt32.infBits, fDivZero⟩
    else if n then ⟨fmt32.canonNaN, fInvalid⟩
    else
      let (r, exact) := invRoot m e
      if exact then ⟨nearest32 360 r, 0⟩
      else ⟨approximate 360 (Config.frsq (BitVec.ofNat 32 x)).toNat r (ulps 360 1 r), fInexact⟩

/-- `frsq` (R229). -/
def execFrsq (o : Opnds) (s : State) : Host.Outcome State Fault Refusal :=
  issue (.frsq o) s fun it s => float1 it s fun _ a => frsqOf a

/-- The integer a finite value is, if it is one. -/
def intOf (m : Nat) (e : Int) (n : Bool) : Option Int :=
  let (v, exact) := roundInt .rz n m e
  if exact then some v else none

/-- Status bits of an approximate result: INEXACT, with OVERFLOW for an infinity and UNDERFLOW for a tiny one. -/
def approxFl (r : Nat) : Nat :=
  fInexact ||| (if r % 2 ^ 31 = fmt32.infBits then fOverflow else 0)
    ||| (if fmt32.isSubnormal r || r % 2 ^ 31 == 0 then fUnderflow else 0)

/-- 2^a with 360 fraction bits, for a below 128 given with 160: below 2^-200 as at 2^-200, far under every bound. -/
def fixEx2 (a : Int) : Int :=
  let i := max (a / fixOne) (-200)
  fixExpSmall (fixMul (a % fixOne) fixLn2) * 2 ^ (i + 200).toNat

/-- `fex2` on a pattern (R229): within 2 ulp. -/
def fex2Of (x : Nat) : FRes :=
  match fmt32.decode x with
  | .nan n q b w => ⟨fmt32.canonNaN, (FVal.nan n q b w).snanFl⟩
  | .inf n => ⟨if n then 0 else fmt32.infBits, 0⟩
  | .fin n m e =>
    let big := !n && decide (128 ≤ m * 2 ^ e.toNat / 2 ^ (-e).toNat)
    let exact := fixEx2 (((FVal.fin n m e).fixed 160).getD 0)
    let approx := approximate 360 ((Config.fex2 (BitVec.ofNat 32 x)).toNat % 2 ^ 31) exact (ulps 360 2 exact)
    let free : FRes := ⟨approx, approxFl approx⟩
    if m = 0 then ⟨0x3F800000, 0⟩
    else if big then ⟨fmt32.infBits, fOverflow ||| fInexact⟩
    else
      match intOf m e n with
      | some v => if -149 ≤ v ∧ v ≤ 127 then ⟨(fmt32.roundFin .rne false false 1 v).bits, 0⟩ else free
      | none => free

/-- `fex2` (R229). -/
def execFex2 (o : Opnds) (s : State) : Host.Outcome State Fault Refusal :=
  issue (.fex2 o) s fun it s => float1 it s fun _ a => fex2Of a

/-- A free value kept within [−top, top], `top` a positive pattern. -/
def boundBy (top : Nat) (x : Word) : Nat :=
  let r := x.toNat
  if top < r % 2 ^ 31 then fmt32.signed (fmt32.neg r) top else r

/-- UNDERFLOW of an inexact result that is subnormal (R61). -/
def tinyFl (r : Nat) : Nat := if fmt32.isSubnormal r then fUnderflow else 0

/-- `flg2` on a pattern (R229): within 2^-22 for a in [0.5, 2], within 2 ulp outside; no logarithm of a positive binary32 value
exceeds 149 in magnitude. -/
def flg2Of (x : Nat) : FRes :=
  match fmt32.decode x with
  | .nan n q b w => ⟨fmt32.canonNaN, (FVal.nan n q b w).snanFl⟩
  | .inf n => if n then ⟨fmt32.canonNaN, fInvalid⟩ else ⟨fmt32.infBits, 0⟩
  | .fin n m e =>
    if m = 0 then ⟨fmt32.signed true fmt32.infBits, fDivZero⟩
    else if n then ⟨fmt32.canonNaN, fInvalid⟩
    else if m = 2 ^ Nat.log2 m then fmt32.convert .rne false (ofInt (expOf m e))
    else
      let exact := fixLog2 m e
      let bound := if exact.natAbs ≤ fixOne.natAbs then 2 ^ (160 - 22) else ulps 160 2 exact
      let r := boundBy 0x43150000 (BitVec.ofNat 32 (approximate 160 (Config.flg2 (BitVec.ofNat 32 x)).toNat exact bound))
      ⟨r, fInexact ||| tinyFl r⟩

/-- `flg2` (R229). -/
def execFlg2 (o : Opnds) (s : State) : Host.Outcome State Fault Refusal :=
  issue (.flg2 o) s fun it s => float1 it s fun _ a => flg2Of a

/-- INEXACT of `fsin`, `fcos` and `ftanh`: for every result other than ±0 and ±1.0 (R229), with UNDERFLOW for a subnormal one
(R61). -/
def unitFl (r : Nat) : Nat := if r % 2 ^ 31 = 0 ∨ r % 2 ^ 31 = 0x3F800000 then 0 else fInexact ||| tinyFl r

/-- A result within 2^-21 of the exact one, and within [-1, 1] (R229). -/
def unitBy (free : Word) (exact : Int) : Nat :=
  boundBy 0x3F800000 (BitVec.ofNat 32 (approximate 160 free.toNat exact (2 ^ (160 - 21))))

/-- `fsin` and `fcos` of a finite value (R229): bounded for magnitudes up to 2^20, free within [-1, 1] beyond. -/
def circular (free : Word) (n : Bool) (m : Nat) (e : Int) (quarter : Nat) : Nat :=
  let a := ((FVal.fin false m e).fixed 160).getD 0
  if 2 ^ 20 * fixOne < a then boundBy 0x3F800000 free
  else unitBy free (if n && quarter == 0 then -fixSin a 0 else fixSin a quarter)

/-- `fsin` on a pattern (R229). -/
def fsinOf (x : Nat) : FRes :=
  match fmt32.decode x with
  | .nan n q b w => ⟨fmt32.canonNaN, (FVal.nan n q b w).snanFl⟩
  | .inf _ => ⟨fmt32.canonNaN, fInvalid⟩
  | .fin n m e =>
    let r := circular (Config.fsin (BitVec.ofNat 32 x)) n m e 0
    if m = 0 then ⟨fmt32.signed n 0, 0⟩ else ⟨r, unitFl r⟩

/-- `fsin` (R229). -/
def execFsin (o : Opnds) (s : State) : Host.Outcome State Fault Refusal :=
  issue (.fsin o) s fun it s => float1 it s fun _ a => fsinOf a

/-- `fcos` on a pattern (R229). -/
def fcosOf (x : Nat) : FRes :=
  match fmt32.decode x with
  | .nan n q b w => ⟨fmt32.canonNaN, (FVal.nan n q b w).snanFl⟩
  | .inf _ => ⟨fmt32.canonNaN, fInvalid⟩
  | .fin n m e =>
    let r := circular (Config.fcos (BitVec.ofNat 32 x)) n m e 1
    if m = 0 then ⟨0x3F800000, 0⟩ else ⟨r, unitFl r⟩

/-- `fcos` (R229). -/
def execFcos (o : Opnds) (s : State) : Host.Outcome State Fault Refusal :=
  issue (.fcos o) s fun it s => float1 it s fun _ a => fcosOf a

/-- `ftanh` on a pattern (R229): ±1.0 exactly from 9.5 on. -/
def ftanhOf (x : Nat) : FRes :=
  match fmt32.decode x with
  | .nan n q b w => ⟨fmt32.canonNaN, (FVal.nan n q b w).snanFl⟩
  | .inf n => ⟨fmt32.signed n 0x3F800000, 0⟩
  | .fin n m e =>
    let t := fixTanh (((FVal.fin false m e).fixed 160).getD 0)
    let r := unitBy (Config.ftanh (BitVec.ofNat 32 x)) (if n then -t else t)
    if m = 0 then ⟨fmt32.signed n 0, 0⟩
    else if 0x41180000 ≤ x % 2 ^ 31 then ⟨fmt32.signed n 0x3F800000, 0⟩
    else ⟨r, unitFl r⟩

/-- `ftanh` (R229). -/
def execFtanh (o : Opnds) (s : State) : Host.Outcome State Fault Refusal :=
  issue (.ftanh o) s fun it s => float1 it s fun _ a => ftanhOf a

/-- The source lane of `xlane` (R231), if it lies in the segment. -/
def sourceLane (mode : XMode) (c b l : Nat) : Option Nat :=
  let w := 32 / 2 ^ min c 5
  let base := l - l % w
  match mode with
  | .idx => some (base + b % w)
  | .rot => some (base + (l - base + b) % w)
  | .xor => some (l ^^^ (b % w))
  | .shift =>
    let src : Int := l + toSigned 32 b
    if (base : Int) ≤ src ∧ src ≤ (base + w - 1 : Nat) then some src.toNat else none

/-- `xlane` (R231): a source outside the segment or the running path gives the lane's own value. -/
def execXlane (o : Opnds) (mode : XMode) (s : State) : Host.Outcome State Fault Refusal :=
  issue (.xlane o mode) s fun it s =>
    let b := fun l => it.src .n32 it.o.b l
    let c := fun l => it.src .n32 it.o.c l
    let bad := fun l => (b l).pois || (c l).pois
    match it.firstLane bad with
    | some _ => raise it s .poison 0 (it.maskWhere bad) 0
    | none => valueW it s fun h l =>
      it.srcW it.o.ty it.o.a h (match sourceLane mode (c l).v (b l).v l with
        | some src => if it.w.run.mask.getLsbD src then src else l
        | none => l)

/-- `match` (R232). -/
def execMatchv (o : Opnds) (all : Bool) (s : State) : Host.Outcome State Fault Refusal :=
  issue (.matchv o all) s fun it s =>
    let a := fun l => it.src it.o.ty it.o.a l
    let same := fun l => it.maskWhere fun j => (a j).v == (a l).v
    value it s .b32 fun l =>
      ⟨if all then (if same l = it.act then it.act.toNat else 0) else (same l).toNat, it.lanes.any fun j => (a j).pois⟩

/-- One step of a fold (R71, R233): floating steps round to nearest, under FLUSH. -/
def foldStep (t : Ty) (op : RedOp) (flush : Bool) (x y : Nat) : FRes :=
  match t with
  | .f32 | .f64 =>
    let f := tyFmt t
    let x := flushIn flush f x
    let y := flushIn flush f y
    match op with
    | .min => flushOut flush f (f.minmax false false x y)
    | .max => flushOut flush f (f.minmax true false x y)
    | _ => flushOut flush f (f.add .rne (f.decode x) (f.decode y))
  | _ =>
    match op with
    | .add => ⟨fit t false (elem t x 0 + elem t y 0), 0⟩
    | .min => ⟨fit t false (min (elem t x 0) (elem t y 0)), 0⟩
    | .max => ⟨fit t false (max (elem t x 0) (elem t y 0)), 0⟩
    | .and => ⟨x &&& y, 0⟩
    | .or => ⟨x ||| y, 0⟩
    | .xor => ⟨x ^^^ y, 0⟩

/-- The identity of an exclusive scan (R233). -/
def foldIdentity (t : Ty) (op : RedOp) : Nat :=
  match op with
  | .min => if t = .f32 ∨ t = .f64 then (tyFmt t).infBits else fit t false (tyHi t)
  | .max => if t = .f32 ∨ t = .f64 then (tyFmt t).signed true (tyFmt t).infBits else fit t false (tyLo t)
  | .and => 2 ^ tyW t - 1
  | _ => 0

/-- The running folds of a list of lane values: the fold up to each, with status bits and poison. -/
def foldsOf (step : Nat → Nat → FRes) : Option FOut → List PV → List FOut
  | _, [] => []
  | none, x :: xs => let r : FOut := ⟨x.v, 0, x.pois⟩; r :: foldsOf step (some r) xs
  | some a, x :: xs =>
    let y := step a.bits x.v
    let r : FOut := ⟨y.bits, a.fl ||| y.fl, a.pois || x.pois⟩
    r :: foldsOf step (some r) xs

/-- The running folds of the active lanes, ascending (R71); a binary32 operand is read under FLUSH (R62). -/
def Iss.folds (it : Iss) (op : RedOp) : List FOut :=
  foldsOf (foldStep it.o.ty op it.flush) none (it.lanes.map fun l =>
    let a := it.src it.o.ty it.o.a l
    ⟨if it.o.ty = .f32 then flushIn it.flush fmt32 a.v else a.v, a.pois⟩)

/-- `redux` (R233). -/
def execRedux (o : Opnds) (opr : RedOp) (s : State) : Host.Outcome State Fault Refusal :=
  issue (.redux o opr) s fun it s => fvalue it s it.o.ty fun _ => ((it.folds opr).getLast?).getD ⟨0, 0, false⟩

/-- `scanx` (R233): every step sets its status bits; with EXCL the fold of the lanes strictly below. -/
def execScanx (o : Opnds) (opr : RedOp) (excl : Bool) (s : State) : Host.Outcome State Fault Refusal :=
  issue (.scanx o opr excl) s fun it s =>
    let fs := it.folds opr
    let fl := match fs.getLast? with
      | some r => r.fl
      | none => 0
    fvalue it s it.o.ty fun l =>
      let i := (it.lanes.filter (· < l)).length
      let r := if excl then (if i = 0 then ⟨foldIdentity it.o.ty opr, 0, false⟩ else (fs[i - 1]?).getD ⟨0, 0, false⟩)
        else (fs[i]?).getD ⟨0, 0, false⟩
      ⟨r.bits, fl, r.pois⟩

end Sys2Proof.Machine
end

