-- ==== Sys2Proof/Machine/Package.lean ====
section
/-! DEFINITION. The package: the time master (R408), power and cooling (R485, R486), boot and firmware (R482, R483),
attestation (R484). -/

namespace Sys2Proof.Machine

/-- Whether the time master, which the contexts share, follows host writes: some resident context has CLOCK_HOST set (R96, R408; which
context's bit counts is open: notes/assumptions/154). -/
def clockHost (s : State) : Bool := s.ctxs.any fun e => e.2.resident && wfld e.2.eff.dutyMode 4 1 == 1

/-- A trace source emits a SYNC (R408); one without a buffer emits nothing (R411). -/
def syncUnit (s : State) (ctx src : Nat) : State :=
  emit (s.setUnit ctx src { s.unit ctx src with started := false }) ctx src none false []

/-- The trace sources of a context: the cores it runs on, and the Registrar (R410). -/
def traceSources (s : State) (ctx : Nat) : List Nat :=
  (s.cores.filter fun e => e.2.ctx == some ctx).map Prod.fst ++ [regStream]

/-- Every trace source of a recording context emits a SYNC (R408). -/
def syncAll (s : State) : State :=
  s.ctxs.foldl (fun s e => if recording s e.1 then (traceSources s e.1).foldl (fun s u => syncUnit s e.1 u) s else s) s

/-- A correction of PTP time (R408): forward by more than 10 ms at once, any other slewed. -/
def correctTime (s : State) (ticks : Int) : State :=
  if 10 * (msTicks : Int) < ticks then syncAll (s.modDev fun d => { d with ptpOff := d.ptpOff + ticks, slew := 0 })
  else s.modDev fun d => { d with slew := ticks }

/-- PPS_INPUT (R408): the edge marks the start of a second, by the time of day that host firmware supplies. -/
def execPpsInput (second : BitVec 48) (s : State) : Host.Outcome State Fault Refusal :=
  .next (if clockHost s then s else correctTime s ((second.toNat * Config.ticksPerSecond : Nat) - (s.ptp : Int)))

/-- TIME_CORRECTION (R408). -/
def execTimeCorrection (ticks : Int) (s : State) : Host.Outcome State Fault Refusal := .next (correctTime s ticks)

/-- The power registers' reading at a temperature (R485): POWER_W is a physical reading. -/
def readPower (s : State) (temp : Nat) : State :=
  s.modDev fun d => { d with powerStat := BitVec.ofNat 64 ((Config.powerReading d.now).toNat % 2 ^ 13 + temp % 256 * 2 ^ 13
                                                            + gateOf s * 2 ^ 21) }

/-- HOT_C as last read. -/
def hotC (s : State) : Nat := fld s.dev.powerStat.toNat 13 8

/-- THERMAL_THROTTLE (R486): above 100 °C, gating is added. -/
def execThermalThrottle (temp gate : Nat) (s : State) : Host.Outcome State Fault Refusal :=
  .next (if 100 < temp ∧ temp < 115 then readPower (s.modDev fun d => { d with thermal := min 63 gate }) temp else s)

/-- THERMAL_THROTTLE_RELEASE (R486): at 95 °C the added gating ends. -/
def execThermalThrottleRelease (s : State) : Host.Outcome State Fault Refusal :=
  .next (readPower (s.modDev fun d => { d with thermal := 0 }) 95)

/-- THERMAL_TRIP (R486): at 115 °C the error is recorded, and the module powers off. -/
def execThermalTrip (s : State) : Host.Outcome State Fault Refusal :=
  .next ((readPower (errRecord s 0x14 0 0xFFFF 0xFF 0 0xFFFFFFFF 0xFFFFFFFF) 115).modDev fun d => { d with powered := false })

/-- The limit in force (R485): values outside 1,000 to 4,200 act as 4,200. -/
def limitW (v : DWord) : Nat :=
  let x := fld v.toNat 0 13
  if 1000 ≤ x ∧ x ≤ 4200 then x else 4200

/-- POWER_LIMIT_WRITE (R485): how many cycles of each 64 hold the draw under a limit is open, and none at the full power. -/
def execPowerLimitWrite (val : BitVec 64) (s : State) : Host.Outcome State Fault Refusal :=
  .next (let v : DWord := BitVec.ofNat 64 (fld val.toNat 0 13)
    let s1 := s.modDev fun d => { d with powerLimit := v,
                                         gate := if limitW v = 4200 then 0 else Config.freeNat s.free 0 % 64 }
    readPower s1.takeFree (hotC s))

/-- Why an image fails step 2 of a boot, as FAIL codes it; 0 where it passes (R482, R484). -/
def imageFail (d : Device) (i : FirmwareImage) : Nat :=
  if !Config.rsaVerifies i then 1
  else if !Config.slhVerifies i then 2
  else if i.version < d.rollback then 3
  else 0

/-- An image of a flash bank. -/
def bankImage (d : Device) (b : Nat) : FirmwareImage := (d.flash[b]?).getD emptyImage

/-- What a boot finds in flash (R482 step 2, R483): the bank it boots and FAIL, or FAIL alone where it stops. A bank written
since the last boot is tried first, then the bank before it. -/
def bootBank (d : Device) : Except Nat (Nat × Nat) :=
  let prev := d.active
  let old := imageFail d (bankImage d prev)
  if d.update then
    if imageFail d (bankImage d (1 - prev)) = 0 then .ok (1 - prev, 0)
    else if old = 0 then .ok (prev, 4)
    else .error old
  else if old = 0 then .ok (prev, 0)
  else .error old

/-- Cores that are fenced. -/
def fencedCores (s : State) : List Nat := (List.range 256).filter fun c => (s.core c).fenced

/-- BOOT_STATUS with its fields (R484). -/
def bootWord (step fail : Nat) (ready : Bool) : DWord := BitVec.ofNat 64 (step + ready.toNat * 2 ^ 8 + fail * 2 ^ 12)

/-- Memory after a module reset: the keys are gone, so what DEV memory holds cannot be read (R259): every sector's contents are
unspecified until it is written. -/
def Mem.afterReset (m : Mem) : Mem := { m with keys := [], vague := [(0, 2 ^ 43)] }

/-- The machine as a module reset leaves it before step 1 (R482): flash, fuses, the fencing store and the non-volatile errors
stay (R468, R474), time does not go back (R408), all else is as after reset. -/
def resetModule (s : State) : State :=
  let d := s.dev
  let r := Device.reset
  { State.reset with
    agenda := s.agenda
    free := s.free
    mem := s.mem.afterReset
    cores := (fencedCores s).foldl (fun l c => aput c { Core.reset with fenced := true, resetAt := d.now } l)
      ((List.range 256).foldl (fun l c => aput c { Core.reset with resetAt := d.now } l) [])
    dev := { r with now := d.now, ptpOff := d.ptpOff, flash := d.flash, active := d.active, update := d.update,
                    rollback := d.rollback, nvErr := d.nvErr, replace := d.replace, events := d.events,
                    degraded := d.degraded
                    links := d.links.map fun e => (e.1, { Link.reset with half := e.2.half }) } }

/-- The errors of the non-volatile store are appended to the log again (R474). -/
def appendErrors (s : State) : State :=
  s.modDev fun d => { d.nvErr.foldl (fun d bs => { d with errLog := aput (d.errCount % 255) bs d.errLog, errCount := d.errCount + 1 }) d
    with nvErr := [] }

/-- Steps 3 to 7 of a boot (R482). -/
def bootFrom (s : State) (ev : BootEvent) (bank fail : Nat) : State :=
  let s1 := s.modDev fun d =>
    { d with active := bank, update := false, keys := [(0, 0)], master := if ev.takeover then 9 else 8 }
  if !ev.trainOk then s1.modDev fun d => { d with bootStatus := bootWord 4 5 false }
  else
    let bad := (List.range 256).filter fun c => ev.failedCores.contains c && !(s1.core c).fenced
    let s2 := bad.foldl fenceCore s1
    let m := Config.measure (bankImage s2.dev bank) (fencedCores s2)
    appendErrors (s2.modDev fun d => { d with measured := m, bootStatus := bootWord 7 fail true })

/-- BOOT_SEQUENCE (R482). -/
def execBootSequence (ev : BootEvent) (s : State) : Host.Outcome State Fault Refusal :=
  .next (let s1 := resetModule s
    match bootBank s1.dev with
    | .error f => s1.modDev fun d => { d with bootStatus := bootWord 2 f false }
    | .ok (bank, fail) => bootFrom s1 ev bank fail)

/-- FIRMWARE_UPDATE (R483): the inactive bank is written; one that verifies is tried at the next boot. -/
def execFirmwareUpdate (image : FirmwareImage) (s : State) : Host.Outcome State Fault Refusal :=
  .next (s.modDev fun d =>
    { d with flash := d.flash.set (1 - d.active) image, update := imageFail d image == 0 })

/-- Whether the device has completed its boot (R482 step 7). -/
def isReady (s : State) : Bool := fld s.dev.bootStatus.toNat 8 1 == 1

/-- DEV_HEALTH (R468). -/
def healthWord (s : State) : Nat :=
  s.dev.replace.toNat + (s.dev.degraded || !(fencedCores s).isEmpty).toNat * 2 + (fencedCores s).length * 2 ^ 8

/-- The attestation report (R484): the nonce, the measurements, DEV_HEALTH and the fencing bitmap. -/
def attestation (s : State) (nonce : BitVec 256) : List Byte :=
  leBytes 32 nonce.toNat ++ s.dev.measured ++ leBytes 8 (healthWord s)
    ++ leBytes 32 ((fencedCores s).foldl (fun a c => a + 2 ^ c) 0)

/-- SPDM_MEASUREMENT_REQUEST (R484): the report and its signatures, once the measurements of a boot exist. -/
def execSpdmMeasurementRequest (nonce : BitVec 256) (s : State) : Host.Outcome State Fault Refusal :=
  .next (if isReady s then
      let r := attestation s nonce
      s.modDev fun d => { d with hostData := r ++ Config.sign r }
    else s)

end Sys2Proof.Machine
end

