-- ==== Sys2Proof/Machine/Registers.lean ====
section
/-! DEFINITION. What the host and peer devices do to the device: memory accesses (R260, R319), debug registers (R426), contexts
(R259). -/

namespace Sys2Proof.Machine

/-- The key under which an agent outside the device's contexts meets a sector: its own, but no key for a sector under an erased one,
which is unreadable (R259). -/
def openKey (s : State) (t : Nat) : Nat :=
  match alook t s.mem.keys with
  | some key => if s.dev.withheld.contains key then 256 else key
  | none => 0

/-- A byte that such an agent reads. -/
def openByte (s : State) (k : Nat) : Byte := s.mem.byteUnder (openKey s (k / 32)) s.free k

/-- Whether such a read meets poison; an unspecified value carries none (R258). -/
def openPois (s : State) (k n : Nat) : Bool := (sectors k n).any fun t => s.mem.poisonedUnder (openKey s t) (32 * t) 32

/-- Bytes of such a read, then one byte that is 1 where the data are poisoned (R471). -/
def openRead (s : State) (k n : Nat) : State :=
  let bs := (List.range n).map fun i => openByte s (k + i)
  (s.modDev fun d => { d with hostData := bs ++ [if openPois s k n then 1 else 0] }).takeFree

/-- Memory after a write of such an agent: what an unreadable sector keeps of its old contents is unspecified, and sectors that
it replaces whole, or that were unreadable, carry no context's key any more (R259). `key` gives the key it meets a sector under. -/
def Mem.openWrite (m : Mem) (key : Nat → Nat) (free k : Nat) (bs : List Byte) : Mem :=
  let m0 := (sectors k bs.length).foldl (fun m t => m.settleSector (key t) free t) m
  let m1 := (m0.setBytes k bs).storePois k bs.length false
  { m1 with keys := m1.keys.filter fun e =>
      !decide (k ≤ 32 * e.1 ∧ 32 * e.1 + 32 ≤ k + bs.length) && !((sectors k bs.length).contains e.1 && key e.1 == 256) }

/-- See `Mem.openWrite`: the write reaches its coherence point (R319, R326), and may set a queue's QSTATE (R79). -/
def openWrite (s : State) (k : Nat) (bs : List Byte) : State :=
  if bs.isEmpty then s
  else noteQstate (s.putBy none none k bs.length false fun m => m.openWrite (openKey s) s.free k bs) k bs.length

/-- What a peer's atomic makes of a value (R260, R347, R348): its operands stand in the access's data. -/
def peerStep (op : PeerOp) (data : List Byte) (v : Nat) : Option (Nat × Nat) :=
  match op with
  | .atom a t => some (tyW t / 8, atomStep a t v (leNat (data.take (tyW t / 8))))
  | .cas t =>
    let n := tyW t / 8
    some (n, if v = leNat (data.take n) then leNat ((data.drop n).take n) else v)
  | .comp => some (8, pairAdd v (fieldOf data 0 4) (fieldOf data 4 4))
  | .read | .write => none

/-- A peer's atomic at this device's L2 (R260): the old value is its answer. -/
def peerAtomic (s : State) (k n : Nat) (op : PeerOp) (data : List Byte) : State :=
  let old := leNat ((List.range n).map fun i => openByte s (k + i))
  match peerStep op data old with
  | some (m, x) => if m = n ∧ k % n = 0 then openWrite (openRead s k n) k (leBytes n x) else s
  | none => s

/-- Whether a range lies in a memory (R238, R243). -/
def inSpace (sp : Space) (pa n : Nat) : Bool :=
  decide (0 < n) && (match sp with
    | .dev => decide (pa + n ≤ Config.devBytes)
    | _ => decide (pa + n ≤ 2 ^ 48))

/-- HOST_MEMORY_ACCESS (R319): CXL.mem and CXL.cache are enabled with READY (R482). -/
def execHostMemoryAccess (acc : HostAccess) (s : State) : Host.Outcome State Fault Refusal :=
  .next (if !isReady s || !inSpace acc.space acc.pa acc.len || acc.space == .peer then s
    else
      let k := memKey acc.space acc.pa
      if acc.write then openWrite s k (acc.data.take acc.len) else openRead s k acc.len)

/-- PEER_MEMORY_ACCESS (R260): a peer's access to this device's memory; over a link that is being reset or is down it does not
arrive (R479). -/
def execPeerMemoryAccess (acc : PeerAccess) (s : State) : Host.Outcome State Fault Refusal :=
  .next (let l := s.link acc.port
    if !isReady s || !inSpace .dev acc.pa acc.len || decide (18 ≤ acc.port) || l.down || l.retrain.isSome then s
    else
      let k := memKey .dev acc.pa
      match acc.op with
      | .read => openRead s k acc.len
      | .write => openWrite s k (acc.data.take acc.len)
      | op => peerAtomic s k acc.len op acc.data)

/-- Eight bytes of the device error log's area (R474): COUNT, reserved bytes, and record `i` at 32 × (i mod 255) from 0x3020. -/
def logWord (s : State) (off : Nat) : DWord :=
  if off = 0x3000 then BitVec.ofNat 64 s.dev.errCount
  else if off < 0x3020 then 0
  else BitVec.ofNat 64 (fieldOf (sget [] s.dev.errLog ((off - 0x3020) / 32)) ((off - 0x3020) % 32) 8)

/-- Eight bytes of the debug registers (R426): the fields that the host may read; BP and WP of the context that DBG_CTX names. -/
def debugWord (s : State) (off : Nat) : DWord :=
  let cells := fun (f : Ctx → Sparse DWord) (i : Nat) => match s.ctx s.dbgContext with | some c => sget 0 (f c) i | none => 0
  if off = 0x2000 then s.dev.dbgCtx
  else if off = 0x2008 then dbgHaltValue s
  else if 0x2010 ≤ off ∧ off < 0x2050 then cells Ctx.bp ((off - 0x2010) / 8)
  else if 0x2050 ≤ off ∧ off < 0x2090 then cells Ctx.wp ((off - 0x2050) / 8)
  else if off = 0x2090 then s.dev.dbgCmd
  else if 0x2100 ≤ off ∧ off < 0x2180 then
    BitVec.ofNat 64 (getData s (off - 0x2100) 8)
  else 0

/-- What the host reads in the eight bytes of the management window at an offset (R394, R426, R468, R474, R478, R484, R485). Offsets
without a register read 0. -/
def windowRead (s : State) (off : Nat) : DWord :=
  if off = 0 then s.dev.bootStatus
  else if off = 0x100 then BitVec.ofNat 64 (healthWord s)
  else if 0x120 ≤ off ∧ off < 0x140 then
    BitVec.ofNat 64 ((fencedCores s).foldl (fun a c => if c / 64 = (off - 0x120) / 8 then a + 2 ^ (c % 64) else a) 0)
  else if off = 0x200 then BitVec.ofNat 64 (s.dev.partDie + (s.dev.partBusy.contains s.dev.partDie).toNat * 2 ^ 9)
  else if off = 0x300 then s.dev.powerLimit
  else if off = 0x308 then s.dev.powerStat
  else if off = 0x1000 then s.dev.migClaim
  else if 0x2000 ≤ off ∧ off < 0x2200 then debugWord s off
  else if 0x3000 ≤ off ∧ off < 0x5000 then logWord s off
  else 0

/-- REGISTER_WRITE (R426): the debug registers that have no event of their own; reserved bits read as 0. -/
def execRegisterWrite (offset : Nat) (val : BitVec 64) (s : State) : Host.Outcome State Fault Refusal :=
  .next (let v := val.toNat
    let c := s.dbgContext
    if offset = 0x2000 then s.modDev fun d => { d with dbgCtx := BitVec.ofNat 64 (v % 64) }
    else if 0x2010 ≤ offset ∧ offset < 0x2050 ∧ offset % 8 = 0 then
      s.modCtx c fun x => { x with bp := aput ((offset - 0x2010) / 8) (BitVec.ofNat 64 (fld v 3 53 * 8 + v % 2)) x.bp }
    else if 0x2050 ≤ offset ∧ offset < 0x2090 ∧ offset % 8 = 0 then
      let i := (offset - 0x2050) / 8
      s.modCtx c fun x => { x with wp := aput i (BitVec.ofNat 64 (if i % 2 = 0 then v % 2 ^ 56 else v % 2 ^ 8)) x.wp }
    else if 0x2100 ≤ offset ∧ offset < 0x2180 ∧ offset % 8 = 0 then putData s (offset - 0x2100) (leBytes 8 v)
    else s)

/-- A queue as it is registered (R75). -/
def Queue.fresh (qcb : DWord) : Queue :=
  { qcb := qcb, seen := 0, entries := [], stuck := none, pushers := [], slots := [], banks := [], lastGather := 0 }

/-- A word of a context's configuration is registered; reserved bits stay 0 (R6, R96, R102, R131, R244, R386, R412). -/
def CtxCfg.put (c : CtxCfg) (f : CtxField) (v : DWord) : CtxCfg :=
  let w : Word := BitVec.ofNat 32 v.toNat
  match f with
  | .ptRoot => { c with ptRoot := v }
  | .placeCfg => { c with placeCfg := w &&& 0x00FF1F0F }
  | .issueCfg => { c with issueCfg := w &&& 0x001F0101 }
  | .bankCfg => { c with bankCfg := w &&& 0x3F3F }
  | .provCfg => { c with provCfg := w &&& 0x1FF }
  | .dutyMode => { c with dutyMode := w &&& 0x7F }
  | .handlerPc => { c with handlerPc := v }
  | .hframeBase => { c with hframeBase := v }
  | .poolBase => { c with poolBase := v }
  | .flogBase => { c with flogBase := v }
  | .saveBase => { c with saveBase := v }
  | .saveBytes => { c with saveBytes := v }
  | .dbgCfg => { c with dbgCfg := w &&& 1 }
  | .frontBase => { c with frontBase := v }
  | .annexBase => { c with annexBase := v }
  | .predBase => { c with predBase := v }
  | .vitBase => { c with vitBase := v }
  | .traceBase => { c with traceBase := v }
  | .traceCfg => { c with traceCfg := w &&& 0x00FFFF1F }
  | .counterBase => { c with counterBase := v }
  | .dumpBase => { c with dumpBase := v }
  | .dumpBytes => { c with dumpBytes := v }
  | .dumpFallback => { c with dumpFallback := v }
  | .dumpCfg => { c with dumpCfg := w &&& 1 }
  | .queue _ => c

/-- A word is registered with a context: a field, which takes effect at the next switch-in, or a queue of its table, which holds
at most 64 (R75, R96, R412). -/
def Ctx.register (c : Ctx) (f : CtxField) (v : DWord) : Ctx :=
  match f with
  | .queue q => if q < 64 then { c with queues := aput q (Queue.fresh v) c.queues } else c
  | _ => { c with cfg := c.cfg.put f v }

/-- Queues of the device. -/
def State.queueCount (s : State) : Nat := s.ctxs.foldl (fun n e => n + e.2.queues.length) 0

/-- Queue numbers that a description adds to a context's table. -/
def newQueues (s : State) (ctx : Nat) (words : List (CtxField × BitVec 64)) : List Nat :=
  ((words.filterMap fun w => match w.1 with | .queue q => some q | _ => none).eraseDups).filter fun q =>
    decide (q < 64) && (s.queue ctx q).isNone

/-- The queues a description would leave on the device: at most 1,024 are held (R75). -/
def queuesFit (s : State) (ctx : Nat) (words : List (CtxField × BitVec 64)) : Bool :=
  decide (s.queueCount + (newQueues s ctx words).length ≤ 1024)

/-- Whether a key can be given to a new context (R258, R259): not firmware's, not another context's, and no sector carries it
from a destroyed one. -/
def keyFree (s : State) (key : Nat) : Bool :=
  decide (0 < key ∧ key < 256) && (alook key s.dev.keys).isNone && !(s.mem.keys.any fun e => e.2 == key)

/-- CONTEXT_CREATION (R237, R259): the key is installed and the registered words take effect. For a context that exists, the
words are registered again, under the key it has (R96, R412). -/
def execContextCreation (ctx : Nat) (desc : ContextFields) (s : State) : Host.Outcome State Fault Refusal :=
  .next (if !isReady s || decide (64 ≤ ctx) || !queuesFit s ctx desc.words then s
    else match s.ctx ctx with
      | some c =>
        if c.key ≠ desc.key then s
        else s.modCtx ctx fun c => desc.words.foldl (fun c w => c.register w.1 w.2) c
      | none =>
        if !keyFree s desc.key then s
        else
          let c := desc.words.foldl (fun c w => c.register w.1 w.2) { Ctx.fresh CtxCfg.reset desc.key with resident := false }
          let s1 := { s with ctxs := aput ctx { c with eff := c.cfg } s.ctxs }
          s1.modDev fun d => { d with keys := aput desc.key ctx d.keys, withheld := d.withheld.filter (· != desc.key) })

/-- Kill every grid of a context that has not finished (R94). -/
def killAll (s : State) (ctx : Nat) : State :=
  (gridsOf s ctx).foldl (fun s e => if e.2.status.finished then s else killGrid s ctx e.1) s

/-- CONTEXT_DESTRUCTION (R259): what runs is killed, the cores pass on, and the key is erased; until the sectors that carry it
are rewritten it is withheld. -/
def execContextDestruction (ctx : Nat) (s : State) : Host.Outcome State Fault Refusal :=
  .next (match s.ctx ctx with
    | none => s
    | some c =>
      let s1 := killAll s ctx
      let s2 := if c.resident then leaveSome s1 ctx (List.range 256) else s1
      let live := (s2.blocks.filter fun e => e.2.ctx == ctx).map Prod.fst
      { s2 with
        ctxs := adel ctx s2.ctxs
        grids := s2.grids.filter fun e => e.1 / 2 ^ 24 != ctx
        blocks := s2.blocks.filter fun e => e.2.ctx != ctx
        warps := s2.warps.filter fun e => !live.contains (blkOf e.1)
        dev := { s2.dev with keys := adel c.key s2.dev.keys
                             withheld := nins c.key s2.dev.withheld
                             wt := s2.dev.wt.filter fun e => e.2.ctx != ctx
                             claims := s2.dev.claims.filter fun x => x.ctx != ctx
                             conflicts := s2.dev.conflicts.filter fun x => x.ctx != ctx } })

end Sys2Proof.Machine
end

