-- ==== Sys2Proof/Machine/Sched.lean ====
section
/-! DEFINITION. Whose turn it is when the agenda does not say: a deterministic choice, one of those the spec allows; and the
passing of time (R138, R408). -/

namespace Sys2Proof.Machine

/-- Whether a warp could take a turn now. -/
def runnable (s : State) (e : Nat × Warp) : Bool :=
  match e.2.loc with
  | none => false
  | some (core, _) => !cannotIssue e.2 && !coreHeld s core

/-- Whether a warp's turn would give it a port, or it needs none (R139 to R141, R145). -/
def seated (s : State) (e : Nat × Warp) : Bool :=
  match e.2.loc with
  | none => false
  | some (core, _) => runnable s e && (e.2.promoted || e.2.sched.port.isSome
      || (dispatchable s core e.1 e.2 && (bindPort s core e.1 e.2).isSome))

/-- The warps that may take a turn: those with a port or none to wait for, else any that is runnable. -/
def turnWarps (s : State) : List (Nat × Warp) :=
  let ws := s.warps.filter (seated s)
  if ws.isEmpty then s.warps.filter (runnable s) else ws

/-- The first of some warps in the order of R141. -/
def leastRecent (ws : List (Nat × Warp)) : Option (Nat × Warp) :=
  ws.foldl (fun (b : Option (Nat × Warp)) e =>
    match b with
    | none => some e
    | some x => if portBefore e.2 x.2 then some e else some x) none

/-- The warp whose turn it is: by R141, and every other time by rotation, so that one that cannot issue its next word keeps
nobody waiting. -/
def turnWarp (s : State) : Option (Nat × Nat) :=
  let ws := turnWarps s
  (if s.dev.now % 4 = 0 then leastRecent ws else ws[s.dev.now / 4 % max 1 ws.length]?).bind fun e => e.2.loc

/-- What the device may do next about a warp. -/
def warpEvents (e : Nat × Warp) : List Instr :=
  match e.2.loc with
  | none => []
  | some (c, k) =>
    (if e.2.pend.isEmpty then [] else [.longLatencyComplete c k 0])
      ++ (match e.2.wait with
        | none => []
        | some (.nap _) => [.napExpiry c k]
        | some (.tlbinv _ _ _) => [.tlbinvComplete c k]
        | some (.icinv _) => [.icinvComplete c k]
        | some _ => [.waitComplete c k])
      ++ (if e.2.async.isEmpty then [] else [.asyncFaultDelivery c k])
      ++ (if e.2.spilled.isEmpty then [] else [.cellRefill c k])
      ++ (if e.2.sched.engine = .demoting then [.demotionComplete c k] else [])
      ++ (if e.2.sched.readySince.isSome && !e.2.sched.aged then [.warpAged c k] else [])
      ++ (if e.2.sched.deferSince.isSome then [.fairnessDeferExpiry c k] else [])
      ++ (if e.2.sched.fairStart.isSome && !e.2.waiting.isEmpty then [.fairnessSwitch c k] else [])
      ++ ((List.range e.2.slices.length).flatMap fun i =>
            if ((e.2.slices[i]?).getD none).isSome && (fld e.2.alive.toNat (8 * i) 8 == 0) then [.sliceRetire c k i] else [])
      ++ [.warpStopPoint c k, .preemptBudgetExpiry c k]

/-- What it may do about a core's engines, miss table, Docent and Curator visit. -/
def coreEvents (e : Nat × Core) : List Instr :=
  (match e.2.copies with
    | [] => []
    | c :: cs => .copyCommandStart e.1 :: (c :: cs).flatMap fun c => [.copyCommandComplete e.1 c.seq, .copyCommandFault e.1 c.seq])
    ++ (if e.2.ctx.isSome then [.docentEvaluation e.1, .missStatusReissue e.1] else [])
    ++ (if e.2.missResv.isSome then [.missStatusReservationExpiry e.1] else [])
    ++ (if e.2.draining.isSome then [.curatorDrainExpiry e.1] else [])
    ++ (if e.2.scanning.isSome then [.curatorScanComplete e.1 true] else [])
    ++ (if e.2.engReset.isSome then [.engineResetComplete false e.1] else [])

/-- What it may do about a pair's engines. -/
def pairEvents (e : Nat × Pair) : List Instr :=
  (if e.2.mq.isEmpty then [] else [.matrixCommandExecute e.1, .matrixCommandComplete e.1])
    ++ (if e.2.eq.isEmpty then [] else [.epilogueCommandExecute e.1, .epilogueCommandComplete e.1])
    ++ (if e.2.clearing.isEmpty then [] else [.accumGranulesCleared e.1])
    ++ (if e.2.engReset.isSome then [.engineResetComplete true e.1] else [])

/-- What the Registrar may do about a queue. -/
def queueEvents (ctx : Nat) (e : Nat × Queue) : List Instr :=
  [.queueTailObserve ctx e.1, .queueEntryConsume ctx e.1]
    ++ (if e.2.entries.any fun x => !x.acted || (x.kind == 4 && !x.done) then
        [.launchEntry ctx e.1, .shapeEntry ctx e.1, .replayEntry ctx e.1, .waitcEntry ctx e.1, .signalEntry ctx e.1] else [])
    ++ ((List.range e.2.entries.length).map fun k => .queueEntryComplete ctx e.1 k)
    ++ [.proxyForward ctx e.1, .proxyForwardTimer ctx e.1]

/-- What it may do about a context. -/
def ctxEvents (e : Nat × Ctx) : List Instr :=
  .blockPlacement e.1 :: e.2.queues.flatMap (queueEvents e.1)
    ++ (e.2.units.flatMap fun u => if u.2.buf.isEmpty then [] else [.traceDrain e.1 u.1, .traceDrainTimer e.1 u.1])
    ++ (e.2.vits.flatMap fun v => [.vtopenCopyComplete e.1 v.1, .publishAckComplete e.1 v.1])
    ++ (if e.2.dump.isSome then [.dumpWrite e.1] else [])
    ++ [.counterSweep e.1]

/-- Contexts that the Registrar switches in for a lock (R358): one of their blocks holds it, and a resident warp waits for it. -/
def lockNeeds (s : State) : List Instr :=
  (s.ctxs.filter fun c => !c.2.resident && s.blocks.any fun b => b.2.ctx == c.1 && b.2.locks.any fun k =>
    (lockWaiters s k).any fun x => x.2.2).map fun c => .contextSwitchIn c.1

/-- What it may do about a block. A priority conflict that the host has been told of is not reported again (R96). -/
def blockEvents (told : List HostEvent) (e : Nat × Block) : List Instr :=
  (if e.2.st = .ended then [.blockRetire e.1] else [])
    ++ (if e.2.preempt.isSome then [.saveSpaceRetry e.1]
      else [.timeSliceExpiry e.1, .preemptionRequest e.1 .gwait]
        ++ (if told.contains (.priority e.1) then [] else [.preemptionRequest e.1 .priority]))

/-- What may happen to the package's links, dies and pages. -/
def deviceEvents (d : Device) : List Instr :=
  (d.links.flatMap fun l => if l.2.retrain.isSome then [.linkRetrainComplete l.1] else [])
    ++ (d.partBusy.map fun die => .partitionResetComplete die [])
    ++ (d.claims.map fun c => .migClaimExpiry c.ctx c.page)
    ++ (d.conflicts.map fun c => .pagePinExpiry c.ctx c.page)

/-- Everything the device may do next of its own accord; an event that is not enabled leaves the state as it is. -/
def ownEvents (s : State) : List Instr :=
  s.warps.flatMap warpEvents ++ s.cores.flatMap coreEvents ++ s.pairs.flatMap pairEvents ++ s.ctxs.flatMap ctxEvents
    ++ s.blocks.flatMap (blockEvents s.dev.events) ++ s.grids.map (fun g => .priorityAgeing (g.1 / 2 ^ 24) (g.1 % 2 ^ 24))
    ++ deviceEvents s.dev ++ (List.range 8).map .curatorVisitStart ++ lockNeeds s

/-- The line of a buffered store to memory. -/
def Buffered.line (b : Buffered) : Option Nat :=
  match b.spot with
  | .mem k => some (lineOf k)
  | .scr _ _ => none

/-- Stores that may leave a store buffer, lines that may leave an L1 (R241, R333), and for each command of a copy engine a piece that
may move (R250), which goes by rotation. -/
def memTurns (s : State) : List Turn :=
  (s.warps.flatMap fun e => match e.2.loc with
    | some (c, k) => (List.range e.2.sbuf.length).map (.storeOut c k)
    | none => [])
    ++ s.cores.flatMap fun e =>
      ((e.2.dirty.filterMap Buffered.line ++ e.2.old.map fun o => lineOf o.1).eraseDups.map (.evict e.1))
        ++ e.2.copies.map fun c => .copyMove e.1 c.seq (s.dev.now / 2 % max 1 (piecesLeft s c).length)

/-- The event whose turn it is by rotation. -/
def ownTurn (s : State) : Turn :=
  let ts := (ownEvents s).map .event ++ memTurns s
  (ts[s.dev.now / 2 % max 1 ts.length]?).getD (.time 1)

/-- Cores on which the Docent has something to evaluate in this cycle (R154). -/
def docentDue (s : State) : List Nat :=
  (s.cores.filter fun e => e.2.ctx.isSome && s.clock e.1 % 8 == 0
    && (s.warpsOn e.1).any fun w => !w.2.onHerd || w.2.sched.candSince.isSome
      || (promotable s w.1 w.2 && decide (docentClass s w.1 e.1 w.2 < 5))).map Prod.fst

/-- Samples that are due (R423). -/
def samplesDue (s : State) : List Instr :=
  (s.cores.filter fun e => e.2.held.isNone && (match e.2.ctx with | some c => recording s c | none => false)).flatMap fun e =>
    ([true, false].filterMap (sampleSlot s e.1)).map (.traceSample e.1)

/-- Escapes and sweeps that the device may not put off (R417, R425). -/
def timersDue (s : State) : List Instr :=
  (s.ctxs.flatMap fun c => (c.2.units.filter fun u => overheld s c.1 u.2).map fun u => .losslessEscape c.1 u.1)
    ++ (s.ctxs.filter fun c => sweepDue s c.1 c.2).map fun c => .counterSweep c.1

/-- What is due in this cycle: samples, escapes and sweeps, and one of the Docent's evaluations. -/
def dueNow (s : State) : Option Instr :=
  ((samplesDue s ++ timersDue s).head?).orElse fun _ =>
    let ds := docentDue s
    (ds[s.dev.now / 8 % max 1 ds.length]?).map .docentEvaluation

/-- The turn of the device's own choice (DESIGN CHOICE, notes/assumptions/1): what is due; else words on even cycles, events on odd
ones and where no warp can issue. -/
def autoTurn (s : State) : Turn :=
  match dueNow s with
  | some i => .event i
  | none =>
    match turnWarp s with
    | some (c, k) => if s.dev.now % 2 = 0 then .word c k else ownTurn s
    | none => ownTurn s

/-- The next turn, and the state it is taken in. -/
def nextTurn (s : State) : Turn × State :=
  match s.agenda with
  | t :: ts => (t, { s with agenda := ts })
  | [] => (autoTurn s, s)

/-- Whether a buffered store waits for a link that is being reset (R260). -/
def Buffered.waits (s : State) (b : Buffered) : Bool :=
  match b.spot with
  | .mem k => linkWaits s k
  | .scr .. => false

/-- The `i`-th store of a warp's buffer leaves it, where no earlier one goes before it (R327, R333). -/
def storeOut (s : State) (core slot i : Nat) : State :=
  match (s.warpAt core slot).bind fun wid => (s.warp wid).map fun w => (wid, w) with
  | none => s
  | some (wid, w) =>
    match w.sbuf[i]? with
    | none => s
    | some b =>
      if (w.sbuf.take i).any (fun a => a.before b) || b.waits s then s
      else (s.modWarp wid fun w => { w with sbuf := w.sbuf.eraseIdx i }).leaveBuffer core b

/-- A line leaves a core's L1 (R241): its dirty bytes are written back, and nothing older of it can be read. -/
def evictLine (s : State) (core line : Nat) : State :=
  let mine := fun (b : Buffered) => b.meets (128 * line) 128
  if (s.core core).dirty.any fun b => mine b && b.waits s then s
  else (landDirty s core mine).modCore core fun c => c.refreshLines (128 * line) 128

/-- A command of a copy engine moves a piece (R250); a provisional block's waits for room (R111). -/
def copyTurn (s : State) (core : Nat) (sq : Word) (i : Nat) : State :=
  match runningCopy s core sq with
  | none => s
  | some c =>
    let s1 := copyStep s core sq i
    if overQuota s s1 (blkOf c.wid) then s else s1

/-- What a turn comes to. -/
def readyOf (t : Turn) (s : State) : Ready :=
  match t with
  | .word core slot => warpTurn s core slot
  | .event i => .run i s
  | .time _ => .done s
  | .mismatch core slot => .done (mismatch s core slot)
  | .storeOut core slot i => .done (storeOut s core slot i)
  | .copyMove core sq i => .done (copyTurn s core sq i)
  | .evict core line => .done (evictLine s core line)

/-- Cycles a turn takes: a sample looks at the cycle it falls in (R423). -/
def Turn.cycles : Turn → Nat
  | .time n => max 1 n
  | .event (.traceSample _ _) => 0
  | _ => 1

/-- A correction of the time is slewed at 200 ppm: one tick in 5,000 (R408). -/
def slewStep (slew : Int) (n : Nat) : Int :=
  let k : Int := (n / 5000 : Nat)
  if slew < 0 then max slew (-k) else min slew k

/-- The ticks of a correction in progress that fall in the next cycles (R408). -/
def slewIn (d : Device) (n : Nat) : Int := slewStep d.slew (d.now % 5000 + n)

/-- Cycles that pass with a turn: one more where a backward correction would leave the time as it is, so that of two events of which one
happens before the other the later one has the greater timestamp (R409). -/
def passing (d : Device) (t : Turn) : Nat :=
  if 0 < t.cycles ∧ (t.cycles : Int) + slewIn d t.cycles ≤ 0 then t.cycles + 1 else t.cycles

/-- A turn's time passes: its cycles are counted and age what waits (R138, R424), and the correction in progress goes on
(R408). -/
def tick (t : Turn) (s0 : State) : State :=
  let n := passing s0.dev t
  let s := passCycles s0 t n
  let d := s.dev
  let k := slewIn d t.cycles
  { s with dev := { d with now := d.now + n, ptpOff := d.ptpOff + k, slew := d.slew - k } }

/-- Whether a step is a boot of a module that is powered off (R482, R486). -/
def isBoot : Turn → Bool
  | .event (.bootSequence _) => true
  | _ => false

end Sys2Proof.Machine
end

