-- ==== Sys2Proof/Machine/Dispatch.lean ====
section
/-! DEFINITION. The meaning of each instruction and event: one arm per constructor. -/

namespace Sys2Proof.Machine

/-- Execute one instruction or event. -/
def exec (i : Instr) (s : State) : Host.Outcome State Fault Refusal :=
  match i with
  | .clauseDispatch core slot => Sys2Proof.Machine.execClauseDispatch core slot s
  | .warpAged core slot => Sys2Proof.Machine.execWarpAged core slot s
  | .docentEvaluation core => Sys2Proof.Machine.execDocentEvaluation core s
  | .demotionComplete core slot => Sys2Proof.Machine.execDemotionComplete core slot s
  | .fairnessSwitch core slot => Sys2Proof.Machine.execFairnessSwitch core slot s
  | .fairnessDeferExpiry core slot => Sys2Proof.Machine.execFairnessDeferExpiry core slot s
  | .longLatencyComplete core slot k => Sys2Proof.Machine.execLongLatencyComplete core slot k s
  | .sliceRetire core slot sl => Sys2Proof.Machine.execSliceRetire core slot sl s
  | .cellRefill core slot => Sys2Proof.Machine.execCellRefill core slot s
  | .missStatusReissue core => Sys2Proof.Machine.execMissStatusReissue core s
  | .missStatusReservationExpiry core => Sys2Proof.Machine.execMissStatusReservationExpiry core s
  | .waitComplete core slot => Sys2Proof.Machine.execWaitComplete core slot s
  | .napExpiry core slot => Sys2Proof.Machine.execNapExpiry core slot s
  | .asyncFaultDelivery core slot => Sys2Proof.Machine.execAsyncFaultDelivery core slot s
  | .partitionResetComplete die failed => Sys2Proof.Machine.execPartitionResetComplete die failed s
  | .linkRetrainComplete link => Sys2Proof.Machine.execLinkRetrainComplete link s
  | .linkDownTimeout link => Sys2Proof.Machine.execLinkDownTimeout link s
  | .curatorScanComplete core pass => Sys2Proof.Machine.execCuratorScanComplete core pass s
  | .dumpWrite ctx => Sys2Proof.Machine.execDumpWrite ctx s
  | .contextCreation ctx desc => Sys2Proof.Machine.execContextCreation ctx desc s
  | .contextDestruction ctx => Sys2Proof.Machine.execContextDestruction ctx s
  | .bootSequence ev => Sys2Proof.Machine.execBootSequence ev s
  | .hostMemoryAccess acc => Sys2Proof.Machine.execHostMemoryAccess acc s
  | .registerWrite offset val => Sys2Proof.Machine.execRegisterWrite offset val s
  | .engineResetComplete matrix core => Sys2Proof.Machine.execEngineResetComplete matrix core s
  | .tlbinvComplete core slot => Sys2Proof.Machine.execTlbinvComplete core slot s
  | .icinvComplete core slot => Sys2Proof.Machine.execIcinvComplete core slot s
  | .copyCommandFault core sq => Sys2Proof.Machine.execCopyCommandFault core sq s
  | .pairWord h1 h2 => Sys2Proof.Machine.execPairWord h1 h2 s
  | .nop o => Sys2Proof.Machine.execNop o s
  | .bra o off uni => Sys2Proof.Machine.execBra o off uni s
  | .bri o => Sys2Proof.Machine.execBri o s
  | .call o off => Sys2Proof.Machine.execCall o off s
  | .calli o => Sys2Proof.Machine.execCalli o s
  | .ret o => Sys2Proof.Machine.execRet o s
  | .exit o => Sys2Proof.Machine.execExit o s
  | .yield o => Sys2Proof.Machine.execYield o s
  | .nap o => Sys2Proof.Machine.execNap o s
  | .fwait o mask => Sys2Proof.Machine.execFwait o mask s
  | .setfmt o form => Sys2Proof.Machine.execSetfmt o form s
  | .getfmt o => Sys2Proof.Machine.execGetfmt o s
  | .brk o code => Sys2Proof.Machine.execBrk o code s
  | .trap o code => Sys2Proof.Machine.execTrap o code s
  | .sprint o clr => Sys2Proof.Machine.execSprint o clr s
  | .smov o => Sys2Proof.Machine.execSmov o s
  | .sadd o sat => Sys2Proof.Machine.execSadd o sat s
  | .ssub o sat => Sys2Proof.Machine.execSsub o sat s
  | .smul o mode => Sys2Proof.Machine.execSmul o mode s
  | .smad o mode => Sys2Proof.Machine.execSmad o mode s
  | .slop o fn => Sys2Proof.Machine.execSlop o fn s
  | .sshf o kind => Sys2Proof.Machine.execSshf o kind s
  | .ssetp o cmp comb => Sys2Proof.Machine.execSsetp o cmp comb s
  | .ssel o negc => Sys2Proof.Machine.execSsel o negc s
  | .sld o w ord scope => Sys2Proof.Machine.execSld o w ord scope s
  | .sread o sreg => Sys2Proof.Machine.execSread o sreg s
  | .vote o kind nega => Sys2Proof.Machine.execVote o kind nega s
  | .spop o => Sys2Proof.Machine.execSpop o s
  | .iadd o sat => Sys2Proof.Machine.execIadd o sat s
  | .isub o sat => Sys2Proof.Machine.execIsub o sat s
  | .imul o mode => Sys2Proof.Machine.execImul o mode s
  | .imad o mode => Sys2Proof.Machine.execImad o mode s
  | .imin o => Sys2Proof.Machine.execImin o s
  | .imax o => Sys2Proof.Machine.execImax o s
  | .iabs o sat => Sys2Proof.Machine.execIabs o sat s
  | .isad o => Sys2Proof.Machine.execIsad o s
  | .isetp o cmp comb => Sys2Proof.Machine.execIsetp o cmp comb s
  | .sel o negc => Sys2Proof.Machine.execSel o negc s
  | .lea o sh => Sys2Proof.Machine.execLea o sh s
  | .mov o => Sys2Proof.Machine.execMov o s
  | .movi o off => Sys2Proof.Machine.execMovi o off s
  | .idp4 o bsign sat => Sys2Proof.Machine.execIdp4 o bsign sat s
  | .bitfn o fn => Sys2Proof.Machine.execBitfn o fn s
  | .shl o wrap => Sys2Proof.Machine.execShl o wrap s
  | .shr o wrap => Sys2Proof.Machine.execShr o wrap s
  | .fwin o wrap sfill => Sys2Proof.Machine.execFwin o wrap sfill s
  | .bfe o => Sys2Proof.Machine.execBfe o s
  | .bfi o => Sys2Proof.Machine.execBfi o s
  | .popc o => Sys2Proof.Machine.execPopc o s
  | .clz o => Sys2Proof.Machine.execClz o s
  | .brev o => Sys2Proof.Machine.execBrev o s
  | .bsel o => Sys2Proof.Machine.execBsel o s
  | .plop o fn => Sys2Proof.Machine.execPlop o fn s
  | .p2v o mask => Sys2Proof.Machine.execP2v o mask s
  | .v2p o mask => Sys2Proof.Machine.execV2p o mask s
  | .fadd o rm => Sys2Proof.Machine.execFadd o rm s
  | .fsub o rm => Sys2Proof.Machine.execFsub o rm s
  | .fmul o rm => Sys2Proof.Machine.execFmul o rm s
  | .ffma o rm => Sys2Proof.Machine.execFfma o rm s
  | .fmin o nan => Sys2Proof.Machine.execFmin o nan s
  | .fmax o nan => Sys2Proof.Machine.execFmax o nan s
  | .fsetp o cmp comb => Sys2Proof.Machine.execFsetp o cmp comb s
  | .fclass o => Sys2Proof.Machine.execFclass o s
  | .frnd o rm => Sys2Proof.Machine.execFrnd o rm s
  | .fscale o rm => Sys2Proof.Machine.execFscale o rm s
  | .hadd2 o rm => Sys2Proof.Machine.execHadd2 o rm s
  | .hmul2 o rm => Sys2Proof.Machine.execHmul2 o rm s
  | .hfma2 o rm => Sys2Proof.Machine.execHfma2 o rm s
  | .hmin2 o nan => Sys2Proof.Machine.execHmin2 o nan s
  | .hmax2 o nan => Sys2Proof.Machine.execHmax2 o nan s
  | .cvt o dfmt sfmt rm sat usefmt => Sys2Proof.Machine.execCvt o dfmt sfmt rm sat usefmt s
  | .cvts o dfmt pos rm sat usefmt => Sys2Proof.Machine.execCvts o dfmt pos rm sat usefmt s
  | .packq o => Sys2Proof.Machine.execPackq o s
  | .unpq o => Sys2Proof.Machine.execUnpq o s
  | .escale o tfmt opn => Sys2Proof.Machine.execEscale o tfmt opn s
  | .frcp o rm => Sys2Proof.Machine.execFrcp o rm s
  | .frsq o => Sys2Proof.Machine.execFrsq o s
  | .fsqrt o rm => Sys2Proof.Machine.execFsqrt o rm s
  | .fex2 o => Sys2Proof.Machine.execFex2 o s
  | .flg2 o => Sys2Proof.Machine.execFlg2 o s
  | .fsin o => Sys2Proof.Machine.execFsin o s
  | .fcos o => Sys2Proof.Machine.execFcos o s
  | .ftanh o => Sys2Proof.Machine.execFtanh o s
  | .xlane o mode => Sys2Proof.Machine.execXlane o mode s
  | .matchv o all => Sys2Proof.Machine.execMatchv o all s
  | .redux o opr => Sys2Proof.Machine.execRedux o opr s
  | .scanx o opr excl => Sys2Proof.Machine.execScanx o opr excl s
  | .ld o w ord scope cache vs ixs => Sys2Proof.Machine.execLd o w ord scope cache vs ixs s
  | .st o w ord scope cache ixs => Sys2Proof.Machine.execSt o w ord scope cache ixs s
  | .lds o w ord scope => Sys2Proof.Machine.execLds o w ord scope s
  | .sts o w ord scope => Sys2Proof.Machine.execSts o w ord scope s
  | .ldc o w bank => Sys2Proof.Machine.execLdc o w bank s
  | .ldr o w ord scope ixs => Sys2Proof.Machine.execLdr o w ord scope ixs s
  | .stc o w ord scope ixs => Sys2Proof.Machine.execStc o w ord scope ixs s
  | .pref o level ixs => Sys2Proof.Machine.execPref o level ixs s
  | .cctl o opr ixs => Sys2Proof.Machine.execCctl o opr ixs s
  | .icinv o => Sys2Proof.Machine.execIcinv o s
  | .cpg o slot arrive => Sys2Proof.Machine.execCpg o slot arrive s
  | .cps o => Sys2Proof.Machine.execCps o s
  | .cpx o slot arrive => Sys2Proof.Machine.execCpx o slot arrive s
  | .cpclose o => Sys2Proof.Machine.execCpclose o s
  | .cpwait o => Sys2Proof.Machine.execCpwait o s
  | .bankcfg o mode => Sys2Proof.Machine.execBankcfg o mode s
  | .fpush o => Sys2Proof.Machine.execFpush o s
  | .fpop o => Sys2Proof.Machine.execFpop o s
  | .vtopen o copy => Sys2Proof.Machine.execVtopen o copy s
  | .publish o => Sys2Proof.Machine.execPublish o s
  | .vtdrop o => Sys2Proof.Machine.execVtdrop o s
  | .copyCommandStart core => Sys2Proof.Machine.execCopyCommandStart core s
  | .copyCommandComplete core sq => Sys2Proof.Machine.execCopyCommandComplete core sq s
  | .vtopenCopyComplete ctx n => Sys2Proof.Machine.execVtopenCopyComplete ctx n s
  | .publishAckComplete ctx n => Sys2Proof.Machine.execPublishAckComplete ctx n s
  | .mldb o slab lset foll => Sys2Proof.Machine.execMldb o slab lset foll s
  | .mlds o lset foll => Sys2Proof.Machine.execMlds o lset foll s
  | .mma o mm1 lset slot => Sys2Proof.Machine.execMma o mm1 lset slot s
  | .mzero o => Sys2Proof.Machine.execMzero o s
  | .acalloc o wait => Sys2Proof.Machine.execAcalloc o wait s
  | .acfree o => Sys2Proof.Machine.execAcfree o s
  | .mdrain o bias act req rm1 slot => Sys2Proof.Machine.execMdrain o bias act req rm1 slot s
  | .mdrains o bias act req rm1 slot => Sys2Proof.Machine.execMdrains o bias act req rm1 slot s
  | .epcfg o => Sys2Proof.Machine.execEpcfg o s
  | .actld o => Sys2Proof.Machine.execActld o s
  | .matrixCommandExecute pair => Sys2Proof.Machine.execMatrixCommandExecute pair s
  | .matrixCommandComplete pair => Sys2Proof.Machine.execMatrixCommandComplete pair s
  | .epilogueCommandExecute pair => Sys2Proof.Machine.execEpilogueCommandExecute pair s
  | .epilogueCommandComplete pair => Sys2Proof.Machine.execEpilogueCommandComplete pair s
  | .accumGranulesCleared pair => Sys2Proof.Machine.execAccumGranulesCleared pair s
  | .atom o opc ord scope koff => Sys2Proof.Machine.execAtom o opc ord scope koff s
  | .atomcas o ord scope koff => Sys2Proof.Machine.execAtomcas o ord scope koff s
  | .red o opc ord scope koff => Sys2Proof.Machine.execRed o opc ord scope koff s
  | .atoms o opc ord scope koff => Sys2Proof.Machine.execAtoms o opc ord scope koff s
  | .atomsc o ord scope koff => Sys2Proof.Machine.execAtomsc o ord scope koff s
  | .atomc o ord scope koff => Sys2Proof.Machine.execAtomc o ord scope koff s
  | .rdc o ord scope koff => Sys2Proof.Machine.execRdc o ord scope koff s
  | .fence o kind scope => Sys2Proof.Machine.execFence o kind scope s
  | .bar o => Sys2Proof.Machine.execBar o s
  | .bara o => Sys2Proof.Machine.execBara o s
  | .barw o => Sys2Proof.Machine.execBarw o s
  | .gbar o => Sys2Proof.Machine.execGbar o s
  | .arv o scope sp => Sys2Proof.Machine.execArv o scope sp s
  | .await o scope sp => Sys2Proof.Machine.execAwait o scope sp s
  | .ringa o slot => Sys2Proof.Machine.execRinga o slot s
  | .ringw o slot => Sys2Proof.Machine.execRingw o slot s
  | .lkacq o wait => Sys2Proof.Machine.execLkacq o wait s
  | .lkrel o => Sys2Proof.Machine.execLkrel o s
  | .waitv o scope => Sys2Proof.Machine.execWaitv o scope s
  | .wake o scope => Sys2Proof.Machine.execWake o scope s
  | .launch o nreg wait barrier irq => Sys2Proof.Machine.execLaunch o nreg wait barrier irq s
  | .gwait o vouch => Sys2Proof.Machine.execGwait o vouch s
  | .qpush o wait => Sys2Proof.Machine.execQpush o wait s
  | .qpop o wait => Sys2Proof.Machine.execQpop o wait s
  | .shape o => Sys2Proof.Machine.execShape o s
  | .provq o mode => Sys2Proof.Machine.execProvq o mode s
  | .svc o code => Sys2Proof.Machine.execSvc o code s
  | .rfe o => Sys2Proof.Machine.execRfe o s
  | .pgpop o => Sys2Proof.Machine.execPgpop o s
  | .pgmap o level => Sys2Proof.Machine.execPgmap o level s
  | .tlbinv o kind => Sys2Proof.Machine.execTlbinv o kind s
  | .replay o tok => Sys2Proof.Machine.execReplay o tok s
  | .park o => Sys2Proof.Machine.execPark o s
  | .csrrd o num => Sys2Proof.Machine.execCsrrd o num s
  | .csrwr o num => Sys2Proof.Machine.execCsrwr o num s
  | .poisck o => Sys2Proof.Machine.execPoisck o s
  | .trace o tag n => Sys2Proof.Machine.execTrace o tag n s
  | .tmark o => Sys2Proof.Machine.execTmark o s
  | .rdcnt o num => Sys2Proof.Machine.execRdcnt o num s
  | .rdptp o full => Sys2Proof.Machine.execRdptp o full s
  | .halt o dump => Sys2Proof.Machine.execHalt o dump s
  | .queueTailObserve ctx q => Sys2Proof.Machine.execQueueTailObserve ctx q s
  | .queueEntryConsume ctx q => Sys2Proof.Machine.execQueueEntryConsume ctx q s
  | .launchEntry ctx q => Sys2Proof.Machine.execLaunchEntry ctx q s
  | .shapeEntry ctx q => Sys2Proof.Machine.execShapeEntry ctx q s
  | .replayEntry ctx q => Sys2Proof.Machine.execReplayEntry ctx q s
  | .waitcEntry ctx q => Sys2Proof.Machine.execWaitcEntry ctx q s
  | .signalEntry ctx q => Sys2Proof.Machine.execSignalEntry ctx q s
  | .queueEntryComplete ctx q k => Sys2Proof.Machine.execQueueEntryComplete ctx q k s
  | .queueRestart ctx q skip => Sys2Proof.Machine.execQueueRestart ctx q skip s
  | .queueStop ctx q => Sys2Proof.Machine.execQueueStop ctx q s
  | .proxyForward ctx q => Sys2Proof.Machine.execProxyForward ctx q s
  | .proxyForwardTimer ctx q => Sys2Proof.Machine.execProxyForwardTimer ctx q s
  | .priorityAgeing ctx gid => Sys2Proof.Machine.execPriorityAgeing ctx gid s
  | .blockPlacement ctx => Sys2Proof.Machine.execBlockPlacement ctx s
  | .blockRetire blk => Sys2Proof.Machine.execBlockRetire blk s
  | .preemptionRequest blk trig => Sys2Proof.Machine.execPreemptionRequest blk trig s
  | .timeSliceExpiry blk => Sys2Proof.Machine.execTimeSliceExpiry blk s
  | .preemptBudgetExpiry core slot => Sys2Proof.Machine.execPreemptBudgetExpiry core slot s
  | .warpStopPoint core slot => Sys2Proof.Machine.execWarpStopPoint core slot s
  | .saveSpaceRetry blk => Sys2Proof.Machine.execSaveSpaceRetry blk s
  | .contextSwitchOut ctx => Sys2Proof.Machine.execContextSwitchOut ctx s
  | .contextSwitchIn ctx => Sys2Proof.Machine.execContextSwitchIn ctx s
  | .migClaim val => Sys2Proof.Machine.execMigClaim val s
  | .migRelease val => Sys2Proof.Machine.execMigRelease val s
  | .migClaimExpiry ctx page => Sys2Proof.Machine.execMigClaimExpiry ctx page s
  | .pagePinExpiry ctx page => Sys2Proof.Machine.execPagePinExpiry ctx page s
  | .ppsInput second => Sys2Proof.Machine.execPpsInput second s
  | .timeCorrection ticks => Sys2Proof.Machine.execTimeCorrection ticks s
  | .traceDrain ctx src => Sys2Proof.Machine.execTraceDrain ctx src s
  | .traceDrainTimer ctx src => Sys2Proof.Machine.execTraceDrainTimer ctx src s
  | .losslessEscape ctx src => Sys2Proof.Machine.execLosslessEscape ctx src s
  | .traceSample core slot => Sys2Proof.Machine.execTraceSample core slot s
  | .counterSweep ctx => Sys2Proof.Machine.execCounterSweep ctx s
  | .dbgHaltBroadcast ctx => Sys2Proof.Machine.execDbgHaltBroadcast ctx s
  | .dbgResumeAll ctx => Sys2Proof.Machine.execDbgResumeAll ctx s
  | .dbgHaltAndDump ctx => Sys2Proof.Machine.execDbgHaltAndDump ctx s
  | .dbgRead cmd => Sys2Proof.Machine.execDbgRead cmd s
  | .dbgWrite cmd => Sys2Proof.Machine.execDbgWrite cmd s
  | .dbgSetPc cmd => Sys2Proof.Machine.execDbgSetPc cmd s
  | .dbgResumeWarp cmd => Sys2Proof.Machine.execDbgResumeWarp cmd s
  | .dbgResumePastBreakpoint cmd => Sys2Proof.Machine.execDbgResumePastBreakpoint cmd s
  | .curatorVisitStart die => Sys2Proof.Machine.execCuratorVisitStart die s
  | .curatorDrainExpiry core => Sys2Proof.Machine.execCuratorDrainExpiry core s
  | .uncorrectableWordError store owner index lane => Sys2Proof.Machine.execUncorrectableWordError store owner index lane s
  | .cacheSectorError kind pa => Sys2Proof.Machine.execCacheSectorError kind pa s
  | .frontierParityError core slot => Sys2Proof.Machine.execFrontierParityError core slot s
  | .translationParityError ctx va => Sys2Proof.Machine.execTranslationParityError ctx va s
  | .instructionCacheParityError core => Sys2Proof.Machine.execInstructionCacheParityError core s
  | .registrarStateError die => Sys2Proof.Machine.execRegistrarStateError die s
  | .engineStateError matrix core => Sys2Proof.Machine.execEngineStateError matrix core s
  | .engineTimeout matrix core => Sys2Proof.Machine.execEngineTimeout matrix core s
  | .partReset val => Sys2Proof.Machine.execPartReset val s
  | .flitCheckFailure link => Sys2Proof.Machine.execFlitCheckFailure link s
  | .laneFailure link => Sys2Proof.Machine.execLaneFailure link s
  | .thermalThrottle temp gate => Sys2Proof.Machine.execThermalThrottle temp gate s
  | .thermalTrip => Sys2Proof.Machine.execThermalTrip s
  | .powerLimitWrite val => Sys2Proof.Machine.execPowerLimitWrite val s
  | .firmwareUpdate image => Sys2Proof.Machine.execFirmwareUpdate image s
  | .spdmMeasurementRequest nonce => Sys2Proof.Machine.execSpdmMeasurementRequest nonce s
  | .peerMemoryAccess acc => Sys2Proof.Machine.execPeerMemoryAccess acc s
  | .curatorHostRequest core => Sys2Proof.Machine.execCuratorHostRequest core s
  | .hostGangRelaunchOrAbandon ctx gid gang relaunch => Sys2Proof.Machine.execHostGangRelaunchOrAbandon ctx gid gang relaunch s
  | .thermalThrottleRelease => Sys2Proof.Machine.execThermalThrottleRelease s

end Sys2Proof.Machine
end

