-- ==== Sys2Proof/Machine/Step.lean ====
section
/-! DEFINITION. One step of the machine: a turn is taken, its word or event executed, and time passes. -/

namespace Sys2Proof.Machine

/-- What follows an execution: no warp is current, and the cycles of the turn pass. -/
def finish (t : Turn) (o : Host.Outcome State Fault Refusal) : Host.Outcome State Fault Refusal :=
  match o with
  | .next s => .next (tick t { s with cur := none })
  | .fault r => .fault r
  | .refused r => .refused r

/-- One step. -/
def step (s : State) : Host.Outcome State Fault Refusal :=
  let (t, s1) := nextTurn s
  if !s.dev.powered && !isBoot t then .fault .poweredOff
  else
    match readyOf t s1 with
    | .done s2 => .next (tick t s2)
    | .run i s2 => finish t (exec i s2)

/-- `s` with an instruction where the next step fetches: a running warp of a launched grid, in a mapped page of code, that
has come to the word. An instruction has one dword, so the table's `nbits` is 64. -/
def State.withFetchWord (s : State) (_nbits w : Nat) : State := placeWord s w

end Sys2Proof.Machine
end

