-- ==== Sys2Proof/Machine/Axiom.lean ====
section
/-! DEFINITION. The memory model as R319 to R332 state it: events and relations, and when an execution is allowed. An
execution is finite data, and whether it is allowed is computed. The machine's own steps (Machine/Access.lean,
Machine/Coherence.lean) choose among the executions allowed here. -/

namespace Sys2Proof.Machine

/-- Memory types of locations (R320). -/
inductive MemType where
  | scratch | dev | peer | host
  deriving DecidableEq, Repr

/-- What an event does: read, write, both, or a fence (R325). -/
inductive EvKind where
  | read | write | rmw | fence (kind : FenceKind)
  deriving DecidableEq, Repr

/-- ORDER of an event (R261, R325). -/
inductive EvOrd where
  | weak | rlx | acq | rel | acqrel
  deriving DecidableEq, Repr

/-- An agent and where it stands: its path, warp, block and cluster, and its device, `none` for a host agent (R319, R322,
R323). -/
structure Agent where
  path : Nat
  warp : Nat
  block : Nat
  cluster : Nat
  dev : Option Nat
  deriving DecidableEq, Repr

/-- A memory event: its agent, kind, order, scope, type and bytes, and the earlier events of its agent whose loads its address
or data is computed from (R320, R325, R327). -/
structure MemEvent where
  agent : Agent
  kind : EvKind
  ord : EvOrd
  scope : Scope
  type : MemType
  at_ : Nat
  size : Nat
  deps : List Nat
  deriving DecidableEq, Repr

/-- An execution: its events in program order, for each read and byte the write it reads (none for the initial value), for
each byte the coherence order of its writes, the pairs that rules outside this chapter synchronise (R328, R334), the
order S of its `fence.sc` (R329), and its divergences and merges in their order: a path, one that it leads to, and the number of the
first event after it (R322). -/
structure Execution where
  events : List MemEvent
  rf : List (Nat × Nat × Nat)
  co : List (Nat × List Nat)
  sync : List (Nat × Nat)
  scOrder : List Nat
  forks : List (Nat × Nat × Nat)
  deriving DecidableEq, Repr

/-- Whether an instruction's access is strong whatever its ORDER: an atomic, `ldr` or `stc` (R324). -/
def alwaysStrong : Instr → Bool
  | .ldr .. | .stc .. | .atom .. | .atomcas .. | .atoms .. | .atomsc .. | .atomc .. | .red .. | .rdc .. => true
  | _ => false

/-- ORDER of a load, a store and an atomic. -/
def evOfLd : LdOrd → EvOrd | .weak => .weak | .rlx => .rlx | .acq => .acq

/-- See `evOfLd`. -/
def evOfSt : StOrd → EvOrd | .weak => .weak | .rlx => .rlx | .rel => .rel

/-- See `evOfLd`. -/
def evOfAt : AtOrd → EvOrd | .rlx => .rlx | .acq => .acq | .rel => .rel | .acqrel => .acqrel

/-- An event's kind, order and scope. -/
abbrev EvSpec := EvKind × EvOrd × Scope

/-- The events of an instruction as its fields give them (R325). The scope of a ring is that of its window (R252), and that of a queue
entry is `queue`, limited to the entry's regions (R338). A copy command's issue is a release (R334) and its arrival on a ring an
acquire. -/
def fieldEvents (ring queue : Scope) : Instr → List EvSpec
  | .ld _ _ o sc _ _ _ | .lds _ _ o sc | .sld _ _ o sc | .ldr _ _ o sc _ => [(.read, evOfLd o, sc)]
  | .st _ _ o sc _ _ | .sts _ _ o sc | .stc _ _ o sc _ => [(.write, evOfSt o, sc)]
  | .atom d _ o sc _ | .atomcas d o sc _ | .atoms d _ o sc _ | .atomsc d o sc _ =>
    [(if d.d = .zero then .write else .rmw, evOfAt o, sc)]
  | .atomc _ o sc _ | .red _ _ o sc _ => [(.write, evOfAt o, sc)]
  | .rdc _ o sc _ => [(.read, evOfAt o, sc)]
  | .fence _ k sc => [(.fence k, .rlx, sc)]
  | .bar _ => [(.write, .rel, .blk), (.read, .acq, .blk)]
  | .bara _ => [(.write, .rel, .blk)]
  | .barw _ => [(.read, .acq, .blk)]
  | .gbar _ => [(.write, .rel, .dev), (.read, .acq, .dev)]
  | .arv _ sc _ => [(.rmw, .rel, sc)]
  | .await _ sc _ => [(.read, .acq, sc)]
  | .ringa .. => [(.rmw, .rel, ring)]
  | .ringw .. => [(.read, .acq, ring)]
  | .lkacq .. => [(.rmw, .acq, .dev)]
  | .lkrel _ => [(.rmw, .rel, .dev)]
  | .wake _ sc => [(.write, .rel, sc)]
  | .waitv _ sc => [(.read, .acq, sc)]
  | .gwait .. => [(.read, .acq, .sys)]
  | .qpush .. | .launch .. => [(.write, .rel, queue)]
  | .qpop .. => [(.read, .acq, queue)]
  | .shape _ => [(.write, .rel, .dev)]
  | .publish _ => [(.write, .rel, .dev)]
  | .cpwait _ => [(.read, .acq, .blk)]
  | .cpg _ _ a | .cpx _ _ a => (.write, .rel, .blk) :: if a then [(.read, .acq, ring)] else []
  | .cps _ => [(.write, .rel, .blk)]
  | _ => []

/-- The events of an instruction (R324, R325). -/
def eventsOf (ring queue : Scope) (i : Instr) : List EvSpec :=
  (fieldEvents ring queue i).map fun e => if alwaysStrong i && e.2.1 == .weak then (e.1, .rlx, e.2.2) else e

/-- Whether an agent lies in a scope of another (R323). -/
def inScope (sc : Scope) (a b : Agent) : Bool :=
  match sc with
  | .wp => a.warp == b.warp && a.dev == b.dev
  | .blk => a.block == b.block && a.dev == b.dev
  | .cls => a.cluster == b.cluster && a.dev == b.dev
  | .dev => a.dev == b.dev
  | .sys => true

/-- An event reads. -/
def MemEvent.reads (e : MemEvent) : Bool := match e.kind with | .read | .rmw => true | _ => false

/-- An event writes. -/
def MemEvent.writes (e : MemEvent) : Bool := match e.kind with | .write | .rmw => true | _ => false

/-- An event is an access. -/
def MemEvent.isAccess (e : MemEvent) : Bool := e.reads || e.writes

/-- An access is strong (R324); a fence takes part in synchronisation as one. -/
def MemEvent.strong (e : MemEvent) : Bool := e.ord != .weak

/-- An event acquires (R327). -/
def MemEvent.acquires (e : MemEvent) : Bool := e.reads && (e.ord == .acq || e.ord == .acqrel)

/-- An event releases (R327). -/
def MemEvent.releases (e : MemEvent) : Bool := e.writes && (e.ord == .rel || e.ord == .acqrel)

/-- An acquire fence, and a release fence (R328, R329). -/
def MemEvent.acqFence (e : MemEvent) : Bool := match e.kind with | .fence k => k != .rel | _ => false

/-- See `MemEvent.acqFence`. -/
def MemEvent.relFence (e : MemEvent) : Bool := match e.kind with | .fence k => k != .acq | _ => false

/-- A `fence.sc`. -/
def MemEvent.scFence (e : MemEvent) : Bool := e.kind == .fence .sc

/-- An event touches a byte. -/
def MemEvent.touches (e : MemEvent) (b : Nat) : Bool := e.isAccess && decide (e.at_ ≤ b ∧ b < e.at_ + e.size)

/-- Two accesses are to the same location (R320). -/
def MemEvent.sameLoc (a b : MemEvent) : Bool :=
  a.isAccess && b.isAccess && decide (a.at_ < b.at_ + b.size ∧ b.at_ < a.at_ + a.size)

/-- Two accesses are identical-range (R320). -/
def MemEvent.identical (a b : MemEvent) : Bool := a.isAccess && b.isAccess && a.at_ == b.at_ && a.size == b.size

/-- Scope-matched: both strong, each agent within the other's scope, and two accesses identical-range (R320, R324). -/
def MemEvent.scopeMatched (a b : MemEvent) : Bool :=
  a.strong && b.strong && inScope a.scope a.agent b.agent && inScope b.scope b.agent a.agent
    && (!(a.isAccess && b.isAccess) || a.identical b)

/-- A relation on numbers below `n`, one row of bits each. -/
abbrev Rel := List Nat

/-- The rows of a relation. -/
def relOf (n : Nat) (r : Nat → Nat → Bool) : Rel :=
  (List.range n).map fun i => (List.range n).foldl (fun x j => if r i j then x + 2 ^ j else x) 0

/-- Whether a relation holds. -/
def Rel.has (r : Rel) (i j : Nat) : Bool := (r[i]?.getD 0).testBit j

/-- The transitive closure. -/
def Rel.closure (r : Rel) : Rel :=
  (List.range r.length).foldl (fun r k => r.map fun row => if row.testBit k then row ||| (r[k]?.getD 0) else row) r

/-- No cycle. -/
def Rel.acyclic (r : Rel) : Bool := let c := r.closure; (List.range c.length).all fun i => !c.has i i

/-- An event by its number; past the end, a fence that orders nothing of its own. -/
def Execution.ev (x : Execution) (i : Nat) : MemEvent :=
  x.events[i]?.getD ⟨⟨0, 0, 0, 0, none⟩, .fence .acq, .weak, .wp, .dev, 0, 0, []⟩

/-- The paths that a path has led to by divergences and merges between two events (R322). -/
def Execution.heirs (x : Execution) (i j : Nat) : List Nat :=
  x.forks.foldl (fun ps f => if ps.contains f.1 && decide (i < f.2.2 ∧ f.2.2 ≤ j) then f.2.1 :: ps else ps) [(x.ev i).agent.path]

/-- Program order: earlier in the list, by the same path or by one that has led to it (R322). -/
def Execution.po (x : Execution) (i j : Nat) : Bool :=
  decide (i < j) && { (x.ev i).agent with path := (x.ev j).agent.path } == (x.ev j).agent
    && (x.heirs i j).contains (x.ev j).agent.path

/-- The write a read reads at a byte. -/
def Execution.source (x : Execution) (r b : Nat) : Option Nat := (x.rf.find? fun e => e.1 == r && e.2.1 == b).map (·.2.2)

/-- The coherence order of a byte. -/
def Execution.coOf (x : Execution) (b : Nat) : List Nat := ((x.co.find? fun e => e.1 == b).map (·.2)).getD []

/-- Every byte some event touches. -/
def Execution.bytes (x : Execution) : List Nat :=
  (x.events.flatMap fun e => if e.isAccess then (List.range e.size).map (e.at_ + ·) else []).eraseDups

/-- Coherence-before at a byte (R326). -/
def Execution.coAt (x : Execution) (b i j : Nat) : Bool :=
  let l := x.coOf b
  l.contains i && l.contains j && decide (l.idxOf i < l.idxOf j)

/-- Reads-from at a byte. -/
def Execution.rfAt (x : Execution) (b w r : Nat) : Bool := x.source r b == some w

/-- From-reads at a byte: a read and every write coherence-after the one it read (R331). -/
def Execution.frAt (x : Execution) (b r w : Nat) : Bool :=
  (x.ev r).reads && (x.ev r).touches b && r != w && (x.coOf b).contains w &&
    match x.source r b with
    | none => true
    | some w0 => x.coAt b w0 w

/-- Some byte for which a relation holds. -/
def Execution.atSome (x : Execution) (r : Nat → Nat → Nat → Bool) (i j : Nat) : Bool := x.bytes.any fun b => r b i j

/-- The coherence orders hold every write once; each read reads writes of its bytes (R326). -/
def Execution.wf (x : Execution) : Bool :=
  (x.bytes.all fun b =>
      let ws := (List.range x.events.length).filter fun i => (x.ev i).writes && (x.ev i).touches b
      (x.coOf b).length == ws.length && ws.all (x.coOf b).contains)
    && x.rf.all fun e => (x.ev e.1).reads && (x.ev e.1).touches e.2.1 && (x.ev e.2.2).writes && (x.ev e.2.2).touches e.2.1

/-- A read never mixes parts of two identical-range writes of up to 8 aligned bytes (R326). -/
def Execution.singleCopy (x : Execution) : Bool :=
  (List.range x.events.length).all fun r =>
    let e := x.ev r
    !e.reads || decide (8 < e.size) || e.at_ % e.size != 0
      || let ws := (List.range e.size).filterMap fun i => x.source r (e.at_ + i)
        ws.all fun w => ws.all fun v => w == v || !(x.ev w).identical (x.ev v)

/-- No write falls between a read-modify-write's read and its write (R326). -/
def Execution.atomic (x : Execution) : Bool :=
  (List.range x.events.length).all fun i =>
    (x.ev i).kind != .rmw || x.bytes.all fun b =>
      !(x.ev i).touches b || (List.range x.events.length).all fun w => !(x.frAt b i w && x.coAt b w i)

/-- A read reads a write, or a read-modify-write that follows it in the coherence order (R328). -/
def Execution.readsAfter (x : Execution) (w r : Nat) : Bool :=
  x.atSome x.rfAt w r || (List.range x.events.length).any fun m =>
    (x.ev m).kind == .rmw && x.atSome x.coAt w m && x.atSome x.rfAt m r

/-- What releases through a write: the write itself, and the release fences before it where it is strong (R328). -/
def Execution.relPoint (x : Execution) (w p : Nat) : Bool :=
  (p == w && (x.ev w).releases) || ((x.ev p).relFence && x.po p w && (x.ev w).writes && (x.ev w).strong)

/-- What acquires through a read: the read itself, and the acquire fences after it where it is strong (R328). -/
def Execution.acqPoint (x : Execution) (r q : Nat) : Bool :=
  (q == r && (x.ev r).acquires) || ((x.ev q).acqFence && x.po r q && (x.ev r).reads && (x.ev r).strong)

/-- Synchronises-with (R328), and the pairs other rules name (R334). -/
def Execution.syncs (x : Execution) (p q : Nat) : Bool :=
  x.sync.contains (p, q) || ((x.ev p).scopeMatched (x.ev q) && (List.range x.events.length).any fun w =>
    x.relPoint w p && (List.range x.events.length).any fun r =>
      x.acqPoint r q && (x.ev w).identical (x.ev r) && x.readsAfter w r)

/-- Happens-before (R330). -/
def Execution.hb (x : Execution) : Rel := (relOf x.events.length fun i j => x.po i j || x.syncs i j).closure

/-- Coherence: for each location, no cycle of program order, happens-before, reads-from, coherence order and from-reads
(R331). -/
def Execution.coherent (x : Execution) : Bool :=
  let hb := x.hb
  x.bytes.all fun b => Rel.acyclic (relOf x.events.length fun i j =>
    (x.ev i).touches b && (x.ev j).touches b
      && (x.po i j || hb.has i j || x.rfAt b i j || x.coAt b i j || x.frAt b i j))

/-- The columns of R327's table. -/
def keepsOrder (t : MemType) (first second : MemEvent) : Bool :=
  if first.reads && second.writes then true
  else if first.reads && second.reads then t == .scratch
  else if first.writes && second.writes then t == .scratch || t == .host
  else false

/-- Preserved program order: the table, dependencies, one location (R327). -/
def Execution.ppo (x : Execution) (i j : Nat) : Bool :=
  let a := x.ev i
  let b := x.ev j
  x.po i j && a.isAccess && b.isAccess
    && (a.sameLoc b || b.deps.contains i || (keepsOrder a.type a b && keepsOrder b.type a b))

/-- What a fence orders between an earlier and a later access (R329). -/
def fenceOrders (k : FenceKind) (first second : MemEvent) : Bool :=
  match k with
  | .acq => first.reads
  | .rel => second.writes
  | .acqrel => first.reads || second.writes
  | .sc => true

/-- The order that acquires, releases and fences give, with the scope and agent each counts for (R327, R329). -/
def Execution.ordered (x : Execution) (i j : Nat) : List (Scope × Agent) :=
  let a := x.ev i
  let b := x.ev j
  if x.po i j && a.isAccess && b.isAccess then
    (if a.acquires then [(a.scope, a.agent)] else []) ++ (if b.releases then [(b.scope, b.agent)] else [])
      ++ (List.range x.events.length).filterMap fun f =>
        match (x.ev f).kind with
        | .fence k => if x.po i f && x.po f j && fenceOrders k a b then some ((x.ev f).scope, (x.ev f).agent) else none
        | _ => none
  else []

/-- Reads-from between agents that counts for observation (R331): on HOST only into an acquire, or into a read that is ordered
before a store of its agent. -/
def Execution.rfe (x : Execution) (w r : Nat) : Bool :=
  (x.ev w).agent != (x.ev r).agent && x.atSome x.rfAt w r
    && ((x.ev r).type != .host || (x.ev r).acquires
      || (List.range x.events.length).any fun s => (x.ev s).writes && x.ppo r s)

/-- Cumulativity: a HOST write read by an agent is before every later release of that agent (R331). -/
def Execution.cumul (x : Execution) (w q : Nat) : Bool :=
  (x.ev w).type == .host && (List.range x.events.length).any fun r => x.atSome x.rfAt w r && x.po r q
    && ((x.ev q).releases || ((x.ev q).writes && (List.range x.events.length).any fun f =>
      (x.ev f).relFence && x.po r f && x.po f q))

/-- The observation relation among the events of some agents: an edge that an acquire, a release or a fence contributes counts
when all those agents lie in its scope (R331). -/
def Execution.ob (x : Execution) (agents : List Agent) : Rel :=
  relOf x.events.length fun i j =>
    agents.contains (x.ev i).agent && agents.contains (x.ev j).agent
      && (x.ppo i j || x.atSome x.coAt i j || x.atSome x.frAt i j || x.rfe i j || x.cumul i j
        || (x.ordered i j).any fun o => agents.all fun a => inScope o.1 o.2 a)

/-- The agents of an execution. -/
def Execution.agents (x : Execution) : List Agent := (x.events.map MemEvent.agent).eraseDups

/-- The lists of some members of a list. -/
def subsets {α : Type} : List α → List (List α)
  | [] => [[]]
  | a :: l => let r := subsets l; r ++ r.map (a :: ·)

/-- Observation: no set of agents has a cycle (R331). -/
def Execution.observed (x : Execution) : Bool := (subsets x.agents).all fun l => Rel.acyclic (x.ob l)

/-- The order S holds every `fence.sc` and agrees with program order, and what the agent of an earlier fence wrote or read is
visible after a later one that it is scope-matched with (R329). -/
def Execution.scOk (x : Execution) : Bool :=
  let n := x.events.length
  let s := x.scOrder
  ((List.range n).all fun f => !(x.ev f).scFence || s.contains f)
    && s.all fun f => s.all fun g =>
      !decide (s.idxOf f < s.idxOf g) || (!x.po g f
        && (!(x.ev f).scopeMatched (x.ev g) || (List.range n).all fun w =>
          !((x.ev w).writes && (x.po w f || (List.range n).any fun r => x.atSome x.rfAt w r && x.po r f))
            || (List.range n).all fun e => !x.po g e || x.bytes.all fun b =>
              !(x.ev w).touches b || !(x.ev e).touches b
                || (!x.frAt b e w && !((x.ev e).writes && x.coAt b e w))))

/-- Whether an execution is allowed (R331). -/
def Execution.allowed (x : Execution) : Bool :=
  x.wf && x.singleCopy && x.atomic && x.coherent && x.observed && x.scOk

/-- Two accesses race: one of them writes a location of both, neither happens before the other, and they are not scope-matched
strong accesses (R332). -/
def Execution.races (x : Execution) (i j : Nat) : Bool :=
  let a := x.ev i
  let b := x.ev j
  let hb := x.hb
  a.agent != b.agent && a.sameLoc b && (a.writes || b.writes) && !hb.has i j && !hb.has j i
    && !a.scopeMatched b

end Sys2Proof.Machine
end

