-- ==== Sys2Proof/Safety.lean ====
section
/-! DEFINITION. The terms claims are stated in: when a word issues, what it leaves as it was, what it writes; memory that is
well kept; a step that goes on. -/

namespace Sys2Proof

open Sys2Proof.Machine

/-- A state that no rule of the model's own data is broken in: memory is in canonical form. -/
def WellKept (s : State) : Prop := s.mem.wf

/-- A step that goes on, to a state that is well kept. -/
def SafeStep (s : State) : Prop := ∃ t, step s = .next t ∧ WellKept t

/-- The word that the current warp has come to issues: it decodes for the warp (R54, R128), no outstanding write or flag
holds it (R36, R38), no older load where it serialises (R146), no spilled cell (R130), no provisional hold (R108), its
engine's queue has room (R139, R303), its destinations are free (R316), and the pool has its cells (R127, R129). What it
finds, and the state its effect starts from. -/
def issuing (i : Instr) (s : State) : Option (Iss × State) :=
  match s.cur with
  | none => none
  | some wid =>
    match s.warp wid with
    | none => none
    | some w =>
      match w.loc with
      | none => none
      | some (core, slot) =>
        let held := match s.block (blkOf wid) with | some b => b.isProv && heldInstr i | none => false
        if decodeTrap i w = none ∧ hazardOf i w = none ∧ waitsToRetire i w = false ∧ namesSpilled i w = false
            ∧ (held = true → activeOf i w = 0)
            ∧ (entersQueue (opOf i) = true → activeOf i w = 0 ∨ engineFree s core i = true)
            ∧ (drainWaits s wid core w i = true → activeOf i w = 0)
            ∧ cellsWanted i w + renames i w ≤ poolFree s core then
          some (mkIss i s wid core slot w, started i s wid core w)
        else none

/-- All but the issuing warp is as it was. -/
structure OnlyWarp (wid : Nat) (s t : State) : Prop where
  agenda : t.agenda = s.agenda
  cur : t.cur = s.cur
  free : t.free = s.free
  dev : t.dev = s.dev
  mem : t.mem = s.mem
  cores : t.cores = s.cores
  pairs : t.pairs = s.pairs
  ctxs : t.ctxs = s.ctxs
  grids : t.grids = s.grids
  blocks : t.blocks = s.blocks
  blkNext : t.blkNext = s.blkNext
  cmdNext : t.cmdNext = s.cmdNext
  warps : ∀ x, x ≠ wid → t.warp x = s.warp x

/-- The running path goes on at the word after, or at the header after the clause (R34); its lanes and formats stay. -/
def nextRun (w : Warp) : Path := { w.run with pc := w.run.pc + 8, widx := (nextPlace w).2 }

/-- What of a warp no computing word changes: waiting paths, outstanding operations, handler, batches, waits, traps. -/
structure WarpKept (w w' : Warp) : Prop where
  loc : w'.loc = w.loc
  role : w'.role = w.role
  budget : w'.budget = w.budget
  slices : w'.slices = w.slices
  waiting : w'.waiting = w.waiting
  dseq : w'.dseq = w.dseq
  resv : w'.resv = w.resv
  handler : w'.handler = w.handler
  batchNum : w'.batchNum = w.batchNum
  openBatch : w'.openBatch = w.openBatch
  closed : w'.closed = w.closed
  wait : w'.wait = w.wait
  heldTrap : w'.heldTrap = w.heldTrap
  async : w'.async = w.async
  halted : w'.halted = w.halted
  stop : w'.stop = w.stop

/-- The registers a word's release bits leave (R47): a released register reads 0 in the slices of the running path. -/
def baseOf (it : Iss) : Warp := it.w.releases it.instr it.w.run.mask

/-- The word has written `n` words `out h l` (word `h`, lane `l`) to its D field in the active lanes (R44, R203): a vector
destination in those lanes, a uniform one from lane 0 when any lane is active, `zero` nothing; every other register is as
the release bits leave it. -/
def DestWritten (it : Iss) (w' : Warp) (n : Nat) (out : Nat → Nat → PWord) : Prop :=
  match it.o.d with
  | .v r =>
    w'.s = it.w.s
      ∧ (∀ h l, h < n → l < 32 → it.act.getLsbD l = true → w'.vget (r.val + h) l = out h l)
      ∧ ∀ x l, l < 32 → (x < r.val ∨ r.val + n ≤ x ∨ it.act.getLsbD l = false) → w'.vget x l = (baseOf it).vget x l
  | .s r =>
    (∀ x l, w'.vget x l = (baseOf it).vget x l)
      ∧ (∀ h, h < n → it.act ≠ 0 → w'.sget (r.val + h) = out h 0)
      ∧ ∀ x, (x < r.val ∨ r.val + n ≤ x ∨ it.act = 0) → w'.sget x = it.w.sget x
  | _ => w'.s = it.w.s ∧ ∀ x l, w'.vget x l = (baseOf it).vget x l

/-- A word that computes: the destination's words, the sticky status bits, the next word; nothing else (R202, R203). `s` is the
state its effect starts from. -/
def Computes (it : Iss) (s t : State) (n : Nat) (out : Nat → Nat → PWord) (fl : Nat) : Prop :=
  OnlyWarp it.wid s t ∧ ∃ w w', s.warp it.wid = some w ∧ t.warp it.wid = some w' ∧ WarpKept w w' ∧ w'.pend = w.pend
    ∧ w'.run = nextRun it.w ∧ w'.fstat = it.w.fstat ||| BitVec.ofNat 32 fl ∧ w'.p = it.w.p ∧ w'.q = it.w.q
    ∧ DestWritten it w' n out

/-- The word has written a predicate: p0 to p6 in the active lanes, q0 to q2 from lane 0 when any lane is active; p7 and q3
discard (R5, R203). -/
def PredWritten (it : Iss) (w' : Warp) (f : Nat → Bool) : Prop :=
  match it.o.d with
  | .p r =>
    w'.q = it.w.q ∧ ∀ n l, n < 8 → l < 32 →
      w'.pget n l = if n = r.val ∧ n < 7 ∧ it.act.getLsbD l = true then f l else it.w.pget n l
  | .q r =>
    w'.p = it.w.p ∧ ∀ n, n < 4 → w'.qget n = if n = r.val ∧ n < 3 ∧ it.act ≠ 0 then f 0 else it.w.qget n
  | _ => w'.p = it.w.p ∧ w'.q = it.w.q

/-- A word that tests: the destination's predicate, the sticky status bits, the next word; nothing else. -/
def Tests (it : Iss) (s t : State) (f : Nat → Bool) (fl : Nat) : Prop :=
  OnlyWarp it.wid s t ∧ ∃ w w', s.warp it.wid = some w ∧ t.warp it.wid = some w' ∧ WarpKept w w' ∧ w'.pend = w.pend
    ∧ w'.run = nextRun it.w ∧ w'.fstat = it.w.fstat ||| BitVec.ofNat 32 fl ∧ w'.s = it.w.s
    ∧ (∀ x l, w'.vget x l = (baseOf it).vget x l) ∧ PredWritten it w' f

/-- What stores that move to their coherence points change, memory and the numbering of free values apart: bytes of scratchpads,
what the cores' L1s hold and their counters, the warps' store buffers, reservations and replayed loads, the bytes of constants
sections noted as stored to, and, where a link is down, the error log and the grids marked for it (R236, R241, R260, R270,
R326, R333). -/
structure Drains (s t : State) : Prop where
  agenda : t.agenda = s.agenda
  cur : t.cur = s.cur
  pairs : t.pairs = s.pairs
  ctxs : t.ctxs = s.ctxs
  blkNext : t.blkNext = s.blkNext
  cmdNext : t.cmdNext = s.cmdNext
  dev : t.dev = { s.dev with errCount := t.dev.errCount, errLog := t.dev.errLog }
  cores : ∀ c, t.core c = { s.core c with dirty := (t.core c).dirty, old := (t.core c).old, cnt := (t.core c).cnt }
  grids : ∀ k, ∃ l m o, alook k t.grids =
    (alook k s.grids).map fun g => { g with image := { g.image with constStored := l }, markSuspect := m, lostOn := o }
  blocks : ∀ b, ∃ m p, t.block b = (s.block b).map fun x => { x with scr := m, scrPois := p }
  warps : ∀ x, ∃ b r p, t.warp x = (s.warp x).map fun w => { w with sbuf := b, resv := r, pend := p }

/-- The words of a value. -/
def wordsOf (f : Nat → PV) (h l : Nat) : PWord := ⟨BitVec.ofNat 32 ((f l).v / 2 ^ (32 * h)), (f l).pois⟩

/-- The words of values given word by word. -/
def wordsBy (f : Nat → Nat → PV) (h l : Nat) : PWord := ⟨BitVec.ofNat 32 (f h l).v, (f h l).pois⟩

end Sys2Proof
end

