-- ==== Sys2Proof/Certificates/Slice0/Obligations.lean ====
section
/-! DEFINITION. The statements for the provers: what words do when they issue, what events of the device do, what encodings
and steps are, and what every step keeps. -/

open Sys2Proof Sys2Proof.Machine

/-- Every issue of `i` ends in the word computing the value `f` gives in each active lane, of the type `td`, with the
sticky status bits `fl`, and in nothing else. -/
def Sys2Proof.Yields (i : Instr) (td : Iss → Ty) (f : Iss → State → Nat → PV) (fl : Iss → Nat) : Prop :=
  ∀ (s s0 : State) (it : Iss), issuing i s = some (it, s0) →
    ∃ t, exec i s = .next t ∧ Computes it s0 t (tw (td it)) (wordsOf (f it s0)) (fl it)

/-- The same for words whose destination is given word by word, each word with its own poison. -/
def Sys2Proof.YieldsWords (i : Instr) (f : Iss → Nat → Nat → PV) : Prop :=
  ∀ (s s0 : State) (it : Iss), issuing i s = some (it, s0) →
    ∃ t, exec i s = .next t ∧ Computes it s0 t (tw it.o.ty) (wordsBy (f it)) 0

/-- A 32-bit or 64-bit source of the word, at a type, in a lane: its number. -/
def Sys2Proof.num (it : Iss) (t : Ty) (o : Opd) (l : Nat) : Nat := (it.src t o l).v

/-- Element `i` of operands A, B, C at the word's type, as an exact integer (R169). -/
def Sys2Proof.elA (it : Iss) (i l : Nat) : Int := elem it.o.ty (num it it.o.ty it.o.a l) i
/-- See `elA`. -/
def Sys2Proof.elB (it : Iss) (i l : Nat) : Int := elem it.o.ty (num it it.o.ty it.o.b l) i
/-- See `elA`. -/
def Sys2Proof.elC (it : Iss) (i l : Nat) : Int := elem it.o.ty (num it it.o.ty it.o.c l) i

/-- Poison of the sources a value is computed from (R204): A; A and B; A, B and C. -/
def Sys2Proof.poisA (it : Iss) (ta : Ty) (l : Nat) : Bool := (it.src ta it.o.a l).pois
/-- See `poisA`. -/
def Sys2Proof.pois2 (it : Iss) (ta tb : Ty) (l : Nat) : Bool := (it.src ta it.o.a l).pois || (it.src tb it.o.b l).pois
/-- See `poisA`. -/
def Sys2Proof.pois3 (it : Iss) (ta tb tc : Ty) (l : Nat) : Bool :=
  (it.src ta it.o.a l).pois || (it.src tb it.o.b l).pois || (it.src tc it.o.c l).pois

/-- R187, R189: sums, products, shifts and counts of the uniform class, exact and then limited or wrapped once, on the
values of lane 0 of each active lane's sources, written to D with the rest of the warp as it was. -/
def Obligations.UniformArithmetic : Prop :=
  ∀ (o : Opnds),
    (∀ sat, Yields (.sadd o sat) (·.o.ty)
      (fun it _ l => ⟨fit it.o.ty sat (elA it 0 l + elB it 0 l), pois2 it it.o.ty it.o.ty l⟩) fun _ => 0)
    ∧ (∀ sat, Yields (.ssub o sat) (·.o.ty)
      (fun it _ l => ⟨fit it.o.ty sat (elA it 0 l - elB it 0 l), pois2 it it.o.ty it.o.ty l⟩) fun _ => 0)
    ∧ (∀ mode, Yields (.smul o mode) (fun it => mulTy it.o.ty mode)
      (fun it _ l => ⟨mulAdd it.o.ty mode (elA it 0 l) (elB it 0 l) 0, pois2 it it.o.ty it.o.ty l⟩) fun _ => 0)
    ∧ (∀ mode, Yields (.smad o mode) (fun it => mulTy it.o.ty mode)
      (fun it _ l =>
        let tc := if mode = .wide then wideTy it.o.ty else it.o.ty
        ⟨mulAdd it.o.ty mode (elA it 0 l) (elB it 0 l) (elem tc (num it tc it.o.c l) 0),
          pois3 it it.o.ty it.o.ty tc l⟩) fun _ => 0)
    ∧ (∀ kind, Yields (.sshf o kind) (·.o.ty)
      (fun it _ l => ⟨shiftBy kind (tyW it.o.ty) (num it it.o.ty it.o.a l) (num it .n32 it.o.b l),
        pois2 it it.o.ty .n32 l⟩) fun _ => 0)
    ∧ Yields (.spop o) (fun _ => .b32)
      (fun it _ l => ⟨popCount (tyW it.o.ty) (num it it.o.ty it.o.a l), poisA it it.o.ty l⟩) fun _ => 0

/-- R186, R188, R191, R199, R201, R207: moves, truth tables and selections, word by word; `smov` of a vector register gives
the lowest lane of the running path. -/
def Obligations.MovesAndTables : Prop :=
  ∀ (o : Opnds),
    YieldsWords (.smov o) (fun it h _ => it.srcW it.o.ty it.o.a h (lowLane it.w))
    ∧ YieldsWords (.mov o) (fun it h l => it.srcW it.o.ty it.o.a h l)
    ∧ (∀ negc, YieldsWords (.ssel o negc) fun it h l =>
        if it.w.psrc it.o.c l != negc then it.srcW it.o.ty it.o.a h l else it.srcW it.o.ty it.o.b h l)
    ∧ (∀ negc, YieldsWords (.sel o negc) fun it h l =>
        if it.w.psrc it.o.c l != negc then it.srcW it.o.ty it.o.a h l else it.srcW it.o.ty it.o.b h l)
    ∧ (∀ fn, YieldsWords (.slop o fn) fun it h l =>
        ⟨lut 32 fn (it.srcW it.o.ty it.o.a h l).v (it.srcW it.o.ty it.o.b h l).v (it.srcW it.o.ty it.o.c h l).v,
          (it.srcW it.o.ty it.o.a h l).pois || (it.srcW it.o.ty it.o.b h l).pois || (it.srcW it.o.ty it.o.c h l).pois⟩)
    ∧ (∀ fn, YieldsWords (.bitfn o fn) fun it h l =>
        ⟨lut 32 fn (it.srcW it.o.ty it.o.a h l).v (it.srcW it.o.ty it.o.b h l).v (it.srcW it.o.ty it.o.c h l).v,
          (it.srcW it.o.ty it.o.a h l).pois || (it.srcW it.o.ty it.o.b h l).pois || (it.srcW it.o.ty it.o.c h l).pois⟩)
    ∧ (∀ off, Yields (.movi o off) (·.o.ty) (fun _ _ _ => ⟨(off.signExtend 64).toNat, false⟩) fun _ => 0)
    ∧ ∀ r, Yields (.sread o r) (·.o.ty) (fun it s l => ⟨sregVal it s r l, false⟩) fun _ => 0

/-- R196, R197, R198, R200: integer arithmetic, element by element: exact integers, limited under SAT or wrapped, once. -/
def Obligations.IntegerArithmetic : Prop :=
  ∀ (o : Opnds),
    (∀ sat, Yields (.iadd o sat) (·.o.ty) (fun it _ l =>
      ⟨elementwise it.o.ty fun i => fit it.o.ty sat (elA it i l + elB it i l + elC it i l),
        pois3 it it.o.ty it.o.ty it.o.ty l⟩) fun _ => 0)
    ∧ (∀ sat, Yields (.isub o sat) (·.o.ty) (fun it _ l =>
      ⟨elementwise it.o.ty fun i => fit it.o.ty sat (elA it i l - elB it i l), pois2 it it.o.ty it.o.ty l⟩) fun _ => 0)
    ∧ (∀ mode, Yields (.imul o mode) (fun it => mulTy it.o.ty mode) (fun it _ l =>
      ⟨elementwise it.o.ty fun i => mulAdd it.o.ty mode (elA it i l) (elB it i l) 0, pois2 it it.o.ty it.o.ty l⟩) fun _ => 0)
    ∧ (∀ mode, Yields (.imad o mode) (fun it => mulTy it.o.ty mode) (fun it _ l =>
        let tc := if mode = .wide then wideTy it.o.ty else it.o.ty
        ⟨mulAdd it.o.ty mode (elA it 0 l) (elB it 0 l) (elem tc (num it tc it.o.c l) 0),
          pois3 it it.o.ty it.o.ty tc l⟩) fun _ => 0)
    ∧ Yields (.imin o) (·.o.ty) (fun it _ l =>
      ⟨elementwise it.o.ty fun i => fit it.o.ty false (min (elA it i l) (elB it i l)), pois2 it it.o.ty it.o.ty l⟩) (fun _ => 0)
    ∧ Yields (.imax o) (·.o.ty) (fun it _ l =>
      ⟨elementwise it.o.ty fun i => fit it.o.ty false (max (elA it i l) (elB it i l)), pois2 it it.o.ty it.o.ty l⟩) (fun _ => 0)
    ∧ (∀ sat, Yields (.iabs o sat) (·.o.ty) (fun it _ l =>
      ⟨elementwise it.o.ty fun i => fit it.o.ty sat |elA it i l|, poisA it it.o.ty l⟩) fun _ => 0)
    ∧ Yields (.isad o) (fun _ => .b32) (fun it _ l =>
      ⟨((List.range (tyN it.o.ty)).foldl (fun x i => x + (elA it i l - elB it i l).natAbs) (num it .n32 it.o.c l)) % 2 ^ 32,
        pois3 it it.o.ty it.o.ty .n32 l⟩) (fun _ => 0)
    ∧ (∀ bsign sat, Yields (.idp4 o bsign sat) (fun _ => .b32) (fun it _ l =>
        let tb : Ty := if bsign then .s8x4 else .n8x4
        ⟨fit .s32 sat ((List.range 4).foldl (fun x i => x + elA it i l * elem tb (num it it.o.ty it.o.b l) i)
            (elem .s32 (num it .s32 it.o.c l) 0)), pois3 it it.o.ty it.o.ty .s32 l⟩) fun _ => 0)
    ∧ ∀ sh : Fin 8, Yields (.lea o sh) (fun it => if it.o.ty = .b32 then .b32 else .b64) (fun it _ l =>
        let wide : Ty := if it.o.ty = .b32 then .b32 else .b64
        ⟨wrapBits (tyW wide) ((num it wide it.o.b l : Int) + elA it 0 l * 2 ^ sh.val), pois2 it it.o.ty wide l⟩) fun _ => 0

/-- The word `h` of a number, poisoned or not. -/
def Sys2Proof.wordPV (x h : Nat) (pois : Bool) : PV := ⟨fld x (32 * h) 32, pois⟩

/-- Some word of A from `lo` on and below `hi` is poisoned. -/
def Sys2Proof.poisWords (it : Iss) (o : Opd) (lo hi l : Nat) : Bool :=
  (List.range hi).any fun g => decide (lo ≤ g) && (it.srcW it.o.ty o g l).pois

/-- R204, R208 to R213: shifts, windows, fields, counts, byte selection, predicates to a register. A word of a 64-bit result is
poisoned when the amount is, or a source word it can be computed from: at or below it for a left shift, at or above it for a
right one, its mirror for `brev`. -/
def Obligations.BitOperations : Prop :=
  ∀ (o : Opnds),
    (∀ wrap, YieldsWords (.shl o wrap) fun it h l =>
      wordPV (shlW (tyW it.o.ty) (num it it.o.ty it.o.a l) (wrapAmount wrap (tyW it.o.ty) (num it .n32 it.o.b l))) h
        ((it.src .n32 it.o.b l).pois || poisWords it it.o.a 0 (h + 1) l))
    ∧ (∀ wrap, YieldsWords (.shr o wrap) fun it h l =>
      wordPV (if tyS it.o.ty then sarW (tyW it.o.ty) (num it it.o.ty it.o.a l) (wrapAmount wrap (tyW it.o.ty) (num it .n32 it.o.b l))
        else shrW (tyW it.o.ty) (num it it.o.ty it.o.a l) (wrapAmount wrap (tyW it.o.ty) (num it .n32 it.o.b l))) h
        ((it.src .n32 it.o.b l).pois || poisWords it it.o.a h (tw it.o.ty) l))
    ∧ (∀ wrap sfill, Yields (.fwin o wrap sfill) (fun _ => .b32) (fun it _ l =>
      ⟨window wrap sfill (num it .b32 it.o.a l) (num it .b32 it.o.b l) (num it .n32 it.o.c l),
        pois3 it .b32 .b32 .n32 l⟩) fun _ => 0)
    ∧ YieldsWords (.bfe o) (fun it h l =>
      wordPV (extract it.o.ty (num it it.o.ty it.o.a l) (num it .n32 it.o.b l)) h
        ((it.src .n32 it.o.b l).pois || poisWords it it.o.a (if tyS it.o.ty then 0 else h) (tw it.o.ty) l))
    ∧ YieldsWords (.bfi o) (fun it h l =>
      wordPV (insertField (tyW it.o.ty) (num it it.o.ty it.o.a l) (num it it.o.ty it.o.b l) (num it .n32 it.o.c l)) h
        ((it.src .n32 it.o.c l).pois || (it.srcW it.o.ty it.o.a h l).pois || poisWords it it.o.b 0 (h + 1) l))
    ∧ Yields (.popc o) (fun _ => .b32) (fun it _ l =>
      ⟨popCount (tyW it.o.ty) (num it it.o.ty it.o.a l), poisA it it.o.ty l⟩) (fun _ => 0)
    ∧ Yields (.clz o) (fun _ => .b32) (fun it _ l =>
      ⟨leadingZeros (tyW it.o.ty) (num it it.o.ty it.o.a l), poisA it it.o.ty l⟩) (fun _ => 0)
    ∧ YieldsWords (.brev o) (fun it h l =>
      wordPV (reverseBits (tyW it.o.ty) (num it it.o.ty it.o.a l)) h (it.srcW it.o.ty it.o.a (tw it.o.ty - 1 - h) l).pois)
    ∧ Yields (.bsel o) (fun _ => .b32) (fun it _ l =>
      ⟨joinElems 8 ((List.range 4).map (selectByte (num it .b32 it.o.a l) (num it .b32 it.o.b l) (num it .b32 it.o.c l))),
        pois3 it .b32 .b32 .b32 l⟩) (fun _ => 0)
    ∧ ∀ mask, Yields (.p2v o mask) (fun _ => .b32) (fun it _ l =>
      ⟨(List.range 7).foldl (fun r i => if mask.getLsbD i && it.w.pget i l then r + 2 ^ i else r) 0, false⟩) fun _ => 0

/-- Every issue of `i` that finds no poisoned source in an active lane (`clean`) ends in the word writing the predicate. -/
def Sys2Proof.Decides (i : Instr) (clean : Iss → Prop) (f : Iss → Nat → Bool) (fl : Iss → Nat) : Prop :=
  ∀ (s s0 : State) (it : Iss), issuing i s = some (it, s0) → clean it →
    ∃ t, exec i s = .next t ∧ Tests it s0 t (f it) (fl it)

/-- No active lane finds A or B poisoned. -/
def Sys2Proof.CleanAB (it : Iss) : Prop := ∀ l ∈ it.lanes, it.poisAB l = false

/-- Operands of `fsetp` as read under FLUSH (R62). -/
def Sys2Proof.fnumA (it : Iss) (l : Nat) : FVal := (tyFmt it.o.ty).decode (it.fsrc it.o.a l).v
/-- See `fnumA`. -/
def Sys2Proof.fnumB (it : Iss) (l : Nat) : FVal := (tyFmt it.o.ty).decode (it.fsrc it.o.b l).v

/-- R190, R194, R213, R217: comparisons, votes and truth tables write a predicate and nothing else but `%fstat`. -/
def Obligations.PredicateWords : Prop :=
  ∀ (o : Opnds),
    (∀ cmp comb, Decides (.ssetp o cmp comb) CleanAB
      (fun it l => combine comb (icmp cmp (elA it 0 l) (elB it 0 l)) (it.w.psrc it.o.c l)) fun _ => 0)
    ∧ (∀ cmp comb, Decides (.isetp o cmp comb) CleanAB
      (fun it l => combine comb (icmp cmp (elA it 0 l) (elB it 0 l)) (it.w.psrc it.o.c l)) fun _ => 0)
    ∧ (∀ cmp comb, Decides (.fsetp o cmp comb) CleanAB
      (fun it l => combine comb (fcmp cmp (fnumA it l) (fnumB it l)) (it.w.psrc it.o.c l))
      fun it => it.lanes.foldl (fun x l => x ||| fcmpFl cmp (fnumA it l) (fnumB it l)) 0)
    ∧ (∀ fn, Decides (.plop o fn) (fun _ => True)
      (fun it l => fn.getLsbD ((it.w.psrc it.o.a l).toNat + 2 * (it.w.psrc it.o.b l).toNat + 4 * (it.w.psrc it.o.c l).toNat))
      fun _ => 0)
    ∧ (∀ nega, Decides (.vote o .any nega) (fun _ => True)
      (fun it _ => it.lanes.any fun l => it.w.psrc it.o.a l != nega) fun _ => 0)
    ∧ (∀ nega, Decides (.vote o .all nega) (fun _ => True)
      (fun it _ => it.lanes.all fun l => it.w.psrc it.o.a l != nega) fun _ => 0)
    ∧ (∀ nega, Decides (.vote o .uni nega) (fun _ => True)
      (fun it _ => (it.lanes.all fun l => it.w.psrc it.o.a l != nega) || it.lanes.all fun l => it.w.psrc it.o.a l == nega)
      fun _ => 0)
    ∧ ∀ nega, Yields (.vote o .ballot nega) (fun _ => .b32)
      (fun it _ _ => ⟨(maskOf fun l => it.act.getLsbD l && (it.w.psrc it.o.a l != nega)).toNat, false⟩) fun _ => 0

/-- R213: `v2p` copies bit i of A into p_i for the predicates of MASK, in the active lanes; the others stay. -/
def Obligations.VectorToPredicates : Prop :=
  ∀ (o : Opnds) (mask : BitVec 7) (s s0 : State) (it : Iss), issuing (.v2p o mask) s = some (it, s0) →
    (∀ l ∈ it.lanes, (it.src .b32 it.o.a l).pois = false) →
    ∃ t, exec (.v2p o mask) s = .next t ∧ OnlyWarp it.wid s0 t ∧ ∃ w', t.warp it.wid = some w' ∧ WarpKept it.w w'
      ∧ w'.run = nextRun it.w ∧ w'.s = it.w.s ∧ w'.q = it.w.q ∧ w'.fstat = it.w.fstat
      ∧ (∀ x l, w'.vget x l = (baseOf it).vget x l)
      ∧ ∀ n l, n < 8 → l < 32 → w'.pget n l =
          if n < 7 ∧ mask.getLsbD n = true ∧ it.act.getLsbD l = true then (num it .b32 it.o.a l).testBit n
          else it.w.pget n l

/-- A floating result under FLUSH: the format's function of the sources as read under FLUSH, its value flushed (R62). -/
def Sys2Proof.flushed1 (it : Iss) (f : Fmt → Nat → FRes) (l : Nat) : FRes :=
  flushOut it.flush (tyFmt it.o.ty) (f (tyFmt it.o.ty) (it.fsrc it.o.a l).v)
/-- See `flushed1`. -/
def Sys2Proof.flushed2 (it : Iss) (f : Fmt → Nat → Nat → FRes) (l : Nat) : FRes :=
  flushOut it.flush (tyFmt it.o.ty) (f (tyFmt it.o.ty) (it.fsrc it.o.a l).v (it.fsrc it.o.b l).v)

/-- The status bits that a word sets: those of its active lanes, together (R69). -/
def Sys2Proof.allFl (it : Iss) (f : Nat → Nat) : Nat := it.lanes.foldl (fun a l => a ||| f l) 0

/-- A word that computes a floating function of two sources. -/
def Sys2Proof.FloatYields2 (i : Instr) (f : Fmt → Nat → Nat → FRes) : Prop :=
  ∀ (s s0 : State) (it : Iss), issuing i s = some (it, s0) →
    ∃ t, exec i s = .next t ∧ Computes it s0 t (tw it.o.ty)
      (wordsOf fun l => ⟨(flushed2 it f l).bits, pois2 it it.o.ty it.o.ty l⟩) (allFl it fun l => (flushed2 it f l).fl)

/-- A word that computes a floating function of one source. -/
def Sys2Proof.FloatYields1 (i : Instr) (f : Fmt → Nat → FRes) : Prop :=
  ∀ (s s0 : State) (it : Iss), issuing i s = some (it, s0) →
    ∃ t, exec i s = .next t ∧ Computes it s0 t (tw it.o.ty)
      (wordsOf fun l => ⟨(flushed1 it f l).bits, poisA it it.o.ty l⟩) (allFl it fun l => (flushed1 it f l).fl)

/-- R62, R69, R215 to R219: floating arithmetic rounds once, under FLUSH, and leaves its status bits in `%fstat`. -/
def Obligations.FloatArithmetic : Prop :=
  ∀ (o : Opnds),
    (∀ rm, FloatYields2 (.fadd o rm) fun f a b => f.add (.ofRM rm) (f.decode a) (f.decode b))
    ∧ (∀ rm, FloatYields2 (.fsub o rm) fun f a b => f.sub (.ofRM rm) (f.decode a) (f.decode b))
    ∧ (∀ rm, FloatYields2 (.fmul o rm) fun f a b => f.mul (.ofRM rm) (f.decode a) (f.decode b))
    ∧ (∀ nan, FloatYields2 (.fmin o nan) fun f a b => f.minmax false nan a b)
    ∧ (∀ nan, FloatYields2 (.fmax o nan) fun f a b => f.minmax true nan a b)
    ∧ (∀ rm, FloatYields1 (.frnd o rm) fun f a => f.integral (.ofRM rm) a)
    ∧ (∀ rm s s0 it, issuing (.ffma o rm) s = some (it, s0) →
        let fm := tyFmt it.o.ty
        let r := fun l => flushOut it.flush fm (fm.fma (.ofRM rm) (fm.decode (it.fsrc it.o.a l).v)
          (fm.decode (it.fsrc it.o.b l).v) (fm.decode (it.fsrc it.o.c l).v))
        ∃ t, exec (.ffma o rm) s = .next t ∧ Computes it s0 t (tw it.o.ty)
          (wordsOf fun l => ⟨(r l).bits, pois3 it it.o.ty it.o.ty it.o.ty l⟩) (allFl it fun l => (r l).fl))
    ∧ (∀ rm s s0 it, issuing (.fscale o rm) s = some (it, s0) →
        let fm := tyFmt it.o.ty
        let r := fun l => flushOut it.flush fm (fm.scale (.ofRM rm) (fm.decode (it.fsrc it.o.a l).v)
          (scaleExp (num it .s32 it.o.b l)))
        ∃ t, exec (.fscale o rm) s = .next t ∧ Computes it s0 t (tw it.o.ty)
          (wordsOf fun l => ⟨(r l).bits, pois2 it it.o.ty .s32 l⟩) (allFl it fun l => (r l).fl))
    ∧ Yields (.fclass o) (fun _ => .b32)
        (fun it _ l => ⟨2 ^ (tyFmt it.o.ty).classify (it.fsrc it.o.a l).v, poisA it it.o.ty l⟩) fun _ => 0

/-- A word that computes a floating function on each of two 16-bit elements (R221). -/
def Sys2Proof.PackedYields (i : Instr) (f : Fmt → Nat → Nat → Nat → FRes) : Prop :=
  ∀ (s s0 : State) (it : Iss), issuing i s = some (it, s0) →
    let r := fun (k l : Nat) => f (tyFmt it.o.ty) (fld (num it it.o.ty it.o.a l) (16 * k) 16)
      (fld (num it it.o.ty it.o.b l) (16 * k) 16) (fld (num it it.o.ty it.o.c l) (16 * k) 16)
    ∃ t, exec i s = .next t ∧ Computes it s0 t (tw it.o.ty)
      (wordsOf fun l => ⟨(r 0 l).bits + 65536 * (r 1 l).bits, pois3 it it.o.ty it.o.ty it.o.ty l⟩)
      (allFl it fun l => (r 0 l).fl ||| (r 1 l).fl)

/-- R221: packed arithmetic is its scalar operation on each element, and FLUSH does not apply. -/
def Obligations.PackedArithmetic : Prop :=
  ∀ (o : Opnds),
    (∀ rm, PackedYields (.hadd2 o rm) fun f a b _ => f.add (.ofRM rm) (f.decode a) (f.decode b))
    ∧ (∀ rm, PackedYields (.hmul2 o rm) fun f a b _ => f.mul (.ofRM rm) (f.decode a) (f.decode b))
    ∧ (∀ rm, PackedYields (.hfma2 o rm) fun f a b c => f.fma (.ofRM rm) (f.decode a) (f.decode b) (f.decode c))
    ∧ (∀ nan, PackedYields (.hmin2 o nan) fun f a b _ => f.minmax false nan a b)
    ∧ ∀ nan, PackedYields (.hmax2 o nan) fun f a b _ => f.minmax true nan a b

/-- R222 to R227: conversions between every two formats, the two-element insertion, the N4X block and the E8M0 scale. -/
def Obligations.Conversions : Prop :=
  ∀ (o : Opnds),
    (∀ d sf rm sat usefmt s s0 it, issuing (.cvt o d sf rm sat usefmt) s = some (it, s0) →
      let r := fun l => convertOne (cfmtOf d) (cfmtOf sf) (it.cvtMode rm usefmt) (it.cvtSat sat usefmt) it.flush
        (pickElem (cfmtOf sf).width (num it (srcTy sf) it.o.a l) (num it .n32 it.o.b l))
      ∃ t, exec (.cvt o d sf rm sat usefmt) s = .next t ∧ Computes it s0 t (if (cfmtOf d).width = 64 then 2 else 1)
        (wordsBy fun h l => ⟨fld (extendTo (cfmtOf d) (r l).bits) (32 * h) 32, (it.src .n32 it.o.b l).pois
          || (cvtFrom (cfmtOf d) (cfmtOf sf) (it.cvtSat sat usefmt) h).any fun g => (it.srcW (srcTy sf) it.o.a g l).pois⟩)
        (allFl it fun l => (r l).fl))
    ∧ (∀ d pos rm sat usefmt s s0 it, issuing (.cvts o d pos rm sat usefmt) s = some (it, s0) →
      let one := convertOne (cfmtOf d) (.float fmt32) (it.cvtMode rm usefmt) (it.cvtSat sat usefmt) false
      ∃ t, exec (.cvts o d pos rm sat usefmt) s = .next t ∧ Computes it s0 t 1
        (wordsOf fun l => ⟨mergeWord (cfmtOf d).width pos.val (one (num it .f32 it.o.a l)).bits
          (one (num it .f32 it.o.b l)).bits (num it .b32 it.o.c l), pois3 it .f32 .f32 .b32 l⟩)
        (allFl it fun l => (one (num it .f32 it.o.a l)).fl ||| (one (num it .f32 it.o.b l)).fl))
    ∧ (∀ s s0 it, issuing (.packq o) s = some (it, s0) →
      let q := packN4X (rndOf it.w.run.fmt)
        ((List.range 32).map fun l => fmt32.decode (if it.act.getLsbD l then num it .f32 it.o.a l else 0))
      ∃ t, exec (.packq o) s = .next t ∧ Computes it s0 t 1
        (wordsOf fun l => ⟨if l < 4 then joinElems 8 ((q.bytes.drop (4 * l)).take 4) else if l = 4 then q.scale else 0,
          it.lanes.any fun l => poisA it .f32 l⟩) (allFl it fun _ => q.fl))
    ∧ (∀ s s0 it, issuing (.unpq o) s = some (it, s0) →
      let bytes := (List.range 16).map fun i => fld (num it .f32 it.o.a (i / 4)) (8 * (i % 4)) 8
      let r := unpackElem bytes (num it .f32 it.o.a 4 % 256)
      ∃ t, exec (.unpq o) s = .next t ∧ Computes it s0 t 1
        (wordsOf fun l => ⟨(r l).bits, (List.range 5).any fun l => poisA it .f32 l⟩)
        (allFl it fun l => (r l).fl ||| (if malformedN4X bytes then fFormat else 0)))
    ∧ ∀ tf op s s0 it, issuing (.escale o tf op) s = some (it, s0) →
      let r := fun l => scaleBy tf op (num it .f32 it.o.a l) (num it .n32 it.o.b l)
      ∃ t, exec (.escale o tf op) s = .next t ∧ Computes it s0 t 1
        (wordsOf fun l => ⟨(r l).bits, pois2 it .f32 .n32 l⟩) (allFl it fun l => (r l).fl)

/-- R229: the special functions: reciprocal and square root rounded as asked; the six approximate functions. -/
def Obligations.SpecialFunctions : Prop :=
  ∀ (o : Opnds),
    (∀ rm, FloatYields1 (.frcp o rm) fun f a => f.recip (.ofRM rm) (f.decode a))
    ∧ (∀ rm, FloatYields1 (.fsqrt o rm) fun f a => f.root (.ofRM rm) (f.decode a))
    ∧ FloatYields1 (.frsq o) (fun _ a => frsqOf a)
    ∧ FloatYields1 (.fex2 o) (fun _ a => fex2Of a)
    ∧ FloatYields1 (.flg2 o) (fun _ a => flg2Of a)
    ∧ FloatYields1 (.fsin o) (fun _ a => fsinOf a)
    ∧ FloatYields1 (.fcos o) (fun _ a => fcosOf a)
    ∧ FloatYields1 (.ftanh o) fun _ a => ftanhOf a

/-- R229, whatever value the approximations take: sine, cosine and hyperbolic tangent of a finite number lie within ±1.0,
and the exact points are exact. -/
def Obligations.UnitFunctionsBounded : Prop :=
  (∀ x n m e, fmt32.decode x = .fin n m e →
    (fsinOf x).bits % 2 ^ 31 ≤ 0x3F800000 ∧ (fcosOf x).bits % 2 ^ 31 ≤ 0x3F800000 ∧ (ftanhOf x).bits % 2 ^ 31 ≤ 0x3F800000)
    ∧ (∀ x, x = 0 ∨ x = 0x80000000 → (fcosOf x).bits = 0x3F800000 ∧ (fsinOf x).bits = x ∧ (ftanhOf x).bits = x
        ∧ (fex2Of x).bits = 0x3F800000)
    ∧ (∀ x n, fmt32.decode x = .inf n → (fsinOf x) = ⟨fmt32.canonNaN, fInvalid⟩ ∧ (fcosOf x) = ⟨fmt32.canonNaN, fInvalid⟩
        ∧ (ftanhOf x).bits = if n then 0xBF800000 else 0x3F800000)
    ∧ ∀ k : Nat, k ≤ 127 → (fex2Of (fmt32.convert .rne false (ofInt k)).bits).bits = (k + 127) * 2 ^ 23

/-- R231 to R233: `xlane` reads another lane of its segment and running path, or its own; `match` gives the lanes of equal
value; `redux` folds the active lanes in ascending order, `scanx` up to each lane. -/
def Obligations.LaneWords : Prop :=
  ∀ (o : Opnds),
    (∀ mode s s0 it, issuing (.xlane o mode) s = some (it, s0) →
      (∀ l ∈ it.lanes, (it.src .n32 it.o.b l).pois = false ∧ (it.src .n32 it.o.c l).pois = false) →
      ∃ t, exec (.xlane o mode) s = .next t ∧ Computes it s0 t (tw it.o.ty) (wordsBy fun h l =>
        it.srcW it.o.ty it.o.a h (match sourceLane mode (num it .n32 it.o.c l) (num it .n32 it.o.b l) l with
          | some src => if it.w.run.mask.getLsbD src then src else l
          | none => l)) 0)
    ∧ (∀ all, Yields (.matchv o all) (fun _ => .b32) (fun it _ l =>
        let same := maskOf fun j => it.act.getLsbD j && (num it it.o.ty it.o.a j == num it it.o.ty it.o.a l)
        ⟨if all then (if same = it.act then it.act.toNat else 0) else same.toNat,
          it.lanes.any fun j => poisA it it.o.ty j⟩) fun _ => 0)
    ∧ (∀ op s s0 it, issuing (.redux o op) s = some (it, s0) →
      let r := ((it.folds op).getLast?).getD ⟨0, 0, false⟩
      ∃ t, exec (.redux o op) s = .next t ∧ Computes it s0 t (tw it.o.ty) (wordsOf fun _ => ⟨r.bits, r.pois⟩)
        (allFl it fun _ => r.fl))
    ∧ ∀ op excl s s0 it, issuing (.scanx o op excl) s = some (it, s0) →
      let below := fun l => (it.lanes.filter (· < l)).length
      let r := fun l => if excl then
          (if below l = 0 then ⟨foldIdentity it.o.ty op, 0, false⟩ else ((it.folds op)[below l - 1]?).getD ⟨0, 0, false⟩)
        else ((it.folds op)[below l]?).getD ⟨0, 0, false⟩
      ∃ t, exec (.scanx o op excl) s = .next t ∧ Computes it s0 t (tw it.o.ty)
        (wordsOf fun l => ⟨(r l).bits, (r l).pois⟩) (allFl it fun _ => (((it.folds op).getLast?).getD ⟨0, 0, false⟩).fl)

/-- R51, R50: the two halves of a pair word both read the registers as they stood before the word, each writes its own
destination in the lanes of its own guard, and every other vector register stays. -/
def Obligations.PairWords : Prop :=
  ∀ (h1 h2 : PairHalf) (s s0 : State) (it : Iss), issuing (.pairWord h1 h2) s = some (it, s0) → bankOk h1 h2 = true →
    ∃ t, exec (.pairWord h1 h2) s = .next t ∧ OnlyWarp it.wid s0 t ∧ ∃ w', t.warp it.wid = some w' ∧ WarpKept it.w w'
      ∧ w'.run = nextRun it.w ∧ w'.s = it.w.s ∧ w'.p = it.w.p ∧ w'.q = it.w.q
      ∧ ∀ x l, l < 32 → w'.vget x l =
          if h1.op ≠ .nop ∧ x = h1.d.val ∧ (it.w.guarded h1.guard it.act).getLsbD l = true then
            ⟨BitVec.ofNat 32 (halfOut it h1 l).bits, (halfOut it h1 l).pois⟩
          else if h2.op ≠ .nop ∧ x = h2.d.val ∧ (it.w.guarded h2.guard it.act).getLsbD l = true then
            ⟨BitVec.ofNat 32 (halfOut it h2 l).bits, (halfOut it h2 l).pois⟩
          else it.w.vget x l

/-- The word has no effect but to move on: no register, no memory, no other state changes (releases apart). -/
def Sys2Proof.Passes (it : Iss) (s t : State) : Prop := Computes it s t 0 (fun _ _ => PWord.zero) 0

/-- A change of the issuing warp, of trace buffers and of counters alone. -/
structure Sys2Proof.AsideTrace (wid : Nat) (s t : State) : Prop where
  free : t.free = s.free
  dev : t.dev = s.dev
  mem : t.mem = s.mem
  pairs : t.pairs = s.pairs
  grids : t.grids = s.grids
  blocks : t.blocks = s.blocks
  blkNext : t.blkNext = s.blkNext
  cmdNext : t.cmdNext = s.cmdNext
  warps : ∀ x, x ≠ wid → t.warp x = s.warp x

/-- The issuing warp and nothing else changes; the warp afterwards satisfies `p`. -/
def Sys2Proof.WarpBecomes (it : Iss) (s t : State) (p : Warp → Prop) : Prop :=
  OnlyWarp it.wid s t ∧ ∃ w', t.warp it.wid = some w' ∧ p w'

/-- R42, R167: a word whose guard no active lane passes has no effect but to move on (a sample of each family). -/
def Obligations.GuardedOff : Prop :=
  ∀ (i : Instr) (s s0 : State) (it : Iss), issuing i s = some (it, s0) → it.act = 0 →
    ((∃ o x, i = .iadd o x) ∨ (∃ o, i = .mov o) ∨ (∃ o a b, i = .isetp o a b) ∨ (∃ o, i = .nop o) ∨ (∃ o, i = .exit o)
      ∨ (∃ o c, i = .trap o c) ∨ (∃ o f, i = .setfmt o f) ∨ (∃ o, i = .nap o) ∨ (∃ o, i = .bar o) ∨ (∃ o c, i = .svc o c)
      ∨ (∃ o x, i = .lkacq o x) ∨ (∃ o, i = .cps o) ∨ (∃ o x, i = .qpush o x) ∨ (∃ o x, i = .acalloc o x)) →
    ∃ t, exec i s = .next t ∧ Passes it s0 t

/-- R173, R179, R180, R184: `nop` and `fwait` on clear flags only move on; `yield` and a `nap` of 0 give the port up; a longer
`nap` parks the warp for its count of non-stalled cycles, at most 2^20, and ends at once where a pre-emption, a drain or a halt is due; `fwait` on a raised flag waits for the mask; `sprint`
sets or clears the request. -/
def Obligations.SchedulingWords : Prop :=
  (∀ o s s0 it, issuing (.nop o) s = some (it, s0) → ∃ t, exec (.nop o) s = .next t ∧ Passes it s0 t)
  ∧ (∀ o s s0 it, issuing (.yield o) s = some (it, s0) → it.act ≠ 0 → ∃ t, exec (.yield o) s = .next t ∧
      WarpBecomes it s0 t fun w' => w'.run = nextRun it.w ∧ w'.sched.port = none ∧ w'.sched.lastIssue = s0.dev.now
        ∧ WarpKept it.w w' ∧ w'.s = it.w.s ∧ w'.p = it.w.p ∧ w'.q = it.w.q)
  ∧ (∀ o m s s0 it, issuing (.fwait o m) s = some (it, s0) → it.act ≠ 0 → (∀ f, f < 12 → m.getLsbD f = true → it.w.flag f = 0) →
      ∃ t, exec (.fwait o m) s = .next t ∧ Passes it s0 t)
  ∧ (∀ o m s s0 it f, issuing (.fwait o m) s = some (it, s0) → it.act ≠ 0 → f < 12 → m.getLsbD f = true → it.w.flag f ≠ 0 →
      ∃ t, exec (.fwait o m) s = .next t ∧ WarpBecomes it s0 t fun w' => w'.wait = some (.fwait m) ∧ w'.run = it.w.run)
  ∧ (∀ o s s0 it, issuing (.nap o) s = some (it, s0) → it.act ≠ 0 → (it.src .n32 it.o.a 0).pois = false →
      num it .n32 it.o.a 0 ≠ 0 → napOver s0 it.wid it.w = false → ∃ t, exec (.nap o) s = .next t ∧ WarpBecomes it s0 t fun w' =>
        w'.wait = some (.nap (s0.nonStalled it.core + min (num it .n32 it.o.a 0) (2 ^ 20))) ∧ w'.run = it.w.run
          ∧ w'.v = it.w.v ∧ w'.s = it.w.s ∧ w'.p = it.w.p ∧ w'.q = it.w.q)
  ∧ (∀ o s s0 it, issuing (.nap o) s = some (it, s0) → it.act ≠ 0 → (it.src .n32 it.o.a 0).pois = false →
      num it .n32 it.o.a 0 = 0 ∨ napOver s0 it.wid it.w = true → ∃ t, exec (.nap o) s = .next t ∧ WarpBecomes it s0 t fun w' =>
        w'.run = nextRun it.w ∧ w'.sched.port = none)
  ∧ ∀ o clr s s0 it, issuing (.sprint o clr) s = some (it, s0) → it.act ≠ 0 → ∃ t, exec (.sprint o clr) s = .next t ∧
      WarpBecomes it s0 t fun w' => w'.sched.sprintReq = !clr ∧ w'.run = nextRun it.w ∧ WarpKept it.w w'

/-- R181, R182: `setfmt` writes `%fmt` of the running path, clears `%fstat`, or both; `getfmt` reads `%fmt`; `setfmt` raises
POISON for a poisoned value (R471) and FORMAT for one that R68 forbids. -/
def Obligations.FormatWords : Prop :=
  (∀ o form s s0 it, issuing (.setfmt o form) s = some (it, s0) → it.act ≠ 0 → form ≠ .clear →
      (it.src .b32 it.o.a 0).pois = false → badFmt (num it .b32 it.o.a 0) = false →
      ∃ t, exec (.setfmt o form) s = .next t ∧ WarpBecomes it s0 t fun w' =>
        w'.run = { nextRun it.w with fmt := BitVec.ofNat 32 (num it .b32 it.o.a 0) }
          ∧ w'.fstat = (if form = .writeClear then 0 else it.w.fstat) ∧ WarpKept it.w w' ∧ w'.s = it.w.s ∧ w'.p = it.w.p
          ∧ w'.q = it.w.q)
  ∧ (∀ o s s0 it, issuing (.setfmt o .clear) s = some (it, s0) → it.act ≠ 0 → ∃ t, exec (.setfmt o .clear) s = .next t ∧
      WarpBecomes it s0 t fun w' => w'.run = nextRun it.w ∧ w'.fstat = 0 ∧ WarpKept it.w w')
  ∧ (∀ o s s0 it, issuing (.getfmt o) s = some (it, s0) → ∃ t, exec (.getfmt o) s = .next t ∧
      Computes it s0 t 1 (wordsOf fun _ => ⟨it.w.run.fmt.toNat, false⟩) 0)
  ∧ ∀ o form s s0 it, issuing (.setfmt o form) s = some (it, s0) → it.act ≠ 0 → form ≠ .clear →
      ((it.src .b32 it.o.a 0).pois = true →
        exec (.setfmt o form) s = .next (takeTrap s0 it.wid ⟨.poison, 0, 0, it.act, 0, 0, false⟩))
      ∧ ((it.src .b32 it.o.a 0).pois = false →
          (2 ^ 16 ≤ num it .b32 it.o.a 0 ∨ num it .b32 it.o.a 0 / 2 ^ 12 % 4 = 3) →
        exec (.setfmt o form) s = .next (takeTrap s0 it.wid ⟨.format, 0, 0, it.act, 0, 0, false⟩))

/-- The path of a branch's lanes, and of the lanes that stay, after a divergent branch (R158). -/
def Sys2Proof.splitPaths (w : Warp) (t : DWord) (taken : Word) : Path × Path :=
  (⟨t, 0, taken, w.run.fmt, w.run.fmt, w.dseq + 1⟩,
    ⟨w.run.pc + 8, (nextPlace w).2, w.run.mask &&& ~~~taken, w.run.fmt, w.run.fmt, w.dseq + 1⟩)

/-- R43, R158, R174: on a warp with one path, `bra` moves every lane to the target, none, or splits the path: the group with
the lower PC runs and the other waits. The target is the word's PC plus 8 times the signed offset, in 56 bits. R163: a uniform branch whose
guard differs among the lanes raises UNIFORM_DIVERGED with all lanes of the path, unless the context's ISSUE_CFG says
otherwise. -/
def Obligations.RelativeBranches : Prop :=
  (∀ (o : Opnds) (off : BitVec 24) (uni : Bool) (s s0 : State) (it : Iss), issuing (.bra o off uni) s = some (it, s0) →
    it.w.waiting = [] → it.w.run.mask ≠ 0 →
    let t := (it.w.run.pc + 8 * off.signExtend 64) &&& 0x00FFFFFFFFFFFFFF
    (it.act = it.w.run.mask → ∃ s', exec (.bra o off uni) s = .next s' ∧ AsideTrace it.wid s0 s' ∧ ∃ w', s'.warp it.wid = some w'
        ∧ w'.run = { it.w.run with pc := t, widx := 0 } ∧ w'.waiting = [] ∧ w'.v = it.w.v ∧ w'.s = it.w.s ∧ w'.p = it.w.p)
    ∧ (it.act = 0 → ∃ s', exec (.bra o off uni) s = .next s' ∧ AsideTrace it.wid s0 s' ∧ ∃ w', s'.warp it.wid = some w'
        ∧ w'.run = nextRun it.w ∧ w'.waiting = [] ∧ w'.v = it.w.v ∧ w'.s = it.w.s ∧ w'.p = it.w.p)
    ∧ (uni = false → it.act ≠ 0 → it.act ≠ it.w.run.mask → t ≠ it.w.run.pc + 8 →
        ∃ s', exec (.bra o off uni) s = .next s' ∧ AsideTrace it.wid s0 s' ∧ ∃ w', s'.warp it.wid = some w'
        ∧ (if t.toNat < (it.w.run.pc + 8).toNat then
            w'.run = (splitPaths it.w t it.act).1 ∧ w'.waiting = [⟨(splitPaths it.w t it.act).2, none⟩]
          else w'.run = (splitPaths it.w t it.act).2 ∧ w'.waiting = [⟨(splitPaths it.w t it.act).1, none⟩])
        ∧ w'.v = it.w.v ∧ w'.s = it.w.s ∧ w'.p = it.w.p))
  ∧ ∀ (o : Opnds) (off : BitVec 24) (s s0 : State) (it : Iss), issuing (.bra o off true) s = some (it, s0) →
    it.act ≠ 0 → it.act ≠ it.w.run.mask → wfld (s0.cfg it.ctx).issueCfg 8 1 = 0 →
    exec (.bra o off true) s = .next (takeTrap s0 it.wid ⟨.uniformDiverged, 0, 0, it.w.run.mask, 0, 0, false⟩)

/-- R175, R176: on a warp with one path all of whose lanes name one target, `bri` and `ret` go there, and `call` and `calli`
leave the address of the next word in s94 and s95. -/
def Obligations.CallsAndReturns : Prop :=
  ∀ (o : Opnds) (s s0 : State) (it : Iss), it.w.waiting = [] → it.w.run.mask ≠ 0 → it.act = it.w.run.mask →
    (∀ off, issuing (.call o off) s = some (it, s0) → ∃ s', exec (.call o off) s = .next s' ∧ AsideTrace it.wid s0 s' ∧
      ∃ w', s'.warp it.wid = some w' ∧ w'.run = { it.w.run with pc := (it.w.run.pc + 8 * off.signExtend 64) &&& 0x00FFFFFFFFFFFFFF, widx := 0 }
        ∧ (w'.sget 94).val.toNat + 2 ^ 32 * (w'.sget 95).val.toNat = (it.w.run.pc + 8).toNat
        ∧ (∀ x, x ≠ 94 → x ≠ 95 → w'.sget x = it.w.sget x) ∧ w'.v = it.w.v)
    ∧ ∀ tgt : DWord, tgt.toNat % 8 = 0 → tgt.toNat < 2 ^ 56 →
      (∀ l ∈ it.lanes, it.target l = ⟨tgt.toNat, false⟩) →
      (issuing (.bri o) s = some (it, s0) → ∃ s', exec (.bri o) s = .next s' ∧ AsideTrace it.wid s0 s' ∧
        ∃ w', s'.warp it.wid = some w' ∧ w'.run = { it.w.run with pc := tgt, widx := 0 } ∧ w'.s = it.w.s)
      ∧ (issuing (.ret o) s = some (it, s0) → ∃ s', exec (.ret o) s = .next s' ∧ AsideTrace it.wid s0 s' ∧
        ∃ w', s'.warp it.wid = some w' ∧ w'.run = { it.w.run with pc := tgt, widx := 0 } ∧ w'.s = it.w.s)
      ∧ (issuing (.calli o) s = some (it, s0) → ∃ s', exec (.calli o) s = .next s' ∧ AsideTrace it.wid s0 s' ∧
        ∃ w', s'.warp it.wid = some w' ∧ w'.run = { it.w.run with pc := tgt, widx := 0 }
          ∧ (w'.sget 94).val.toNat + 2 ^ 32 * (w'.sget 95).val.toNat = (it.w.run.pc + 8).toNat
          ∧ ∀ x, x ≠ 94 → x ≠ 95 → w'.sget x = it.w.sget x)

/-- R175, R471: an indirect branch checks its targets before any lane moves: POISON, then ADDRESS for one outside the address
space, then MISALIGNED for one that is no multiple of 8. -/
def Obligations.IndirectTargetChecks : Prop :=
  ∀ (o : Opnds) (i : Instr) (s s0 : State) (it : Iss), i = .bri o ∨ i = .ret o ∨ i = .calli o →
    issuing i s = some (it, s0) →
    ((∃ l ∈ it.lanes, (it.target l).pois = true) → ∃ m, exec i s = .next (takeTrap s0 it.wid ⟨.poison, 0, 0, m, 0, 0, false⟩))
    ∧ ((∀ l ∈ it.lanes, (it.target l).pois = false) → (∃ l ∈ it.lanes, 2 ^ 56 ≤ (it.target l).v) →
        ∃ m a, exec i s = .next (takeTrap s0 it.wid ⟨.address, 0, 0, m, a, 0, false⟩))
    ∧ ((∀ l ∈ it.lanes, (it.target l).pois = false ∧ (it.target l).v < 2 ^ 56) → (∃ l ∈ it.lanes, (it.target l).v % 8 ≠ 0) →
        ∃ m a, exec i s = .next (takeTrap s0 it.wid ⟨.misaligned, 0, 0, m, a, 0, false⟩))

/-- R164, R178: on a warp with one path outside its handler, `exit` of some lanes takes them off the path, which goes on at
the next word; `exit` of all of them ends the warp: no lane is left, and its block counts it as exited. -/
def Obligations.ExitWords : Prop :=
  ∀ (o : Opnds) (s s0 : State) (it : Iss), issuing (.exit o) s = some (it, s0) → it.w.waiting = [] → it.w.handler = none →
    it.act ≠ 0 →
    (it.act ≠ it.w.run.mask → ∃ s', exec (.exit o) s = .next s' ∧ AsideTrace it.wid s0 s' ∧ ∃ w', s'.warp it.wid = some w'
        ∧ w'.run = { nextRun it.w with mask := it.w.run.mask &&& ~~~it.act } ∧ w'.v = it.w.v ∧ w'.s = it.w.s)
    ∧ (it.act = it.w.run.mask → ∀ b, s0.block it.blk = some b → ∃ s', exec (.exit o) s = .next s' ∧ s'.mem = s0.mem ∧
        (∃ w', s'.warp it.wid = some w' ∧ w'.run.mask = 0 ∧ w'.waiting = []) ∧
        ∃ b', s'.block it.blk = some b' ∧ warpNo it.wid ∈ b'.exited)

/-- The handler frame of a warp (R386). -/
def Sys2Proof.frameOf (s : State) (wid : Nat) (w : Warp) : Nat :=
  (s.cfg (s.ctxNo wid)).hframeBase.toNat + (w.core * 128 + w.slot) * 1024

/-- R183, R387, R388, R436: `brk` raises BRK and `trap` raises USER_TRAP with the word's code, for the lanes that pass the guard.
`svc` outside the handler, where the context has one, no FAULT_HOST, and its frame is mapped and writable, ends in the handler: the active
lanes run HANDLER_PC, the others are set aside, s80 and s81 hold the frame's address and s82 SERVICE, the record holds the
code, and `rfe` will go on at the next word; no other register changes. -/
def Obligations.TrapWords : Prop :=
  ∀ (o : Opnds) (code : BitVec 8) (s s0 : State) (it : Iss), it.act ≠ 0 →
    (issuing (.svc o code) s = some (it, s0) → it.w.handler = none → (s0.cfg it.ctx).handlerPc ≠ 0 → wfld (s0.cfg it.ctx).dutyMode 0 1 = 0 →
      ((flushStores s0 it.wid).devTargets it.ctx (frameOf s0 it.wid it.w) 256 true).isSome = true →
      ∃ t w' h, exec (.svc o code) s = .next t ∧ t.warp it.wid = some w' ∧ w'.handler = some h
        ∧ w'.run = ⟨(s0.cfg it.ctx).handlerPc, 0, it.act, it.w.run.fmt, it.w.run.fmt, it.w.dseq⟩ ∧ w'.waiting = []
        ∧ h.resumePc = it.w.run.pc + 8 ∧ h.aside = it.w.run.mask &&& ~~~it.act ∧ h.frozen = it.w.waiting
        ∧ h.trap.cause = .service ∧ h.trap.code = code.toNat ∧ h.trap.pc = it.w.run.pc
        ∧ (w'.sget 80).val.toNat + 2 ^ 32 * (w'.sget 81).val.toNat = frameOf s0 it.wid it.w % 2 ^ 64
        ∧ w'.sget 82 = ⟨0x34, false⟩ ∧ (∀ x, x ≠ 80 → x ≠ 81 → x ≠ 82 → w'.sget x = it.w.sget x)
        ∧ w'.v = it.w.v ∧ w'.p = it.w.p ∧ w'.q = it.w.q ∧ w'.fstat = it.w.fstat)
    ∧ (issuing (.brk o code) s = some (it, s0) →
      exec (.brk o code) s = .next (takeTrap s0 it.wid ⟨.brk, 0, code.toNat, it.act, 0, 0, false⟩))
    ∧ (issuing (.trap o code) s = some (it, s0) →
      exec (.trap o code) s = .next (takeTrap s0 it.wid ⟨.userTrap, 0, code.toNat, it.act, 0, 0, false⟩))

/-- A word with effects elsewhere delivers `n` words to D and moves on; predicates stay. -/
def Sys2Proof.Delivers (it : Iss) (t : State) (n : Nat) (out : Nat → Nat → PWord) : Prop :=
  ∃ w', t.warp it.wid = some w' ∧ w'.run = nextRun it.w ∧ w'.p = it.w.p ∧ w'.q = it.w.q ∧ DestWritten it w' n out

/-- Grids as they were, but for the bytes of their constants sections noted as stored to (R236). -/
def Sys2Proof.GridsKept (s t : State) : Prop :=
  ∀ k, ∃ l, alook k t.grids = (alook k s.grids).map fun g => { g with image := { g.image with constStored := l } }

/-- A handled cause finds a handler: no FAULT_HOST, no wait-table entry of its page, its frame mapped and writable
(R387, R388, R392). -/
structure Sys2Proof.HandlerReady (s : State) (wid : Nat) (w : Warp) (t : TrapReq) : Prop where
  warp : s.warp wid = some w
  outside : w.handler = none
  handled : dispOf t.cause t.sub = .handler
  present : (s.cfg (s.ctxNo wid)).handlerPc ≠ 0
  own : wfld (s.cfg (s.ctxNo wid)).dutyMode 0 1 = 0
  entry : t.cause = .firstTouch ∨ t.cause = .address → findEntry s (s.ctxNo wid) (pageOf t.addr) = none
  frame : (s.devTargets (s.ctxNo wid) (frameOf s wid w) 256 true).isSome = true

/-- R387, R388, R390: entry to the supervisor handler. The warp runs HANDLER_PC in LANES, the other lanes are set aside and
the waiting entries frozen; s80 and s81 hold the frame's address and s82 the cause and subcode; every other register is
unchanged, and the device keeps s80 to s95, q0 to q2 and `%fmt`. The frame is written. The warp's stores have left its
store buffer first. `svc` takes SERVICE so. -/
def Obligations.HandlerEntry : Prop :=
  (∀ (s0 : State) (wid : Nat) (w : Warp) (t : TrapReq),
    let s := flushStores s0 wid
    HandlerReady s wid w t →
    ∃ w' h, (takeTrap s0 wid t).warp wid = some w' ∧ w'.handler = some h
      ∧ w'.run = ⟨(s.cfg (s.ctxNo wid)).handlerPc, 0, t.lanes, w.run.fmt, w.run.fmt, w.dseq⟩
      ∧ h.lanes = t.lanes ∧ h.aside = w.run.mask &&& ~~~t.lanes ∧ w'.waiting = [] ∧ h.frozen = w.waiting
      ∧ h.savedS = (List.range 16).map (fun i => w.settledS (80 + i)) ∧ h.savedQ = w.q ∧ h.savedFmt = w.run.fmt
      ∧ h.resumePc = (if t.cause = .service then w.run.pc + 8 else w.run.pc)
      ∧ h.trap.cause = t.cause ∧ h.trap.subcode = t.sub ∧ h.trap.code = t.code ∧ h.trap.lanes = t.lanes
      ∧ h.trap.pc = w.run.pc ∧ h.trap.addr = BitVec.ofNat 64 t.addr
      ∧ (w'.sget 80).val.toNat + 2 ^ 32 * (w'.sget 81).val.toNat = frameOf s wid w % 2 ^ 64
      ∧ w'.sget 82 = ⟨BitVec.ofNat 32 (t.cause.codeNo + t.sub * 256), false⟩
      ∧ (∀ x, x ≠ 80 → x ≠ 81 → x ≠ 82 → w'.sget x = w.sget x)
      ∧ w'.v = w.v ∧ w'.p = w.p ∧ w'.q = w.q ∧ w'.fstat = w.fstat ∧ w'.resv = [] ∧ w'.sched.engine = .herd
      ∧ (takeTrap s0 wid t).blocks = s.blocks ∧ GridsKept s (takeTrap s0 wid t)
      ∧ ∀ tg, s.devTargets (s.ctxNo wid) (frameOf s wid w) 256 true = some [(tg, 256)] → linkDown s tg.key = false →
          (∀ a, tg.leaf.at_ = some a → a + 1 < tg.key ∨ tg.key + 256 ≤ a + 1) →
          (takeTrap s0 wid t).mem.bytes tg.key 256 = frameBytes h)
  ∧ ∀ (o : Opnds) (code : BitVec 8) (s s0 : State) (it : Iss), issuing (.svc o code) s = some (it, s0) → it.act ≠ 0 →
      exec (.svc o code) s = .next (takeTrap s0 it.wid ⟨.service, 0, code.toNat, it.act, 0, 0, false⟩)

/-- R437, R390: `rfe` restores s80 to s95, q0 to q2 and `%fmt` from the device's own copies, unfreezes the waiting entries
and rejoins the set-aside lanes; SERVICE goes on at RESUME_PC, FIRST_TOUCH and ADDRESS repeat the word for LANES only.
While handler entries wait it raises DOUBLE. -/
def Obligations.HandlerReturn : Prop :=
  ∀ (o : Opnds) (s s0 : State) (it : Iss) (h : Handler), issuing (.rfe o) s = some (it, s0) → it.act ≠ 0 →
    it.w.handler = some h →
    (it.w.waiting = [] → h.copy = false → ∃ t w', exec (.rfe o) s = .next t ∧ t.warp it.wid = some w' ∧ w'.handler = none
      ∧ w'.waiting = h.frozen ∧ w'.q = h.savedQ
      ∧ (∀ i, i < 16 → w'.sget (80 + i) = (h.savedS[i]?).getD PWord.zero)
      ∧ (∀ x, x < 80 → w'.sget x = it.w.sget x)
      ∧ w'.run.mask = h.aside ||| it.w.run.mask ∧ w'.run.fmt = h.savedFmt
      ∧ w'.run.pc = (if h.trap.cause = .service then h.resumePc else h.path.pc)
      ∧ w'.v = it.w.v ∧ w'.p = it.w.p ∧ w'.fstat = it.w.fstat
      ∧ (h.trap.cause = .firstTouch ∨ h.trap.cause = .address → h.path.widx ≠ 0 → w'.rpt = some it.w.run.mask)
      ∧ t.mem = s0.mem ∧ t.blocks = s0.blocks ∧ handlingOf t it.wid = [])
    ∧ (it.w.waiting ≠ [] → exec (.rfe o) s = .next (takeTrap s0 it.wid ⟨.double, 0, 0, it.act, 0, 0, false⟩))

/-- R53, R54, R128, R176: the decode checks of a word on a warp and their order: a register above the warp's budget and a
call in the last word of its clause raise ILLEGAL_ENCODING, a privileged word outside the handler PRIVILEGE, a word of
another role ROLE; each for every lane of the running path, before any effect. -/
def Obligations.DecodeTraps : Prop :=
  ∀ (i : Instr) (s : State) (wid : Nat) (w : Warp) (core slot : Nat), i.parts ≠ none → s.cur = some wid →
    s.warp wid = some w → w.loc = some (core, slot) →
    let takes := fun c => exec i s = .next (takeTrap s wid ⟨c, 0, 0, w.run.mask, 0, 0, false⟩)
    let op := opOf i
    let named := (usesOf i).vr ++ (usesOf i).vw
    let fits := ∀ r ∈ named, r < w.budget
    let lastWord := ∃ cl, w.clause = some cl ∧ w.run.widx ≠ cl.hdr.len.val
    let priv := (0xD1 ≤ op ∧ op ≤ 0xD8) ∨ op = 0xE4
    ((∃ r ∈ named, w.budget ≤ r) → takes .illegalEncoding)
    ∧ (fits → (op = 0x03 ∨ op = 0x04) → lastWord → takes .illegalEncoding)
    ∧ (fits → priv → w.handler = none → takes .privilege)
    ∧ (fits → (0x80 ≤ op ∧ op ≤ 0x84) → w.role ≠ .copy → w.role ≠ .general → takes .role)
    ∧ (fits → (0x90 ≤ op ∧ op ≤ 0x95) → w.role ≠ .matrix → takes .role)
    ∧ (fits → (0x96 ≤ op ∧ op ≤ 0x99) → w.role ≠ .vector → takes .role)

/-- Once the warp's stores have left its store buffer: R383, R384, R108, R389: a fatal cause in a provisional block is held with the state it was raised with; in the handler
every cause but HALT_REQUEST becomes DOUBLE with PRIOR_CAUSE; where DUMP_CFG asks for it, a fatal trap in a confirmed block
halts its context and starts a dump; a debug cause with a debugger attached halts every warp of the context. -/
def Obligations.TrapDispositions : Prop :=
  ∀ (s0 : State) (wid : Nat) (w : Warp) (b : Block) (t : TrapReq),
    let s := flushStores s0 wid
    s.warp wid = some w → s.block (blkOf wid) = some b →
    let held := fun (c : Cause) (prior : Nat) => ∃ w' r, (takeTrap s0 wid t).warp wid = some w' ∧ w'.wait = some .held
      ∧ w'.heldTrap = some r ∧ r.cause = c ∧ r.prior = prior ∧ r.lanes = t.lanes ∧ r.pc = w.run.pc ∧ w'.run = w.run
      ∧ w'.v = w.v ∧ w'.s = w.s ∧ w'.p = w.p ∧ w'.q = w.q ∧ (takeTrap s0 wid t).mem = s.mem
      ∧ (takeTrap s0 wid t).blocks = s.blocks ∧ (takeTrap s0 wid t).dev = s.dev
    (b.prov = true → w.handler = none → dispOf t.cause t.sub = .fatal → held t.cause 0)
    ∧ (∀ h, b.prov = true → w.handler = some h → t.cause ≠ .haltRequest → held .double h.trap.cause.codeNo)
    ∧ (∀ c, b.prov = false → w.handler = none → dispOf t.cause t.sub = .fatal → s.ctx b.ctx = some c → c.dump = none →
        wfld c.eff.dumpCfg 0 1 = 1 → HostEvent.fault b.ctx ∈ (takeTrap s0 wid t).dev.events
          ∧ (∃ c' d, (takeTrap s0 wid t).ctx b.ctx = some c' ∧ c'.halted = true ∧ c'.dump = some d ∧ d.fatal = some (blkOf wid))
          ∧ ∃ w', (takeTrap s0 wid t).warp wid = some w' ∧ w'.halted = true ∧ w'.run = w.endNap.run)
    ∧ (w.handler = none → (t.cause = .haltRequest ∨ (t.cause = .brk ∨ t.cause = .watch) ∧ wfld (s.cfg b.ctx).dbgCfg 0 1 = 1) →
        HostEvent.halted b.ctx ∈ (takeTrap s0 wid t).dev.events
          ∧ ∀ x w', (takeTrap s0 wid t).warp x = some w' → (∃ b', s.block (blkOf x) = some b' ∧ b'.ctx = b.ctx) → w'.halted = true)

/-- R385, R388: the 64 B of a trap record and the first 256 B of a handler frame, field by field. -/
def Obligations.RecordLayouts : Prop :=
  (∀ r : TrapRec, r.bytes.length = 64
    ∧ fieldOf r.bytes 0x00 1 = r.cause.codeNo ∧ fieldOf r.bytes 0x01 1 = r.subcode % 2 ^ 8
    ∧ fieldOf r.bytes 0x02 1 = r.code % 2 ^ 8 ∧ fieldOf r.bytes 0x03 1 = r.prior % 2 ^ 8
    ∧ fieldOf r.bytes 0x04 4 = r.lanes.toNat ∧ fieldOf r.bytes 0x08 8 = r.pc.toNat ∧ fieldOf r.bytes 0x10 8 = r.addr.toNat
    ∧ fieldOf r.bytes 0x18 4 = r.cmdSeq.toNat ∧ fieldOf r.bytes 0x1C 4 = r.gid % 2 ^ 32
    ∧ fieldOf r.bytes 0x20 4 = r.blkIdx % 2 ^ 32 ∧ fieldOf r.bytes 0x24 2 = r.warp % 2 ^ 16
    ∧ fieldOf r.bytes 0x26 2 = r.core % 2 ^ 16 ∧ fieldOf r.bytes 0x28 4 = r.token.toNat
    ∧ fieldOf r.bytes 0x2C 4 = r.flags % 2 ^ 32 ∧ fieldOf r.bytes 0x30 8 = r.time % 2 ^ 64
    ∧ fieldOf r.bytes 0x38 4 = r.blkIdx / 2 ^ 32 % 2 ^ 31 ∧ fieldOf r.bytes 0x3C 4 = 0)
  ∧ ∀ h : Handler, h.savedS.length = 16 → (frameBytes h).length = 256
    ∧ (∀ i, i < 16 → fieldOf (frameBytes h) (0x40 + 4 * i) 4 = ((h.savedS[i]?).getD PWord.zero).val.toNat)
    ∧ (∀ i, i < 3 → (fieldOf (frameBytes h) 0x80 4).testBit i = (h.savedQ[i]?).getD false)
    ∧ fieldOf (frameBytes h) 0x80 4 < 8
    ∧ fieldOf (frameBytes h) 0x84 4 = h.savedFmt.toNat ∧ fieldOf (frameBytes h) 0x88 8 = h.resumePc.toNat
    ∧ fieldOf (frameBytes h) 0x90 4 = h.aside.toNat ∧ ∀ i, i < 64 → fieldOf (frameBytes h) i 1 = fieldOf h.trap.bytes i 1

/-- R391, R438, R439: `pgpop` gives D the frame at HEAD with bit 0 set, its page all zeros and free of poison, or 0 where
HEAD is TAIL; `pgmap` gives D the status that its checks come to, writes the leaf on status 0, once
the warp's and its core's stores are released at `.dev`, and nothing on any other, and refuses with 5 an address beyond the address space or no multiple of the leaf's size. -/
def Obligations.FramesAndMappings : Prop :=
  (∀ o s s0 it, issuing (.pgpop o) s = some (it, s0) → it.act ≠ 0 → ∃ t, exec (.pgpop o) s = .next t
      ∧ Delivers it t 2 (wordsOf fun _ => ⟨(popFrame s0 it.ctx).2, false⟩) ∧ t.mem = (popFrame s0 it.ctx).1.mem)
  ∧ (∀ (s : State) (ctx : Nat) (bs : List Byte), s.devRead ctx (s.cfg ctx).poolBase.toNat 64 = some bs →
      (fieldOf bs 8 8 = fieldOf bs 0 8 → (popFrame s ctx).2 = 0 ∧ (popFrame s ctx).1.mem = (s.devTouch ctx (s.cfg ctx).poolBase.toNat 64).mem)
      ∧ ∀ xs, fieldOf bs 0 8 ≠ fieldOf bs 8 8 →
          (s.devTouch ctx (s.cfg ctx).poolBase.toNat 64).devRead ctx ((s.cfg ctx).poolBase.toNat + 0x40 + 8 * (fieldOf bs 0 8 % 2 ^ min 20 (fieldOf bs 0x10 1))) 8 = some xs →
          leNat xs % 65536 = 0 → leNat xs < 2 ^ 48 → leNat xs + 65536 ≤ Config.devBytes →
          (popFrame s ctx).2 = leNat xs + 1 ∧ ∀ a, leNat xs ≤ a → a < leNat xs + 65536 →
            (popFrame s ctx).1.mem.byte (memKey .dev a) = 0 ∧ (popFrame s ctx).1.mem.poisoned (memKey .dev a) = false)
  ∧ ∀ (o : Opnds) (level : Fin 3) (s s0 : State) (it : Iss), issuing (.pgmap o level) s = some (it, s0) → it.act ≠ 0 →
      let va := it.src .b64 it.o.a 0
      let x := it.src .b64 it.o.b 0
      va.pois = false → x.pois = false →
      (∀ st a, mapStatus s0 it.ctx va.v level.val x.v = .ok (st, a) → ∃ t, exec (.pgmap o level) s = .next t
        ∧ Delivers it t 1 (wordsOf fun _ => ⟨st, false⟩)
        ∧ (st ≠ 0 → t.mem = s0.mem)
        ∧ (st = 0 → t.mem.num (memKey .dev a) 8 = x.v % 2 ^ 64
            ∧ ∀ k, k < memKey .dev a ∨ memKey .dev a + 8 ≤ k →
                t.mem.byte k = (releaseAt s0 it.wid .dev).mem.byte k))
      ∧ ((2 ^ 56 ≤ va.v ∨ va.v % 2 ^ (16 + 10 * level.val) ≠ 0) → mapStatus s0 it.ctx va.v level.val x.v = .ok (5, 0))

/-- R440 to R445, R393: `tlbinv` releases the warp's stores at `.dev` and parks it until the device has dropped the entries; `replay` frees the HOST entries it
names, empties the overflow list and counts the entries in D; `park` puts the warp, restored, on its entry, now a HOST entry
with the token, and tells the host; `csrrd` reads each handler register; `csrwr` writes RESUME_PC and SAVED_FMT or raises
DOUBLE; `poisck` reads poison without raising it. -/
def Obligations.HandlerWords : Prop :=
  (∀ o kind s s0 it, issuing (.tlbinv o kind) s = some (it, s0) → it.act ≠ 0 → (it.src .b64 it.o.a 0).pois = false →
      (it.src .n32 it.o.b 0).pois = false →
      let n := num it .n32 it.o.b 0
      (kind = .range → n = 0 → ∃ t, exec (.tlbinv o kind) s = .next t ∧ Passes it s0 t)
      ∧ ((kind = .range → n ≠ 0) → ∃ t, exec (.tlbinv o kind) s = .next t
          ∧ WarpBecomes it (releaseAt s0 it.wid .dev) t fun w' =>
          w'.run = it.w.run ∧ w'.wait = some (.tlbinv (if kind = .range ∧ 2 ^ 20 < n then .all else kind)
            (BitVec.ofNat 64 (num it .b64 it.o.a 0)) n)))
  ∧ (∀ o tok s s0 it, issuing (.replay o tok) s = some (it, s0) → it.act ≠ 0 →
      (it.src (if tok then .n32 else .b64) it.o.a 0).pois = false →
      let a := num it (if tok then .n32 else .b64) it.o.a 0
      let hits := s0.dev.wt.filter fun e => e.2.ctx == it.ctx && match e.2.st with
        | .host k => if tok then k == BitVec.ofNat 32 a else e.2.page == a % 2 ^ 56 / 2 ^ 16
        | .handling _ => false
      ∃ t, exec (.replay o tok) s = .next t ∧ Delivers it t 1 (wordsOf fun _ => ⟨hits.length, false⟩)
        ∧ (∀ e ∈ hits, alook e.1 t.dev.wt = none) ∧ (∀ c, t.ctx it.ctx = some c → c.overflow = []) ∧ t.mem = s0.mem)
  ∧ (∀ o s s0 it h, issuing (.park o) s = some (it, s0) → it.act ≠ 0 → (it.src .n32 it.o.a 0).pois = false →
      it.w.handler = some h →
      let token := num it .n32 it.o.a 0
      (token < 2 ^ 31 → it.w.waiting = [] → ∃ t w', exec (.park o) s = .next t ∧ t.warp it.wid = some w'
        ∧ w'.handler = none ∧ w'.wait = some (.fault (handlingOf s0 it.wid).head?) ∧ w'.run.pc = h.path.pc
        ∧ w'.run.mask = h.aside ||| it.w.run.mask ∧ w'.waiting = h.frozen ∧ w'.q = h.savedQ ∧ w'.v = it.w.v
        ∧ HostEvent.fault it.ctx ∈ t.dev.events
        ∧ ∀ i, (handlingOf s0 it.wid).head? = some i → ∃ e, alook i t.dev.wt = some e
            ∧ e.st = .host (BitVec.ofNat 32 token) ∧ it.wid ∈ e.parked)
      ∧ (2 ^ 31 ≤ token → token < 2 ^ 32 →
          exec (.park o) s = .next (takeTrap s0 it.wid ⟨.double, 0, 0, it.act, 0, 0, false⟩)))
  ∧ (∀ o c s s0 it h, issuing (.csrrd o c) s = some (it, s0) → it.act ≠ 0 → it.w.handler = some h →
      (∀ v, (match c with
          | .ctx => some (it.ctx % 64) | .keyid => some (s0.keyId it.ctx) | .ptRoot => some (s0.cfg it.ctx).ptRoot.toNat
          | .frame => some h.frame.toNat | .poolAvail => none
          | .wtEntry => some (((handlingOf s0 it.wid).head?).getD 0xFFFFFFFF) | .aside => some h.aside.toNat
          | .resumePc => some h.resumePc.toNat | .savedFmt => some h.savedFmt.toNat
          | .dutyMode => some (s0.cfg it.ctx).dutyMode.toNat | .faultVa => some h.trap.addr.toNat) = some v →
        ∃ t, exec (.csrrd o c) s = .next t ∧ Computes it s0 t (tw it.o.ty) (wordsOf fun _ => ⟨v, false⟩) 0)
      ∧ (c = .poolAvail → ∀ bs, s0.devRead it.ctx (s0.cfg it.ctx).poolBase.toNat 64 = some bs → ∃ t, exec (.csrrd o c) s = .next t
          ∧ Computes it (s0.devTouch it.ctx (s0.cfg it.ctx).poolBase.toNat 64) t (tw it.o.ty) (wordsOf fun _ => ⟨min ((fieldOf bs 8 8 + 2 ^ 64 - fieldOf bs 0 8) % 2 ^ 64) 0xFFFFFFFF, false⟩) 0))
  ∧ (∀ o c s s0 it h, issuing (.csrwr o c) s = some (it, s0) → it.act ≠ 0 → it.w.handler = some h →
      (it.src it.o.ty it.o.a 0).pois = false →
      let a := num it it.o.ty it.o.a 0
      let double := exec (.csrwr o c) s = .next (takeTrap s0 it.wid ⟨.double, 0, 0, it.act, 0, 0, false⟩)
      (c = .resumePc → h.trap.cause = .service → a % 8 = 0 → ∃ t, exec (.csrwr o c) s = .next t ∧ WarpBecomes it s0 t
        fun w' => w'.handler = some { h with resumePc := BitVec.ofNat 64 a, resumeWidx := 0 } ∧ w'.run = nextRun it.w ∧ w'.s = it.w.s)
      ∧ (c = .resumePc → (h.trap.cause ≠ .service ∨ a % 8 ≠ 0) → double)
      ∧ (c = .savedFmt → a < 2 ^ 16 → a / 2 ^ 12 % 4 ≠ 3 → ∃ t, exec (.csrwr o c) s = .next t ∧ WarpBecomes it s0 t
        fun w' => w'.handler = some { h with savedFmt := BitVec.ofNat 32 a } ∧ w'.run = nextRun it.w ∧ w'.s = it.w.s)
      ∧ (c = .savedFmt → (2 ^ 16 ≤ a ∨ a / 2 ^ 12 % 4 = 3) → double))
  ∧ ∀ o s s0 it, issuing (.poisck o) s = some (it, s0) → ∃ t, exec (.poisck o) s = .next t
      ∧ Tests it s0 t (fun l => (it.src it.o.ty it.o.a l).pois) 0

/-- R446 to R450: `trace` appends a USER packet with its tag and words to the core's buffer, or has no effect on a warp that
is not traced; `tmark` gives D the sequence number of the SYNC it emits, or all ones; `rdcnt` reads a counter of the core,
`rdptp` the time; `halt` halts every warp of the context, the issuing one at the next word, and starts a dump when asked. -/
def Obligations.TraceAndTimeWords : Prop :=
  (∀ o tag n s s0 it b, issuing (.trace o tag n) s = some (it, s0) → it.act ≠ 0 → s0.block it.blk = some b →
      (∀ x ∈ it.uniRange it.o.a n.val, x.pois = false) →
      (s0.traced b = false → ∃ t, exec (.trace o tag n) s = .next t ∧ Passes it s0 t)
      ∧ (s0.traced b = true →
          (s0.unit it.ctx it.core).lost = 0 →
          (s0.unit it.ctx it.core).buf.length + 2048 ≤ unitBytes (s0.cfg it.ctx) it.core →
          ∃ t, exec (.trace o tag n) s = .next t ∧ AsideTrace it.wid s0 t
            ∧ (∃ w', t.warp it.wid = some w' ∧ w'.run = nextRun it.w ∧ w'.s = it.w.s ∧ w'.p = it.w.p ∧ w'.q = it.w.q)
            ∧ ∃ before, (t.unit it.ctx it.core).buf = (s0.unit it.ctx it.core).buf ++ before
                ++ (BitVec.ofNat 8 (0xC0 + (it.uniRange it.o.a n.val).length) :: tag
                  :: (it.uniRange it.o.a n.val).flatMap fun x => leBytes 4 x.val.toNat)))
  ∧ (∀ o s s0 it b, issuing (.tmark o) s = some (it, s0) → it.act ≠ 0 → s0.block it.blk = some b →
      (s0.traced b = false → ∃ t, exec (.tmark o) s = .next t
        ∧ Computes it s0 t 1 (wordsOf fun _ => ⟨0xFFFFFFFF, false⟩) 0)
      ∧ (s0.traced b = true → (s0.unit it.ctx it.core).lost = 0 → (s0.unit it.ctx it.core).bits = [] →
          (s0.unit it.ctx it.core).buf.length + 2048 ≤ unitBytes (s0.cfg it.ctx) it.core →
          ∃ t, exec (.tmark o) s = .next t ∧ AsideTrace it.wid s0 t
            ∧ Delivers it t 1 (wordsOf fun _ => ⟨(s0.unit it.ctx it.core).seqNo, false⟩)
            ∧ (t.unit it.ctx it.core).seqNo = ((s0.unit it.ctx it.core).seqNo + 1) % 256))
  ∧ (∀ o num s s0 it, issuing (.rdcnt o num) s = some (it, s0) → ∃ t, exec (.rdcnt o num) s = .next t
      ∧ Computes it s0 t 1 (wordsOf fun _ => ⟨sget 0 (s0.core it.core).cnt num.val, false⟩) 0)
  ∧ (∀ o full s s0 it r, issuing (.rdptp o full) s = some (it, s0) → it.act ≠ 0 → it.o.d = .s r →
      ∃ t, exec (.rdptp o full) s = .next t ∧ WarpBecomes it s0 t fun w' => w'.run = nextRun it.w
        ∧ w'.sget r.val = ⟨BitVec.ofNat 32 (ptpNs s0.ptp), false⟩ ∧ w'.sget (r.val + 1) = ⟨BitVec.ofNat 32 (ptpSec s0.ptp), false⟩
        ∧ (full = true → w'.sget (r.val + 2) = ⟨BitVec.ofNat 32 (ptpSec s0.ptp / 2 ^ 32 % 2 ^ 16), false⟩)
        ∧ (∀ x, x < r.val ∨ r.val + (if full then 3 else 2) ≤ x → w'.sget x = it.w.sget x) ∧ w'.p = it.w.p ∧ w'.q = it.w.q)
  ∧ ∀ o dump s s0 it b c, issuing (.halt o dump) s = some (it, s0) → it.act ≠ 0 → s0.block it.blk = some b →
      s0.ctx it.ctx = some c →
      ∃ t w', exec (.halt o dump) s = .next t ∧ t.warp it.wid = some w' ∧ w'.run = nextRun it.w ∧ w'.s = it.w.s
        ∧ (∀ x y, t.warp x = some y → (∃ b', s0.block (blkOf x) = some b' ∧ b'.ctx = b.ctx) → y.halted = true)
        ∧ (∃ c', t.ctx it.ctx = some c' ∧ c'.halted = true ∧ (c.dump = none → (c'.dump.isSome = dump)))
        ∧ HostEvent.halted it.ctx ∈ t.dev.events ∧ t.mem = (flushStores (commit it s0 id) it.wid).mem

/-- An access to memory, beside the bytes it stores: other warps lose at most reservations and have at most loads replayed
(R148), contexts gain at most TLB entries, cores change what their L1 holds and their counters; devices and pairs stay. -/
structure Sys2Proof.BesideMem (wid : Nat) (s t : State) : Prop where
  agenda : t.agenda = s.agenda
  cur : t.cur = s.cur
  dev : t.dev = s.dev
  cores : ∀ c, t.core c = { s.core c with dirty := (t.core c).dirty, old := (t.core c).old, cnt := (t.core c).cnt }
  pairs : t.pairs = s.pairs
  grids : GridsKept s t
  blkNext : t.blkNext = s.blkNext
  cmdNext : t.cmdNext = s.cmdNext
  ctxs : ∀ c x, s.ctx c = some x → ∃ y, t.ctx c = some y ∧ y = { x with tlb := y.tlb }
  warps : ∀ x, x ≠ wid → (t.warp x).map (fun w => { w with resv := [], pend := [] }) =
    (s.warp x).map fun w => { w with resv := [], pend := [] }

/-- The byte of a page-table leaf that holds its TCH bit, for a leaf one of the lanes went through (R238, R240). -/
def Sys2Proof.TchByte (f : Nat → Tgt) (ls : List Nat) (k : Nat) : Prop := ∃ l ∈ ls, ∃ a, (f l).leaf.at_ = some a ∧ k = a + 1

/-- Every active lane's global access passes the checks of R264 in `s`, at the target `f l`; in `s1` no watchpoint matches it
and no link it needs is being reset. -/
structure Sys2Proof.GlobalReady (it : Iss) (s s1 : State) (k : AccKind) (rd wr : Bool) (n : Nat) (ea : Nat → PV) (f : Nat → Tgt) : Prop where
  clean : ∀ l ∈ it.lanes, (ea l).pois = false
  inside : ∀ l ∈ it.lanes, (ea l).v < 2 ^ 56
  aligned : ∀ l ∈ it.lanes, (ea l).v % n = 0
  target : ∀ l ∈ it.lanes, s.access it.ctx (ea l).v (laneFree s l) k = .ok (f l)
  unwatched : ∀ l ∈ it.lanes, watched s1 it.ctx false rd wr (ea l).v n = false
  link : waitsForLink it s1 ea = false

/-- Every lane finds `n` miss-status entries (R247). -/
def Sys2Proof.MissRoom (it : Iss) (s : State) (n : Nat) : Prop := missUsed s it.core + it.lanes.length * n + missKept s it.core it.wid ≤ 4096

/-- Every target lies in sectors whose contents are specified for the context (R255, R258), and none behind a link that is down
(R260). -/
def Sys2Proof.Settled (it : Iss) (s : State) (n : Nat) (f : Nat → Tgt) : Prop :=
  ∀ l ∈ it.lanes, linkDown s (f l).key = false ∧ ∀ x ∈ sectors (f l).key n, s.mem.unknown (s.keyId it.ctx) x = false

/-- No byte that an L1 has not written back lies in a target. -/
def Sys2Proof.L1Apart (it : Iss) (s : State) (n : Nat) (f : Nat → Tgt) : Prop :=
  ∀ l ∈ it.lanes, ∀ e ∈ s.cores, ∀ b ∈ e.2.dirty, b.meets (f l).key n = false

/-- An access marked as a last use finds no dirty bytes in the lines it names (R261). -/
def Sys2Proof.LastUseClean (it : Iss) (s : State) (cache : CacheHint) (f : Nat → Tgt) : Prop :=
  cache = .lu → ∀ l ∈ it.lanes, ∀ e ∈ s.cores, ∀ b ∈ e.2.dirty, ∀ k, b.spot = .mem k → lineOf k ≠ lineOf (f l).key

/-- The warp's own stores and its core's dirty bytes of the targets are in memory (R326): the state an access to them starts
from. -/
def Sys2Proof.settledFor (it : Iss) (s : State) (n : Nat) (f : Nat → Tgt) : State := settleLanes it s (it.lanes.map fun l => (l, f l)) n

/-- The word moves on with an operation outstanding on its flag and no register written yet (R36). -/
def Sys2Proof.Outstanding (it : Iss) (s t : State) (kind : PendKind) (vw : List (Nat × Nat × PWord)) (sw : List (Nat × PWord))
    (src : List LoadSrc) : Prop :=
  ∃ w w', s.warp it.wid = some w ∧ t.warp it.wid = some w' ∧ w'.run = nextRun it.w ∧ w'.s = it.w.s ∧ w'.p = it.w.p ∧ w'.q = it.w.q
    ∧ (∀ x l, w'.vget x l = (baseOf it).vget x l)
    ∧ w'.pend = w.pend ++ [⟨flagOf it.w it.o.fsel, kind, vw, sw, src, renames it.instr it.w, []⟩]

/-- The vector words a load delivers in a lane: those of the events of its parts (R265, R267). -/
def Sys2Proof.sightWords (it : Iss) (s : State) (w : MemW) (ord : LdOrd) (sc : Scope) (f : Nat → Tgt) (l : Nat) : List (Nat × Nat × PWord) :=
  laneWords it.o.d l (loadWords w ((laneSights s it ord sc (f l).key (memBytes w)).flatMap fun p => p.2.2.bytes)
    fun _ => (loadGlobal s it.blk (f l) (memBytes w)).2)

/-- R263, R265, R36, R238, R270, R192: a load of lanes that all pass their checks is outstanding on its flag with the words
that it will write; memory keeps every byte but the TCH bits of the leaves it went through; `ldr` reserves each lane's
64 B granule (no L1 holds bytes that it would have to write back); `sld` reads once for the warp. -/
def Obligations.GlobalLoads : Prop :=
  (∀ o w ord scope cache vs ixs s s0 it f, issuing (.ld o w ord scope cache vs ixs) s = some (it, s0) → it.act ≠ 0 →
      let n := memBytes w
      let s1 := settledFor it s0 n f
      GlobalReady it s0 s1 ⟨false, vs, some it.blk⟩ true false n (it.ea ixs) f → MissRoom it s1 1 →
      (∀ l ∈ it.lanes, trapsAtLoad s1 it.blk (f l) n = false) → LastUseClean it s1 cache f →
      ∃ t, exec (.ld o w ord scope cache vs ixs) s = .next t ∧ BesideMem it.wid s1 t ∧ t.blocks = s1.blocks ∧ t.grids = s1.grids
        ∧ (∀ k, ¬ TchByte f it.lanes k → t.mem.byte k = s1.mem.byte k)
        ∧ Outstanding it s1 t (loadKind s1 (it.lanes.map fun l => (l, f l))) (it.lanes.flatMap (sightWords it s1 w ord scope f)) []
            (if ord = .acq then [] else loadSrcs it w (it.lanes.map fun l => (l, .mem (f l).key))))
  ∧ (∀ o w ord scope ixs s s0 it f, issuing (.ldr o w ord scope ixs) s = some (it, s0) → it.act ≠ 0 →
      let n := memBytes w
      let s1 := settledFor it s0 n f
      GlobalReady it s0 s1 ⟨false, false, some it.blk⟩ true false n (it.ea ixs) f → MissRoom it s1 1 →
      (∀ l ∈ it.lanes, trapsAtLoad s1 it.blk (f l) n = false) → (∀ e ∈ s1.cores, e.2.dirty = []) →
      ∃ t, exec (.ldr o w ord scope ixs) s = .next t ∧ BesideMem it.wid s1 t ∧ t.blocks = s1.blocks ∧ t.grids = s1.grids
        ∧ (∀ k, ¬ TchByte f it.lanes k → t.mem.byte k = s1.mem.byte k)
        ∧ Outstanding it s1 t (loadKind s1 (it.lanes.map fun l => (l, f l)))
            (it.lanes.flatMap fun l => let d := loadGlobal s1 it.blk (f l) n
              laneWords it.o.d l (loadWords w d.1 fun _ => d.2)) [] []
        ∧ ∃ w', t.warp it.wid = some w' ∧ ∀ l ∈ it.lanes, (f l).va = (it.ea ixs l).v → (f l).leaf.bits 7 1 = 0 →
            alook l w'.resv = some ((f l).key / 64))
  ∧ ∀ o w ord scope s s0 it g, issuing (.sld o w ord scope) s = some (it, s0) → it.act ≠ 0 →
      let n := memBytes (sldWidth w)
      let s1 := settle s0 it.wid g.key n
      it.eaU.pois = false → it.eaU.v < 2 ^ 56 → it.eaU.v % n = 0 →
      s0.access it.ctx it.eaU.v (laneFree s0 0) ⟨false, false, some it.blk⟩ = .ok g →
      watched s1 it.ctx false true false it.eaU.v n = false → waitsForLink it s1 (fun _ => it.eaU) = false →
      trapsAtLoad s1 it.blk g n = false → MissRoom it s1 1 →
      ∃ t, exec (.sld o w ord scope) s = .next t ∧ BesideMem it.wid s1 t ∧ t.blocks = s1.blocks ∧ t.grids = s1.grids
        ∧ (∀ k, ¬ TchByte (fun _ => g) [0] k → t.mem.byte k = s1.mem.byte k)
        ∧ Outstanding it s1 t (loadKind s1 [(0, g)]) [] (uniWords it.o.d (loadWords (sldWidth w)
            ((laneSights s1 it ord scope g.key n).flatMap fun p => p.2.2.bytes) fun _ => (loadGlobal s1 it.blk g n).2)) []

/-- Memory after the lanes of `ls` have stored `n` bytes each: a byte that several lanes store takes the highest lane's
value, any other byte but a TCH byte stays (R266). -/
def Sys2Proof.StoredBytes (s t : State) (n : Nat) (f : Nat → Tgt) (data : Nat → List Byte) (ls : List Nat) : Prop :=
  ∀ k, ¬ TchByte f ls k → t.mem.byte k =
    match (ls.filter fun l => decide ((f l).key ≤ k ∧ k < (f l).key + n)).getLast? with
    | some l => ((data l)[k - (f l).key]?).getD 0
    | none => s.mem.byte k

/-- A store's warp has moved on: no register but those released has changed. -/
def Sys2Proof.StoreMovesOn (it : Iss) (t : State) : Prop :=
  ∃ w', t.warp it.wid = some w' ∧ w'.run = nextRun it.w ∧ w'.s = it.w.s ∧ w'.p = it.w.p ∧ w'.q = it.w.q
    ∧ ∀ x l, w'.vget x l = (baseOf it).vget x l

/-- No warp holds a reservation on the granules of the targets (R270). -/
def Sys2Proof.Unreserved (it : Iss) (t : State) (f : Nat → Tgt) : Prop :=
  ∀ l ∈ it.lanes, ∀ x y, t.warp x = some y → ∀ r ∈ y.resv, r.2 ≠ (f l).key / 64

/-- R266, R267, R326, R327, R333: a confirmed block's store of lanes that all pass, weak or relaxed, enters the warp's store
buffer in parts of at most 8 B; memory, blocks and every register stay. -/
def Sys2Proof.StoreBuffers : Prop :=
  ∀ o w ord scope cache ixs s s0 it f b, issuing (.st o w ord scope cache ixs) s = some (it, s0) → ord ≠ .rel →
    s0.block it.blk = some b → b.prov = false →
    let n := memBytes w
    GlobalReady it s0 s0 ⟨true, false, some it.blk⟩ false true n (it.ea ixs) f → MissRoom it s0 (parts8 n).length →
    LastUseClean it s0 cache f →
    ∃ t, exec (.st o w ord scope cache ixs) s = .next t ∧ BesideMem it.wid s0 t ∧ t.blocks = s0.blocks ∧ t.grids = s0.grids
      ∧ (∀ k, ¬ TchByte f it.lanes k → t.mem.byte k = s0.mem.byte k) ∧ StoreMovesOn it t
      ∧ ∃ w', t.warp it.wid = some w' ∧ w'.pend = it.w.pend ∧ w'.sbuf = it.w.sbuf ++ it.lanes.flatMap fun l =>
          (it.dataParts it.o.d n l).map fun p => ⟨.mem ((f l).key + p.off), p.bytes, p.pois, s0.keyId it.ctx, it.wid,
            storeReach s0 it ord scope cache, s0.dev.now, it.w.run.mask⟩

/-- R266, R270, R327, R472: a release's store, once all that comes before it is released, is in memory at once: its lanes' bytes
and nothing else but TCH bits, no reservation on its granules, and poison only for poisoned data. -/
def Sys2Proof.StoreReleases : Prop :=
  ∀ o w scope cache ixs s s0 it f b, issuing (.st o w .rel scope cache ixs) s = some (it, s0) → it.act ≠ 0 →
    s0.block it.blk = some b → b.prov = false →
    let n := memBytes w
    let data := fun l => it.dataBytes it.o.d n l
    let s1 := releaseAt (s0.modWarp it.wid Warp.unmiss) it.wid scope
    GlobalReady it s0 s0 ⟨true, false, some it.blk⟩ false true n (it.ea ixs) f → MissRoom it s0 (parts8 n).length →
    ∃ t, exec (.st o w .rel scope cache ixs) s = .next t ∧ StoreMovesOn it t
      ∧ (Settled it s1 n f → L1Apart it s1 n f → LastUseClean it s1 cache f →
        BesideMem it.wid s1 t ∧ t.blocks = s1.blocks ∧ StoredBytes s1 t n f (fun l => (data l).1) it.lanes
        ∧ ((∀ l ∈ it.lanes, (data l).2 = false) → ∀ k, t.mem.poisoned k = true → s1.mem.poisoned k = true)
        ∧ ((∀ l ∈ it.lanes, (data l).2 = true) → ∀ l ∈ it.lanes, t.mem.poisoned (f l).key = true)
        ∧ Unreserved it t f)

/-- R260, R266, R270, R472: a buffered store that reaches memory writes its bytes and no others, marks the sectors it touches
where its data are poisoned, and takes every reservation on its granules; over a link that is down memory keeps every byte. -/
def Sys2Proof.StoresLand : Prop :=
  ∀ (s : State) (b : Buffered) (k : Nat), b.spot = .mem k → b.bytes ≠ [] →
    (linkDown s k = true → (s.land b).mem = s.mem)
    ∧ (linkDown s k = false → (∀ x ∈ sectors k b.bytes.length, s.mem.unknown b.kid x = false) →
        (∀ j, (s.land b).mem.byte j = if k ≤ j ∧ j < k + b.bytes.length then (b.bytes[j - k]?).getD 0 else s.mem.byte j)
        ∧ (b.pois.any id = true → ∀ x ∈ sectors k b.bytes.length, (s.land b).mem.poisoned (32 * x) = true)
        ∧ (b.pois.any id = false → ∀ j, (s.land b).mem.poisoned j = true → s.mem.poisoned j = true)
        ∧ ∀ x y, (s.land b).warp x = some y → ∀ r ∈ y.resv, r.2 < k / 64 ∨ (k + b.bytes.length - 1) / 64 < r.2)

/-- R266, R267, R270, R271, R327, R472: stores enter the warp's store buffer, or reach memory at once where they release; those in
the buffer reach memory as they leave it. `stc` of one lane stores and gives 1 where the lane holds the reservation, and gives 0
and stores nothing where it does not (its D is a vector register or `zero`, R261). -/
def Obligations.GlobalStores : Prop :=
  StoreBuffers ∧ StoreReleases ∧ StoresLand
  ∧ ∀ o w ord scope ixs s s0 it f l w1, issuing (.stc o w ord scope ixs) s = some (it, s0) →
      it.lanes = [l] → (∀ r, it.o.d ≠ .s r) →
      let n := memBytes w
      let s1 := settle (released it (s0.modWarp it.wid Warp.unmiss) ord scope) it.wid (f l).key n
      (∃ b, s0.block it.blk = some b) → GlobalReady it s0 s0 ⟨true, false, some it.blk⟩ false true n (it.ea ixs) f →
      MissRoom it s0 1 → s1.warp it.wid = some w1 →
      (alook l w1.resv = some ((f l).key / 64) → ∃ t w', exec (.stc o w ord scope ixs) s = .next t
        ∧ Delivers it t 1 (wordsOf fun _ => ⟨1, false⟩) ∧ t.warp it.wid = some w' ∧ alook l w'.resv = none
        ∧ (Settled it s1 n f → L1Apart it s1 n f → BesideMem it.wid s1 t ∧ Unreserved it t f
          ∧ StoredBytes s1 t n f (fun l => (it.dataBytes it.o.c n l).1) [l]))
      ∧ (alook l w1.resv ≠ some ((f l).key / 64) → ∃ t w', exec (.stc o w ord scope ixs) s = .next t
        ∧ BesideMem it.wid s1 t ∧ (∀ k, ¬ TchByte f [l] k → t.mem.byte k = s1.mem.byte k)
        ∧ Delivers it t 1 (wordsOf fun _ => ⟨0, false⟩) ∧ t.warp it.wid = some w' ∧ alook l w'.resv = none)

/-- Every active lane's scratchpad access passes the checks of R235 and R264, at the block and offset `f l`. -/
structure Sys2Proof.ScratchReady (it : Iss) (s : State) (rd wr : Bool) (n : Nat) (ea : Nat → PV) (f : Nat → Option Nat × Nat) : Prop where
  clean : ∀ l ∈ it.lanes, (ea l).pois = false
  place : ∀ l ∈ it.lanes, scrAddr s it.blk (ea l).v n = some (f l)
  aligned : ∀ l ∈ it.lanes, (ea l).v % n = 0
  unwatched : ∀ l ∈ it.lanes, watched s it.ctx true rd wr (ea l).v n = false

/-- The warp's own stores to the words of scratchpad that its lanes name have landed (R326). -/
def Sys2Proof.scrSettled (it : Iss) (s : State) (n : Nat) (f : Nat → Option Nat × Nat) : State :=
  it.lanes.foldl (fun s l => settleScr s it.wid (f l) n) s

/-- R235, R265 to R267, R327: scratchpad loads are outstanding with the words they read; a weak or relaxed scratchpad store enters
the warp's store buffer in parts of at most 8 B; a release's writes its bytes at once in the blocks whose windows it names, the highest
lane's where several write a byte, and changes nothing else of any block, where no phase word of a ring with arrivals is
among them (R252). -/
def Obligations.ScratchpadAccesses : Prop :=
  (∀ o w ord scope s s0 it f, issuing (.lds o w ord scope) s = some (it, s0) → it.act ≠ 0 →
      let n := memBytes w
      let s1 := scrSettled it s0 n f
      ScratchReady it s0 true false n it.ea32 f →
      ∃ t, exec (.lds o w ord scope) s = .next t ∧ BesideMem it.wid s1 t ∧ t.blocks = s1.blocks ∧ t.mem = s1.mem
        ∧ Outstanding it s1 t .mem (it.lanes.flatMap fun l =>
            laneWords it.o.d l (loadWords w (scrRead s1 (f l) n).1 fun i => scrPoisAt s1 (f l) n i)) []
            (if ord = .acq then [] else loadSrcs it w (it.lanes.filterMap fun l => (scrSpot (f l)).map fun p => (l, p))))
  ∧ (∀ o w ord scope s s0 it f, issuing (.sts o w ord scope) s = some (it, s0) → ord ≠ .rel →
      let n := memBytes w
      ScratchReady it s0 false true n it.ea32 f →
      ∃ t, exec (.sts o w ord scope) s = .next t ∧ BesideMem it.wid s0 t ∧ t.mem = s0.mem ∧ t.blocks = s0.blocks ∧ StoreMovesOn it t
        ∧ ∃ w', t.warp it.wid = some w' ∧ w'.pend = it.w.pend ∧ w'.sbuf = it.w.sbuf ++ it.lanes.flatMap fun l =>
            (it.dataParts it.o.d n l).filterMap fun d => (scrSpot ((f l).1, (f l).2 + d.off)).map fun x =>
              ⟨x, d.bytes, d.pois, 0, it.wid, 2, s0.dev.now, it.w.run.mask⟩)
  ∧ ∀ o w scope s s0 it f, issuing (.sts o w .rel scope) s = some (it, s0) → it.act ≠ 0 →
      let n := memBytes w
      let s1 := releaseAt s0 it.wid scope
      ScratchReady it s0 false true n it.ea32 f →
      (∀ l ∈ it.lanes, ∀ bn b, (f l).1 = some bn → s1.block bn = some b → ∀ r ∈ b.rings,
        ∀ w ∈ scrWords (f l).2 n, 4 * w < r + 0x40 ∨ r + 0x140 ≤ 4 * w) →
      ∃ t, exec (.sts o w .rel scope) s = .next t ∧ BesideMem it.wid s1 t ∧ t.mem = s1.mem ∧ StoreMovesOn it t
        ∧ ∀ bn b, s1.block bn = some b → ∃ b', t.block bn = some b' ∧ b' = { b with scr := b'.scr, scrPois := b'.scrPois }
            ∧ ∀ j, sget 0 b'.scr j =
                match (it.lanes.filter fun l => decide ((f l).1 = some bn ∧ (f l).2 ≤ j ∧ j < (f l).2 + n)).getLast? with
                | some l => ((it.dataBytes it.o.d n l).1[j - (f l).2]?).getD 0
                | none => sget 0 b.scr j

/-- R236, R268: `ldc` of the parameter store and of the constants section, whose space is not translated (R234), is outstanding
with the words at its offsets; a bank that does not exist raises ADDRESS. -/
def Sys2Proof.ConstantLoads : Prop :=
  ∀ o w bank s s0 it g, issuing (.ldc o w bank) s = some (it, s0) → it.act ≠ 0 → s0.gridOfWarp it.wid = some g →
    let n := memBytes w
    let off := fun l => (num it .b32 it.o.a l + it.koff 32) % 2 ^ 32
    (∀ l ∈ it.lanes, (it.src .b32 it.o.a l).pois = false) →
    ((∀ l ∈ it.lanes, off l + n ≤ bankSize g bank.val ∧ off l % n = 0) → MissRoom it s0 1 →
      ∃ t, exec (.ldc o w bank) s = .next t ∧ BesideMem it.wid s0 t ∧ t.mem = s0.mem ∧ t.blocks = s0.blocks
        ∧ Outstanding it s0 t .mem (it.lanes.flatMap fun l => laneWords it.o.d l (constWords s0 it.ctx g w bank.val (off l)))
            (match it.lanes with | l :: _ => uniWords it.o.d (constWords s0 it.ctx g w bank.val (off l)) | [] => []) [])
    ∧ (∀ l, 2 ≤ bank.val → it.lanes.head? = some l → exec (.ldc o w bank) s = .next (raise it s0 .address 0 it.act (off l)))

/-- R272, R273, R274, R241: `pref` only moves on; `cctl` writes the core's dirty bytes back, all of them or those of its lanes'
lines, and may drop what the L1 holds; `icinv` waits for its line to be dropped, with the core's bytes written back. -/
def Sys2Proof.CacheWords : Prop :=
  (∀ o level ixs s s0 it, issuing (.pref o level ixs) s = some (it, s0) →
      ∃ t, exec (.pref o level ixs) s = .next t ∧ Passes it
        (walkAll it s0 (it.ea ixs) (it.lanes.filter fun l => !(it.ea ixs l).pois && decide ((it.ea ixs l).v < 2 ^ 56))) t)
  ∧ (∀ o opr ixs s s0 it, issuing (.cctl o opr ixs) s = some (it, s0) →
      (it.act = 0 → opr = .wball ∨ opr = .wbinvall → ∃ t, exec (.cctl o opr ixs) s = .next t ∧ Passes it s0 t)
      ∧ (it.act ≠ 0 → opr = .wball → ∃ t, exec (.cctl o opr ixs) s = .next t
          ∧ Passes it (landDirty s0 it.core fun _ => true) t ∧ (t.core it.core).dirty = [])
      ∧ (it.act ≠ 0 → opr = .wbinvall → ∃ t, exec (.cctl o opr ixs) s = .next t
          ∧ Passes it ((landDirty s0 it.core fun _ => true).modCore it.core Core.refresh) t
          ∧ (t.core it.core).dirty = [] ∧ (t.core it.core).old = [])
      ∧ ((opr = .wb ∨ opr = .wbinv) → (∀ l ∈ it.lanes, (it.ea ixs l).pois = false ∧ (it.ea ixs l).v < 2 ^ 56
            ∧ ∃ x, s0.leaf it.ctx (it.ea ixs l).v (laneFree s0 l) = .ok x) →
          let ok := okLanes (it.lanes.map fun l => chkCctl it s0 ixs l)
          ∃ t, exec (.cctl o opr ixs) s = .next t ∧ Passes it
            (walkAll it ((ok.filterMap Prod.snd).foldl (cctlLine it.core (opr == .wbinv)) s0) (it.ea ixs) (ok.map Prod.fst)) t))
  ∧ ∀ o s s0 it, issuing (.icinv o) s = some (it, s0) → it.act ≠ 0 → ∃ t, exec (.icinv o) s = .next t
      ∧ WarpBecomes it (landDirty s0 it.core fun _ => true) t fun w' => w'.run = it.w.run
        ∧ w'.wait = some (.icinv (BitVec.ofNat 64 ((num it .b64 it.o.a 0 + it.koff 64) % 2 ^ 64)))

/-- R241, R327, R329, R350: a fence only moves on, once its release side has released or taken its place behind the path's
buffered stores, and its acquire side acquired: `.sc` leaves the path no store in the buffer, and its core none that agents
beyond the cluster do not see where the scope names those; a fence that acquires, at a scope that names another core, leaves the
core nothing to read that is older than memory. -/
def Sys2Proof.Fences : Prop :=
  ∀ o kind scope s s0 it, issuing (.fence o kind scope) s = some (it, s0) →
    let s1 := if it.act = 0 ∨ kind = .acq then s0 else if kind = .sc then releaseAt s0 it.wid scope else fenceRel it s0 scope
    let s2 := if it.act = 0 ∨ kind = .rel then s1 else acquireAt s1 it.wid scope
    ∃ t, exec (.fence o kind scope) s = .next t ∧ Passes it s2 t
      ∧ (it.act ≠ 0 → kind = .sc → (reachOf s0 it.wid scope = 2 → (t.core it.core).dirty = [])
          ∧ ∀ w', t.warp it.wid = some w' → ∀ b ∈ w'.sbuf, b.lanes &&& it.w.run.mask = 0)
      ∧ (it.act ≠ 0 → kind = .rel ∨ kind = .acqrel → (pathStores s0 it.wid fun _ => true) = true →
          ∃ w w', s0.warp it.wid = some w ∧ t.warp it.wid = some w'
            ∧ w'.sbuf = w.sbuf ++ [⟨.mem 0, [], [], 0, it.wid, reachOf s0 it.wid scope, s0.dev.now, it.w.run.mask⟩])
      ∧ (it.act ≠ 0 → kind ≠ .rel → wideScope s0 it.wid scope = true → (t.core it.core).old = [])

/-- R326, R327, R331 to R333: what an event of a load sees: memory's bytes, where it acquires, or is strong at a scope that names
another core, on DEV or PEER memory with no older load outstanding, or where its core holds nothing older; else each
byte is memory's or one its core holds from before. -/
def Sys2Proof.LoadsSee : Prop :=
  ∀ (s : State) (it : Iss) (ord : LdOrd) (sc : Scope) (floor key n : Nat),
    (∀ b, s.block it.blk = some b → b.ctx = it.ctx) →
    let now := (loadKey s it.blk key n).1
    let seen := (sightOf s it ord sc floor key n).bytes
    (ord = .acq → seen = now)
    ∧ (ord = .rlx → wideScope s it.wid sc = true → key < 2 ^ 49 → it.w.pend.any Pend.isLoad = false → seen = now)
    ∧ ((∀ i, i < n → sget [] (s.core it.core).old (key + i) = []) → seen = now)
    ∧ ∀ b i, s.block it.blk = some b → b.plines = [] → i < n →
        seen[i]? = now[i]? ∨ ∃ x ∈ sget [] (s.core it.core).old (key + i), seen[i]? = some x.val

/-- An agent of a warp of its own on one device. -/
def Sys2Proof.litAgent (n : Nat) : Agent := ⟨n, n, n, 0, some 0⟩
/-- The scope that names all those agents for a memory type. -/
def Sys2Proof.litScope : MemType → Scope | .scratch => .cls | _ => .dev
/-- A write of agent `n` to a location. -/
def Sys2Proof.litWrite (t : MemType) (n loc : Nat) (o : EvOrd) : MemEvent := ⟨litAgent n, .write, o, litScope t, t, 8 * loc, 4, []⟩
/-- A read of agent `n` from a location, its address computed from some earlier loads. -/
def Sys2Proof.litRead (t : MemType) (n loc : Nat) (o : EvOrd) (d : List Nat) : MemEvent := ⟨litAgent n, .read, o, litScope t, t, 8 * loc, 4, d⟩
/-- A fence of agent `n`. -/
def Sys2Proof.litFence (t : MemType) (n : Nat) (k : FenceKind) : MemEvent := ⟨litAgent n, .fence k, .rlx, litScope t, t, 0, 0, []⟩
/-- Reads-from of whole 4 B accesses: read, location, write. -/
def Sys2Proof.litRf (l : List (Nat × Nat × Nat)) : List (Nat × Nat × Nat) := l.flatMap fun e => (List.range 4).map fun i => (e.1, 8 * e.2.1 + i, e.2.2)
/-- Coherence orders of whole locations. -/
def Sys2Proof.litCo (l : List (Nat × List Nat)) : List (Nat × List Nat) := l.flatMap fun e => (List.range 4).map fun i => (8 * e.1 + i, e.2)
/-- Message passing, with the orders of the second store and the first load. -/
def Sys2Proof.litMP (t : MemType) (o1 o2 : EvOrd) : Execution :=
  ⟨[litWrite t 0 0 .rlx, litWrite t 0 1 o1, litRead t 1 1 o2 [], litRead t 1 0 .rlx []], litRf [(2, 1, 1)], litCo [(0, [0]), (1, [1])], [], [], []⟩
/-- Store buffering. -/
def Sys2Proof.litSB (t : MemType) : Execution :=
  ⟨[litWrite t 0 0 .rlx, litRead t 0 1 .rlx [], litWrite t 1 1 .rlx, litRead t 1 0 .rlx []], [], litCo [(0, [0]), (1, [2])], [], [], []⟩
/-- Store buffering with `fence.sc` between, in an order S. -/
def Sys2Proof.litSBF (t : MemType) (s : List Nat) : Execution :=
  ⟨[litWrite t 0 0 .rlx, litFence t 0 .sc, litRead t 0 1 .rlx [], litWrite t 1 1 .rlx, litFence t 1 .sc, litRead t 1 0 .rlx []],
    [], litCo [(0, [0]), (1, [3])], [], s, []⟩
/-- Load buffering. -/
def Sys2Proof.litLB (t : MemType) : Execution :=
  ⟨[litRead t 0 0 .rlx [], litWrite t 0 1 .rlx, litRead t 1 1 .rlx [], litWrite t 1 0 .rlx], litRf [(0, 0, 3), (2, 1, 1)],
    litCo [(0, [3]), (1, [1])], [], [], []⟩
/-- Coherence of two reads. -/
def Sys2Proof.litCoRR (t : MemType) : Execution :=
  ⟨[litWrite t 0 0 .rlx, litRead t 1 0 .rlx [], litRead t 1 0 .rlx []], litRf [(1, 0, 0)], litCo [(0, [0])], [], [], []⟩
/-- Write-to-read causality. -/
def Sys2Proof.litWRC (t : MemType) (o1 o2 : EvOrd) : Execution :=
  ⟨[litWrite t 0 0 .rlx, litRead t 1 0 .rlx [], litWrite t 1 1 o1, litRead t 2 1 o2 [], litRead t 2 0 .rlx [3]],
    litRf [(1, 0, 0), (3, 1, 2)], litCo [(0, [0]), (1, [2])], [], [], []⟩
/-- Independent reads of independent writes. -/
def Sys2Proof.litIRIW (t : MemType) : Execution :=
  ⟨[litWrite t 0 0 .rlx, litWrite t 1 1 .rlx, litRead t 2 0 .rlx [], litRead t 2 1 .rlx [2], litRead t 3 1 .rlx [],
    litRead t 3 0 .rlx [4]], litRf [(2, 0, 0), (4, 1, 1)], litCo [(0, [0]), (1, [1])], [], [], []⟩
/-- 2+2W. -/
def Sys2Proof.lit22W (t : MemType) : Execution :=
  ⟨[litWrite t 0 0 .rlx, litWrite t 0 1 .rlx, litWrite t 1 1 .rlx, litWrite t 1 0 .rlx], [], litCo [(0, [3, 0]), (1, [1, 2])], [], [], []⟩
/-- S, with the order of the second store. -/
def Sys2Proof.litS (t : MemType) (o : EvOrd) : Execution :=
  ⟨[litWrite t 0 0 .rlx, litWrite t 0 1 o, litRead t 1 1 .rlx [], litWrite t 1 0 .rlx], litRf [(2, 1, 1)],
    litCo [(0, [3, 0]), (1, [1])], [], [], []⟩

/-- Independent reads with `fence.sc` between each reader's loads, in an order S. -/
def Sys2Proof.litIRIWF (t : MemType) (s : List Nat) : Execution :=
  ⟨[litWrite t 0 0 .rlx, litWrite t 1 1 .rlx, litRead t 2 0 .rlx [], litFence t 2 .sc, litRead t 2 1 .rlx [2],
    litRead t 3 1 .rlx [], litFence t 3 .sc, litRead t 3 0 .rlx [5]], litRf [(2, 0, 0), (5, 1, 1)], litCo [(0, [0]), (1, [1])], [], s, []⟩
/-- 2+2W with `fence.rel` between each agent's stores. -/
def Sys2Proof.lit22WF (t : MemType) : Execution :=
  ⟨[litWrite t 0 0 .rlx, litFence t 0 .rel, litWrite t 0 1 .rlx, litWrite t 1 1 .rlx, litFence t 1 .rel, litWrite t 1 0 .rlx],
    [], litCo [(0, [5, 0]), (1, [2, 3])], [], [], []⟩
/-- Message passing on DEV between blocks of one cluster: a release at a scope, an acquire at `.dev` (R341's example). -/
def Sys2Proof.litScoped (sc : Scope) : Execution :=
  ⟨[litWrite .dev 0 0 .rlx, { litWrite .dev 0 1 .rel with scope := sc }, litRead .dev 1 1 .acq [], litRead .dev 1 0 .rlx []],
    litRf [(2, 1, 1)], litCo [(0, [0]), (1, [1])], [], [], []⟩

/-- R340, R341: the outcomes of the litmus tests, by memory type, and what their changed forms forbid. -/
def Sys2Proof.LitmusOutcomes : Prop :=
  (∀ t, (litMP t .rlx .rlx).allowed = (t != .scratch) ∧ (litSB t).allowed = true ∧ (litLB t).allowed = false
    ∧ (litCoRR t).allowed = false ∧ (litWRC t .rlx .rlx).allowed = (t == .host) ∧ (litIRIW t).allowed = (t == .host)
    ∧ (lit22W t).allowed = (t == .dev || t == .peer) ∧ (litS t .rlx).allowed = (t == .dev || t == .peer))
  ∧ (∀ t, (litMP t .rel .acq).allowed = false ∧ (litSBF t [1, 4]).allowed = false ∧ (litSBF t [4, 1]).allowed = false
    ∧ (litWRC t .rel .acq).allowed = false ∧ (litS t .rel).allowed = false ∧ (lit22WF t).allowed = false
    ∧ (litIRIWF t [3, 6]).allowed = false ∧ (litIRIWF t [6, 3]).allowed = false)
  ∧ (litScoped .blk).allowed = true ∧ (litScoped .cls).allowed = false

/-- R236, R241, R268, R272 to R274, R326 to R333, R340, R341, R350: constants, cache control and fences; what loads see, and the
outcomes of the litmus tests. -/
def Obligations.ConstantsAndCaches : Prop := ConstantLoads ∧ CacheWords ∧ Fences ∧ LoadsSee ∧ LitmusOutcomes

/-- The first three checks of R264 on the word's addresses, each before the next and before any lane acts. -/
def Sys2Proof.AddressTraps (i : Instr) (ea : Iss → Nat → PV) (n : Iss → Nat) : Prop :=
  ∀ (s s0 : State) (it : Iss) (l : Nat), issuing i s = some (it, s0) →
    let bad := fun (c : Cause) (p : Nat → Bool) => it.firstLane p = some l →
      exec i s = .next (raise it s0 c 0 (it.maskWhere p) (ea it l).v)
    bad .poison (fun l => (ea it l).pois)
    ∧ ((∀ l ∈ it.lanes, (ea it l).pois = false) → bad .address fun l => decide (2 ^ 56 ≤ (ea it l).v))
    ∧ ((∀ l ∈ it.lanes, (ea it l).pois = false ∧ (ea it l).v < 2 ^ 56) → bad .misaligned fun l => (ea it l).v % n it != 0)

/-- R264: POISON of an address, ADDRESS and MISALIGNED in this order, for the lanes that meet the cause, at the lowest; a load
all of whose lanes meet FIRST_TOUCH raises it for all of them with nothing loaded. -/
def Obligations.AccessFaults : Prop :=
  (∀ o w ord scope cache vs ixs, AddressTraps (.ld o w ord scope cache vs ixs) (fun it => it.ea ixs) fun _ => memBytes w)
  ∧ (∀ o w ord scope cache ixs, AddressTraps (.st o w ord scope cache ixs) (fun it => it.ea ixs) fun _ => memBytes w)
  ∧ (∀ o opc ord scope koff, AddressTraps (.atom o opc ord scope koff) (fun it => it.eaAtom koff) fun it => it.tyBytes)
  ∧ ∀ o w ord scope cache vs ixs s s0 it l, issuing (.ld o w ord scope cache vs ixs) s = some (it, s0) →
      it.lanes.head? = some l →
      (∀ j ∈ it.lanes, (it.ea ixs j).pois = false ∧ (it.ea ixs j).v < 2 ^ 56 ∧ (it.ea ixs j).v % memBytes w = 0
        ∧ s0.access it.ctx (it.ea ixs j).v (laneFree s0 j) ⟨false, vs, some it.blk⟩ = .error ⟨4, .firstTouch, 0⟩
        ∧ watched s0 it.ctx false true false (it.ea ixs j).v (memBytes w) = false) →
      waitsForLink it s0 (it.ea ixs) = false →
      ∃ s1, exec (.ld o w ord scope cache vs ixs) s
          = .next (acquired it (raise it s1 .firstTouch 0 it.act (it.ea ixs l).v) ord scope)
        ∧ s1.mem = s0.mem ∧ s1.blocks = s0.blocks
        ∧ ∃ w1, s1.warp it.wid = some w1 ∧ w1.run = it.w.run ∧ w1.v = it.w.v ∧ w1.pend = it.w.pend

/-- Lanes that name one address have one target, lanes that name different ones have targets apart, and no target holds the
TCH bit of a leaf the word goes through. -/
structure Sys2Proof.TargetsApart (it : Iss) (n : Nat) (ea : Nat → PV) (f : Nat → Tgt) : Prop where
  same : ∀ l ∈ it.lanes, ∀ j ∈ it.lanes, (ea l).v = (ea j).v → f l = f j
  apart : ∀ l ∈ it.lanes, ∀ j ∈ it.lanes, (ea l).v ≠ (ea j).v → (f l).key + n ≤ (f j).key ∨ (f j).key + n ≤ (f l).key
  tables : ∀ l ∈ it.lanes, ∀ j ∈ it.lanes, ∀ a, (f j).leaf.at_ = some a → a + 1 < (f l).key ∨ (f l).key + n ≤ a + 1

/-- The lanes of a lane's group: those that name its address, ascending (R347). -/
def Sys2Proof.laneGroup (it : Iss) (ea : Nat → PV) (l : Nat) : List Nat := it.lanes.filter fun j => (ea j).v == (ea l).v

/-- The old value that a lane of a group gets (R347). -/
def Sys2Proof.oldOf (it : Iss) (ea : Nat → PV) (step : Nat → Nat → Nat) (v0 l : Nat) : Nat :=
  ((laneGroup it ea l).filter (· < l)).foldl (fun v j => step j v) v0

/-- An atomic's end in memory: each group's number stepped through its lanes in ascending order; every byte outside the
targets, TCH bytes apart, stays. -/
def Sys2Proof.Stepped (it : Iss) (s t : State) (n : Nat) (ea : Nat → PV) (f : Nat → Tgt) (step : Nat → Nat → Nat) : Prop :=
  (∀ l ∈ it.lanes, t.mem.num (f l).key n
      = ((laneGroup it ea l).foldl (fun v j => step j v) (s.mem.num (f l).key n)) % 2 ^ (8 * n))
    ∧ ∀ k, ¬ TchByte f it.lanes k → (∀ l ∈ it.lanes, k < (f l).key ∨ (f l).key + n ≤ k) → t.mem.byte k = s.mem.byte k

/-- A returning atomic is outstanding with its lanes' old values. -/
def Sys2Proof.OldReturned (it : Iss) (s t : State) (n : Nat) (old : Nat → Nat) : Prop :=
  ∃ vw, Outstanding it s t .mem vw [] [] ∧ ∀ l ∈ it.lanes, ∀ e ∈ laneWords it.o.d l
    ((List.range (n / 4)).map fun i => ⟨BitVec.ofNat 32 (fld (old l) (32 * i) 32), false⟩), e ∈ vw

/-- What a global atomic finds: lanes that pass, room, targets that are settled, apart and free of poison once what comes before
it has moved (`s1`, see `atomBase`). -/
structure Sys2Proof.AtomReady (it : Iss) (s s1 : State) (write : Bool) (koff : Bool) (n : Nat) (f : Nat → Tgt) : Prop where
  ready : GlobalReady it s s ⟨write, false, some it.blk⟩ true true n (it.eaAtom koff) f
  room : MissRoom it s 1
  settled : Settled it s1 n f
  apart : TargetsApart it n (it.eaAtom koff) f
  block : ∃ b, s.block it.blk = some b ∧ b.plines = [] ∧ b.ppois = []
  clean : ∀ l ∈ it.lanes, s1.mem.poisonedIn (f l).key n = false

/-- The state a global atomic acts on: what it releases is in memory, and so are the stores of its warp and core to its targets
(R326, R327). -/
def Sys2Proof.atomBase (it : Iss) (s : State) (ord : AtOrd) (sc : Scope) (f : Nat → Tgt) (n : Nat) : State :=
  beforeAtom it s ord sc (it.lanes.map fun l => (l, f l)) n

/-- R345 to R348, R326, R327: the lanes of each address step its number in ascending order, and each gets the value it found;
`red` and `atomc` return nothing, `rdc` only reads; nothing else in memory changes but TCH bits. -/
def Obligations.GlobalAtomics : Prop :=
  (∀ o opc ord scope koff s s0 it f, issuing (.atom o opc ord scope koff) s = some (it, s0) → it.act ≠ 0 →
      let s1 := atomBase it s0 ord scope f it.tyBytes
      AtomReady it s0 s1 true koff it.tyBytes f → (∀ l ∈ it.lanes, it.poisB l = false) →
      let step := fun l v => atomStep opc it.o.ty v (num it it.o.ty it.o.b l)
      ∃ t, exec (.atom o opc ord scope koff) s = .next t ∧ BesideMem it.wid s1 t
        ∧ Stepped it s1 t it.tyBytes (it.eaAtom koff) f step
        ∧ OldReturned it s1 t it.tyBytes fun l => oldOf it (it.eaAtom koff) step (s1.mem.num (f l).key it.tyBytes) l)
  ∧ (∀ o ord scope koff s s0 it f, issuing (.atomcas o ord scope koff) s = some (it, s0) → it.act ≠ 0 →
      let s1 := atomBase it s0 ord scope f it.tyBytes
      AtomReady it s0 s1 true koff it.tyBytes f → (∀ l ∈ it.lanes, it.poisBC l = false) →
      let step := fun l v => if v = num it it.o.ty it.o.b l then num it it.o.ty it.o.c l else v
      ∃ t, exec (.atomcas o ord scope koff) s = .next t ∧ BesideMem it.wid s1 t
        ∧ Stepped it s1 t it.tyBytes (it.eaAtom koff) f step
        ∧ OldReturned it s1 t it.tyBytes fun l => oldOf it (it.eaAtom koff) step (s1.mem.num (f l).key it.tyBytes) l)
  ∧ (∀ o opc ord scope koff s s0 it f, issuing (.red o opc ord scope koff) s = some (it, s0) → it.act ≠ 0 →
      let s1 := atomBase it s0 ord scope f it.tyBytes
      AtomReady it s0 s1 true koff it.tyBytes f →
      ∃ t, exec (.red o opc ord scope koff) s = .next t ∧ BesideMem it.wid s1 t
        ∧ Stepped it s1 t it.tyBytes (it.eaAtom koff) f (fun l v => atomStep opc it.o.ty v (num it it.o.ty it.o.b l))
        ∧ StoreMovesOn it t)
  ∧ (∀ o ord scope koff s s0 it f, issuing (.atomc o ord scope koff) s = some (it, s0) → it.act ≠ 0 →
      let s1 := atomBase it s0 ord scope f 8
      AtomReady it s0 s1 true koff 8 f →
      ∃ t, exec (.atomc o ord scope koff) s = .next t ∧ BesideMem it.wid s1 t
        ∧ (∀ l ∈ it.lanes, let x := warpSum ((laneGroup it (it.eaAtom koff) l).map fun j => num it .f32 it.o.b j)
            t.mem.num (f l).key 8 = pairAdd (s1.mem.num (f l).key 8) x.1 x.2 % 2 ^ 64)
        ∧ (∀ k, ¬ TchByte f it.lanes k → (∀ l ∈ it.lanes, k < (f l).key ∨ (f l).key + 8 ≤ k) → t.mem.byte k = s1.mem.byte k)
        ∧ StoreMovesOn it t)
  ∧ ∀ o ord scope koff s s0 it f, issuing (.rdc o ord scope koff) s = some (it, s0) → it.act ≠ 0 →
      let s1 := atomBase it s0 ord scope f 8
      AtomReady it s0 s1 false koff 8 f →
      ∃ t, exec (.rdc o ord scope koff) s = .next t ∧ BesideMem it.wid s1 t
        ∧ (∀ k, ¬ TchByte f it.lanes k → t.mem.byte k = s1.mem.byte k)
        ∧ OldReturned it s1 t 4 fun l => add32 (s1.mem.num (f l).key 4) (s1.mem.num ((f l).key + 4) 4)

/-- R347 on scratchpad: as `GlobalAtomics`, on the words of the blocks whose windows the lanes name. -/
def Obligations.ScratchpadAtomics : Prop :=
  ∀ (i : Instr) (s s0 : State) (it : Iss) (f : Nat → Option Nat × Nat) (step : Nat → Nat → Nat) (koff : Bool) (ord : AtOrd)
    (scope : Scope),
    issuing i s = some (it, s0) → it.act ≠ 0 → ScratchReady it s0 true true it.tyBytes (it.eaAtoms koff) f →
    let s1 := scrSettled it (beforeAtom it s0 ord scope [] it.tyBytes) it.tyBytes f
    (∀ l ∈ it.lanes, ∃ bn b, (f l).1 = some bn ∧ s1.block bn = some b) →
    (∀ l ∈ it.lanes, ∀ j ∈ it.lanes, (it.eaAtoms koff l).v ≠ (it.eaAtoms koff j).v →
      (f l).1 ≠ (f j).1 ∨ (f l).2 + it.tyBytes ≤ (f j).2 ∨ (f j).2 + it.tyBytes ≤ (f l).2) →
    (∀ l ∈ it.lanes, (scrRead s1 (f l) it.tyBytes).2 = false) →
    ((∃ o opc, i = .atoms o opc ord scope koff ∧ (∀ l ∈ it.lanes, it.poisB l = false)
        ∧ step = fun l v => atomStep opc it.o.ty v (num it it.o.ty it.o.b l))
      ∨ ∃ o, i = .atomsc o ord scope koff ∧ (∀ l ∈ it.lanes, it.poisBC l = false)
        ∧ step = fun l v => if v = num it it.o.ty it.o.b l then num it it.o.ty it.o.c l else v) →
    ∃ t, exec i s = .next t ∧ BesideMem it.wid s1 t ∧ t.mem = s1.mem
      ∧ (∀ l ∈ it.lanes, scrNum t (f l) it.tyBytes
          = ((laneGroup it (it.eaAtoms koff) l).foldl (fun v j => step j v) (scrNum s1 (f l) it.tyBytes)) % 2 ^ (8 * it.tyBytes))
      ∧ (∀ bn b, s1.block bn = some b → ∃ b', t.block bn = some b' ∧ b' = { b with scr := b'.scr, scrPois := b'.scrPois }
          ∧ ∀ j, (∀ l ∈ it.lanes, (f l).1 = some bn → j < (f l).2 ∨ (f l).2 + it.tyBytes ≤ j) → sget 0 b'.scr j = sget 0 b.scr j)
      ∧ OldReturned it s1 t it.tyBytes fun l => oldOf it (it.eaAtoms koff) step (scrNum s1 (f l) it.tyBytes) l

/-- A change of the issuing warp, its core and its pair; contexts may note freed cores. -/
structure Sys2Proof.OnCore (it : Iss) (s t : State) : Prop where
  agenda : t.agenda = s.agenda
  cur : t.cur = s.cur
  dev : t.dev = s.dev
  mem : t.mem = s.mem
  grids : t.grids = s.grids
  blkNext : t.blkNext = s.blkNext
  cmdNext : t.cmdNext = s.cmdNext
  cores : ∀ c, c ≠ it.core → t.core c = s.core c
  pairs : ∀ p, p ≠ leaderOf it.core → t.pair p = s.pair p
  warps : ∀ x, x ≠ it.wid → t.warp x = s.warp x

/-- The issuing warp moves on with its predicates, uniform registers and outstanding operations; `p` says what else it holds. -/
def Sys2Proof.MovesOn (it : Iss) (s t : State) (p : Warp → Prop) : Prop :=
  ∃ w w', s.warp it.wid = some w ∧ t.warp it.wid = some w' ∧ w'.pend = w.pend ∧ w'.run = nextRun it.w ∧ w'.s = it.w.s ∧ w'.p = it.w.p ∧ w'.q = it.w.q
    ∧ (∀ x l, w'.vget x l = (baseOf it).vget x l) ∧ p w'

/-- The command block at sA (R275). -/
def Sys2Proof.blockWords (it : Iss) (r : Nat) : List Word := (List.range 8).map fun i => (it.w.sget (r + i)).val

/-- The command that a copy word issues. -/
def Sys2Proof.copyOf (it : Iss) (s : State) (op r : Nat) (ring : Option (Word × Nat)) : CopyCmd :=
  { seq := (s.core it.core).copySeq + 1, wid := it.wid, op := op, blk := blockWords it r, ring := ring, started := none,
    moved := [], faulted := false, cancelled := false }

/-- A copy word whose operands are clean: its command passes the checks and joins the core's queue and the warp's open
batch, after a release at block scope (R250); sizes out of range raise ADDRESS 4, addresses out of step MISALIGNED (R275, R276). -/
def Sys2Proof.CopyQueues (i : Instr) (o : Opnds) (op : Nat) (ringOf : Iss → Option (Word × Nat)) : Prop :=
  ∀ (s s0 : State) (it : Iss) (r : Fin 96), issuing i s = some (it, s0) → it.act ≠ 0 → o.a = .s r →
    (∀ j, j < 8 → (it.w.sget (r.val + j)).pois = false) → (ringOf it ≠ none → (it.src .b32 it.o.b 0).pois = false) →
    let c := copyOf it s0 op r.val (ringOf it)
    let f := fun j => ((blockWords it r.val)[j]?.getD 0).toNat
    let g := f 0 + 2 ^ 32 * f 1
    let sizes := if op = 2 then f 3 ∉ [4, 8, 16, 32, 64, 128, 256] ∨ f 4 < 1 ∨ 4096 < f 4 ∨ f 6 ≠ 0 ∨ f 7 ≠ 0
      else f 3 < 4 ∨ 65536 < f 3 ∨ f 3 % 4 ≠ 0 ∨ f 4 < 1 ∨ 4096 < f 4 ∨ f 7 ≠ 0
    let skew := if op = 2 then g % f 3 ≠ 0 ∨ f 2 % min (f 3) 64 ≠ 0 ∨ f 5 % 4 ≠ 0
      else g % 4 ≠ 0 ∨ f 2 % 4 ≠ 0 ∨ f 5 % 4 ≠ 0 ∨ f 6 % 4 ≠ 0
    (sizes → exec i s = .next (raise it s0 .address 4 it.act 0))
    ∧ (¬ sizes → skew → exec i s = .next (raise it s0 .misaligned 0 it.act 0))
    ∧ ((if op = 2 then chkGather s0 it.blk c else chkTile s0 it.blk c) = none → chkRing c = none →
        let s1 := releaseAt s0 it.wid .blk
        ∃ t, exec i s = .next t ∧ OnCore it s1 t ∧ t.blocks = s1.blocks ∧ t.ctxs = s1.ctxs
          ∧ t.core it.core = { s1.core it.core with copies := (s0.core it.core).copies ++ [c], copySeq := c.seq }
          ∧ MovesOn it s1 t fun w' => w'.openBatch = it.w.openBatch ++ [c.seq] ∧ w'.closed = it.w.closed)

/-- R249, R250, R275 to R277: copy words queue their commands; `cpclose` closes the open batch, numbers it and gives the number to
D, or waits while 255 closed batches are incomplete; `cpwait` moves on, an acquire at block scope, when no closed batch it names is
incomplete, and waits otherwise. -/
def Obligations.CopyAndBatchWords : Prop :=
  (∀ o slot arrive, CopyQueues (.cpg o slot arrive) o 0 fun it =>
      if arrive then some (BitVec.ofNat 32 (num it .b32 it.o.b 0), slot.val) else none)
  ∧ (∀ o, CopyQueues (.cps o) o 1 fun _ => none)
  ∧ (∀ o slot arrive, CopyQueues (.cpx o slot arrive) o 2 fun it =>
      if arrive then some (BitVec.ofNat 32 (num it .b32 it.o.b 0), slot.val) else none)
  ∧ (∀ o s s0 it, issuing (.cpclose o) s = some (it, s0) → it.act ≠ 0 →
      let n := it.w.batchNum % 65535 + 1
      (it.w.closed.length < 255 → ∃ t w', exec (.cpclose o) s = .next t ∧ OnlyWarp it.wid s0 t
        ∧ Delivers it t 1 (wordsOf fun _ => ⟨n, false⟩) ∧ t.warp it.wid = some w' ∧ w'.batchNum = n ∧ w'.openBatch = []
        ∧ w'.closed = it.w.closed ++ (if it.w.openBatch = [] then [] else [⟨n, it.w.openBatch⟩]))
      ∧ (255 ≤ it.w.closed.length → ∃ t, exec (.cpclose o) s = .next t ∧ WarpBecomes it s0 t fun w' =>
          w'.wait = some (.cpclose it.o.d it.act) ∧ w'.run = it.w.run ∧ w'.closed = it.w.closed))
  ∧ ∀ o s s0 it, issuing (.cpwait o) s = some (it, s0) → it.act ≠ 0 →
      let n := num it .b32 it.o.a 0 % 65536
      ((∀ b ∈ it.w.closed, 32768 ≤ (n + 65536 - b.num) % 65536) → ∃ t, exec (.cpwait o) s = .next t
          ∧ Passes it (acquireAt s0 it.wid .blk) t)
      ∧ ((∃ b ∈ it.w.closed, (n + 65536 - b.num) % 65536 < 32768) → ∃ t, exec (.cpwait o) s = .next t
          ∧ WarpBecomes it s0 t fun w' => w'.wait = some (.cpwait n) ∧ w'.run = it.w.run)

/-- R248, R249, R251, R252: the copy engine starts the oldest command that has not started; a command that completes has
moved its data, leaves the queue and its batch and arrives on its ring; one that meets a fault stops at the page, or is
abandoned, and the fault waits for its warp's boundary. A one-row `cpg` inside one page makes scratchpad hold the bytes that memory
holds once the warp's own stores to them have landed (R326). -/
def Obligations.CopyEngine : Prop :=
  (∀ s core c, nextCopy s core = some c → ∃ t, exec (.copyCommandStart core) s = .next t
      ∧ (t.core core).copies = (s.core core).copies.map (fun x =>
          if x.seq = c.seq then { x with started := some (s.nonStalled core) } else x)
      ∧ t.mem = s.mem ∧ t.warps = s.warps ∧ t.blocks = s.blocks)
  ∧ (∀ s core sq c s1 n w, runningCopy s core sq = some c → copyRun s c = (s1, n, none) →
      copyWaits s c = false → overQuota s s1 (blkOf c.wid) = false → s.warp c.wid = some w →
      let done := fun (t : State) => exec (.copyCommandComplete core sq) s = .next t
        ∧ (t.core core).copies = (s1.core core).copies.filter (fun x => x.seq != sq) ∧ t.mem = s1.mem
        ∧ ∃ w', t.warp c.wid = some w' ∧ w'.openBatch = w.openBatch.filter (· != sq)
          ∧ w'.closed = (w.closed.map fun b => { b with cmds := b.cmds.filter (· != sq) }).filter (fun b => !b.cmds.isEmpty)
          ∧ w'.run = w.run
      (c.ring = none → ∃ t, done t ∧ t.blocks = s1.blocks)
      ∧ ∀ a slot r bn b, c.ring = some (a, slot) → ringAt s1 (blkOf c.wid) a.toNat slot = some r → r.bad slot = false →
          r.loc.1 = some bn → s1.block bn = some b →
          ∃ t, done t ∧ scrNum t (r.loc.1, r.loc.2 + 0x40 + 4 * slot) 4 = phaseAfter r.expect r.phase % 2 ^ 32)
  ∧ (∀ s core sq c s1 n f a w, runningCopy s core sq = some c → copyRun s c = (s1, n, some (f, a)) → s.warp c.wid = some w →
      w.alive ≠ 0 → ∃ t w' r, exec (.copyCommandFault core sq) s = .next t ∧ t.warp c.wid = some w'
        ∧ w'.async = w.async ++ [r] ∧ r.cause = f.cause ∧ r.subcode = f.sub ∧ r.cmdSeq = sq ∧ r.addr = BitVec.ofNat 64 a
        ∧ (t.core core).copies = (if f.handler then (s1.core core).copies.map (fun x =>
            if x.seq = sq then { x with moved := n, faulted := true } else x)
          else (s1.core core).copies.filter fun x => x.seq != sq))
  ∧ ∀ (s : State) (c : CopyCmd) (T : Tgt) (bn off : Nat) (b bo : Block), c.op = 0 → c.moved = [] → c.reg 4 = 1 → 1 ≤ c.reg 3 →
      c.reg 3 % 4 = 0 → c.gaddr % 65536 + c.reg 3 ≤ 65536 → c.gaddr < 2 ^ 56 →
      s.access (s.ctxNo c.wid) c.gaddr s.free ⟨false, false, some (blkOf c.wid)⟩ = .ok T → linkDown s T.key = false →
      let s2 := settle (s.used (s.ctxNo c.wid) c.gaddr T) c.wid T.key (c.reg 3)
      (∀ x ∈ sectors T.key (c.reg 3), s2.mem.unknown (s.keyId (s.ctxNo c.wid)) x = false ∧ s2.mem.pois.contains x = false) →
      s.block (blkOf c.wid) = some b → b.plines = [] → b.ppois = [] → s2.block bn = some bo →
      scrAddr s (blkOf c.wid) (c.reg 2 % 2 ^ 32) (c.reg 3) = some (some bn, off) →
      ∃ s1 b1, copyRun s c = (s1, [0], none) ∧ s1.block bn = some b1
        ∧ ∀ j, sget 0 b1.scr j = if off ≤ j ∧ j < off + c.reg 3 then s2.mem.byte (T.key + (j - off)) else sget 0 bo.scr j

/-- R244, R245, R278, R279, R471: `bankcfg` changes a bank's mode or refuses with its status and changes nothing, a bank that
leaves cache mode with its dirty bytes written back; `fpush` appends a
word per active lane in lane order where there is room, `fpop` takes as many from the head, and each says in C whether it
did; a poisoned bank number raises POISON (R471), and a bank that holds no FIFO of programs ADDRESS. -/
def Obligations.BanksAndFifos : Prop :=
  (∀ o mode s s0 it, issuing (.bankcfg o mode) s = some (it, s0) → it.act ≠ 0 →
      let bank := num it .b32 it.o.a 0
      let now := ((s0.core it.core).modes[bank]?).getD .cache
      let gives := fun (base : State) (st : Nat) (modes : List BankMode) => ∃ t, exec (.bankcfg o mode) s = .next t
        ∧ OnCore it base t ∧ t.blocks = base.blocks ∧ Delivers it t 1 (wordsOf fun _ => ⟨st, false⟩)
        ∧ (t.core it.core).modes = modes
      let same := (s0.core it.core).modes
      let inUse := sget [] (s0.core it.core).fifos bank ≠ [] ∨ traceBank (s0.cfg it.ctx) bank = true ∨ proxyBank s0 it.core bank = true
      (63 < bank → gives s0 4 same)
      ∧ (bank ≤ 63 → now = mode → gives s0 0 (same.set bank mode))
      ∧ (bank ≤ 63 → now = .cache → mode ≠ .cache → banksIn s0 it.core .cache ≤ 4 → gives s0 3 same)
      ∧ (bank ≤ 63 → now = .cache → mode ≠ .cache → 4 < banksIn s0 it.core .cache →
          gives (landDirty s0 it.core fun _ => true) 0 (same.set bank mode))
      ∧ (bank ≤ 63 → now = .fifo → mode ≠ .fifo → inUse → gives s0 2 same)
      ∧ (bank ≤ 63 → now = .fifo → mode ≠ .fifo → ¬ inUse → gives s0 0 (same.set bank mode))
      ∧ (bank ≤ 63 → now = .scratch → mode ≠ .scratch → bankHeld s0 it.core bank = true → gives s0 1 same)
      ∧ (bank ≤ 63 → now = .scratch → mode ≠ .scratch → bankHeld s0 it.core bank = false → gives s0 0 (same.set bank mode)))
  ∧ (∀ o s s0 it bank, issuing (.fpush o) s = some (it, s0) → it.act ≠ 0 → (it.src .b32 it.o.b 0).pois = false →
      fifoBank it s0 = some bank →
      let q := sget [] (s0.core it.core).fifos bank
      let ws : List PWord := it.lanes.map fun l => ⟨BitVec.ofNat 32 (num it .b32 it.o.a l), (it.src .b32 it.o.a l).pois⟩
      let fits := decide (q.length + ws.length ≤ 8192)
      ∃ t w', exec (.fpush o) s = .next t ∧ OnCore it s0 t ∧ t.blocks = s0.blocks
        ∧ sget [] (t.core it.core).fifos bank = (if fits then q ++ ws else q)
        ∧ t.warp it.wid = some w' ∧ w'.run = nextRun it.w ∧ w'.s = it.w.s ∧ w'.p = it.w.p
        ∧ ∀ r : Fin 4, it.o.c = .q r → ∀ n, n < 4 → w'.qget n = if n = r.val ∧ n < 3 then fits else it.w.qget n)
  ∧ (∀ o s s0 it bank, issuing (.fpop o) s = some (it, s0) → it.act ≠ 0 → (it.src .b32 it.o.b 0).pois = false →
      fifoBank it s0 = some bank →
      let q := sget [] (s0.core it.core).fifos bank
      let has := decide (it.lanes.length ≤ q.length)
      ∃ t w', exec (.fpop o) s = .next t ∧ OnCore it s0 t ∧ t.blocks = s0.blocks
        ∧ sget [] (t.core it.core).fifos bank = (if has then q.drop it.lanes.length else q)
        ∧ t.warp it.wid = some w' ∧ w'.run = nextRun it.w ∧ w'.p = it.w.p
        ∧ (has = true → DestWritten it w' 1 fun _ l => (q[(it.lanes.filter (· < l)).length]?).getD PWord.zero)
        ∧ (has = false → w'.s = it.w.s ∧ ∀ x l, w'.vget x l = (baseOf it).vget x l)
        ∧ ∀ r : Fin 4, it.o.c = .q r → ∀ n, n < 4 → w'.qget n = if n = r.val ∧ n < 3 then has else it.w.qget n)
  ∧ ∀ i o s s0 it, i = .fpush o ∨ i = .fpop o → issuing i s = some (it, s0) → it.act ≠ 0 →
      let bank := num it .b32 it.o.b 0 % 64
      ((it.src .b32 it.o.b 0).pois = true → exec i s = .next (raise it s0 .poison 0 it.act 0))
      ∧ ((it.src .b32 it.o.b 0).pois = false → (((s0.core it.core).modes[bank]?).getD .cache ≠ .fifo ∨ traceBank (s0.cfg it.ctx) bank = true
        ∨ proxyBank s0 it.core bank = true) → exec i s = .next (raise it s0 .address 0 it.act 0))

/-- R255, R256, R280: opening, publishing and dropping vitrines, and the events that end `vtopen.copy` and `publish`. -/
def Obligations.VitrineWords : Prop :=
  (∀ o copy s s0 it, issuing (.vtopen o copy) s = some (it, s0) → it.act ≠ 0 →
      let i := num it .b32 it.o.a 0
      let v := s0.vitrine it.ctx i
      ((255 < i ∨ v.bytes = 0) → exec (.vtopen o copy) s = .next (raise it s0 .address 0 it.act 0))
      ∧ (i ≤ 255 → v.bytes ≠ 0 → v.opened = true → ∃ t, exec (.vtopen o copy) s = .next t
          ∧ Computes it s0 t 1 (wordsOf fun _ => ⟨1, false⟩) 0)
      ∧ (i ≤ 255 → v.bytes ≠ 0 → v.opened = false → copy = false → ∃ t, exec (.vtopen o copy) s = .next t
          ∧ Delivers it t 1 (wordsOf fun _ => ⟨0, false⟩) ∧ t.mem = s0.mem
          ∧ t.vitrine it.ctx i = { v with opened := true, writer := some it.blk })
      ∧ (i ≤ 255 → v.bytes ≠ 0 → v.opened = false → copy = true → copyOpenFault s0 it.ctx v = none →
          ∃ t w', exec (.vtopen o copy) s = .next t ∧ t.warp it.wid = some w' ∧ w'.wait = some (.vtopen i it.o.d)
            ∧ w'.run = it.w.run ∧ t.vitrine it.ctx i = { v with opened := true, writer := some it.blk }))
  ∧ (∀ o s s0 it, issuing (.publish o) s = some (it, s0) → it.act ≠ 0 →
      let i := num it .b32 it.o.a 0
      let v := s0.vitrine it.ctx i
      let sq := (v.seq.toNat + 1) % 65536
      (i ≤ 255 → v.bytes ≠ 0 → (v.opened = false ∨ v.writer ≠ some it.blk) →
          exec (.publish o) s = .next (raise it s0 .vitrine 0 it.act 0))
      ∧ (i ≤ 255 → v.bytes ≠ 0 → v.opened = true → v.writer = some it.blk → copiesUnder s0 it.blk = false →
          ∃ t w', exec (.publish o) s = .next t ∧ t.warp it.wid = some w' ∧ w'.run = it.w.run
            ∧ w'.wait = some (.publish i it.o.d (some sq)) ∧ t.mem = (drainBlock s0 it.blk).mem
            ∧ t.vitrine it.ctx i = { v with front := !v.front, opened := false, writer := none, seq := BitVec.ofNat 32 sq, swapped := true })
      ∧ (i ≤ 255 → v.bytes ≠ 0 → v.opened = true → v.writer = some it.blk → copiesUnder s0 it.blk = true →
          ∃ t, exec (.publish o) s = .next t ∧ WarpBecomes it s0 t fun w' =>
            w'.run = it.w.run ∧ w'.wait = some (.publish i it.o.d none)))
  ∧ (∀ o s s0 it, issuing (.vtdrop o) s = some (it, s0) → it.act ≠ 0 →
      let i := num it .b32 it.o.a 0
      let v := s0.vitrine it.ctx i
      (i ≤ 255 → v.bytes ≠ 0 → v.opened = false → ∃ t, exec (.vtdrop o) s = .next t ∧ Passes it s0 t)
      ∧ (i ≤ 255 → v.bytes ≠ 0 → v.opened = true → v.writer ≠ some it.blk →
          exec (.vtdrop o) s = .next (raise it s0 .vitrine 0 it.act 0))
      ∧ (i ≤ 255 → v.bytes ≠ 0 → v.opened = true → v.writer = some it.blk → ∃ t, exec (.vtdrop o) s = .next t
          ∧ MovesOn it s0 t (fun _ => True) ∧ t.mem.cells = s0.mem.cells
          ∧ t.vitrine it.ctx i = { v with opened := false, writer := none }))
  ∧ (∀ s ctx i wid w d, waitingWarp s ctx (fun x => match x with | .vtopen j _ => j == i | _ => false) = some (wid, w) →
      s.warp wid = some w → w.wait = some (.vtopen i d) →
      let v := s.vitrine ctx i
      let (f, sh) := if v.front then (v.alt, v.base) else (v.base, v.alt)
      overQuota s ((List.range (v.bytes / 65536)).foldl
        (fun s k => copyVitPage s ctx wid (f + 65536 * k) (sh + 65536 * k)) (drainBlock s (blkOf wid))) (blkOf wid) = false →
      ∃ t w', exec (.vtopenCopyComplete ctx i) s = .next t ∧ t.warp wid = some w' ∧ w'.run = nextRun w ∧ w'.wait = none
        ∧ ∀ r, d = .s r → w'.sget r.val = ⟨0, false⟩)
  ∧ ∀ s ctx i wid w d q, waitingWarp s ctx (fun x => match x with | .publish j _ q => j == i && q.isSome | _ => false) = some (wid, w) →
      s.warp wid = some w → w.wait = some (.publish i d (some q)) →
      let v := s.vitrine ctx i
      ∃ t w', exec (.publishAckComplete ctx i) s = .next t ∧ t.warp wid = some w' ∧ w'.run = nextRun w ∧ w'.wait = none
        ∧ (∀ r, d = .s r → w'.sget r.val = ⟨BitVec.ofNat 32 q, false⟩)
        ∧ ∀ c, t.ctx ctx = some c → ∀ e ∈ c.tlb,
            tlbMeets e.1 v.base v.bytes = false ∧ tlbMeets e.1 v.alt v.bytes = false

/-- A matrix word's command joins the pair's matrix queue. -/
def Sys2Proof.JoinsMatrix (it : Iss) (s t : State) (f : MatCmd → MatCmd) : Prop :=
  let lead := leaderOf it.core
  let id := ((s.pair lead).mseq + 1) % 2 ^ 32
  OnCore it s t ∧ t.blocks = s.blocks ∧ t.core it.core = s.core it.core
    ∧ t.pair lead = { s.pair lead with mq := (s.pair lead).mq ++ [f (newCmd it id)], mseq := id }

/-- An epilogue word's command joins the pair's epilogue queue, with what the commands of the matrix queue have updated by
then (R292). -/
def Sys2Proof.JoinsEpilogue (it : Iss) (s t : State) (f : MatCmd → MatCmd) : Prop :=
  let lead := leaderOf it.core
  let id := ((s.pair lead).eseq + 1) % 2 ^ 32
  OnCore it s t ∧ t.blocks = s.blocks ∧ t.core it.core = s.core it.core
    ∧ t.pair lead = { s.pair lead with eq := (s.pair lead).eq ++ [(f (newCmd it id)).sinceIssue (s.pair lead).mq], eseq := id }

/-- R283, R303 to R306, R308 to R311, R315, R316: matrix and epilogue words check their operands and queue their commands
with the registers they read; the long ones count on their flag; `mma` checks the pairing of `%fmt` and the rows; `epcfg`
and `actld` stall until their command has executed. -/
def Obligations.MatrixWords : Prop :=
  (∀ o slab lset foll s s0 it, issuing (.mldb o slab lset foll) s = some (it, s0) → it.act ≠ 0 →
      ∃ t, exec (.mldb o slab lset foll) s = .next t ∧ JoinsMatrix it s0 t (fun c => { c with words := it.vecWords it.o.a 64 })
        ∧ Outstanding it s0 t (.mat (((s0.pair (leaderOf it.core)).mseq + 1) % 2 ^ 32)) [] [] [])
  ∧ (∀ o lset foll s s0 it, issuing (.mlds o lset foll) s = some (it, s0) → it.act ≠ 0 →
      ∃ t, exec (.mlds o lset foll) s = .next t ∧ JoinsMatrix it s0 t (fun c => { c with words := it.vecWords it.o.a 16 })
        ∧ Outstanding it s0 t (.mat (((s0.pair (leaderOf it.core)).mseq + 1) % 2 ^ 32)) [] [] [])
  ∧ (∀ o mm1 lset slot s s0 it, issuing (.mma o mm1 lset slot) s = some (it, s0) → it.act ≠ 0 →
      (it.src .n32 it.o.d 0).pois = false → (it.src .n32 it.o.c 0).pois = false →
      let m := mm1.val + 1
      let f := it.w.run.fmt
      let r0 := num it .n32 it.o.c 0
      let bad := pairingOk f = false ∨ (usesA f = true ∧ it.o.b = .zero)
      let ring := match it.o.d with | .s _ => some (BitVec.ofNat 32 (num it .n32 it.o.d 0), slot.val) | _ => none
      (bad → exec (.mma o mm1 lset slot) s = .next (raise it s0 .format 0 it.act 0))
      ∧ (¬ bad → (accRows s0 it.blk = 0 ∨ accRows s0 it.blk < r0 + m) →
          exec (.mma o mm1 lset slot) s = .next (raise it s0 .accum 0 it.act 0))
      ∧ (¬ bad → 0 < accRows s0 it.blk → r0 + m ≤ accRows s0 it.blk → (∀ a x, ring = some (a, x) → a.toNat % 64 = 0) →
          ∃ t, exec (.mma o mm1 lset slot) s = .next t
            ∧ JoinsMatrix it s0 t (fun c => { c with
                rows := rowPlaces (matOf s0 it.blk) r0 m, ring := ring, words := it.vecWords it.o.a (2 * m),
                scales := if usesA f then it.vecWords it.o.b ((m + 7) / 8) else [] })
            ∧ Outstanding it s0 t (.mat (((s0.pair (leaderOf it.core)).mseq + 1) % 2 ^ 32)) [] [] []))
  ∧ (∀ o s s0 it, issuing (.mzero o) s = some (it, s0) → it.act ≠ 0 →
      (it.src .n32 it.o.b 0).pois = false → (it.src .n32 it.o.c 0).pois = false →
      let n := num it .n32 it.o.b 0
      let r0 := num it .n32 it.o.c 0
      0 < accRows s0 it.blk → r0 + n ≤ accRows s0 it.blk →
      (n = 0 → ∃ t, exec (.mzero o) s = .next t ∧ Passes it s0 t)
      ∧ (n ≠ 0 → ∃ t, exec (.mzero o) s = .next t
          ∧ JoinsMatrix it s0 t (fun c => { c with rows := rowPlaces (matOf s0 it.blk) r0 n })
          ∧ MovesOn it s0 t fun _ => True))
  ∧ (∀ i n s s0 it, (∃ o, (i = .epcfg o ∧ n = 1088) ∨ (i = .actld o ∧ n = 2048)) → issuing i s = some (it, s0) → it.act ≠ 0 →
      (it.src .n32 it.o.a 0).pois = false → ownsEngine s0 it.blk = true →
      let a := num it .n32 it.o.a 0
      a < 2 ^ 31 → scrAddr s0 it.blk a n ≠ none →
      (a % 64 ≠ 0 → exec i s = .next (raise it s0 .misaligned 0 it.act a))
      ∧ (a % 64 = 0 → ∃ t w', exec i s = .next t ∧ JoinsEpilogue it s0 t (fun c => { c with addr := a })
          ∧ t.warp it.wid = some w' ∧ w'.run = it.w.run ∧ w'.wait = some (.engine (((s0.pair (leaderOf it.core)).eseq + 1) % 2 ^ 32))))
  ∧ (∀ o bias act req rm1 slot s s0 it r, issuing (.mdrain o bias act req rm1 slot) s = some (it, s0) → it.act ≠ 0 →
      (it.src .n32 it.o.a 0).pois = false → (it.src .n32 it.o.c 0).pois = false → it.o.d = .v r →
      let n := rm1.val + 1
      let m := matOf s0 it.blk
      let g := if req then (if m.outFmt = 3 then 4 else 2) else 8
      let r0 := num it .n32 it.o.a 0
      let ring := match it.o.c with | .s _ => some (BitVec.ofNat 32 (num it .n32 it.o.c 0), slot.val) | _ => none
      (act = true → m.loHiBad = true → exec (.mdrain o bias act req rm1 slot) s = .next (raise it s0 .format 0 it.act 0))
      ∧ ((act = true → m.loHiBad = false) → 0 < accRows s0 it.blk → r0 + n ≤ accRows s0 it.blk →
          r.val + n * g ≤ 128 → r.val + n * g ≤ it.w.budget → (∀ a x, ring = some (a, x) → a.toNat % 64 = 0) →
          ∃ t, exec (.mdrain o bias act req rm1 slot) s = .next t
            ∧ JoinsEpilogue it s0 t (fun c => { c with rows := rowPlaces m r0 n, ring := ring, addr := r.val })
            ∧ Outstanding it s0 t (.mat (((s0.pair (leaderOf it.core)).eseq + 1) % 2 ^ 32))
                ((List.range (n * g)).map fun j => (r.val + j, 0, PWord.zero)) [] []))
  ∧ ∀ o bias act req rm1 slot s s0 it, issuing (.mdrains o bias act req rm1 slot) s = some (it, s0) → it.act ≠ 0 →
      (∀ x ∈ [it.o.d, it.o.a, it.o.b, it.o.c], (it.src .n32 x 0).pois = false) →
      let n := rm1.val + 1
      let m := matOf s0 it.blk
      let z := if req then (if m.outFmt = 3 then 512 else if m.outFmt = 4 then 144 else 256) else 1024
      let r0 := num it .n32 it.o.a 0
      let a := num it .n32 it.o.d 0
      let pitch := num it .n32 it.o.b 0
      let ring := match it.o.c with | .s _ => some (BitVec.ofNat 32 (num it .n32 it.o.c 0), slot.val) | _ => none
      (act = true → m.loHiBad = false) → 0 < accRows s0 it.blk → r0 + n ≤ accRows s0 it.blk →
      ((a % 16 ≠ 0 ∨ pitch % 16 ≠ 0) → exec (.mdrains o bias act req rm1 slot) s = .next (raise it s0 .misaligned 0 it.act a))
      ∧ (a % 16 = 0 → pitch % 16 = 0 → a < 2 ^ 31 → (n = 1 ∨ z ≤ pitch) → scrAddr s0 it.blk a ((n - 1) * pitch + z) ≠ none →
          (∀ x k, ring = some (x, k) → x.toNat % 64 = 0) →
          ∃ t, exec (.mdrains o bias act req rm1 slot) s = .next t
            ∧ JoinsEpilogue it s0 t (fun c => { c with rows := rowPlaces m r0 n, ring := ring, addr := a, stride := pitch })
            ∧ MovesOn it s0 t fun _ => True)

/-- R312 to R314: `acalloc` grants granules that are free, in a status that names the first row, or refuses, or waits;
`acfree` takes a block's last dynamic granules back and gives their number, and they are then cleared. -/
def Obligations.AccumulatorGranules : Prop :=
  (∀ o wait s s0 it, issuing (.acalloc o wait) s = some (it, s0) → it.act ≠ 0 → (it.src .n32 it.o.a 0).pois = false →
      let lead := leaderOf it.core
      let g := num it .n32 it.o.a 0
      let free := freeGranules s0 lead
      let gives := fun (x : Nat) => ∃ t, exec (.acalloc o wait) s = .next t ∧ Computes it s0 t 1 (wordsOf fun _ => ⟨x, false⟩) 0
      let now := g ≤ free.length ∧ accWaiters s0 lead = []
      ((g = 0 ∨ 256 - accReserved s0 it.blk < g) → gives 3)
      ∧ (∀ b, 0 < g → g ≤ 256 - accReserved s0 it.blk → now → s0.block it.blk = some b → ∃ t b',
          exec (.acalloc o wait) s = .next t ∧ Delivers it t 1 (wordsOf fun _ => ⟨64 * b.mat.grans.length * 2 ^ 16, false⟩)
            ∧ t.block it.blk = some b' ∧ b'.mat.grans = b.mat.grans ++ free.take g ∧ b'.mat.dyn = b.mat.dyn + g)
      ∧ (0 < g → g ≤ 256 - accReserved s0 it.blk → ¬ now → wait = false → gives 1)
      ∧ (0 < g → g ≤ 256 - accReserved s0 it.blk → ¬ now → wait = true → (matOf s0 it.blk).dyn ≠ 0 → gives 2)
      ∧ (0 < g → g ≤ 256 - accReserved s0 it.blk → ¬ now → wait = true → (matOf s0 it.blk).dyn = 0 → ∃ t w',
          exec (.acalloc o wait) s = .next t ∧ t.warp it.wid = some w' ∧ w'.run = it.w.run
            ∧ w'.wait = some (.acalloc g it.o.d s0.cmdNext)))
  ∧ (∀ o s s0 it b, issuing (.acfree o) s = some (it, s0) → it.act ≠ 0 → (it.src .n32 it.o.a 0).pois = false →
      s0.block it.blk = some b →
      let lead := leaderOf it.core
      let n := min (num it .n32 it.o.a 0) b.mat.dyn
      let back := b.mat.grans.drop (b.mat.grans.length - n)
      ∃ t b' w', exec (.acfree o) s = .next t ∧ Delivers it t 1 (wordsOf fun _ => ⟨n, false⟩)
        ∧ t.block it.blk = some b' ∧ b'.mat.grans = b.mat.grans.take (b.mat.grans.length - n) ∧ b'.mat.dyn = b.mat.dyn - n
        ∧ (t.pair lead).clearing = (s0.pair lead).clearing ++ back
        ∧ t.warp it.wid = some w' ∧ (granulesNamed s0 lead back = true → w'.wait = some (.accClear back)))
  ∧ ∀ s lead, ∃ t, exec (.accumGranulesCleared lead) s = .next t
      ∧ (t.pair lead).clearing = (s.pair lead).clearing.filter (fun g => granulesNamed s lead [g])
      ∧ ∀ bn b, (s.pair lead).owner = some bn → s.block bn = some b → ∃ b', t.block bn = some b'
          ∧ ∀ r, r / 64 ∈ (s.pair lead).clearing → granulesNamed s lead [r / 64] = false →
              b'.mat.accRow r = List.replicate 256 PWord.zero

/-- R283, R285, R289, R304, R311, R316: a queued command starts in order; the first that has started completes: `mldb` fills
its slab of the latch set, `mma` updates each element of its rows by its groups in order, `mzero` clears its rows, a
drain delivers the rows it read, and its flag falls. -/
def Obligations.MatrixEngine : Prop :=
  (∀ s lead c, (s.pair lead).mq.find? (fun c => c.started.isNone) = some c → (s.pair lead).engReset = none →
      ∃ t, exec (.matrixCommandExecute lead) s = .next t ∧ t.mem = s.mem ∧ t.warps = s.warps ∧ t.blocks = s.blocks
        ∧ (t.pair lead).mq = startFirst (s.nonStalled lead) (s.pair lead).mq)
  ∧ (∀ s lead c, (s.pair lead).eq.find? (fun c => c.started.isNone) = some c → (s.pair lead).engReset = none →
      ((s.pair lead).eq.head?.map MatCmd.id = some c.id ∨ ∃ o b a q n k, c.instr = .mdrain o b a q n k ∨ c.instr = .mdrains o b a q n k) →
      ∃ t, exec (.epilogueCommandExecute lead) s = .next t ∧ t.mem = s.mem ∧ t.warps = s.warps ∧ t.blocks = s.blocks
        ∧ (t.pair lead).eq = startFirst (s.nonStalled lead) (s.pair lead).eq)
  ∧ (∀ s lead c cs b w, (s.pair lead).mq = c :: cs → c.started ≠ none → (s.pair lead).engReset = none → c.ring = none →
      s.block (blkOf c.wid) = some b → s.warp c.wid = some w →
      ∃ t b' w', exec (.matrixCommandComplete lead) s = .next t ∧ t.mem = s.mem ∧ (t.pair lead).mq = cs
        ∧ t.block (blkOf c.wid) = some b' ∧ b' = { b with mat := b.mat.runMatrix c }
        ∧ t.warp c.wid = some w' ∧ w' = { w with pend := w.pend.filter fun p => p.kind != .mat c.id })
  ∧ (∀ (m : MatState) (c : MatCmd) o slab lset foll, c.instr = .mldb o slab lset foll →
      (∀ r l, r < 64 → l < 32 → 32 * r + l < c.words.length →
        (m.runMatrix c).latchWord (latchNo foll.toNat lset.val slab.val r) l = wordAt c.words (32 * r + l))
      ∧ (∀ x, (∀ r, r < 64 → x ≠ latchNo foll.toNat lset.val slab.val r) → ∀ l, (m.runMatrix c).latchWord x l = m.latchWord x l)
      ∧ (m.runMatrix c).acc = m.acc)
  ∧ (∀ (m : MatState) (c : MatCmd) o mm1 lset slot, c.instr = .mma o mm1 lset slot → c.rows.Nodup →
      (∀ i place x, c.rows[i]? = some place → x < 256 → wordAt ((m.runMatrix c).accRow place) x
        = mmaElem m c i x (wordAt (m.accRow place) x) (groups c.fmt))
      ∧ (∀ place, place ∉ c.rows → (m.runMatrix c).accRow place = m.accRow place) ∧ (m.runMatrix c).latch = m.latch)
  ∧ (∀ (m : MatState) (c : MatCmd) o, c.instr = .mzero o →
      (∀ place ∈ c.rows, (m.runMatrix c).accRow place = List.replicate 256 PWord.zero)
      ∧ ∀ place, place ∉ c.rows → (m.runMatrix c).accRow place = m.accRow place)
  ∧ (∀ s lead c cs w o bias act req rm1 slot, (s.pair lead).eq = c :: cs → c.started ≠ none → (s.pair lead).engReset = none →
      c.instr = .mdrain o bias act req rm1 slot → c.ring = none → s.warp c.wid = some w →
      (∀ x ∈ (s.pair lead).mq, x.started = none) → c.past = [] →
      let m := matOf s (blkOf c.wid)
      let ws := (c.rows.map fun r => (m.drainRow ⟨bias, act, req⟩ ((List.range 256).map (wordAt (m.accRow r)))).1).flatten
      (∀ j, j < ws.length / 32 → ∃ p ∈ w.pend, p.kind = .mat c.id ∧ ∃ e ∈ p.vw, e.1 = c.addr + j) →
      drainCells w c (ws.length / 32) ≤ poolFree s w.core →
      ∃ t w', exec (.epilogueCommandComplete lead) s = .next t ∧ (t.pair lead).eq = cs ∧ t.warp c.wid = some w'
        ∧ w'.pend = w.pend.filter (fun p => p.kind != .mat c.id) ∧ w'.s = w.s ∧ w'.p = w.p ∧ w'.run = w.run ∧ t.mem = s.mem
        ∧ ∀ x l, l < 32 → w'.vget x l = if c.addr ≤ x ∧ x < c.addr + ws.length / 32 ∧ w.liveLanes.getLsbD l = true then
            wordAt ws (32 * (x - c.addr) + l) else w.vget x l)
  ∧ ∀ s lead c cs w p b i n, (s.pair lead).eq = c :: cs → c.started ≠ none → (s.pair lead).engReset = none → c.instr = i →
      (∃ o, (i = .epcfg o ∧ n = 1088) ∨ (i = .actld o ∧ n = 2048)) → s.warp c.wid = some w →
      scrAddr s (blkOf c.wid) c.addr n = some p → (scrRead s p n).2 = false → s.block (blkOf c.wid) = some b →
      ((∃ o, i = .epcfg o) → badConfig (scrRead s p n).1 = false) →
      ∃ t w' b', exec (.epilogueCommandComplete lead) s = .next t ∧ (t.pair lead).eq = cs ∧ t.warp c.wid = some w'
        ∧ w'.wait = none ∧ w'.run = nextRun w ∧ t.block (blkOf c.wid) = some b'
        ∧ ((∃ o, i = .epcfg o) → ∀ j, j < 1088 → sget 0 b'.mat.epCfg j = ((scrRead s p n).1[j]?).getD 0)
        ∧ ((∃ o, i = .actld o) → ∀ j, j < 512 → b'.mat.tab j = fieldOf (scrRead s p n).1 (4 * j) 4)

/-- All but the issuing warp and its block's record is as it was. -/
def Sys2Proof.BesideBlock (it : Iss) (s t : State) : Prop :=
  OnlyWarp it.wid { s with blocks := t.blocks } t ∧ ∀ x, x ≠ it.blk → t.block x = s.block x

/-- R351 on a block's barrier `i` whose arrival is in order: the warp has arrived; with all warps that have exited it may
complete the phase. -/
def Sys2Proof.Arrived (it : Iss) (s t : State) (b : Block) (i n : Nat) : Prop :=
  let br := barrierOf s it.blk i
  let here := nins (warpNo it.wid) br.arrived
  BesideBlock it s t
    ∧ barrierOf t it.blk i = (if n ≤ (b.exited.foldl (fun l x => nins x l) here).length
        then ⟨br.phase + 1, [], none, false⟩ else ⟨br.phase, here, some n, false⟩)
    ∧ ∀ j, j ≠ i → barrierOf t it.blk j = barrierOf s it.blk j

/-- R351, R352: `bar` and `bara` arrive at a barrier of the block with the count they name or the block's warps; a count out
of range or unlike the phase's breaks the barrier; `bara` gives the phase's token, `bar` waits until the phase has
completed, `barw` until that of its token has; a broken barrier traps; an arrival releases first, and the end of a wait acquires (R325). `gbar` arrives at a cooperative grid's barrier and
waits until every live block has. -/
def Obligations.BlockAndGridBarriers : Prop :=
  (∀ (i : Instr) (o : Opnds) (s s0 : State) (it : Iss) (b : Block), i = .bar o ∨ i = .bara o ∨ i = .barw o →
      issuing i s = some (it, s0) → it.act ≠ 0 → s0.block it.blk = some b →
      let no := num it .b32 it.o.a 0
      let c := num it .b32 it.o.b 0
      let br := barrierOf s0 it.blk no
      let n := if it.o.b = .zero then b.nwarps else c
      let bad := n = 0 ∨ b.nwarps < n ∨ (br.arrived ≠ [] ∧ br.expect ≠ some n)
      let s1 := releaseAt s0 it.wid .blk
      let full := n ≤ (b.exited.foldl (fun l x => nins x l) (nins (warpNo it.wid) br.arrived)).length
      ((it.src .b32 it.o.a 0).pois = true ∨ (it.src .b32 it.o.b 0).pois = true →
        exec i s = .next (raise it s0 .poison 0 it.act 0))
      ∧ ((it.src .b32 it.o.a 0).pois = false → (it.src .b32 it.o.b 0).pois = false →
        (15 < no → exec i s = .next (raise it s0 .address 0 it.act 0))
        ∧ (no ≤ 15 → br.broken = true → exec i s = .next (raise it s0 .barrierBroken 0 it.act 0))
        ∧ (no ≤ 15 → br.broken = false → i ≠ .barw o → bad → ∃ s2, exec i s = .next (raise it s2 .barrierBroken 0 it.act 0)
            ∧ BesideBlock it s0 s2 ∧ (barrierOf s2 it.blk no).broken = true)
        ∧ (no ≤ 15 → br.broken = false → i = .bara o → ¬ bad → ∃ t, exec i s = .next t ∧ Arrived it s1 t b no n
            ∧ Delivers it t 1 (wordsOf fun _ => ⟨br.phase.toNat, false⟩))
        ∧ (no ≤ 15 → br.broken = false → i = .bar o → ¬ bad → full → ∃ t, exec i s = .next t
            ∧ Arrived it (acquireAt s1 it.wid .blk) t b no n ∧ MovesOn it s1 t fun _ => True)
        ∧ (no ≤ 15 → br.broken = false → i = .bar o → ¬ bad → ¬ full → ∃ t w', exec i s = .next t ∧ Arrived it s1 t b no n
            ∧ t.warp it.wid = some w' ∧ w'.run = it.w.run ∧ w'.wait = some (.bar no br.phase))
        ∧ (no ≤ 15 → br.broken = false → i = .barw o →
            let d := (br.phase - BitVec.ofNat 32 c).toNat
            ((1 ≤ d ∧ d ≤ 2 ^ 31) → ∃ t, exec i s = .next t ∧ Passes it (acquireAt s0 it.wid .blk) t)
            ∧ (¬ (1 ≤ d ∧ d ≤ 2 ^ 31) → ∃ t, exec i s = .next t ∧ WarpBecomes it s0 t fun w' =>
                w'.run = it.w.run ∧ w'.wait = some (.bar no (BitVec.ofNat 32 c))))))
  ∧ ∀ o s s0 it b g0 g, issuing (.gbar o) s = some (it, s0) → it.act ≠ 0 → s0.block it.blk = some b →
      let s1 := releaseAt s0 it.wid .dev
      s0.gridOfWarp it.wid = some g0 → s1.gridOfWarp it.wid = some g →
      let g1 := { g with gbarArrived := nins it.wid g.gbarArrived }
      let over_ := g.joining = [] ∧ g.last ≤ g.next ∧ (liveBlocks s1 b.ctx b.gid).all (fun e => blockArrived s1 g1 e.1) = true
      ((wfld g0.desc.flags 0 1 = 0 ∨ g0.gbarBroken = true) →
        exec (.gbar o) s = .next (raise it s0 .barrierBroken 0 it.act 0))
      ∧ (wfld g0.desc.flags 0 1 = 1 → g0.gbarBroken = false → over_ → ∃ t, exec (.gbar o) s = .next t ∧ t.mem = s1.mem
          ∧ t.blocks = s1.blocks ∧ t.grid b.ctx b.gid = some { g1 with gbarPhase := g.gbarPhase + 1, gbarArrived := [] }
          ∧ MovesOn it s1 t fun _ => True)
      ∧ (wfld g0.desc.flags 0 1 = 1 → g0.gbarBroken = false → ¬ over_ → ∃ t w', exec (.gbar o) s = .next t ∧ t.mem = s1.mem
          ∧ t.blocks = s1.blocks ∧ t.grid b.ctx b.gid = some g1
          ∧ t.warp it.wid = some w' ∧ w'.run = it.w.run ∧ w'.wait = some (.gbar g.gbarPhase))

/-- The state in which a control word at a uniform pair acts: the stores of its warp and core to the word have landed, its
translation has been used (R238), and its core has observed the word (R326). -/
def Sys2Proof.ctrlBase (it : Iss) (s : State) (n : Nat) (g : Tgt) : State :=
  observeBy ((settle s it.wid g.key n).used it.ctx (it.src .b64 it.o.a 0).v g).takeFree it.wid g.key n

/-- The contents of the word are specified for the warp's context (R255, R258). -/
def Sys2Proof.Known (it : Iss) (s : State) (n : Nat) (g : Tgt) : Prop := ∀ x ∈ sectors g.key n, s.mem.unknown (s.keyId it.ctx) x = false

/-- What a control word at a uniform pair finds (R264, R344): it passes the checks at the target `g`, of a memory type the
word takes; with its own stores landed it is known, and clean where the word asks for it; no watchpoint matches, no link is down
or reset, and the word holds no TCH bit of the page it lies in. -/
structure Sys2Proof.ControlReady (it : Iss) (s : State) (n : Nat) (write ctl : Bool) (types : Tgt → Bool) (g : Tgt) : Prop where
  clean : (it.src .b64 it.o.a 0).pois = false
  inside : (it.src .b64 it.o.a 0).v < 2 ^ 56
  aligned : (it.src .b64 it.o.a 0).v % n = 0
  target : s.access it.ctx (it.src .b64 it.o.a 0).v (laneFree s 0) ⟨write, false, some it.blk⟩ = .ok g
  type : types g = true
  word : ctl = true → (loadGlobal (settle s it.wid g.key n) it.blk g n).2 = false
  unwatched : watched (settle s it.wid g.key n) it.ctx false true write (it.src .b64 it.o.a 0).v n = false
  link : waitsForLink it (settle s it.wid g.key n) (fun _ => it.src .b64 it.o.a 0) = false
  up : linkDown s g.key = false
  known : Known it (settle s it.wid g.key n) n g
  apart : ∀ a, g.leaf.at_ = some a → a + 1 < g.key ∨ g.key + n ≤ a + 1

/-- The block is confirmed and holds no provisional bytes. -/
def Sys2Proof.Confirmed (s : State) (bn : Nat) (b : Block) : Prop := s.block bn = some b ∧ b.prov = false ∧ b.plines = []

/-- The word at a target takes a value, and every byte outside it stays. -/
def Sys2Proof.WordSet (s t : State) (g : Tgt) (n y : Nat) : Prop :=
  t.mem.num g.key n = y % 2 ^ (8 * n) ∧ ∀ k, (k < g.key ∨ g.key + n ≤ k) → t.mem.byte k = s.mem.byte k

/-- R353: an arrival of `n` on a barrier word: EXPECT in [15:0], COUNT in [31:16], PHASE in [32], the rest 0. -/
def Sys2Proof.arvBad (x n : Nat) : Prop :=
  x / 2 ^ 33 ≠ 0 ∨ x % 2 ^ 16 = 0 ∨ x % 2 ^ 16 ≤ x / 2 ^ 16 % 2 ^ 16 ∨ n = 0 ∨ x % 2 ^ 16 - x / 2 ^ 16 % 2 ^ 16 < n

/-- See `arvBad`. -/
def Sys2Proof.arvNext (x n : Nat) : Nat :=
  if x / 2 ^ 16 % 2 ^ 16 + n = x % 2 ^ 16 then (1 - x / 2 ^ 32 % 2) * 2 ^ 32 + x % 2 ^ 16
  else x / 2 ^ 32 % 2 * 2 ^ 32 + (x / 2 ^ 16 % 2 ^ 16 + n) * 2 ^ 16 + x % 2 ^ 16

/-- R252, R353, R354: `arv` counts on the barrier word and gives the phase it found, or raises ADDRESS 4 where the word or
the count is out of form; `await` moves on once the stored phase differs from B's bit, `ringw` once the slot's equals it;
`ringa` counts an arrival on the slot and flips its phase at the expected count (no watchpoint on the header or the phase word
matches, R428). Arrivals release first, ends of waits acquire
(R325). -/
def Obligations.BarrierWordsAndRings : Prop :=
  (∀ o scope s s0 it g b, issuing (.arv o scope false) s = some (it, s0) → it.act ≠ 0 →
      ControlReady it s0 8 true true devOnly g → (it.src .b32 it.o.b 0).pois = false →
      let s1 := ctrlBase it s0 8 g
      let s2 := releaseAt s1 it.wid scope
      Confirmed s1 it.blk b →
      let x := s1.mem.num g.key 8
      let n := num it .b32 it.o.b 0
      (¬ arvBad x n → Known it s2 8 g → ∃ t, exec (.arv o scope false) s = .next t ∧ WordSet s2 t g 8 (arvNext x n)
          ∧ Delivers it t 1 (wordsOf fun _ => ⟨x / 2 ^ 32 % 2, false⟩))
      ∧ (arvBad x n → exec (.arv o scope false) s = .next (raise it s1 .address 4 it.act (it.src .b64 it.o.a 0).v)))
  ∧ (∀ o scope s s0 it p bn b, issuing (.arv o scope true) s = some (it, s0) → it.act ≠ 0 →
      chkScratch it s0 8 (fun _ => it.src .b32 it.o.a 0) 0 = (0, num it .b32 it.o.a 0, .ok p) →
      let s1 := settleScr s0 it.wid p 8
      (it.src .b32 it.o.b 0).pois = false → p.1 = some bn → s1.block bn = some b → (scrRead s1 p 8).2 = false →
      watched s1 it.ctx true true true (num it .b32 it.o.a 0) 8 = false →
      let x := scrNum s1 p 8
      let n := num it .b32 it.o.b 0
      (¬ arvBad x n → ∃ t, exec (.arv o scope true) s = .next t ∧ t.mem = (releaseAt s1 it.wid scope).mem ∧ scrNum t p 8 = arvNext x n
          ∧ Delivers it t 1 (wordsOf fun _ => ⟨x / 2 ^ 32 % 2, false⟩))
      ∧ (arvBad x n → exec (.arv o scope true) s = .next (raise it s1 .address 4 it.act (num it .b32 it.o.a 0))))
  ∧ (∀ o scope s s0 it g b, issuing (.await o scope false) s = some (it, s0) → it.act ≠ 0 →
      ControlReady it s0 8 false true devOnly g → (it.src .b32 it.o.b 0).pois = false →
      let s1 := settle (ctrlBase it s0 8 g) it.wid g.key 8
      Confirmed s1 it.blk b → Known it s1 8 g → (loadGlobal s1 it.blk g 8).2 = false →
      let ph := num it .b32 it.o.b 0 % 2
      (s1.mem.num g.key 8 / 2 ^ 32 % 2 ≠ ph → ∃ t, exec (.await o scope false) s = .next t ∧ BesideMem it.wid s1 t
          ∧ t.mem = s1.mem ∧ MovesOn it s1 t fun _ => True)
      ∧ (s1.mem.num g.key 8 / 2 ^ 32 % 2 = ph → ∃ t w', exec (.await o scope false) s = .next t ∧ t.mem = s1.mem
          ∧ t.warp it.wid = some w' ∧ w'.run = it.w.run
          ∧ w'.wait = some (.await g.key false none (ph == 1) (BitVec.ofNat 64 (it.src .b64 it.o.a 0).v) scope)))
  ∧ (∀ o scope s s0 it p bn b, issuing (.await o scope true) s = some (it, s0) → it.act ≠ 0 →
      chkScratch it s0 8 (fun _ => it.src .b32 it.o.a 0) 0 = (0, num it .b32 it.o.a 0, .ok p) →
      let s1 := settleScr (settleScr s0 it.wid p 8) it.wid p 8
      (it.src .b32 it.o.b 0).pois = false → p.1 = some bn → s1.block bn = some b →
      (scrRead (settleScr s0 it.wid p 8) p 8).2 = false → (scrRead s1 p 8).2 = false →
      watched (settleScr s0 it.wid p 8) it.ctx true true false (num it .b32 it.o.a 0) 8 = false →
      let ph := num it .b32 it.o.b 0 % 2
      (scrNum s1 p 8 / 2 ^ 32 % 2 ≠ ph → ∃ t, exec (.await o scope true) s = .next t ∧ Passes it (acquireAt s1 it.wid scope) t)
      ∧ (scrNum s1 p 8 / 2 ^ 32 % 2 = ph → ∃ t w', exec (.await o scope true) s = .next t ∧ t.mem = s1.mem
          ∧ t.blocks = s1.blocks ∧ t.warp it.wid = some w' ∧ w'.run = it.w.run
          ∧ w'.wait = some (.await p.2 true p.1 (ph == 1) (BitVec.ofNat 64 (num it .b32 it.o.a 0)) scope)))
  ∧ ∀ (i : Instr) (o : Opnds) (slot : Fin 64) (s s0 : State) (it : Iss), i = .ringa o slot ∨ i = .ringw o slot →
      issuing i s = some (it, s0) → it.act ≠ 0 → (it.src .b32 it.o.a 0).pois = false →
      (i = .ringw o slot → (it.src .b32 it.o.b 0).pois = false) →
      let a := num it .b32 it.o.a 0 % 2 ^ 32
      let s1 := settleRing it s0
      (a % 64 ≠ 0 → exec i s = .next (raise it s1 .address 4 it.act a))
      ∧ (a % 64 = 0 → ringAt s1 it.blk a slot.val = none → exec i s = .next (raise it s1 .address 0 it.act a))
      ∧ ∀ r, a % 64 = 0 → ringAt s1 it.blk a slot.val = some r →
        (r.pois = true → exec i s = .next (raise it s1 .poison 0 it.act a))
        ∧ (r.pois = false → (r.reserved = true ∨ r.nslots ≤ slot.val ∨ r.expect = 0) →
            exec i s = .next (raise it s1 .address 4 it.act a))
        ∧ (r.pois = false → r.reserved = false → slot.val < r.nslots → r.expect ≠ 0 →
            (∀ l ∈ it.lanes, ∀ e ∈ [(false, 0, 64), (i == .ringa o slot, 0x40 + 4 * slot.val, 4)],
              watched s1 it.ctx true true e.1 (((it.src .b32 it.o.a l).v + e.2.1) % 2 ^ 32) e.2.2 = false) →
            let c := (r.phase / 2 % 256 + 1) % 256
            let at_ := (r.loc.1, r.loc.2 + 0x40 + 4 * slot.val)
            let sc := ringScope (BitVec.ofNat 32 a)
            (∀ bn b, i = .ringa o slot → r.loc.1 = some bn → s1.block bn = some b →
              ∃ t, exec i s = .next t ∧ BesideMem it.wid (releaseAt s1 it.wid sc) t ∧ t.mem = (releaseAt s1 it.wid sc).mem
                ∧ scrNum t at_ 4 = (if c = r.expect then (r.phase + 1) % 2 else c * 2 + r.phase % 2)
                ∧ MovesOn it (releaseAt s1 it.wid sc) t fun _ => True)
            ∧ (i = .ringw o slot → r.phase % 2 = num it .b32 it.o.b 0 % 2 → ∃ t, exec i s = .next t
                ∧ Passes it (acquireAt s1 it.wid sc) t)
            ∧ (i = .ringw o slot → r.phase % 2 ≠ num it .b32 it.o.b 0 % 2 → ∃ t, exec i s = .next t
                ∧ WarpBecomes it s1 t fun w' => w'.run = it.w.run
                  ∧ w'.wait = some (.ringw (BitVec.ofNat 32 a) slot.val (num it .b32 it.o.b 0 % 2 == 1))))

/-- The word of a held lock (R355): held in [0], WAITERS in [2], the context, the grid and the block. -/
def Sys2Proof.heldWord (b : Block) (waiters : Bool) : Nat :=
  1 + 4 * waiters.toNat + 2 ^ 3 * b.ctx + 2 ^ 9 * b.gid + 2 ^ 33 * (b.idx % 2 ^ 31)

/-- R355 to R359: `lkacq` takes a free lock for its block (status 0, or 2 over an abandoned one), gives 1 or waits on a busy
one, 3 on its own, 4 where the block holds 16; `lkrel` frees its block's lock or hands it to the waiter that began first,
and gives 1 for a lock its block does not hold; `waitv` gives a word that differs and waits on one that equals; `wake`
stores and wakes the waiters that began first, up to its count. -/
def Obligations.LocksAndWaits : Prop :=
  (∀ o wait s s0 it g b, issuing (.lkacq o wait) s = some (it, s0) → it.act ≠ 0 → ControlReady it s0 8 true true devOnly g →
      let s1 := ctrlBase it s0 8 g
      Confirmed s1 it.blk b →
      let x := s1.mem.num g.key 8
      let busy := ∃ e ∈ s1.blocks, e.1 ≠ it.blk ∧ g.key ∈ e.2.locks
      let kept := fun (v : Nat) => ∃ t, exec (.lkacq o wait) s = .next t ∧ t.mem = s1.mem ∧ t.blocks = s1.blocks
        ∧ Delivers it t 1 (wordsOf fun _ => ⟨v, false⟩)
      (g.key ∈ b.locks → kept 3)
      ∧ (g.key ∉ b.locks → 16 ≤ b.locks.length → kept 4)
      ∧ (g.key ∉ b.locks → b.locks.length < 16 → busy → wait = false → kept 1)
      ∧ (g.key ∉ b.locks → b.locks.length < 16 → busy → wait = true → ∃ t w', exec (.lkacq o wait) s = .next t
          ∧ WordSet s1 t g 8 (if x / 4 % 2 = 1 then x else x + 4) ∧ t.blocks = s1.blocks
          ∧ t.warp it.wid = some w' ∧ w'.run = it.w.run
          ∧ w'.wait = some (.lkacq g.key (BitVec.ofNat 64 (it.src .b64 it.o.a 0).v) it.o.d s1.cmdNext))
      ∧ (g.key ∉ b.locks → b.locks.length < 16 → ¬ busy → ∃ t, exec (.lkacq o wait) s = .next t
          ∧ WordSet s1 t g 8 (heldWord b ((lockWaiters s1 g.key).any fun e => e.1 != it.wid))
          ∧ t.block it.blk = some { b with locks := nins g.key b.locks }
          ∧ Delivers it t 1 (wordsOf fun _ => ⟨if x % 4 = 0 then 0 else 2, false⟩)))
  ∧ (∀ o s s0 it g b, issuing (.lkrel o) s = some (it, s0) → it.act ≠ 0 → ControlReady it s0 8 true true devOnly g →
      let s1 := ctrlBase it s0 8 g
      (Confirmed s1 it.blk b → g.key ∉ b.locks → ∃ t, exec (.lkrel o) s = .next t ∧ t.mem = s1.mem ∧ t.blocks = s1.blocks
          ∧ Delivers it t 1 (wordsOf fun _ => ⟨1, false⟩))
      ∧ let s2 := releaseAt s1 it.wid .dev
        Confirmed s2 it.blk b → Known it s2 8 g →
        (g.key ∈ b.locks → lockWaiters s2 g.key = [] → ∃ t, exec (.lkrel o) s = .next t ∧ WordSet s2 t g 8 0
          ∧ t.block it.blk = some { b with locks := b.locks.filter (· != g.key) }
          ∧ Delivers it t 1 (wordsOf fun _ => ⟨0, false⟩))
        ∧ let s3 := s2.modBlock it.blk fun b => { b with locks := b.locks.filter (· != g.key) }
        ∀ y n r b2, g.key ∈ b.locks →
          earliest ((lockWaiters s2 g.key).filter fun e => e.2.2 && lockRoom s3 (blkOf e.1)) = some (y, n, r) →
          blkOf y ≠ it.blk → s2.block (blkOf y) = some b2 → ∃ t, exec (.lkrel o) s = .next t
          ∧ WordSet s2 t g 8 (heldWord b2 (decide (1 < (lockWaiters s2 g.key).length)))
          ∧ t.block it.blk = some { b with locks := b.locks.filter (· != g.key) }
          ∧ t.block (blkOf y) = some { b2 with locks := nins g.key b2.locks }
          ∧ (∀ w2, s0.warp y = some w2 → ∃ w', t.warp y = some w' ∧ w'.wait = none ∧ w'.run = nextRun w2)
          ∧ Delivers it t 1 (wordsOf fun _ => ⟨0, false⟩))
  ∧ (∀ o scope s s0 it g b, issuing (.waitv o scope) s = some (it, s0) → it.act ≠ 0 → ControlReady it s0 4 false true devHost g →
      (it.src .b32 it.o.b 0).pois = false →
      let s1 := ctrlBase it s0 4 g
      Confirmed s1 it.blk b →
      let x := s1.mem.num g.key 4
      let v := num it .b32 it.o.b 0 % 2 ^ 32
      (x ≠ v → ∃ t, exec (.waitv o scope) s = .next t ∧ BesideMem it.wid s1 t ∧ t.mem = s1.mem
          ∧ Delivers it t 1 (wordsOf fun _ => ⟨x, false⟩))
      ∧ (x = v → ∃ t w', exec (.waitv o scope) s = .next t ∧ t.mem = s1.mem ∧ t.warp it.wid = some w' ∧ w'.run = it.w.run
          ∧ w'.wait = some (.waitv g.key (BitVec.ofNat 64 (it.src .b64 it.o.a 0).v) (BitVec.ofNat 32 v) it.o.d false s1.cmdNext scope)))
  ∧ ∀ o scope s s0 it g b, issuing (.wake o scope) s = some (it, s0) → it.act ≠ 0 → ControlReady it s0 4 true false devHost g →
      (it.src .b32 it.o.b 0).pois = false → (it.src .b32 it.o.c 0).pois = false →
      let s1 := ctrlBase it s0 4 g
      let s2 := releaseAt s1 it.wid scope
      Confirmed s2 it.blk b → Known it s2 4 g →
      let ws := waitvOn s1 g.key
      let c := num it .b32 it.o.c 0
      let ids := firstWaiters ws.length (if c = 0xFFFFFFFF then ws.length else c) ws
      ∃ t, exec (.wake o scope) s = .next t ∧ WordSet s2 t g 4 (num it .b32 it.o.b 0)
        ∧ Delivers it t 1 (wordsOf fun _ => ⟨ids.length, false⟩)
        ∧ ∀ y ∈ ids, ∀ w k va e d n sc, s0.warp y = some w → w.wait = some (.waitv k va e d false n sc) →
            ∃ w', t.warp y = some w' ∧ w'.wait = some (.waitv k va e d true n sc)

/-- A push starts once the queue's block has been read through its translation and the core has written back the entry's regions
(R82, R238). -/
def Sys2Proof.pushBase (it : Iss) (s : State) (x : Queue) (bs : List Byte) : State :=
  writeBack (s.devTouch it.ctx x.qcb.toNat 128) it.core (entryMem s it.ctx (some it.blk) bs)

/-- R82, R93, R94, R98, R361 to R367: `qpush` and `launch` write their entry in the slot of TAIL and advance TAIL, a launch from a
child queue becoming its block's child, and give 0; they give 2 or wait on a full queue, `launch` gives 1 at depth 10, and a
queue or entry that does not fit raises QUEUE; the path's stores to the queue and to the entry's regions have left first (R82,
R338). `qpop` gives the entry at HEAD and advances HEAD; with none to give, or from a queue that is stopped or stops there
(R79), it waits or says so. `gwait` gives a STATUS that
has come far enough and waits otherwise; `shape` resolves a shape word; `provq` answers from the block, the predictor. -/
def Obligations.LaunchAndQueues : Prop :=
  (∀ o wait s s0 it, issuing (.qpush o wait) s = some (it, s0) → it.act ≠ 0 →
      (∀ x ∈ it.uniRange it.o.a 16, x.pois = false) → (it.src .n32 it.o.b 0).pois = false →
      let bs := (it.uniRange it.o.a 16).flatMap fun x => leBytes 4 x.val.toNat
      let s0 := pushReady s0 it.wid it.ctx (num it .n32 it.o.b 0) bs
      (queueOpd it s0 it.o.b [1, 2, 3] = none → exec (.qpush o wait) s = .next (raise it s0 .queue 0 it.act 0))
      ∧ ∀ q x c, queueOpd it s0 it.o.b [1, 2, 3] = some (q, x, c) →
        (pushRefused c bs = true → exec (.qpush o wait) s = .next (raise it s0 .queue 0 it.act 0))
        ∧ (pushRefused c bs = false → c.head + 2 ^ c.log2 ≤ c.tail → wait = false → ∃ t, exec (.qpush o wait) s = .next t
            ∧ Computes it s0 t 1 (wordsOf fun _ => ⟨2, false⟩) 0)
        ∧ (pushRefused c bs = false → c.head + 2 ^ c.log2 ≤ c.tail → wait = true → ∃ t, exec (.qpush o wait) s = .next t
            ∧ WarpBecomes it s0 t fun w' => w'.run = it.w.run ∧ w'.wait = some .queue)
        ∧ ∀ s1 s2, pushRefused c bs = false → c.tail < c.head + 2 ^ c.log2 → c.kind ≠ 3 →
            (pushBase it s0 x bs).devWrite it.ctx (c.base + 64 * (c.tail % 2 ^ c.log2)) bs = some s1 →
            s1.devWrite it.ctx x.qcb.toNat (leBytes 8 (c.tail + 1)) = some s2 → ∃ t, exec (.qpush o wait) s = .next t
              ∧ t.mem = s2.mem ∧ t.blocks = s2.blocks ∧ Delivers it t 1 (wordsOf fun _ => ⟨0, false⟩))
  ∧ (∀ o nreg wait barrier irq s s0 it, issuing (.launch o nreg wait barrier irq) s = some (it, s0) → it.act ≠ 0 →
      (it.src .b64 it.o.a 0).pois = false → (∀ x ∈ it.uniRange it.o.b (2 * nreg.val), x.pois = false) →
      (it.src .n32 it.o.c 0).pois = false →
      let bs := launchBytes (barrier.toNat + 2 * irq.toNat) nreg.val (it.uniRange it.o.b (2 * nreg.val)) (it.src .b64 it.o.a 0).v
      let s0 := pushReady s0 it.wid it.ctx (num it .n32 it.o.c 0) bs
      let ex := exec (.launch o nreg wait barrier irq) s
      (queueOpd it s0 it.o.c [1, 3] = none → ex = .next (raise it s0 .queue 0 it.act 0))
      ∧ ∀ q x c g, queueOpd it s0 it.o.c [1, 3] = some (q, x, c) → s0.gridOfWarp it.wid = some g →
        (10 ≤ g.depth → ∃ t, ex = .next t ∧ Computes it s0 t 1 (wordsOf fun _ => ⟨1, false⟩) 0)
        ∧ (g.depth < 10 → c.head + 2 ^ c.log2 ≤ c.tail → wait = false → ∃ t, ex = .next t
            ∧ Computes it s0 t 1 (wordsOf fun _ => ⟨2, false⟩) 0)
        ∧ (g.depth < 10 → c.head + 2 ^ c.log2 ≤ c.tail → wait = true → ∃ t, ex = .next t
            ∧ WarpBecomes it s0 t fun w' => w'.run = it.w.run ∧ w'.wait = some .queue)
        ∧ ∀ s1 s2 b, g.depth < 10 → c.tail < c.head + 2 ^ c.log2 → c.kind = 1 → s2.block it.blk = some b →
            (pushBase it s0 x bs).devWrite it.ctx (c.base + 64 * (c.tail % 2 ^ c.log2)) bs = some s1 →
            s1.devWrite it.ctx x.qcb.toNat (leBytes 8 (c.tail + 1)) = some s2 → ∃ t, ex = .next t
              ∧ t.mem = s2.mem ∧ t.block it.blk = some { b with children := b.children ++ [(q + 1, c.tail)] }
              ∧ Delivers it t 1 (wordsOf fun _ => ⟨0, false⟩))
  ∧ (∀ (o : Opnds) (wait : Bool) (s s0 : State) (it : Iss) (d : Fin 96) (p : Fin 4), issuing (.qpop o wait) s = some (it, s0) →
      it.act ≠ 0 → (it.src .n32 it.o.b 0).pois = false → it.o.d = .s d → it.o.c = .q p →
      let popped := fun (t : State) (v : Bool) => ∀ w', t.warp it.wid = some w' → ∀ n, n < 4 →
        w'.qget n = if n = p.val ∧ n < 3 then v else it.w.qget n
      (queueOpd it s0 it.o.b [2] = none → exec (.qpop o wait) s = .next (raise it s0 .queue 0 it.act 0))
      ∧ ∀ q x c, queueOpd it s0 it.o.b [2] = some (q, x, c) →
        let none_ := c.tail ≤ c.head ∨ c.state ≠ 0
        (none_ → wait = true → ∃ t, exec (.qpop o wait) s = .next t
            ∧ WarpBecomes it s0 t fun w' => w'.run = it.w.run ∧ w'.wait = some .queue)
        ∧ (none_ → wait = false → ∃ t, exec (.qpop o wait) s = .next t ∧ popped t false
            ∧ WarpBecomes it s0 t fun w' => w'.run = nextRun it.w ∧ w'.s = it.w.s ∧ w'.p = it.w.p
              ∧ ∃ w, s0.warp it.wid = some w ∧ WarpKept w w')
        ∧ (c.state = 0 → workError s0 it.ctx c ≠ 0 →
          let s1 := queueError s0 it.ctx x c (c.slot c.head) (workError s0 it.ctx c)
          (wait = true → ∃ t, exec (.qpop o wait) s = .next t ∧ t.mem = s1.mem
            ∧ WarpBecomes it s1 t fun w' => w'.run = it.w.run ∧ w'.wait = some .queue)
          ∧ (wait = false → ∃ t, exec (.qpop o wait) s = .next t ∧ t.mem = s1.mem ∧ popped t false))
        ∧ ∀ bs s1, c.state = 0 → workError s0 it.ctx c = 0 → c.head < c.tail → s0.devRead it.ctx (c.base + 64 * (c.head % 2 ^ c.log2)) 64 = some bs → bs.length = 64 →
            ((s0.devTouch it.ctx x.qcb.toNat 128).devTouch it.ctx (c.base + 64 * (c.head % 2 ^ c.log2)) 64).devWrite it.ctx
              (x.qcb.toNat + 0x40) (leBytes 8 (c.head + 1)) = some s1 → d.val + 16 ≤ 96 →
            ∃ t w', exec (.qpop o wait) s = .next t ∧ popped t true
              ∧ t.mem = (writeBack s1 it.core (entryMem s1 it.ctx (some it.blk) bs)).mem ∧ t.warp it.wid = some w'
              ∧ w'.run = nextRun it.w ∧ w'.p = it.w.p
              ∧ (∀ i, i < 16 → w'.sget (d.val + i) = ⟨BitVec.ofNat 32 (fieldOf bs (4 * i) 4), false⟩)
              ∧ ∀ j, (j < d.val ∨ d.val + 16 ≤ j) → w'.sget j = it.w.sget j)
  ∧ (∀ o vouch s s0 it g b, issuing (.gwait o vouch) s = some (it, s0) → it.act ≠ 0 →
      ControlReady it s0 32 false true (fun _ => true) g →
      let s1 := ctrlBase it s0 32 g
      let s2 := settle { s1 with cmdNext := s1.cmdNext + 1 } it.wid g.key 32
      Confirmed s2 it.blk b → Known it s2 32 g → (loadGlobal s2 it.blk g 32).2 = false →
      let st := s2.mem.num g.key 1
      let least := if vouch = true ∨ vouchFirst s2 it.ctx ((it.src .b64 it.o.a 0).v % 2 ^ 64) = true then 3 else 2
      (least ≤ st → ∃ t, exec (.gwait o vouch) s = .next t ∧ t.mem = s2.mem ∧ Delivers it t 1 (wordsOf fun _ => ⟨st, false⟩))
      ∧ (st < least → ∃ t w', exec (.gwait o vouch) s = .next t ∧ t.mem = s2.mem ∧ t.warp it.wid = some w' ∧ w'.run = it.w.run
          ∧ w'.wait = some (.gwait g.key (BitVec.ofNat 64 (it.src .b64 it.o.a 0).v) vouch it.o.d s1.cmdNext)))
  ∧ (∀ o s s0 it g b, issuing (.shape o) s = some (it, s0) → it.act ≠ 0 → ControlReady it s0 8 true true (fun _ => true) g →
      (it.src .b32 it.o.b 0).pois = false →
      let s1 := releaseAt (ctrlBase it s0 8 g) it.wid .dev
      Confirmed s1 it.blk b → Known it s1 8 g →
      (∀ e ∈ gridsOf s1 it.ctx, e.2.bound = true → e.2.desc.shapeAddr.toNat ≠ (it.src .b64 it.o.a 0).v) →
      ∃ t, exec (.shape o) s = .next t ∧ WordSet s1 t g 8 (2 ^ 63 + num it .b32 it.o.b 0)
        ∧ Delivers it t 1 (wordsOf fun _ => ⟨s1.mem.num g.key 8 / 2 ^ 63 % 2, false⟩))
  ∧ ∀ o mode s s0 it, issuing (.provq o mode) s = some (it, s0) → it.act ≠ 0 → (it.src .b32 it.o.a 0).pois = false →
      (it.src .b32 it.o.b 0).pois = false →
      let key := num it .b32 it.o.a 0 % 65536
      let e := (readPred s0 it.ctx (key % 1024)).2
      (∀ b g, mode = .self → s0.block it.blk = some b → s0.gridOfWarp it.wid = some g → ∃ t, exec (.provq o mode) s = .next t
          ∧ Computes it s0 t 1 (wordsOf fun _ => ⟨b.prov.toNat + 2 * g.resolved.toNat, false⟩) 0)
      ∧ (mode = .pred → ∃ t, exec (.provq o mode) s = .next t
          ∧ t.mem = (readPred s0 it.ctx (key % 1024)).1.mem ∧ Delivers it t 1 (wordsOf fun _ =>
          ⟨if e.key = key ∧ 0 < e.count then (e.ts.take e.count).foldl max 0 else 0, false⟩))
      ∧ (mode = .upd → ∃ t, exec (.provq o mode) s = .next t ∧ Delivers it t 1 (wordsOf fun _ => ⟨0, false⟩)
          ∧ t.mem = (updatePred s0 it.ctx key (num it .b32 it.o.b 0)).mem)

/-- The warp in a slot of a core. -/
def Sys2Proof.Here (s : State) (core slot wid : Nat) (w : Warp) : Prop := s.warpAt core slot = some wid ∧ s.warp wid = some w

/-- R33, R34, R139 to R141, R150, R152 to R155, R161: a warp at a header whose clause is fetched, whose flags are clear and
whose engine has room starts the clause on a port, where no other dispatchable warp comes before it; a mid-clause warp takes a
free port; a warp that has waited 512 non-stalled cycles is aged, and holds a port where none comes before it and one is free or
held by a warp that is not aged; at multiples of 8 cycles the Docent promotes the best candidate into a free
slot; a demotion ends on the herd engine; a fairness switch runs the waiting path, and is put off while a running lane holds
a reservation, for at most 256 non-stalled cycles. -/
def Obligations.WarpScheduling : Prop :=
  (∀ s core slot wid w cl, Here s core slot wid w → cannotIssue w = false → coreHeld s core = false → deliver s wid w = none →
      stopDue s core wid w = none → w.sched.engine = .herd → w.sched.frontDue = false →
      (w.sched.port ≠ none ∨ portsUsed s core wid = [] ∧ outranked s core wid w = false) →
      (w.run.widx = 0 → (breakAt s (s.ctxNo wid) w.run.pc = false ∨ w.bpSkip = some w.run.pc) →
        fetchClause s wid w w.run.pc.toNat = .ok cl → w.waiting = [] →
        (∀ f, f < 12 → cl.hdr.wait.getLsbD f = true → w.flag f = 0) → firstFits s core cl = true →
        queueFull s core wid w = false →
        ∃ t w', exec (.clauseDispatch core slot) s = .next t ∧ t.warp wid = some w' ∧ w'.clause = some cl
          ∧ w'.run = { w.run with pc := w.run.pc + 8, widx := 1 } ∧ w'.sched.port ≠ none ∧ w'.v = w.v ∧ w'.s = w.s
          ∧ w'.p = w.p ∧ w'.q = w.q ∧ w'.pend = w.pend ∧ t.blocks = s.blocks ∧ t.cores = s.cores)
      ∧ (w.run.widx ≠ 0 → dispatchable s core wid w = true → ∃ t w', exec (.clauseDispatch core slot) s = .next t ∧ t.warp wid = some w' ∧ w'.sched.port ≠ none
          ∧ w'.run = w.run ∧ w'.v = w.v ∧ w'.s = w.s ∧ t.mem = s.mem))
  ∧ (∀ s core slot wid w n, Here s core slot wid w → w.sched.readySince = some n → n + 512 ≤ s.nonStalled core →
      dispatchable s core wid w = true → coreHeld s core = false →
      let w1 := { w with sched := { w.sched with aged := true } }
      let s1 := s.setWarp wid w1
      let room := (∃ p, p < 2 ∧ ∀ u ∈ portsUsed s1 core wid, u.1 ≠ p)
        ∨ ∃ u ∈ portsUsed s1 core wid, ∃ x, s1.warp u.2 = some x ∧ x.sched.aged = false
      ∃ t w', exec (.warpAged core slot) s = .next t ∧ t.warp wid = some w' ∧ w'.sched.aged = true ∧ w'.run = w.run ∧ w'.v = w.v
        ∧ t.mem = s.mem ∧ (w.sched.port ≠ none ∨ outranked s1 core wid w1 = false ∧ room → w'.sched.port ≠ none))
  ∧ (∀ s core, s.clock core % 8 ≠ 0 → exec (.docentEvaluation core) s = .next s)
  ∧ (∀ s core x w, s.clock core % 8 = 0 → (∀ e ∈ s.warpsOn core, e.2.onHerd = true) →
      (ranked (candidates154 (noteCands s core) core)).head? = some x → s.warp x.1 = some w → w.sched.port = none →
      (s.core core).promoting = none → (∀ n, (s.core core).promotedAt = some n → n + 8 ≤ s.dev.now) →
      ∃ t w', exec (.docentEvaluation core) s = .next t ∧ t.warp x.1 = some w'
        ∧ w'.sched.engine = .sprinter (s.nonStalled core) x.2.1 ∧ w'.run = w.run ∧ t.mem = s.mem)
  ∧ (∀ s core slot wid w, Here s core slot wid w → w.sched.engine = .demoting → ∃ t w',
      exec (.demotionComplete core slot) s = .next t ∧ t.warp wid = some w' ∧ w'.sched.engine ≠ .demoting ∧ w'.run = w.run
        ∧ t.mem = s.mem)
  ∧ ∀ (s : State) (core slot wid : Nat) (w : Warp) (e : Waiter) (i : Instr), Here s core slot wid w →
      fairPoint s core wid w = true → w.waiting = [e] → e.annex = none →
      let held := w.resv.any fun r => w.run.mask.getLsbD r.1
      (i = .fairnessSwitch core slot ∧ held = false
        ∨ i = .fairnessDeferExpiry core slot ∧ ∃ n, w.sched.deferSince = some n ∧ n + 256 ≤ s.nonStalled core) →
      ∃ t w', exec i s = .next t ∧ t.warp wid = some w' ∧ w'.run = e.path ∧ w'.waiting = [⟨w.run, none⟩] ∧ w'.resv = []
        ∧ w'.v = w.v ∧ w'.s = w.s ∧ w'.p = w.p ∧ t.mem = s.mem

/-- R36, R161, R165, R179, R130, R247, R274, R343, R382, R440: a memory operation that completes writes its registers and
leaves its flag; a slice whose lanes have exited gives its registers back and the last one ends the warp; spilled cells come
back; a freed miss-status entry goes to the warp rejected first, and on after 64 cycles; a parked warp whose condition holds
moves on; a nap ends with its count; an asynchronous fault is taken at the boundary; TLB and clause-buffer invalidations
end their waits. -/
def Obligations.WarpCompletions : Prop :=
  (∀ s core slot wid w k p, Here s core slot wid w → w.pend[k]? = some p → (∀ id, p.kind ≠ .mat id) →
      landCells w p ≤ poolFree s core → (p.vw.map fun e => (e.1, e.2.1)).Nodup → (p.sw.map Prod.fst).Nodup →
      (∀ e ∈ p.vw, e.2.1 < 32) →
      ∃ t w', exec (.longLatencyComplete core slot k) s = .next t ∧ OnlyWarp wid s t ∧ t.warp wid = some w'
        ∧ w'.pend = w.pend.eraseIdx k ∧ w'.run = w.run ∧ w'.p = w.p ∧ w'.q = w.q
        ∧ (∀ e ∈ p.vw, w'.vget e.1 e.2.1 = e.2.2)
        ∧ (∀ r l, l < 32 → (∀ e ∈ p.vw, e.1 ≠ r ∨ e.2.1 ≠ l) → w'.vget r l = w.vget r l)
        ∧ (∀ e ∈ p.sw, w'.sget e.1 = e.2) ∧ ∀ r, (∀ e ∈ p.sw, e.1 ≠ r) → w'.sget r = w.sget r)
  ∧ (∀ s core slot wid w sl k, Here s core slot wid w → w.slices[sl]? = some (some k) → w.alive &&& sliceMask sl = 0 →
      ((∃ j n, j ≠ sl ∧ w.slices[j]? = some (some n)) → w.pend.any (writesSlice · sl) = false →
        ∃ t w', exec (.sliceRetire core slot sl) s = .next t ∧ t.warp wid = some w' ∧ w'.slices = w.slices.set sl none
          ∧ w'.run = w.run ∧ t.blocks = s.blocks ∧ t.mem = s.mem
          ∧ ∀ r l, w'.vget r l = if l / 8 = sl then PWord.zero else w.vget r l)
      ∧ ((∀ j, j ≠ sl → w.slices[j]? = none ∨ w.slices[j]? = some none) → w.pend = [] → w.heldTrap = none → w.async = [] →
          (s.warpsOf (blkOf wid)).any (fun e => e.1 != wid) = true →
          ∃ t, exec (.sliceRetire core slot sl) s = .next t ∧ t.warp wid = none ∧ t.blocks = s.blocks ∧ t.mem = s.mem))
  ∧ (∀ s core slot wid w, Here s core slot wid w → w.spilled ≠ [] → w.wait = none → movable w = true →
      unreadCell s wid w = none → refillAfter s core w = false → w.spilled.length ≤ poolFree s core →
      ∃ t, exec (.cellRefill core slot) s = .next t ∧ OnlyWarp wid s t
        ∧ t.warp wid = some { w with spilled := [], spilledAt := none })
  ∧ (∀ s core y, missUsed s core < 4096 → (s.core core).missResv = none → nextRejected (rejected s core) none = some y →
      ∃ t, exec (.missStatusReissue core) s = .next t ∧ (t.core core).missResv = some (y.2, s.dev.now)
        ∧ ∀ w, s.warp y.2 = some w → w.wait = some .reissue → ∃ w', t.warp y.2 = some w' ∧ w'.wait = none ∧ w'.run = w.run)
  ∧ (∀ s core wid n w m, (s.core core).missResv = some (wid, n) → n + 64 ≤ s.dev.now → s.warp wid = some w →
      w.sched.missWait = some m → ∃ t, exec (.missStatusReservationExpiry core) s = .next t
        ∧ (t.core core).missResv = (nextRejected (rejected s core) (some (m, wid))).map fun y => (y.2, s.dev.now))
  ∧ (∀ s core slot wid w, Here s core slot wid w → movable w = true →
      let moves := fun (s0 : State) => ∃ t w', exec (.waitComplete core slot) s = .next t ∧ OnlyWarp wid s0 t ∧ t.warp wid = some w' ∧ w'.wait = none
        ∧ w'.run = nextRun w ∧ w'.v = w.v ∧ w'.s = w.s ∧ w'.p = w.p
      (∀ m, w.wait = some (.fwait m) → (∀ f, f < 12 → m.getLsbD f = true → w.flag f = 0) → moves s)
      ∧ (∀ n, w.wait = some (.cpwait n) → batchesDone w n = true → moves (acquireAt s wid .blk))
      ∧ (∀ i tk, w.wait = some (.bar i tk) → phaseDone (barrierOf s (blkOf wid) i).phase tk = true → moves (acquireAt s wid .blk))
      ∧ ((w.wait = some .reissue ∨ w.wait = some .queue) → ∃ t, exec (.waitComplete core slot) s = .next t
          ∧ OnlyWarp wid s t ∧ t.warp wid = some { w with wait := none }))
  ∧ (∀ s core slot wid w n, Here s core slot wid w → w.wait = some (.nap n) → n ≤ s.nonStalled core →
      ∃ t w', exec (.napExpiry core slot) s = .next t ∧ OnlyWarp wid s t ∧ t.warp wid = some w' ∧ w'.wait = none
        ∧ w'.run = nextRun w ∧ w'.v = w.v ∧ w'.s = w.s)
  ∧ (∀ s core slot wid w r rs, Here s core slot wid w → movable w = true → w.heldTrap = none → w.async = r :: rs →
      asyncReady w = true →
      exec (.asyncFaultDelivery core slot) s = .next (takeTrap (s.setWarp wid { w with async := rs }) wid
        ⟨r.cause, r.subcode, 0, w.run.mask, r.addr.toNat, r.cmdSeq, true⟩))
  ∧ (∀ s core slot wid w va n c, Here s core slot wid w → w.wait = some (.tlbinv .all va n) → s.ctx (s.ctxNo wid) = some c →
      ∃ t w', exec (.tlbinvComplete core slot) s = .next t ∧ t.warp wid = some w' ∧ w'.wait = none ∧ w'.run = nextRun w
        ∧ t.ctx (s.ctxNo wid) = some { c with tlb := [] } ∧ t.mem = s.mem)
  ∧ ∀ s core slot wid w va, Here s core slot wid w → w.wait = some (.icinv va) →
      ∃ t w', exec (.icinvComplete core slot) s = .next t ∧ t.warp wid = some w' ∧ w'.wait = none ∧ w'.run = nextRun w
        ∧ t.mem = s.mem ∧ ∀ x w2 cl, t.warp x = some w2 → w2.loc ≠ none → dieOf w2.core = dieOf core → w2.clause = some cl →
            cl.touches va.toNat = false

/-- A queue's record with an entry acted on, and done. -/
def Sys2Proof.marked (x : Queue) (idx : Nat) (done : Bool) : Queue :=
  { x with entries := x.entries.map fun y => if y.idx = idx then { y with acted := true, done := done || y.done } else y }

/-- A target the device writes a word at: the link is up, and the contents are specified for the context. -/
structure Sys2Proof.Writable (s : State) (ctx n : Nat) (g : Tgt) : Prop where
  up : linkDown s g.key = false
  known : ∀ x ∈ sectors g.key n, s.mem.unknown (s.keyId ctx) x = false

/-- R77 to R83, R88, R91, R98, R393: TAIL is observed, an entry consumed and HEAD advanced, or the queue stops with an error, a work
queue too;
each kind of entry is acted on; an entry whose condition holds completes, with its interrupt where IRQ asks for it; a queue
restarts and stops; a proxy queue's entries are forwarded. -/
def Obligations.QueueEvents : Prop :=
  (∀ s ctx q x c, s.qcb ctx q = some (x, c) → c.state = 0 →
      let bad := c.tail < max x.seen c.head ∨ c.head + 2 ^ c.log2 < c.tail
      (¬ bad → ∃ t, exec (.queueTailObserve ctx q) s = .next t
          ∧ t.mem = (s.devTouch ctx x.qcb.toNat 128).mem ∧ t.queue ctx q = some { x with seen := c.tail })
      ∧ ∀ s1, bad → s.devWrite ctx (x.qcb.toNat + 0x53) (leBytes 1 2 ++ leBytes 4 (c.slot c.head % 65536 + 65536)) = some s1 →
          ∃ t, exec (.queueTailObserve ctx q) s = .next t ∧ t.mem = s1.mem ∧ HostEvent.msi ctx c.msi ∈ t.dev.events)
  ∧ (∀ s ctx q x c bs, s.qcb ctx q = some (x, c) → c.kind ≤ 1 → c.state = 0 → c.head < x.seen → x.stuck = none →
      toAct x = false → s.devRead ctx (c.base + 64 * (c.head % 2 ^ c.log2)) 64 = some bs →
      (∀ s1, entryError s ctx c.kind bs = 0 → alook c.head x.pushers = none →
        (s.devTouch ctx (c.slotAddr c.head) 64).devWrite ctx (x.qcb.toNat + 0x40) (leBytes 8 (c.head + 1)) = some s1 →
        ∃ t, exec (.queueEntryConsume ctx q) s = .next t ∧ t.mem = s1.mem
          ∧ t.queue ctx q = some { x with entries := x.entries ++ [⟨c.head, bs, false, false, none, none, none⟩] })
      ∧ (entryError s ctx c.kind bs ≠ 0 → exec (.queueEntryConsume ctx q) s
          = .next (queueError s ctx x c (c.slot c.head) (entryError s ctx c.kind bs))))
  ∧ (∀ s ctx q x c bs, s.qcb ctx q = some (x, c) → c.kind = 2 → c.state = 0 → c.head < c.tail →
      s.devRead ctx (c.base + 64 * (c.head % 2 ^ c.log2)) 64 = some bs → entryError s ctx 2 bs ≠ 0 →
      exec (.queueEntryConsume ctx q) s = .next (queueError s ctx x c (c.slot c.head) (entryError s ctx 2 bs)))
  ∧ (∀ s ctx q x e, s.queue ctx q = some x → x.stuck = none → nextAct true x.entries = some e →
      let a := fieldOf e.bytes 40 8
      (∀ y c bs code, e.kind = 1 → entryDesc s ctx e.bytes = some bs → s.qcb ctx q = some (y, c) → s.ctx ctx ≠ none →
          failCode s ctx bs (descOf bs) (readImage s ctx (descOf bs)) = code → code ≠ 0 → alook e.idx x.pushers = none →
          ∃ (t : State) (g : Grid), exec (.launchEntry ctx q) s = .next t ∧ GridsKept s t ∧ g.status = .failed ∧ g.failcode = code
            ∧ t.mem = ((launchTouched s ctx a (descOf bs) (readImage s ctx (descOf bs))).devPut ctx (descOf bs).completion.toNat
                g.recordBytes).mem
            ∧ t.queue ctx q = some (marked { x with pushers := adel e.idx x.pushers } e.idx true))
      ∧ (∀ y c bs k im z, e.kind = 1 → entryDesc s ctx e.bytes = some bs → s.qcb ctx q = some (y, c) → s.ctx ctx = some z →
          readImage s ctx (descOf bs) = some (k, im) → failCode s ctx bs (descOf bs) (some (k, im)) = 0 →
          (descOf bs).provisional = false → 0 < (descOf bs).gx * (descOf bs).gy * (descOf bs).gz →
          alook e.idx x.pushers = none → z.gidNext < 2 ^ 24 → s.grid ctx z.gidNext = none →
          ∃ t g z', exec (.launchEntry ctx q) s = .next t ∧ t.grid ctx z.gidNext = some g ∧ g.desc = descOf bs
            ∧ { g.image with constStored := im.constStored } = im
            ∧ g.status = .pending ∧ g.next = 0 ∧ g.last = (descOf bs).gx * (descOf bs).gy * (descOf bs).gz
            ∧ t.ctx ctx = some z' ∧ z'.gidNext = (z.gidNext + 1) % 2 ^ 24)
      ∧ (∀ g, e.kind = 2 → s.access ctx a s.free ⟨true, false, none⟩ = .ok g → s.mem.poisonedIn g.key 8 = false →
          Writable s ctx 8 g → (∀ r ∈ gridsOf s ctx, r.2.bound = true → r.2.desc.shapeAddr.toNat ≠ a) →
          ∃ t, exec (.shapeEntry ctx q) s = .next t ∧ WordSet (s.used ctx a g) t g 8 (2 ^ 63 + fieldOf e.bytes 48 4)
            ∧ t.queue ctx q = some (marked x e.idx true))
      ∧ (e.kind = 3 → ∃ t, exec (.replayEntry ctx q) s = .next t ∧ t.mem = s.mem ∧ t.queue ctx q = some (marked x e.idx true)
          ∧ ∀ i ∈ replayHits s ctx (if fieldOf e.bytes 48 1 % 2 = 1 then .token (BitVec.ofNat 32 a) else .page a),
              alook i t.dev.wt = none)
      ∧ (∀ bs, e.kind = 4 → s.devRead ctx a 32 = some bs →
          let least := if vouchFirst s ctx a = true then 3 else fieldOf e.bytes 48 1
          ∃ t, exec (.waitcEntry ctx q) s = .next t ∧ t.mem = (s.devTouch ctx a 32).mem
            ∧ t.queue ctx q = some (marked x e.idx (decide (least ≤ fieldOf bs 0 1))))
      ∧ ∀ g, e.kind = 5 → s.access ctx a s.free ⟨true, false, none⟩ = .ok g → Writable s ctx 8 g →
          ∃ t, exec (.signalEntry ctx q) s = .next t ∧ WordSet (s.used ctx a g) t g 8 (fieldOf e.bytes 48 8)
            ∧ t.queue ctx q = some (marked x e.idx true))
  ∧ (∀ s ctx q k x e, s.queue ctx q = some x → x.entries[k]? = some e → e.acted = true → entryOver s ctx e = true →
      ∃ t, exec (.queueEntryComplete ctx q k) s = .next t ∧ t.mem = s.mem
        ∧ t.queue ctx q = some { x with entries := x.entries.filter fun y => y.idx != e.idx }
        ∧ ∀ y c, fieldOf e.bytes 1 1 / 2 % 2 = 1 → s.qcb ctx q = some (y, c) → HostEvent.msi ctx c.msi ∈ t.dev.events)
  ∧ (∀ s ctx q x c skip s1 s2, s.qcb ctx q = some (x, c) →
      s.devWrite ctx (x.qcb.toNat + 0x54) (leBytes 4 (c.err - c.err / 2 ^ 24 % 2 * 2 ^ 24)) = some s1 →
      s1.devWrite ctx (x.qcb.toNat + 0x53) (leBytes 1 0) = some s2 → ∃ t, exec (.queueRestart ctx q skip) s = .next t
        ∧ t.mem = s2.mem ∧ (x.stuck = none → t.queue ctx q = some x)
        ∧ (∀ i, x.stuck = some i → (skip = true ∨ c.err / 2 ^ 24 % 2 = 1) → t.queue ctx q = some (marked { x with stuck := none } i true))
        ∧ ∀ i, x.stuck = some i → skip = false → c.err / 2 ^ 24 % 2 = 0 → t.queue ctx q = some { x with
            stuck := none, entries := x.entries.map fun y => if y.idx = i then { y with acted := false } else y })
  ∧ (∀ s ctx q x s1, s.queue ctx q = some x → s.devWrite ctx (x.qcb.toNat + 0x53) (leBytes 1 1) = some s1 →
      exec (.queueStop ctx q) s = .next s1)
  ∧ ∀ s ctx q x c bs i, s.qcb ctx q = some (x, c) → c.kind = 3 → c.state = 0 → s.devRead ctx c.peer 128 = some bs →
      let p := qcbOf bs
      let n := min (min 64 (c.tail - c.head)) (p.head + 2 ^ p.log2 - p.tail)
      p.state = 0 → 0 < n →
      (i = .proxyForward ctx q ∧ c.head + 64 ≤ c.tail
        ∨ i = .proxyForwardTimer ctx q ∧ c.head < c.tail ∧ x.lastGather + 5000 ≤ s.dev.now) →
      ∃ t, exec i s = .next t ∧ t.queue ctx q = some { x with
          lastGather := s.dev.now, banks := if c.tail = c.head + n then [] else x.banks }
        ∧ t.mem = (((putEntries ctx p p.tail ((List.range n).map fun j =>
            (alook (c.slot (c.head + j)) x.slots).getD (List.replicate 64 0)) s).devPut ctx c.peer
              (leBytes 8 (p.tail + n))).devPut ctx (x.qcb.toNat + 0x40) (leBytes 8 (c.head + n))).mem

/-- R84, R94 to R96, R135, R394 to R398, R401, R403, R476: waiting grids age; a grid's last block is placed on the first candidate
from the cursor that holds it; an ended block without children retires; system software relaunches a gang or gives it up;
a request to pre-empt takes save pages, or waits for them; time slices and budgets end; contexts leave and take the
device; page claims are granted, refused and released. -/
def Obligations.PlacementAndPreemption : Prop :=
  (∀ s ctx gid g, s.grid ctx gid = some g → (nextIdx s ctx gid).isSome = true →
      let due := (if g.status = .pending then g.agedFrom else g.lastPlace) + (g.boost + 1) * agePeriod (s.cfg ctx)
      (due ≤ s.ptp → ∃ t, exec (.priorityAgeing ctx gid) s = .next t ∧ t.grid ctx gid = some { g with boost := g.boost + 1 }
        ∧ t.mem = s.mem ∧ t.blocks = s.blocks)
      ∧ (s.ptp < due → exec (.priorityAgeing ctx gid) s = .next s))
  ∧ (∀ s ctx c gid g k cs, s.ctx ctx = some c → c.resident = true → c.halted = false → servedOrder s ctx = [(ctx, gid, g)] →
      s.grid ctx gid = some g → g.firstWave = true → wfld g.desc.flags 0 1 = 0 → g.desc.gang ≤ 1 →
      joinedIdx s ctx gid g = [] → g.next + 1 = g.last → g.status.finished = false →
      (∀ e ∈ s.ctxs, e.2.childCores = []) →
      let s1 := s.modGrid ctx gid fun g => { g with firstWave := false, joinWave := false }
      let cands := fromCursor s ctx (candidates s ctx (g.desc.need (s.cfg ctx)))
      cands.findIdx? (fun x => candRoom s1 ctx x (g.desc.need (s.cfg ctx)) true) = some k → cands[k]? = some cs →
      ∃ t b, exec (.blockPlacement ctx) s = .next t ∧ t.block s.blkNext = some b ∧ t.blkNext = s.blkNext + 1
        ∧ b.ctx = ctx ∧ b.gid = gid ∧ b.idx = g.next ∧ b.cores = cs ∧ b.nwarps = g.desc.perCore * g.desc.span)
  ∧ (∀ s bn b, s.block bn = some b → b.st = .ended → b.children = [] → ∃ t, exec (.blockRetire bn) s = .next t
      ∧ t.block bn = none ∧ ∀ g, s.gridOf b = some g → ∃ g', t.grid b.ctx b.gid = some g' ∧ g'.run = g.run + 1)
  ∧ (∀ s ctx gid gang relaunch g i, s.grid ctx gid = some g → i ∈ g.limbo → i / max 1 g.desc.gang = gang →
      (relaunch = true → sget 0 g.kills gang ≤ 3 → g.desc.provisional = false → ∃ t g',
        exec (.hostGangRelaunchOrAbandon ctx gid gang relaunch) s = .next t ∧ t.grid ctx gid = some g'
          ∧ g'.relaunches = g.relaunches ∧ gang ∈ g'.relaunching ∧ i ∈ g'.joining ∧ i ∉ g'.limbo)
      ∧ (relaunch = false → liveBlocks s ctx gid = [] → g.status.finished = false → ∃ t g',
          exec (.hostGangRelaunchOrAbandon ctx gid gang relaunch) s = .next t ∧ t.grid ctx gid = some g' ∧ g'.status = .killed
            ∧ g'.limbo = []))
  ∧ (∀ s bn b trig, s.block bn = some b → b.preempt = none →
      let host := wfld (s.cfg b.ctx).dutyMode 3 1 = 1
      let choice := trig = .timeSlice ∨ trig = .priority ∨ trig = .gwait
      (b.cores ≠ [] → triggerHolds s bn b trig = true → ¬ (host ∧ choice) →
        exec (.preemptionRequest bn trig) s = .next (requestPreempt s bn trig))
      ∧ (b.cores ≠ [] → triggerHolds s bn b trig = true → host → trig = .priority →
        exec (.preemptionRequest bn trig) s = .next (hostEvent s (.priority bn)))
      ∧ (b.cores ≠ [] → sliceOver s b = true → ¬ host → exec (.timeSliceExpiry bn) s = .next (requestPreempt s bn .timeSlice))
      ∧ (b.cores ≠ [] → sliceOver s b = true → host → ∃ t, exec (.timeSliceExpiry bn) s = .next t
          ∧ HostEvent.sliceEnd bn ∈ t.dev.events
          ∧ t.block bn = some { b with sliceStart := s.nonStalled (b.cores.head?.getD 0) })
      ∧ (b.st = .running → b.prov = false → gangOf s bn = [bn] → preemptGroup s bn = [bn] →
          let starts := (coresRun s b).map fun c => (c, s.nonStalled c)
          (∀ ps, freePages s b.ctx (worstPages s b) = some ps → (requestPreempt s bn trig).block bn = some { b with
            preempt := some ⟨s.dev.now, starts, trig, ps.take (worstPages s b)⟩ })
          ∧ (freePages s b.ctx (worstPages s b) = none → (requestPreempt s bn trig).block bn = some { b with
            preempt := some ⟨s.dev.now, starts, trig, []⟩ })))
  ∧ (∀ s bn b p, s.block bn = some b → b.preempt = some p → p.pages = [] → preemptGroup s bn = [bn] →
      p.at_ + 2500000 ≤ s.dev.now →
      exec (.saveSpaceRetry bn) s = .next (requestPreempt (s.setBlock bn { b with preempt := none }) bn p.trig))
  ∧ (∀ s core slot wid w b p, Here s core slot wid w → s.block (blkOf wid) = some b → b.preempt = some p → p.pages ≠ [] →
      w.stop = none → w.alive ≠ 0 → w.halted = false → dumping s wid = false → deliver s wid w = none →
      let stops := fun (s1 : State) (n : StopNote) => trySave (s1.setWarp wid { w with
        stop := some n, sched := { w.sched with port := none } }) (blkOf wid)
      let over_ := ∃ n, alook core p.starts = some n ∧ n + 250000 ≤ s.nonStalled core
      let here := catHere s wid w
      (midOperation w = false → (∀ n, w.wait ≠ some (.nap n)) → over_ →
        exec (.preemptBudgetExpiry core slot) s = .next (stops s ⟨.heavy, none⟩))
      ∧ (¬ over_ → exec (.preemptBudgetExpiry core slot) s = .next s)
      ∧ (¬ over_ → w.handler = none → ∀ x, w.wait = some x → stopsParked x = true →
        exec (.warpStopPoint core slot) s = .next (stops s ⟨.full, none⟩))
      ∧ (¬ over_ → w.handler = none → w.wait = none → w.spilled = [] →
        (here.2 = true → exec (.warpStopPoint core slot) s
            = .next (stops (count (touchCat s wid) core evCatalogue) ⟨.heavy, none⟩))
        ∧ ∀ e, here = (some e, false) → w.pend = [] → exec (.warpStopPoint core slot) s
            = .next (stops (touchCat s wid) ⟨if w.waiting = [] then .light else .full, some e⟩)))
  ∧ (∀ s ctx cores c, s.ctx ctx = some c → c.resident = true → placedBlocks s ctx = [] → (∀ e ∈ s.blocks, e.2.st ≠ .endedP) →
      wfld c.eff.traceCfg 0 1 = 0 →
      (∀ k ∈ coresOf s ctx, k ∈ cores ∨ leaderOf k ∈ cores) → ∃ t c', exec (.contextSwitchOut ⟨ctx, cores⟩) s = .next t ∧ t.ctx ctx = some c'
        ∧ c'.resident = false ∧ c'.tlb = [] ∧ c'.cfg = c.cfg
        ∧ (∀ n, ∃ m p, t.block n = (s.block n).map fun x => { x with scr := m, scrPois := p })
        ∧ ∀ k, (s.core k).ctx = some ctx → (t.core k).ctx = none ∧ (t.core k).fifos = [])
  ∧ (∀ s ctx c, s.ctx ctx = some c → c.resident = false → (∀ e ∈ gridsOf s ctx, e.2.pendingRes = none) →
      ∃ t c', exec (.contextSwitchIn ctx) s = .next t ∧ t.ctx ctx = some c' ∧ c'.resident = true ∧ c'.eff = c.cfg ∧ c'.tlb = []
        ∧ t.blocks = s.blocks ∧ t.warps = s.warps)
  ∧ ∀ (s : State) (val : BitVec 64), let ctx := val.toNat / 2 ^ 56 % 64
      let page := val.toNat / 2 ^ 16 % 2 ^ 40
      let status := fun (n : Nat) => ∃ t, exec (.migClaim val) s = .next t ∧ t.dev.migClaim = BitVec.ofNat 64 (4 * n) ∧ t.mem = s.mem
      let mine := fun (x : Claim) => x.ctx = ctx ∧ x.page = page
      (val.toNat % 4 = 1 → pagePinned s ctx page = true → status 2)
      ∧ (val.toNat % 4 = 1 → pagePinned s ctx page = false → (deviceClaim s ctx page).isSome = true → status 1)
      ∧ (val.toNat % 4 = 1 → pagePinned s ctx page = false → deviceClaim s ctx page = none → ∃ t,
          exec (.migClaim val) s = .next t ∧ t.dev.migClaim = 0 ∧ claimed t ctx page = true)
      ∧ ((val.toNat % 4 = 0 ∨ val.toNat % 4 = 3) → status 3)
      ∧ (val.toNat % 4 = 2 → ∃ t, exec (.migRelease val) s = .next t ∧ claimed t ctx page = false ∧ t.mem = s.mem)
      ∧ ((∃ x ∈ s.dev.claims, mine x ∧ x.at_ + 25000000 ≤ s.ptp) → ∃ t, exec (.migClaimExpiry ctx page) s = .next t
          ∧ claimed t ctx page = false)
      ∧ ((∀ x ∈ s.dev.conflicts, x.ctx = ctx → x.page = page → ∀ n, x.pinned = some n → n + 25000000 ≤ s.ptp) →
          ∃ t, exec (.pagePinExpiry ctx page) s = .next t ∧ pagePinned t ctx page = false)

/-- R405, R406, R408, R414 to R417, R423, R425 to R430: the time master jumps forward or slews; trace buffers drain to their
segment, and a fault there ends the trace; a lossless hold escapes; counters are swept; the debugger halts, resumes, reads
and writes warps; a dump that is ready is written and its context goes on. -/
def Obligations.TimeTraceAndDebug : Prop :=
  (∀ (s : State) (i : Instr) (k : Int), 0 ≤ (s.dev.now : Int) + s.dev.ptpOff →
      (i = .timeCorrection k ∨ ∃ sec : BitVec 48, i = .ppsInput sec ∧ clockHost s = false
        ∧ k = (sec.toNat * Config.ticksPerSecond : Nat) - (s.ptp : Int)) →
      (25000000 < k → ∃ t, exec i s = .next t ∧ (t.ptp : Int) = s.ptp + k ∧ t.dev.slew = 0 ∧ t.mem = s.mem)
      ∧ (k ≤ 25000000 → ∃ t, exec i s = .next t ∧ t.ptp = s.ptp ∧ t.dev.slew = k ∧ t.mem = s.mem))
  ∧ (∀ s sec, clockHost s = true → exec (.ppsInput sec) s = .next s)
  ∧ (∀ s ctx src i, recording s ctx = true →
      let u := s.unit ctx src
      (i = .traceDrain ctx src ∧ 256 ≤ u.buf.length ∨ i = .traceDrainTimer ctx src ∧ u.buf ≠ [] ∧ u.lastDrain + 10000 ≤ s.ptp) →
      (∀ room s1 s2, segRoom s ctx src u = some room → u.escaped = false → u.lossless = false →
        let n := min u.buf.length room
        segWrite s ctx src u.wr (u.buf.take n) = some s1 →
        s1.devWrite ctx (streamBlock (s.cfg ctx) src) (leBytes 8 (u.wr + n)) = some s2 → ∃ t, exec i s = .next t ∧ t.mem = s2.mem
          ∧ t.unit ctx src = ({ u with buf := u.buf.drop n, wr := u.wr + n, lastDrain := s.ptp } : TraceUnit).recover
              (unitBytes (s.cfg ctx) src) ctx src (s.unitDie src) s.ptp)
      ∧ (segRoom s ctx src u = none → ∃ t c', exec i s = .next t ∧ t.ctx ctx = some c' ∧ c'.traceOff = true
          ∧ HostEvent.traceFault ctx ∈ t.dev.events))
  ∧ (∀ s ctx src n, (s.unit ctx src).heldSince = some n → n + stallLimit (s.cfg ctx) ≤ s.ptp →
      ∃ t, exec (.losslessEscape ctx src) s = .next t ∧ (t.core src).held = none ∧ (t.unit ctx src).heldSince = none
        ∧ t.mem = s.mem ∧ t.warps = s.warps)
  ∧ (∀ s core slot wid w b g, Here s core slot wid w → s.block (blkOf wid) = some b → s.gridOfWarp wid = some g →
      (s.core core).held = none →
      (sampleSlot s core w.onHerd = some slot →
        let s1 := s.modCore core fun c => { c with samples := aput (engineNo w.onHerd) (slot, s.nonStalled core) c.samples }
        exec (.traceSample core slot) s
          = .next (holdCheck (emit s1 b.ctx core none true (sampPacket s core wid w g)) b.ctx core))
      ∧ (s.traced b = false ∨ wfld g.desc.trace 2 1 ≠ 1
          ∨ s.nonStalled core / 2 ^ wfld g.desc.trace 8 5
              ≤ (sget (127, 0) (s.core core).samples (engineNo w.onHerd)).2 / 2 ^ wfld g.desc.trace 8 5 →
        exec (.traceSample core slot) s = .next s))
  ∧ (∀ s ctx c, s.ctx ctx = some c → c.resident = true → wfld c.eff.dutyMode 5 1 = 0 → ∃ t c', exec (.counterSweep ctx) s = .next t
      ∧ t.ctx ctx = some c' ∧ c'.rcnt = []
      ∧ ((∀ e ∈ s.warps, e.2.promoted = false) → ∀ k, (s.core k).ctx = some ctx → (t.core k).cnt = []))
  ∧ (∀ (s : State) c, s.ctx s.dbgContext = some c →
      let ctx := s.dbgContext
      let of := fun (x : Nat) => ∃ b, s.block (blkOf x) = some b ∧ b.ctx = ctx
      (∀ x i, x ≠ ctx → i = .dbgHaltBroadcast x ∨ i = .dbgResumeAll x ∨ i = .dbgHaltAndDump x → exec i s = .next s)
      ∧ (∃ t c', exec (.dbgHaltBroadcast ctx) s = .next t ∧ t.ctx ctx = some c' ∧ c'.halted = true
        ∧ ∀ x w', t.warp x = some w' → of x → w'.halted = true)
      ∧ (c.dump = none → ∃ t c', exec (.dbgResumeAll ctx) s = .next t ∧ t.ctx ctx = some c' ∧ c'.halted = false
        ∧ ∀ x w', t.warp x = some w' → of x → w'.halted = false)
      ∧ (c.dump = none → ∃ t c', exec (.dbgHaltAndDump ctx) s = .next t ∧ t.ctx ctx = some c' ∧ c'.halted = true
        ∧ c'.dump ≠ none ∧ ∀ x w', t.warp x = some w' → of x → w'.halted = true)
      ∧ ∀ d, c.dump = some d → dumpReady s ctx = true → d.fatal = none → d.kills = [] → d.resets = [] → (∀ e ∈ s.warps, e.2.heldTrap = none) →
          ∃ t c', exec (.dumpWrite ctx) s = .next t ∧ t.ctx ctx = some c' ∧ c'.dump = none
            ∧ c'.halted = (if d.resume then false else c.halted) ∧ HostEvent.dump ctx ∈ t.dev.events)
  ∧ ∀ (s : State) (cmd : BitVec 64) (wid : Nat) (w : Warp), dbgWarp s cmd = .ok (wid, w) → s.warp wid = some w →
      let space := cmd.toNat / 2 ^ 19 % 8
      let i := cmd.toNat / 2 ^ 22 % 128
      let reads := fun (p : State → Prop) => ∃ t, exec (.dbgRead cmd) s = .next t ∧ t.dev.dbgCmd = 0 ∧ t.warps = s.warps ∧ p t
      (space = 0 → w.pendV.contains i = false → reads fun t => ∀ l, l < 32 → getData t (4 * l) 4 = (w.vget i l).val.toNat)
      ∧ (space = 1 → i < 96 → w.pendS.contains i = false → reads fun t => getData t 0 4 = (w.sget i).val.toNat)
      ∧ (space = 4 → reads fun t => getData t 0 4 = w.run.fmt.toNat)
      ∧ (space = 5 → reads fun t => getData t 0 8 = w.run.pc.toNat ∧ getData t 8 4 = w.run.widx % 2 ^ 32)
      ∧ (space = 1 → i < 96 → ∃ t w', exec (.dbgWrite cmd) s = .next t ∧ t.dev.dbgCmd = 0 ∧ t.warp wid = some w'
          ∧ w'.sget i = ⟨BitVec.ofNat 32 (getData s 0 4), false⟩ ∧ (∀ r, r ≠ i → w'.sget r = w.sget r) ∧ w'.v = w.v
          ∧ w'.run = w.run ∧ w'.pendS.contains i = false)
      ∧ (space = 4 → ∃ t w', exec (.dbgWrite cmd) s = .next t ∧ t.dev.dbgCmd = 0 ∧ t.warp wid = some w'
          ∧ w'.run = { w.run with fmt := BitVec.ofNat 32 (getData s 0 4) &&& 0xFFFF } ∧ w'.v = w.v ∧ w'.s = w.s)
      ∧ (∃ t w', exec (.dbgSetPc cmd) s = .next t ∧ t.dev.dbgCmd = 0 ∧ t.warp wid = some w' ∧ w'.wait = none
          ∧ w'.run = { w.run with pc := BitVec.ofNat 64 (getData s 0 8 % 2 ^ 56), widx := getData s 8 4 % 16 } ∧ w'.v = w.v)
      ∧ (dumping s wid = false → ∃ t, exec (.dbgResumeWarp cmd) s = .next t ∧ t.dev.dbgCmd = 0
          ∧ t.warp wid = some { w with halted := false })
      ∧ (dumping s wid = false → ∃ t, exec (.dbgResumePastBreakpoint cmd) s = .next t ∧ t.dev.dbgCmd = 0
          ∧ t.warp wid = some { w with halted := false, bpSkip := some w.run.pc })

/-- A visit to a core ends the naps of the blocks that run there, and no other warp changes (R179, R465). -/
def Sys2Proof.NapsEnd (s t : State) (core : Nat) : Prop :=
  (runsOn s core = [] → t.warps = s.warps)
    ∧ ((s.warps.map Prod.fst).Pairwise (· < ·) → ∀ x w, s.warp x = some w →
      t.warp x = some (if blkOf x ∈ runsOn s core then w.endNap else w))

/-- R464 to R468, R470 to R474, R476, R478, R479: the Curator visits cores, scans and fences them; an uncorrectable error
poisons its word or sector and is recorded; parity errors invalidate, kill or reset; dies, engines and links are reset,
return, or are lost. -/
def Obligations.ContainmentEvents : Prop :=
  (∀ s die core, die < 8 → s.dev.partBusy.contains die = false → (∀ n, alook (16 + die) s.dev.curator = some n → n + 2500000 ≤ s.dev.now) →
      nextVisit s die = some core → ∃ t, exec (.curatorVisitStart die) s = .next t ∧ t.mem = s.mem ∧ NapsEnd s t core
        ∧ t.core core = { s.core core with draining := some (s.nonStalled core), postponed := false })
  ∧ (∀ s core, core < 256 → s.dev.partBusy.contains (dieOf core) = false → visitable s core = true →
      ∃ t, exec (.curatorHostRequest core) s = .next t ∧ t.mem = s.mem ∧ NapsEnd s t core
        ∧ t.core core = { s.core core with draining := some (s.nonStalled core), postponed := false })
  ∧ (∀ s core n, (s.core core).draining = some n →
      (runsOn s core = [] → ∃ t, exec (.curatorDrainExpiry core) s = .next t
        ∧ t.core core = { s.core core with draining := none, scanning := some s.dev.now })
      ∧ (runsOn s core ≠ [] → s.nonStalled core < n + 500000 → exec (.curatorDrainExpiry core) s = .next s))
  ∧ (∀ s core pass n, (s.core core).scanning = some n → n + 250000 ≤ s.dev.now → ∃ t,
      exec (.curatorScanComplete core pass) s = .next t ∧ (t.core core).scanning = none
        ∧ (pass = true → (t.core core).lastPass = n ∧ (t.core core).fenced = (s.core core).fenced)
        ∧ (pass = false → (t.core core).fenced = true ∧ t.dev.replace = true ∧ t.dev.degraded = true
            ∧ HostEvent.suspects core ∈ t.dev.events))
  ∧ (∀ s wid w i lane, s.warp wid = some w → w.loc ≠ none → i < 96 → ∃ t w', exec (.uncorrectableWordError .ureg wid i lane) s = .next t
      ∧ t.warp wid = some w' ∧ w'.sget i = ⟨(w.sget i).val, true⟩ ∧ (∀ r, r ≠ i → w'.sget r = w.sget r)
      ∧ t.dev.errCount = s.dev.errCount + 1)
  ∧ (∀ s bn b i lane, s.block bn = some b → b.cores ≠ [] → 4 * i < s.scratchBytes b → ∃ t, exec (.uncorrectableWordError .scratch bn i lane) s = .next t
      ∧ t.block bn = some { b with scrPois := nins i b.scrPois } ∧ t.dev.errCount = s.dev.errCount + 1)
  ∧ (∀ s kind space pa, (∀ c, kind ≠ .dirtyL1 c) → ∃ t, exec (.cacheSectorError kind ⟨space, pa⟩) s = .next t ∧ t.mem.cells = s.mem.cells
      ∧ let key := memKey space pa
        (kind = .clean ∨ kind = .corrected → t.mem = s.mem ∧ t.dev.corrected = s.dev.corrected + 1)
        ∧ (kind = .cleanHomeBad ∨ kind = .dirtyEvict ∧ space ≠ .peer ∨ kind = .hbm ∧ space = .dev →
            t.dev.errCount = s.dev.errCount + 1 ∧ t.mem.poisoned key = true)
        ∧ (kind = .dirtyAccess → space ≠ .peer ∨ provHolders s key ≠ [] → t.dev.errCount = s.dev.errCount + 1
            ∧ (t.mem.poisoned key = true ∨ ∃ bn ∈ provHolders s key, ∃ b, t.block bn = some b ∧ key / 32 ∈ b.ppois)))
  ∧ (∀ (s : State) core space pa, let key := memKey space pa
      (∃ b ∈ (s.core core).dirty, b.meets (key / 32 * 32) 32 = true) → ∃ t, exec (.cacheSectorError (.dirtyL1 core) ⟨space, pa⟩) s = .next t
        ∧ s.dev.errCount < t.dev.errCount ∧ t.mem.poisoned key = true)
  ∧ (∀ s core slot wid w b, Here s core slot wid w → s.block (blkOf wid) = some b →
      (dumpHolds s (blkOf wid) = false → gangOf s (blkOf wid) = [blkOf wid] → b.children = [] →
        ∃ t, exec (.frontierParityError core slot) s = .next t ∧ t.block (blkOf wid) = none)
      ∧ (dumpHolds s (blkOf wid) = true → ∃ t, exec (.frontierParityError core slot) s = .next t ∧ t.blocks = s.blocks
          ∧ t.dev.errCount = s.dev.errCount + 1 ∧ ∀ c d, s.ctx b.ctx = some c → c.dump = some d →
            ∃ c', t.ctx b.ctx = some c' ∧ c'.dump = some { d with kills := d.kills ++ [blkOf wid] }))
  ∧ (∀ s ctx va c, s.ctx ctx = some c → ∃ t, exec (.translationParityError ctx va) s = .next t
      ∧ t.ctx ctx = some { c with tlb := c.tlb.filter fun e => !tlbMeets e.1 va 1 } ∧ t.dev.corrected = s.dev.corrected + 1 ∧ t.mem = s.mem)
  ∧ (∀ s core, ∃ t, exec (.instructionCacheParityError core) s = .next t ∧ t.dev.corrected = s.dev.corrected + 1
      ∧ ∀ x w, s.warp x = some w → ∃ w', t.warp x = some w' ∧ w'.run = w.run ∧ w'.v = w.v
        ∧ (w.loc ≠ none → w.core = core → w'.clause = none))
  ∧ (∀ (s : State) (val : BitVec 64), val.toNat / 2 ^ 8 % 2 = 0 →
      exec (.partReset val) s = .next { s with dev := { s.dev with partDie := val.toNat % 16 } })
  ∧ (∀ s die i, resettable s die = true → (∀ e ∈ s.blocks, (∃ c ∈ e.2.cores, dieOf c = die) → dumpHolds s e.1 = false) → (i = .registrarStateError die ∨ ∃ val : BitVec 64, i = .partReset val
        ∧ val.toNat % 16 = die ∧ val.toNat / 2 ^ 8 % 2 = 1) →
      ∃ t, exec i s = .next t ∧ die ∈ t.dev.partBusy ∧ ∀ k, dieOf k = die → (t.core k).stopped = true ∧ (t.core k).ctx = none)
  ∧ (∀ s die failed, s.dev.partBusy.contains die = true → ∃ t, exec (.partitionResetComplete die failed) s = .next t
      ∧ die ∉ t.dev.partBusy ∧ ∀ k, dieOf k = die → (s.core k).fenced = false →
        (t.core k).stopped = false ∧ (k ∈ failed → (t.core k).fenced = true))
  ∧ (∀ s core matrix i, (i = .engineStateError matrix core ∨ i = .engineTimeout matrix core
        ∧ ∃ n ∈ runningSince s matrix core, n + 2 ^ 24 ≤ s.nonStalled (if matrix then leaderOf core else core)) →
      (matrix = false → ∀ c ∈ (s.core core).copies, ∃ w, s.warp c.wid = some w ∧ w.alive ≠ 0) →
      ∃ t, exec i s = .next t
        ∧ (matrix = false → (t.core core).copies = [] ∧ (t.core core).engReset = some s.dev.now)
        ∧ (matrix = true → (t.pair (leaderOf core)).mq = [] ∧ (t.pair (leaderOf core)).eq = []
            ∧ (t.pair (leaderOf core)).engReset = some s.dev.now))
  ∧ (∀ s core, ∃ t, exec (.engineResetComplete false core) s = .next t ∧ t.core core = { s.core core with engReset := none })
  ∧ (∀ s core, ∃ t, exec (.engineResetComplete true core) s = .next t
      ∧ t.pair (leaderOf core) = { s.pair (leaderOf core) with engReset := none })
  ∧ ∀ s k, k < 26 → (s.link k).down = false →
      (∀ retry, (s.link k).retrain = none → let fails := if retry then (s.link k).fails + 1 else 0
        (fails < 8 → ∃ t, exec (.flitCheckFailure ⟨k, retry⟩) s = .next t
          ∧ t.link k = { s.link k with fails := fails } ∧ t.dev.errCount = s.dev.errCount + 1)
        ∧ (8 ≤ fails → ∃ t, exec (.flitCheckFailure ⟨k, retry⟩) s = .next t
          ∧ t.link k = { s.link k with fails := 0, retrain := some s.dev.now } ∧ t.dev.errCount = s.dev.errCount + 1))
      ∧ (∃ t, exec (.laneFailure k) s = .next t ∧ t.dev.degraded = true
        ∧ t.link k = { s.link k with fails := 0, half := true, retrain := some s.dev.now })
      ∧ ((s.link k).retrain ≠ none → ∃ t, exec (.linkRetrainComplete k) s = .next t
        ∧ t.link k = { s.link k with fails := 0, retrain := none })
      ∧ ∀ n, (s.link k).retrain = some n → n + 25000000 ≤ s.dev.now → ∃ t, exec (.linkDownTimeout k) s = .next t
        ∧ t.link k = { s.link k with down := true, retrain := none } ∧ (18 ≤ k → t.dev.degraded = true)

/-- The contents of a range are specified for an agent outside the device's contexts (R259). -/
def Sys2Proof.SpecifiedFor (s : State) (k n : Nat) : Prop := ∀ x ∈ sectors k n, s.mem.unknown (openKey s x) x = false

/-- No queue stands on an entry it could not act on. -/
def Sys2Proof.NoneStuck (s : State) : Prop := ∀ e ∈ s.ctxs, ∀ q ∈ e.2.queues, q.2.stuck = none

/-- R237, R259, R260, R319, R426, R482 to R486: temperature and power limits, firmware update, boot and attestation; the host's
and peers' memory accesses, a peer's atomics among them; the debug registers; contexts created and destroyed. -/
def Obligations.PackageAndHost : Prop :=
  (∀ s temp gate, 100 < temp → temp < 115 → ∃ t, exec (.thermalThrottle temp gate) s = .next t
      ∧ t.dev.thermal = min 63 gate ∧ t.mem = s.mem ∧ t.warps = s.warps)
  ∧ (∀ s, ∃ t, exec .thermalThrottleRelease s = .next t ∧ t.dev.thermal = 0 ∧ t.mem = s.mem ∧ t.warps = s.warps)
  ∧ (∀ s, ∃ t, exec .thermalTrip s = .next t ∧ t.dev.powered = false ∧ t.dev.errCount = s.dev.errCount + 1
      ∧ t.dev.nvErr.length = s.dev.nvErr.length + 1)
  ∧ (∀ (s : State) (val : BitVec 64), ∃ t, exec (.powerLimitWrite val) s = .next t
      ∧ t.dev.powerLimit = BitVec.ofNat 64 (val.toNat % 2 ^ 13) ∧ t.mem = s.mem ∧ t.warps = s.warps
      ∧ ((val.toNat % 2 ^ 13 < 1000 ∨ 4200 ≤ val.toNat % 2 ^ 13) → t.dev.gate = 0) ∧ t.dev.gate < 64)
  ∧ (∀ s image, s.dev.flash.length = 2 → s.dev.active < 2 → ∃ t, exec (.firmwareUpdate image) s = .next t
      ∧ t.dev.flash[1 - s.dev.active]? = some image ∧ t.dev.flash[s.dev.active]? = s.dev.flash[s.dev.active]?
      ∧ t.dev.active = s.dev.active ∧ t.mem = s.mem)
  ∧ (∀ (s : State) (nonce : BitVec 256), isReady s = true → ∃ t, exec (.spdmMeasurementRequest nonce) s = .next t
      ∧ t = { s with dev := { s.dev with hostData := t.dev.hostData } } ∧ leNat (t.dev.hostData.take 32) = nonce.toNat)
  ∧ (∀ s ev, let b := bootBank (resetModule s).dev
      (∀ f, b = .error f → ∃ t, exec (.bootSequence ev) s = .next t ∧ t.dev.bootStatus = bootWord 2 f false ∧ t.ctxs = [] ∧ t.warps = [])
      ∧ (∀ bank f, b = .ok (bank, f) → ev.trainOk = false → ∃ t, exec (.bootSequence ev) s = .next t
          ∧ t.dev.bootStatus = bootWord 4 5 false ∧ t.dev.powered = true)
      ∧ ∀ bank f, b = .ok (bank, f) → ev.trainOk = true → ∃ t, exec (.bootSequence ev) s = .next t
          ∧ t.dev.bootStatus = bootWord 7 f true ∧ t.dev.active = bank ∧ t.dev.powered = true ∧ t.ctxs = [] ∧ t.blocks = []
          ∧ t.warps = [] ∧ ∀ k, k < 256 → ((t.core k).fenced = true ↔ k ∈ ev.failedCores ∨ (s.core k).fenced = true))
  ∧ (∀ s acc, isReady s = true → inSpace acc.space acc.pa acc.len = true → acc.space ≠ .peer →
      let k := memKey acc.space acc.pa
      SpecifiedFor s k acc.len →
      (acc.write = true → acc.data.length = acc.len → NoneStuck s → ∃ t, exec (.hostMemoryAccess acc) s = .next t ∧ t.dev = s.dev
        ∧ ∀ a, t.mem.byte a = if k ≤ a ∧ a < k + acc.len then (acc.data[a - k]?).getD 0 else s.mem.byte a)
      ∧ (acc.write = false → ∃ t, exec (.hostMemoryAccess acc) s = .next t ∧ t.mem = s.mem
            ∧ t.dev.hostData = (List.range acc.len).map (fun i => s.mem.byte (k + i)) ++ [if s.mem.poisonedIn k acc.len then 1 else 0]))
  ∧ (∀ s acc, isReady s = true → inSpace .dev acc.pa acc.len = true → acc.port < 18 → (s.link acc.port).down = false →
      (s.link acc.port).retrain = none → SpecifiedFor s acc.pa acc.len →
      let old := (List.range acc.len).map fun i => s.mem.byte (acc.pa + i)
      (acc.op = .write → acc.data.length = acc.len → NoneStuck s → ∃ t, exec (.peerMemoryAccess acc) s = .next t ∧ t.dev = s.dev
        ∧ ∀ a, t.mem.byte a = if acc.pa ≤ a ∧ a < acc.pa + acc.len then (acc.data[a - acc.pa]?).getD 0 else s.mem.byte a)
      ∧ (acc.op = .read → ∃ t, exec (.peerMemoryAccess acc) s = .next t ∧ t.mem = s.mem
            ∧ t.dev.hostData = old ++ [if s.mem.poisonedIn acc.pa acc.len then 1 else 0])
      ∧ ∀ x, peerStep acc.op acc.data (leNat old) = some (acc.len, x) → acc.pa % acc.len = 0 → NoneStuck s →
          ∃ t, exec (.peerMemoryAccess acc) s = .next t ∧ t.dev.hostData.take acc.len = old
            ∧ t.mem.num acc.pa acc.len = x % 2 ^ (8 * acc.len)
            ∧ ∀ a, (a < acc.pa ∨ acc.pa + acc.len ≤ a) → t.mem.byte a = s.mem.byte a)
  ∧ (∀ (s : State) (val : BitVec 64), exec (.registerWrite 0x2000 val) s
      = .next { s with dev := { s.dev with dbgCtx := BitVec.ofNat 64 (val.toNat % 64) } })
  ∧ (∀ (s : State) (val : BitVec 64) (i : Nat) (c : Ctx), i < 8 → s.ctx (s.dev.dbgCtx.toNat % 64) = some c →
      (∃ t, exec (.registerWrite (0x2010 + 8 * i) val) s = .next t ∧ t.mem = s.mem ∧ t.ctx (s.dev.dbgCtx.toNat % 64)
        = some { c with bp := aput i (BitVec.ofNat 64 (val.toNat / 8 % 2 ^ 53 * 8 + val.toNat % 2)) c.bp })
      ∧ ∃ t, exec (.registerWrite (0x2050 + 8 * i) val) s = .next t ∧ t.mem = s.mem ∧ t.ctx (s.dev.dbgCtx.toNat % 64)
        = some { c with wp := aput i (BitVec.ofNat 64 (val.toNat % (if i % 2 = 0 then 2 ^ 56 else 2 ^ 8))) c.wp })
  ∧ (∀ s ctx desc, isReady s = true → ctx < 64 → queuesFit s ctx desc.words = true → s.ctx ctx = none → keyFree s desc.key = true →
      ∃ t c, exec (.contextCreation ctx desc) s = .next t ∧ t.ctx ctx = some c ∧ c.key = desc.key ∧ c.resident = false
        ∧ c.eff = c.cfg ∧ alook desc.key t.dev.keys = some ctx ∧ t.mem = s.mem ∧ ∀ x, x ≠ ctx → t.ctx x = s.ctx x)
  ∧ ∀ s ctx c, s.ctx ctx = some c → ∃ t, exec (.contextDestruction ctx) s = .next t ∧ t.ctx ctx = none
      ∧ alook c.key t.dev.keys = none ∧ c.key ∈ t.dev.withheld ∧ (∀ e ∈ t.blocks, e.2.ctx ≠ ctx)
      ∧ (∀ e ∈ t.grids, e.1 / 2 ^ 24 ≠ ctx) ∧ ∀ e ∈ t.dev.wt, e.2.ctx ≠ ctx

/-- R33, R42, R44, R46, R50, R52, R54: words written out bit by bit from the encoding tables, and what the decoder reads of
each; one of them is of an OP of no instruction, one sets a field its row leaves unused. -/
def Obligations.DecodedWords : Prop :=
  let al := fun (t : Ty) (d a b c : Opd) => (⟨⟨7, false⟩, t, false, false, false, d, a, b, c⟩ : Opnds)
  decodeWord 0x21840101F0F1A000 = .ok (.ffma ⟨⟨7, false⟩, .f32, false, true, false, .v 8, .v 2, .v 3, .k⟩ .rn)
    ∧ decodeWord 0x1400807080708005 = .ok (.isetp (al .s32 (.p 1) (.v 0) .k .none) .ge .none)
    ∧ decodeWord 0x0180000001F00000 = .ok (.call (al .b32 .none .none .none .none) 3)
    ∧ decodeWord 0x160000000B900000 = .ok (.movi ⟨⟨1, false⟩, .b32, false, false, false, .v 0, .none, .none, .none⟩ 0x17)
    ∧ decodeWord 0x02806F0000700000 = .ok (.ret (al .b32 .none (.s 94) .none .none))
    ∧ decodeWord 0x3402827870700002 = .ok (.xlane (al .b32 (.v 5) (.v 4) .p1 .zero) .xor)
    ∧ decodeWord 0x1887F80700700000 = .ok (.shl (al .b32 (.v 15) .p1 (.v 14) .none) false)
    ∧ decodeWord 0x0D44000000700001 = .ok (.sread (al .b32 (.s 8) .none .none .none) .warpid)
    ∧ decodeWord 0x1E00030000700001 = .ok (.v2p (al .b32 .none (.v 6) .none .none) 1)
    ∧ decodeWord 0x38020141F0F00074 = .ok (.ld (al .b32 (.v 4) (.v 2) (.s 3) .k) .b32 .acq .dev .dflt false false)
    ∧ decodeWord 0x3A4670007070000D = .ok (.ldc (al .b32 (.s 12) .zero .none .zero) .b64 1)
    ∧ decodeWord 0x4000444A00700043 = .ok (.cpg (al .b32 .none (.s 8) (.s 20) .none) 3 true)
    ∧ decodeWord 0x494A00704670001F = .ok (.mma (al .b32 (.s 20) (.v 0) .zero (.s 12)) 31 0 0)
    ∧ decodeWord 0x4B04700070700007 = .ok (.mdrain (al .b32 (.v 8) .zero .none .zero) true true true 0 0)
    ∧ decodeWord 0x50020103007102F0 = .ok (.atom (al .n32 (.v 4) (.v 2) (.v 6) .none) .add .acqrel .dev true)
    ∧ decodeWord 0x5CCF450000700001 = .ok (.lkacq (al .b32 (.s 30) (.s 10) .none .none) true)
    ∧ decodeWord 0x62704B4D00700000 = .ok (.shape (al .b32 .zero (.s 22) (.s 26) .none))
    ∧ decodeWord 0x6880000000700000 = .ok (.rfe (al .b32 .none .none .none .none))
    ∧ decodeWord 0x6B00708000000000 = .ok (.park ⟨⟨0, false⟩, .b32, false, false, false, .none, .k, .none, .none⟩)
    ∧ decodeWord 0x81020438110C0EF8
      = .ok (.pairWord ⟨.add, 1, .v 2, .s32, ⟨7, false⟩⟩ ⟨.fmul, 6, .v 7, .f32, ⟨7, false⟩⟩)
    ∧ decodeWord 0x0780000000700000 = .error .illegalOpcode
    ∧ decodeWord 0x6880000000700001 = .error .illegalEncoding
    ∧ decodeHeader 0x3F80000003F30052 = .ok ⟨0x3F800000, true, true, 15, 3, 5, 2⟩
    ∧ decodeHeader 0x0000000000FF0000 = .error .illegalClause
    ∧ decodeHeader 0x0000000004FF0001 = .error .illegalEncoding

/-- R32, R41 to R46, R49 to R52, R54: every well-formed word has one dword; the decoder reads it back, with every operand and
modifier, from the dword, from its bytes at the head of any others, and from the table's numbering; and every dword the
decoder takes is the dword of the well-formed word it reads. A header that passes the checks of R33 reads back too. -/
def Obligations.EncodingsAgree : Prop :=
  (∀ i : Instr, i.wf = true → i.isWord = true → ∃ w : DWord, encode i = some w ∧ decodeWord w = .ok i
      ∧ decodeTableWord 64 w.toNat = some i ∧ ∀ rest, decode (encodeBytes i ++ rest) = .ok (i, rest))
    ∧ (∀ (w : DWord) (i : Instr), decodeWord w = .ok i → i.wf = true ∧ i.isWord = true ∧ encode i = some w)
    ∧ ∀ h : Header, h.len ≠ 0 → (h.flagA.val < 12 ∨ h.flagA = 15) → (h.flagB.val < 12 ∨ h.flagB = 15) →
        decodeHeader h.encode = .ok h

/-- A warp whose turn can be taken: it is in the slot, nothing is to be delivered at its boundary, no stop and no merge is due, and
nothing holds it or its core. -/
structure Sys2Proof.TakesTurn (s : State) (core slot wid : Nat) (w : Warp) : Prop where
  at_ : s.warpAt core slot = some wid
  warp : s.warp wid = some w
  clean : deliver s wid w = none
  still : stopDue s core wid w = none
  can : cannotIssue w = false
  up : coreHeld s core = false
  front : w.sched.frontDue = false

/-- R33, R34, R41, R54, R138: what a step does. The turn at the head of the agenda is taken: a warp between words, with no
breakpoint there, executes the instruction that its clause's dword decodes to, once it has a port; a warp at a header
dispatches its clause, whose header and words are the dwords in memory from the path's PC on; an event is executed; in every
case the turn's cycles pass and no warp stays current. A module that is powered off takes no step but a boot. The state that
a word's effect starts from (`issuing`) differs from the one it was reached in by the issuing warp's scheduling, by the notes of
what its registers come from and of its cells, and by its core alone; and, before a word that needs the warp's stores to have
left, by those stores (R326, R327). The agenda is the model's own (notes/assumptions/1). -/
def Obligations.StepRunsTheDecodedWord : Prop :=
  (∀ (s : State) (ts : List Turn),
    (∀ core slot wid w cl d i s1, s.agenda = .word core slot :: ts → s.dev.powered = true → TakesTurn s core slot wid w →
      w.run.widx ≠ 0 → w.clause = some cl → (breakAt s (s.ctxNo wid) w.run.pc = false ∨ w.bpSkip = some w.run.pc) →
      cl.words[w.run.widx - 1]? = some d → decodeWord d = .ok i → bindPort { s with agenda := ts } core wid w = some s1 →
      let s2 := { s1 with cur := some wid }
      (∀ t, exec i s2 = .next t → step s = .next (tick (.word core slot) { t with cur := none }))
        ∧ (∀ f, exec i s2 = .fault f → step s = .fault f) ∧ ∀ r, exec i s2 = .refused r → step s = .refused r)
    ∧ (∀ core slot wid w t, s.agenda = .word core slot :: ts → s.dev.powered = true → TakesTurn s core slot wid w →
        w.run.widx = 0 → exec (.clauseDispatch core slot) { s with agenda := ts } = .next t →
        step s = .next (tick (.word core slot) t))
    ∧ (∀ wid w cl, fetchClause s wid w w.run.pc.toNat = .ok cl →
        cl.hdr.len ≠ 0 ∧ cl.words.length = cl.hdr.len.val ∧ cl.addr = w.run.pc
          ∧ ∀ k g, k ≤ cl.words.length → s.fetchAt (s.ctxNo wid) (w.run.pc.toNat + 8 * k) s.free = .ok g →
            (∀ x ∈ sectors g.key 8, s.mem.unknown (s.keyId (s.ctxNo wid)) x = false) →
            let d := BitVec.ofNat 64 (s.mem.num g.key 8)
            if k = 0 then decodeHeader d = .ok cl.hdr else cl.words[k - 1]? = some d)
    ∧ (∀ i t, s.agenda = .event i :: ts → s.dev.powered = true → exec i { s with agenda := ts } = .next t →
        step s = .next (tick (.event i) { t with cur := none }))
    ∧ (∀ n, s.agenda = .time n :: ts → s.dev.powered = true → step s = .next (tick (.time n) { s with agenda := ts }))
    ∧ ∀ t, s.agenda = t :: ts → s.dev.powered = false → isBoot t = false → step s = .fault .poweredOff)
  ∧ ∀ (i : Instr) (s s0 : State) (it : Iss), issuing i s = some (it, s0) →
      let s1 := issued i s it.wid it.core it.w
      s.cur = some it.wid ∧ s.warp it.wid = some it.w ∧ it.instr = i ∧ s1.agenda = s.agenda ∧ s1.cur = s.cur
        ∧ s1.free = s.free ∧ s1.dev = s.dev ∧ s1.mem = s.mem ∧ s1.pairs = s.pairs ∧ s1.ctxs = s.ctxs ∧ s1.grids = s.grids
        ∧ s1.blocks = s.blocks ∧ (∀ x, x ≠ it.wid → s1.warp x = s.warp x)
        ∧ (∃ sc dep used, s1.warp it.wid = some { it.w with stall := none, sched := sc, dep := dep, usedAt := used })
        ∧ (∀ c, c ≠ it.core → s1.core c = s.core c) ∧ ((keepsStores i = true ∨ it.act = 0) → s0 = s1) ∧ Drains s1 s0

/-- R244, R408, R484, R485, R394, R426 and R96: what the spec gives at reset: BOOT_STATUS 0, LIMIT_W 4,200, MIG_CLAIM and the
debug registers 0, die 8 time master, the bank modes of BANK_CFG's reset value, the context words' reset values; and no
context, grid, block or warp. Memory lists nothing (its canonical form). That a step from this state runs is stated by the
statements on steps; the values no rule gives are the model's choices (notes/assumptions/9). -/
def Obligations.ResetState : Prop :=
  WellKept State.reset ∧ (∀ k, State.reset.mem.byte k = memDefault)
    ∧ State.reset.dev.bootStatus = 0 ∧ State.reset.dev.powerLimit = 4200 ∧ State.reset.dev.migClaim = 0
    ∧ State.reset.dev.dbgCtx = 0 ∧ State.reset.dev.dbgCmd = 0 ∧ State.reset.dev.master = 8
    ∧ (∀ c, (State.reset.core c).modes = List.replicate 30 .cache ++ List.replicate 32 .scratch ++ List.replicate 2 .fifo)
    ∧ (∀ c, State.reset.ctx c = none) ∧ (∀ c g, State.reset.grid c g = none) ∧ (∀ b, State.reset.block b = none)
    ∧ (∀ w, State.reset.warp w = none)
    ∧ CtxCfg.reset.placeCfg = 0x00FF0A00 ∧ CtxCfg.reset.issueCfg = 0x000D0001 ∧ CtxCfg.reset.bankCfg = 0x0220
    ∧ CtxCfg.reset.provCfg = 64 ∧ CtxCfg.reset.traceCfg = 0x000A1408

/-- Memory keeps its canonical form in every step: keys strictly rising, no entry equal to what an unlisted address reads
as. The form is the model's own (notes/assumptions/2). -/
def Obligations.MemoryStaysCanonical : Prop :=
  ∀ s t : State, WellKept s → step s = .next t → WellKept t

/-- R408: the time of a die never decreases, whatever word or event a step runs, corrections included; and but for a sample of a
core, which takes no time, each step's PTP time is greater than the one before. -/
def Obligations.TimeNeverDecreases : Prop :=
  ∀ s t : State, step s = .next t →
    s.dev.now ≤ t.dev.now ∧ (s.dev.now : Int) + s.dev.ptpOff ≤ (t.dev.now : Int) + t.dev.ptpOff
      ∧ ((∀ core slot, (nextTurn s).1 ≠ .event (.traceSample core slot)) →
        s.dev.now < t.dev.now ∧ (s.dev.now : Int) + s.dev.ptpOff < (t.dev.now : Int) + t.dev.ptpOff)
end

