-- ==== Sys2Proof/Laws/Sparse.lean ====
section
/-! SUPPORT. Laws of sparse maps: reading after a write or a removal, and what keeps keys rising and maps canonical. -/

namespace Sys2Proof.Machine

@[simp] theorem alook_nil {α : Type} (k : Nat) : alook k ([] : Sparse α) = none := rfl

@[simp] theorem alook_aput_self {α : Type} (k : Nat) (x : α) (m : Sparse α) : alook k (aput k x m) = some x := by
  induction m with
  | nil => simp [aput, alook]
  | cons e m ih =>
    obtain ⟨j, y⟩ := e
    simp only [aput]
    split_ifs with h1 h2
    · simp [alook]
    · simp [alook]
    · simp [alook, h1, ih]

theorem alook_aput_ne {α : Type} {k j : Nat} (x : α) (m : Sparse α) (h : j ≠ k) :
    alook j (aput k x m) = alook j m := by
  induction m with
  | nil => simp [aput, alook, h]
  | cons e m ih =>
    obtain ⟨i, y⟩ := e
    simp only [aput]
    split_ifs with h1 h2
    · subst h1
      simp [alook, h]
    · simp [alook, h]
    · simp only [alook, ih]

theorem alook_aput {α : Type} (j k : Nat) (x : α) (m : Sparse α) :
    alook j (aput k x m) = if j = k then some x else alook j m := by
  split_ifs with h
  · rw [h, alook_aput_self]
  · exact alook_aput_ne x m h

/-- Keys of a sorted map's tail lie above its head's. -/
theorem sorted_tail_above {α : Type} {a : Nat} {x : α} {m : Sparse α} (h : Sorted ((a, x) :: m) = true) :
    ∀ e ∈ m, a < e.1 := by
  induction m generalizing a x with
  | nil => simp
  | cons e m ih =>
    obtain ⟨b, y⟩ := e
    simp only [Sorted, Bool.and_eq_true, decide_eq_true_eq] at h
    intro e he
    rcases List.mem_cons.mp he with rfl | he
    · exact h.1
    · exact lt_trans h.1 (ih h.2 e he)

theorem sorted_of_tail_above {α : Type} {a : Nat} {x : α} {m : Sparse α} (hm : Sorted m = true)
    (h : ∀ e ∈ m, a < e.1) : Sorted ((a, x) :: m) = true := by
  cases m with
  | nil => rfl
  | cons e m =>
    obtain ⟨b, y⟩ := e
    simp only [Sorted, Bool.and_eq_true, decide_eq_true_eq]
    exact ⟨h (b, y) (by simp), hm⟩

theorem sorted_tail {α : Type} {e : Nat × α} {m : Sparse α} (h : Sorted (e :: m) = true) : Sorted m = true := by
  cases m with
  | nil => rfl
  | cons d m =>
    obtain ⟨a, x⟩ := e
    obtain ⟨b, y⟩ := d
    simp only [Sorted, Bool.and_eq_true] at h
    exact h.2

theorem mem_aput {α : Type} {k : Nat} {x : α} {m : Sparse α} {e : Nat × α} (h : e ∈ aput k x m) :
    e = (k, x) ∨ e ∈ m := by
  induction m with
  | nil => simpa [aput] using h
  | cons d m ih =>
    obtain ⟨j, y⟩ := d
    simp only [aput] at h
    split_ifs at h with h1 h2
    · rcases List.mem_cons.mp h with h | h
      · exact .inl h
      · exact .inr (List.mem_cons_of_mem _ h)
    · rcases List.mem_cons.mp h with h | h
      · exact .inl h
      · exact .inr h
    · rcases List.mem_cons.mp h with h | h
      · exact .inr (h ▸ List.mem_cons_self)
      · rcases ih h with h | h
        · exact .inl h
        · exact .inr (List.mem_cons_of_mem _ h)

theorem mem_adel {α : Type} {k : Nat} {m : Sparse α} {e : Nat × α} (h : e ∈ adel k m) : e ∈ m :=
  (List.mem_filter.mp h).1

theorem sorted_aput {α : Type} (k : Nat) (x : α) {m : Sparse α} (h : Sorted m = true) : Sorted (aput k x m) = true := by
  induction m with
  | nil => rfl
  | cons d m ih =>
    obtain ⟨j, y⟩ := d
    have above := sorted_tail_above h
    have tail := sorted_tail h
    simp only [aput]
    split_ifs with h1 h2
    · exact sorted_of_tail_above tail (fun e he => h1 ▸ above e he)
    · refine sorted_of_tail_above h fun e he => ?_
      rcases List.mem_cons.mp he with rfl | he
      · exact h2
      · exact lt_trans h2 (above e he)
    · refine sorted_of_tail_above (ih tail) fun e he => ?_
      rcases mem_aput he with rfl | he
      · simp only; omega
      · exact above e he

theorem sorted_adel {α : Type} (k : Nat) {m : Sparse α} (h : Sorted m = true) : Sorted (adel k m) = true := by
  induction m with
  | nil => rfl
  | cons d m ih =>
    have above := sorted_tail_above h
    have tail := ih (sorted_tail h)
    by_cases hd : d.1 ≠ k
    · have : adel k (d :: m) = d :: adel k m := by simp [adel, hd]
      rw [this]
      exact sorted_of_tail_above tail fun e he => above e (mem_adel he)
    · have : adel k (d :: m) = adel k m := by simp [adel, hd]
      rw [this]
      exact tail

@[simp] theorem alook_adel_self {α : Type} (k : Nat) (m : Sparse α) : alook k (adel k m) = none := by
  induction m with
  | nil => rfl
  | cons d m ih =>
    by_cases hd : d.1 = k
    · have : adel k (d :: m) = adel k m := by simp [adel, hd]
      rw [this, ih]
    · have : adel k (d :: m) = d :: adel k m := by simp [adel, hd]
      rw [this]
      simp [alook, ih, Ne.symm hd]

theorem alook_adel_ne {α : Type} {j k : Nat} (m : Sparse α) (hj : j ≠ k) : alook j (adel k m) = alook j m := by
  induction m with
  | nil => rfl
  | cons d m ih =>
    by_cases hd : d.1 = k
    · have : adel k (d :: m) = adel k m := by simp [adel, hd]
      rw [this, ih]
      simp [alook, hd, hj]
    · have : adel k (d :: m) = d :: adel k m := by simp [adel, hd]
      rw [this]
      simp [alook, ih]

/-- Reading after a canonical write. -/
theorem sget_sput {α : Type} [DecidableEq α] (d : α) (m : Sparse α) (j k : Nat) (x : α) :
    sget d (sput d m k x) j = if j = k then x else sget d m j := by
  unfold sget sput
  split_ifs with h1 h2 h2
  · subst h1 h2
    simp
  · rw [alook_adel_ne m h2]
  · subst h2
    simp
  · rw [alook_aput_ne _ _ h2]

theorem canon_sorted {α : Type} [DecidableEq α] {d : α} {m : Sparse α} (h : Canon d m = true) : Sorted m = true := by
  simp only [Canon, Bool.and_eq_true] at h
  exact h.1

/-- A canonical write keeps the canonical form. -/
theorem canon_sput {α : Type} [DecidableEq α] {d : α} {m : Sparse α} (h : Canon d m = true) (k : Nat) (x : α) :
    Canon d (sput d m k x) = true := by
  simp only [Canon, Bool.and_eq_true, List.all_eq_true, decide_eq_true_eq] at h ⊢
  unfold sput
  split_ifs with h1
  · exact ⟨sorted_adel k h.1, fun e he => h.2 e (mem_adel he)⟩
  · refine ⟨sorted_aput k x h.1, fun e he => ?_⟩
    rcases mem_aput he with rfl | he
    · exact h1
    · exact h.2 e he

end Sys2Proof.Machine
end

