-- ==== Sys2Proof/Laws/State.lean ====
section
/-! SUPPORT. Field lemmas: what each update of the state leaves of each field, and reading after writing one piece. -/

namespace Sys2Proof.Machine

@[simp] theorem State.setWarp_agenda (s : State) (n : Nat) (w : Warp) : (s.setWarp n w).agenda = s.agenda := rfl
@[simp] theorem State.setWarp_cur (s : State) (n : Nat) (w : Warp) : (s.setWarp n w).cur = s.cur := rfl
@[simp] theorem State.setWarp_free (s : State) (n : Nat) (w : Warp) : (s.setWarp n w).free = s.free := rfl
@[simp] theorem State.setWarp_dev (s : State) (n : Nat) (w : Warp) : (s.setWarp n w).dev = s.dev := rfl
@[simp] theorem State.setWarp_mem (s : State) (n : Nat) (w : Warp) : (s.setWarp n w).mem = s.mem := rfl
@[simp] theorem State.setWarp_cores (s : State) (n : Nat) (w : Warp) : (s.setWarp n w).cores = s.cores := rfl
@[simp] theorem State.setWarp_pairs (s : State) (n : Nat) (w : Warp) : (s.setWarp n w).pairs = s.pairs := rfl
@[simp] theorem State.setWarp_ctxs (s : State) (n : Nat) (w : Warp) : (s.setWarp n w).ctxs = s.ctxs := rfl
@[simp] theorem State.setWarp_grids (s : State) (n : Nat) (w : Warp) : (s.setWarp n w).grids = s.grids := rfl
@[simp] theorem State.setWarp_blocks (s : State) (n : Nat) (w : Warp) : (s.setWarp n w).blocks = s.blocks := rfl
@[simp] theorem State.setWarp_blkNext (s : State) (n : Nat) (w : Warp) : (s.setWarp n w).blkNext = s.blkNext := rfl
@[simp] theorem State.setWarp_cmdNext (s : State) (n : Nat) (w : Warp) : (s.setWarp n w).cmdNext = s.cmdNext := rfl
@[simp] theorem State.setBlock_agenda (s : State) (n : Nat) (b : Block) : (s.setBlock n b).agenda = s.agenda := rfl
@[simp] theorem State.setBlock_cur (s : State) (n : Nat) (b : Block) : (s.setBlock n b).cur = s.cur := rfl
@[simp] theorem State.setBlock_free (s : State) (n : Nat) (b : Block) : (s.setBlock n b).free = s.free := rfl
@[simp] theorem State.setBlock_dev (s : State) (n : Nat) (b : Block) : (s.setBlock n b).dev = s.dev := rfl
@[simp] theorem State.setBlock_mem (s : State) (n : Nat) (b : Block) : (s.setBlock n b).mem = s.mem := rfl
@[simp] theorem State.setBlock_cores (s : State) (n : Nat) (b : Block) : (s.setBlock n b).cores = s.cores := rfl
@[simp] theorem State.setBlock_pairs (s : State) (n : Nat) (b : Block) : (s.setBlock n b).pairs = s.pairs := rfl
@[simp] theorem State.setBlock_ctxs (s : State) (n : Nat) (b : Block) : (s.setBlock n b).ctxs = s.ctxs := rfl
@[simp] theorem State.setBlock_grids (s : State) (n : Nat) (b : Block) : (s.setBlock n b).grids = s.grids := rfl
@[simp] theorem State.setBlock_warps (s : State) (n : Nat) (b : Block) : (s.setBlock n b).warps = s.warps := rfl
@[simp] theorem State.setBlock_blkNext (s : State) (n : Nat) (b : Block) : (s.setBlock n b).blkNext = s.blkNext := rfl
@[simp] theorem State.setBlock_cmdNext (s : State) (n : Nat) (b : Block) : (s.setBlock n b).cmdNext = s.cmdNext := rfl
@[simp] theorem State.modGrid_agenda (s : State) (c n : Nat) (f : Grid → Grid) : (s.modGrid c n f).agenda = s.agenda := rfl
@[simp] theorem State.modGrid_cur (s : State) (c n : Nat) (f : Grid → Grid) : (s.modGrid c n f).cur = s.cur := rfl
@[simp] theorem State.modGrid_free (s : State) (c n : Nat) (f : Grid → Grid) : (s.modGrid c n f).free = s.free := rfl
@[simp] theorem State.modGrid_dev (s : State) (c n : Nat) (f : Grid → Grid) : (s.modGrid c n f).dev = s.dev := rfl
@[simp] theorem State.modGrid_mem (s : State) (c n : Nat) (f : Grid → Grid) : (s.modGrid c n f).mem = s.mem := rfl
@[simp] theorem State.modGrid_cores (s : State) (c n : Nat) (f : Grid → Grid) : (s.modGrid c n f).cores = s.cores := rfl
@[simp] theorem State.modGrid_pairs (s : State) (c n : Nat) (f : Grid → Grid) : (s.modGrid c n f).pairs = s.pairs := rfl
@[simp] theorem State.modGrid_ctxs (s : State) (c n : Nat) (f : Grid → Grid) : (s.modGrid c n f).ctxs = s.ctxs := rfl
@[simp] theorem State.modGrid_blocks (s : State) (c n : Nat) (f : Grid → Grid) : (s.modGrid c n f).blocks = s.blocks := rfl
@[simp] theorem State.modGrid_warps (s : State) (c n : Nat) (f : Grid → Grid) : (s.modGrid c n f).warps = s.warps := rfl
@[simp] theorem State.modGrid_blkNext (s : State) (c n : Nat) (f : Grid → Grid) : (s.modGrid c n f).blkNext = s.blkNext := rfl
@[simp] theorem State.modGrid_cmdNext (s : State) (c n : Nat) (f : Grid → Grid) : (s.modGrid c n f).cmdNext = s.cmdNext := rfl
@[simp] theorem State.modCtx_agenda (s : State) (n : Nat) (f : Ctx → Ctx) : (s.modCtx n f).agenda = s.agenda := rfl
@[simp] theorem State.modCtx_cur (s : State) (n : Nat) (f : Ctx → Ctx) : (s.modCtx n f).cur = s.cur := rfl
@[simp] theorem State.modCtx_free (s : State) (n : Nat) (f : Ctx → Ctx) : (s.modCtx n f).free = s.free := rfl
@[simp] theorem State.modCtx_dev (s : State) (n : Nat) (f : Ctx → Ctx) : (s.modCtx n f).dev = s.dev := rfl
@[simp] theorem State.modCtx_mem (s : State) (n : Nat) (f : Ctx → Ctx) : (s.modCtx n f).mem = s.mem := rfl
@[simp] theorem State.modCtx_cores (s : State) (n : Nat) (f : Ctx → Ctx) : (s.modCtx n f).cores = s.cores := rfl
@[simp] theorem State.modCtx_pairs (s : State) (n : Nat) (f : Ctx → Ctx) : (s.modCtx n f).pairs = s.pairs := rfl
@[simp] theorem State.modCtx_grids (s : State) (n : Nat) (f : Ctx → Ctx) : (s.modCtx n f).grids = s.grids := rfl
@[simp] theorem State.modCtx_blocks (s : State) (n : Nat) (f : Ctx → Ctx) : (s.modCtx n f).blocks = s.blocks := rfl
@[simp] theorem State.modCtx_warps (s : State) (n : Nat) (f : Ctx → Ctx) : (s.modCtx n f).warps = s.warps := rfl
@[simp] theorem State.modCtx_blkNext (s : State) (n : Nat) (f : Ctx → Ctx) : (s.modCtx n f).blkNext = s.blkNext := rfl
@[simp] theorem State.modCtx_cmdNext (s : State) (n : Nat) (f : Ctx → Ctx) : (s.modCtx n f).cmdNext = s.cmdNext := rfl
@[simp] theorem State.modCore_agenda (s : State) (n : Nat) (f : Core → Core) : (s.modCore n f).agenda = s.agenda := rfl
@[simp] theorem State.modCore_cur (s : State) (n : Nat) (f : Core → Core) : (s.modCore n f).cur = s.cur := rfl
@[simp] theorem State.modCore_free (s : State) (n : Nat) (f : Core → Core) : (s.modCore n f).free = s.free := rfl
@[simp] theorem State.modCore_dev (s : State) (n : Nat) (f : Core → Core) : (s.modCore n f).dev = s.dev := rfl
@[simp] theorem State.modCore_mem (s : State) (n : Nat) (f : Core → Core) : (s.modCore n f).mem = s.mem := rfl
@[simp] theorem State.modCore_pairs (s : State) (n : Nat) (f : Core → Core) : (s.modCore n f).pairs = s.pairs := rfl
@[simp] theorem State.modCore_ctxs (s : State) (n : Nat) (f : Core → Core) : (s.modCore n f).ctxs = s.ctxs := rfl
@[simp] theorem State.modCore_grids (s : State) (n : Nat) (f : Core → Core) : (s.modCore n f).grids = s.grids := rfl
@[simp] theorem State.modCore_blocks (s : State) (n : Nat) (f : Core → Core) : (s.modCore n f).blocks = s.blocks := rfl
@[simp] theorem State.modCore_warps (s : State) (n : Nat) (f : Core → Core) : (s.modCore n f).warps = s.warps := rfl
@[simp] theorem State.modCore_blkNext (s : State) (n : Nat) (f : Core → Core) : (s.modCore n f).blkNext = s.blkNext := rfl
@[simp] theorem State.modCore_cmdNext (s : State) (n : Nat) (f : Core → Core) : (s.modCore n f).cmdNext = s.cmdNext := rfl
@[simp] theorem State.modPair_agenda (s : State) (n : Nat) (f : Pair → Pair) : (s.modPair n f).agenda = s.agenda := rfl
@[simp] theorem State.modPair_cur (s : State) (n : Nat) (f : Pair → Pair) : (s.modPair n f).cur = s.cur := rfl
@[simp] theorem State.modPair_free (s : State) (n : Nat) (f : Pair → Pair) : (s.modPair n f).free = s.free := rfl
@[simp] theorem State.modPair_dev (s : State) (n : Nat) (f : Pair → Pair) : (s.modPair n f).dev = s.dev := rfl
@[simp] theorem State.modPair_mem (s : State) (n : Nat) (f : Pair → Pair) : (s.modPair n f).mem = s.mem := rfl
@[simp] theorem State.modPair_cores (s : State) (n : Nat) (f : Pair → Pair) : (s.modPair n f).cores = s.cores := rfl
@[simp] theorem State.modPair_ctxs (s : State) (n : Nat) (f : Pair → Pair) : (s.modPair n f).ctxs = s.ctxs := rfl
@[simp] theorem State.modPair_grids (s : State) (n : Nat) (f : Pair → Pair) : (s.modPair n f).grids = s.grids := rfl
@[simp] theorem State.modPair_blocks (s : State) (n : Nat) (f : Pair → Pair) : (s.modPair n f).blocks = s.blocks := rfl
@[simp] theorem State.modPair_warps (s : State) (n : Nat) (f : Pair → Pair) : (s.modPair n f).warps = s.warps := rfl
@[simp] theorem State.modPair_blkNext (s : State) (n : Nat) (f : Pair → Pair) : (s.modPair n f).blkNext = s.blkNext := rfl
@[simp] theorem State.modPair_cmdNext (s : State) (n : Nat) (f : Pair → Pair) : (s.modPair n f).cmdNext = s.cmdNext := rfl
@[simp] theorem State.modLink_agenda (s : State) (n : Nat) (f : Link → Link) : (s.modLink n f).agenda = s.agenda := rfl
@[simp] theorem State.modLink_cur (s : State) (n : Nat) (f : Link → Link) : (s.modLink n f).cur = s.cur := rfl
@[simp] theorem State.modLink_free (s : State) (n : Nat) (f : Link → Link) : (s.modLink n f).free = s.free := rfl
@[simp] theorem State.modLink_mem (s : State) (n : Nat) (f : Link → Link) : (s.modLink n f).mem = s.mem := rfl
@[simp] theorem State.modLink_cores (s : State) (n : Nat) (f : Link → Link) : (s.modLink n f).cores = s.cores := rfl
@[simp] theorem State.modLink_pairs (s : State) (n : Nat) (f : Link → Link) : (s.modLink n f).pairs = s.pairs := rfl
@[simp] theorem State.modLink_ctxs (s : State) (n : Nat) (f : Link → Link) : (s.modLink n f).ctxs = s.ctxs := rfl
@[simp] theorem State.modLink_grids (s : State) (n : Nat) (f : Link → Link) : (s.modLink n f).grids = s.grids := rfl
@[simp] theorem State.modLink_blocks (s : State) (n : Nat) (f : Link → Link) : (s.modLink n f).blocks = s.blocks := rfl
@[simp] theorem State.modLink_warps (s : State) (n : Nat) (f : Link → Link) : (s.modLink n f).warps = s.warps := rfl
@[simp] theorem State.modLink_blkNext (s : State) (n : Nat) (f : Link → Link) : (s.modLink n f).blkNext = s.blkNext := rfl
@[simp] theorem State.modLink_cmdNext (s : State) (n : Nat) (f : Link → Link) : (s.modLink n f).cmdNext = s.cmdNext := rfl
@[simp] theorem State.modDev_agenda (s : State) (f : Device → Device) : (s.modDev f).agenda = s.agenda := rfl
@[simp] theorem State.modDev_cur (s : State) (f : Device → Device) : (s.modDev f).cur = s.cur := rfl
@[simp] theorem State.modDev_free (s : State) (f : Device → Device) : (s.modDev f).free = s.free := rfl
@[simp] theorem State.modDev_mem (s : State) (f : Device → Device) : (s.modDev f).mem = s.mem := rfl
@[simp] theorem State.modDev_cores (s : State) (f : Device → Device) : (s.modDev f).cores = s.cores := rfl
@[simp] theorem State.modDev_pairs (s : State) (f : Device → Device) : (s.modDev f).pairs = s.pairs := rfl
@[simp] theorem State.modDev_ctxs (s : State) (f : Device → Device) : (s.modDev f).ctxs = s.ctxs := rfl
@[simp] theorem State.modDev_grids (s : State) (f : Device → Device) : (s.modDev f).grids = s.grids := rfl
@[simp] theorem State.modDev_blocks (s : State) (f : Device → Device) : (s.modDev f).blocks = s.blocks := rfl
@[simp] theorem State.modDev_warps (s : State) (f : Device → Device) : (s.modDev f).warps = s.warps := rfl
@[simp] theorem State.modDev_blkNext (s : State) (f : Device → Device) : (s.modDev f).blkNext = s.blkNext := rfl
@[simp] theorem State.modDev_cmdNext (s : State) (f : Device → Device) : (s.modDev f).cmdNext = s.cmdNext := rfl
@[simp] theorem State.modMem_agenda (s : State) (f : Mem → Mem) : (s.modMem f).agenda = s.agenda := rfl
@[simp] theorem State.modMem_cur (s : State) (f : Mem → Mem) : (s.modMem f).cur = s.cur := rfl
@[simp] theorem State.modMem_free (s : State) (f : Mem → Mem) : (s.modMem f).free = s.free := rfl
@[simp] theorem State.modMem_dev (s : State) (f : Mem → Mem) : (s.modMem f).dev = s.dev := rfl
@[simp] theorem State.modMem_cores (s : State) (f : Mem → Mem) : (s.modMem f).cores = s.cores := rfl
@[simp] theorem State.modMem_pairs (s : State) (f : Mem → Mem) : (s.modMem f).pairs = s.pairs := rfl
@[simp] theorem State.modMem_ctxs (s : State) (f : Mem → Mem) : (s.modMem f).ctxs = s.ctxs := rfl
@[simp] theorem State.modMem_grids (s : State) (f : Mem → Mem) : (s.modMem f).grids = s.grids := rfl
@[simp] theorem State.modMem_blocks (s : State) (f : Mem → Mem) : (s.modMem f).blocks = s.blocks := rfl
@[simp] theorem State.modMem_warps (s : State) (f : Mem → Mem) : (s.modMem f).warps = s.warps := rfl
@[simp] theorem State.modMem_blkNext (s : State) (f : Mem → Mem) : (s.modMem f).blkNext = s.blkNext := rfl
@[simp] theorem State.modMem_cmdNext (s : State) (f : Mem → Mem) : (s.modMem f).cmdNext = s.cmdNext := rfl
@[simp] theorem State.takeFree_agenda (s : State) : (s.takeFree).agenda = s.agenda := rfl
@[simp] theorem State.takeFree_cur (s : State) : (s.takeFree).cur = s.cur := rfl
@[simp] theorem State.takeFree_dev (s : State) : (s.takeFree).dev = s.dev := rfl
@[simp] theorem State.takeFree_mem (s : State) : (s.takeFree).mem = s.mem := rfl
@[simp] theorem State.takeFree_cores (s : State) : (s.takeFree).cores = s.cores := rfl
@[simp] theorem State.takeFree_pairs (s : State) : (s.takeFree).pairs = s.pairs := rfl
@[simp] theorem State.takeFree_ctxs (s : State) : (s.takeFree).ctxs = s.ctxs := rfl
@[simp] theorem State.takeFree_grids (s : State) : (s.takeFree).grids = s.grids := rfl
@[simp] theorem State.takeFree_blocks (s : State) : (s.takeFree).blocks = s.blocks := rfl
@[simp] theorem State.takeFree_warps (s : State) : (s.takeFree).warps = s.warps := rfl
@[simp] theorem State.takeFree_blkNext (s : State) : (s.takeFree).blkNext = s.blkNext := rfl
@[simp] theorem State.takeFree_cmdNext (s : State) : (s.takeFree).cmdNext = s.cmdNext := rfl
@[simp] theorem State.modDev_dev (s : State) (f : Device → Device) : (s.modDev f).dev = f s.dev := rfl
@[simp] theorem State.modMem_mem (s : State) (f : Mem → Mem) : (s.modMem f).mem = f s.mem := rfl
@[simp] theorem State.setWarp_warps (s : State) (n : Nat) (w : Warp) : (s.setWarp n w).warps = aput n w s.warps := rfl
@[simp] theorem State.modWarp_agenda (s : State) (n : Nat) (f : Warp → Warp) : (s.modWarp n f).agenda = s.agenda := by
  unfold State.modWarp
  split <;> rfl
@[simp] theorem State.modWarp_cur (s : State) (n : Nat) (f : Warp → Warp) : (s.modWarp n f).cur = s.cur := by
  unfold State.modWarp
  split <;> rfl
@[simp] theorem State.modWarp_free (s : State) (n : Nat) (f : Warp → Warp) : (s.modWarp n f).free = s.free := by
  unfold State.modWarp
  split <;> rfl
@[simp] theorem State.modWarp_dev (s : State) (n : Nat) (f : Warp → Warp) : (s.modWarp n f).dev = s.dev := by
  unfold State.modWarp
  split <;> rfl
@[simp] theorem State.modWarp_mem (s : State) (n : Nat) (f : Warp → Warp) : (s.modWarp n f).mem = s.mem := by
  unfold State.modWarp
  split <;> rfl
@[simp] theorem State.modWarp_cores (s : State) (n : Nat) (f : Warp → Warp) : (s.modWarp n f).cores = s.cores := by
  unfold State.modWarp
  split <;> rfl
@[simp] theorem State.modWarp_pairs (s : State) (n : Nat) (f : Warp → Warp) : (s.modWarp n f).pairs = s.pairs := by
  unfold State.modWarp
  split <;> rfl
@[simp] theorem State.modWarp_ctxs (s : State) (n : Nat) (f : Warp → Warp) : (s.modWarp n f).ctxs = s.ctxs := by
  unfold State.modWarp
  split <;> rfl
@[simp] theorem State.modWarp_grids (s : State) (n : Nat) (f : Warp → Warp) : (s.modWarp n f).grids = s.grids := by
  unfold State.modWarp
  split <;> rfl
@[simp] theorem State.modWarp_blocks (s : State) (n : Nat) (f : Warp → Warp) : (s.modWarp n f).blocks = s.blocks := by
  unfold State.modWarp
  split <;> rfl
@[simp] theorem State.modWarp_blkNext (s : State) (n : Nat) (f : Warp → Warp) : (s.modWarp n f).blkNext = s.blkNext := by
  unfold State.modWarp
  split <;> rfl
@[simp] theorem State.modWarp_cmdNext (s : State) (n : Nat) (f : Warp → Warp) : (s.modWarp n f).cmdNext = s.cmdNext := by
  unfold State.modWarp
  split <;> rfl
@[simp] theorem State.modBlock_agenda (s : State) (n : Nat) (f : Block → Block) : (s.modBlock n f).agenda = s.agenda := by
  unfold State.modBlock
  split <;> rfl
@[simp] theorem State.modBlock_cur (s : State) (n : Nat) (f : Block → Block) : (s.modBlock n f).cur = s.cur := by
  unfold State.modBlock
  split <;> rfl
@[simp] theorem State.modBlock_free (s : State) (n : Nat) (f : Block → Block) : (s.modBlock n f).free = s.free := by
  unfold State.modBlock
  split <;> rfl
@[simp] theorem State.modBlock_dev (s : State) (n : Nat) (f : Block → Block) : (s.modBlock n f).dev = s.dev := by
  unfold State.modBlock
  split <;> rfl
@[simp] theorem State.modBlock_mem (s : State) (n : Nat) (f : Block → Block) : (s.modBlock n f).mem = s.mem := by
  unfold State.modBlock
  split <;> rfl
@[simp] theorem State.modBlock_cores (s : State) (n : Nat) (f : Block → Block) : (s.modBlock n f).cores = s.cores := by
  unfold State.modBlock
  split <;> rfl
@[simp] theorem State.modBlock_pairs (s : State) (n : Nat) (f : Block → Block) : (s.modBlock n f).pairs = s.pairs := by
  unfold State.modBlock
  split <;> rfl
@[simp] theorem State.modBlock_ctxs (s : State) (n : Nat) (f : Block → Block) : (s.modBlock n f).ctxs = s.ctxs := by
  unfold State.modBlock
  split <;> rfl
@[simp] theorem State.modBlock_grids (s : State) (n : Nat) (f : Block → Block) : (s.modBlock n f).grids = s.grids := by
  unfold State.modBlock
  split <;> rfl
@[simp] theorem State.modBlock_warps (s : State) (n : Nat) (f : Block → Block) : (s.modBlock n f).warps = s.warps := by
  unfold State.modBlock
  split <;> rfl
@[simp] theorem State.modBlock_blkNext (s : State) (n : Nat) (f : Block → Block) : (s.modBlock n f).blkNext = s.blkNext := by
  unfold State.modBlock
  split <;> rfl
@[simp] theorem State.modBlock_cmdNext (s : State) (n : Nat) (f : Block → Block) : (s.modBlock n f).cmdNext = s.cmdNext := by
  unfold State.modBlock
  split <;> rfl
@[simp] theorem State.modWarpsOf_agenda (s : State) (n : Nat) (f : Warp → Warp) : (s.modWarpsOf n f).agenda = s.agenda := rfl
@[simp] theorem State.modWarpsOf_cur (s : State) (n : Nat) (f : Warp → Warp) : (s.modWarpsOf n f).cur = s.cur := rfl
@[simp] theorem State.modWarpsOf_free (s : State) (n : Nat) (f : Warp → Warp) : (s.modWarpsOf n f).free = s.free := rfl
@[simp] theorem State.modWarpsOf_dev (s : State) (n : Nat) (f : Warp → Warp) : (s.modWarpsOf n f).dev = s.dev := rfl
@[simp] theorem State.modWarpsOf_mem (s : State) (n : Nat) (f : Warp → Warp) : (s.modWarpsOf n f).mem = s.mem := rfl
@[simp] theorem State.modWarpsOf_cores (s : State) (n : Nat) (f : Warp → Warp) : (s.modWarpsOf n f).cores = s.cores := rfl
@[simp] theorem State.modWarpsOf_pairs (s : State) (n : Nat) (f : Warp → Warp) : (s.modWarpsOf n f).pairs = s.pairs := rfl
@[simp] theorem State.modWarpsOf_ctxs (s : State) (n : Nat) (f : Warp → Warp) : (s.modWarpsOf n f).ctxs = s.ctxs := rfl
@[simp] theorem State.modWarpsOf_grids (s : State) (n : Nat) (f : Warp → Warp) : (s.modWarpsOf n f).grids = s.grids := rfl
@[simp] theorem State.modWarpsOf_blocks (s : State) (n : Nat) (f : Warp → Warp) : (s.modWarpsOf n f).blocks = s.blocks := rfl
@[simp] theorem State.modWarpsOf_blkNext (s : State) (n : Nat) (f : Warp → Warp) : (s.modWarpsOf n f).blkNext = s.blkNext := rfl
@[simp] theorem State.modWarpsOf_cmdNext (s : State) (n : Nat) (f : Warp → Warp) : (s.modWarpsOf n f).cmdNext = s.cmdNext := rfl
@[simp] theorem count_agenda (s : State) (c ev : Nat) : (count s c ev).agenda = s.agenda := rfl
@[simp] theorem count_cur (s : State) (c ev : Nat) : (count s c ev).cur = s.cur := rfl
@[simp] theorem count_free (s : State) (c ev : Nat) : (count s c ev).free = s.free := rfl
@[simp] theorem count_dev (s : State) (c ev : Nat) : (count s c ev).dev = s.dev := rfl
@[simp] theorem count_mem (s : State) (c ev : Nat) : (count s c ev).mem = s.mem := rfl
@[simp] theorem count_pairs (s : State) (c ev : Nat) : (count s c ev).pairs = s.pairs := rfl
@[simp] theorem count_ctxs (s : State) (c ev : Nat) : (count s c ev).ctxs = s.ctxs := rfl
@[simp] theorem count_grids (s : State) (c ev : Nat) : (count s c ev).grids = s.grids := rfl
@[simp] theorem count_blocks (s : State) (c ev : Nat) : (count s c ev).blocks = s.blocks := rfl
@[simp] theorem count_warps (s : State) (c ev : Nat) : (count s c ev).warps = s.warps := rfl
@[simp] theorem count_blkNext (s : State) (c ev : Nat) : (count s c ev).blkNext = s.blkNext := rfl
@[simp] theorem count_cmdNext (s : State) (c ev : Nat) : (count s c ev).cmdNext = s.cmdNext := rfl
@[simp] theorem countR_agenda (s : State) (c ev : Nat) : (countR s c ev).agenda = s.agenda := rfl
@[simp] theorem countR_cur (s : State) (c ev : Nat) : (countR s c ev).cur = s.cur := rfl
@[simp] theorem countR_free (s : State) (c ev : Nat) : (countR s c ev).free = s.free := rfl
@[simp] theorem countR_dev (s : State) (c ev : Nat) : (countR s c ev).dev = s.dev := rfl
@[simp] theorem countR_mem (s : State) (c ev : Nat) : (countR s c ev).mem = s.mem := rfl
@[simp] theorem countR_cores (s : State) (c ev : Nat) : (countR s c ev).cores = s.cores := rfl
@[simp] theorem countR_pairs (s : State) (c ev : Nat) : (countR s c ev).pairs = s.pairs := rfl
@[simp] theorem countR_grids (s : State) (c ev : Nat) : (countR s c ev).grids = s.grids := rfl
@[simp] theorem countR_blocks (s : State) (c ev : Nat) : (countR s c ev).blocks = s.blocks := rfl
@[simp] theorem countR_warps (s : State) (c ev : Nat) : (countR s c ev).warps = s.warps := rfl
@[simp] theorem countR_blkNext (s : State) (c ev : Nat) : (countR s c ev).blkNext = s.blkNext := rfl
@[simp] theorem countR_cmdNext (s : State) (c ev : Nat) : (countR s c ev).cmdNext = s.cmdNext := rfl
@[simp] theorem hostEvent_agenda (s : State) (e : HostEvent) : (hostEvent s e).agenda = s.agenda := rfl
@[simp] theorem hostEvent_cur (s : State) (e : HostEvent) : (hostEvent s e).cur = s.cur := rfl
@[simp] theorem hostEvent_free (s : State) (e : HostEvent) : (hostEvent s e).free = s.free := rfl
@[simp] theorem hostEvent_mem (s : State) (e : HostEvent) : (hostEvent s e).mem = s.mem := rfl
@[simp] theorem hostEvent_cores (s : State) (e : HostEvent) : (hostEvent s e).cores = s.cores := rfl
@[simp] theorem hostEvent_pairs (s : State) (e : HostEvent) : (hostEvent s e).pairs = s.pairs := rfl
@[simp] theorem hostEvent_ctxs (s : State) (e : HostEvent) : (hostEvent s e).ctxs = s.ctxs := rfl
@[simp] theorem hostEvent_grids (s : State) (e : HostEvent) : (hostEvent s e).grids = s.grids := rfl
@[simp] theorem hostEvent_blocks (s : State) (e : HostEvent) : (hostEvent s e).blocks = s.blocks := rfl
@[simp] theorem hostEvent_warps (s : State) (e : HostEvent) : (hostEvent s e).warps = s.warps := rfl
@[simp] theorem hostEvent_blkNext (s : State) (e : HostEvent) : (hostEvent s e).blkNext = s.blkNext := rfl
@[simp] theorem hostEvent_cmdNext (s : State) (e : HostEvent) : (hostEvent s e).cmdNext = s.cmdNext := rfl

theorem State.warp_setWarp (s : State) (n m : Nat) (w : Warp) :
    (s.setWarp n w).warp m = if m = n then some w else s.warp m := alook_aput m n w s.warps

@[simp] theorem State.warp_setWarp_self (s : State) (n : Nat) (w : Warp) : (s.setWarp n w).warp n = some w := by
  simp [State.warp_setWarp]

/-- What changing a warp leaves of each warp. -/
theorem State.warp_modWarp (s : State) (n m : Nat) (f : Warp → Warp) :
    (s.modWarp n f).warp m = if m = n then (s.warp n).map f else s.warp m := by
  unfold State.modWarp State.warp
  cases h : alook n s.warps with
  | none =>
    by_cases hm : m = n
    · subst hm
      simp [h]
    · simp [hm]
  | some w =>
    by_cases hm : m = n
    · subst hm
      simp [State.setWarp]
    · simp [State.setWarp, alook_aput, hm]

theorem State.warp_modWarp_ne (s : State) {n m : Nat} (f : Warp → Warp) (h : m ≠ n) :
    (s.modWarp n f).warp m = s.warp m := by
  rw [State.warp_modWarp, if_neg h]

theorem State.warp_of_warps_eq {s t : State} (h : t.warps = s.warps) (n : Nat) : t.warp n = s.warp n := by
  unfold State.warp
  rw [h]

theorem State.block_setBlock (s : State) (n m : Nat) (b : Block) :
    (s.setBlock n b).block m = if m = n then some b else s.block m := alook_aput m n b s.blocks

/-- What changing a block leaves of each block. -/
theorem State.block_modBlock (s : State) (n m : Nat) (f : Block → Block) :
    (s.modBlock n f).block m = if m = n then (s.block n).map f else s.block m := by
  unfold State.modBlock State.block
  cases h : alook n s.blocks with
  | none =>
    by_cases hm : m = n
    · subst hm
      simp [h]
    · simp [hm]
  | some w =>
    by_cases hm : m = n
    · subst hm
      simp [State.setBlock]
    · simp [State.setBlock, alook_aput, hm]

theorem alook_amod {α : Type} (j k : Nat) (f : α → α) (m : Sparse α) :
    alook j (amod k f m) = if j = k then (alook k m).map f else alook j m := by
  unfold amod
  cases h : alook k m with
  | none =>
    by_cases hj : j = k
    · subst hj
      simp [h]
    · simp [hj]
  | some x =>
    by_cases hj : j = k
    · subst hj
      simp
    · simp [alook_aput, hj]

theorem State.ctx_modCtx (s : State) (n m : Nat) (f : Ctx → Ctx) :
    (s.modCtx n f).ctx m = if m = n then (s.ctx n).map f else s.ctx m := alook_amod m n f s.ctxs

theorem State.core_modCore (s : State) (n m : Nat) (f : Core → Core) :
    (s.modCore n f).core m = if m = n then f (s.core n) else s.core m := by
  unfold State.modCore State.core sget
  by_cases hm : m = n
  · subst hm
    simp
  · simp [alook_aput, hm]

theorem State.pair_modPair (s : State) (n m : Nat) (f : Pair → Pair) :
    (s.modPair n f).pair m = if m = n then f (s.pair n) else s.pair m := by
  unfold State.modPair State.pair sget
  by_cases hm : m = n
  · subst hm
    simp
  · simp [alook_aput, hm]

end Sys2Proof.Machine
end

