-- ==== Sys2Proof/Laws/Registers.lean ====
section
/-! SUPPORT. Laws of registers: reading after writing a vector, uniform or predicate register, and what each write leaves. -/

namespace Sys2Proof.Machine

/-- Bit `l` of a mask built from a test. -/
theorem getLsbD_maskOf (f : Nat → Bool) {l : Nat} (hl : l < 32) : (maskOf f).getLsbD l = f l := by
  have key : ∀ n l, l < n → Nat.testBit ((List.range n).foldl (fun a l => if f l then a + 2 ^ l else a) 0) l = f l
      ∧ (List.range n).foldl (fun a l => if f l then a + 2 ^ l else a) 0 < 2 ^ n := by
    intro n
    induction n with
    | zero => intro l h; omega
    | succ n ih =>
      intro l h
      rw [List.range_succ, List.foldl_append]
      simp only [List.foldl_cons, List.foldl_nil]
      set x := (List.range n).foldl (fun a l => if f l then a + 2 ^ l else a) 0 with hx
      have hlt : x < 2 ^ n := by
        rcases Nat.eq_zero_or_pos n with h0 | h0
        · subst h0; simp [hx]
        · exact (ih 0 h0).2
      have hp : 2 ^ (n + 1) = 2 * 2 ^ n := by rw [pow_succ]; ring
      refine ⟨?_, by split_ifs <;> omega⟩
      rcases Nat.lt_or_ge l n with hl | hl
      · have h1 := (ih l hl).1
        split_ifs
        · rw [Nat.add_comm, Nat.testBit_two_pow_add_gt hl, h1]
        · exact h1
      · have : l = n := by omega
        subst this
        split_ifs with hf
        · rw [Nat.add_comm, Nat.testBit_two_pow_add_eq, Nat.testBit_lt_two_pow hlt, hf]; rfl
        · rw [Nat.testBit_lt_two_pow hlt]; simpa using hf
  rw [maskOf, BitVec.getLsbD_ofNat, (key 32 l hl).1]
  simp [hl]

/-- A write changes the lanes of its mask in its register. -/
theorem vget_vput (w : Warp) (r : Nat) (m : Word) (f : Nat → PWord) (x : Nat) {l : Nat} (hl : l < 32) :
    (w.vput r m f).vget x l = if x = r ∧ m.getLsbD l = true then f l else w.vget x l := by
  unfold Warp.vput
  split_ifs with hm h h
  · simp [hm] at h
  · rfl
  · obtain ⟨rfl, hb⟩ := h
    simp [Warp.vget, alook_aput_self, hl, hb]
  · by_cases hx : x = r
    · subst hx
      have hb : ¬m.getLsbD l = true := fun e => h ⟨rfl, e⟩
      simp only [Warp.vget, alook_aput_self, Option.bind_some, List.getElem?_map, List.getElem?_range hl,
        Option.map_some, Option.getD_some, if_neg hb]
    · simp [Warp.vget, alook_aput, hx]

@[simp] theorem vput_s (w : Warp) (r : Nat) (m : Word) (f : Nat → PWord) : (w.vput r m f).s = w.s := by
  unfold Warp.vput; split <;> rfl

@[simp] theorem sput_s_get (w : Warp) (r : Nat) (x : PWord) (y : Nat) :
    (w.sput r x).sget y = if y = r then x else w.sget y := by
  simp [Warp.sput, Warp.sget, sget_sput]

@[simp] theorem sput_v (w : Warp) (r : Nat) (x : PWord) : (w.sput r x).v = w.v := rfl

@[simp] theorem vget_sput (w : Warp) (r : Nat) (x : PWord) (y l : Nat) : (w.sput r x).vget y l = w.vget y l := rfl

/-- A predicate write changes the lanes of its mask in its register; p7 reads true. -/
theorem pget_pput (w : Warp) (n : Nat) (m : Word) (f : Nat → Bool) (x : Nat) {l : Nat} (hx : x < 8) (hl : l < 32) :
    (w.pput n m f).pget x l = if x = n ∧ n < 7 ∧ m.getLsbD l = true then f l else w.pget x l := by
  unfold Warp.pput
  split_ifs with hn h h
  · obtain ⟨rfl, _, hb⟩ := h
    have : x ≠ 7 := by omega
    simp [Warp.pget, this, hn.1, getLsbD_maskOf _ hl, hb]
  · by_cases h7 : x = 7
    · simp [Warp.pget, h7]
    · have hx7 : x < 7 := by omega
      by_cases hxn : x = n
      · subst hxn
        have hb : m.getLsbD l = false := by simpa [hn.1] using h
        simp [Warp.pget, h7, hx7, getLsbD_maskOf _ hl, hb]
      · simp [Warp.pget, h7, hx7, hxn]
  · exact absurd ⟨h.2.1, fun e => by simp [e] at h⟩ hn
  · rfl

/-- A uniform predicate write; q3 reads true. -/
theorem qget_qput (w : Warp) (n : Nat) (b : Bool) {x : Nat} (hx : x < 4) :
    (w.qput n b).qget x = if x = n ∧ n < 3 then b else w.qget x := by
  unfold Warp.qput
  split_ifs with hn h h
  · obtain ⟨rfl, _⟩ := h
    have : x ≠ 3 := by omega
    simp [Warp.qget, this, hn]
  · by_cases h3 : x = 3
    · simp [Warp.qget, h3]
    · have hx3 : x < 3 := by omega
      have hxn : x ≠ n := fun e => h ⟨e, hn⟩
      simp [Warp.qget, h3, hx3, hxn]
  · exact absurd h.2 hn
  · rfl

@[simp] theorem pput_s (w : Warp) (n : Nat) (m : Word) (f : Nat → Bool) : (w.pput n m f).s = w.s := by
  unfold Warp.pput; split <;> rfl

@[simp] theorem pput_v (w : Warp) (n : Nat) (m : Word) (f : Nat → Bool) : (w.pput n m f).v = w.v := by
  unfold Warp.pput; split <;> rfl

@[simp] theorem pput_q (w : Warp) (n : Nat) (m : Word) (f : Nat → Bool) : (w.pput n m f).q = w.q := by
  unfold Warp.pput; split <;> rfl

@[simp] theorem qput_s (w : Warp) (n : Nat) (b : Bool) : (w.qput n b).s = w.s := by
  unfold Warp.qput; split <;> rfl

@[simp] theorem qput_v (w : Warp) (n : Nat) (b : Bool) : (w.qput n b).v = w.v := by
  unfold Warp.qput; split <;> rfl

@[simp] theorem qput_p (w : Warp) (n : Nat) (b : Bool) : (w.qput n b).p = w.p := by
  unfold Warp.qput; split <;> rfl

/-- A change that leaves all of a warp but its vector, uniform and predicate registers and their cells. -/
structure RegsOnly (w w' : Warp) : Prop where
  kept : WarpKept w w'
  run : w'.run = w.run
  pend : w'.pend = w.pend
  clause : w'.clause = w.clause
  fstat : w'.fstat = w.fstat

theorem RegsOnly.refl (w : Warp) : RegsOnly w w :=
  ⟨⟨rfl, rfl, rfl, rfl, rfl, rfl, rfl, rfl, rfl, rfl, rfl, rfl, rfl, rfl, rfl, rfl⟩, rfl, rfl, rfl, rfl⟩

theorem warpKept_trans {a b c : Warp} (h : WarpKept a b) (k : WarpKept b c) : WarpKept a c := by
  cases h; cases k
  constructor <;> simp_all

theorem RegsOnly.trans {a b c : Warp} (h : RegsOnly a b) (k : RegsOnly b c) : RegsOnly a c :=
  ⟨warpKept_trans h.kept k.kept, k.run.trans h.run, k.pend.trans h.pend, k.clause.trans h.clause, k.fstat.trans h.fstat⟩

theorem regsOnly_vput (w : Warp) (r : Nat) (m : Word) (f : Nat → PWord) : RegsOnly w (w.vput r m f) := by
  unfold Warp.vput; split <;> exact ⟨⟨rfl, rfl, rfl, rfl, rfl, rfl, rfl, rfl, rfl, rfl, rfl, rfl, rfl, rfl, rfl, rfl⟩, rfl, rfl, rfl, rfl⟩

theorem regsOnly_sput (w : Warp) (r : Nat) (x : PWord) : RegsOnly w (w.sput r x) :=
  ⟨⟨rfl, rfl, rfl, rfl, rfl, rfl, rfl, rfl, rfl, rfl, rfl, rfl, rfl, rfl, rfl, rfl⟩, rfl, rfl, rfl, rfl⟩

theorem regsOnly_pput (w : Warp) (n : Nat) (m : Word) (f : Nat → Bool) : RegsOnly w (w.pput n m f) := by
  unfold Warp.pput; split <;> exact ⟨⟨rfl, rfl, rfl, rfl, rfl, rfl, rfl, rfl, rfl, rfl, rfl, rfl, rfl, rfl, rfl, rfl⟩, rfl, rfl, rfl, rfl⟩

theorem regsOnly_qput (w : Warp) (n : Nat) (b : Bool) : RegsOnly w (w.qput n b) := by
  unfold Warp.qput; split <;> exact ⟨⟨rfl, rfl, rfl, rfl, rfl, rfl, rfl, rfl, rfl, rfl, rfl, rfl, rfl, rfl, rfl, rfl⟩, rfl, rfl, rfl, rfl⟩

theorem regsOnly_vrelease (w : Warp) (r : Nat) (m : Word) : RegsOnly w (w.vrelease r m) := by
  unfold Warp.vrelease
  simp only
  split <;> exact ⟨⟨rfl, rfl, rfl, rfl, rfl, rfl, rfl, rfl, rfl, rfl, rfl, rfl, rfl, rfl, rfl, rfl⟩, rfl, rfl, rfl, rfl⟩

/-- A release changes vector registers and cells alone. -/
theorem vrelease_spq (w : Warp) (r : Nat) (m : Word) :
    (w.vrelease r m).s = w.s ∧ (w.vrelease r m).p = w.p ∧ (w.vrelease r m).q = w.q := by
  unfold Warp.vrelease
  simp only
  split <;> exact ⟨rfl, rfl, rfl⟩

theorem releases_facts (w : Warp) (i : Instr) (m : Word) :
    RegsOnly w (w.releases i m) ∧ (w.releases i m).s = w.s ∧ (w.releases i m).p = w.p ∧ (w.releases i m).q = w.q := by
  have fold : ∀ (rs : List Nat) (w : Warp), RegsOnly w (rs.foldl (fun w x => w.vrelease x m) w)
      ∧ (rs.foldl (fun w x => w.vrelease x m) w).s = w.s ∧ (rs.foldl (fun w x => w.vrelease x m) w).p = w.p
      ∧ (rs.foldl (fun w x => w.vrelease x m) w).q = w.q := by
    intro rs
    induction rs with
    | nil => intro w; exact ⟨RegsOnly.refl w, rfl, rfl, rfl⟩
    | cons r rs ih =>
      intro w
      have h := ih (w.vrelease r m)
      have k := vrelease_spq w r m
      exact ⟨(regsOnly_vrelease w r m).trans h.1, h.2.1.trans k.1, h.2.2.1.trans k.2.1, h.2.2.2.trans k.2.2⟩
  unfold Warp.releases
  split
  · rename_i p r _ _
    by_cases h : (r.uguard && !w.uguard p.o.guard) = true
    · simp only [h, if_true]
      exact ⟨RegsOnly.refl w, trivial, trivial, trivial⟩
    · simp only [h]
      exact fold _ w
  · exact ⟨RegsOnly.refl w, rfl, rfl, rfl⟩

end Sys2Proof.Machine
end

