-- ==== Sys2Proof/Laws/Words.lean ====
section
/-! SUPPORT. What every word shares: a word that issues runs its own effect; what issuing leaves of the state; what
completing a word does; the shape of a word that computes or tests. -/

namespace Sys2Proof.Machine

/-- A word that issues runs its effect on what `issuing` gives. -/
theorem issue_eq {i : Instr} {s s0 : State} {it : Iss} (h : issuing i s = some (it, s0)) (body : Iss → State → State) :
    issue i s body = .next (body it s0) := by
  unfold issuing at h
  split at h
  · cases h
  · rename_i wid hc
    split at h
    · cases h
    · rename_i w hw
      split at h
      · cases h
      · rename_i core slot hl
        simp only at h
        split_ifs at h with hg
        · obtain ⟨h1, h2, hr, hn, h3, h4, h5, h6⟩ := hg
          cases h
          have h7 : cellsWanted i w ≤ poolFree s core := by omega
          have e3 : (match s.block (blkOf wid) with | some b => b.isProv | none => false) = true → heldInstr i = true →
              activeOf i w = 0 := by
            intro hp hi
            apply h3
            revert hp
            cases s.block (blkOf wid) <;> simp [hi]
          simp only [issue, hc, hw, hl, issueOn, h1, h2, hr, hn, Bool.false_eq_true, if_false]
          congr 1
          by_cases ha : activeOf i w = 0
          · simp [ha, makeRoom, h7, Nat.not_lt.mpr h6]
          · have h3' : ((match s.block (blkOf wid) with | some b => b.isProv | none => false) && heldInstr i) = false := by
              rw [Bool.and_eq_false_iff]
              by_contra hh
              push Not at hh
              exact ha (e3 (by simpa using hh.1) (by simpa using hh.2))
            have h4' : (entersQueue (opOf i) && !engineFree s core i) = false := by
              cases hq : entersQueue (opOf i)
              · rfl
              · rcases h4 hq with h | h
                · exact absurd h ha
                · simp [h]
            have h5' : drainWaits s wid core w i = false := by
              cases hd : drainWaits s wid core w i
              · rfl
              · exact absurd (h5 hd) ha
            have h4'' : (activeOf i w != 0 && entersQueue (opOf i) && !engineFree s core i) = false := by
              rw [Bool.and_assoc, h4', Bool.and_false]
            have h3'' : ((match s.block (blkOf wid) with | some b => b.isProv | none => false) && heldInstr i
                && activeOf i w != 0) = false := by
              rw [h3', Bool.false_and]
            refine (if_neg fun e => Bool.false_ne_true (h3''.symm.trans e)).trans ?_
            simp only [h4'', h5', Bool.and_false, Bool.false_eq_true, if_false, makeRoom, h7, if_true,
              Nat.not_lt.mpr h6]

/-- What `issuing` tells. -/
theorem issuing_facts {i : Instr} {s s0 : State} {it : Iss} (h : issuing i s = some (it, s0)) :
    ∃ wid core slot w, s.cur = some wid ∧ s.warp wid = some w ∧ w.loc = some (core, slot)
      ∧ it = mkIss i s wid core slot w ∧ s0 = started i s wid core w := by
  unfold issuing at h
  split at h
  · cases h
  · rename_i wid hc
    split at h
    · cases h
    · rename_i w hw
      split at h
      · cases h
      · rename_i core slot hl
        simp only at h
        split_ifs at h
        · cases h
          exact ⟨wid, core, slot, w, hc, hw, hl, rfl, rfl⟩

/-- What issuing a word notes of its warp: what its results are computed from (R327), when its cells were used (R129), and
its place in the order of issue (R141). -/
structure Noted where
  dep : Sparse Nat
  usedAt : Sparse Nat
  sched : Sched

/-- The warp a word issues on, after it has been counted as issued. -/
def Warp.atIssue (w : Warp) (n : Noted) : Warp :=
  { w with dep := n.dep, usedAt := n.usedAt, stall := none, sched := n.sched }

/-- A word's sources and cells are noted beside the warp's registers. -/
theorem issued_warp (w : Warp) (i : Instr) (act : Word) (now : Nat) :
    ∃ n : Noted, { ((w.carry i act).useCells i now) with
      stall := none, sched := { w.sched with lastIssue := now, readySince := none, aged := false } } = w.atIssue n := by
  unfold Warp.carry
  split_ifs
  · exact ⟨⟨_, _, _⟩, rfl⟩
  · exact ⟨⟨_, _, _⟩, rfl⟩

/-- The state after a word has been counted as issued: its warp's notes and its core's counters. -/
theorem issued_facts (i : Instr) (s : State) (wid core : Nat) (w0 : Warp) :
    (issued i s wid core w0).agenda = s.agenda ∧ (issued i s wid core w0).cur = s.cur
      ∧ (issued i s wid core w0).free = s.free ∧ (issued i s wid core w0).dev = s.dev
      ∧ (issued i s wid core w0).mem = s.mem ∧ (issued i s wid core w0).pairs = s.pairs
      ∧ (issued i s wid core w0).ctxs = s.ctxs ∧ (issued i s wid core w0).grids = s.grids
      ∧ (issued i s wid core w0).blocks = s.blocks ∧ (issued i s wid core w0).blkNext = s.blkNext
      ∧ (issued i s wid core w0).cmdNext = s.cmdNext
      ∧ (∀ x, (issued i s wid core w0).warp x = if x = wid then
          (s.warp wid).map fun w => { ((w.carry i (activeOf i w0)).useCells i s.dev.now) with
            stall := none, sched := { w.sched with lastIssue := s.dev.now, readySince := none, aged := false } }
        else s.warp x)
      ∧ ∀ c, c ≠ core → (issued i s wid core w0).core c = s.core c := by
  unfold issued agree
  simp only
  have hc : ∀ (x : State) (ev c : Nat), c ≠ core → (count x core ev).core c = x.core c := by
    intro x ev c h
    unfold count
    rw [State.core_modCore, if_neg h]
  have hm : ∀ (x : State) (g : Core → Core) (c : Nat), c ≠ core → (x.modCore core g).core c = x.core c := by
    intro x g c h
    rw [State.core_modCore, if_neg h]
  have hw : ∀ (x : State) (f : Warp → Warp) (c : Nat), (x.modWarp wid f).core c = x.core c := by
    intro x f c
    unfold State.core
    rw [State.modWarp_cores]
  and_intros
  all_goals first
    | ((repeat' split) <;> simp; done)
    | (intro x
       rw [← State.warp_modWarp]
       refine State.warp_of_warps_eq ?_ x
       (repeat' split) <;> simp)
    | (intro c h
       (repeat' split) <;> simp [hc, hm, hw, h])

/-- A word that keeps its warp's stores buffered, or acts on no lane, starts right after it has been counted as issued. -/
theorem started_eq {i : Instr} {w : Warp} (h : keepsStores i = true ∨ activeOf i w = 0) (s : State) (wid core : Nat) :
    started i s wid core w = issued i s wid core w := by
  unfold started
  rcases h with h | h <;> simp [h]

theorem warp_at_issue {i : Instr} {s s0 : State} {it : Iss} (h : issuing i s = some (it, s0))
    (hk : keepsStores i = true ∨ it.act = 0) : ∃ n : Noted, s0.warp it.wid = some (it.w.atIssue n) := by
  obtain ⟨wid, core, slot, w, _, hw, _, rfl, rfl⟩ := issuing_facts h
  rw [started_eq hk]
  have := (issued_facts i s wid core w).2.2.2.2.2.2.2.2.2.2.2.1 wid
  rw [if_pos rfl, hw] at this
  obtain ⟨n, hn⟩ := issued_warp w i (activeOf i w) s.dev.now
  exact ⟨n, this.trans (congrArg some hn)⟩

/-- Counting a word as issued changes nothing that a computing word keeps. -/
theorem warpKept_atIssue {w w' : Warp} {n : Noted} (h : WarpKept w w') : WarpKept (w.atIssue n) w' :=
  ⟨h.loc, h.role, h.budget, h.slices, h.waiting, h.dseq, h.resv, h.handler, h.batchNum, h.openBatch, h.closed, h.wait,
    h.heldTrap, h.async, h.halted, h.stop⟩

/-- What moving to the next word leaves of a warp. -/
theorem advance_facts (w : Warp) :
    WarpKept w w.advance ∧ w.advance.v = w.v ∧ w.advance.s = w.s ∧ w.advance.p = w.p ∧ w.advance.q = w.q
      ∧ w.advance.pend = w.pend ∧ w.advance.fstat = w.fstat ∧ w.advance.run = nextRun w := by
  unfold Warp.advance Warp.passed nextRun nextPlace
  cases hc : w.clause with
  | none =>
    simp only
    exact ⟨⟨rfl, rfl, rfl, rfl, rfl, rfl, rfl, rfl, rfl, rfl, rfl, rfl, rfl, rfl, rfl, rfl⟩, by simp⟩
  | some cl =>
    simp only
    split_ifs <;>
      exact ⟨⟨rfl, rfl, rfl, rfl, rfl, rfl, rfl, rfl, rfl, rfl, rfl, rfl, rfl, rfl, rfl, rfl⟩, by simp⟩

theorem vget_congr {w w' : Warp} (h : w'.v = w.v) (x l : Nat) : w'.vget x l = w.vget x l := by
  unfold Warp.vget
  rw [h]

theorem pget_congr {w w' : Warp} (h : w'.p = w.p) (x l : Nat) : w'.pget x l = w.pget x l := by
  unfold Warp.pget
  rw [h]

theorem qget_congr {w w' : Warp} (h : w'.q = w.q) (x : Nat) : w'.qget x = w.qget x := by
  unfold Warp.qget
  rw [h]

theorem sget_congr {w w' : Warp} (h : w'.s = w.s) (x : Nat) : w'.sget x = w.sget x := by
  unfold Warp.sget
  rw [h]

/-- Counting a word as issued touches no register. -/
theorem releases_atIssue (w : Warp) (n : Noted) (i : Instr) (m : Word) :
    (w.atIssue n).releases i m = (w.releases i m).atIssue n := by
  have one : ∀ (w : Warp) (r : Nat), (w.atIssue n).vrelease r m = (w.vrelease r m).atIssue n := by
    intro w r
    unfold Warp.vrelease Warp.atIssue Warp.vget
    simp only
    split <;> rfl
  have fold : ∀ (rs : List Nat) (w : Warp), rs.foldl (fun w x => w.vrelease x m) (w.atIssue n)
      = (rs.foldl (fun w x => w.vrelease x m) w).atIssue n := by
    intro rs
    induction rs with
    | nil => intro w; rfl
    | cons r rs ih =>
      intro w
      simp only [List.foldl_cons, one, ih]
  unfold Warp.releases
  split
  · rename_i p r _ _
    have e : (w.atIssue n).uguard p.o.guard = w.uguard p.o.guard := rfl
    by_cases h : (r.uguard && !w.uguard p.o.guard) = true
    · simp only [e, h, if_true]
    · simp only [e, h]
      exact fold _ w
  · rfl

/-- The warp at the point where a word's own writes are made: counted as issued, its releases done. -/
def atWrites (it : Iss) (now : Noted) : Warp := (baseOf it).atIssue now

/-- Completing a word: the warp alone changes, by the releases, the word's writes and the move to the next word. -/
theorem commit_facts {it : Iss} {s : State} {now : Noted} (h : s.warp it.wid = some (it.w.atIssue now)) (f : Warp → Warp) :
    OnlyWarp it.wid s (commit it s f) ∧ (commit it s f).warp it.wid = some (f (atWrites it now)).advance := by
  have e : (it.w.atIssue now).releases it.instr (it.w.atIssue now).run.mask = atWrites it now := by
    rw [releases_atIssue]; rfl
  unfold commit
  refine ⟨⟨?_, ?_, ?_, ?_, ?_, ?_, ?_, ?_, ?_, ?_, ?_, ?_, fun x hx => State.warp_modWarp_ne s _ hx⟩,
    by rw [State.warp_modWarp, if_pos rfl, h, Option.map_some, e]⟩ <;> simp

/-- The warp before a word's writes is the issuing warp but for its releases and scheduling. -/
theorem atWrites_facts (it : Iss) (now : Noted) :
    WarpKept it.w (atWrites it now) ∧ (atWrites it now).v = (baseOf it).v ∧ (atWrites it now).s = it.w.s
      ∧ (atWrites it now).p = it.w.p ∧ (atWrites it now).q = it.w.q ∧ (atWrites it now).pend = it.w.pend
      ∧ (atWrites it now).fstat = it.w.fstat ∧ (atWrites it now).run = it.w.run
      ∧ (atWrites it now).clause = it.w.clause := by
  obtain ⟨h, hs, hp, hq⟩ := releases_facts it.w it.instr it.w.run.mask
  exact ⟨warpKept_trans h.kept ⟨rfl, rfl, rfl, rfl, rfl, rfl, rfl, rfl, rfl, rfl, rfl, rfl, rfl, rfl, rfl, rfl⟩, rfl, hs, hp,
    hq, h.pend, h.fstat, h.run, h.clause⟩

/-- Writing a destination changes registers alone, and predicates not at all. -/
theorem dput_facts (w : Warp) (t : Ty) (d : Opd) (m : Word) (f : Nat → PV) :
    RegsOnly w (w.dput t d m f) ∧ (w.dput t d m f).p = w.p ∧ (w.dput t d m f).q = w.q := by
  have hv : ∀ (w : Warp) (r : Nat) (g : Nat → PWord), (w.vput r m g).p = w.p ∧ (w.vput r m g).q = w.q := by
    intro w r g
    unfold Warp.vput
    split <;> exact ⟨rfl, rfl⟩
  unfold Warp.dput Warp.vput64 Warp.sput64
  split
  · split
    · exact ⟨(regsOnly_vput w _ m _).trans (regsOnly_vput _ _ m _), (hv _ _ _).1.trans (hv _ _ _).1,
        (hv _ _ _).2.trans (hv _ _ _).2⟩
    · exact ⟨regsOnly_vput w _ m _, (hv _ _ _).1, (hv _ _ _).2⟩
  · split
    · exact ⟨RegsOnly.refl w, rfl, rfl⟩
    · split
      · exact ⟨(regsOnly_sput w _ _).trans (regsOnly_sput _ _ _), rfl, rfl⟩
      · exact ⟨regsOnly_sput w _ _, rfl, rfl⟩
  · exact ⟨RegsOnly.refl w, rfl, rfl⟩

theorem tw_cases (t : Ty) : tw t = 1 ∨ tw t = 2 := by cases t <;> simp [tw]

/-- A destination holds what is written to it. -/
theorem dput_written (it : Iss) (w' : Warp) (now : Noted) (t : Ty) (f : Nat → PV)
    (hv : w'.v = ((atWrites it now).dput t it.o.d it.act f).v)
    (hs : w'.s = ((atWrites it now).dput t it.o.d it.act f).s) : DestWritten it w' (tw t) (wordsOf f) := by
  obtain ⟨-, ev, es, -⟩ := atWrites_facts it now
  set a := atWrites it now with ha
  unfold DestWritten
  cases hd : it.o.d with
  | v r =>
    simp only
    have hv' : ∀ x l, w'.vget x l = (a.dput t (.v r) it.act f).vget x l := fun x l => vget_congr (by rw [hv, hd]) x l
    have hb : ∀ x l, (baseOf it).vget x l = a.vget x l := fun x l => (vget_congr ev x l).symm
    rcases tw_cases t with h1 | h2
    · have hne : ¬(tw t = 2) := by omega
      simp only [h1]
      refine ⟨?_, ?_, ?_⟩
      · rw [hs, hd]; simp [Warp.dput, hne, es]
      · intro h l hh hl hact
        have : h = 0 := by omega
        subst this
        rw [hv']
        simp [Warp.dput, hne, vget_vput _ _ _ _ _ hl, hact, wordsOf]
      · intro x l hl hx
        rw [hv', hb]
        simp only [Warp.dput, hne, if_false, vget_vput _ _ _ _ _ hl]
        rw [if_neg]
        rintro ⟨rfl, hact⟩
        rcases hx with h | h | h
        · omega
        · omega
        · simp [h] at hact
    · simp only [h2]
      refine ⟨?_, ?_, ?_⟩
      · rw [hs, hd]; simp [Warp.dput, h2, Warp.vput64, es]
      · intro h l hh hl hact
        rw [hv']
        have : h = 0 ∨ h = 1 := by omega
        rcases this with rfl | rfl <;>
          simp [Warp.dput, h2, Warp.vput64, vget_vput _ _ _ _ _ hl, hact, wordsOf]
      · intro x l hl hx
        rw [hv', hb]
        simp only [Warp.dput, h2, if_true, Warp.vput64, vget_vput _ _ _ _ _ hl]
        rw [if_neg, if_neg]
        · rintro ⟨rfl, hact⟩
          rcases hx with h | h | h
          · omega
          · omega
          · simp [h] at hact
        · rintro ⟨rfl, hact⟩
          rcases hx with h | h | h
          · omega
          · omega
          · simp [h] at hact
  | s r =>
    simp only
    have hb : ∀ x l, (baseOf it).vget x l = a.vget x l := fun x l => (vget_congr ev x l).symm
    have hs' : ∀ x, w'.sget x = (a.dput t (.s r) it.act f).sget x := fun x => sget_congr (by rw [hs, hd]) x
    have es' : ∀ x, a.sget x = it.w.sget x := fun x => sget_congr es x
    refine ⟨?_, ?_, ?_⟩
    · intro x l
      rw [hb]
      refine vget_congr ?_ x l
      rw [hv, hd]
      simp only [Warp.dput, Warp.sput64]
      split_ifs <;> rfl
    · intro h hh hact
      rw [hs']
      rcases tw_cases t with h1 | h2
      · have hne : ¬(tw t = 2) := by omega
        have : h = 0 := by omega
        subst this
        simp only [Warp.dput, if_neg hact, hne, if_false]
        simp [wordsOf]
      · have : h = 0 ∨ h = 1 := by omega
        rcases this with rfl | rfl <;>
          (simp only [Warp.dput, if_neg hact, h2, if_true]; simp [Warp.sput64, wordsOf])
    · intro x hx
      rw [hs']
      by_cases hact : it.act = 0
      · simp [Warp.dput, hact, es']
      · have hx' : x < r.val ∨ r.val + tw t ≤ x := by
          rcases hx with h | h | h
          · exact .inl h
          · exact .inr h
          · exact absurd h hact
        rcases tw_cases t with h1 | h2
        · have hne : ¬(tw t = 2) := by omega
          simp only [Warp.dput, hact, if_false, hne, sput_s_get]
          rw [if_neg (by omega), es']
        · simp only [Warp.dput, hact, if_false, h2, if_true, Warp.sput64, sput_s_get]
          rw [if_neg (by omega), if_neg (by omega), es']
  | _ =>
    refine ⟨?_, ?_⟩
    · rw [hs, hd]; exact es
    · intro x l
      refine vget_congr ?_ x l
      rw [hv, hd]; exact ev

/-- A word that writes one value per active lane, with status bits, computes it. -/
theorem fvalue_computes {it : Iss} {s : State} {now : Noted} (h : s.warp it.wid = some (it.w.atIssue now)) (t : Ty)
    (f : Nat → PV) (fl : Nat) :
    Computes it s (commit it s fun w => stickFstat (w.dput t it.o.d it.act f) fl) (tw t) (wordsOf f) fl := by
  obtain ⟨h1, h2⟩ := commit_facts h fun w => stickFstat (w.dput t it.o.d it.act f) fl
  obtain ⟨k1, kv, ks, kp, kq, kpend, kf, krun, kcl⟩ := atWrites_facts it now
  obtain ⟨d1, dp, dq⟩ := dput_facts (atWrites it now) t it.o.d it.act f
  obtain ⟨a1, av, as, ap, aq, apend, af, arun⟩ := advance_facts (stickFstat ((atWrites it now).dput t it.o.d it.act f) fl)
  refine ⟨h1, _, _, h, h2, warpKept_atIssue ?_, ?_, ?_, ?_, ?_, ?_, ?_⟩
  · refine warpKept_trans k1 (warpKept_trans d1.kept (warpKept_trans ?_ a1))
    exact ⟨rfl, rfl, rfl, rfl, rfl, rfl, rfl, rfl, rfl, rfl, rfl, rfl, rfl, rfl, rfl, rfl⟩
  · rw [apend]; exact d1.pend.trans kpend
  · rw [arun]
    unfold nextRun nextPlace stickFstat
    simp only [d1.run, d1.clause, krun, kcl]
  · rw [af]; simp only [stickFstat, d1.fstat, kf]
  · rw [ap]; exact dp.trans kp
  · rw [aq]; exact dq.trans kq
  · exact dput_written it _ now t f av as

/-- A word that writes one value per active lane computes it. -/
theorem value_computes {it : Iss} {s : State} {now : Noted} (h : s.warp it.wid = some (it.w.atIssue now)) (t : Ty)
    (f : Nat → PV) : Computes it s (commit it s fun w => w.dput t it.o.d it.act f) (tw t) (wordsOf f) 0 := by
  have := fvalue_computes h t f 0
  have e : ∀ w : Warp, stickFstat w 0 = w := fun w => by simp [stickFstat]
  simpa only [e] using this

/-- Writing a destination word by word changes registers alone, and predicates not at all. -/
theorem dputW_facts (w : Warp) (t : Ty) (d : Opd) (m : Word) (f : Nat → Nat → PV) :
    RegsOnly w (w.dputW t d m f) ∧ (w.dputW t d m f).p = w.p ∧ (w.dputW t d m f).q = w.q := by
  have fold : ∀ (g : Warp → Nat → Warp), (∀ w h, RegsOnly w (g w h) ∧ (g w h).p = w.p ∧ (g w h).q = w.q) →
      ∀ (l : List Nat) (w : Warp), RegsOnly w (l.foldl g w) ∧ (l.foldl g w).p = w.p ∧ (l.foldl g w).q = w.q := by
    intro g hg l
    induction l with
    | nil => intro w; exact ⟨RegsOnly.refl _, rfl, rfl⟩
    | cons h l ih =>
      intro w
      obtain ⟨a1, a2, a3⟩ := hg w h
      obtain ⟨b1, b2, b3⟩ := ih (g w h)
      exact ⟨a1.trans b1, b2.trans a2, b3.trans a3⟩
  unfold Warp.dputW
  refine fold _ (fun w h => ?_) _ w
  cases d with
  | v r =>
    refine ⟨regsOnly_vput _ _ _ _, ?_, ?_⟩ <;> (simp only [Warp.vput]; split <;> rfl)
  | s r =>
    simp only
    split
    · exact ⟨RegsOnly.refl _, rfl, rfl⟩
    · exact ⟨regsOnly_sput _ _ _, rfl, rfl⟩
  | _ => exact ⟨RegsOnly.refl _, rfl, rfl⟩

/-- A destination written word by word holds those words. -/
theorem dputW_written (it : Iss) (w' : Warp) (now : Noted) (t : Ty) (f : Nat → Nat → PV)
    (hv : w'.v = ((atWrites it now).dputW t it.o.d it.act f).v)
    (hs : w'.s = ((atWrites it now).dputW t it.o.d it.act f).s) : DestWritten it w' (tw t) (wordsBy f) := by
  obtain ⟨-, ev, es, -⟩ := atWrites_facts it now
  set a := atWrites it now with ha
  have hb : ∀ x l, (baseOf it).vget x l = a.vget x l := fun x l => (vget_congr ev x l).symm
  have es' : ∀ x, a.sget x = it.w.sget x := fun x => sget_congr es x
  unfold DestWritten
  cases hd : it.o.d with
  | v r =>
    simp only
    have hv' : ∀ x l, w'.vget x l = (a.dputW t (.v r) it.act f).vget x l := fun x l => vget_congr (by rw [hv, hd]) x l
    rcases tw_cases t with h1 | h2
    · simp only [h1]
      refine ⟨?_, ?_, ?_⟩
      · rw [hs, hd]; simp [Warp.dputW, h1, List.range_succ, es]
      · intro h l hh hl hact
        have : h = 0 := by omega
        subst this
        rw [hv']
        simp [Warp.dputW, h1, List.range_succ, vget_vput _ _ _ _ _ hl, hact, wordsBy]
      · intro x l hl hx
        rw [hv', hb]
        simp only [Warp.dputW, h1, List.range_succ, List.range_zero, List.nil_append, List.foldl_cons, List.foldl_nil,
          vget_vput _ _ _ _ _ hl]
        rw [if_neg]
        rintro ⟨rfl, hact⟩
        rcases hx with h | h | h
        · omega
        · omega
        · simp [h] at hact
    · simp only [h2]
      refine ⟨?_, ?_, ?_⟩
      · rw [hs, hd]; simp [Warp.dputW, h2, List.range_succ, es]
      · intro h l hh hl hact
        rw [hv']
        have : h = 0 ∨ h = 1 := by omega
        rcases this with rfl | rfl <;>
          simp [Warp.dputW, h2, List.range_succ, vget_vput _ _ _ _ _ hl, hact, wordsBy]
      · intro x l hl hx
        rw [hv', hb]
        simp only [Warp.dputW, h2, List.range_succ, List.range_zero, List.nil_append, List.cons_append, List.foldl_cons,
          List.foldl_nil, vget_vput _ _ _ _ _ hl]
        rw [if_neg, if_neg]
        · rintro ⟨rfl, hact⟩
          rcases hx with h | h | h
          · omega
          · omega
          · simp [h] at hact
        · rintro ⟨rfl, hact⟩
          rcases hx with h | h | h
          · omega
          · omega
          · simp [h] at hact
  | s r =>
    simp only
    have hs' : ∀ x, w'.sget x = (a.dputW t (.s r) it.act f).sget x := fun x => sget_congr (by rw [hs, hd]) x
    refine ⟨?_, ?_, ?_⟩
    · intro x l
      rw [hb]
      refine vget_congr ?_ x l
      rw [hv, hd]
      rcases tw_cases t with h1 | h2
      · simp only [Warp.dputW, h1, List.range_succ, List.range_zero, List.nil_append, List.foldl_cons, List.foldl_nil]
        split_ifs <;> rfl
      · simp only [Warp.dputW, h2, List.range_succ, List.range_zero, List.nil_append, List.cons_append, List.foldl_cons,
          List.foldl_nil]
        split_ifs <;> rfl
    · intro h hh hact
      rw [hs']
      rcases tw_cases t with h1 | h2
      · have : h = 0 := by omega
        subst this
        simp only [Warp.dputW, h1, List.range_succ, List.range_zero, List.nil_append, List.foldl_cons, List.foldl_nil,
          if_neg hact]
        simp [wordsBy]
      · have : h = 0 ∨ h = 1 := by omega
        rcases this with rfl | rfl <;>
          (simp only [Warp.dputW, h2, List.range_succ, List.range_zero, List.nil_append, List.cons_append,
            List.foldl_cons, List.foldl_nil, if_neg hact]; simp [wordsBy])
    · intro x hx
      rw [hs']
      by_cases hact : it.act = 0
      · have e : a.dputW t (.s r) it.act f = a := by
          rcases tw_cases t with h1 | h2
          · simp only [Warp.dputW, h1, List.range_succ, List.range_zero, List.nil_append, List.foldl_cons,
              List.foldl_nil, if_pos hact]
          · simp only [Warp.dputW, h2, List.range_succ, List.range_zero, List.nil_append, List.cons_append,
              List.foldl_cons, List.foldl_nil, if_pos hact]
        rw [e, es']
      · have hx' : x < r.val ∨ r.val + tw t ≤ x := by
          rcases hx with h | h | h
          · exact .inl h
          · exact .inr h
          · exact absurd h hact
        rcases tw_cases t with h1 | h2
        · simp only [Warp.dputW, h1, List.range_succ, List.range_zero, List.nil_append, List.foldl_cons, List.foldl_nil,
            if_neg hact, sput_s_get]
          rw [if_neg (by omega), es']
        · simp only [Warp.dputW, h2, List.range_succ, List.range_zero, List.nil_append, List.cons_append,
            List.foldl_cons, List.foldl_nil, if_neg hact, sput_s_get]
          rw [if_neg (by omega), if_neg (by omega), es']
  | _ =>
    have e : ∀ o : Opd, (∀ r, o ≠ .v r) → (∀ r, o ≠ .s r) → a.dputW t o it.act f = a := by
      intro o h1 h2
      rcases tw_cases t with h | h
      · simp only [Warp.dputW, h, List.range_succ, List.range_zero, List.nil_append, List.foldl_cons, List.foldl_nil]
      · simp only [Warp.dputW, h, List.range_succ, List.range_zero, List.nil_append, List.cons_append, List.foldl_cons,
          List.foldl_nil]
    have e' : a.dputW t it.o.d it.act f = a := by
      refine e _ ?_ ?_ <;> (intro r; rw [hd]; simp)
    refine ⟨?_, ?_⟩
    · rw [hs, e']; exact es
    · intro x l
      refine vget_congr ?_ x l
      rw [hv, e']; exact ev

/-- A word that writes D word by word computes it. -/
theorem valueW_computes {it : Iss} {s : State} {now : Noted} (h : s.warp it.wid = some (it.w.atIssue now))
    (f : Nat → Nat → PV) : Computes it s (valueW it s f) (tw it.o.ty) (wordsBy f) 0 := by
  obtain ⟨h1, h2⟩ := commit_facts h fun w => w.dputW it.o.ty it.o.d it.act f
  obtain ⟨k1, kv, ks, kp, kq, kpend, kf, krun, kcl⟩ := atWrites_facts it now
  obtain ⟨d1, dp, dq⟩ := dputW_facts (atWrites it now) it.o.ty it.o.d it.act f
  obtain ⟨a1, av, as, ap, aq, apend, af, arun⟩ := advance_facts ((atWrites it now).dputW it.o.ty it.o.d it.act f)
  refine ⟨h1, _, _, h, h2, warpKept_atIssue ?_, ?_, ?_, ?_, ?_, ?_, ?_⟩
  · exact warpKept_trans k1 (warpKept_trans d1.kept a1)
  · rw [apend]; exact d1.pend.trans kpend
  · rw [arun]
    unfold nextRun nextPlace
    simp only [d1.run, d1.clause, krun, kcl]
  · rw [af]; simp [d1.fstat, kf]
  · rw [ap]; exact dp.trans kp
  · rw [aq]; exact dq.trans kq
  · exact dputW_written it _ now it.o.ty f av as

/-- Writing a predicate destination. -/
theorem pdput_facts (w : Warp) (d : Opd) (m : Word) (f : Nat → Bool) :
    RegsOnly w (w.pdput d m f) ∧ (w.pdput d m f).s = w.s ∧ (w.pdput d m f).v = w.v := by
  unfold Warp.pdput
  split
  · exact ⟨regsOnly_pput _ _ _ _, by simp, by simp⟩
  · split
    · exact ⟨RegsOnly.refl _, rfl, rfl⟩
    · exact ⟨regsOnly_qput _ _ _, by simp, by simp⟩
  · exact ⟨RegsOnly.refl _, rfl, rfl⟩

/-- A word that writes a predicate, with status bits. -/
theorem pdput_tests {it : Iss} {s : State} {now : Noted} (h : s.warp it.wid = some (it.w.atIssue now)) (f : Nat → Bool)
    (fl : Nat) : Tests it s (commit it s fun w => stickFstat (w.pdput it.o.d it.act f) fl) f fl := by
  obtain ⟨h1, h2⟩ := commit_facts h fun w => stickFstat (w.pdput it.o.d it.act f) fl
  obtain ⟨k1, kv, ks, kp, kq, kpend, kf, krun, kcl⟩ := atWrites_facts it now
  obtain ⟨d1, ds, dv⟩ := pdput_facts (atWrites it now) it.o.d it.act f
  obtain ⟨a1, av, as, ap, aq, apend, af, arun⟩ := advance_facts (stickFstat ((atWrites it now).pdput it.o.d it.act f) fl)
  refine ⟨h1, _, _, h, h2, warpKept_atIssue ?_, ?_, ?_, ?_, ?_, ?_, ?_⟩
  · refine warpKept_trans k1 (warpKept_trans d1.kept (warpKept_trans ?_ a1))
    exact ⟨rfl, rfl, rfl, rfl, rfl, rfl, rfl, rfl, rfl, rfl, rfl, rfl, rfl, rfl, rfl, rfl⟩
  · rw [apend]; exact d1.pend.trans kpend
  · rw [arun]
    unfold nextRun nextPlace stickFstat
    simp only [d1.run, d1.clause, krun, kcl]
  · rw [af]; simp only [stickFstat, d1.fstat, kf]
  · rw [as]; exact ds.trans ks
  · exact fun x l => vget_congr (av.trans (dv.trans kv)) x l
  · unfold PredWritten
    have hp : ∀ w : Warp, (stickFstat w fl).p = w.p ∧ (stickFstat w fl).q = w.q := fun w => ⟨rfl, rfl⟩
    cases hd : it.o.d with
    | p r =>
      rw [hd] at ap aq
      refine ⟨?_, fun n l hn hl => ?_⟩
      · rw [aq, (hp _).2]; simp only [Warp.pdput, pput_q]; exact kq
      · rw [pget_congr (ap.trans (hp _).1)]
        simp only [Warp.pdput, pget_pput _ _ _ _ _ hn hl]
        split_ifs with e1 e2 e2
        · rfl
        · exact absurd ⟨e1.1, e1.1 ▸ e1.2.1, e1.2.2⟩ e2
        · exact absurd ⟨e2.1, e2.1 ▸ e2.2.1, e2.2.2⟩ e1
        · exact pget_congr kp n l
    | q r =>
      rw [hd] at ap aq
      by_cases hact : it.act = 0
      · refine ⟨?_, fun n hn => ?_⟩
        · rw [ap, (hp _).1]; simp only [Warp.pdput, if_pos hact]; exact kp
        · rw [qget_congr (aq.trans (hp _).2)]
          simp only [Warp.pdput, if_pos hact]
          rw [if_neg fun e => e.2.2 hact]
          exact qget_congr kq n
      · refine ⟨?_, fun n hn => ?_⟩
        · rw [ap, (hp _).1]; simp only [Warp.pdput, if_neg hact, qput_p]; exact kp
        · rw [qget_congr (aq.trans (hp _).2)]
          simp only [Warp.pdput, if_neg hact, qget_qput _ _ _ hn]
          split_ifs with e1 e2 e2
          · rfl
          · exact absurd ⟨e1.1, e1.1 ▸ e1.2, hact⟩ e2
          · exact absurd ⟨e2.1, e2.1 ▸ e2.2.1⟩ e1
          · exact qget_congr kq n
    | _ =>
      rw [hd] at ap aq
      exact ⟨ap.trans kp, aq.trans kq⟩

end Sys2Proof.Machine
end

