-- ==== Sys2Proof/Laws/Coherence.lean ====
section
/-! SUPPORT. What moving stores to their coherence points can change: one lemma for each operation of Machine/Coherence.lean and
Machine/Access.lean that does so. -/

namespace Sys2Proof

open Sys2Proof.Machine

theorem Drains.refl (s : State) : Drains s s where
  agenda := rfl
  cur := rfl
  pairs := rfl
  ctxs := rfl
  blkNext := rfl
  cmdNext := rfl
  dev := rfl
  cores _ := rfl
  grids k := by
    cases h : alook k s.grids with
    | none => exact ⟨[], false, [], rfl⟩
    | some g => exact ⟨g.image.constStored, g.markSuspect, g.lostOn, rfl⟩
  blocks b := by
    cases h : s.block b with
    | none => exact ⟨[], [], rfl⟩
    | some x => exact ⟨x.scr, x.scrPois, rfl⟩
  warps x := by
    cases h : s.warp x with
    | none => exact ⟨[], [], [], rfl⟩
    | some w => exact ⟨w.sbuf, w.resv, w.pend, rfl⟩

theorem Drains.trans {a b c : State} (h : Drains a b) (k : Drains b c) : Drains a c where
  agenda := k.agenda.trans h.agenda
  cur := k.cur.trans h.cur
  pairs := k.pairs.trans h.pairs
  ctxs := k.ctxs.trans h.ctxs
  blkNext := k.blkNext.trans h.blkNext
  cmdNext := k.cmdNext.trans h.cmdNext
  dev := by
    have := k.dev
    rw [h.dev] at this
    exact this
  cores x := by
    have := k.cores x
    rw [h.cores x] at this
    exact this
  grids x := by
    obtain ⟨l, m, o, e⟩ := h.grids x
    obtain ⟨l', m', o', e'⟩ := k.grids x
    refine ⟨l', m', o', ?_⟩
    rw [e', e, Option.map_map]
    rfl
  blocks x := by
    obtain ⟨l, m, e⟩ := h.blocks x
    obtain ⟨l', m', e'⟩ := k.blocks x
    refine ⟨l', m', ?_⟩
    rw [e', e, Option.map_map]
    rfl
  warps x := by
    obtain ⟨l, m, n, e⟩ := h.warps x
    obtain ⟨l', m', n', e'⟩ := k.warps x
    refine ⟨l', m', n', ?_⟩
    rw [e', e, Option.map_map]
    rfl

theorem Drains.foldl {α : Type} {f : State → α → State} (h : ∀ s x, Drains s (f s x)) (l : List α) (s : State) :
    Drains s (l.foldl f s) := by
  induction l generalizing s with
  | nil => exact Drains.refl s
  | cons x l ih => exact (h s x).trans (ih _)

end Sys2Proof

namespace Sys2Proof.Machine

theorem alook_map {α β : Type} (f : α → β) (k : Nat) (m : Sparse α) :
    alook k (m.map fun e => (e.1, f e.2)) = (alook k m).map f := by
  induction m with
  | nil => rfl
  | cons e m ih =>
    obtain ⟨j, x⟩ := e
    simp only [List.map_cons, alook]
    split_ifs
    · rfl
    · exact ih

/-- A state that differs in memory and the numbering of free values alone. -/
theorem drains_of_mem (s : State) (m : Mem) (n : Nat) : Drains s { s with mem := m, free := n } :=
  let h := Drains.refl s
  ⟨rfl, rfl, rfl, rfl, rfl, rfl, rfl, h.cores, h.grids, h.blocks, h.warps⟩

theorem drains_modCore (s : State) (c : Nat) (f : Core → Core)
    (hf : ∀ x, f x = { x with dirty := (f x).dirty, old := (f x).old, cnt := (f x).cnt }) : Drains s (s.modCore c f) :=
  let h := Drains.refl s
  ⟨rfl, rfl, rfl, rfl, rfl, rfl, rfl, fun x => by
    rw [State.core_modCore]
    split_ifs with e
    · subst e; exact hf _
    · rfl, h.grids, h.blocks, h.warps⟩

theorem drains_count (s : State) (c ev : Nat) : Drains s (count s c ev) := drains_modCore s c _ fun _ => rfl

theorem drains_modWarp (s : State) (wid : Nat) (f : Warp → Warp)
    (hf : ∀ w, f w = { w with sbuf := (f w).sbuf, resv := (f w).resv, pend := (f w).pend }) : Drains s (s.modWarp wid f) :=
  let h := Drains.refl s
  ⟨by simp, by simp, by simp, by simp, by simp, by simp, by simp, fun x => by simp [State.core],
    fun k => by rw [State.modWarp_grids]; exact h.grids k, fun b => by
      unfold State.block
      rw [State.modWarp_blocks]
      exact h.blocks b, fun x => by
    rw [State.warp_modWarp]
    split_ifs with e
    · subst e
      cases hw : s.warp x with
      | none => exact ⟨[], [], [], rfl⟩
      | some w => exact ⟨(f w).sbuf, (f w).resv, (f w).pend, congrArg some (hf w)⟩
    · exact h.warps x⟩

theorem drains_mapWarps (s : State) (f : Warp → Warp)
    (hf : ∀ w, f w = { w with sbuf := (f w).sbuf, resv := (f w).resv, pend := (f w).pend }) :
    Drains s { s with warps := s.warps.map fun e => (e.1, f e.2) } :=
  let h := Drains.refl s
  ⟨rfl, rfl, rfl, rfl, rfl, rfl, rfl, h.cores, h.grids, h.blocks, fun x => by
    unfold State.warp
    rw [alook_map]
    cases hw : alook x s.warps with
    | none => exact ⟨[], [], [], rfl⟩
    | some w => exact ⟨(f w).sbuf, (f w).resv, (f w).pend, congrArg some (hf w)⟩⟩

theorem drains_modBlock (s : State) (b : Nat) (f : Block → Block)
    (hf : ∀ x, f x = { x with scr := (f x).scr, scrPois := (f x).scrPois }) : Drains s (s.modBlock b f) := by
  unfold State.modBlock
  cases hb : alook b s.blocks with
  | none => exact Drains.refl s
  | some x =>
    let h := Drains.refl s
    refine ⟨rfl, rfl, rfl, rfl, rfl, rfl, rfl, h.cores, h.grids, fun y => ?_, h.warps⟩
    unfold State.block State.setBlock
    rw [alook_aput]
    split_ifs with e
    · subst e
      exact ⟨(f x).scr, (f x).scrPois, by rw [hb]; exact congrArg some (hf x)⟩
    · exact h.blocks y

/-- Each core's entry changes by itself, in what a core may still read alone. -/
theorem drains_mapCores (s : State) (g : Nat → Core → Core) (hg : ∀ i x, g i x = { x with old := (g i x).old }) :
    Drains s { s with cores := s.cores.map fun e => (e.1, g e.1 e.2) } :=
  let h := Drains.refl s
  ⟨rfl, rfl, rfl, rfl, rfl, rfl, rfl, fun c => by
    have key' : ∀ l : Sparse Core, (alook c (l.map fun e => (e.1, g e.1 e.2))).getD Core.reset
          = { (alook c l).getD Core.reset with
              dirty := ((alook c (l.map fun e => (e.1, g e.1 e.2))).getD Core.reset).dirty
              old := ((alook c (l.map fun e => (e.1, g e.1 e.2))).getD Core.reset).old
              cnt := ((alook c (l.map fun e => (e.1, g e.1 e.2))).getD Core.reset).cnt } := by
      intro l
      induction l with
      | nil => rfl
      | cons e l ih =>
        obtain ⟨j, x⟩ := e
        simp only [List.map_cons, alook]
        split_ifs
        · simp only [Option.getD_some]
          rw [hg j x]
        · exact ih
    exact key' s.cores, h.grids, h.blocks, h.warps⟩

theorem drains_remember (s : State) (core : Option Nat) (key n : Nat) (p : Bool) : Drains s (s.remember core key n p) := by
  unfold State.remember
  refine drains_mapCores s (fun i x => if (p || s.mem.poisonedIn key n || (sectors key n).any (inSpans s.mem.vague))
    then x.refreshLines key n else if some i == core then x.observe key n (s.dev.now + 1)
    else if x.ctx.isSome then x.remember s.dev.now key (s.mem.bytes key n) else x) fun i x => ?_
  split_ifs <;> rfl

theorem drains_noteConsts (s : State) (key n : Nat) : Drains s (noteConsts s key n) :=
  let h := Drains.refl s
  ⟨rfl, rfl, rfl, rfl, rfl, rfl, rfl, h.cores, fun k => by
    have e : alook k (noteConsts s key n).grids
        = (alook k s.grids).map fun g =>
          { g with image := if g.status = .running then g.image.noteStore key n else g.image } :=
      alook_map (fun g : Grid =>
        ({ g with image := if g.status = .running then g.image.noteStore key n else g.image } : Grid)) k s.grids
    rw [e]
    cases hg : alook k s.grids with
    | none => exact ⟨[], false, [], rfl⟩
    | some g =>
      by_cases hr : g.status = .running
      · exact ⟨(g.image.noteStore key n).constStored, g.markSuspect, g.lostOn, by simp [hr]; rfl⟩
      · exact ⟨g.image.constStored, g.markSuspect, g.lostOn, by simp [hr]⟩, h.blocks, h.warps⟩

theorem drains_replayLoads (s : State) (who : Option Nat) (hit : LoadSrc → Bool) : Drains s (replayLoads s who hit) := by
  unfold replayLoads
  refine Drains.foldl (fun s e => ?_) _ _
  split_ifs
  · exact (drains_modWarp s e.1 _ fun _ => rfl).trans (Drains.foldl (fun s _ => drains_count s _ _) _ _)
  · exact Drains.refl s

theorem drains_clearResv (s : State) (key n : Nat) : Drains s (clearResv s key n) :=
  drains_mapWarps s (fun w => { w with resv := w.resv.filter fun r =>
    !(decide (key / 64 ≤ r.2 ∧ r.2 ≤ (key + n - 1) / 64)) }) fun _ => rfl

/-- A write to memory. -/
theorem drains_putBy (s : State) (who core : Option Nat) (key n : Nat) (p : Bool) (f : Mem → Mem) :
    Drains s (s.putBy who core key n p f) := by
  unfold State.putBy
  split_ifs
  · exact Drains.refl s
  · have h1 := (drains_remember s (core.or (s.cur.bind (coreOf s))) key n p).trans (drains_noteConsts _ key n)
    refine (h1.trans ?_).trans (drains_replayLoads _ who _)
    exact (drains_of_mem _ _ _).trans (drains_clearResv _ key n)

theorem drains_put (s : State) (who core : Option Nat) (kid key : Nat) (bs : List Byte) (p : Bool) :
    Drains s (s.put who core kid key bs p) := drains_putBy s who core key _ p _

theorem drains_scrWriteBy (s : State) (who : Option Nat) (at_ : Option Nat × Nat) (bs : List Byte) (p : Bool) :
    Drains s (scrWriteBy s who at_ bs p) := by
  unfold scrWriteBy
  cases at_.1 with
  | none => exact Drains.refl s
  | some b => exact (drains_modBlock s b _ fun _ => rfl).trans (drains_replayLoads _ who _)

theorem drains_spoilRings (s : State) (b off n : Nat) : Drains s (spoilRings s b off n) := by
  unfold spoilRings
  cases s.block b with
  | none => exact Drains.refl s
  | some x =>
    exact Drains.foldl (fun s r => (drains_modBlock s b _ fun _ => rfl).trans (drains_of_mem _ _ _)) _ _

theorem drains_lostStore (s : State) (b : Block) (key : Nat) : Drains s (lostStore s b key) := by
  unfold lostStore
  cases s.gridOf b with
  | none => exact Drains.refl s
  | some g =>
    simp only
    split_ifs
    · exact Drains.refl s
    · let h := Drains.refl s
      refine ⟨rfl, rfl, rfl, rfl, rfl, rfl, rfl, h.cores, fun k => ?_, h.blocks, h.warps⟩
      unfold State.modGrid errRecord State.modDev amod
      simp only
      cases hg : alook (gridKey b.ctx b.gid) s.grids with
      | none => exact h.grids k
      | some g =>
        simp only
        rw [alook_aput]
        split_ifs with e
        · subst e
          exact ⟨g.image.constStored, true, nins ((linkOf s key).getD 0xFFFF) g.lostOn, by rw [hg]; rfl⟩
        · exact h.grids k

theorem drains_scrLand (s : State) (who : Option Nat) (blk o : Nat) (bs : List Byte) (ps : List Bool) :
    Drains s (scrLand s who blk o bs ps) := Drains.foldl (fun s _ => drains_scrWriteBy s _ _ _ _) _ _

/-- A store that reaches its coherence point. -/
theorem drains_land (s : State) (b : Buffered) : Drains s (s.land b) := by
  unfold State.land
  split
  · exact (drains_scrLand s _ _ _ _ _).trans (drains_spoilRings _ _ _ _)
  · split_ifs
    · split
      · exact drains_lostStore s _ _
      · exact Drains.refl s
    · exact drains_put s _ _ _ _ _ _
    · rename_i k _ _ _
      refine (drains_put s (some b.wid) (coreOf s b.wid) b.kid k b.bytes (b.pois.any id)).trans ?_
      refine drains_mapCores _ (fun i x => if some (clusterOf i) == (coreOf s b.wid).map clusterOf then
        x.observe k b.bytes.length (s.dev.now + 1) else x) fun i x => ?_
      split_ifs <;> rfl

theorem drains_cleanWhole (s : State) (l : List Buffered) : Drains s (cleanWhole s l) := by
  unfold cleanWhole
  split_ifs
  · exact Drains.refl s
  · exact drains_of_mem s _ s.free

/-- Dirty bytes of an L1 that are written back. -/
theorem drains_landDirty (s : State) (core : Nat) (f : Buffered → Bool) : Drains s (landDirty s core f) := by
  unfold landDirty
  simp only
  split_ifs
  · exact Drains.refl s
  · exact ((Drains.foldl (fun s (x : Nat × Buffered) => drains_modCore s x.1 _ fun _ => rfl) _ _).trans (Drains.foldl drains_land _ _)).trans
      (drains_cleanWhole _ _)

theorem drains_releaseCore (s : State) (core n : Nat) : Drains s (releaseCore s core n) := by
  unfold releaseCore
  split
  · exact Drains.refl s
  · exact drains_modCore s core _ fun _ => rfl
  · exact drains_landDirty s core _

theorem drains_enterL1 (s : State) (core : Nat) (b : Buffered) : Drains s (s.enterL1 core b) := by
  unfold State.enterL1
  split_ifs
  · exact drains_releaseCore s core _
  · exact drains_land s b
  · exact drains_modCore s core _ fun _ => rfl

theorem drains_leaveBuffer (s : State) (core : Nat) (b : Buffered) : Drains s (s.leaveBuffer core b) := by
  unfold State.leaveBuffer
  split
  · split_ifs
    · exact (drains_landDirty s core _).trans (drains_land _ b)
    · exact drains_enterL1 s core b
  · exact drains_enterL1 s core b

theorem drains_leaveAs (s : State) (wid : Nat) (l : List Buffered) : Drains s (leaveAs s wid l) :=
  Drains.foldl (fun s b => by
    split
    · exact drains_enterL1 s _ b
    · exact drains_land s b) _ _

/-- Some stores of a warp that leave its buffer. -/
theorem drains_flushSome (s : State) (wid : Nat) (f : Buffered → Bool) : Drains s (flushSome s wid f) := by
  unfold flushSome
  cases s.warp wid with
  | none => exact Drains.refl s
  | some w =>
    simp only
    split_ifs
    · exact Drains.refl s
    · exact (drains_modWarp s wid _ fun _ => rfl).trans (drains_leaveAs _ wid _)

/-- The stores of the path that a warp runs leave its buffer. -/
theorem drains_flushPath (s : State) (wid : Nat) : Drains s (flushPath s wid) := by
  unfold flushPath
  cases s.warp wid with
  | none => exact Drains.refl s
  | some w => exact drains_flushSome s wid _

/-- A warp's store buffer that empties. -/
theorem drains_flushStores (s : State) (wid : Nat) : Drains s (flushStores s wid) := by
  unfold flushStores
  cases s.warp wid with
  | none => exact Drains.refl s
  | some w =>
    simp only
    split_ifs
    · exact Drains.refl s
    · exact (drains_modWarp s wid _ fun _ => rfl).trans (drains_leaveAs _ wid _)

theorem drains_settle (s : State) (wid key n : Nat) : Drains s (settle s wid key n) := by
  have one : ∀ c : Bool, Drains s (if c then flushPath s wid else s) := fun c => by
    cases c
    · exact Drains.refl s
    · exact drains_flushPath s wid
  unfold settle
  simp only
  split
  · exact (one _).trans (drains_landDirty _ _ _)
  · exact one _

theorem drains_settleScr (s : State) (wid : Nat) (p : Option Nat × Nat) (n : Nat) : Drains s (settleScr s wid p n) := by
  unfold settleScr
  cases p.1 with
  | none => exact Drains.refl s
  | some b =>
    simp only
    split_ifs
    · exact drains_flushPath s wid
    · exact Drains.refl s

theorem drains_settleLanes (it : Iss) (s : State) (ok : List (Nat × Tgt)) (n : Nat) : Drains s (settleLanes it s ok n) :=
  Drains.foldl (fun s _ => drains_settle s _ _ _) ok s

/-- A release. -/
theorem drains_releaseAt (s : State) (wid : Nat) (sc : Scope) : Drains s (releaseAt s wid sc) := by
  unfold releaseAt
  simp only
  split
  · exact (drains_flushPath s wid).trans (drains_releaseCore _ _ _)
  · exact drains_flushPath s wid

/-- An acquire. -/
theorem drains_acquireAt (s : State) (wid : Nat) (sc : Scope) : Drains s (acquireAt s wid sc) := by
  unfold acquireAt
  split_ifs
  · split
    · exact drains_modCore s _ _ fun _ => rfl
    · exact Drains.refl s
  · exact Drains.refl s

/-- The state in which a word acts, from the state in which it has been counted as issued. -/
theorem drains_started (i : Instr) (s : State) (wid core : Nat) (w : Warp) :
    Drains (issued i s wid core w) (started i s wid core w) := by
  unfold started
  simp only
  split_ifs
  · exact Drains.refl _
  · exact drains_flushPath _ wid

/-- The warp a word acts on: as it issued, but for stores that have left, reservations and loads those made it replay. -/
theorem warp_started {i : Instr} {s s0 : State} {it : Iss} (h : issuing i s = some (it, s0)) :
    ∃ (n : Noted) (b : List Buffered) (r : Sparse Nat) (p : List Pend),
      s0.warp it.wid = some { it.w.atIssue n with sbuf := b, resv := r, pend := p } := by
  obtain ⟨wid, core, slot, w, _, hw, _, rfl, rfl⟩ := issuing_facts h
  have h1 := (issued_facts i s wid core w).2.2.2.2.2.2.2.2.2.2.2.1 wid
  rw [if_pos rfl, hw] at h1
  obtain ⟨n, hn⟩ := issued_warp w i (activeOf i w) s.dev.now
  obtain ⟨b, r, p, h2⟩ := (drains_started i s wid core w).warps wid
  refine ⟨n, b, r, p, h2.trans ?_⟩
  rw [h1]
  exact congrArg some (congrArg (fun x : Warp => { x with sbuf := b, resv := r, pend := p }) hn)

end Sys2Proof.Machine
end

