-- ==== Sys2Proof/Laws/Memory.lean ====
section
/-! SUPPORT. Laws of memory: reading after a write, and that every operation on memory keeps its canonical form. -/

namespace Sys2Proof.Machine

theorem Mem.byte_setByte (m : Mem) (j k : Nat) (b : Byte) : (m.setByte k b).byte j = if j = k then b else m.byte j :=
  sget_sput memDefault m.cells j k b

@[simp] theorem Mem.byte_setByte_self (m : Mem) (k : Nat) (b : Byte) : (m.setByte k b).byte k = b := by
  rw [m.byte_setByte, if_pos rfl]

/-- A byte after some bytes were written. -/
theorem Mem.byte_setBytes (m : Mem) (j k : Nat) (bs : List Byte) :
    (m.setBytes k bs).byte j = if k ≤ j ∧ j < k + bs.length then (bs[j - k]?).getD 0 else m.byte j := by
  induction bs generalizing m k with
  | nil => simp [Mem.setBytes]
  | cons b bs ih =>
    rw [Mem.setBytes, ih, Mem.byte_setByte, List.length_cons]
    rcases lt_trichotomy j k with h | rfl | h
    · rw [if_neg (by omega), if_neg (by omega), if_neg (by omega)]
    · rw [if_neg (by omega), if_pos rfl, if_pos (by omega)]
      simp
    · obtain ⟨d, rfl⟩ : ∃ d, j = k + 1 + d := ⟨j - (k + 1), by omega⟩
      by_cases hd : d < bs.length
      · rw [if_pos (by omega), if_pos (by omega), show k + 1 + d - (k + 1) = d by omega,
          show k + 1 + d - k = d + 1 by omega, List.getElem?_cons_succ]
      · rw [if_neg (by omega), if_neg (by omega), if_neg (by omega)]

/-- Bytes outside those written stay. -/
theorem Mem.byte_setBytes_outside (m : Mem) {j k : Nat} {bs : List Byte} (h : j < k ∨ k + bs.length ≤ j) :
    (m.setBytes k bs).byte j = m.byte j := by
  rw [m.byte_setBytes, if_neg (by omega)]

@[simp] theorem leBytes_length (n x : Nat) : (leBytes n x).length = n := by
  induction n generalizing x with
  | zero => rfl
  | succ n ih => simp [leBytes, ih]

theorem leNat_leBytes (n x : Nat) : leNat (leBytes n x) = x % 2 ^ (8 * n) := by
  induction n generalizing x with
  | zero => simp [leNat, leBytes, Nat.mod_one]
  | succ n ih =>
    rw [leBytes, leNat, ih, BitVec.toNat_ofNat]
    have h : 2 ^ (8 * (n + 1)) = 256 * 2 ^ (8 * n) := by ring
    rw [h, Nat.mod_mul, show (2 : Nat) ^ 8 = 256 by norm_num]

theorem Mem.bytes_length (m : Mem) (k n : Nat) : (m.bytes k n).length = n := by
  induction n generalizing k with
  | zero => rfl
  | succ n ih => simp [Mem.bytes, ih]

theorem Mem.bytes_congr {m m' : Mem} {k n : Nat} (h : ∀ j, k ≤ j → j < k + n → m.byte j = m'.byte j) :
    m.bytes k n = m'.bytes k n := by
  induction n generalizing k with
  | zero => rfl
  | succ n ih =>
    rw [Mem.bytes, Mem.bytes, h k (by omega) (by omega), ih fun j h1 h2 => h j (by omega) (by omega)]

/-- Reading what was just written. -/
theorem Mem.bytes_setBytes (m : Mem) (k : Nat) (bs : List Byte) : (m.setBytes k bs).bytes k bs.length = bs := by
  induction bs generalizing m k with
  | nil => rfl
  | cons b bs ih =>
    rw [List.length_cons, Mem.bytes, Mem.setBytes, ih]
    congr 1
    rw [Mem.byte_setBytes_outside _ (.inl (Nat.lt_succ_self k)), Mem.byte_setByte_self]

/-- A number read where it was written, to its width. -/
theorem Mem.num_setNum (m : Mem) (k n x : Nat) : (m.setNum k n x).num k n = x % 2 ^ (8 * n) := by
  have h := m.bytes_setBytes k (leBytes n x)
  rw [leBytes_length] at h
  rw [Mem.num, Mem.setNum, h, leNat_leBytes]

/-- A number apart from those bytes stays. -/
theorem Mem.num_setBytes_outside (m : Mem) {j k n : Nat} {bs : List Byte} (h : j + n ≤ k ∨ k + bs.length ≤ j) :
    (m.setBytes k bs).num j n = m.num j n := by
  unfold Mem.num
  rw [Mem.bytes_congr fun i h1 h2 => m.byte_setBytes_outside (by omega)]

theorem Mem.wf_setByte {m : Mem} (h : m.wf) (k : Nat) (b : Byte) : (m.setByte k b).wf := canon_sput h k b

theorem Mem.wf_setBytes {m : Mem} (h : m.wf) (k : Nat) (bs : List Byte) : (m.setBytes k bs).wf := by
  induction bs generalizing m k with
  | nil => exact h
  | cons b bs ih => exact ih (Mem.wf_setByte h k b) (k + 1)

theorem Mem.wf_setNum {m : Mem} (h : m.wf) (k n x : Nat) : (m.setNum k n x).wf := Mem.wf_setBytes h k _

@[simp] theorem Mem.cells_setPois (m : Mem) (t : Nat) (p : Bool) : (m.setPois t p).cells = m.cells := rfl

@[simp] theorem Mem.cells_storePois (m : Mem) (k n : Nat) (p : Bool) : (m.storePois k n p).cells = m.cells := by
  unfold Mem.storePois
  induction sectors k n generalizing m with
  | nil => rfl
  | cons t l ih =>
    rw [List.foldl_cons, ih]
    split_ifs <;> rfl

@[simp] theorem Mem.byte_storePois (m : Mem) (k n j : Nat) (p : Bool) : (m.storePois k n p).byte j = m.byte j := by
  rw [Mem.byte, Mem.byte, m.cells_storePois]

theorem Mem.wf_setPois {m : Mem} (h : m.wf) (t : Nat) (p : Bool) : (m.setPois t p).wf := h

theorem Mem.wf_storePois {m : Mem} (h : m.wf) (k n : Nat) (p : Bool) : (m.storePois k n p).wf := by
  rw [Mem.wf, m.cells_storePois]
  exact h

theorem Mem.wf_settleSector {m : Mem} (h : m.wf) (key free t : Nat) : (m.settleSector key free t).wf := by
  unfold Mem.settleSector
  split_ifs
  · exact Mem.wf_setBytes h _ _
  · exact h

theorem Mem.wf_claimSector {m : Mem} (h : m.wf) (key free t : Nat) : (m.claimSector key free t).wf := by
  unfold Mem.claimSector
  simp only
  split_ifs
  · exact Mem.wf_settleSector h key free t
  · exact Mem.wf_settleSector h key free t

theorem Mem.wf_setBytesUnder {m : Mem} (h : m.wf) (key free k : Nat) (bs : List Byte) :
    (m.setBytesUnder key free k bs).wf := by
  unfold Mem.setBytesUnder
  refine Mem.wf_setBytes ?_ k bs
  induction sectors k bs.length generalizing m with
  | nil => exact h
  | cons t l ih => exact ih (Mem.wf_claimSector h key free t)

/-- A sector whose value is specified for the writer keeps its bytes when it is taken over. -/
theorem Mem.byte_claimSector (m : Mem) (key free t j : Nat) (h : m.unknown key t = false) :
    (m.claimSector key free t).byte j = m.byte j := by
  unfold Mem.claimSector Mem.settleSector
  simp only [h, Bool.false_eq_true, if_false]
  split_ifs <;> rfl

theorem sorted_filter {α : Type} (p : Nat × α → Bool) {m : Sparse α} (h : Sorted m = true) :
    Sorted (m.filter p) = true := by
  induction m with
  | nil => rfl
  | cons d m ih =>
    rw [List.filter_cons]
    split_ifs
    · exact sorted_of_tail_above (ih (sorted_tail h)) fun e he =>
        sorted_tail_above h e (List.mem_of_mem_filter he)
    · exact ih (sorted_tail h)

/-- Dropping entries keeps the canonical form. -/
theorem canon_filter {α : Type} [DecidableEq α] {d : α} {m : Sparse α} (h : Canon d m = true) (p : Nat × α → Bool) :
    Canon d (m.filter p) = true := by
  simp only [Canon, Bool.and_eq_true, List.all_eq_true] at h ⊢
  exact ⟨sorted_filter p h.1, fun e he => h.2 e (List.mem_of_mem_filter he)⟩

theorem Mem.wf_zeroPage {m : Mem} (h : m.wf) (key k : Nat) : (m.zeroPage key k).wf := canon_filter h _

theorem Mem.wf_forget {m : Mem} (h : m.wf) (rs : List (Nat × Nat)) : (m.forget rs).wf := h

theorem Mem.wf_afterReset {m : Mem} (h : m.wf) : m.afterReset.wf := h

/-- After reset memory lists nothing. -/
theorem reset_mem_wf : State.reset.mem.wf := rfl

/-- A change of memory that keeps its form keeps it in the state. -/
theorem State.wf_modMem {s : State} {f : Mem → Mem} (h : s.mem.wf) (hf : ∀ m : Mem, m.wf → (f m).wf) :
    (s.modMem f).mem.wf := hf _ h

end Sys2Proof.Machine
end

