-- ==== Sys2Proof/Laws/PerInstr.lean ====
section
/-! SUPPORT. One lemma per instruction: its OP and MOD fit their fields, and building an instruction from its parts gives it
back (R41 to R43, R52). -/

namespace Sys2Proof.Laws.Rebuilt

open Sys2Proof

set_option Elab.async false

/-- The parts of the instruction fit their fields, and give the instruction back; only words with an immediate look at the
24-bit field. -/
def Statement (i : Instr) : Prop :=
  ∀ p, i.parts = some p → p.op < 2 ^ 8 ∧ p.m < 2 ^ 12 ∧ buildWord p.op p.o p.off p.m = some i
    ∧ (p.op = 0x01 ∨ p.op = 0x03 ∨ p.op = 0x2c ∨ p.off = 0 ∧ ∀ off, buildWord p.op p.o off p.m = some i)

theorem of_none {i : Instr} (h : i.parts = none) : Statement i := by
  intro p hp
  exact absurd (h.symm.trans hp) (by simp)

theorem of_imm {i : Instr} {p : Parts} (h : i.parts = some p) (h1 : p.op = 0x01 ∨ p.op = 0x03 ∨ p.op = 0x2c)
    (h2 : p.m < 2 ^ 12) (h3 : buildWord p.op p.o p.off p.m = some i) : Statement i := by
  intro q hq
  cases h.symm.trans hq
  exact ⟨by omega, h2, h3, by tauto⟩

theorem of_build {i : Instr} {p : Parts} (h : i.parts = some p) (h1 : p.op < 2 ^ 8) (h2 : p.m < 2 ^ 12) (h3 : p.off = 0)
    (h4 : ∀ off, buildWord p.op p.o off p.m = some i) : Statement i := by
  intro q hq
  cases h.symm.trans hq
  exact ⟨h1, h2, h4 _, .inr (.inr (.inr ⟨h3, h4⟩))⟩

theorem bit (b : Bool) : (b.toNat == 1) = b := by cases b <;> rfl

theorem bits {n : Nat} (x : BitVec n) : BitVec.ofNat n x.toNat = x := by simp

theorem low {n : Nat} [NeZero n] (x : Fin n) : Fin.ofNat n x.val = x := by simp

theorem finOf_val {n : Nat} (x : Fin n) : finOf n x.val = some x := by simp [finOf]

theorem atOpCode (x : AtOp) : x.code < 16 ∧ AtOp.ofCode x.code = some x := by cases x <;> decide

theorem atOrdCode (x : AtOrd) : x.code < 4 ∧ AtOrd.ofCode x.code = some x := by cases x <;> decide

theorem bankModeCode (x : BankMode) : x.code < 4 ∧ BankMode.ofCode x.code = some x := by cases x <;> decide

theorem cacheHintCode (x : CacheHint) : x.code < 4 ∧ CacheHint.ofCode x.code = some x := by cases x <;> decide

theorem cctlOpCode (x : CctlOp) : x.code < 8 ∧ CctlOp.ofCode x.code = some x := by cases x <;> decide

theorem combCode (x : Comb) : x.code < 4 ∧ Comb.ofCode x.code = some x := by cases x <;> decide

theorem csrCode (x : Csr) : x.code < 256 ∧ Csr.ofCode x.code = some x := by cases x <;> decide

theorem cvtFmtCode (x : CvtFmt) : x.code < 16 ∧ CvtFmt.ofCode x.code = some x := by cases x <;> decide

theorem escOpCode (x : EscOp) : x.code < 4 ∧ EscOp.ofCode x.code = some x := by cases x <;> decide

theorem fCmpCode (x : FCmp) : x.code < 16 ∧ FCmp.ofCode x.code = some x := by cases x <;> decide

theorem fenceKindCode (x : FenceKind) : x.code < 4 ∧ FenceKind.ofCode x.code = some x := by cases x <;> decide

theorem iCmpCode (x : ICmp) : x.code < 8 ∧ ICmp.ofCode x.code = some x := by cases x <;> decide

theorem invKindCode (x : InvKind) : x.code < 4 ∧ InvKind.ofCode x.code = some x := by cases x <;> decide

theorem ldOrdCode (x : LdOrd) : x.code < 4 ∧ LdOrd.ofCode x.code = some x := by cases x <;> decide

theorem memWCode (x : MemW) : x.code < 8 ∧ MemW.ofCode x.code = some x := by cases x <;> decide

theorem mulModeCode (x : MulMode) : x.code < 4 ∧ MulMode.ofCode x.code = some x := by cases x <;> decide

theorem prefLevelCode (x : PrefLevel) : x.code < 4 ∧ PrefLevel.ofCode x.code = some x := by cases x <;> decide

theorem provqModeCode (x : ProvqMode) : x.code < 4 ∧ ProvqMode.ofCode x.code = some x := by cases x <;> decide

theorem rMCode (x : RM) : x.code < 4 ∧ RM.ofCode x.code = some x := by cases x <;> decide

theorem redOpCode (x : RedOp) : x.code < 8 ∧ RedOp.ofCode x.code = some x := by cases x <;> decide

theorem sRegCode (x : SReg) : x.code < 32 ∧ SReg.ofCode x.code = some x := by cases x <;> decide

theorem scopeCode (x : Scope) : x.code < 8 ∧ Scope.ofCode x.code = some x := by cases x <;> decide

theorem setFmtFormCode (x : SetFmtForm) : x.code < 4 ∧ SetFmtForm.ofCode x.code = some x := by cases x <;> decide

theorem shiftKindCode (x : ShiftKind) : x.code < 4 ∧ ShiftKind.ofCode x.code = some x := by cases x <;> decide

theorem sldWCode (x : SldW) : x.code < 4 ∧ SldW.ofCode x.code = some x := by cases x <;> decide

theorem stOrdCode (x : StOrd) : x.code < 4 ∧ StOrd.ofCode x.code = some x := by cases x <;> decide

theorem voteKindCode (x : VoteKind) : x.code < 4 ∧ VoteKind.ofCode x.code = some x := by cases x <;> decide

theorem xModeCode (x : XMode) : x.code < 4 ∧ XMode.ofCode x.code = some x := by cases x <;> decide

theorem clauseDispatch (core : Nat) (slot : Nat) : Statement (.clauseDispatch core slot) := of_none rfl

theorem warpAged (core : Nat) (slot : Nat) : Statement (.warpAged core slot) := of_none rfl

theorem docentEvaluation (core : Nat) : Statement (.docentEvaluation core) := of_none rfl

theorem demotionComplete (core : Nat) (slot : Nat) : Statement (.demotionComplete core slot) := of_none rfl

theorem fairnessSwitch (core : Nat) (slot : Nat) : Statement (.fairnessSwitch core slot) := of_none rfl

theorem fairnessDeferExpiry (core : Nat) (slot : Nat) : Statement (.fairnessDeferExpiry core slot) := of_none rfl

theorem longLatencyComplete (core : Nat) (slot : Nat) (k : Nat) : Statement (.longLatencyComplete core slot k) := of_none
    rfl

theorem sliceRetire (core : Nat) (slot : Nat) (sl : Nat) : Statement (.sliceRetire core slot sl) := of_none rfl

theorem cellRefill (core : Nat) (slot : Nat) : Statement (.cellRefill core slot) := of_none rfl

theorem missStatusReissue (core : Nat) : Statement (.missStatusReissue core) := of_none rfl

theorem missStatusReservationExpiry (core : Nat) : Statement (.missStatusReservationExpiry core) := of_none rfl

theorem waitComplete (core : Nat) (slot : Nat) : Statement (.waitComplete core slot) := of_none rfl

theorem napExpiry (core : Nat) (slot : Nat) : Statement (.napExpiry core slot) := of_none rfl

theorem asyncFaultDelivery (core : Nat) (slot : Nat) : Statement (.asyncFaultDelivery core slot) := of_none rfl

theorem partitionResetComplete (die : Nat) (failed : List Nat) : Statement (.partitionResetComplete die failed) := of_none
    rfl

theorem linkRetrainComplete (link : Nat) : Statement (.linkRetrainComplete link) := of_none rfl

theorem linkDownTimeout (link : Nat) : Statement (.linkDownTimeout link) := of_none rfl

theorem curatorScanComplete (core : Nat) (pass : Bool) : Statement (.curatorScanComplete core pass) := of_none rfl

theorem dumpWrite (ctx : Nat) : Statement (.dumpWrite ctx) := of_none rfl

theorem contextCreation (ctx : Nat) (desc : ContextFields) : Statement (.contextCreation ctx desc) := of_none rfl

theorem contextDestruction (ctx : Nat) : Statement (.contextDestruction ctx) := of_none rfl

theorem bootSequence (ev : BootEvent) : Statement (.bootSequence ev) := of_none rfl

theorem hostMemoryAccess (acc : HostAccess) : Statement (.hostMemoryAccess acc) := of_none rfl

theorem registerWrite (offset : Nat) (val : BitVec 64) : Statement (.registerWrite offset val) := of_none rfl

theorem engineResetComplete (matrix : Bool) (core : Nat) : Statement (.engineResetComplete matrix core) := of_none rfl

theorem tlbinvComplete (core : Nat) (slot : Nat) : Statement (.tlbinvComplete core slot) := of_none rfl

theorem icinvComplete (core : Nat) (slot : Nat) : Statement (.icinvComplete core slot) := of_none rfl

theorem copyCommandFault (core : Nat) (sq : BitVec 32) : Statement (.copyCommandFault core sq) := of_none rfl

theorem pairWord (h1 : PairHalf) (h2 : PairHalf) : Statement (.pairWord h1 h2) := of_none rfl

theorem nop (o : Opnds) : Statement (.nop o) := by
  refine of_build rfl (show 0 < 2 ^ 8 by decide) (show 0 < 2 ^ 12 by omega) rfl fun off => ?_
  rfl

theorem bra (o : Opnds) (off : BitVec 24) (uni : Bool) : Statement (.bra o off uni) := by
  have huni := uni.toNat_lt
  refine of_imm rfl (show 1 = 0x01 ∨ 1 = 0x03 ∨ 1 = 0x2c by decide) (show uni.toNat < 2 ^ 12 by omega) ?_
  show (some (.bra o off (fld (uni.toNat) 0 1 == 1)) : Option Instr) = _
  rw [show fld (uni.toNat) 0 1 = uni.toNat from (by omega : (uni.toNat) / 2 ^ 0 % 2 ^ 1 = uni.toNat)]
  simp only [bit]

theorem bri (o : Opnds) : Statement (.bri o) := by
  refine of_build rfl (show 2 < 2 ^ 8 by decide) (show 0 < 2 ^ 12 by omega) rfl fun off => ?_
  rfl

theorem call (o : Opnds) (off : BitVec 24) : Statement (.call o off) := by
  refine of_imm rfl (show 3 = 0x01 ∨ 3 = 0x03 ∨ 3 = 0x2c by decide) (show 0 < 2 ^ 12 by omega) ?_
  rfl

theorem calli (o : Opnds) : Statement (.calli o) := by
  refine of_build rfl (show 4 < 2 ^ 8 by decide) (show 0 < 2 ^ 12 by omega) rfl fun off => ?_
  rfl

theorem ret (o : Opnds) : Statement (.ret o) := by
  refine of_build rfl (show 5 < 2 ^ 8 by decide) (show 0 < 2 ^ 12 by omega) rfl fun off => ?_
  rfl

theorem exit (o : Opnds) : Statement (.exit o) := by
  refine of_build rfl (show 6 < 2 ^ 8 by decide) (show 0 < 2 ^ 12 by omega) rfl fun off => ?_
  rfl

theorem yield (o : Opnds) : Statement (.yield o) := by
  refine of_build rfl (show 7 < 2 ^ 8 by decide) (show 0 < 2 ^ 12 by omega) rfl fun off => ?_
  rfl

theorem nap (o : Opnds) : Statement (.nap o) := by
  refine of_build rfl (show 8 < 2 ^ 8 by decide) (show 0 < 2 ^ 12 by omega) rfl fun off => ?_
  rfl

theorem fwait (o : Opnds) (mask : BitVec 12) : Statement (.fwait o mask) := by
  have hmask := mask.isLt
  refine of_build rfl (show 9 < 2 ^ 8 by decide) (show mask.toNat < 2 ^ 12 by omega) rfl fun off => ?_
  show (some (.fwait o (BitVec.ofNat 12 (fld (mask.toNat) 0 12))) : Option Instr) = _
  rw [show fld (mask.toNat) 0 12 = mask.toNat from (by omega : (mask.toNat) / 2 ^ 0 % 2 ^ 12 = mask.toNat)]
  simp only [bits]

theorem setfmt (o : Opnds) (form : SetFmtForm) : Statement (.setfmt o form) := by
  have hform := setFmtFormCode form
  refine of_build rfl (show 10 < 2 ^ 8 by decide) (show form.code < 2 ^ 12 by omega) rfl fun off => ?_
  show ((SetFmtForm.ofCode (fld (form.code) 0 2)).bind fun form1 => some (.setfmt o form1) : Option Instr) = _
  rw [show fld (form.code) 0 2 = form.code from (by omega : (form.code) / 2 ^ 0 % 2 ^ 2 = form.code)]
  simp only [hform.2, Option.bind_some]

theorem getfmt (o : Opnds) : Statement (.getfmt o) := by
  refine of_build rfl (show 11 < 2 ^ 8 by decide) (show 0 < 2 ^ 12 by omega) rfl fun off => ?_
  rfl

theorem brk (o : Opnds) (code : BitVec 8) : Statement (.brk o code) := by
  have hcode := code.isLt
  refine of_build rfl (show 12 < 2 ^ 8 by decide) (show code.toNat < 2 ^ 12 by omega) rfl fun off => ?_
  show (some (.brk o (BitVec.ofNat 8 (fld (code.toNat) 0 8))) : Option Instr) = _
  rw [show fld (code.toNat) 0 8 = code.toNat from (by omega : (code.toNat) / 2 ^ 0 % 2 ^ 8 = code.toNat)]
  simp only [bits]

theorem trap (o : Opnds) (code : BitVec 8) : Statement (.trap o code) := by
  have hcode := code.isLt
  refine of_build rfl (show 13 < 2 ^ 8 by decide) (show code.toNat < 2 ^ 12 by omega) rfl fun off => ?_
  show (some (.trap o (BitVec.ofNat 8 (fld (code.toNat) 0 8))) : Option Instr) = _
  rw [show fld (code.toNat) 0 8 = code.toNat from (by omega : (code.toNat) / 2 ^ 0 % 2 ^ 8 = code.toNat)]
  simp only [bits]

theorem sprint (o : Opnds) (clr : Bool) : Statement (.sprint o clr) := by
  have hclr := clr.toNat_lt
  refine of_build rfl (show 14 < 2 ^ 8 by decide) (show clr.toNat < 2 ^ 12 by omega) rfl fun off => ?_
  show (some (.sprint o (fld (clr.toNat) 0 1 == 1)) : Option Instr) = _
  rw [show fld (clr.toNat) 0 1 = clr.toNat from (by omega : (clr.toNat) / 2 ^ 0 % 2 ^ 1 = clr.toNat)]
  simp only [bit]

theorem smov (o : Opnds) : Statement (.smov o) := by
  refine of_build rfl (show 16 < 2 ^ 8 by decide) (show 0 < 2 ^ 12 by omega) rfl fun off => ?_
  rfl

theorem sadd (o : Opnds) (sat : Bool) : Statement (.sadd o sat) := by
  have hsat := sat.toNat_lt
  refine of_build rfl (show 17 < 2 ^ 8 by decide) (show sat.toNat < 2 ^ 12 by omega) rfl fun off => ?_
  show (some (.sadd o (fld (sat.toNat) 0 1 == 1)) : Option Instr) = _
  rw [show fld (sat.toNat) 0 1 = sat.toNat from (by omega : (sat.toNat) / 2 ^ 0 % 2 ^ 1 = sat.toNat)]
  simp only [bit]

theorem ssub (o : Opnds) (sat : Bool) : Statement (.ssub o sat) := by
  have hsat := sat.toNat_lt
  refine of_build rfl (show 18 < 2 ^ 8 by decide) (show sat.toNat < 2 ^ 12 by omega) rfl fun off => ?_
  show (some (.ssub o (fld (sat.toNat) 0 1 == 1)) : Option Instr) = _
  rw [show fld (sat.toNat) 0 1 = sat.toNat from (by omega : (sat.toNat) / 2 ^ 0 % 2 ^ 1 = sat.toNat)]
  simp only [bit]

theorem smul (o : Opnds) (mode : MulMode) : Statement (.smul o mode) := by
  have hmode := mulModeCode mode
  refine of_build rfl (show 19 < 2 ^ 8 by decide) (show mode.code < 2 ^ 12 by omega) rfl fun off => ?_
  show ((MulMode.ofCode (fld (mode.code) 0 2)).bind fun mode1 => some (.smul o mode1) : Option Instr) = _
  rw [show fld (mode.code) 0 2 = mode.code from (by omega : (mode.code) / 2 ^ 0 % 2 ^ 2 = mode.code)]
  simp only [hmode.2, Option.bind_some]

theorem smad (o : Opnds) (mode : MulMode) : Statement (.smad o mode) := by
  have hmode := mulModeCode mode
  refine of_build rfl (show 20 < 2 ^ 8 by decide) (show mode.code < 2 ^ 12 by omega) rfl fun off => ?_
  show ((MulMode.ofCode (fld (mode.code) 0 2)).bind fun mode1 => some (.smad o mode1) : Option Instr) = _
  rw [show fld (mode.code) 0 2 = mode.code from (by omega : (mode.code) / 2 ^ 0 % 2 ^ 2 = mode.code)]
  simp only [hmode.2, Option.bind_some]

theorem slop (o : Opnds) (fn : BitVec 8) : Statement (.slop o fn) := by
  have hfn := fn.isLt
  refine of_build rfl (show 21 < 2 ^ 8 by decide) (show fn.toNat < 2 ^ 12 by omega) rfl fun off => ?_
  show (some (.slop o (BitVec.ofNat 8 (fld (fn.toNat) 0 8))) : Option Instr) = _
  rw [show fld (fn.toNat) 0 8 = fn.toNat from (by omega : (fn.toNat) / 2 ^ 0 % 2 ^ 8 = fn.toNat)]
  simp only [bits]

theorem sshf (o : Opnds) (kind : ShiftKind) : Statement (.sshf o kind) := by
  have hkind := shiftKindCode kind
  refine of_build rfl (show 22 < 2 ^ 8 by decide) (show kind.code < 2 ^ 12 by omega) rfl fun off => ?_
  show ((ShiftKind.ofCode (fld (kind.code) 0 2)).bind fun kind1 => some (.sshf o kind1) : Option Instr) = _
  rw [show fld (kind.code) 0 2 = kind.code from (by omega : (kind.code) / 2 ^ 0 % 2 ^ 2 = kind.code)]
  simp only [hkind.2, Option.bind_some]

theorem ssetp (o : Opnds) (cmp : ICmp) (comb : Comb) : Statement (.ssetp o cmp comb) := by
  have hcmp := iCmpCode cmp
  have hcomb := combCode comb
  refine of_build rfl (show 23 < 2 ^ 8 by decide) (show cmp.code + 8 * comb.code < 2 ^ 12 by omega) rfl fun off => ?_
  show ((ICmp.ofCode (fld (cmp.code + 8 * comb.code) 0 3)).bind fun cmp1 => (Comb.ofCode (fld (cmp.code + 8 * comb.code) 3
      2)).bind fun comb1 => some (.ssetp o cmp1 comb1) : Option Instr) = _
  rw [show fld (cmp.code + 8 * comb.code) 0 3 = cmp.code from (by omega : (cmp.code + 8 * comb.code) / 2 ^ 0 % 2 ^ 3 =
      cmp.code),
    show fld (cmp.code + 8 * comb.code) 3 2 = comb.code from (by omega : (cmp.code + 8 * comb.code) / 2 ^ 3 % 2 ^ 2 =
        comb.code)]
  simp only [hcmp.2, hcomb.2, Option.bind_some]

theorem ssel (o : Opnds) (negc : Bool) : Statement (.ssel o negc) := by
  have hnegc := negc.toNat_lt
  refine of_build rfl (show 24 < 2 ^ 8 by decide) (show negc.toNat < 2 ^ 12 by omega) rfl fun off => ?_
  show (some (.ssel o (fld (negc.toNat) 0 1 == 1)) : Option Instr) = _
  rw [show fld (negc.toNat) 0 1 = negc.toNat from (by omega : (negc.toNat) / 2 ^ 0 % 2 ^ 1 = negc.toNat)]
  simp only [bit]

theorem sld (o : Opnds) (w : SldW) (ord : LdOrd) (scope : Scope) : Statement (.sld o w ord scope) := by
  have hw := sldWCode w
  have hord := ldOrdCode ord
  have hscope := scopeCode scope
  refine of_build rfl (show 25 < 2 ^ 8 by decide) (show w.code + 4 * ord.code + 16 * scope.code < 2 ^ 12 by omega) rfl fun
      off => ?_
  show ((SldW.ofCode (fld (w.code + 4 * ord.code + 16 * scope.code) 0 2)).bind fun w1 => (LdOrd.ofCode (fld (w.code + 4 *
      ord.code + 16 * scope.code) 2 2)).bind fun ord1 => (Scope.ofCode (fld (w.code + 4 * ord.code + 16 * scope.code) 4
      3)).bind fun scope1 => some (.sld o w1 ord1 scope1) : Option Instr) = _
  rw [show fld (w.code + 4 * ord.code + 16 * scope.code) 0 2 = w.code from (by omega : (w.code + 4 * ord.code + 16 *
      scope.code) / 2 ^ 0 % 2 ^ 2 = w.code),
    show fld (w.code + 4 * ord.code + 16 * scope.code) 2 2 = ord.code from (by omega : (w.code + 4 * ord.code + 16 *
        scope.code) / 2 ^ 2 % 2 ^ 2 = ord.code),
    show fld (w.code + 4 * ord.code + 16 * scope.code) 4 3 = scope.code from (by omega : (w.code + 4 * ord.code + 16 *
        scope.code) / 2 ^ 4 % 2 ^ 3 = scope.code)]
  simp only [hw.2, hord.2, hscope.2, Option.bind_some]

theorem sread (o : Opnds) (sreg : SReg) : Statement (.sread o sreg) := by
  have hsreg := sRegCode sreg
  refine of_build rfl (show 26 < 2 ^ 8 by decide) (show sreg.code < 2 ^ 12 by omega) rfl fun off => ?_
  show ((SReg.ofCode (fld (sreg.code) 0 5)).bind fun sreg1 => some (.sread o sreg1) : Option Instr) = _
  rw [show fld (sreg.code) 0 5 = sreg.code from (by omega : (sreg.code) / 2 ^ 0 % 2 ^ 5 = sreg.code)]
  simp only [hsreg.2, Option.bind_some]

theorem vote (o : Opnds) (kind : VoteKind) (nega : Bool) : Statement (.vote o kind nega) := by
  have hkind := voteKindCode kind
  have hnega := nega.toNat_lt
  refine of_build rfl (show 27 < 2 ^ 8 by decide) (show kind.code + 4 * nega.toNat < 2 ^ 12 by omega) rfl fun off => ?_
  show ((VoteKind.ofCode (fld (kind.code + 4 * nega.toNat) 0 2)).bind fun kind1 => some (.vote o kind1 (fld (kind.code + 4
      * nega.toNat) 2 1 == 1)) : Option Instr) = _
  rw [show fld (kind.code + 4 * nega.toNat) 0 2 = kind.code from (by omega : (kind.code + 4 * nega.toNat) / 2 ^ 0 % 2 ^ 2 =
      kind.code),
    show fld (kind.code + 4 * nega.toNat) 2 1 = nega.toNat from (by omega : (kind.code + 4 * nega.toNat) / 2 ^ 2 % 2 ^ 1 =
        nega.toNat)]
  simp only [hkind.2, bit, Option.bind_some]

theorem spop (o : Opnds) : Statement (.spop o) := by
  refine of_build rfl (show 28 < 2 ^ 8 by decide) (show 0 < 2 ^ 12 by omega) rfl fun off => ?_
  rfl

theorem iadd (o : Opnds) (sat : Bool) : Statement (.iadd o sat) := by
  have hsat := sat.toNat_lt
  refine of_build rfl (show 32 < 2 ^ 8 by decide) (show sat.toNat < 2 ^ 12 by omega) rfl fun off => ?_
  show (some (.iadd o (fld (sat.toNat) 0 1 == 1)) : Option Instr) = _
  rw [show fld (sat.toNat) 0 1 = sat.toNat from (by omega : (sat.toNat) / 2 ^ 0 % 2 ^ 1 = sat.toNat)]
  simp only [bit]

theorem isub (o : Opnds) (sat : Bool) : Statement (.isub o sat) := by
  have hsat := sat.toNat_lt
  refine of_build rfl (show 33 < 2 ^ 8 by decide) (show sat.toNat < 2 ^ 12 by omega) rfl fun off => ?_
  show (some (.isub o (fld (sat.toNat) 0 1 == 1)) : Option Instr) = _
  rw [show fld (sat.toNat) 0 1 = sat.toNat from (by omega : (sat.toNat) / 2 ^ 0 % 2 ^ 1 = sat.toNat)]
  simp only [bit]

theorem imul (o : Opnds) (mode : MulMode) : Statement (.imul o mode) := by
  have hmode := mulModeCode mode
  refine of_build rfl (show 34 < 2 ^ 8 by decide) (show mode.code < 2 ^ 12 by omega) rfl fun off => ?_
  show ((MulMode.ofCode (fld (mode.code) 0 2)).bind fun mode1 => some (.imul o mode1) : Option Instr) = _
  rw [show fld (mode.code) 0 2 = mode.code from (by omega : (mode.code) / 2 ^ 0 % 2 ^ 2 = mode.code)]
  simp only [hmode.2, Option.bind_some]

theorem imad (o : Opnds) (mode : MulMode) : Statement (.imad o mode) := by
  have hmode := mulModeCode mode
  refine of_build rfl (show 35 < 2 ^ 8 by decide) (show mode.code < 2 ^ 12 by omega) rfl fun off => ?_
  show ((MulMode.ofCode (fld (mode.code) 0 2)).bind fun mode1 => some (.imad o mode1) : Option Instr) = _
  rw [show fld (mode.code) 0 2 = mode.code from (by omega : (mode.code) / 2 ^ 0 % 2 ^ 2 = mode.code)]
  simp only [hmode.2, Option.bind_some]

theorem imin (o : Opnds) : Statement (.imin o) := by
  refine of_build rfl (show 36 < 2 ^ 8 by decide) (show 0 < 2 ^ 12 by omega) rfl fun off => ?_
  rfl

theorem imax (o : Opnds) : Statement (.imax o) := by
  refine of_build rfl (show 37 < 2 ^ 8 by decide) (show 0 < 2 ^ 12 by omega) rfl fun off => ?_
  rfl

theorem iabs (o : Opnds) (sat : Bool) : Statement (.iabs o sat) := by
  have hsat := sat.toNat_lt
  refine of_build rfl (show 38 < 2 ^ 8 by decide) (show sat.toNat < 2 ^ 12 by omega) rfl fun off => ?_
  show (some (.iabs o (fld (sat.toNat) 0 1 == 1)) : Option Instr) = _
  rw [show fld (sat.toNat) 0 1 = sat.toNat from (by omega : (sat.toNat) / 2 ^ 0 % 2 ^ 1 = sat.toNat)]
  simp only [bit]

theorem isad (o : Opnds) : Statement (.isad o) := by
  refine of_build rfl (show 39 < 2 ^ 8 by decide) (show 0 < 2 ^ 12 by omega) rfl fun off => ?_
  rfl

theorem isetp (o : Opnds) (cmp : ICmp) (comb : Comb) : Statement (.isetp o cmp comb) := by
  have hcmp := iCmpCode cmp
  have hcomb := combCode comb
  refine of_build rfl (show 40 < 2 ^ 8 by decide) (show cmp.code + 8 * comb.code < 2 ^ 12 by omega) rfl fun off => ?_
  show ((ICmp.ofCode (fld (cmp.code + 8 * comb.code) 0 3)).bind fun cmp1 => (Comb.ofCode (fld (cmp.code + 8 * comb.code) 3
      2)).bind fun comb1 => some (.isetp o cmp1 comb1) : Option Instr) = _
  rw [show fld (cmp.code + 8 * comb.code) 0 3 = cmp.code from (by omega : (cmp.code + 8 * comb.code) / 2 ^ 0 % 2 ^ 3 =
      cmp.code),
    show fld (cmp.code + 8 * comb.code) 3 2 = comb.code from (by omega : (cmp.code + 8 * comb.code) / 2 ^ 3 % 2 ^ 2 =
        comb.code)]
  simp only [hcmp.2, hcomb.2, Option.bind_some]

theorem sel (o : Opnds) (negc : Bool) : Statement (.sel o negc) := by
  have hnegc := negc.toNat_lt
  refine of_build rfl (show 41 < 2 ^ 8 by decide) (show negc.toNat < 2 ^ 12 by omega) rfl fun off => ?_
  show (some (.sel o (fld (negc.toNat) 0 1 == 1)) : Option Instr) = _
  rw [show fld (negc.toNat) 0 1 = negc.toNat from (by omega : (negc.toNat) / 2 ^ 0 % 2 ^ 1 = negc.toNat)]
  simp only [bit]

theorem lea (o : Opnds) (sh : Fin 8) : Statement (.lea o sh) := by
  have hsh := sh.isLt
  refine of_build rfl (show 42 < 2 ^ 8 by decide) (show sh.val < 2 ^ 12 by omega) rfl fun off => ?_
  show (some (.lea o (Fin.ofNat 8 (fld (sh.val) 0 3))) : Option Instr) = _
  rw [show fld (sh.val) 0 3 = sh.val from (by omega : (sh.val) / 2 ^ 0 % 2 ^ 3 = sh.val)]
  simp only [low]

theorem mov (o : Opnds) : Statement (.mov o) := by
  refine of_build rfl (show 43 < 2 ^ 8 by decide) (show 0 < 2 ^ 12 by omega) rfl fun off => ?_
  rfl

theorem movi (o : Opnds) (off : BitVec 24) : Statement (.movi o off) := by
  refine of_imm rfl (show 44 = 0x01 ∨ 44 = 0x03 ∨ 44 = 0x2c by decide) (show 0 < 2 ^ 12 by omega) ?_
  rfl

theorem idp4 (o : Opnds) (bsign : Bool) (sat : Bool) : Statement (.idp4 o bsign sat) := by
  have hbsign := bsign.toNat_lt
  have hsat := sat.toNat_lt
  refine of_build rfl (show 45 < 2 ^ 8 by decide) (show bsign.toNat + 2 * sat.toNat < 2 ^ 12 by omega) rfl fun off => ?_
  show (some (.idp4 o (fld (bsign.toNat + 2 * sat.toNat) 0 1 == 1) (fld (bsign.toNat + 2 * sat.toNat) 1 1 == 1)) : Option
      Instr) = _
  rw [show fld (bsign.toNat + 2 * sat.toNat) 0 1 = bsign.toNat from (by omega : (bsign.toNat + 2 * sat.toNat) / 2 ^ 0 % 2 ^
      1 = bsign.toNat),
    show fld (bsign.toNat + 2 * sat.toNat) 1 1 = sat.toNat from (by omega : (bsign.toNat + 2 * sat.toNat) / 2 ^ 1 % 2 ^ 1 =
        sat.toNat)]
  simp only [bit]

theorem bitfn (o : Opnds) (fn : BitVec 8) : Statement (.bitfn o fn) := by
  have hfn := fn.isLt
  refine of_build rfl (show 48 < 2 ^ 8 by decide) (show fn.toNat < 2 ^ 12 by omega) rfl fun off => ?_
  show (some (.bitfn o (BitVec.ofNat 8 (fld (fn.toNat) 0 8))) : Option Instr) = _
  rw [show fld (fn.toNat) 0 8 = fn.toNat from (by omega : (fn.toNat) / 2 ^ 0 % 2 ^ 8 = fn.toNat)]
  simp only [bits]

theorem shl (o : Opnds) (wrap : Bool) : Statement (.shl o wrap) := by
  have hwrap := wrap.toNat_lt
  refine of_build rfl (show 49 < 2 ^ 8 by decide) (show wrap.toNat < 2 ^ 12 by omega) rfl fun off => ?_
  show (some (.shl o (fld (wrap.toNat) 0 1 == 1)) : Option Instr) = _
  rw [show fld (wrap.toNat) 0 1 = wrap.toNat from (by omega : (wrap.toNat) / 2 ^ 0 % 2 ^ 1 = wrap.toNat)]
  simp only [bit]

theorem shr (o : Opnds) (wrap : Bool) : Statement (.shr o wrap) := by
  have hwrap := wrap.toNat_lt
  refine of_build rfl (show 50 < 2 ^ 8 by decide) (show wrap.toNat < 2 ^ 12 by omega) rfl fun off => ?_
  show (some (.shr o (fld (wrap.toNat) 0 1 == 1)) : Option Instr) = _
  rw [show fld (wrap.toNat) 0 1 = wrap.toNat from (by omega : (wrap.toNat) / 2 ^ 0 % 2 ^ 1 = wrap.toNat)]
  simp only [bit]

theorem fwin (o : Opnds) (wrap : Bool) (sfill : Bool) : Statement (.fwin o wrap sfill) := by
  have hwrap := wrap.toNat_lt
  have hsfill := sfill.toNat_lt
  refine of_build rfl (show 51 < 2 ^ 8 by decide) (show wrap.toNat + 2 * sfill.toNat < 2 ^ 12 by omega) rfl fun off => ?_
  show (some (.fwin o (fld (wrap.toNat + 2 * sfill.toNat) 0 1 == 1) (fld (wrap.toNat + 2 * sfill.toNat) 1 1 == 1)) : Option
      Instr) = _
  rw [show fld (wrap.toNat + 2 * sfill.toNat) 0 1 = wrap.toNat from (by omega : (wrap.toNat + 2 * sfill.toNat) / 2 ^ 0 % 2
      ^ 1 = wrap.toNat),
    show fld (wrap.toNat + 2 * sfill.toNat) 1 1 = sfill.toNat from (by omega : (wrap.toNat + 2 * sfill.toNat) / 2 ^ 1 % 2 ^
        1 = sfill.toNat)]
  simp only [bit]

theorem bfe (o : Opnds) : Statement (.bfe o) := by
  refine of_build rfl (show 52 < 2 ^ 8 by decide) (show 0 < 2 ^ 12 by omega) rfl fun off => ?_
  rfl

theorem bfi (o : Opnds) : Statement (.bfi o) := by
  refine of_build rfl (show 53 < 2 ^ 8 by decide) (show 0 < 2 ^ 12 by omega) rfl fun off => ?_
  rfl

theorem popc (o : Opnds) : Statement (.popc o) := by
  refine of_build rfl (show 54 < 2 ^ 8 by decide) (show 0 < 2 ^ 12 by omega) rfl fun off => ?_
  rfl

theorem clz (o : Opnds) : Statement (.clz o) := by
  refine of_build rfl (show 55 < 2 ^ 8 by decide) (show 0 < 2 ^ 12 by omega) rfl fun off => ?_
  rfl

theorem brev (o : Opnds) : Statement (.brev o) := by
  refine of_build rfl (show 56 < 2 ^ 8 by decide) (show 0 < 2 ^ 12 by omega) rfl fun off => ?_
  rfl

theorem bsel (o : Opnds) : Statement (.bsel o) := by
  refine of_build rfl (show 57 < 2 ^ 8 by decide) (show 0 < 2 ^ 12 by omega) rfl fun off => ?_
  rfl

theorem plop (o : Opnds) (fn : BitVec 8) : Statement (.plop o fn) := by
  have hfn := fn.isLt
  refine of_build rfl (show 58 < 2 ^ 8 by decide) (show fn.toNat < 2 ^ 12 by omega) rfl fun off => ?_
  show (some (.plop o (BitVec.ofNat 8 (fld (fn.toNat) 0 8))) : Option Instr) = _
  rw [show fld (fn.toNat) 0 8 = fn.toNat from (by omega : (fn.toNat) / 2 ^ 0 % 2 ^ 8 = fn.toNat)]
  simp only [bits]

theorem p2v (o : Opnds) (mask : BitVec 7) : Statement (.p2v o mask) := by
  have hmask := mask.isLt
  refine of_build rfl (show 59 < 2 ^ 8 by decide) (show mask.toNat < 2 ^ 12 by omega) rfl fun off => ?_
  show (some (.p2v o (BitVec.ofNat 7 (fld (mask.toNat) 0 7))) : Option Instr) = _
  rw [show fld (mask.toNat) 0 7 = mask.toNat from (by omega : (mask.toNat) / 2 ^ 0 % 2 ^ 7 = mask.toNat)]
  simp only [bits]

theorem v2p (o : Opnds) (mask : BitVec 7) : Statement (.v2p o mask) := by
  have hmask := mask.isLt
  refine of_build rfl (show 60 < 2 ^ 8 by decide) (show mask.toNat < 2 ^ 12 by omega) rfl fun off => ?_
  show (some (.v2p o (BitVec.ofNat 7 (fld (mask.toNat) 0 7))) : Option Instr) = _
  rw [show fld (mask.toNat) 0 7 = mask.toNat from (by omega : (mask.toNat) / 2 ^ 0 % 2 ^ 7 = mask.toNat)]
  simp only [bits]

theorem fadd (o : Opnds) (rm : RM) : Statement (.fadd o rm) := by
  have hrm := rMCode rm
  refine of_build rfl (show 64 < 2 ^ 8 by decide) (show rm.code < 2 ^ 12 by omega) rfl fun off => ?_
  show ((RM.ofCode (fld (rm.code) 0 2)).bind fun rm1 => some (.fadd o rm1) : Option Instr) = _
  rw [show fld (rm.code) 0 2 = rm.code from (by omega : (rm.code) / 2 ^ 0 % 2 ^ 2 = rm.code)]
  simp only [hrm.2, Option.bind_some]

theorem fsub (o : Opnds) (rm : RM) : Statement (.fsub o rm) := by
  have hrm := rMCode rm
  refine of_build rfl (show 65 < 2 ^ 8 by decide) (show rm.code < 2 ^ 12 by omega) rfl fun off => ?_
  show ((RM.ofCode (fld (rm.code) 0 2)).bind fun rm1 => some (.fsub o rm1) : Option Instr) = _
  rw [show fld (rm.code) 0 2 = rm.code from (by omega : (rm.code) / 2 ^ 0 % 2 ^ 2 = rm.code)]
  simp only [hrm.2, Option.bind_some]

theorem fmul (o : Opnds) (rm : RM) : Statement (.fmul o rm) := by
  have hrm := rMCode rm
  refine of_build rfl (show 66 < 2 ^ 8 by decide) (show rm.code < 2 ^ 12 by omega) rfl fun off => ?_
  show ((RM.ofCode (fld (rm.code) 0 2)).bind fun rm1 => some (.fmul o rm1) : Option Instr) = _
  rw [show fld (rm.code) 0 2 = rm.code from (by omega : (rm.code) / 2 ^ 0 % 2 ^ 2 = rm.code)]
  simp only [hrm.2, Option.bind_some]

theorem ffma (o : Opnds) (rm : RM) : Statement (.ffma o rm) := by
  have hrm := rMCode rm
  refine of_build rfl (show 67 < 2 ^ 8 by decide) (show rm.code < 2 ^ 12 by omega) rfl fun off => ?_
  show ((RM.ofCode (fld (rm.code) 0 2)).bind fun rm1 => some (.ffma o rm1) : Option Instr) = _
  rw [show fld (rm.code) 0 2 = rm.code from (by omega : (rm.code) / 2 ^ 0 % 2 ^ 2 = rm.code)]
  simp only [hrm.2, Option.bind_some]

theorem fmin (o : Opnds) (nan : Bool) : Statement (.fmin o nan) := by
  have hnan := nan.toNat_lt
  refine of_build rfl (show 68 < 2 ^ 8 by decide) (show nan.toNat < 2 ^ 12 by omega) rfl fun off => ?_
  show (some (.fmin o (fld (nan.toNat) 0 1 == 1)) : Option Instr) = _
  rw [show fld (nan.toNat) 0 1 = nan.toNat from (by omega : (nan.toNat) / 2 ^ 0 % 2 ^ 1 = nan.toNat)]
  simp only [bit]

theorem fmax (o : Opnds) (nan : Bool) : Statement (.fmax o nan) := by
  have hnan := nan.toNat_lt
  refine of_build rfl (show 69 < 2 ^ 8 by decide) (show nan.toNat < 2 ^ 12 by omega) rfl fun off => ?_
  show (some (.fmax o (fld (nan.toNat) 0 1 == 1)) : Option Instr) = _
  rw [show fld (nan.toNat) 0 1 = nan.toNat from (by omega : (nan.toNat) / 2 ^ 0 % 2 ^ 1 = nan.toNat)]
  simp only [bit]

theorem fsetp (o : Opnds) (cmp : FCmp) (comb : Comb) : Statement (.fsetp o cmp comb) := by
  have hcmp := fCmpCode cmp
  have hcomb := combCode comb
  refine of_build rfl (show 70 < 2 ^ 8 by decide) (show cmp.code + 16 * comb.code < 2 ^ 12 by omega) rfl fun off => ?_
  show ((FCmp.ofCode (fld (cmp.code + 16 * comb.code) 0 4)).bind fun cmp1 => (Comb.ofCode (fld (cmp.code + 16 * comb.code)
      4 2)).bind fun comb1 => some (.fsetp o cmp1 comb1) : Option Instr) = _
  rw [show fld (cmp.code + 16 * comb.code) 0 4 = cmp.code from (by omega : (cmp.code + 16 * comb.code) / 2 ^ 0 % 2 ^ 4 =
      cmp.code),
    show fld (cmp.code + 16 * comb.code) 4 2 = comb.code from (by omega : (cmp.code + 16 * comb.code) / 2 ^ 4 % 2 ^ 2 =
        comb.code)]
  simp only [hcmp.2, hcomb.2, Option.bind_some]

theorem fclass (o : Opnds) : Statement (.fclass o) := by
  refine of_build rfl (show 71 < 2 ^ 8 by decide) (show 0 < 2 ^ 12 by omega) rfl fun off => ?_
  rfl

theorem frnd (o : Opnds) (rm : RM) : Statement (.frnd o rm) := by
  have hrm := rMCode rm
  refine of_build rfl (show 72 < 2 ^ 8 by decide) (show rm.code < 2 ^ 12 by omega) rfl fun off => ?_
  show ((RM.ofCode (fld (rm.code) 0 2)).bind fun rm1 => some (.frnd o rm1) : Option Instr) = _
  rw [show fld (rm.code) 0 2 = rm.code from (by omega : (rm.code) / 2 ^ 0 % 2 ^ 2 = rm.code)]
  simp only [hrm.2, Option.bind_some]

theorem fscale (o : Opnds) (rm : RM) : Statement (.fscale o rm) := by
  have hrm := rMCode rm
  refine of_build rfl (show 73 < 2 ^ 8 by decide) (show rm.code < 2 ^ 12 by omega) rfl fun off => ?_
  show ((RM.ofCode (fld (rm.code) 0 2)).bind fun rm1 => some (.fscale o rm1) : Option Instr) = _
  rw [show fld (rm.code) 0 2 = rm.code from (by omega : (rm.code) / 2 ^ 0 % 2 ^ 2 = rm.code)]
  simp only [hrm.2, Option.bind_some]

theorem hadd2 (o : Opnds) (rm : RM) : Statement (.hadd2 o rm) := by
  have hrm := rMCode rm
  refine of_build rfl (show 80 < 2 ^ 8 by decide) (show rm.code < 2 ^ 12 by omega) rfl fun off => ?_
  show ((RM.ofCode (fld (rm.code) 0 2)).bind fun rm1 => some (.hadd2 o rm1) : Option Instr) = _
  rw [show fld (rm.code) 0 2 = rm.code from (by omega : (rm.code) / 2 ^ 0 % 2 ^ 2 = rm.code)]
  simp only [hrm.2, Option.bind_some]

theorem hmul2 (o : Opnds) (rm : RM) : Statement (.hmul2 o rm) := by
  have hrm := rMCode rm
  refine of_build rfl (show 81 < 2 ^ 8 by decide) (show rm.code < 2 ^ 12 by omega) rfl fun off => ?_
  show ((RM.ofCode (fld (rm.code) 0 2)).bind fun rm1 => some (.hmul2 o rm1) : Option Instr) = _
  rw [show fld (rm.code) 0 2 = rm.code from (by omega : (rm.code) / 2 ^ 0 % 2 ^ 2 = rm.code)]
  simp only [hrm.2, Option.bind_some]

theorem hfma2 (o : Opnds) (rm : RM) : Statement (.hfma2 o rm) := by
  have hrm := rMCode rm
  refine of_build rfl (show 82 < 2 ^ 8 by decide) (show rm.code < 2 ^ 12 by omega) rfl fun off => ?_
  show ((RM.ofCode (fld (rm.code) 0 2)).bind fun rm1 => some (.hfma2 o rm1) : Option Instr) = _
  rw [show fld (rm.code) 0 2 = rm.code from (by omega : (rm.code) / 2 ^ 0 % 2 ^ 2 = rm.code)]
  simp only [hrm.2, Option.bind_some]

theorem hmin2 (o : Opnds) (nan : Bool) : Statement (.hmin2 o nan) := by
  have hnan := nan.toNat_lt
  refine of_build rfl (show 83 < 2 ^ 8 by decide) (show nan.toNat < 2 ^ 12 by omega) rfl fun off => ?_
  show (some (.hmin2 o (fld (nan.toNat) 0 1 == 1)) : Option Instr) = _
  rw [show fld (nan.toNat) 0 1 = nan.toNat from (by omega : (nan.toNat) / 2 ^ 0 % 2 ^ 1 = nan.toNat)]
  simp only [bit]

theorem hmax2 (o : Opnds) (nan : Bool) : Statement (.hmax2 o nan) := by
  have hnan := nan.toNat_lt
  refine of_build rfl (show 84 < 2 ^ 8 by decide) (show nan.toNat < 2 ^ 12 by omega) rfl fun off => ?_
  show (some (.hmax2 o (fld (nan.toNat) 0 1 == 1)) : Option Instr) = _
  rw [show fld (nan.toNat) 0 1 = nan.toNat from (by omega : (nan.toNat) / 2 ^ 0 % 2 ^ 1 = nan.toNat)]
  simp only [bit]

theorem cvt (o : Opnds) (dfmt : CvtFmt) (sfmt : CvtFmt) (rm : RM) (sat : Bool) (usefmt : Bool) : Statement (.cvt o dfmt
    sfmt rm sat usefmt) := by
  have hdfmt := cvtFmtCode dfmt
  have hsfmt := cvtFmtCode sfmt
  have hrm := rMCode rm
  have hsat := sat.toNat_lt
  have husefmt := usefmt.toNat_lt
  refine of_build rfl (show 85 < 2 ^ 8 by decide) (show dfmt.code + 16 * sfmt.code + 256 * rm.code + 1024 * sat.toNat +
      2048 * usefmt.toNat < 2 ^ 12 by omega) rfl fun off => ?_
  show ((CvtFmt.ofCode (fld (dfmt.code + 16 * sfmt.code + 256 * rm.code + 1024 * sat.toNat + 2048 * usefmt.toNat) 0
      4)).bind fun dfmt1 => (CvtFmt.ofCode (fld (dfmt.code + 16 * sfmt.code + 256 * rm.code + 1024 * sat.toNat + 2048 *
      usefmt.toNat) 4 4)).bind fun sfmt1 => (RM.ofCode (fld (dfmt.code + 16 * sfmt.code + 256 * rm.code + 1024 * sat.toNat
      + 2048 * usefmt.toNat) 8 2)).bind fun rm1 => some (.cvt o dfmt1 sfmt1 rm1 (fld (dfmt.code + 16 * sfmt.code + 256 *
      rm.code + 1024 * sat.toNat + 2048 * usefmt.toNat) 10 1 == 1) (fld (dfmt.code + 16 * sfmt.code + 256 * rm.code + 1024
      * sat.toNat + 2048 * usefmt.toNat) 11 1 == 1)) : Option Instr) = _
  rw [show fld (dfmt.code + 16 * sfmt.code + 256 * rm.code + 1024 * sat.toNat + 2048 * usefmt.toNat) 0 4 = dfmt.code from
      (by omega : (dfmt.code + 16 * sfmt.code + 256 * rm.code + 1024 * sat.toNat + 2048 * usefmt.toNat) / 2 ^ 0 % 2 ^ 4 =
      dfmt.code),
    show fld (dfmt.code + 16 * sfmt.code + 256 * rm.code + 1024 * sat.toNat + 2048 * usefmt.toNat) 4 4 = sfmt.code from (by
        omega : (dfmt.code + 16 * sfmt.code + 256 * rm.code + 1024 * sat.toNat + 2048 * usefmt.toNat) / 2 ^ 4 % 2 ^ 4 =
        sfmt.code),
    show fld (dfmt.code + 16 * sfmt.code + 256 * rm.code + 1024 * sat.toNat + 2048 * usefmt.toNat) 8 2 = rm.code from (by
        omega : (dfmt.code + 16 * sfmt.code + 256 * rm.code + 1024 * sat.toNat + 2048 * usefmt.toNat) / 2 ^ 8 % 2 ^ 2 =
        rm.code),
    show fld (dfmt.code + 16 * sfmt.code + 256 * rm.code + 1024 * sat.toNat + 2048 * usefmt.toNat) 10 1 = sat.toNat from
        (by omega : (dfmt.code + 16 * sfmt.code + 256 * rm.code + 1024 * sat.toNat + 2048 * usefmt.toNat) / 2 ^ 10 % 2 ^ 1
        = sat.toNat),
    show fld (dfmt.code + 16 * sfmt.code + 256 * rm.code + 1024 * sat.toNat + 2048 * usefmt.toNat) 11 1 = usefmt.toNat from
        (by omega : (dfmt.code + 16 * sfmt.code + 256 * rm.code + 1024 * sat.toNat + 2048 * usefmt.toNat) / 2 ^ 11 % 2 ^ 1
        = usefmt.toNat)]
  simp only [hdfmt.2, hsfmt.2, hrm.2, bit, Option.bind_some]

theorem cvts (o : Opnds) (dfmt : CvtFmt) (pos : Fin 4) (rm : RM) (sat : Bool) (usefmt : Bool) : Statement (.cvts o dfmt pos
    rm sat usefmt) := by
  have hdfmt := cvtFmtCode dfmt
  have hpos := pos.isLt
  have hrm := rMCode rm
  have hsat := sat.toNat_lt
  have husefmt := usefmt.toNat_lt
  refine of_build rfl (show 86 < 2 ^ 8 by decide) (show dfmt.code + 16 * pos.val + 256 * rm.code + 1024 * sat.toNat + 2048
      * usefmt.toNat < 2 ^ 12 by omega) rfl fun off => ?_
  show ((CvtFmt.ofCode (fld (dfmt.code + 16 * pos.val + 256 * rm.code + 1024 * sat.toNat + 2048 * usefmt.toNat) 0 4)).bind
      fun dfmt1 => (RM.ofCode (fld (dfmt.code + 16 * pos.val + 256 * rm.code + 1024 * sat.toNat + 2048 * usefmt.toNat) 8
      2)).bind fun rm1 => some (.cvts o dfmt1 (Fin.ofNat 4 (fld (dfmt.code + 16 * pos.val + 256 * rm.code + 1024 *
      sat.toNat + 2048 * usefmt.toNat) 4 2)) rm1 (fld (dfmt.code + 16 * pos.val + 256 * rm.code + 1024 * sat.toNat + 2048 *
      usefmt.toNat) 10 1 == 1) (fld (dfmt.code + 16 * pos.val + 256 * rm.code + 1024 * sat.toNat + 2048 * usefmt.toNat) 11
      1 == 1)) : Option Instr) = _
  rw [show fld (dfmt.code + 16 * pos.val + 256 * rm.code + 1024 * sat.toNat + 2048 * usefmt.toNat) 0 4 = dfmt.code from (by
      omega : (dfmt.code + 16 * pos.val + 256 * rm.code + 1024 * sat.toNat + 2048 * usefmt.toNat) / 2 ^ 0 % 2 ^ 4 =
      dfmt.code),
    show fld (dfmt.code + 16 * pos.val + 256 * rm.code + 1024 * sat.toNat + 2048 * usefmt.toNat) 4 2 = pos.val from (by
        omega : (dfmt.code + 16 * pos.val + 256 * rm.code + 1024 * sat.toNat + 2048 * usefmt.toNat) / 2 ^ 4 % 2 ^ 2 =
        pos.val),
    show fld (dfmt.code + 16 * pos.val + 256 * rm.code + 1024 * sat.toNat + 2048 * usefmt.toNat) 8 2 = rm.code from (by
        omega : (dfmt.code + 16 * pos.val + 256 * rm.code + 1024 * sat.toNat + 2048 * usefmt.toNat) / 2 ^ 8 % 2 ^ 2 =
        rm.code),
    show fld (dfmt.code + 16 * pos.val + 256 * rm.code + 1024 * sat.toNat + 2048 * usefmt.toNat) 10 1 = sat.toNat from (by
        omega : (dfmt.code + 16 * pos.val + 256 * rm.code + 1024 * sat.toNat + 2048 * usefmt.toNat) / 2 ^ 10 % 2 ^ 1 =
        sat.toNat),
    show fld (dfmt.code + 16 * pos.val + 256 * rm.code + 1024 * sat.toNat + 2048 * usefmt.toNat) 11 1 = usefmt.toNat from
        (by omega : (dfmt.code + 16 * pos.val + 256 * rm.code + 1024 * sat.toNat + 2048 * usefmt.toNat) / 2 ^ 11 % 2 ^ 1 =
        usefmt.toNat)]
  simp only [hdfmt.2, low, hrm.2, bit, Option.bind_some]

theorem packq (o : Opnds) : Statement (.packq o) := by
  refine of_build rfl (show 87 < 2 ^ 8 by decide) (show 0 < 2 ^ 12 by omega) rfl fun off => ?_
  rfl

theorem unpq (o : Opnds) : Statement (.unpq o) := by
  refine of_build rfl (show 88 < 2 ^ 8 by decide) (show 0 < 2 ^ 12 by omega) rfl fun off => ?_
  rfl

theorem escale (o : Opnds) (tfmt : CvtFmt) (opn : EscOp) : Statement (.escale o tfmt opn) := by
  have htfmt := cvtFmtCode tfmt
  have hopn := escOpCode opn
  refine of_build rfl (show 89 < 2 ^ 8 by decide) (show tfmt.code + 16 * opn.code < 2 ^ 12 by omega) rfl fun off => ?_
  show ((CvtFmt.ofCode (fld (tfmt.code + 16 * opn.code) 0 4)).bind fun tfmt1 => (EscOp.ofCode (fld (tfmt.code + 16 *
      opn.code) 4 2)).bind fun opn1 => some (.escale o tfmt1 opn1) : Option Instr) = _
  rw [show fld (tfmt.code + 16 * opn.code) 0 4 = tfmt.code from (by omega : (tfmt.code + 16 * opn.code) / 2 ^ 0 % 2 ^ 4 =
      tfmt.code),
    show fld (tfmt.code + 16 * opn.code) 4 2 = opn.code from (by omega : (tfmt.code + 16 * opn.code) / 2 ^ 4 % 2 ^ 2 =
        opn.code)]
  simp only [htfmt.2, hopn.2, Option.bind_some]

theorem frcp (o : Opnds) (rm : RM) : Statement (.frcp o rm) := by
  have hrm := rMCode rm
  refine of_build rfl (show 96 < 2 ^ 8 by decide) (show rm.code < 2 ^ 12 by omega) rfl fun off => ?_
  show ((RM.ofCode (fld (rm.code) 0 2)).bind fun rm1 => some (.frcp o rm1) : Option Instr) = _
  rw [show fld (rm.code) 0 2 = rm.code from (by omega : (rm.code) / 2 ^ 0 % 2 ^ 2 = rm.code)]
  simp only [hrm.2, Option.bind_some]

theorem frsq (o : Opnds) : Statement (.frsq o) := by
  refine of_build rfl (show 97 < 2 ^ 8 by decide) (show 0 < 2 ^ 12 by omega) rfl fun off => ?_
  rfl

theorem fsqrt (o : Opnds) (rm : RM) : Statement (.fsqrt o rm) := by
  have hrm := rMCode rm
  refine of_build rfl (show 98 < 2 ^ 8 by decide) (show rm.code < 2 ^ 12 by omega) rfl fun off => ?_
  show ((RM.ofCode (fld (rm.code) 0 2)).bind fun rm1 => some (.fsqrt o rm1) : Option Instr) = _
  rw [show fld (rm.code) 0 2 = rm.code from (by omega : (rm.code) / 2 ^ 0 % 2 ^ 2 = rm.code)]
  simp only [hrm.2, Option.bind_some]

theorem fex2 (o : Opnds) : Statement (.fex2 o) := by
  refine of_build rfl (show 99 < 2 ^ 8 by decide) (show 0 < 2 ^ 12 by omega) rfl fun off => ?_
  rfl

theorem flg2 (o : Opnds) : Statement (.flg2 o) := by
  refine of_build rfl (show 100 < 2 ^ 8 by decide) (show 0 < 2 ^ 12 by omega) rfl fun off => ?_
  rfl

theorem fsin (o : Opnds) : Statement (.fsin o) := by
  refine of_build rfl (show 101 < 2 ^ 8 by decide) (show 0 < 2 ^ 12 by omega) rfl fun off => ?_
  rfl

theorem fcos (o : Opnds) : Statement (.fcos o) := by
  refine of_build rfl (show 102 < 2 ^ 8 by decide) (show 0 < 2 ^ 12 by omega) rfl fun off => ?_
  rfl

theorem ftanh (o : Opnds) : Statement (.ftanh o) := by
  refine of_build rfl (show 103 < 2 ^ 8 by decide) (show 0 < 2 ^ 12 by omega) rfl fun off => ?_
  rfl

theorem xlane (o : Opnds) (mode : XMode) : Statement (.xlane o mode) := by
  have hmode := xModeCode mode
  refine of_build rfl (show 104 < 2 ^ 8 by decide) (show mode.code < 2 ^ 12 by omega) rfl fun off => ?_
  show ((XMode.ofCode (fld (mode.code) 0 2)).bind fun mode1 => some (.xlane o mode1) : Option Instr) = _
  rw [show fld (mode.code) 0 2 = mode.code from (by omega : (mode.code) / 2 ^ 0 % 2 ^ 2 = mode.code)]
  simp only [hmode.2, Option.bind_some]

theorem matchv (o : Opnds) (all : Bool) : Statement (.matchv o all) := by
  have hall := all.toNat_lt
  refine of_build rfl (show 105 < 2 ^ 8 by decide) (show all.toNat < 2 ^ 12 by omega) rfl fun off => ?_
  show (some (.matchv o (fld (all.toNat) 0 1 == 1)) : Option Instr) = _
  rw [show fld (all.toNat) 0 1 = all.toNat from (by omega : (all.toNat) / 2 ^ 0 % 2 ^ 1 = all.toNat)]
  simp only [bit]

theorem redux (o : Opnds) (opr : RedOp) : Statement (.redux o opr) := by
  have hopr := redOpCode opr
  refine of_build rfl (show 106 < 2 ^ 8 by decide) (show opr.code < 2 ^ 12 by omega) rfl fun off => ?_
  show ((RedOp.ofCode (fld (opr.code) 0 3)).bind fun opr1 => some (.redux o opr1) : Option Instr) = _
  rw [show fld (opr.code) 0 3 = opr.code from (by omega : (opr.code) / 2 ^ 0 % 2 ^ 3 = opr.code)]
  simp only [hopr.2, Option.bind_some]

theorem scanx (o : Opnds) (opr : RedOp) (excl : Bool) : Statement (.scanx o opr excl) := by
  have hopr := redOpCode opr
  have hexcl := excl.toNat_lt
  refine of_build rfl (show 107 < 2 ^ 8 by decide) (show opr.code + 8 * excl.toNat < 2 ^ 12 by omega) rfl fun off => ?_
  show ((RedOp.ofCode (fld (opr.code + 8 * excl.toNat) 0 3)).bind fun opr1 => some (.scanx o opr1 (fld (opr.code + 8 *
      excl.toNat) 3 1 == 1)) : Option Instr) = _
  rw [show fld (opr.code + 8 * excl.toNat) 0 3 = opr.code from (by omega : (opr.code + 8 * excl.toNat) / 2 ^ 0 % 2 ^ 3 =
      opr.code),
    show fld (opr.code + 8 * excl.toNat) 3 1 = excl.toNat from (by omega : (opr.code + 8 * excl.toNat) / 2 ^ 3 % 2 ^ 1 =
        excl.toNat)]
  simp only [hopr.2, bit, Option.bind_some]

theorem ld (o : Opnds) (w : MemW) (ord : LdOrd) (scope : Scope) (cache : CacheHint) (vs : Bool) (ixs : Bool) : Statement
    (.ld o w ord scope cache vs ixs) := by
  have hw := memWCode w
  have hord := ldOrdCode ord
  have hscope := scopeCode scope
  have hcache := cacheHintCode cache
  have hvs := vs.toNat_lt
  have hixs := ixs.toNat_lt
  refine of_build rfl (show 112 < 2 ^ 8 by decide) (show w.code + 8 * ord.code + 32 * scope.code + 256 * cache.code + 1024
      * vs.toNat + 2048 * ixs.toNat < 2 ^ 12 by omega) rfl fun off => ?_
  show ((MemW.ofCode (fld (w.code + 8 * ord.code + 32 * scope.code + 256 * cache.code + 1024 * vs.toNat + 2048 * ixs.toNat)
      0 3)).bind fun w1 => (LdOrd.ofCode (fld (w.code + 8 * ord.code + 32 * scope.code + 256 * cache.code + 1024 * vs.toNat
      + 2048 * ixs.toNat) 3 2)).bind fun ord1 => (Scope.ofCode (fld (w.code + 8 * ord.code + 32 * scope.code + 256 *
      cache.code + 1024 * vs.toNat + 2048 * ixs.toNat) 5 3)).bind fun scope1 => (CacheHint.ofCode (fld (w.code + 8 *
      ord.code + 32 * scope.code + 256 * cache.code + 1024 * vs.toNat + 2048 * ixs.toNat) 8 2)).bind fun cache1 => some
      (.ld o w1 ord1 scope1 cache1 (fld (w.code + 8 * ord.code + 32 * scope.code + 256 * cache.code + 1024 * vs.toNat +
      2048 * ixs.toNat) 10 1 == 1) (fld (w.code + 8 * ord.code + 32 * scope.code + 256 * cache.code + 1024 * vs.toNat +
      2048 * ixs.toNat) 11 1 == 1)) : Option Instr) = _
  rw [show fld (w.code + 8 * ord.code + 32 * scope.code + 256 * cache.code + 1024 * vs.toNat + 2048 * ixs.toNat) 0 3 =
      w.code from (by omega : (w.code + 8 * ord.code + 32 * scope.code + 256 * cache.code + 1024 * vs.toNat + 2048 *
      ixs.toNat) / 2 ^ 0 % 2 ^ 3 = w.code),
    show fld (w.code + 8 * ord.code + 32 * scope.code + 256 * cache.code + 1024 * vs.toNat + 2048 * ixs.toNat) 3 2 =
        ord.code from (by omega : (w.code + 8 * ord.code + 32 * scope.code + 256 * cache.code + 1024 * vs.toNat + 2048 *
        ixs.toNat) / 2 ^ 3 % 2 ^ 2 = ord.code),
    show fld (w.code + 8 * ord.code + 32 * scope.code + 256 * cache.code + 1024 * vs.toNat + 2048 * ixs.toNat) 5 3 =
        scope.code from (by omega : (w.code + 8 * ord.code + 32 * scope.code + 256 * cache.code + 1024 * vs.toNat + 2048 *
        ixs.toNat) / 2 ^ 5 % 2 ^ 3 = scope.code),
    show fld (w.code + 8 * ord.code + 32 * scope.code + 256 * cache.code + 1024 * vs.toNat + 2048 * ixs.toNat) 8 2 =
        cache.code from (by omega : (w.code + 8 * ord.code + 32 * scope.code + 256 * cache.code + 1024 * vs.toNat + 2048 *
        ixs.toNat) / 2 ^ 8 % 2 ^ 2 = cache.code),
    show fld (w.code + 8 * ord.code + 32 * scope.code + 256 * cache.code + 1024 * vs.toNat + 2048 * ixs.toNat) 10 1 =
        vs.toNat from (by omega : (w.code + 8 * ord.code + 32 * scope.code + 256 * cache.code + 1024 * vs.toNat + 2048 *
        ixs.toNat) / 2 ^ 10 % 2 ^ 1 = vs.toNat),
    show fld (w.code + 8 * ord.code + 32 * scope.code + 256 * cache.code + 1024 * vs.toNat + 2048 * ixs.toNat) 11 1 =
        ixs.toNat from (by omega : (w.code + 8 * ord.code + 32 * scope.code + 256 * cache.code + 1024 * vs.toNat + 2048 *
        ixs.toNat) / 2 ^ 11 % 2 ^ 1 = ixs.toNat)]
  simp only [hw.2, hord.2, hscope.2, hcache.2, bit, Option.bind_some]

theorem st (o : Opnds) (w : MemW) (ord : StOrd) (scope : Scope) (cache : CacheHint) (ixs : Bool) : Statement (.st o w ord
    scope cache ixs) := by
  have hw := memWCode w
  have hord := stOrdCode ord
  have hscope := scopeCode scope
  have hcache := cacheHintCode cache
  have hixs := ixs.toNat_lt
  refine of_build rfl (show 113 < 2 ^ 8 by decide) (show w.code + 8 * ord.code + 32 * scope.code + 256 * cache.code + 2048
      * ixs.toNat < 2 ^ 12 by omega) rfl fun off => ?_
  show ((MemW.ofCode (fld (w.code + 8 * ord.code + 32 * scope.code + 256 * cache.code + 2048 * ixs.toNat) 0 3)).bind fun w1
      => (StOrd.ofCode (fld (w.code + 8 * ord.code + 32 * scope.code + 256 * cache.code + 2048 * ixs.toNat) 3 2)).bind fun
      ord1 => (Scope.ofCode (fld (w.code + 8 * ord.code + 32 * scope.code + 256 * cache.code + 2048 * ixs.toNat) 5 3)).bind
      fun scope1 => (CacheHint.ofCode (fld (w.code + 8 * ord.code + 32 * scope.code + 256 * cache.code + 2048 * ixs.toNat)
      8 2)).bind fun cache1 => some (.st o w1 ord1 scope1 cache1 (fld (w.code + 8 * ord.code + 32 * scope.code + 256 *
      cache.code + 2048 * ixs.toNat) 11 1 == 1)) : Option Instr) = _
  rw [show fld (w.code + 8 * ord.code + 32 * scope.code + 256 * cache.code + 2048 * ixs.toNat) 0 3 = w.code from (by omega
      : (w.code + 8 * ord.code + 32 * scope.code + 256 * cache.code + 2048 * ixs.toNat) / 2 ^ 0 % 2 ^ 3 = w.code),
    show fld (w.code + 8 * ord.code + 32 * scope.code + 256 * cache.code + 2048 * ixs.toNat) 3 2 = ord.code from (by omega
        : (w.code + 8 * ord.code + 32 * scope.code + 256 * cache.code + 2048 * ixs.toNat) / 2 ^ 3 % 2 ^ 2 = ord.code),
    show fld (w.code + 8 * ord.code + 32 * scope.code + 256 * cache.code + 2048 * ixs.toNat) 5 3 = scope.code from (by
        omega : (w.code + 8 * ord.code + 32 * scope.code + 256 * cache.code + 2048 * ixs.toNat) / 2 ^ 5 % 2 ^ 3 =
        scope.code),
    show fld (w.code + 8 * ord.code + 32 * scope.code + 256 * cache.code + 2048 * ixs.toNat) 8 2 = cache.code from (by
        omega : (w.code + 8 * ord.code + 32 * scope.code + 256 * cache.code + 2048 * ixs.toNat) / 2 ^ 8 % 2 ^ 2 =
        cache.code),
    show fld (w.code + 8 * ord.code + 32 * scope.code + 256 * cache.code + 2048 * ixs.toNat) 11 1 = ixs.toNat from (by
        omega : (w.code + 8 * ord.code + 32 * scope.code + 256 * cache.code + 2048 * ixs.toNat) / 2 ^ 11 % 2 ^ 1 =
        ixs.toNat)]
  simp only [hw.2, hord.2, hscope.2, hcache.2, bit, Option.bind_some]

theorem lds (o : Opnds) (w : MemW) (ord : LdOrd) (scope : Scope) : Statement (.lds o w ord scope) := by
  have hw := memWCode w
  have hord := ldOrdCode ord
  have hscope := scopeCode scope
  refine of_build rfl (show 114 < 2 ^ 8 by decide) (show w.code + 8 * ord.code + 32 * scope.code < 2 ^ 12 by omega) rfl fun
      off => ?_
  show ((MemW.ofCode (fld (w.code + 8 * ord.code + 32 * scope.code) 0 3)).bind fun w1 => (LdOrd.ofCode (fld (w.code + 8 *
      ord.code + 32 * scope.code) 3 2)).bind fun ord1 => (Scope.ofCode (fld (w.code + 8 * ord.code + 32 * scope.code) 5
      3)).bind fun scope1 => some (.lds o w1 ord1 scope1) : Option Instr) = _
  rw [show fld (w.code + 8 * ord.code + 32 * scope.code) 0 3 = w.code from (by omega : (w.code + 8 * ord.code + 32 *
      scope.code) / 2 ^ 0 % 2 ^ 3 = w.code),
    show fld (w.code + 8 * ord.code + 32 * scope.code) 3 2 = ord.code from (by omega : (w.code + 8 * ord.code + 32 *
        scope.code) / 2 ^ 3 % 2 ^ 2 = ord.code),
    show fld (w.code + 8 * ord.code + 32 * scope.code) 5 3 = scope.code from (by omega : (w.code + 8 * ord.code + 32 *
        scope.code) / 2 ^ 5 % 2 ^ 3 = scope.code)]
  simp only [hw.2, hord.2, hscope.2, Option.bind_some]

theorem sts (o : Opnds) (w : MemW) (ord : StOrd) (scope : Scope) : Statement (.sts o w ord scope) := by
  have hw := memWCode w
  have hord := stOrdCode ord
  have hscope := scopeCode scope
  refine of_build rfl (show 115 < 2 ^ 8 by decide) (show w.code + 8 * ord.code + 32 * scope.code < 2 ^ 12 by omega) rfl fun
      off => ?_
  show ((MemW.ofCode (fld (w.code + 8 * ord.code + 32 * scope.code) 0 3)).bind fun w1 => (StOrd.ofCode (fld (w.code + 8 *
      ord.code + 32 * scope.code) 3 2)).bind fun ord1 => (Scope.ofCode (fld (w.code + 8 * ord.code + 32 * scope.code) 5
      3)).bind fun scope1 => some (.sts o w1 ord1 scope1) : Option Instr) = _
  rw [show fld (w.code + 8 * ord.code + 32 * scope.code) 0 3 = w.code from (by omega : (w.code + 8 * ord.code + 32 *
      scope.code) / 2 ^ 0 % 2 ^ 3 = w.code),
    show fld (w.code + 8 * ord.code + 32 * scope.code) 3 2 = ord.code from (by omega : (w.code + 8 * ord.code + 32 *
        scope.code) / 2 ^ 3 % 2 ^ 2 = ord.code),
    show fld (w.code + 8 * ord.code + 32 * scope.code) 5 3 = scope.code from (by omega : (w.code + 8 * ord.code + 32 *
        scope.code) / 2 ^ 5 % 2 ^ 3 = scope.code)]
  simp only [hw.2, hord.2, hscope.2, Option.bind_some]

theorem ldc (o : Opnds) (w : MemW) (bank : Fin 16) : Statement (.ldc o w bank) := by
  have hw := memWCode w
  have hbank := bank.isLt
  refine of_build rfl (show 116 < 2 ^ 8 by decide) (show w.code + 8 * bank.val < 2 ^ 12 by omega) rfl fun off => ?_
  show ((MemW.ofCode (fld (w.code + 8 * bank.val) 0 3)).bind fun w1 => some (.ldc o w1 (Fin.ofNat 16 (fld (w.code + 8 *
      bank.val) 3 4))) : Option Instr) = _
  rw [show fld (w.code + 8 * bank.val) 0 3 = w.code from (by omega : (w.code + 8 * bank.val) / 2 ^ 0 % 2 ^ 3 = w.code),
    show fld (w.code + 8 * bank.val) 3 4 = bank.val from (by omega : (w.code + 8 * bank.val) / 2 ^ 3 % 2 ^ 4 = bank.val)]
  simp only [hw.2, low, Option.bind_some]

theorem ldr (o : Opnds) (w : MemW) (ord : LdOrd) (scope : Scope) (ixs : Bool) : Statement (.ldr o w ord scope ixs) := by
  have hw := memWCode w
  have hord := ldOrdCode ord
  have hscope := scopeCode scope
  have hixs := ixs.toNat_lt
  refine of_build rfl (show 117 < 2 ^ 8 by decide) (show w.code + 8 * ord.code + 32 * scope.code + 2048 * ixs.toNat < 2 ^
      12 by omega) rfl fun off => ?_
  show ((MemW.ofCode (fld (w.code + 8 * ord.code + 32 * scope.code + 2048 * ixs.toNat) 0 3)).bind fun w1 => (LdOrd.ofCode
      (fld (w.code + 8 * ord.code + 32 * scope.code + 2048 * ixs.toNat) 3 2)).bind fun ord1 => (Scope.ofCode (fld (w.code +
      8 * ord.code + 32 * scope.code + 2048 * ixs.toNat) 5 3)).bind fun scope1 => some (.ldr o w1 ord1 scope1 (fld (w.code
      + 8 * ord.code + 32 * scope.code + 2048 * ixs.toNat) 11 1 == 1)) : Option Instr) = _
  rw [show fld (w.code + 8 * ord.code + 32 * scope.code + 2048 * ixs.toNat) 0 3 = w.code from (by omega : (w.code + 8 *
      ord.code + 32 * scope.code + 2048 * ixs.toNat) / 2 ^ 0 % 2 ^ 3 = w.code),
    show fld (w.code + 8 * ord.code + 32 * scope.code + 2048 * ixs.toNat) 3 2 = ord.code from (by omega : (w.code + 8 *
        ord.code + 32 * scope.code + 2048 * ixs.toNat) / 2 ^ 3 % 2 ^ 2 = ord.code),
    show fld (w.code + 8 * ord.code + 32 * scope.code + 2048 * ixs.toNat) 5 3 = scope.code from (by omega : (w.code + 8 *
        ord.code + 32 * scope.code + 2048 * ixs.toNat) / 2 ^ 5 % 2 ^ 3 = scope.code),
    show fld (w.code + 8 * ord.code + 32 * scope.code + 2048 * ixs.toNat) 11 1 = ixs.toNat from (by omega : (w.code + 8 *
        ord.code + 32 * scope.code + 2048 * ixs.toNat) / 2 ^ 11 % 2 ^ 1 = ixs.toNat)]
  simp only [hw.2, hord.2, hscope.2, bit, Option.bind_some]

theorem stc (o : Opnds) (w : MemW) (ord : StOrd) (scope : Scope) (ixs : Bool) : Statement (.stc o w ord scope ixs) := by
  have hw := memWCode w
  have hord := stOrdCode ord
  have hscope := scopeCode scope
  have hixs := ixs.toNat_lt
  refine of_build rfl (show 118 < 2 ^ 8 by decide) (show w.code + 8 * ord.code + 32 * scope.code + 2048 * ixs.toNat < 2 ^
      12 by omega) rfl fun off => ?_
  show ((MemW.ofCode (fld (w.code + 8 * ord.code + 32 * scope.code + 2048 * ixs.toNat) 0 3)).bind fun w1 => (StOrd.ofCode
      (fld (w.code + 8 * ord.code + 32 * scope.code + 2048 * ixs.toNat) 3 2)).bind fun ord1 => (Scope.ofCode (fld (w.code +
      8 * ord.code + 32 * scope.code + 2048 * ixs.toNat) 5 3)).bind fun scope1 => some (.stc o w1 ord1 scope1 (fld (w.code
      + 8 * ord.code + 32 * scope.code + 2048 * ixs.toNat) 11 1 == 1)) : Option Instr) = _
  rw [show fld (w.code + 8 * ord.code + 32 * scope.code + 2048 * ixs.toNat) 0 3 = w.code from (by omega : (w.code + 8 *
      ord.code + 32 * scope.code + 2048 * ixs.toNat) / 2 ^ 0 % 2 ^ 3 = w.code),
    show fld (w.code + 8 * ord.code + 32 * scope.code + 2048 * ixs.toNat) 3 2 = ord.code from (by omega : (w.code + 8 *
        ord.code + 32 * scope.code + 2048 * ixs.toNat) / 2 ^ 3 % 2 ^ 2 = ord.code),
    show fld (w.code + 8 * ord.code + 32 * scope.code + 2048 * ixs.toNat) 5 3 = scope.code from (by omega : (w.code + 8 *
        ord.code + 32 * scope.code + 2048 * ixs.toNat) / 2 ^ 5 % 2 ^ 3 = scope.code),
    show fld (w.code + 8 * ord.code + 32 * scope.code + 2048 * ixs.toNat) 11 1 = ixs.toNat from (by omega : (w.code + 8 *
        ord.code + 32 * scope.code + 2048 * ixs.toNat) / 2 ^ 11 % 2 ^ 1 = ixs.toNat)]
  simp only [hw.2, hord.2, hscope.2, bit, Option.bind_some]

theorem pref (o : Opnds) (level : PrefLevel) (ixs : Bool) : Statement (.pref o level ixs) := by
  have hlevel := prefLevelCode level
  have hixs := ixs.toNat_lt
  refine of_build rfl (show 119 < 2 ^ 8 by decide) (show level.code + 2048 * ixs.toNat < 2 ^ 12 by omega) rfl fun off => ?_
  show ((PrefLevel.ofCode (fld (level.code + 2048 * ixs.toNat) 0 2)).bind fun level1 => some (.pref o level1 (fld
      (level.code + 2048 * ixs.toNat) 11 1 == 1)) : Option Instr) = _
  rw [show fld (level.code + 2048 * ixs.toNat) 0 2 = level.code from (by omega : (level.code + 2048 * ixs.toNat) / 2 ^ 0 %
      2 ^ 2 = level.code),
    show fld (level.code + 2048 * ixs.toNat) 11 1 = ixs.toNat from (by omega : (level.code + 2048 * ixs.toNat) / 2 ^ 11 % 2
        ^ 1 = ixs.toNat)]
  simp only [hlevel.2, bit, Option.bind_some]

theorem cctl (o : Opnds) (opr : CctlOp) (ixs : Bool) : Statement (.cctl o opr ixs) := by
  have hopr := cctlOpCode opr
  have hixs := ixs.toNat_lt
  refine of_build rfl (show 120 < 2 ^ 8 by decide) (show opr.code + 2048 * ixs.toNat < 2 ^ 12 by omega) rfl fun off => ?_
  show ((CctlOp.ofCode (fld (opr.code + 2048 * ixs.toNat) 0 3)).bind fun opr1 => some (.cctl o opr1 (fld (opr.code + 2048 *
      ixs.toNat) 11 1 == 1)) : Option Instr) = _
  rw [show fld (opr.code + 2048 * ixs.toNat) 0 3 = opr.code from (by omega : (opr.code + 2048 * ixs.toNat) / 2 ^ 0 % 2 ^ 3
      = opr.code),
    show fld (opr.code + 2048 * ixs.toNat) 11 1 = ixs.toNat from (by omega : (opr.code + 2048 * ixs.toNat) / 2 ^ 11 % 2 ^ 1
        = ixs.toNat)]
  simp only [hopr.2, bit, Option.bind_some]

theorem icinv (o : Opnds) : Statement (.icinv o) := by
  refine of_build rfl (show 121 < 2 ^ 8 by decide) (show 0 < 2 ^ 12 by omega) rfl fun off => ?_
  rfl

theorem cpg (o : Opnds) (slot : Fin 64) (arrive : Bool) : Statement (.cpg o slot arrive) := by
  have hslot := slot.isLt
  have harrive := arrive.toNat_lt
  refine of_build rfl (show 128 < 2 ^ 8 by decide) (show slot.val + 64 * arrive.toNat < 2 ^ 12 by omega) rfl fun off => ?_
  show (some (.cpg o (Fin.ofNat 64 (fld (slot.val + 64 * arrive.toNat) 0 6)) (fld (slot.val + 64 * arrive.toNat) 6 1 == 1))
      : Option Instr) = _
  rw [show fld (slot.val + 64 * arrive.toNat) 0 6 = slot.val from (by omega : (slot.val + 64 * arrive.toNat) / 2 ^ 0 % 2 ^
      6 = slot.val),
    show fld (slot.val + 64 * arrive.toNat) 6 1 = arrive.toNat from (by omega : (slot.val + 64 * arrive.toNat) / 2 ^ 6 % 2
        ^ 1 = arrive.toNat)]
  simp only [low, bit]

theorem cps (o : Opnds) : Statement (.cps o) := by
  refine of_build rfl (show 129 < 2 ^ 8 by decide) (show 0 < 2 ^ 12 by omega) rfl fun off => ?_
  rfl

theorem cpx (o : Opnds) (slot : Fin 64) (arrive : Bool) : Statement (.cpx o slot arrive) := by
  have hslot := slot.isLt
  have harrive := arrive.toNat_lt
  refine of_build rfl (show 130 < 2 ^ 8 by decide) (show slot.val + 64 * arrive.toNat < 2 ^ 12 by omega) rfl fun off => ?_
  show (some (.cpx o (Fin.ofNat 64 (fld (slot.val + 64 * arrive.toNat) 0 6)) (fld (slot.val + 64 * arrive.toNat) 6 1 == 1))
      : Option Instr) = _
  rw [show fld (slot.val + 64 * arrive.toNat) 0 6 = slot.val from (by omega : (slot.val + 64 * arrive.toNat) / 2 ^ 0 % 2 ^
      6 = slot.val),
    show fld (slot.val + 64 * arrive.toNat) 6 1 = arrive.toNat from (by omega : (slot.val + 64 * arrive.toNat) / 2 ^ 6 % 2
        ^ 1 = arrive.toNat)]
  simp only [low, bit]

theorem cpclose (o : Opnds) : Statement (.cpclose o) := by
  refine of_build rfl (show 131 < 2 ^ 8 by decide) (show 0 < 2 ^ 12 by omega) rfl fun off => ?_
  rfl

theorem cpwait (o : Opnds) : Statement (.cpwait o) := by
  refine of_build rfl (show 132 < 2 ^ 8 by decide) (show 0 < 2 ^ 12 by omega) rfl fun off => ?_
  rfl

theorem bankcfg (o : Opnds) (mode : BankMode) : Statement (.bankcfg o mode) := by
  have hmode := bankModeCode mode
  refine of_build rfl (show 133 < 2 ^ 8 by decide) (show mode.code < 2 ^ 12 by omega) rfl fun off => ?_
  show ((BankMode.ofCode (fld (mode.code) 0 2)).bind fun mode1 => some (.bankcfg o mode1) : Option Instr) = _
  rw [show fld (mode.code) 0 2 = mode.code from (by omega : (mode.code) / 2 ^ 0 % 2 ^ 2 = mode.code)]
  simp only [hmode.2, Option.bind_some]

theorem fpush (o : Opnds) : Statement (.fpush o) := by
  refine of_build rfl (show 134 < 2 ^ 8 by decide) (show 0 < 2 ^ 12 by omega) rfl fun off => ?_
  rfl

theorem fpop (o : Opnds) : Statement (.fpop o) := by
  refine of_build rfl (show 135 < 2 ^ 8 by decide) (show 0 < 2 ^ 12 by omega) rfl fun off => ?_
  rfl

theorem vtopen (o : Opnds) (copy : Bool) : Statement (.vtopen o copy) := by
  have hcopy := copy.toNat_lt
  refine of_build rfl (show 136 < 2 ^ 8 by decide) (show copy.toNat < 2 ^ 12 by omega) rfl fun off => ?_
  show (some (.vtopen o (fld (copy.toNat) 0 1 == 1)) : Option Instr) = _
  rw [show fld (copy.toNat) 0 1 = copy.toNat from (by omega : (copy.toNat) / 2 ^ 0 % 2 ^ 1 = copy.toNat)]
  simp only [bit]

theorem publish (o : Opnds) : Statement (.publish o) := by
  refine of_build rfl (show 137 < 2 ^ 8 by decide) (show 0 < 2 ^ 12 by omega) rfl fun off => ?_
  rfl

theorem vtdrop (o : Opnds) : Statement (.vtdrop o) := by
  refine of_build rfl (show 138 < 2 ^ 8 by decide) (show 0 < 2 ^ 12 by omega) rfl fun off => ?_
  rfl

theorem copyCommandStart (core : Nat) : Statement (.copyCommandStart core) := of_none rfl

theorem copyCommandComplete (core : Nat) (sq : BitVec 32) : Statement (.copyCommandComplete core sq) := of_none rfl

theorem vtopenCopyComplete (ctx : Nat) (i : Nat) : Statement (.vtopenCopyComplete ctx i) := of_none rfl

theorem publishAckComplete (ctx : Nat) (i : Nat) : Statement (.publishAckComplete ctx i) := of_none rfl

theorem mldb (o : Opnds) (slab : Fin 4) (lset : Fin 2) (foll : Bool) : Statement (.mldb o slab lset foll) := by
  have hslab := slab.isLt
  have hlset := lset.isLt
  have hfoll := foll.toNat_lt
  refine of_build rfl (show 144 < 2 ^ 8 by decide) (show slab.val + 4 * lset.val + 8 * foll.toNat < 2 ^ 12 by omega) rfl
      fun off => ?_
  show (some (.mldb o (Fin.ofNat 4 (fld (slab.val + 4 * lset.val + 8 * foll.toNat) 0 2)) (Fin.ofNat 2 (fld (slab.val + 4 *
      lset.val + 8 * foll.toNat) 2 1)) (fld (slab.val + 4 * lset.val + 8 * foll.toNat) 3 1 == 1)) : Option Instr) = _
  rw [show fld (slab.val + 4 * lset.val + 8 * foll.toNat) 0 2 = slab.val from (by omega : (slab.val + 4 * lset.val + 8 *
      foll.toNat) / 2 ^ 0 % 2 ^ 2 = slab.val),
    show fld (slab.val + 4 * lset.val + 8 * foll.toNat) 2 1 = lset.val from (by omega : (slab.val + 4 * lset.val + 8 *
        foll.toNat) / 2 ^ 2 % 2 ^ 1 = lset.val),
    show fld (slab.val + 4 * lset.val + 8 * foll.toNat) 3 1 = foll.toNat from (by omega : (slab.val + 4 * lset.val + 8 *
        foll.toNat) / 2 ^ 3 % 2 ^ 1 = foll.toNat)]
  simp only [low, bit]

theorem mlds (o : Opnds) (lset : Fin 2) (foll : Bool) : Statement (.mlds o lset foll) := by
  have hlset := lset.isLt
  have hfoll := foll.toNat_lt
  refine of_build rfl (show 145 < 2 ^ 8 by decide) (show 4 * lset.val + 8 * foll.toNat < 2 ^ 12 by omega) rfl fun off => ?_
  show (some (.mlds o (Fin.ofNat 2 (fld (4 * lset.val + 8 * foll.toNat) 2 1)) (fld (4 * lset.val + 8 * foll.toNat) 3 1 ==
      1)) : Option Instr) = _
  rw [show fld (4 * lset.val + 8 * foll.toNat) 2 1 = lset.val from (by omega : (4 * lset.val + 8 * foll.toNat) / 2 ^ 2 % 2
      ^ 1 = lset.val),
    show fld (4 * lset.val + 8 * foll.toNat) 3 1 = foll.toNat from (by omega : (4 * lset.val + 8 * foll.toNat) / 2 ^ 3 % 2
        ^ 1 = foll.toNat)]
  simp only [low, bit]

theorem mma (o : Opnds) (mm1 : Fin 32) (lset : Fin 2) (slot : Fin 64) : Statement (.mma o mm1 lset slot) := by
  have hmm1 := mm1.isLt
  have hlset := lset.isLt
  have hslot := slot.isLt
  refine of_build rfl (show 146 < 2 ^ 8 by decide) (show mm1.val + 32 * lset.val + 64 * slot.val < 2 ^ 12 by omega) rfl fun
      off => ?_
  show (some (.mma o (Fin.ofNat 32 (fld (mm1.val + 32 * lset.val + 64 * slot.val) 0 5)) (Fin.ofNat 2 (fld (mm1.val + 32 *
      lset.val + 64 * slot.val) 5 1)) (Fin.ofNat 64 (fld (mm1.val + 32 * lset.val + 64 * slot.val) 6 6))) : Option Instr) =
      _
  rw [show fld (mm1.val + 32 * lset.val + 64 * slot.val) 0 5 = mm1.val from (by omega : (mm1.val + 32 * lset.val + 64 *
      slot.val) / 2 ^ 0 % 2 ^ 5 = mm1.val),
    show fld (mm1.val + 32 * lset.val + 64 * slot.val) 5 1 = lset.val from (by omega : (mm1.val + 32 * lset.val + 64 *
        slot.val) / 2 ^ 5 % 2 ^ 1 = lset.val),
    show fld (mm1.val + 32 * lset.val + 64 * slot.val) 6 6 = slot.val from (by omega : (mm1.val + 32 * lset.val + 64 *
        slot.val) / 2 ^ 6 % 2 ^ 6 = slot.val)]
  simp only [low]

theorem mzero (o : Opnds) : Statement (.mzero o) := by
  refine of_build rfl (show 147 < 2 ^ 8 by decide) (show 0 < 2 ^ 12 by omega) rfl fun off => ?_
  rfl

theorem acalloc (o : Opnds) (wait : Bool) : Statement (.acalloc o wait) := by
  have hwait := wait.toNat_lt
  refine of_build rfl (show 148 < 2 ^ 8 by decide) (show wait.toNat < 2 ^ 12 by omega) rfl fun off => ?_
  show (some (.acalloc o (fld (wait.toNat) 0 1 == 1)) : Option Instr) = _
  rw [show fld (wait.toNat) 0 1 = wait.toNat from (by omega : (wait.toNat) / 2 ^ 0 % 2 ^ 1 = wait.toNat)]
  simp only [bit]

theorem acfree (o : Opnds) : Statement (.acfree o) := by
  refine of_build rfl (show 149 < 2 ^ 8 by decide) (show 0 < 2 ^ 12 by omega) rfl fun off => ?_
  rfl

theorem mdrain (o : Opnds) (bias : Bool) (act : Bool) (req : Bool) (rm1 : Fin 8) (slot : Fin 64) : Statement (.mdrain o
    bias act req rm1 slot) := by
  have hbias := bias.toNat_lt
  have hact := act.toNat_lt
  have hreq := req.toNat_lt
  have hrm1 := rm1.isLt
  have hslot := slot.isLt
  refine of_build rfl (show 150 < 2 ^ 8 by decide) (show bias.toNat + 2 * act.toNat + 4 * req.toNat + 8 * rm1.val + 64 *
      slot.val < 2 ^ 12 by omega) rfl fun off => ?_
  show (some (.mdrain o (fld (bias.toNat + 2 * act.toNat + 4 * req.toNat + 8 * rm1.val + 64 * slot.val) 0 1 == 1) (fld
      (bias.toNat + 2 * act.toNat + 4 * req.toNat + 8 * rm1.val + 64 * slot.val) 1 1 == 1) (fld (bias.toNat + 2 * act.toNat
      + 4 * req.toNat + 8 * rm1.val + 64 * slot.val) 2 1 == 1) (Fin.ofNat 8 (fld (bias.toNat + 2 * act.toNat + 4 *
      req.toNat + 8 * rm1.val + 64 * slot.val) 3 3)) (Fin.ofNat 64 (fld (bias.toNat + 2 * act.toNat + 4 * req.toNat + 8 *
      rm1.val + 64 * slot.val) 6 6))) : Option Instr) = _
  rw [show fld (bias.toNat + 2 * act.toNat + 4 * req.toNat + 8 * rm1.val + 64 * slot.val) 0 1 = bias.toNat from (by omega :
      (bias.toNat + 2 * act.toNat + 4 * req.toNat + 8 * rm1.val + 64 * slot.val) / 2 ^ 0 % 2 ^ 1 = bias.toNat),
    show fld (bias.toNat + 2 * act.toNat + 4 * req.toNat + 8 * rm1.val + 64 * slot.val) 1 1 = act.toNat from (by omega :
        (bias.toNat + 2 * act.toNat + 4 * req.toNat + 8 * rm1.val + 64 * slot.val) / 2 ^ 1 % 2 ^ 1 = act.toNat),
    show fld (bias.toNat + 2 * act.toNat + 4 * req.toNat + 8 * rm1.val + 64 * slot.val) 2 1 = req.toNat from (by omega :
        (bias.toNat + 2 * act.toNat + 4 * req.toNat + 8 * rm1.val + 64 * slot.val) / 2 ^ 2 % 2 ^ 1 = req.toNat),
    show fld (bias.toNat + 2 * act.toNat + 4 * req.toNat + 8 * rm1.val + 64 * slot.val) 3 3 = rm1.val from (by omega :
        (bias.toNat + 2 * act.toNat + 4 * req.toNat + 8 * rm1.val + 64 * slot.val) / 2 ^ 3 % 2 ^ 3 = rm1.val),
    show fld (bias.toNat + 2 * act.toNat + 4 * req.toNat + 8 * rm1.val + 64 * slot.val) 6 6 = slot.val from (by omega :
        (bias.toNat + 2 * act.toNat + 4 * req.toNat + 8 * rm1.val + 64 * slot.val) / 2 ^ 6 % 2 ^ 6 = slot.val)]
  simp only [bit, low]

theorem mdrains (o : Opnds) (bias : Bool) (act : Bool) (req : Bool) (rm1 : Fin 8) (slot : Fin 64) : Statement (.mdrains o
    bias act req rm1 slot) := by
  have hbias := bias.toNat_lt
  have hact := act.toNat_lt
  have hreq := req.toNat_lt
  have hrm1 := rm1.isLt
  have hslot := slot.isLt
  refine of_build rfl (show 151 < 2 ^ 8 by decide) (show bias.toNat + 2 * act.toNat + 4 * req.toNat + 8 * rm1.val + 64 *
      slot.val < 2 ^ 12 by omega) rfl fun off => ?_
  show (some (.mdrains o (fld (bias.toNat + 2 * act.toNat + 4 * req.toNat + 8 * rm1.val + 64 * slot.val) 0 1 == 1) (fld
      (bias.toNat + 2 * act.toNat + 4 * req.toNat + 8 * rm1.val + 64 * slot.val) 1 1 == 1) (fld (bias.toNat + 2 * act.toNat
      + 4 * req.toNat + 8 * rm1.val + 64 * slot.val) 2 1 == 1) (Fin.ofNat 8 (fld (bias.toNat + 2 * act.toNat + 4 *
      req.toNat + 8 * rm1.val + 64 * slot.val) 3 3)) (Fin.ofNat 64 (fld (bias.toNat + 2 * act.toNat + 4 * req.toNat + 8 *
      rm1.val + 64 * slot.val) 6 6))) : Option Instr) = _
  rw [show fld (bias.toNat + 2 * act.toNat + 4 * req.toNat + 8 * rm1.val + 64 * slot.val) 0 1 = bias.toNat from (by omega :
      (bias.toNat + 2 * act.toNat + 4 * req.toNat + 8 * rm1.val + 64 * slot.val) / 2 ^ 0 % 2 ^ 1 = bias.toNat),
    show fld (bias.toNat + 2 * act.toNat + 4 * req.toNat + 8 * rm1.val + 64 * slot.val) 1 1 = act.toNat from (by omega :
        (bias.toNat + 2 * act.toNat + 4 * req.toNat + 8 * rm1.val + 64 * slot.val) / 2 ^ 1 % 2 ^ 1 = act.toNat),
    show fld (bias.toNat + 2 * act.toNat + 4 * req.toNat + 8 * rm1.val + 64 * slot.val) 2 1 = req.toNat from (by omega :
        (bias.toNat + 2 * act.toNat + 4 * req.toNat + 8 * rm1.val + 64 * slot.val) / 2 ^ 2 % 2 ^ 1 = req.toNat),
    show fld (bias.toNat + 2 * act.toNat + 4 * req.toNat + 8 * rm1.val + 64 * slot.val) 3 3 = rm1.val from (by omega :
        (bias.toNat + 2 * act.toNat + 4 * req.toNat + 8 * rm1.val + 64 * slot.val) / 2 ^ 3 % 2 ^ 3 = rm1.val),
    show fld (bias.toNat + 2 * act.toNat + 4 * req.toNat + 8 * rm1.val + 64 * slot.val) 6 6 = slot.val from (by omega :
        (bias.toNat + 2 * act.toNat + 4 * req.toNat + 8 * rm1.val + 64 * slot.val) / 2 ^ 6 % 2 ^ 6 = slot.val)]
  simp only [bit, low]

theorem epcfg (o : Opnds) : Statement (.epcfg o) := by
  refine of_build rfl (show 152 < 2 ^ 8 by decide) (show 0 < 2 ^ 12 by omega) rfl fun off => ?_
  rfl

theorem actld (o : Opnds) : Statement (.actld o) := by
  refine of_build rfl (show 153 < 2 ^ 8 by decide) (show 0 < 2 ^ 12 by omega) rfl fun off => ?_
  rfl

theorem matrixCommandExecute (pair : Nat) : Statement (.matrixCommandExecute pair) := of_none rfl

theorem matrixCommandComplete (pair : Nat) : Statement (.matrixCommandComplete pair) := of_none rfl

theorem epilogueCommandExecute (pair : Nat) : Statement (.epilogueCommandExecute pair) := of_none rfl

theorem epilogueCommandComplete (pair : Nat) : Statement (.epilogueCommandComplete pair) := of_none rfl

theorem accumGranulesCleared (pair : Nat) : Statement (.accumGranulesCleared pair) := of_none rfl

theorem atom (o : Opnds) (opc : AtOp) (ord : AtOrd) (scope : Scope) (koff : Bool) : Statement (.atom o opc ord scope koff)
    := by
  have hopc := atOpCode opc
  have hord := atOrdCode ord
  have hscope := scopeCode scope
  have hkoff := koff.toNat_lt
  refine of_build rfl (show 160 < 2 ^ 8 by decide) (show opc.code + 16 * ord.code + 64 * scope.code + 512 * koff.toNat < 2
      ^ 12 by omega) rfl fun off => ?_
  show ((AtOp.ofCode (fld (opc.code + 16 * ord.code + 64 * scope.code + 512 * koff.toNat) 0 4)).bind fun opc1 =>
      (AtOrd.ofCode (fld (opc.code + 16 * ord.code + 64 * scope.code + 512 * koff.toNat) 4 2)).bind fun ord1 =>
      (Scope.ofCode (fld (opc.code + 16 * ord.code + 64 * scope.code + 512 * koff.toNat) 6 3)).bind fun scope1 => some
      (.atom o opc1 ord1 scope1 (fld (opc.code + 16 * ord.code + 64 * scope.code + 512 * koff.toNat) 9 1 == 1)) : Option
      Instr) = _
  rw [show fld (opc.code + 16 * ord.code + 64 * scope.code + 512 * koff.toNat) 0 4 = opc.code from (by omega : (opc.code +
      16 * ord.code + 64 * scope.code + 512 * koff.toNat) / 2 ^ 0 % 2 ^ 4 = opc.code),
    show fld (opc.code + 16 * ord.code + 64 * scope.code + 512 * koff.toNat) 4 2 = ord.code from (by omega : (opc.code + 16
        * ord.code + 64 * scope.code + 512 * koff.toNat) / 2 ^ 4 % 2 ^ 2 = ord.code),
    show fld (opc.code + 16 * ord.code + 64 * scope.code + 512 * koff.toNat) 6 3 = scope.code from (by omega : (opc.code +
        16 * ord.code + 64 * scope.code + 512 * koff.toNat) / 2 ^ 6 % 2 ^ 3 = scope.code),
    show fld (opc.code + 16 * ord.code + 64 * scope.code + 512 * koff.toNat) 9 1 = koff.toNat from (by omega : (opc.code +
        16 * ord.code + 64 * scope.code + 512 * koff.toNat) / 2 ^ 9 % 2 ^ 1 = koff.toNat)]
  simp only [hopc.2, hord.2, hscope.2, bit, Option.bind_some]

theorem atomcas (o : Opnds) (ord : AtOrd) (scope : Scope) (koff : Bool) : Statement (.atomcas o ord scope koff) := by
  have hord := atOrdCode ord
  have hscope := scopeCode scope
  have hkoff := koff.toNat_lt
  refine of_build rfl (show 161 < 2 ^ 8 by decide) (show 16 * ord.code + 64 * scope.code + 512 * koff.toNat < 2 ^ 12 by
      omega) rfl fun off => ?_
  show ((AtOrd.ofCode (fld (16 * ord.code + 64 * scope.code + 512 * koff.toNat) 4 2)).bind fun ord1 => (Scope.ofCode (fld
      (16 * ord.code + 64 * scope.code + 512 * koff.toNat) 6 3)).bind fun scope1 => some (.atomcas o ord1 scope1 (fld (16 *
      ord.code + 64 * scope.code + 512 * koff.toNat) 9 1 == 1)) : Option Instr) = _
  rw [show fld (16 * ord.code + 64 * scope.code + 512 * koff.toNat) 4 2 = ord.code from (by omega : (16 * ord.code + 64 *
      scope.code + 512 * koff.toNat) / 2 ^ 4 % 2 ^ 2 = ord.code),
    show fld (16 * ord.code + 64 * scope.code + 512 * koff.toNat) 6 3 = scope.code from (by omega : (16 * ord.code + 64 *
        scope.code + 512 * koff.toNat) / 2 ^ 6 % 2 ^ 3 = scope.code),
    show fld (16 * ord.code + 64 * scope.code + 512 * koff.toNat) 9 1 = koff.toNat from (by omega : (16 * ord.code + 64 *
        scope.code + 512 * koff.toNat) / 2 ^ 9 % 2 ^ 1 = koff.toNat)]
  simp only [hord.2, hscope.2, bit, Option.bind_some]

theorem red (o : Opnds) (opc : AtOp) (ord : AtOrd) (scope : Scope) (koff : Bool) : Statement (.red o opc ord scope koff) :=
    by
  have hopc := atOpCode opc
  have hord := atOrdCode ord
  have hscope := scopeCode scope
  have hkoff := koff.toNat_lt
  refine of_build rfl (show 162 < 2 ^ 8 by decide) (show opc.code + 16 * ord.code + 64 * scope.code + 512 * koff.toNat < 2
      ^ 12 by omega) rfl fun off => ?_
  show ((AtOp.ofCode (fld (opc.code + 16 * ord.code + 64 * scope.code + 512 * koff.toNat) 0 4)).bind fun opc1 =>
      (AtOrd.ofCode (fld (opc.code + 16 * ord.code + 64 * scope.code + 512 * koff.toNat) 4 2)).bind fun ord1 =>
      (Scope.ofCode (fld (opc.code + 16 * ord.code + 64 * scope.code + 512 * koff.toNat) 6 3)).bind fun scope1 => some
      (.red o opc1 ord1 scope1 (fld (opc.code + 16 * ord.code + 64 * scope.code + 512 * koff.toNat) 9 1 == 1)) : Option
      Instr) = _
  rw [show fld (opc.code + 16 * ord.code + 64 * scope.code + 512 * koff.toNat) 0 4 = opc.code from (by omega : (opc.code +
      16 * ord.code + 64 * scope.code + 512 * koff.toNat) / 2 ^ 0 % 2 ^ 4 = opc.code),
    show fld (opc.code + 16 * ord.code + 64 * scope.code + 512 * koff.toNat) 4 2 = ord.code from (by omega : (opc.code + 16
        * ord.code + 64 * scope.code + 512 * koff.toNat) / 2 ^ 4 % 2 ^ 2 = ord.code),
    show fld (opc.code + 16 * ord.code + 64 * scope.code + 512 * koff.toNat) 6 3 = scope.code from (by omega : (opc.code +
        16 * ord.code + 64 * scope.code + 512 * koff.toNat) / 2 ^ 6 % 2 ^ 3 = scope.code),
    show fld (opc.code + 16 * ord.code + 64 * scope.code + 512 * koff.toNat) 9 1 = koff.toNat from (by omega : (opc.code +
        16 * ord.code + 64 * scope.code + 512 * koff.toNat) / 2 ^ 9 % 2 ^ 1 = koff.toNat)]
  simp only [hopc.2, hord.2, hscope.2, bit, Option.bind_some]

theorem atoms (o : Opnds) (opc : AtOp) (ord : AtOrd) (scope : Scope) (koff : Bool) : Statement (.atoms o opc ord scope
    koff) := by
  have hopc := atOpCode opc
  have hord := atOrdCode ord
  have hscope := scopeCode scope
  have hkoff := koff.toNat_lt
  refine of_build rfl (show 163 < 2 ^ 8 by decide) (show opc.code + 16 * ord.code + 64 * scope.code + 512 * koff.toNat < 2
      ^ 12 by omega) rfl fun off => ?_
  show ((AtOp.ofCode (fld (opc.code + 16 * ord.code + 64 * scope.code + 512 * koff.toNat) 0 4)).bind fun opc1 =>
      (AtOrd.ofCode (fld (opc.code + 16 * ord.code + 64 * scope.code + 512 * koff.toNat) 4 2)).bind fun ord1 =>
      (Scope.ofCode (fld (opc.code + 16 * ord.code + 64 * scope.code + 512 * koff.toNat) 6 3)).bind fun scope1 => some
      (.atoms o opc1 ord1 scope1 (fld (opc.code + 16 * ord.code + 64 * scope.code + 512 * koff.toNat) 9 1 == 1)) : Option
      Instr) = _
  rw [show fld (opc.code + 16 * ord.code + 64 * scope.code + 512 * koff.toNat) 0 4 = opc.code from (by omega : (opc.code +
      16 * ord.code + 64 * scope.code + 512 * koff.toNat) / 2 ^ 0 % 2 ^ 4 = opc.code),
    show fld (opc.code + 16 * ord.code + 64 * scope.code + 512 * koff.toNat) 4 2 = ord.code from (by omega : (opc.code + 16
        * ord.code + 64 * scope.code + 512 * koff.toNat) / 2 ^ 4 % 2 ^ 2 = ord.code),
    show fld (opc.code + 16 * ord.code + 64 * scope.code + 512 * koff.toNat) 6 3 = scope.code from (by omega : (opc.code +
        16 * ord.code + 64 * scope.code + 512 * koff.toNat) / 2 ^ 6 % 2 ^ 3 = scope.code),
    show fld (opc.code + 16 * ord.code + 64 * scope.code + 512 * koff.toNat) 9 1 = koff.toNat from (by omega : (opc.code +
        16 * ord.code + 64 * scope.code + 512 * koff.toNat) / 2 ^ 9 % 2 ^ 1 = koff.toNat)]
  simp only [hopc.2, hord.2, hscope.2, bit, Option.bind_some]

theorem atomsc (o : Opnds) (ord : AtOrd) (scope : Scope) (koff : Bool) : Statement (.atomsc o ord scope koff) := by
  have hord := atOrdCode ord
  have hscope := scopeCode scope
  have hkoff := koff.toNat_lt
  refine of_build rfl (show 164 < 2 ^ 8 by decide) (show 16 * ord.code + 64 * scope.code + 512 * koff.toNat < 2 ^ 12 by
      omega) rfl fun off => ?_
  show ((AtOrd.ofCode (fld (16 * ord.code + 64 * scope.code + 512 * koff.toNat) 4 2)).bind fun ord1 => (Scope.ofCode (fld
      (16 * ord.code + 64 * scope.code + 512 * koff.toNat) 6 3)).bind fun scope1 => some (.atomsc o ord1 scope1 (fld (16 *
      ord.code + 64 * scope.code + 512 * koff.toNat) 9 1 == 1)) : Option Instr) = _
  rw [show fld (16 * ord.code + 64 * scope.code + 512 * koff.toNat) 4 2 = ord.code from (by omega : (16 * ord.code + 64 *
      scope.code + 512 * koff.toNat) / 2 ^ 4 % 2 ^ 2 = ord.code),
    show fld (16 * ord.code + 64 * scope.code + 512 * koff.toNat) 6 3 = scope.code from (by omega : (16 * ord.code + 64 *
        scope.code + 512 * koff.toNat) / 2 ^ 6 % 2 ^ 3 = scope.code),
    show fld (16 * ord.code + 64 * scope.code + 512 * koff.toNat) 9 1 = koff.toNat from (by omega : (16 * ord.code + 64 *
        scope.code + 512 * koff.toNat) / 2 ^ 9 % 2 ^ 1 = koff.toNat)]
  simp only [hord.2, hscope.2, bit, Option.bind_some]

theorem atomc (o : Opnds) (ord : AtOrd) (scope : Scope) (koff : Bool) : Statement (.atomc o ord scope koff) := by
  have hord := atOrdCode ord
  have hscope := scopeCode scope
  have hkoff := koff.toNat_lt
  refine of_build rfl (show 165 < 2 ^ 8 by decide) (show 16 * ord.code + 64 * scope.code + 512 * koff.toNat < 2 ^ 12 by
      omega) rfl fun off => ?_
  show ((AtOrd.ofCode (fld (16 * ord.code + 64 * scope.code + 512 * koff.toNat) 4 2)).bind fun ord1 => (Scope.ofCode (fld
      (16 * ord.code + 64 * scope.code + 512 * koff.toNat) 6 3)).bind fun scope1 => some (.atomc o ord1 scope1 (fld (16 *
      ord.code + 64 * scope.code + 512 * koff.toNat) 9 1 == 1)) : Option Instr) = _
  rw [show fld (16 * ord.code + 64 * scope.code + 512 * koff.toNat) 4 2 = ord.code from (by omega : (16 * ord.code + 64 *
      scope.code + 512 * koff.toNat) / 2 ^ 4 % 2 ^ 2 = ord.code),
    show fld (16 * ord.code + 64 * scope.code + 512 * koff.toNat) 6 3 = scope.code from (by omega : (16 * ord.code + 64 *
        scope.code + 512 * koff.toNat) / 2 ^ 6 % 2 ^ 3 = scope.code),
    show fld (16 * ord.code + 64 * scope.code + 512 * koff.toNat) 9 1 = koff.toNat from (by omega : (16 * ord.code + 64 *
        scope.code + 512 * koff.toNat) / 2 ^ 9 % 2 ^ 1 = koff.toNat)]
  simp only [hord.2, hscope.2, bit, Option.bind_some]

theorem rdc (o : Opnds) (ord : AtOrd) (scope : Scope) (koff : Bool) : Statement (.rdc o ord scope koff) := by
  have hord := atOrdCode ord
  have hscope := scopeCode scope
  have hkoff := koff.toNat_lt
  refine of_build rfl (show 166 < 2 ^ 8 by decide) (show 16 * ord.code + 64 * scope.code + 512 * koff.toNat < 2 ^ 12 by
      omega) rfl fun off => ?_
  show ((AtOrd.ofCode (fld (16 * ord.code + 64 * scope.code + 512 * koff.toNat) 4 2)).bind fun ord1 => (Scope.ofCode (fld
      (16 * ord.code + 64 * scope.code + 512 * koff.toNat) 6 3)).bind fun scope1 => some (.rdc o ord1 scope1 (fld (16 *
      ord.code + 64 * scope.code + 512 * koff.toNat) 9 1 == 1)) : Option Instr) = _
  rw [show fld (16 * ord.code + 64 * scope.code + 512 * koff.toNat) 4 2 = ord.code from (by omega : (16 * ord.code + 64 *
      scope.code + 512 * koff.toNat) / 2 ^ 4 % 2 ^ 2 = ord.code),
    show fld (16 * ord.code + 64 * scope.code + 512 * koff.toNat) 6 3 = scope.code from (by omega : (16 * ord.code + 64 *
        scope.code + 512 * koff.toNat) / 2 ^ 6 % 2 ^ 3 = scope.code),
    show fld (16 * ord.code + 64 * scope.code + 512 * koff.toNat) 9 1 = koff.toNat from (by omega : (16 * ord.code + 64 *
        scope.code + 512 * koff.toNat) / 2 ^ 9 % 2 ^ 1 = koff.toNat)]
  simp only [hord.2, hscope.2, bit, Option.bind_some]

theorem fence (o : Opnds) (kind : FenceKind) (scope : Scope) : Statement (.fence o kind scope) := by
  have hkind := fenceKindCode kind
  have hscope := scopeCode scope
  refine of_build rfl (show 176 < 2 ^ 8 by decide) (show kind.code + 4 * scope.code < 2 ^ 12 by omega) rfl fun off => ?_
  show ((FenceKind.ofCode (fld (kind.code + 4 * scope.code) 0 2)).bind fun kind1 => (Scope.ofCode (fld (kind.code + 4 *
      scope.code) 2 3)).bind fun scope1 => some (.fence o kind1 scope1) : Option Instr) = _
  rw [show fld (kind.code + 4 * scope.code) 0 2 = kind.code from (by omega : (kind.code + 4 * scope.code) / 2 ^ 0 % 2 ^ 2 =
      kind.code),
    show fld (kind.code + 4 * scope.code) 2 3 = scope.code from (by omega : (kind.code + 4 * scope.code) / 2 ^ 2 % 2 ^ 3 =
        scope.code)]
  simp only [hkind.2, hscope.2, Option.bind_some]

theorem bar (o : Opnds) : Statement (.bar o) := by
  refine of_build rfl (show 177 < 2 ^ 8 by decide) (show 0 < 2 ^ 12 by omega) rfl fun off => ?_
  rfl

theorem bara (o : Opnds) : Statement (.bara o) := by
  refine of_build rfl (show 178 < 2 ^ 8 by decide) (show 0 < 2 ^ 12 by omega) rfl fun off => ?_
  rfl

theorem barw (o : Opnds) : Statement (.barw o) := by
  refine of_build rfl (show 179 < 2 ^ 8 by decide) (show 0 < 2 ^ 12 by omega) rfl fun off => ?_
  rfl

theorem gbar (o : Opnds) : Statement (.gbar o) := by
  refine of_build rfl (show 180 < 2 ^ 8 by decide) (show 0 < 2 ^ 12 by omega) rfl fun off => ?_
  rfl

theorem arv (o : Opnds) (scope : Scope) (sp : Bool) : Statement (.arv o scope sp) := by
  have hscope := scopeCode scope
  have hsp := sp.toNat_lt
  refine of_build rfl (show 181 < 2 ^ 8 by decide) (show scope.code + 8 * sp.toNat < 2 ^ 12 by omega) rfl fun off => ?_
  show ((Scope.ofCode (fld (scope.code + 8 * sp.toNat) 0 3)).bind fun scope1 => some (.arv o scope1 (fld (scope.code + 8 *
      sp.toNat) 3 1 == 1)) : Option Instr) = _
  rw [show fld (scope.code + 8 * sp.toNat) 0 3 = scope.code from (by omega : (scope.code + 8 * sp.toNat) / 2 ^ 0 % 2 ^ 3 =
      scope.code),
    show fld (scope.code + 8 * sp.toNat) 3 1 = sp.toNat from (by omega : (scope.code + 8 * sp.toNat) / 2 ^ 3 % 2 ^ 1 =
        sp.toNat)]
  simp only [hscope.2, bit, Option.bind_some]

theorem await (o : Opnds) (scope : Scope) (sp : Bool) : Statement (.await o scope sp) := by
  have hscope := scopeCode scope
  have hsp := sp.toNat_lt
  refine of_build rfl (show 182 < 2 ^ 8 by decide) (show scope.code + 8 * sp.toNat < 2 ^ 12 by omega) rfl fun off => ?_
  show ((Scope.ofCode (fld (scope.code + 8 * sp.toNat) 0 3)).bind fun scope1 => some (.await o scope1 (fld (scope.code + 8
      * sp.toNat) 3 1 == 1)) : Option Instr) = _
  rw [show fld (scope.code + 8 * sp.toNat) 0 3 = scope.code from (by omega : (scope.code + 8 * sp.toNat) / 2 ^ 0 % 2 ^ 3 =
      scope.code),
    show fld (scope.code + 8 * sp.toNat) 3 1 = sp.toNat from (by omega : (scope.code + 8 * sp.toNat) / 2 ^ 3 % 2 ^ 1 =
        sp.toNat)]
  simp only [hscope.2, bit, Option.bind_some]

theorem ringa (o : Opnds) (slot : Fin 64) : Statement (.ringa o slot) := by
  have hslot := slot.isLt
  refine of_build rfl (show 183 < 2 ^ 8 by decide) (show slot.val < 2 ^ 12 by omega) rfl fun off => ?_
  show (some (.ringa o (Fin.ofNat 64 (fld (slot.val) 0 6))) : Option Instr) = _
  rw [show fld (slot.val) 0 6 = slot.val from (by omega : (slot.val) / 2 ^ 0 % 2 ^ 6 = slot.val)]
  simp only [low]

theorem ringw (o : Opnds) (slot : Fin 64) : Statement (.ringw o slot) := by
  have hslot := slot.isLt
  refine of_build rfl (show 184 < 2 ^ 8 by decide) (show slot.val < 2 ^ 12 by omega) rfl fun off => ?_
  show (some (.ringw o (Fin.ofNat 64 (fld (slot.val) 0 6))) : Option Instr) = _
  rw [show fld (slot.val) 0 6 = slot.val from (by omega : (slot.val) / 2 ^ 0 % 2 ^ 6 = slot.val)]
  simp only [low]

theorem lkacq (o : Opnds) (wait : Bool) : Statement (.lkacq o wait) := by
  have hwait := wait.toNat_lt
  refine of_build rfl (show 185 < 2 ^ 8 by decide) (show wait.toNat < 2 ^ 12 by omega) rfl fun off => ?_
  show (some (.lkacq o (fld (wait.toNat) 0 1 == 1)) : Option Instr) = _
  rw [show fld (wait.toNat) 0 1 = wait.toNat from (by omega : (wait.toNat) / 2 ^ 0 % 2 ^ 1 = wait.toNat)]
  simp only [bit]

theorem lkrel (o : Opnds) : Statement (.lkrel o) := by
  refine of_build rfl (show 186 < 2 ^ 8 by decide) (show 0 < 2 ^ 12 by omega) rfl fun off => ?_
  rfl

theorem waitv (o : Opnds) (scope : Scope) : Statement (.waitv o scope) := by
  have hscope := scopeCode scope
  refine of_build rfl (show 187 < 2 ^ 8 by decide) (show scope.code < 2 ^ 12 by omega) rfl fun off => ?_
  show ((Scope.ofCode (fld (scope.code) 0 3)).bind fun scope1 => some (.waitv o scope1) : Option Instr) = _
  rw [show fld (scope.code) 0 3 = scope.code from (by omega : (scope.code) / 2 ^ 0 % 2 ^ 3 = scope.code)]
  simp only [hscope.2, Option.bind_some]

theorem wake (o : Opnds) (scope : Scope) : Statement (.wake o scope) := by
  have hscope := scopeCode scope
  refine of_build rfl (show 188 < 2 ^ 8 by decide) (show scope.code < 2 ^ 12 by omega) rfl fun off => ?_
  show ((Scope.ofCode (fld (scope.code) 0 3)).bind fun scope1 => some (.wake o scope1) : Option Instr) = _
  rw [show fld (scope.code) 0 3 = scope.code from (by omega : (scope.code) / 2 ^ 0 % 2 ^ 3 = scope.code)]
  simp only [hscope.2, Option.bind_some]

theorem launch (o : Opnds) (nreg : Fin 5) (wait : Bool) (barrier : Bool) (irq : Bool) : Statement (.launch o nreg wait
    barrier irq) := by
  have hnreg := nreg.isLt
  have hwait := wait.toNat_lt
  have hbarrier := barrier.toNat_lt
  have hirq := irq.toNat_lt
  refine of_build rfl (show 192 < 2 ^ 8 by decide) (show nreg.val + 8 * wait.toNat + 16 * barrier.toNat + 32 * irq.toNat <
      2 ^ 12 by omega) rfl fun off => ?_
  show ((finOf 5 (fld (nreg.val + 8 * wait.toNat + 16 * barrier.toNat + 32 * irq.toNat) 0 3)).bind fun nreg1 => some
      (.launch o nreg1 (fld (nreg.val + 8 * wait.toNat + 16 * barrier.toNat + 32 * irq.toNat) 3 1 == 1) (fld (nreg.val + 8
      * wait.toNat + 16 * barrier.toNat + 32 * irq.toNat) 4 1 == 1) (fld (nreg.val + 8 * wait.toNat + 16 * barrier.toNat +
      32 * irq.toNat) 5 1 == 1)) : Option Instr) = _
  rw [show fld (nreg.val + 8 * wait.toNat + 16 * barrier.toNat + 32 * irq.toNat) 0 3 = nreg.val from (by omega : (nreg.val
      + 8 * wait.toNat + 16 * barrier.toNat + 32 * irq.toNat) / 2 ^ 0 % 2 ^ 3 = nreg.val),
    show fld (nreg.val + 8 * wait.toNat + 16 * barrier.toNat + 32 * irq.toNat) 3 1 = wait.toNat from (by omega : (nreg.val
        + 8 * wait.toNat + 16 * barrier.toNat + 32 * irq.toNat) / 2 ^ 3 % 2 ^ 1 = wait.toNat),
    show fld (nreg.val + 8 * wait.toNat + 16 * barrier.toNat + 32 * irq.toNat) 4 1 = barrier.toNat from (by omega :
        (nreg.val + 8 * wait.toNat + 16 * barrier.toNat + 32 * irq.toNat) / 2 ^ 4 % 2 ^ 1 = barrier.toNat),
    show fld (nreg.val + 8 * wait.toNat + 16 * barrier.toNat + 32 * irq.toNat) 5 1 = irq.toNat from (by omega : (nreg.val +
        8 * wait.toNat + 16 * barrier.toNat + 32 * irq.toNat) / 2 ^ 5 % 2 ^ 1 = irq.toNat)]
  simp only [finOf_val, bit, Option.bind_some]

theorem gwait (o : Opnds) (vouch : Bool) : Statement (.gwait o vouch) := by
  have hvouch := vouch.toNat_lt
  refine of_build rfl (show 193 < 2 ^ 8 by decide) (show vouch.toNat < 2 ^ 12 by omega) rfl fun off => ?_
  show (some (.gwait o (fld (vouch.toNat) 0 1 == 1)) : Option Instr) = _
  rw [show fld (vouch.toNat) 0 1 = vouch.toNat from (by omega : (vouch.toNat) / 2 ^ 0 % 2 ^ 1 = vouch.toNat)]
  simp only [bit]

theorem qpush (o : Opnds) (wait : Bool) : Statement (.qpush o wait) := by
  have hwait := wait.toNat_lt
  refine of_build rfl (show 194 < 2 ^ 8 by decide) (show wait.toNat < 2 ^ 12 by omega) rfl fun off => ?_
  show (some (.qpush o (fld (wait.toNat) 0 1 == 1)) : Option Instr) = _
  rw [show fld (wait.toNat) 0 1 = wait.toNat from (by omega : (wait.toNat) / 2 ^ 0 % 2 ^ 1 = wait.toNat)]
  simp only [bit]

theorem qpop (o : Opnds) (wait : Bool) : Statement (.qpop o wait) := by
  have hwait := wait.toNat_lt
  refine of_build rfl (show 195 < 2 ^ 8 by decide) (show wait.toNat < 2 ^ 12 by omega) rfl fun off => ?_
  show (some (.qpop o (fld (wait.toNat) 0 1 == 1)) : Option Instr) = _
  rw [show fld (wait.toNat) 0 1 = wait.toNat from (by omega : (wait.toNat) / 2 ^ 0 % 2 ^ 1 = wait.toNat)]
  simp only [bit]

theorem shape (o : Opnds) : Statement (.shape o) := by
  refine of_build rfl (show 196 < 2 ^ 8 by decide) (show 0 < 2 ^ 12 by omega) rfl fun off => ?_
  rfl

theorem provq (o : Opnds) (mode : ProvqMode) : Statement (.provq o mode) := by
  have hmode := provqModeCode mode
  refine of_build rfl (show 197 < 2 ^ 8 by decide) (show mode.code < 2 ^ 12 by omega) rfl fun off => ?_
  show ((ProvqMode.ofCode (fld (mode.code) 0 2)).bind fun mode1 => some (.provq o mode1) : Option Instr) = _
  rw [show fld (mode.code) 0 2 = mode.code from (by omega : (mode.code) / 2 ^ 0 % 2 ^ 2 = mode.code)]
  simp only [hmode.2, Option.bind_some]

theorem svc (o : Opnds) (code : BitVec 8) : Statement (.svc o code) := by
  have hcode := code.isLt
  refine of_build rfl (show 208 < 2 ^ 8 by decide) (show code.toNat < 2 ^ 12 by omega) rfl fun off => ?_
  show (some (.svc o (BitVec.ofNat 8 (fld (code.toNat) 0 8))) : Option Instr) = _
  rw [show fld (code.toNat) 0 8 = code.toNat from (by omega : (code.toNat) / 2 ^ 0 % 2 ^ 8 = code.toNat)]
  simp only [bits]

theorem rfe (o : Opnds) : Statement (.rfe o) := by
  refine of_build rfl (show 209 < 2 ^ 8 by decide) (show 0 < 2 ^ 12 by omega) rfl fun off => ?_
  rfl

theorem pgpop (o : Opnds) : Statement (.pgpop o) := by
  refine of_build rfl (show 210 < 2 ^ 8 by decide) (show 0 < 2 ^ 12 by omega) rfl fun off => ?_
  rfl

theorem pgmap (o : Opnds) (level : Fin 3) : Statement (.pgmap o level) := by
  have hlevel := level.isLt
  refine of_build rfl (show 211 < 2 ^ 8 by decide) (show level.val < 2 ^ 12 by omega) rfl fun off => ?_
  show ((finOf 3 (fld (level.val) 0 2)).bind fun level1 => some (.pgmap o level1) : Option Instr) = _
  rw [show fld (level.val) 0 2 = level.val from (by omega : (level.val) / 2 ^ 0 % 2 ^ 2 = level.val)]
  simp only [finOf_val, Option.bind_some]

theorem tlbinv (o : Opnds) (kind : InvKind) : Statement (.tlbinv o kind) := by
  have hkind := invKindCode kind
  refine of_build rfl (show 212 < 2 ^ 8 by decide) (show kind.code < 2 ^ 12 by omega) rfl fun off => ?_
  show ((InvKind.ofCode (fld (kind.code) 0 2)).bind fun kind1 => some (.tlbinv o kind1) : Option Instr) = _
  rw [show fld (kind.code) 0 2 = kind.code from (by omega : (kind.code) / 2 ^ 0 % 2 ^ 2 = kind.code)]
  simp only [hkind.2, Option.bind_some]

theorem replay (o : Opnds) (tok : Bool) : Statement (.replay o tok) := by
  have htok := tok.toNat_lt
  refine of_build rfl (show 213 < 2 ^ 8 by decide) (show tok.toNat < 2 ^ 12 by omega) rfl fun off => ?_
  show (some (.replay o (fld (tok.toNat) 0 1 == 1)) : Option Instr) = _
  rw [show fld (tok.toNat) 0 1 = tok.toNat from (by omega : (tok.toNat) / 2 ^ 0 % 2 ^ 1 = tok.toNat)]
  simp only [bit]

theorem park (o : Opnds) : Statement (.park o) := by
  refine of_build rfl (show 214 < 2 ^ 8 by decide) (show 0 < 2 ^ 12 by omega) rfl fun off => ?_
  rfl

theorem csrrd (o : Opnds) (num : Csr) : Statement (.csrrd o num) := by
  have hnum := csrCode num
  refine of_build rfl (show 215 < 2 ^ 8 by decide) (show num.code < 2 ^ 12 by omega) rfl fun off => ?_
  show ((Csr.ofCode (fld (num.code) 0 8)).bind fun num1 => some (.csrrd o num1) : Option Instr) = _
  rw [show fld (num.code) 0 8 = num.code from (by omega : (num.code) / 2 ^ 0 % 2 ^ 8 = num.code)]
  simp only [hnum.2, Option.bind_some]

theorem csrwr (o : Opnds) (num : Csr) : Statement (.csrwr o num) := by
  have hnum := csrCode num
  refine of_build rfl (show 216 < 2 ^ 8 by decide) (show num.code < 2 ^ 12 by omega) rfl fun off => ?_
  show ((Csr.ofCode (fld (num.code) 0 8)).bind fun num1 => some (.csrwr o num1) : Option Instr) = _
  rw [show fld (num.code) 0 8 = num.code from (by omega : (num.code) / 2 ^ 0 % 2 ^ 8 = num.code)]
  simp only [hnum.2, Option.bind_some]

theorem poisck (o : Opnds) : Statement (.poisck o) := by
  refine of_build rfl (show 217 < 2 ^ 8 by decide) (show 0 < 2 ^ 12 by omega) rfl fun off => ?_
  rfl

theorem trace (o : Opnds) (tag : BitVec 8) (n : Fin 9) : Statement (.trace o tag n) := by
  have htag := tag.isLt
  have hn := n.isLt
  refine of_build rfl (show 224 < 2 ^ 8 by decide) (show tag.toNat + 256 * n.val < 2 ^ 12 by omega) rfl fun off => ?_
  show ((finOf 9 (fld (tag.toNat + 256 * n.val) 8 4)).bind fun n1 => some (.trace o (BitVec.ofNat 8 (fld (tag.toNat + 256 *
      n.val) 0 8)) n1) : Option Instr) = _
  rw [show fld (tag.toNat + 256 * n.val) 0 8 = tag.toNat from (by omega : (tag.toNat + 256 * n.val) / 2 ^ 0 % 2 ^ 8 =
      tag.toNat),
    show fld (tag.toNat + 256 * n.val) 8 4 = n.val from (by omega : (tag.toNat + 256 * n.val) / 2 ^ 8 % 2 ^ 4 = n.val)]
  simp only [bits, finOf_val, Option.bind_some]

theorem tmark (o : Opnds) : Statement (.tmark o) := by
  refine of_build rfl (show 225 < 2 ^ 8 by decide) (show 0 < 2 ^ 12 by omega) rfl fun off => ?_
  rfl

theorem rdcnt (o : Opnds) (num : Fin 256) : Statement (.rdcnt o num) := by
  have hnum := num.isLt
  refine of_build rfl (show 226 < 2 ^ 8 by decide) (show num.val < 2 ^ 12 by omega) rfl fun off => ?_
  show (some (.rdcnt o (Fin.ofNat 256 (fld (num.val) 0 8))) : Option Instr) = _
  rw [show fld (num.val) 0 8 = num.val from (by omega : (num.val) / 2 ^ 0 % 2 ^ 8 = num.val)]
  simp only [low]

theorem rdptp (o : Opnds) (full : Bool) : Statement (.rdptp o full) := by
  have hfull := full.toNat_lt
  refine of_build rfl (show 227 < 2 ^ 8 by decide) (show full.toNat < 2 ^ 12 by omega) rfl fun off => ?_
  show (some (.rdptp o (fld (full.toNat) 0 1 == 1)) : Option Instr) = _
  rw [show fld (full.toNat) 0 1 = full.toNat from (by omega : (full.toNat) / 2 ^ 0 % 2 ^ 1 = full.toNat)]
  simp only [bit]

theorem halt (o : Opnds) (dump : Bool) : Statement (.halt o dump) := by
  have hdump := dump.toNat_lt
  refine of_build rfl (show 228 < 2 ^ 8 by decide) (show dump.toNat < 2 ^ 12 by omega) rfl fun off => ?_
  show (some (.halt o (fld (dump.toNat) 0 1 == 1)) : Option Instr) = _
  rw [show fld (dump.toNat) 0 1 = dump.toNat from (by omega : (dump.toNat) / 2 ^ 0 % 2 ^ 1 = dump.toNat)]
  simp only [bit]

theorem queueTailObserve (ctx : Nat) (q : Nat) : Statement (.queueTailObserve ctx q) := of_none rfl

theorem queueEntryConsume (ctx : Nat) (q : Nat) : Statement (.queueEntryConsume ctx q) := of_none rfl

theorem launchEntry (ctx : Nat) (q : Nat) : Statement (.launchEntry ctx q) := of_none rfl

theorem shapeEntry (ctx : Nat) (q : Nat) : Statement (.shapeEntry ctx q) := of_none rfl

theorem replayEntry (ctx : Nat) (q : Nat) : Statement (.replayEntry ctx q) := of_none rfl

theorem waitcEntry (ctx : Nat) (q : Nat) : Statement (.waitcEntry ctx q) := of_none rfl

theorem signalEntry (ctx : Nat) (q : Nat) : Statement (.signalEntry ctx q) := of_none rfl

theorem queueEntryComplete (ctx : Nat) (q : Nat) (k : Nat) : Statement (.queueEntryComplete ctx q k) := of_none rfl

theorem queueRestart (ctx : Nat) (q : Nat) (skip : Bool) : Statement (.queueRestart ctx q skip) := of_none rfl

theorem queueStop (ctx : Nat) (q : Nat) : Statement (.queueStop ctx q) := of_none rfl

theorem proxyForward (ctx : Nat) (q : Nat) : Statement (.proxyForward ctx q) := of_none rfl

theorem proxyForwardTimer (ctx : Nat) (q : Nat) : Statement (.proxyForwardTimer ctx q) := of_none rfl

theorem priorityAgeing (ctx : Nat) (gid : Nat) : Statement (.priorityAgeing ctx gid) := of_none rfl

theorem blockPlacement (ctx : Nat) : Statement (.blockPlacement ctx) := of_none rfl

theorem blockRetire (blk : Nat) : Statement (.blockRetire blk) := of_none rfl

theorem preemptionRequest (blk : Nat) (trig : PreemptTrigger) : Statement (.preemptionRequest blk trig) := of_none rfl

theorem timeSliceExpiry (blk : Nat) : Statement (.timeSliceExpiry blk) := of_none rfl

theorem preemptBudgetExpiry (core : Nat) (slot : Nat) : Statement (.preemptBudgetExpiry core slot) := of_none rfl

theorem warpStopPoint (core : Nat) (slot : Nat) : Statement (.warpStopPoint core slot) := of_none rfl

theorem saveSpaceRetry (blk : Nat) : Statement (.saveSpaceRetry blk) := of_none rfl

theorem contextSwitchOut (ctx : SwitchOut) : Statement (.contextSwitchOut ctx) := of_none rfl

theorem contextSwitchIn (ctx : Nat) : Statement (.contextSwitchIn ctx) := of_none rfl

theorem migClaim (val : BitVec 64) : Statement (.migClaim val) := of_none rfl

theorem migRelease (val : BitVec 64) : Statement (.migRelease val) := of_none rfl

theorem migClaimExpiry (ctx : Nat) (page : Nat) : Statement (.migClaimExpiry ctx page) := of_none rfl

theorem pagePinExpiry (ctx : Nat) (page : Nat) : Statement (.pagePinExpiry ctx page) := of_none rfl

theorem ppsInput (second : BitVec 48) : Statement (.ppsInput second) := of_none rfl

theorem timeCorrection (ticks : Int) : Statement (.timeCorrection ticks) := of_none rfl

theorem traceDrain (ctx : Nat) (src : Nat) : Statement (.traceDrain ctx src) := of_none rfl

theorem traceDrainTimer (ctx : Nat) (src : Nat) : Statement (.traceDrainTimer ctx src) := of_none rfl

theorem losslessEscape (ctx : Nat) (src : Nat) : Statement (.losslessEscape ctx src) := of_none rfl

theorem traceSample (core : Nat) (slot : Nat) : Statement (.traceSample core slot) := of_none rfl

theorem counterSweep (ctx : Nat) : Statement (.counterSweep ctx) := of_none rfl

theorem dbgHaltBroadcast (ctx : Nat) : Statement (.dbgHaltBroadcast ctx) := of_none rfl

theorem dbgResumeAll (ctx : Nat) : Statement (.dbgResumeAll ctx) := of_none rfl

theorem dbgHaltAndDump (ctx : Nat) : Statement (.dbgHaltAndDump ctx) := of_none rfl

theorem dbgRead (cmd : BitVec 64) : Statement (.dbgRead cmd) := of_none rfl

theorem dbgWrite (cmd : BitVec 64) : Statement (.dbgWrite cmd) := of_none rfl

theorem dbgSetPc (cmd : BitVec 64) : Statement (.dbgSetPc cmd) := of_none rfl

theorem dbgResumeWarp (cmd : BitVec 64) : Statement (.dbgResumeWarp cmd) := of_none rfl

theorem dbgResumePastBreakpoint (cmd : BitVec 64) : Statement (.dbgResumePastBreakpoint cmd) := of_none rfl

theorem curatorVisitStart (die : Nat) : Statement (.curatorVisitStart die) := of_none rfl

theorem curatorDrainExpiry (core : Nat) : Statement (.curatorDrainExpiry core) := of_none rfl

theorem uncorrectableWordError (store : ErrStore) (owner : Nat) (index : Nat) (lane : Nat) : Statement
    (.uncorrectableWordError store owner index lane) := of_none rfl

theorem cacheSectorError (kind : CacheErr) (pa : SectorAddr) : Statement (.cacheSectorError kind pa) := of_none rfl

theorem frontierParityError (core : Nat) (slot : Nat) : Statement (.frontierParityError core slot) := of_none rfl

theorem translationParityError (ctx : Nat) (va : Nat) : Statement (.translationParityError ctx va) := of_none rfl

theorem instructionCacheParityError (core : Nat) : Statement (.instructionCacheParityError core) := of_none rfl

theorem registrarStateError (die : Nat) : Statement (.registrarStateError die) := of_none rfl

theorem engineStateError (matrix : Bool) (core : Nat) : Statement (.engineStateError matrix core) := of_none rfl

theorem engineTimeout (matrix : Bool) (core : Nat) : Statement (.engineTimeout matrix core) := of_none rfl

theorem partReset (val : BitVec 64) : Statement (.partReset val) := of_none rfl

theorem flitCheckFailure (link : LinkFlit) : Statement (.flitCheckFailure link) := of_none rfl

theorem laneFailure (link : Nat) : Statement (.laneFailure link) := of_none rfl

theorem thermalThrottle (temp : Nat) (gate : Nat) : Statement (.thermalThrottle temp gate) := of_none rfl

theorem thermalTrip : Statement .thermalTrip := of_none rfl

theorem powerLimitWrite (val : BitVec 64) : Statement (.powerLimitWrite val) := of_none rfl

theorem firmwareUpdate (image : FirmwareImage) : Statement (.firmwareUpdate image) := of_none rfl

theorem spdmMeasurementRequest (nonce : BitVec 256) : Statement (.spdmMeasurementRequest nonce) := of_none rfl

theorem peerMemoryAccess (acc : PeerAccess) : Statement (.peerMemoryAccess acc) := of_none rfl

theorem curatorHostRequest (core : Nat) : Statement (.curatorHostRequest core) := of_none rfl

theorem hostGangRelaunchOrAbandon (ctx : Nat) (gid : Nat) (gang : Nat) (relaunch : Bool) : Statement
    (.hostGangRelaunchOrAbandon ctx gid gang relaunch) := of_none rfl

theorem thermalThrottleRelease : Statement .thermalThrottleRelease := of_none rfl

end Sys2Proof.Laws.Rebuilt
end

