-- ==== Sys2Proof/Tests/Slice0.lean ====
section
/-! SUPPORT. Tests of the model, and witnesses: for each statement a concrete state and operands that meet its hypotheses.
Expected values are the spec's own examples or are worked out by hand from its rules. -/

namespace Sys2Proof.Tests

open Sys2Proof Sys2Proof.Machine

set_option maxRecDepth 100000
set_option Elab.async false

/-! Words, written field by field as R41 lays them out, with the codes of R44, R46 and each encoding table. -/

/-- The dword of R41: OP [62:55], D [54:47], A [46:39], B [38:31], C [30:23], GUARD [22:20], GNEG [19], TYPE [18:15],
FSEL [14], RELA [13] and RELB [12] (`rel`, 2 and 1), MOD [11:0]. -/
def w (op d a b c : Nat) (ty : Nat := 0) (mod : Nat := 0) (fs : Nat := 0) (rel : Nat := 0) (g : Nat := 7) (gn : Nat := 0) :
    DWord :=
  BitVec.ofNat 64 (op * 2 ^ 55 + d * 2 ^ 47 + a * 2 ^ 39 + b * 2 ^ 31 + c * 2 ^ 23 + g * 2 ^ 20 + gn * 2 ^ 19 + ty * 2 ^ 15
    + fs * 2 ^ 14 + rel * 2 ^ 12 + mod)

/-- The operands of a word with guard `always`, no flag select and no release. -/
def al (t : Ty) (d a b c : Opd) : Opnds := ⟨⟨7, false⟩, t, false, false, false, d, a, b, c⟩

/-- No operand. -/
abbrev N : Opd := .none

/-- Each word decodes to the instruction beside it, and is the instruction's encoding. -/
def reads (l : List (DWord × Instr)) : Bool :=
  l.all fun p => decide (decodeWord p.1 = .ok p.2) && decide (encode p.2 = some p.1) && p.2.wf

/-- Class 0x0 (R172 to R184). -/
def words0 : List (DWord × Instr) :=
  [(w 0x00 0 0 0 0, .nop (al .b32 N N N N)),
   (w 0x01 0 0xFF 0xFF 0xFE (mod := 1) (g := 3) (gn := 1),
     .bra ⟨⟨3, true⟩, .b32, false, false, false, N, N, N, N⟩ 0xFFFFFE true),
   (w 0x02 0 0x06 0 0, .bri (al .b32 N (.v 6) N N)),
   (w 0x03 0 0 0 3, .call (al .b32 N N N N) 3),
   (w 0x04 0 0x8E 0 0, .calli (al .b32 N (.s 14) N N)),
   (w 0x05 0 0xDE 0 0, .ret (al .b32 N (.s 94) N N)),
   (w 0x06 0 0 0 0 (g := 0), .exit ⟨⟨0, false⟩, .b32, false, false, false, N, N, N, N⟩),
   (w 0x07 0 0 0 0, .yield (al .b32 N N N N)),
   (w 0x08 0 0x85 0 0 2, .nap (al .n32 N (.s 5) N N)),
   (w 0x09 0 0 0 0 0 0xA05, .fwait (al .b32 N N N N) 0xA05),
   (w 0x0A 0 0x87 0 0 0 1, .setfmt (al .b32 N (.s 7) N N) .writeClear),
   (w 0x0B 0x09 0 0 0, .getfmt (al .b32 (.v 9) N N N)),
   (w 0x0C 0 0 0 0 0 0x55, .brk (al .b32 N N N N) 0x55),
   (w 0x0D 0 0 0 0 0 0xFE, .trap (al .b32 N N N N) 0xFE),
   (w 0x0E 0 0 0 0 0 1, .sprint (al .b32 N N N N) true)]

/-- Class 0x1 (R185 to R194). -/
def words1 : List (DWord × Instr) :=
  [(w 0x10 0x8A 0x06 0 0 4 (rel := 2), .smov ⟨⟨7, false⟩, .b64, false, true, false, .s 10, .v 6, N, N⟩),
   (w 0x11 0x81 0x82 0xE1 0 1 1, .sadd (al .s32 (.s 1) (.s 2) .k N) true),
   (w 0x12 0x84 0x86 0xF0 0 6, .ssub (al .n64 (.s 4) (.s 6) .p1 N) false),
   (w 0x13 0x84 0x81 0x82 0 2 2, .smul (al .n32 (.s 4) (.s 1) (.s 2) N) .wide),
   (w 0x14 0x84 0x81 0x82 0x83 1 1, .smad (al .s32 (.s 4) (.s 1) (.s 2) (.s 3)) .hi),
   (w 0x15 0x85 0x81 0x82 0xE4 0 0x96, .slop (al .b32 (.s 5) (.s 1) (.s 2) .ones) 0x96),
   (w 0x16 0x86 0x88 0x83 0 4 3, .sshf (al .b64 (.s 6) (.s 8) (.s 3) N) .rol),
   (w 0x17 0x0A 0x81 0xF1 0x0B 1 0x0B, .ssetp (al .s32 (.q 2) (.s 1) .m1 (.q 3)) .le .and),
   (w 0x18 0x85 0x81 0x82 0x08 0 1, .ssel (al .b32 (.s 5) (.s 1) (.s 2) (.q 0)) true),
   (w 0x19 0x84 0x82 0x81 0 0 0x39 (fs := 1),
     .sld ⟨⟨7, false⟩, .b32, true, false, false, .s 4, .s 2, .s 1, N⟩ .b64 .acq .dev),
   (w 0x1A 0x88 0 0 0 0 9, .sread (al .b32 (.s 8) N N N) .nblocksY),
   (w 0x1A 0x8A 0 0 0 4 0x10, .sread (al .b64 (.s 10) N N N) .clock),
   (w 0x1B 0x09 0x02 0 0 0 6, .vote (al .b32 (.q 1) (.p 2) N N) .uni true),
   (w 0x1B 0x87 0x03 0 0 0 3, .vote (al .b32 (.s 7) (.p 3) N N) .ballot false),
   (w 0x1C 0x83 0x84 0 0 4, .spop (al .b64 (.s 3) (.s 4) N N))]

/-- Class 0x2 (R195 to R202). -/
def words2 : List (DWord × Instr) :=
  [(w 0x20 0x04 0x02 0xE1 0x83 1 1 (rel := 2),
     .iadd ⟨⟨7, false⟩, .s32, false, true, false, .v 4, .v 2, .k, .s 3⟩ true),
   (w 0x21 0x04 0x02 0x03 0 0xC 0 (rel := 1), .isub ⟨⟨7, false⟩, .s8x4, false, false, true, .v 4, .v 2, .v 3, N⟩ false),
   (w 0x22 0x04 0x02 0x03 0 0xB, .imul (al .n16x2 (.v 4) (.v 2) (.v 3) N) .lo),
   (w 0x23 0x04 0x02 0x03 0x06 2 2, .imad (al .n32 (.v 4) (.v 2) (.v 3) (.v 6)) .wide),
   (w 0x24 0x04 0x02 0xF0 0 0xA, .imin (al .s16x2 (.v 4) (.v 2) .p1 N)),
   (w 0x25 0x04 0x02 0x86 0 6, .imax (al .n64 (.v 4) (.v 2) (.s 6) N)),
   (w 0x26 0x04 0x02 0 0 5 1, .iabs (al .s64 (.v 4) (.v 2) N N) true),
   (w 0x27 0x04 0x02 0x03 0x04 0xD, .isad (al .n8x4 (.v 4) (.v 2) (.v 3) (.v 4))),
   (w 0x28 0x01 0x00 0xE1 0 1 5, .isetp (al .s32 (.p 1) (.v 0) .k N) .ge .none),
   (w 0x29 0x04 0x02 0x03 0x05 0 1, .sel (al .b32 (.v 4) (.v 2) (.v 3) (.p 5)) true),
   (w 0x2A 0x04 0x02 0x86 0 1 7, .lea (al .s32 (.v 4) (.v 2) (.s 6) N) 7),
   (w 0x2B 0x04 0xE3 0 0, .mov (al .b32 (.v 4) .laneid N N)),
   (w 0x2C 0x00 0 0 0x17 (g := 1), .movi ⟨⟨1, false⟩, .b32, false, false, false, .v 0, N, N, N⟩ 0x17),
   (w 0x2D 0x04 0x02 0x03 0xE0 0xD 3, .idp4 (al .n8x4 (.v 4) (.v 2) (.v 3) .zero) true true)]

/-- Class 0x3 (R206 to R213). -/
def words3 : List (DWord × Instr) :=
  [(w 0x30 0x04 0x02 0x03 0x05 0 0xE8, .bitfn (al .b32 (.v 4) (.v 2) (.v 3) (.v 5)) 0xE8),
   (w 0x31 0x0F 0xF0 0x0E 0, .shl (al .b32 (.v 15) .p1 (.v 14) N) false),
   (w 0x32 0x04 0x02 0xE1 0 5 1, .shr (al .s64 (.v 4) (.v 2) .k N) true),
   (w 0x33 0x04 0x02 0x03 0x84 0 2, .fwin (al .b32 (.v 4) (.v 2) (.v 3) (.s 4)) false true),
   (w 0x34 0x04 0x02 0xE1 0 2, .bfe (al .n32 (.v 4) (.v 2) .k N)),
   (w 0x35 0x04 0x02 0x06 0xE1 4, .bfi (al .b64 (.v 4) (.v 2) (.v 6) .k)),
   (w 0x36 0x04 0x02 0 0 4, .popc (al .b64 (.v 4) (.v 2) N N)),
   (w 0x37 0x04 0x02 0 0, .clz (al .b32 (.v 4) (.v 2) N N)),
   (w 0x38 0x04 0x02 0 0, .brev (al .b32 (.v 4) (.v 2) N N)),
   (w 0x39 0x04 0x02 0x03 0xE1, .bsel (al .b32 (.v 4) (.v 2) (.v 3) .k)),
   (w 0x3A 0x04 0x01 0x02 0x07 0 0x80, .plop (al .b32 (.p 4) (.p 1) (.p 2) (.p 7)) 0x80),
   (w 0x3B 0x04 0 0 0 0 0x55, .p2v (al .b32 (.v 4) N N N) 0x55),
   (w 0x3C 0 0x06 0 0 0 1, .v2p (al .b32 N (.v 6) N N) 1)]

/-- Class 0x4 (R214 to R219). -/
def words4 : List (DWord × Instr) :=
  [(w 0x40 0x04 0x02 0xF3 0 3 1, .fadd (al .f32 (.v 4) (.v 2) .fone N) .rz),
   (w 0x41 0x04 0x02 0x86 0 7 2, .fsub (al .f64 (.v 4) (.v 2) (.s 6) N) .rd),
   (w 0x42 0x04 0x02 0xF5 0 3 3, .fmul (al .f32 (.v 4) (.v 2) .fmone N) .ru),
   (w 0x43 0x08 0x02 0x03 0xE1 3 (rel := 2), .ffma ⟨⟨7, false⟩, .f32, false, true, false, .v 8, .v 2, .v 3, .k⟩ .rn),
   (w 0x44 0x04 0x02 0x03 0 3 1, .fmin (al .f32 (.v 4) (.v 2) (.v 3) N) true),
   (w 0x45 0x04 0x02 0x03 0 3, .fmax (al .f32 (.v 4) (.v 2) (.v 3) N) false),
   (w 0x46 0x02 0x02 0xF4 0x03 3 0x2D, .fsetp (al .f32 (.p 2) (.v 2) .ftwo (.p 3)) .geu .or),
   (w 0x47 0x04 0x02 0 0 3, .fclass (al .f32 (.v 4) (.v 2) N N)),
   (w 0x48 0x04 0x02 0 0 3 2, .frnd (al .f32 (.v 4) (.v 2) N N) .rd),
   (w 0x49 0x04 0x02 0xE1 0 3, .fscale (al .f32 (.v 4) (.v 2) .k N) .rn)]

/-- Class 0x5 (R220 to R227). -/
def words5 : List (DWord × Instr) :=
  [(w 0x50 0x04 0x02 0x03 0 8 1, .hadd2 (al .f16x2 (.v 4) (.v 2) (.v 3) N) .rz),
   (w 0x51 0x04 0x02 0x03 0 9 2, .hmul2 (al .bf16x2 (.v 4) (.v 2) (.v 3) N) .rd),
   (w 0x52 0x04 0x02 0x03 0xF2 8 3, .hfma2 (al .f16x2 (.v 4) (.v 2) (.v 3) .half) .ru),
   (w 0x53 0x04 0x02 0x03 0 8 1, .hmin2 (al .f16x2 (.v 4) (.v 2) (.v 3) N) true),
   (w 0x54 0x04 0x02 0x03 0 9, .hmax2 (al .bf16x2 (.v 4) (.v 2) (.v 3) N) false),
   (w 0x55 0x04 0x02 0xE1 0 0 0x765, .cvt (al .b32 (.v 4) (.v 2) .k N) .f32 .fp16 .ru true false),
   (w 0x56 0x04 0x02 0x03 0x05 3 0x818, .cvts (al .f32 (.v 4) (.v 2) (.v 3) (.v 5)) .e4m3 1 .rn false true),
   (w 0x57 0x04 0x02 0 0 3, .packq (al .f32 (.v 4) (.v 2) N N)),
   (w 0x58 0x04 0x02 0 0 3, .unpq (al .f32 (.v 4) (.v 2) N N)),
   (w 0x59 0x04 0x02 0xE0 0 3 0x0A, .escale (al .f32 (.v 4) (.v 2) .zero N) .e2m1 .derive)]

/-- Class 0x6 (R228 to R233). -/
def words6 : List (DWord × Instr) :=
  [(w 0x60 0x04 0x02 0 0 3 3, .frcp (al .f32 (.v 4) (.v 2) N N) .ru),
   (w 0x61 0x04 0x02 0 0 3, .frsq (al .f32 (.v 4) (.v 2) N N)),
   (w 0x62 0x04 0x02 0 0 3 1, .fsqrt (al .f32 (.v 4) (.v 2) N N) .rz),
   (w 0x63 0x04 0x02 0 0 3, .fex2 (al .f32 (.v 4) (.v 2) N N)),
   (w 0x64 0x04 0x02 0 0 3, .flg2 (al .f32 (.v 4) (.v 2) N N)),
   (w 0x65 0x04 0x02 0 0 3, .fsin (al .f32 (.v 4) (.v 2) N N)),
   (w 0x66 0x04 0x02 0 0 3, .fcos (al .f32 (.v 4) (.v 2) N N)),
   (w 0x67 0x04 0x02 0 0 3, .ftanh (al .f32 (.v 4) (.v 2) N N)),
   (w 0x68 0x05 0x04 0xF0 0xE0 0 2, .xlane (al .b32 (.v 5) (.v 4) .p1 .zero) .xor),
   (w 0x69 0x04 0x02 0 0 0 1, .matchv (al .b32 (.v 4) (.v 2) N N) true),
   (w 0x6A 0x84 0x02 0 0 3 2, .redux (al .f32 (.s 4) (.v 2) N N) .max),
   (w 0x6B 0x04 0x02 0 0 4 0xB, .scanx (al .b64 (.v 4) (.v 2) N N) .and true)]

/-- Class 0x7 (R261 to R274). -/
def words7 : List (DWord × Instr) :=
  [(w 0x70 0x04 0x02 0x83 0xE1 0 0x074, .ld (al .b32 (.v 4) (.v 2) (.s 3) .k) .b32 .acq .dev .dflt false false),
   (w 0x71 0x04 0x02 0x83 0xE0 0 0x995 (rel := 2),
     .st ⟨⟨7, false⟩, .b32, false, true, false, .v 4, .v 2, .s 3, .zero⟩ .b64 .rel .sys .na true),
   (w 0x72 0x04 0x02 0xE0 0xE1 0 6 (fs := 1),
     .lds ⟨⟨7, false⟩, .b32, true, false, false, .v 4, .v 2, .zero, .k⟩ .b128 .weak .wp),
   (w 0x73 0x04 0x02 0x03 0xE0 0 0x28, .sts (al .b32 (.v 4) (.v 2) (.v 3) .zero) .n8 .rlx .blk),
   (w 0x74 0x8C 0xE0 0 0xE0 0 0x0D, .ldc (al .b32 (.s 12) .zero N .zero) .b64 1),
   (w 0x75 0x04 0x02 0xE0 0xE0 0 0x06D, .ldr (al .b32 (.v 4) (.v 2) .zero .zero) .b64 .rlx .dev false),
   (w 0x76 0x04 0x02 0xE0 0x06 0 0x074, .stc (al .b32 (.v 4) (.v 2) .zero (.v 6)) .b32 .rel .dev false),
   (w 0x77 0 0x02 0x83 0xE1 0 0x802, .pref (al .b32 N (.v 2) (.s 3) .k) .l2x true),
   (w 0x78 0 0x02 0x83 0xE1 0 1, .cctl (al .b32 N (.v 2) (.s 3) .k) .wbinv false),
   (w 0x78 0 0 0 0 0 3, .cctl (al .b32 N N N N) .wbinvall false),
   (w 0x79 0 0x82 0 0xE1, .icinv (al .b32 N (.s 2) N .k))]

/-- Class 0x8 (R262, R275 to R280). -/
def words8 : List (DWord × Instr) :=
  [(w 0x80 0 0x88 0x94 0 0 0x43, .cpg (al .b32 N (.s 8) (.s 20) N) 3 true),
   (w 0x81 0 0x88 0xE0 0, .cps (al .b32 N (.s 8) .zero N)),
   (w 0x82 0 0x90 0xE1 0 0 0x7F, .cpx (al .b32 N (.s 16) .k N) 63 true),
   (w 0x83 0x8C 0 0 0, .cpclose (al .b32 (.s 12) N N N)),
   (w 0x84 0 0xE1 0 0, .cpwait (al .b32 N .k N N)),
   (w 0x85 0x83 0x84 0 0 0 2, .bankcfg (al .b32 (.s 3) (.s 4) N N) .fifo),
   (w 0x86 0 0x02 0x85 0x09, .fpush (al .b32 N (.v 2) (.s 5) (.q 1))),
   (w 0x87 0x04 0 0x85 0x0A, .fpop (al .b32 (.v 4) N (.s 5) (.q 2))),
   (w 0x88 0x83 0x84 0 0 0 1, .vtopen (al .b32 (.s 3) (.s 4) N N) true),
   (w 0x89 0x83 0xF0 0 0, .publish (al .b32 (.s 3) .p1 N N)),
   (w 0x8A 0 0x84 0 0, .vtdrop (al .b32 N (.s 4) N N))]

/-- Class 0x9 (R301 to R318). -/
def words9 : List (DWord × Instr) :=
  [(w 0x90 0 0x20 0 0 0 0xE, .mldb (al .b32 N (.v 32) N N) 2 1 true),
   (w 0x91 0 0x70 0 0 0 4 (fs := 1), .mlds ⟨⟨7, false⟩, .b32, true, false, false, N, .v 112, N, N⟩ 1 false),
   (w 0x92 0x94 0x00 0xE0 0x8C 0 0x15F, .mma (al .b32 (.s 20) (.v 0) .zero (.s 12)) 31 0 5),
   (w 0x93 0 0 0x84 0x85, .mzero (al .b32 N N (.s 4) (.s 5))),
   (w 0x94 0x83 0xE1 0 0 0 1, .acalloc (al .b32 (.s 3) .k N N) true),
   (w 0x95 0x83 0x84 0 0, .acfree (al .b32 (.s 3) (.s 4) N N)),
   (w 0x96 0x08 0xE0 0 0xE0 0 7, .mdrain (al .b32 (.v 8) .zero N .zero) true true true 0 0),
   (w 0x97 0x81 0x82 0x83 0x84 0 0xC3A, .mdrains (al .b32 (.s 1) (.s 2) (.s 3) (.s 4)) false true false 7 48),
   (w 0x98 0 0x84 0 0, .epcfg (al .b32 N (.s 4) N N)),
   (w 0x99 0 0xE1 0 0, .actld (al .b32 N .k N N))]

/-- Class 0xA (R342, R345 to R348). -/
def wordsA : List (DWord × Instr) :=
  [(w 0xA0 0x04 0x02 0x06 0 2 0x2F0, .atom (al .n32 (.v 4) (.v 2) (.v 6) N) .add .acqrel .dev true),
   (w 0xA1 0x04 0x02 0x06 0x08 4 0x110, .atomcas (al .b64 (.v 4) (.v 2) (.v 6) (.v 8)) .acq .sys false),
   (w 0xA2 0 0x02 0x06 0 3 0x0E0, .red (al .f32 N (.v 2) (.v 6) N) .add .rel .dev false),
   (w 0xA3 0x04 0x02 0x06 0 1 0x041, .atoms (al .s32 (.v 4) (.v 2) (.v 6) N) .min .rlx .blk false),
   (w 0xA4 0x04 0x02 0x06 0x08 0 0x240, .atomsc (al .b32 (.v 4) (.v 2) (.v 6) (.v 8)) .rlx .blk true),
   (w 0xA5 0 0x02 0x06 0 3 0x0C0, .atomc (al .f32 N (.v 2) (.v 6) N) .rlx .dev false),
   (w 0xA6 0x04 0x02 0 0 3 0x0D0, .rdc (al .f32 (.v 4) (.v 2) N N) .acq .dev false)]

/-- Class 0xB (R349 to R359). -/
def wordsB : List (DWord × Instr) :=
  [(w 0xB0 0 0 0 0 0 0x0F, .fence (al .b32 N N N N) .sc .dev),
   (w 0xB1 0 0xE1 0xE0 0, .bar (al .b32 N .k .zero N)),
   (w 0xB2 0x83 0x84 0x85 0, .bara (al .b32 (.s 3) (.s 4) (.s 5) N)),
   (w 0xB3 0 0x84 0x83 0, .barw (al .b32 N (.s 4) (.s 3) N)),
   (w 0xB4 0 0 0 0, .gbar (al .b32 N N N N)),
   (w 0xB5 0x83 0x84 0xF0 0 0 3, .arv (al .b32 (.s 3) (.s 4) .p1 N) .dev false),
   (w 0xB6 0 0x85 0x83 0 0 9, .await (al .b32 N (.s 5) (.s 3) N) .blk true),
   (w 0xB7 0 0x84 0 0 0 0x3F, .ringa (al .b32 N (.s 4) N N) 63),
   (w 0xB8 0 0x84 0x85 0 0 2, .ringw (al .b32 N (.s 4) (.s 5) N) 2),
   (w 0xB9 0x9E 0x8A 0 0 0 1, .lkacq (al .b32 (.s 30) (.s 10) N N) true),
   (w 0xBA 0x83 0x84 0 0, .lkrel (al .b32 (.s 3) (.s 4) N N)),
   (w 0xBB 0x83 0x84 0x85 0 0 4, .waitv (al .b32 (.s 3) (.s 4) (.s 5) N) .sys),
   (w 0xBC 0x83 0x84 0x85 0xF1 0 3, .wake (al .b32 (.s 3) (.s 4) (.s 5) .m1) .dev)]

/-- Class 0xC (R360 to R367). -/
def wordsC : List (DWord × Instr) :=
  [(w 0xC0 0x83 0x84 0x86 0x85 0 0x2A, .launch (al .b32 (.s 3) (.s 4) (.s 6) (.s 5)) 2 true false true),
   (w 0xC1 0x83 0x84 0 0 0 1, .gwait (al .b32 (.s 3) (.s 4) N N) true),
   (w 0xC2 0x83 0x90 0x84 0 0 1, .qpush (al .b32 (.s 3) (.s 16) (.s 4) N) true),
   (w 0xC3 0x90 0 0x84 0x09, .qpop (al .b32 (.s 16) N (.s 4) (.q 1)) false),
   (w 0xC4 0xE0 0x96 0x9A 0, .shape (al .b32 .zero (.s 22) (.s 26) N)),
   (w 0xC5 0x83 0x84 0xE0 0 0 1, .provq (al .b32 (.s 3) (.s 4) .zero N) .pred)]

/-- Classes 0xD and 0xE (R435 to R450). -/
def wordsD : List (DWord × Instr) :=
  [(w 0xD0 0 0 0 0 0 0x21, .svc (al .b32 N N N N) 0x21),
   (w 0xD1 0 0 0 0, .rfe (al .b32 N N N N)),
   (w 0xD2 0x94 0 0 0, .pgpop (al .b32 (.s 20) N N N)),
   (w 0xD3 0x83 0x98 0x9A 0 0 2, .pgmap (al .b32 (.s 3) (.s 24) (.s 26) N) 2),
   (w 0xD4 0 0x84 0xE1 0 0 1, .tlbinv (al .b32 N (.s 4) .k N) .range),
   (w 0xD5 0x83 0x85 0 0 0 1, .replay (al .b32 (.s 3) (.s 5) N N) true),
   (w 0xD6 0 0xE1 0 0 (g := 0), .park ⟨⟨0, false⟩, .b32, false, false, false, N, .k, N, N⟩),
   (w 0xD7 0x84 0 0 0 4 7, .csrrd (al .b64 (.s 4) N N N) .resumePc),
   (w 0xD8 0 0x84 0 0 0 8, .csrwr (al .b32 N (.s 4) N N) .savedFmt),
   (w 0xD9 0x01 0x04 0 0 4, .poisck (al .b64 (.p 1) (.v 4) N N)),
   (w 0xE0 0 0x84 0 0 0 0x2EF, .trace (al .b32 N (.s 4) N N) 0xEF 2),
   (w 0xE1 0x83 0 0 0, .tmark (al .b32 (.s 3) N N N)),
   (w 0xE2 0x83 0 0 0 0 0x45, .rdcnt (al .b32 (.s 3) N N N) 0x45),
   (w 0xE3 0x84 0 0 0 0 1, .rdptp (al .b32 (.s 4) N N N) true),
   (w 0xE4 0 0 0 0 0 1, .halt (al .b32 N N N N) true)]

/-- `(!p2) shr.s32 v4, %laneid || hmul2.bf16x2 v127, 1.0` (R49, R50). -/
def pair2 : DWord :=
  BitVec.ofNat 64 (2 ^ 63 + (0x08 * 2 ^ 24 + 4 * 2 ^ 17 + 0xE3 * 2 ^ 9 + 0 * 2 ^ 6 + 2 * 2 ^ 3 + 4) * 2 ^ 32
    + (0x15 * 2 ^ 24 + 127 * 2 ^ 17 + 0xF3 * 2 ^ 9 + 5 * 2 ^ 6 + 7 * 2 ^ 3))

/-- The example pair word of R51, and another. -/
def wordsP : List (DWord × Instr) :=
  [(0x81020438110C0EF8, .pairWord ⟨.add, 1, .v 2, .s32, ⟨7, false⟩⟩ ⟨.fmul, 6, .v 7, .f32, ⟨7, false⟩⟩),
   (pair2,
    .pairWord ⟨.shr, 4, .laneid, .s32, ⟨2, true⟩⟩ ⟨.hmul2, 127, .fone, .bf16x2, ⟨7, false⟩⟩)]

/-! The state in which a word is about to issue: a fresh warp with all lanes active on core 0, slot 0 (`placeWord`). -/

/-- The word's warp is current. -/
def at_ (x : DWord) : State := { placeWord State.reset x.toNat with cur := some 0 }

/-- A register's words, lane by lane. -/
abbrev Lanes := Nat → Nat

/-- The same value in every lane. -/
def c (x : Nat) : Lanes := fun _ => x

/-- The warp with vector, uniform and predicate registers set. -/
def put (vs : List (Nat × Lanes)) (ss : List (Nat × Nat)) (ps : List (Nat × (Nat → Bool))) (x : Warp) : Warp :=
  let a := vs.foldl (fun x e => x.vput e.1 0xFFFFFFFF fun l => ⟨BitVec.ofNat 32 (e.2 l), false⟩) x
  let b := ss.foldl (fun x e => x.sput e.1 ⟨BitVec.ofNat 32 e.2, false⟩) a
  ps.foldl (fun x e => x.pput e.1 0xFFFFFFFF e.2) b

theorem test_decode_class_0 : reads words0 = true := by decide +kernel
theorem test_decode_class_1 : reads words1 = true := by decide +kernel
theorem test_decode_class_2 : reads words2 = true := by decide +kernel
theorem test_decode_class_3 : reads words3 = true := by decide +kernel
theorem test_decode_class_4 : reads words4 = true := by decide +kernel
theorem test_decode_class_5 : reads words5 = true := by decide +kernel
theorem test_decode_class_6 : reads words6 = true := by decide +kernel
theorem test_decode_class_7 : reads words7 = true := by decide +kernel
theorem test_decode_class_8 : reads words8 = true := by decide +kernel
theorem test_decode_class_9 : reads words9 = true := by decide +kernel
theorem test_decode_class_A : reads wordsA = true := by decide +kernel
theorem test_decode_class_B : reads wordsB = true := by decide +kernel
theorem test_decode_class_C : reads wordsC = true := by decide +kernel
theorem test_decode_class_D : reads wordsD = true := by decide +kernel
theorem test_decode_pairs : reads wordsP = true := by decide +kernel

/-! Well-formedness: one ill-formed term for each check, which the check refuses. -/

/-- None of the list is well-formed. -/
def refused (l : List Instr) : Bool := l.all fun i => !i.wf

/-- R42: (!p7) is no guard, an operand field that is not used is empty, no flag select on a word that is not long-latency, no
release of what is no vector register; R44, R46: a type the row does not take, an odd register for 64 bits, a span past
the last register, an operand kind or a predicate kind the field does not take, a constant as a destination. -/
theorem test_wf_full_words : refused
    [.nop ⟨⟨7, true⟩, .b32, false, false, false, N, N, N, N⟩,
     .nop (al .b32 (.v 0) N N N), .nop ⟨⟨7, false⟩, .b32, true, false, false, N, N, N, N⟩,
     .nop (al .s32 N N N N),
     .iadd ⟨⟨7, false⟩, .s32, false, true, false, .v 4, .s 2, .v 3, .zero⟩ false,
     .iadd ⟨⟨7, false⟩, .s32, false, false, true, .v 4, .v 2, .k, .zero⟩ false,
     .mldb ⟨⟨7, false⟩, .b32, false, true, false, N, .v 32, N, N⟩ 0 0 false,
     .iadd (al .f32 (.v 4) (.v 2) (.v 3) .zero) false, .iadd (al .b32 (.v 4) (.v 2) (.v 3) .zero) true,
     .iadd (al .b64 (.v 5) (.v 2) (.v 4) .zero) false, .sadd (al .b64 (.s 4) (.s 95) (.s 2) N) false,
     .mldb (al .b32 N (.v 65) N N) 0 0 false, .qpop (al .b32 (.s 88) N (.s 4) (.q 1)) false,
     .ld (al .b32 (.v 126) (.v 2) .zero .zero) .b128 .weak .wp .dflt false false,
     .iadd (al .s32 .k (.v 2) (.v 3) .zero) false, .iadd (al .s32 (.s 4) (.v 2) (.v 3) .zero) false,
     .sadd (al .s32 (.s 4) (.v 2) (.s 3) N) false, .fadd (al .f32 (.v 4) .laneid N N) .rn,
     .isetp (al .s32 (.q 1) (.v 0) .k N) .ge .none, .ssetp (al .s32 (.p 1) (.s 0) .k N) .ge .none,
     .isetp (al .s32 (.v 1) (.v 0) .k N) .ge .none,
     .ld (al .b32 (.v 4) (.v 2) .zero (.v 9)) .b32 .weak .wp .dflt false false] = true := by decide +kernel

/-- R167: a uniform guard names q0 to q2; R190, R222 to R227, R261, R301, R345, R435, R445: the rules beside the tables. -/
theorem test_wf_rules_of_rows : refused
    [.sadd ⟨⟨3, false⟩, .s32, false, false, false, .s 4, .s 2, .s 3, N⟩ false,
     .isetp (al .b32 (.p 1) (.v 0) .k N) .lt .none, .isetp (al .s32 (.p 1) (.v 0) .k N) .lt .and,
     .imul (al .b32 (.v 4) (.v 2) (.v 3) N) .hi, .cvt (al .b32 (.v 4) (.v 2) .zero N) .f32 .fp16 .ru false true,
     .cvts (al .f32 (.v 4) (.v 2) (.v 3) (.v 5)) .e4m3 2 .rn false true,
     .escale (al .f32 (.v 4) (.v 2) .zero N) .f32 .derive, .redux (al .f32 (.s 4) (.v 2) N N) .xor,
     .ld (al .b32 (.v 4) (.v 2) .zero .zero) .b32 .weak .dev .dflt false false,
     .ldc (al .b32 (.s 4) (.v 2) N .zero) .b32 0, .ldr (al .b32 (.v 4) (.v 2) .zero .zero) .n8 .rlx .dev false,
     .lds (al .b32 (.v 4) (.v 2) .zero .zero) .b32 .rlx .dev,
     .cpg (al .b32 N (.s 12) .zero N) 0 false, .cpg (al .b32 N (.s 8) .zero N) 1 false,
     .mma (al .b32 .zero (.v 0) .zero (.s 12)) 0 0 5, .red (al .b32 N (.v 2) (.v 6) N) .exch .rlx .dev false,
     .atom (al .f32 (.v 4) (.v 2) (.v 6) N) .xor .rlx .dev false, .rdc (al .f32 (.v 4) (.v 2) N N) .rel .dev false,
     .csrwr (al .b32 N (.s 4) N N) .ctx, .csrrd (al .b32 (.s 4) N N N) .resumePc,
     .poisck (al .b32 (.q 1) (.v 4) N N), .trace (al .b32 N (.s 4) N N) 0xF0 2] = true := by decide +kernel

/-- R50: a pair half's type, guard, operand and `nop` form; R51: the three words that break a bank rule, as the rule lists
them. -/
theorem test_wf_pair_words : refused
    [.pairWord ⟨.add, 1, .v 2, .f32, ⟨7, false⟩⟩ ⟨.fmul, 6, .v 7, .f32, ⟨7, false⟩⟩,
     .pairWord ⟨.add, 1, .v 2, .s32, ⟨7, true⟩⟩ ⟨.fmul, 6, .v 7, .f32, ⟨7, false⟩⟩,
     .pairWord ⟨.add, 1, .p 2, .s32, ⟨7, false⟩⟩ ⟨.fmul, 6, .v 7, .f32, ⟨7, false⟩⟩,
     .pairWord ⟨.add, 1, .v 2, .s32, ⟨7, false⟩⟩ ⟨.nop, 6, .v 0, .s32, ⟨7, false⟩⟩,
     .pairWord ⟨.add, 1, .v 5, .s32, ⟨7, false⟩⟩ ⟨.sub, 9, .v 2, .s32, ⟨7, false⟩⟩,
     .pairWord ⟨.add, 0, .v 4, .s32, ⟨7, false⟩⟩ ⟨.add, 1, .v 8, .s32, ⟨7, false⟩⟩,
     .pairWord ⟨.add, 1, .v 2, .s32, ⟨7, false⟩⟩ ⟨.add, 6, .v 1, .s32, ⟨7, false⟩⟩] = true := by decide +kernel

/-- The decoder's own names for words it refuses (R41 to R54): an OP of no row, a reserved type code, a bit of MOD that `rfe`
does not assign, a reserved pair opcode, and each of the three pairs of R51. -/
theorem test_decode_refuses :
    decodeWord (w 0x0F 0 0 0 0) = .error .illegalOpcode ∧ decodeWord (w 0x20 4 2 3 0 0xE) = .error .illegalEncoding
      ∧ decodeWord (w 0xD1 0 0 0 0 0 1) = .error .illegalEncoding ∧ decodeWord (w 0x20 4 0xE2 3 0) = .error .illegalEncoding
      ∧ decodeWord 0x8C02043801020438 = .error .illegalOpcode
      ∧ decodeWord (BitVec.ofNat 64 (2 ^ 63 + 0x01020A38 * 2 ^ 32 + 0x02120438)) = .error .illegalPair
      ∧ decodeWord (BitVec.ofNat 64 (2 ^ 63 + 0x01000838 * 2 ^ 32 + 0x01021038)) = .error .illegalPair
      ∧ decodeWord (BitVec.ofNat 64 (2 ^ 63 + 0x01020438 * 2 ^ 32 + 0x010C0238)) = .error .illegalPair := by decide +kernel

/-- R32, R33: the header fields, each at a value of its own; FLAGA 12, a reserved bit and LEN 0 are refused. -/
theorem test_decode_headers :
    decodeHeader 0xDEADBEEF03FB8057 = .ok ⟨0xDEADBEEF, true, true, 15, 11, 0x805, 7⟩
      ∧ decodeHeader 0x0000000000FC0001 = .error .illegalEncoding ∧ decodeHeader 0x0000000080FF0001 = .error .illegalEncoding
      ∧ decodeHeader 0x0000000000FF0000 = .error .illegalClause := by decide +kernel

/-! Every word issues where it is placed, and one step runs it. -/

/-- Every word of the list issues there, its lanes those that pass its guard: what each `issuing` hypothesis asks for. -/
def issues (l : List (DWord × Instr)) : Bool := l.all fun p => (issuing p.2 (at_ p.1)).any fun r =>
  r.1.instr == p.2 && r.1.wid == 0 && (r.1.act == r.1.w.run.mask || r.1.o.guard.idx != 7)

/-- Every word of the list, placed as the first instruction after reset, is fetched, decoded and run by one step. -/
def steps (l : List (DWord × Instr)) : Bool := l.all fun p =>
  match step (State.reset.withFetchWord 64 p.1.toNat) with | .next t => t.agenda == [] | _ => false

theorem wit_issues_0 : issues words0 = true := by decide +kernel
theorem wit_issues_1 : issues words1 = true := by decide +kernel
theorem wit_issues_2 : issues words2 = true := by decide +kernel
theorem wit_issues_3 : issues words3 = true := by decide +kernel
theorem wit_issues_4 : issues words4 = true := by decide +kernel
theorem wit_issues_5 : issues words5 = true := by decide +kernel
theorem wit_issues_6 : issues words6 = true := by decide +kernel
theorem wit_issues_7 : issues words7 = true := by decide +kernel
theorem wit_issues_8 : issues words8 = true := by decide +kernel
theorem wit_issues_9 : issues words9 = true := by decide +kernel
theorem wit_issues_A : issues wordsA = true := by decide +kernel
theorem wit_issues_B : issues wordsB = true := by decide +kernel
theorem wit_issues_C : issues wordsC = true := by decide +kernel
theorem wit_issues_D : issues wordsD = true := by decide +kernel
theorem wit_issues_P : issues wordsP = true := by decide +kernel
theorem test_step_runs_0 : steps (words0.take 3) = true := by decide +kernel
theorem test_step_runs_1 : steps (words1.take 3) = true := by decide +kernel
theorem test_step_runs_2 : steps (words2.take 3) = true := by decide +kernel
theorem test_step_runs_3 : steps (words3.take 3) = true := by decide +kernel
theorem test_step_runs_4 : steps (words4.take 3) = true := by decide +kernel
theorem test_step_runs_5 : steps (words5.take 3) = true := by decide +kernel
theorem test_step_runs_6 : steps (words6.take 3) = true := by decide +kernel
theorem test_step_runs_7 : steps (words7.take 1) = true := by decide +kernel
theorem test_step_runs_8 : steps (words8.take 3) = true := by decide +kernel
theorem test_step_runs_9 : steps (words9.take 3) = true := by decide +kernel
theorem test_step_runs_A : steps (wordsA.take 1) = true := by decide +kernel
theorem test_step_runs_B : steps (wordsB.take 3) = true := by decide +kernel
theorem test_step_runs_C : steps (wordsC.take 3) = true := by decide +kernel
theorem test_step_runs_D : steps (wordsD.take 3) = true := by decide +kernel
theorem test_step_runs_P : steps (wordsP.take 3) = true := by decide +kernel

/-! Results: one word each on the placed warp with some registers set; what it leaves in a register. -/

/-- The state that one word leaves, its registers set first. -/
def run (x : DWord) (f : Warp → Warp) : Option State :=
  match decodeWord x with
  | .ok i => match exec i ((at_ x).modWarp 0 f) with | .next t => some t | _ => none
  | .error _ => none

/-- Lane `l` of v`r` afterwards. -/
def vAt (x : DWord) (f : Warp → Warp) (r l : Nat) : Option Nat :=
  ((run x f).bind fun t => t.warp 0).map fun y => (y.vget r l).val.toNat

/-- s`r` afterwards. -/
def sAt (x : DWord) (f : Warp → Warp) (r : Nat) : Option Nat :=
  ((run x f).bind fun t => t.warp 0).map fun y => (y.sget r).val.toNat

/-- A predicate's lane, and q, afterwards. -/
def pAt (x : DWord) (f : Warp → Warp) (r l : Nat) : Option Bool := ((run x f).bind fun t => t.warp 0).map fun y => y.pget r l
/-- See `pAt`. -/
def qAt (x : DWord) (f : Warp → Warp) (r : Nat) : Option Bool := ((run x f).bind fun t => t.warp 0).map fun y => y.qget r

/-- `%fstat` afterwards. -/
def fAt (x : DWord) (f : Warp → Warp) : Option Nat := ((run x f).bind fun t => t.warp 0).map fun y => y.fstat.toNat

/-- The warp trapped with this cause, subcode and address: a confirmed block's fatal trap ends the grid with the record; what is
checked is the record of a provisional block, which is held (R108). -/
def heldAt (x : DWord) (f : Warp → Warp) : Option (Cause × Nat × Nat) :=
  match decodeWord x with
  | .ok i =>
    match exec i (((at_ x).modWarp 0 f).modBlock 0 fun b => { b with prov := true, st := .runningP }) with
    | .next t => ((t.warp 0).bind fun y => y.heldTrap).map fun r => (r.cause, r.subcode, r.addr.toNat)
    | _ => none
  | .error _ => none

/-- R187, R196: the example of R196; wrap and limit at the ends of the range; the high and wide products. -/
theorem test_integer_arithmetic :
    vAt (w 0x20 1 2 3 4 0xA 1) (put [(2, c 0x7FF00001), (3, c 0x00200002), (4, c 0x0000FFFF)] [] []) 1 7 = some 0x7FFF0002
      ∧ vAt (w 0x20 1 2 3 4 0xA) (put [(2, c 0x7FF00001), (3, c 0x00200002), (4, c 0x0000FFFF)] [] []) 1 31 = some 0x80100002
      ∧ vAt (w 0x21 1 2 3 0 1 1) (put [(2, c 0x80000000), (3, c 1)] [] []) 1 0 = some 0x80000000
      ∧ vAt (w 0x21 1 2 3 0 1) (put [(2, c 0x80000000), (3, c 1)] [] []) 1 0 = some 0x7FFFFFFF
      ∧ vAt (w 0x22 1 2 3 0 1 1) (put [(2, c 0xFFFFFFFF), (3, c 2)] [] []) 1 0 = some 0xFFFFFFFF
      ∧ vAt (w 0x22 4 2 3 0 2 2) (put [(2, c 0xFFFFFFFF), (3, c 2)] [] []) 5 0 = some 1
      ∧ vAt (w 0x23 4 2 3 6 1 2) (put [(2, c 0xFFFFFFFF), (3, c 3), (6, c 1), (7, c 0)] [] []) 5 0 = some 0xFFFFFFFF
      ∧ vAt (w 0x24 1 2 3 0 1) (put [(2, c 0xFFFFFFFF), (3, c 1)] [] []) 1 0 = some 0xFFFFFFFF
      ∧ vAt (w 0x25 1 2 3 0 1) (put [(2, c 0xFFFFFFFF), (3, c 1)] [] []) 1 0 = some 1
      ∧ vAt (w 0x26 1 2 0 0 1 1) (put [(2, c 0x80000000)] [] []) 1 0 = some 0x7FFFFFFF
      ∧ vAt (w 0x27 1 2 3 4 0xD) (put [(2, c 0x01FF0005), (3, c 0x02000A00), (4, c 100)] [] []) 1 0 = some 371
      ∧ vAt (w 0x2D 1 2 3 4 0xC 1) (put [(2, c 0xFF020304), (3, c 0x01FF0201), (4, c 10)] [] []) 1 0 = some 17
      ∧ vAt (w 0x2A 4 2 0x86 0 1 3) (put [(2, c 0xFFFFFFFF)] [(6, 16), (7, 0)] []) 4 0 = some 8
      ∧ vAt (w 0x2C 1 0xFF 0xFF 0xFE) id 1 0 = some 0xFFFFFFFE
      ∧ vAt (w 0x2B 1 0xE3 0 0) id 1 19 = some 19 := by decide +kernel

/-- R186 to R194: the uniform class, computed once; `%laneid`'s ballot. -/
theorem test_uniform_words :
    sAt (w 0x10 0x8A 6 0 0) (put [(6, fun l => l + 5)] [] []) 10 = some 5
      ∧ sAt (w 0x11 0x81 0x82 0x83 0 2 1) (put [] [(2, 0xFFFFFFFF), (3, 2)] []) 1 = some 0xFFFFFFFF
      ∧ sAt (w 0x12 0x81 0x82 0x83 0 2) (put [] [(2, 1), (3, 2)] []) 1 = some 0xFFFFFFFF
      ∧ sAt (w 0x13 0x81 0x82 0x83 0 2 1) (put [] [(2, 0x80000000), (3, 6)] []) 1 = some 3
      ∧ sAt (w 0x14 0x84 0x82 0x83 0x86 1 2) (put [] [(2, 0xFFFFFFFF), (3, 1), (6, 0), (7, 0)] []) 5 = some 0xFFFFFFFF
      ∧ sAt (w 0x15 0x81 0x82 0x83 0x84 0 0x96) (put [] [(2, 0b1100), (3, 0b1010), (4, 0b1111)] []) 1 = some 0b1001
      ∧ sAt (w 0x16 0x81 0x82 0x83 0 0 3) (put [] [(2, 0x80000001), (3, 33)] []) 1 = some 3
      ∧ sAt (w 0x16 0x81 0x82 0x83 0 0 2) (put [] [(2, 0x80000001), (3, 99)] []) 1 = some 0xFFFFFFFF
      ∧ qAt (w 0x17 0x09 0x82 0x83 0x0B 1 0x1A) (put [] [(2, 0xFFFFFFFF), (3, 0)] []) 1 = some false
      ∧ sAt (w 0x18 0x81 0x82 0x83 0x0B 0 1) (put [] [(2, 7), (3, 9)] []) 1 = some 9
      ∧ sAt (w 0x1B 0x81 0x01 0 0 0 3) (put [] [] [(1, fun l => l % 8 == 0)]) 1 = some 0x01010101
      ∧ qAt (w 0x1B 0x08 0x01 0 0 0 2) (put [] [] [(1, fun l => l % 8 == 0)]) 0 = some false
      ∧ sAt (w 0x1C 0x81 0x82 0 0 4) (put [] [(2, 0xF0), (3, 0x80000001)] []) 1 = some 6
      ∧ sAt (w 0x1A 0x81 0 0 0 0 1) id 1 = some 0 := by decide +kernel

/-- R190, R199, R207 to R213: comparisons, selections, shifts at the width, windows, fields, counts; the example of R212. -/
theorem test_bit_words :
    pAt (w 0x28 1 2 3 0 1 2) (put [(2, c 0xFFFFFFFF), (3, c 0)] [] []) 1 4 = some true
      ∧ pAt (w 0x28 1 2 3 0 2 2) (put [(2, c 0xFFFFFFFF), (3, c 0)] [] []) 1 4 = some false
      ∧ vAt (w 0x29 1 2 3 1 0 1) (put [(2, c 4), (3, c 5)] [] [(1, fun l => l == 2)]) 1 2 = some 5
      ∧ vAt (w 0x30 1 2 3 4 0 0xE8) (put [(2, c 0b1100), (3, c 0b1010), (4, c 0b0110)] [] []) 1 0 = some 0b1110
      ∧ vAt (w 0x31 1 2 3 0) (put [(2, c 1), (3, c 32)] [] []) 1 0 = some 0
      ∧ vAt (w 0x31 1 2 3 0 0 1) (put [(2, c 1), (3, c 33)] [] []) 1 0 = some 2
      ∧ vAt (w 0x32 1 2 3 0 1) (put [(2, c 0x80000000), (3, c 77)] [] []) 1 0 = some 0xFFFFFFFF
      ∧ vAt (w 0x33 1 2 3 4) (put [(2, c 0x11112222), (3, c 0x33334444), (4, c 16)] [] []) 1 0 = some 0x44441111
      ∧ vAt (w 0x34 1 2 3 0 1) (put [(2, c 0x00000F80), (3, c 0x0804)] [] []) 1 0 = some 0xFFFFFFF8
      ∧ vAt (w 0x35 1 2 3 4) (put [(2, c 0xFFFFFFFF), (3, c 0), (4, c 0x081C)] [] []) 1 0 = some 0x0FFFFFFF
      ∧ vAt (w 0x36 1 2 0 0) (put [(2, c 0xF00F)] [] []) 1 0 = some 8
      ∧ vAt (w 0x37 1 2 0 0 4) (put [(2, c 0), (3, c 0)] [] []) 1 0 = some 64
      ∧ vAt (w 0x38 1 2 0 0) (put [(2, c 0x00000001)] [] []) 1 0 = some 0x80000000
      ∧ vAt (w 0x39 1 2 3 4) (put [(2, c 0x44332211), (3, c 0x88776655), (4, c 0x08170400)] [] []) 1 0 = some 0x00FF5511
      ∧ pAt (w 0x3A 4 1 2 7 0 0x80) (put [] [] [(1, fun _ => true), (2, fun l => l == 9)]) 4 9 = some true
      ∧ vAt (w 0x3B 1 0 0 0 0 0x06) (put [] [] [(1, fun _ => true), (2, fun l => l == 3)]) 1 3 = some 6
      ∧ pAt (w 0x3C 0 2 0 0 0 0x04) (put [(2, c 4)] [] []) 2 30 = some true := by decide +kernel

/-- R59 to R62, R215 to R219, R223 to R227: the examples of R60, R66, R224 and R227; a tie, a minimum of zeros, a saturating
conversion; the status bits (R69: INVALID 0, OVERFLOW 2, UNDERFLOW 3, INEXACT 4). -/
theorem test_float_words :
    vAt (w 0x40 1 2 3 0 3) (put [(2, c 0x3F800000), (3, c 0x33800000)] [] []) 1 0 = some 0x3F800000
      ∧ vAt (w 0x40 1 2 3 0 3 3) (put [(2, c 0x3F800000), (3, c 0x33800000)] [] []) 1 0 = some 0x3F800001
      ∧ vAt (w 0x41 1 2 3 0 3 2) (put [(2, c 0x3F800000), (3, c 0x3F800000)] [] []) 1 0 = some 0x80000000
      ∧ vAt (w 0x42 1 2 0xF4 0 3) (put [(2, c 0x40400000)] [] []) 1 0 = some 0x40C00000
      ∧ vAt (w 0x43 1 2 3 4 3) (put [(2, c 0x3F800001), (3, c 0x3F800001), (4, c 0xBF800002)] [] []) 1 0 = some 0x28800000
      ∧ vAt (w 0x44 1 2 3 0 3) (put [(2, c 0), (3, c 0x80000000)] [] []) 1 0 = some 0x80000000
      ∧ vAt (w 0x45 1 2 3 0 3) (put [(2, c 0x7FC00000), (3, c 0x40000000)] [] []) 1 0 = some 0x40000000
      ∧ pAt (w 0x46 1 2 3 0 3 0x0A) (put [(2, c 0x7FC00000), (3, c 0)] [] []) 1 0 = some true
      ∧ vAt (w 0x47 1 2 0 0 3) (put [(2, c 0x80000001)] [] []) 1 0 = some 16
      ∧ vAt (w 0x48 1 2 0 0 3) (put [(2, c 0xBE99999A)] [] []) 1 0 = some 0x80000000
      ∧ vAt (w 0x49 1 2 3 0 3) (put [(2, c 0x3F800000), (3, c 0xFFFFFF6C)] [] []) 1 0 = some 2
      ∧ vAt (w 0x50 1 2 3 0 8) (put [(2, c 0x3C004000), (3, c 0x3C003C00)] [] []) 1 0 = some 0x40004200
      ∧ vAt (w 0x52 1 2 3 4 8) (put [(2, c 0x3C004000), (3, c 0x40004000), (4, c 0x3C003C00)] [] []) 1 0 = some 0x42004500
      ∧ vAt (w 0x55 1 2 0xE0 0 0 0x158) (put [(2, c 0x43FA0000)] [] []) 1 0 = some 0x7F
      ∧ vAt (w 0x55 1 2 0xE0 0 0 0x558) (put [(2, c 0x43FA0000)] [] []) 1 0 = some 0x7E
      ∧ vAt (w 0x55 1 2 0xE0 0 0 0x05A) (put [(2, c 0x40E00000)] [] []) 1 0 = some 7
      ∧ vAt (w 0x56 6 2 3 6 3 0x18) (put [(2, c 0x43960000), (3, c 0xBB400000), (6, c 0x11223344)] [] []) 6 0 = some 0x82793344
      ∧ fAt (w 0x56 6 2 3 6 3 0x18) (put [(2, c 0x43960000), (3, c 0xBB400000), (6, c 0x11223344)] [] []) = some 24
      ∧ vAt (w 0x59 1 2 0xE0 0 3 0x08) (put [(2, c 0x447A0000)] [] []) 1 0 = some 0x81
      ∧ vAt (w 0x59 1 2 3 0 3 0x10) (put [(2, c 0x447A0000), (3, c 0x81)] [] []) 1 0 = some 0x437A0000 := by decide +kernel

/-- The inputs of R66's example. -/
def packIn : Lanes := fun l =>
  ([0x42200000, 0x3F800000, 0x3F000000, 0xBE800000, 0x40400000, 0xC0200000, 0x3FE00000, 0x40C00000][l]?).getD 0

/-- R66: the data bytes, the scale and the status of the example; R226: an element of the block unpacked. -/
theorem test_packed_blocks :
    vAt (w 0x57 1 2 0 0 3) (put [(2, packIn)] [] []) 1 0 = some 0x62E36218
      ∧ vAt (w 0x57 1 2 0 0 3) (put [(2, packIn)] [] []) 1 4 = some 0x7F
      ∧ fAt (w 0x57 1 2 0 0 3) (put [(2, packIn)] [] []) = some 24
      ∧ vAt (w 0x58 1 2 0 0 3) (put [(2, fun l => if l = 0 then 0x62E36218 else if l = 4 then 0x7F else 0)] [] []) 1 5
          = some 0xC0000000
      ∧ vAt (w 0x58 1 2 0 0 3) (put [(2, fun l => if l = 0 then 0x62E36218 else if l = 4 then 0x7F else 0)] [] []) 1 0
          = some 0x42200000 := by decide +kernel

/-- R229, R231 to R233: reciprocal and root, the exact points of the approximate functions, another lane, equal lanes, and the
two folds of R233's example (lanes 0 to 2 pass the guard). -/
theorem test_sfu_and_lane_words :
    vAt (w 0x60 1 2 0 0 3 1) (put [(2, c 0x40400000)] [] []) 1 0 = some 0x3EAAAAAA
      ∧ vAt (w 0x61 1 2 0 0 3) (put [(2, c 0xBF800000)] [] []) 1 0 = some 0x7FC00000
      ∧ vAt (w 0x62 1 2 0 0 3) (put [(2, c 0x40800000)] [] []) 1 0 = some 0x40000000
      ∧ vAt (w 0x63 1 2 0 0 3) (put [(2, c 0x40A00000)] [] []) 1 0 = some 0x42000000
      ∧ vAt (w 0x64 1 2 0 0 3) (put [(2, c 0x41000000)] [] []) 1 0 = some 0x40400000
      ∧ vAt (w 0x65 1 2 0 0 3) (put [(2, c 0x80000000)] [] []) 1 0 = some 0x80000000
      ∧ vAt (w 0x66 1 2 0 0 3) (put [(2, c 0)] [] []) 1 0 = some 0x3F800000
      ∧ vAt (w 0x67 1 2 0 0 3) (put [(2, c 0xFF800000)] [] []) 1 0 = some 0xBF800000
      ∧ vAt 0x3402827870700002 (put [(4, fun l => 100 + l)] [] []) 5 6 = some 107
      ∧ vAt (w 0x69 1 2 0 0) (put [(2, fun l => l % 16)] [] []) 1 3 = some 0x00080008
      ∧ sAt (w 0x6A 0x84 2 0 0 3 0 (g := 0)) (put [(2, fun l => if l = 0 then 0x3F800000 else 0x33800000)] []
          [(0, fun l => l < 3)]) 4 = some 0x3F800000
      ∧ sAt (w 0x6A 0x84 2 0 0 3 0 (g := 0)) (put [(2, fun l => if l = 2 then 0x3F800000 else 0x33800000)] []
          [(0, fun l => l < 3)]) 4 = some 0x3F800001
      ∧ vAt (w 0x6B 1 2 0 0 2 8) (put [(2, id)] [] []) 1 4 = some 6
      ∧ vAt (w 0x6B 1 2 0 0 2 0) (put [(2, id)] [] []) 1 4 = some 10 := by decide +kernel

/-- R51: both halves of the example pair read before either writes; the second half's guard is its own. -/
theorem test_pair_words :
    vAt 0x81020438110C0EF8 (put [(1, c 5), (2, c 7), (6, c 0x40000000), (7, c 0x40400000)] [] []) 1 0 = some 12
      ∧ vAt 0x81020438110C0EF8 (put [(1, c 5), (2, c 7), (6, c 0x40000000), (7, c 0x40400000)] [] []) 6 0 = some 0x40C00000
      ∧ vAt pair2 (put [(4, c 0x80000000)] [] [(2, fun l => l != 4)]) 4 4 = some 0xF8000000
      ∧ vAt pair2 (put [(4, c 0x80000000)] [] [(2, fun l => l != 4)]) 4 5 = some 0x80000000 := by decide +kernel


/-! Witnesses: states and operands that meet the hypotheses of the statements, one theorem for the clauses of each. -/

/-- The placed state of an instruction, changed as asked. -/
def atI (i : Instr) (f : State → State) : State := f (at_ ((encode i).getD 0))

/-- The instruction issues there, and what it finds meets `P`. -/
def Wit (i : Instr) (f : State → State) (P : Iss → State → Prop) : Prop :=
  ∃ (s0 : State) (it : Iss), issuing i (atI i f) = some (it, s0) ∧ P it s0

theorem Wit.of {i : Instr} {f : State → State} {P : Iss → State → Prop} (h : (issuing i (atI i f)).isSome = true)
    (hp : P ((issuing i (atI i f)).get h).1 ((issuing i (atI i f)).get h).2) : Wit i f P :=
  ⟨_, _, (Option.some_get h).symm, hp⟩

/-- Change the warp; the context's words; the block's record. -/
def onWarp (f : Warp → Warp) (s : State) : State := s.modWarp 0 f
/-- See `onWarp`. -/
def onCfg (f : CtxCfg → CtxCfg) (s : State) : State := s.modCtx 0 fun x => { x with eff := f x.eff }
/-- See `onWarp`. -/
def onBlock (f : Block → Block) (s : State) : State := s.modBlock 0 f

/-- Operands under the guard p0, which no lane of the placed warp passes. -/
def off (t : Ty) (d a b x : Opd) : Opnds := ⟨⟨0, false⟩, t, false, false, false, d, a, b, x⟩

/-- A poisoned uniform register. -/
def foul (r : Nat) (x : Warp) : Warp := x.sput r ⟨0, true⟩

/-- GuardedOff: no lane passes the guard. -/
theorem wit_guarded_off : ∀ i ∈ ([.iadd (off .s32 (.v 4) (.v 2) (.v 3) .zero) false, .mov (off .b32 (.v 4) (.v 2) N N),
      .isetp (off .s32 (.p 1) (.v 0) .k N) .ge .none, .nop (off .b32 N N N N), .exit (off .b32 N N N N), .trap (off .b32 N N N N) 1,
      .setfmt (off .b32 N (.s 7) N N) .write, .nap (off .n32 N (.s 5) N N), .bar (off .b32 N .k .zero N),
      .svc (off .b32 N N N N) 2, .lkacq (off .b32 (.s 30) (.s 10) N N) true, .cps (off .b32 N (.s 8) .zero N),
      .qpush (off .b32 (.s 3) (.s 16) (.s 4) N) true] : List Instr), Wit i id fun it _ => it.act = 0 := by
  intro i hi
  simp only [List.mem_cons, List.not_mem_nil, or_false] at hi
  rcases hi with rfl | rfl | rfl | rfl | rfl | rfl | rfl | rfl | rfl | rfl | rfl | rfl | rfl <;>
    exact Wit.of (by decide +kernel) (by decide +kernel)

/-- PredicateWords, VectorToPredicates, LaneWords, PairWords: clean sources, and halves that keep the bank rules. -/
theorem wit_clean_sources :
    Wit (.isetp (al .s32 (.p 1) (.v 0) .k N) .ge .none) id (fun it _ => CleanAB it)
      ∧ Wit (.v2p (al .b32 N (.v 6) N N) 1) id (fun it _ => ∀ l ∈ it.lanes, (it.src .b32 it.o.a l).pois = false)
      ∧ Wit (.xlane (al .b32 (.v 5) (.v 4) .p1 .zero) .xor) id
          (fun it _ => ∀ l ∈ it.lanes, (it.src .n32 it.o.b l).pois = false ∧ (it.src .n32 it.o.c l).pois = false)
      ∧ Wit (.pairWord ⟨.add, 1, .v 2, .s32, ⟨7, false⟩⟩ ⟨.fmul, 6, .v 7, .f32, ⟨7, false⟩⟩) id (fun _ _ =>
          bankOk ⟨.add, 1, .v 2, .s32, ⟨7, false⟩⟩ ⟨.fmul, 6, .v 7, .f32, ⟨7, false⟩⟩ = true) :=
  ⟨.of (by decide +kernel) (by unfold CleanAB; decide +kernel), .of (by decide +kernel) (by decide +kernel),
    .of (by decide +kernel) (by decide +kernel), .of (by decide +kernel) (by decide +kernel)⟩

/-- UnitFunctionsBounded: a finite number, zeros, an infinity, the last exponent. -/
theorem wit_unit_functions : fmt32.decode 0x3F800000 = .fin false (2 ^ 23) (-23) ∧ fmt32.decode 0xFF800000 = .inf true
    ∧ (127 : Nat) ≤ 127 := by decide +kernel

/-- SchedulingWords: an active `yield`; `fwait` on clear flags and on a raised one; `nap` of 1 and of 0; `sprint`. -/
theorem wit_scheduling :
    Wit (.yield (al .b32 N N N N)) id (fun it _ => it.act ≠ 0)
      ∧ Wit (.fwait (al .b32 N N N N) 0xFFF) id (fun it _ => it.act ≠ 0 ∧ ∀ f, f < 12 → (0xFFF : BitVec 12).getLsbD f = true →
          it.w.flag f = 0)
      ∧ Wit (.fwait (al .b32 N N N N) 0x800) (onWarp fun x => { x with pend := [⟨some 11, .mem, [], [], [], 0, []⟩] })
          (fun it _ => it.act ≠ 0 ∧ it.w.flag 11 ≠ 0)
      ∧ Wit (.nap (al .n32 N (.s 5) N N)) (onWarp (put [] [(5, 1)] []))
          (fun it _ => it.act ≠ 0 ∧ (it.src .n32 it.o.a 0).pois = false ∧ num it .n32 it.o.a 0 ≠ 0)
      ∧ Wit (.nap (al .n32 N (.s 5) N N)) id
          (fun it _ => it.act ≠ 0 ∧ (it.src .n32 it.o.a 0).pois = false ∧ num it .n32 it.o.a 0 = 0)
      ∧ Wit (.sprint (al .b32 N N N N) false) id (fun it _ => it.act ≠ 0) := by
  and_intros <;> exact .of (by decide +kernel) (by decide +kernel)

/-- FormatWords: the largest accepted value of each field; poison; the least value with a reserved bit; ACC_MODE 3. -/
theorem wit_formats :
    Wit (.setfmt (al .b32 N (.s 7) N N) .writeClear) (onWarp (put [] [(7, 0xCFFF)] []))
        (fun it _ => it.act ≠ 0 ∧ (it.src .b32 it.o.a 0).pois = false ∧ badFmt (num it .b32 it.o.a 0) = false)
      ∧ Wit (.setfmt (al .b32 N (.s 7) N N) .write) (onWarp (foul 7))
        (fun it _ => it.act ≠ 0 ∧ (it.src .b32 it.o.a 0).pois = true)
      ∧ Wit (.setfmt (al .b32 N (.s 7) N N) .write) (onWarp (put [] [(7, 0x10000)] []))
        (fun it _ => it.act ≠ 0 ∧ (it.src .b32 it.o.a 0).pois = false ∧ 2 ^ 16 ≤ num it .b32 it.o.a 0)
      ∧ Wit (.setfmt (al .b32 N (.s 7) N N) .write) (onWarp (put [] [(7, 0x3000)] []))
        (fun it _ => it.act ≠ 0 ∧ (it.src .b32 it.o.a 0).pois = false ∧ num it .b32 it.o.a 0 / 2 ^ 12 % 4 = 3) := by
  and_intros <;> exact .of (by decide +kernel) (by decide +kernel)

/-- A branch under p1, which the lanes below `n` pass. -/
def some_ (n : Nat) (s : State) : State := onWarp (put [] [] [(1, fun l => l < n)]) s

/-- RelativeBranches: all lanes, none, and one; a target before and behind; a uniform branch whose guard differs. -/
theorem wit_branches :
    let one : Opnds := ⟨⟨1, false⟩, .b32, false, false, false, N, N, N, N⟩
    Wit (.bra (al .b32 N N N N) 3 false) id (fun it _ => it.w.waiting = [] ∧ it.w.run.mask ≠ 0 ∧ it.act = it.w.run.mask)
      ∧ Wit (.bra one 3 true) id (fun it _ => it.w.waiting = [] ∧ it.w.run.mask ≠ 0 ∧ it.act = 0)
      ∧ Wit (.bra one 2 false) (some_ 31) (fun it _ => it.w.waiting = [] ∧ it.act ≠ 0 ∧ it.act ≠ it.w.run.mask
          ∧ (it.w.run.pc + 8 * (2 : BitVec 24).signExtend 64) &&& 0x00FFFFFFFFFFFFFF ≠ it.w.run.pc + 8)
      ∧ Wit (.bra one (-1) false) (some_ 1) (fun it _ => it.w.waiting = [] ∧ it.act ≠ 0 ∧ it.act ≠ it.w.run.mask
          ∧ (it.w.run.pc + 8 * (-1 : BitVec 24).signExtend 64) &&& 0x00FFFFFFFFFFFFFF ≠ it.w.run.pc + 8)
      ∧ Wit (.bra one 2 true) (some_ 1) (fun it s0 => it.act ≠ 0 ∧ it.act ≠ it.w.run.mask
          ∧ wfld (s0.cfg it.ctx).issueCfg 8 1 = 0) := by
  and_intros <;> exact .of (by decide +kernel) (by decide +kernel)

/-- CallsAndReturns: every lane of the one path names one target. IndirectTargetChecks: poison, the least address outside the
space, the least multiple of no 8. -/
theorem wit_targets :
    (∀ i ∈ ([.bri (al .b32 N (.s 14) N N), .ret (al .b32 N (.s 14) N N), .calli (al .b32 N (.s 14) N N)] : List Instr),
      Wit i (onWarp (put [] [(14, 0x20000), (15, 0)] [])) fun it _ => it.w.waiting = [] ∧ it.w.run.mask ≠ 0 ∧ it.act = it.w.run.mask
        ∧ ∀ l ∈ it.lanes, it.target l = ⟨0x20000, false⟩)
      ∧ Wit (.call (al .b32 N N N N) 3) id (fun it _ => it.w.waiting = [] ∧ it.w.run.mask ≠ 0 ∧ it.act = it.w.run.mask)
      ∧ Wit (.ret (al .b32 N (.s 14) N N)) (onWarp (foul 15)) (fun it _ => ∃ l ∈ it.lanes, (it.target l).pois = true)
      ∧ Wit (.bri (al .b32 N (.s 14) N N)) (onWarp (put [] [(14, 0), (15, 2 ^ 24)] [])) (fun it _ =>
          (∀ l ∈ it.lanes, (it.target l).pois = false) ∧ ∃ l ∈ it.lanes, 2 ^ 56 ≤ (it.target l).v)
      ∧ Wit (.calli (al .b32 N (.s 14) N N)) (onWarp (put [] [(14, 1), (15, 2 ^ 24 - 1)] [])) (fun it _ =>
          (∀ l ∈ it.lanes, (it.target l).pois = false ∧ (it.target l).v < 2 ^ 56) ∧ ∃ l ∈ it.lanes, (it.target l).v % 8 ≠ 0) := by
  refine ⟨?_, .of (by decide +kernel) (by decide +kernel), .of (by decide +kernel) (by decide +kernel),
    .of (by decide +kernel) (by decide +kernel), .of (by decide +kernel) (by decide +kernel)⟩
  intro i hi
  simp only [List.mem_cons, List.not_mem_nil, or_false] at hi
  rcases hi with rfl | rfl | rfl <;> exact .of (by decide +kernel) (by decide +kernel)

/-- ExitWords: some lanes and all. TrapWords: `svc` outside the handler with the frame mapped and writable; `brk`, `trap`. -/
theorem wit_exits_and_traps :
    Wit (.exit ⟨⟨1, false⟩, .b32, false, false, false, N, N, N, N⟩) (some_ 31) (fun it _ =>
        it.w.waiting = [] ∧ it.w.handler = none ∧ it.act ≠ 0 ∧ it.act ≠ it.w.run.mask)
      ∧ Wit (.exit (al .b32 N N N N)) id (fun it s0 => it.w.waiting = [] ∧ it.w.handler = none ∧ it.act ≠ 0
          ∧ it.act = it.w.run.mask ∧ (s0.block it.blk).isSome = true)
      ∧ Wit (.svc (al .b32 N N N N) 9) (onCfg fun x => { x with handlerPc := 0x20100, hframeBase := 0x28000 }) (fun it s0 =>
          it.act ≠ 0 ∧ it.w.handler = none ∧ (s0.cfg it.ctx).handlerPc ≠ 0
            ∧ (s0.devTargets it.ctx (frameOf s0 it.wid it.w) 256 true).isSome = true)
      ∧ Wit (.brk (al .b32 N N N N) 9) id (fun it _ => it.act ≠ 0) ∧ Wit (.trap (al .b32 N N N N) 9) id (fun it _ => it.act ≠ 0) := by
  and_intros <;> exact .of (by decide +kernel) (by decide +kernel)


/-- A value that is there meets `P`. -/
theorem there {α : Type} {x : Option α} {P : α → Prop} (h : x.isSome = true) (hp : P (x.get h)) : ∃ a, x = some a ∧ P a :=
  ⟨_, (Option.some_get h).symm, hp⟩

/-- The words of a context with a handler, its frames and pool in the mapped page. -/
def handled (s : State) : State :=
  onCfg (fun x => { x with handlerPc := 0x20100, hframeBase := 0x28000, poolBase := 0x24000 }) s

/-- A number placed in memory. -/
def poke (k n x : Nat) (s : State) : State := { s with mem := s.mem.setNum k n x }

/-- The placed state of `nop`. -/
def calm (f : State → State) : State := atI (.nop (al .b32 N N N N)) f

theorem calm_warp : ((flushStores (calm handled) 0).warp 0).isSome = true := by decide +kernel

/-- HandlerEntry: a first touch finds a handler whose frame is mapped; the frame is one range, away from its leaf's TCH byte. -/
theorem wit_handler_entry :
    let t : TrapReq := ⟨.firstTouch, 0, 0, 3, 0x300000, 0, false⟩
    let s := flushStores (calm handled) 0
    (∃ w, HandlerReady s 0 w t ∧ ∃ tg, s.devTargets (s.ctxNo 0) (frameOf s 0 w) 256 true = some [(tg, 256)]
        ∧ linkDown s tg.key = false ∧ ∀ a, tg.leaf.at_ = some a → a + 1 < tg.key ∨ tg.key + 256 ≤ a + 1)
      ∧ Wit (.svc (al .b32 N N N N) 9) handled fun it _ => it.act ≠ 0 := by
  refine ⟨⟨((flushStores (calm handled) 0).warp 0).get calm_warp, ⟨(Option.some_get calm_warp).symm, by decide +kernel, by decide +kernel,
    by decide +kernel, by decide +kernel, by decide +kernel, by decide +kernel⟩, ?_⟩, .of (by decide +kernel) (by decide +kernel)⟩
  exact ⟨(((flushStores (calm handled) 0).devTargets 0 0x28000 256 true).bind fun l => l.head?.map Prod.fst).get
    (by decide +kernel), by decide +kernel, by decide +kernel, by decide +kernel⟩

/-- HandlerReturn: `rfe` with no waiting entry, and with one. -/
theorem wit_handler_return :
    Wit (.rfe (al .b32 N N N N)) id (fun it _ => it.act ≠ 0 ∧ it.w.waiting = [] ∧ ∃ h, it.w.handler = some h ∧ h.copy = false)
      ∧ Wit (.rfe (al .b32 N N N N)) (onWarp fun x =>
            { x with run := { x.run with mask := 1 }, waiting := [⟨{ x.run with mask := 2 }, none⟩] })
          (fun it _ => it.act ≠ 0 ∧ it.w.waiting ≠ [] ∧ it.w.handler.isSome = true) :=
  ⟨.of (by decide +kernel) ⟨by decide +kernel, by decide +kernel, there (by decide +kernel) (by decide +kernel)⟩,
    .of (by decide +kernel) (by decide +kernel)⟩

/-- DecodeTraps: each check's word on a warp that the check stops. -/
theorem wit_decode_traps :
    let at0 := fun (i : Instr) (f : Warp → Warp) (P : Warp → Prop) =>
      i.parts ≠ none ∧ (atI i (onWarp f)).cur = some 0
        ∧ ∃ x, (atI i (onWarp f)).warp 0 = some x ∧ x.loc = some (0, 0) ∧ P x
    let fits := fun (i : Instr) (x : Warp) => ∀ r ∈ (usesOf i).vr ++ (usesOf i).vw, r < x.budget
    at0 (.mov (al .b32 (.v 8) (.v 2) N N)) (fun x => { x with budget := 8 })
        (fun x => ∃ r ∈ (usesOf (.mov (al .b32 (.v 8) (.v 2) N N))).vr ++ (usesOf (.mov (al .b32 (.v 8) (.v 2) N N))).vw, x.budget ≤ r)
      ∧ at0 (.call (al .b32 N N N N) 3) (fun x => { x with clause := some ⟨x.run.pc - 8, ⟨0, false, false, 15, 15, 0, 2⟩, [0, 0]⟩ })
          (fun x => fits (.call (al .b32 N N N N) 3) x ∧ ∃ cl, x.clause = some cl ∧ x.run.widx ≠ cl.hdr.len.val)
      ∧ at0 (.rfe (al .b32 N N N N)) (fun x => { x with handler := none })
          (fun x => fits (.rfe (al .b32 N N N N)) x ∧ x.handler = none)
      ∧ at0 (.cps (al .b32 N (.s 8) .zero N)) (fun x => { x with role := .vector })
          (fun x => fits (.cps (al .b32 N (.s 8) .zero N)) x ∧ x.role ≠ .copy ∧ x.role ≠ .general)
      ∧ at0 (.mzero (al .b32 N N (.s 4) (.s 5))) (fun x => { x with role := .general })
          (fun x => fits (.mzero (al .b32 N N (.s 4) (.s 5))) x ∧ x.role ≠ .matrix)
      ∧ at0 (.epcfg (al .b32 N (.s 4) N N)) (fun x => { x with role := .copy })
          (fun x => fits (.epcfg (al .b32 N (.s 4) N N)) x ∧ x.role ≠ .vector) :=
  ⟨⟨by decide +kernel, by decide +kernel, there (by decide +kernel) (by decide +kernel)⟩,
    ⟨by decide +kernel, by decide +kernel,
      there (by decide +kernel) ⟨by decide +kernel, by decide +kernel, there (by decide +kernel) (by decide +kernel)⟩⟩,
    ⟨by decide +kernel, by decide +kernel, there (by decide +kernel) (by decide +kernel)⟩,
    ⟨by decide +kernel, by decide +kernel, there (by decide +kernel) (by decide +kernel)⟩,
    ⟨by decide +kernel, by decide +kernel, there (by decide +kernel) (by decide +kernel)⟩,
    ⟨by decide +kernel, by decide +kernel, there (by decide +kernel) (by decide +kernel)⟩⟩

/-- TrapDispositions: a provisional block, in and out of the handler; a dump asked for; a debugger attached. RecordLayouts: a
handler with its 16 registers. -/
theorem wit_dispositions :
    let has := fun (f : State → State) (P : State → Warp → Block → Prop) =>
      ∃ x, (flushStores (calm f) 0).warp 0 = some x ∧ ∃ b, (flushStores (calm f) 0).block 0 = some b ∧ P (flushStores (calm f) 0) x b
    has (onBlock fun b => { b with prov := true, st := .runningP }) (fun _ x b => b.prov = true ∧ x.handler = none
        ∧ dispOf .poison 0 = .fatal)
      ∧ has (fun s => onBlock (fun b => { b with prov := true, st := .runningP })
            (onWarp (fun x => { x with handler := padHandler (w 0xD1 0 0 0 0).toNat x.run }) s))
          (fun _ x b => b.prov = true ∧ ∃ h, x.handler = some h ∧ h.savedS.length = 16)
      ∧ has (onCfg fun x => { x with dumpCfg := 1 }) (fun s x b => b.prov = false ∧ x.handler = none
          ∧ ∃ c, s.ctx b.ctx = some c ∧ c.dump = none ∧ wfld c.eff.dumpCfg 0 1 = 1)
      ∧ has (onCfg fun x => { x with dbgCfg := 1 }) (fun s x b => x.handler = none ∧ wfld (s.cfg b.ctx).dbgCfg 0 1 = 1) :=
  ⟨there (by decide +kernel) (there (by decide +kernel) (by decide +kernel)),
    there (by decide +kernel) (there (by decide +kernel) ⟨by decide +kernel, there (by decide +kernel) (by decide +kernel)⟩),
    there (by decide +kernel) (there (by decide +kernel) ⟨by decide +kernel, by decide +kernel,
      there (by decide +kernel) (by decide +kernel)⟩),
    there (by decide +kernel) (there (by decide +kernel) (by decide +kernel))⟩

/-- FramesAndMappings: an empty pool; one whose HEAD names a frame; a mapping granted, one refused, the two forms refused with 5. -/
theorem wit_frames :
    let lf := 2 ^ 48 + 0x30007
    let maps := fun (va : Nat) (P : Iss → State → Prop) => Wit (.pgmap (al .b32 (.s 3) (.s 24) (.s 26) N) 0)
      (onWarp (put [] [(24, va), (25, va / 2 ^ 32), (26, lf), (27, lf / 2 ^ 32)] [])) fun it s0 =>
        it.act ≠ 0 ∧ (it.src .b64 it.o.a 0).pois = false ∧ (it.src .b64 it.o.b 0).pois = false ∧ P it s0
    Wit (.pgpop (al .b32 (.s 20) N N N)) handled (fun it _ => it.act ≠ 0)
      ∧ (∃ bs, (calm handled).devRead 0 0x24000 64 = some bs ∧ fieldOf bs 8 8 ≤ fieldOf bs 0 8)
      ∧ (∃ bs, (calm fun s => poke 0x24040 8 0x30000 (poke 0x24008 8 1 (handled s))).devRead 0 0x24000 64 = some bs
          ∧ fieldOf bs 0 8 < fieldOf bs 8 8
          ∧ ∃ xs, (((calm fun s => poke 0x24040 8 0x30000 (poke 0x24008 8 1 (handled s))).devTouch 0 0x24000 64).devRead 0
                (0x24000 + 0x40 + 8 * (fieldOf bs 0 8 % 2 ^ fieldOf bs 0x10 1)) 8) = some xs
            ∧ leNat xs % 65536 = 0 ∧ leNat xs < 2 ^ 48 ∧ leNat xs + 65536 ≤ Config.devBytes)
      ∧ maps 0x30000 (fun it s0 => mapStatus s0 it.ctx 0x30000 0 lf = .ok (0, 0x16018))
      ∧ maps 0x20000 (fun it s0 => mapStatus s0 it.ctx 0x20000 0 lf = .ok (3, 0))
      ∧ maps (2 ^ 56) (fun it _ => 2 ^ 56 ≤ (it.src .b64 it.o.a 0).v)
      ∧ maps 0x20008 (fun it _ => (it.src .b64 it.o.a 0).v % 2 ^ (16 + 10 * 0) ≠ 0) :=
  ⟨.of (by decide +kernel) (by decide +kernel), there (by decide +kernel) (by decide +kernel),
    there (by decide +kernel) ⟨by decide +kernel, there (by decide +kernel) (by decide +kernel)⟩,
    .of (by decide +kernel) (by decide +kernel), .of (by decide +kernel) (by decide +kernel),
    .of (by decide +kernel) (by decide +kernel), .of (by decide +kernel) (by decide +kernel)⟩

/-- HandlerWords: `tlbinv` of no page and of one; `replay` by token; `park` at both ends of its tokens; `csrrd`; `csrwr` at the
values where it changes sides; `poisck`. -/
theorem wit_handler_words :
    let inv : Opnds := al .b32 N (.s 4) (.s 5) N
    let wr := fun (t : Ty) (c : Csr) (v : Nat) (P : Nat → Prop) => Wit (.csrwr (al t N (.s 4) N N) c) (onWarp (put [] [(4, v)] []))
      fun it _ => it.act ≠ 0 ∧ (it.src it.o.ty it.o.a 0).pois = false ∧ P (num it it.o.ty it.o.a 0)
        ∧ ∃ h, it.w.handler = some h ∧ h.trap.cause = .service
    let pk := fun (v : Nat) (P : Nat → Prop) => Wit (.park (al .b32 N (.s 4) N N)) (onWarp (put [] [(4, v)] []))
      fun it _ => it.act ≠ 0 ∧ (it.src .n32 it.o.a 0).pois = false ∧ P (num it .n32 it.o.a 0) ∧ it.w.waiting = []
        ∧ it.w.handler.isSome = true
    Wit (.tlbinv inv .range) id (fun it _ => it.act ≠ 0 ∧ (it.src .b64 it.o.a 0).pois = false
        ∧ (it.src .n32 it.o.b 0).pois = false ∧ num it .n32 it.o.b 0 = 0)
      ∧ Wit (.tlbinv inv .range) (onWarp (put [] [(5, 1)] [])) (fun it _ => it.act ≠ 0 ∧ num it .n32 it.o.b 0 ≠ 0)
      ∧ Wit (.replay (al .b32 (.s 3) (.s 5) N N) true) id (fun it _ => it.act ≠ 0 ∧ (it.src .n32 it.o.a 0).pois = false)
      ∧ pk (2 ^ 31 - 1) (· < 2 ^ 31) ∧ pk (2 ^ 31) (fun x => 2 ^ 31 ≤ x ∧ x < 2 ^ 32)
      ∧ Wit (.csrrd (al .b64 (.s 4) N N N) .faultVa) id (fun it _ => it.act ≠ 0 ∧ it.w.handler.isSome = true)
      ∧ Wit (.csrrd (al .b32 (.s 4) N N N) .poolAvail) handled (fun it s0 => it.act ≠ 0 ∧ it.w.handler.isSome = true
          ∧ (s0.devRead it.ctx (s0.cfg it.ctx).poolBase.toNat 64).isSome = true)
      ∧ wr .b64 .resumePc 16 (· % 8 = 0) ∧ wr .b64 .resumePc 17 (· % 8 ≠ 0)
      ∧ wr .b32 .savedFmt 0xCFFF (fun a => a < 2 ^ 16 ∧ a / 2 ^ 12 % 4 ≠ 3) ∧ wr .b32 .savedFmt 0x10000 (2 ^ 16 ≤ ·)
      ∧ wr .b32 .savedFmt 0x3000 (· / 2 ^ 12 % 4 = 3) :=
  ⟨.of (by decide +kernel) (by decide +kernel), .of (by decide +kernel) (by decide +kernel),
    .of (by decide +kernel) (by decide +kernel), .of (by decide +kernel) (by decide +kernel),
    .of (by decide +kernel) (by decide +kernel), .of (by decide +kernel) (by decide +kernel),
    .of (by decide +kernel) (by decide +kernel),
    .of (by decide +kernel) ⟨by decide +kernel, by decide +kernel, by decide +kernel, there (by decide +kernel) (by decide +kernel)⟩,
    .of (by decide +kernel) ⟨by decide +kernel, by decide +kernel, by decide +kernel, there (by decide +kernel) (by decide +kernel)⟩,
    .of (by decide +kernel) ⟨by decide +kernel, by decide +kernel, by decide +kernel, there (by decide +kernel) (by decide +kernel)⟩,
    .of (by decide +kernel) ⟨by decide +kernel, by decide +kernel, by decide +kernel, there (by decide +kernel) (by decide +kernel)⟩,
    .of (by decide +kernel) ⟨by decide +kernel, by decide +kernel, by decide +kernel, there (by decide +kernel) (by decide +kernel)⟩⟩

/-- A traced grid of a context with tracing on. -/
def traced (s : State) : State :=
  onCfg (fun x => { x with traceCfg := x.traceCfg ||| 1 }) (s.modGrid 0 1 fun g => { g with desc := { g.desc with trace := 1 } })

/-- Where an access of the placed block's goes, no page walk failing. -/
def tgt (s : State) (k : AccKind) (va : Nat) : Tgt :=
  match s.access 0 va s.free k with | .ok g => g | .error _ => ⟨0, ⟨0, 0, none, []⟩, 0⟩

/-- A scratchpad of 4 KiB. -/
def scratch (s : State) : State := s.modGrid 0 1 fun g => { g with desc := { g.desc with scratch := 4096 } }

/-- TraceAndTimeWords: `trace` and `tmark` where nothing is traced, and where it is and the buffer has room; `rdptp`; `halt`. -/
theorem wit_trace :
    let blk := fun (it : Iss) (s0 : State) (v : Bool) => ∃ b, s0.block it.blk = some b ∧ s0.traced b = v
    Wit (.trace (al .b32 N (.s 4) N N) 0xEF 2) id (fun it s0 => it.act ≠ 0 ∧ (∀ x ∈ it.uniRange it.o.a 2, x.pois = false)
        ∧ blk it s0 false)
      ∧ Wit (.trace (al .b32 N (.s 4) N N) 0xEF 2) traced (fun it s0 => it.act ≠ 0 ∧ (∀ x ∈ it.uniRange it.o.a 2, x.pois = false)
        ∧ blk it s0 true ∧ (s0.unit it.ctx it.core).lost = 0
        ∧ (s0.unit it.ctx it.core).buf.length + 2048 ≤ unitBytes (s0.cfg it.ctx) it.core)
      ∧ Wit (.tmark (al .b32 (.s 3) N N N)) traced (fun it s0 => it.act ≠ 0 ∧ blk it s0 true ∧ (s0.unit it.ctx it.core).bits = []
        ∧ (s0.unit it.ctx it.core).lost = 0
        ∧ (s0.unit it.ctx it.core).buf.length + 2048 ≤ unitBytes (s0.cfg it.ctx) it.core)
      ∧ Wit (.rdptp (al .b32 (.s 4) N N N) true) id (fun it _ => it.act ≠ 0 ∧ it.o.d = .s 4)
      ∧ Wit (.halt (al .b32 N N N N) true) id (fun it s0 => it.act ≠ 0 ∧ (s0.block it.blk).isSome = true
          ∧ ∃ c, s0.ctx it.ctx = some c ∧ c.dump = none) :=
  ⟨.of (by decide +kernel) ⟨by decide +kernel, by decide +kernel, there (by decide +kernel) (by decide +kernel)⟩,
    .of (by decide +kernel) ⟨by decide +kernel, by decide +kernel, there (by decide +kernel) (by decide +kernel), by decide +kernel,
      by decide +kernel⟩,
    .of (by decide +kernel) ⟨by decide +kernel, there (by decide +kernel) (by decide +kernel), by decide +kernel, by decide +kernel,
      by decide +kernel⟩,
    .of (by decide +kernel) (by decide +kernel),
    .of (by decide +kernel) ⟨by decide +kernel, by decide +kernel, there (by decide +kernel) (by decide +kernel)⟩⟩


/-- Addresses 0x21000 + `step` times the lane in v2, v3 (the page of the code, which may be written); lanes 0, 1 and 31 run. -/
def addrs (step : Nat) (s : State) : State :=
  onWarp (fun x => { put [(2, fun l => 0x21000 + step * l), (3, c 0)] [] [] x with run := { x.run with mask := 0x80000003 } }) s

theorem lu_clean {it : Iss} {s : State} {h : CacheHint} {f : Nat → Tgt} (hd : ∀ e ∈ s.cores, e.2.dirty = []) :
    LastUseClean it s h f := fun _ _ _ e he b hb => absurd (hd e he ▸ hb : b ∈ []) List.not_mem_nil

/-- GlobalLoads: each lane at its word; `ldr`; `sld`. -/
theorem wit_loads :
    Wit (.ld (al .b32 (.v 4) (.v 2) .zero .zero) .b32 .acq .dev .lu false false) (addrs 4) (fun it s0 =>
        let f := fun l => tgt s0 ⟨false, false, some 0⟩ (0x21000 + 4 * l)
        it.act ≠ 0 ∧ GlobalReady it s0 (settledFor it s0 4 f) ⟨false, false, some it.blk⟩ true false 4 (it.ea false) f
          ∧ MissRoom it (settledFor it s0 4 f) 1 ∧ (∀ l ∈ it.lanes, trapsAtLoad (settledFor it s0 4 f) it.blk (f l) 4 = false)
          ∧ LastUseClean it (settledFor it s0 4 f) .lu f)
      ∧ Wit (.ldr (al .b32 (.v 4) (.v 2) .zero .zero) .b32 .rlx .dev false) (addrs 4) (fun it s0 =>
        let f := fun l => tgt s0 ⟨false, false, some 0⟩ (0x21000 + 4 * l)
        it.act ≠ 0 ∧ GlobalReady it s0 (settledFor it s0 4 f) ⟨false, false, some it.blk⟩ true false 4 (it.ea false) f
          ∧ MissRoom it (settledFor it s0 4 f) 1 ∧ (∀ l ∈ it.lanes, trapsAtLoad (settledFor it s0 4 f) it.blk (f l) 4 = false)
          ∧ (∀ e ∈ (settledFor it s0 4 f).cores, e.2.dirty = [])
          ∧ ∀ l ∈ it.lanes, (f l).va = (it.ea false l).v ∧ (f l).leaf.bits 7 1 = 0)
      ∧ Wit (.sld (al .b32 (.s 4) (.s 2) .zero N) .b64 .weak .wp) (onWarp (put [] [(2, 0x21000), (3, 0)] [])) (fun it s0 =>
        it.act ≠ 0 ∧ it.eaU.pois = false ∧ it.eaU.v < 2 ^ 56 ∧ it.eaU.v % 8 = 0 ∧ ∃ g,
          s0.access it.ctx it.eaU.v (laneFree s0 0) ⟨false, false, some it.blk⟩ = .ok g
          ∧ watched (settle s0 it.wid g.key 8) it.ctx false true false it.eaU.v 8 = false
          ∧ waitsForLink it (settle s0 it.wid g.key 8) (fun _ => it.eaU) = false
          ∧ trapsAtLoad (settle s0 it.wid g.key 8) it.blk g 8 = false ∧ MissRoom it (settle s0 it.wid g.key 8) 1) :=
  ⟨.of (by decide +kernel) ⟨by decide +kernel, by constructor <;> decide +kernel, by unfold MissRoom; decide +kernel,
      by decide +kernel, lu_clean (by decide +kernel)⟩,
    .of (by decide +kernel) ⟨by decide +kernel, by constructor <;> decide +kernel, by unfold MissRoom; decide +kernel,
      by decide +kernel, by decide +kernel, by decide +kernel⟩,
    .of (by decide +kernel) ⟨by decide +kernel, by decide +kernel, by decide +kernel, by decide +kernel,
      tgt (atI (.sld (al .b32 (.s 4) (.s 2) .zero N) .b64 .weak .wp) id) ⟨false, false, some 0⟩ 0x21000, by decide +kernel,
      by decide +kernel, by decide +kernel, by decide +kernel, by unfold MissRoom; decide +kernel⟩⟩

/-- GlobalStores: a weak store, a release's, and `stc` of one lane with its reservation and without. -/
theorem wit_stores :
    let conf := fun (it : Iss) (s0 : State) => ∃ b, s0.block it.blk = some b ∧ b.prov = false
    let f := fun (s0 : State) l => tgt s0 ⟨true, false, some 0⟩ (0x21000 + 8 * l)
    Wit (.st (al .b32 (.v 4) (.v 2) .zero .zero) .b64 .weak .wp .dflt false) (addrs 8) (fun it s0 =>
        it.act ≠ 0 ∧ conf it s0 ∧ GlobalReady it s0 s0 ⟨true, false, some it.blk⟩ false true 8 (it.ea false) (f s0)
          ∧ MissRoom it s0 (parts8 8).length ∧ LastUseClean it s0 .dflt (f s0))
      ∧ Wit (.st (al .b32 (.v 4) (.v 2) .zero .zero) .b64 .rel .sys .dflt false) (addrs 8) (fun it s0 =>
        let s1 := releaseAt (s0.modWarp it.wid Warp.unmiss) it.wid .sys
        it.act ≠ 0 ∧ conf it s0 ∧ GlobalReady it s0 s0 ⟨true, false, some it.blk⟩ false true 8 (it.ea false) (f s0)
          ∧ MissRoom it s0 (parts8 8).length ∧ Settled it s1 8 (f s0) ∧ L1Apart it s1 8 (f s0)
          ∧ ∀ l ∈ it.lanes, (it.dataBytes it.o.d 8 l).2 = false)
      ∧ ∀ r ∈ [[], [(31, 0x210F8 / 64)]], Wit (.stc ⟨⟨1, false⟩, .b32, false, false, false, .v 4, .v 2, .zero, .v 6⟩ .b64 .rlx .dev false)
          (fun s => onWarp (fun x => put [] [] [(1, fun l => l == 31)] { x with resv := r }) (addrs 8 s)) (fun it s0 =>
        it.lanes = [31] ∧ conf it s0 ∧ GlobalReady it s0 s0 ⟨true, false, some it.blk⟩ false true 8 (it.ea false) (f s0)
          ∧ MissRoom it s0 1
          ∧ ∃ w1, (settle (released it (s0.modWarp it.wid Warp.unmiss) .rlx .dev) it.wid (f s0 31).key 8).warp it.wid = some w1 ∧ (alook 31 w1.resv).isSome = !r.isEmpty) := by
  refine ⟨.of (by decide +kernel) ⟨by decide +kernel, there (by decide +kernel) (by decide +kernel),
      by constructor <;> decide +kernel, by unfold MissRoom; decide +kernel, lu_clean (by decide +kernel)⟩,
    .of (by decide +kernel) ⟨by decide +kernel, there (by decide +kernel) (by decide +kernel),
      by constructor <;> decide +kernel, by unfold MissRoom; decide +kernel, by unfold Settled; decide +kernel,
      by unfold L1Apart; decide +kernel, by decide +kernel⟩, ?_⟩
  intro r hr
  simp only [List.mem_cons, List.not_mem_nil, or_false] at hr
  rcases hr with rfl | rfl <;>
    exact .of (by decide +kernel) ⟨by decide +kernel, there (by decide +kernel) (by decide +kernel),
      by constructor <;> decide +kernel, by unfold MissRoom; decide +kernel, there (by decide +kernel) (by decide +kernel)⟩

/-- StoresLand: a store of 8 B at the end of a sector, over a link that is up. -/
theorem wit_stores_land :
    let b : Buffered := ⟨.mem 0x21018, List.replicate 8 5, [false, true], 1, 0, 0, 0, 1⟩
    b.bytes ≠ [] ∧ b.pois.any id = true ∧ linkDown (calm id) 0x21018 = false
      ∧ ∀ x ∈ sectors 0x21018 b.bytes.length, (calm id).mem.unknown b.kid x = false := by decide +kernel

/-- ScratchpadAccesses: the last words of the window loaded, stored, and released. -/
theorem wit_scratchpad :
    let at0 := onWarp (put [(2, fun l => 4096 - 128 + 4 * l)] [] [])
    let f := fun (l : Nat) => (some 0, 4096 - 128 + 4 * l)
    Wit (.lds (al .b32 (.v 4) (.v 2) .zero .zero) .b32 .weak .wp) (fun s => at0 (scratch s)) (fun it s0 =>
        it.act ≠ 0 ∧ ScratchReady it s0 true false 4 it.ea32 f)
      ∧ Wit (.sts (al .b32 (.v 4) (.v 2) .zero .zero) .b32 .rlx .blk) (fun s => at0 (scratch s)) (fun it s0 =>
        ScratchReady it s0 false true 4 it.ea32 f)
      ∧ Wit (.sts (al .b32 (.v 4) (.v 2) .zero .zero) .b32 .rel .blk) (fun s => at0 (scratch s)) (fun it s0 =>
        it.act ≠ 0 ∧ ScratchReady it s0 false true 4 it.ea32 f ∧ ∃ b, (releaseAt s0 it.wid .blk).block 0 = some b ∧ b.rings = []) :=
  ⟨.of (by decide +kernel) ⟨by decide +kernel, by constructor <;> decide +kernel⟩,
    .of (by decide +kernel) (by constructor <;> decide +kernel),
    .of (by decide +kernel) ⟨by decide +kernel, by constructor <;> decide +kernel, there (by decide +kernel) (by decide +kernel)⟩⟩

/-- ConstantsAndCaches: the last word of the parameter store, a bank that does not exist, `cctl` of mapped lines and of all, `icinv`,
a fence; a load that has nothing older to read. -/
theorem wit_constants_and_caches :
    Wit (.ldc (al .b32 (.v 4) (.v 2) N .zero) .b64 1) (onWarp (put [(2, c 4088)] [] [])) (fun it s0 => it.act ≠ 0
        ∧ (∀ l ∈ it.lanes, (it.src .b32 it.o.a l).pois = false) ∧ MissRoom it s0 1 ∧ ∃ g, s0.gridOfWarp it.wid = some g
          ∧ ∀ l ∈ it.lanes, (num it .b32 it.o.a l + it.koff 32) % 2 ^ 32 + 8 ≤ bankSize g 1
            ∧ (num it .b32 it.o.a l + it.koff 32) % 2 ^ 32 % 8 = 0)
      ∧ Wit (.ldc (al .b32 (.v 4) (.v 2) N .zero) .b32 2) id (fun it s0 => it.act ≠ 0 ∧ (s0.gridOfWarp it.wid).isSome = true
          ∧ it.lanes.head? = some 0)
      ∧ Wit (.cctl (al .b32 N N N N) .wbinvall false) id (fun it _ => it.act ≠ 0)
      ∧ Wit (.cctl (al .b32 N (.v 2) .zero .zero) .wbinv false) (addrs 128) (fun it s0 => ∃ x, ∀ l ∈ it.lanes,
          (it.ea false l).pois = false ∧ (it.ea false l).v < 2 ^ 56 ∧ s0.leaf it.ctx (it.ea false l).v (laneFree s0 l) = .ok x)
      ∧ Wit (.icinv (al .b32 N (.s 2) N .zero)) id (fun it _ => it.act ≠ 0)
      ∧ Wit (.fence (al .b32 N N N N) .acqrel .dev) id (fun it s0 => it.act ≠ 0 ∧ wideScope s0 it.wid .dev = true
          ∧ reachOf s0 it.wid .dev = 2 ∧ (∃ b, s0.block it.blk = some b ∧ b.ctx = it.ctx ∧ b.plines = []) ∧ it.w.pend.any Pend.isLoad = false)
      ∧ Wit (.fence (al .b32 N N N N) .rel .cls) (onWarp fun x =>
          { x with sbuf := [⟨.mem 0x21000, [5, 5, 5, 5], [false], 1, 0, 0, 0, 1⟩] }) (fun it s0 =>
          it.act ≠ 0 ∧ (pathStores s0 it.wid fun _ => true) = true) :=
  ⟨.of (by decide +kernel) ⟨by decide +kernel, by decide +kernel, by unfold MissRoom; decide +kernel,
      there (by decide +kernel) (by decide +kernel)⟩,
    .of (by decide +kernel) (by decide +kernel), .of (by decide +kernel) (by decide +kernel),
    .of (by decide +kernel) ⟨(tgt (atI (.cctl (al .b32 N (.v 2) .zero .zero) .wbinv false) (addrs 128)) ⟨false, false, some 0⟩
      0x21000).leaf, by decide +kernel⟩,
    .of (by decide +kernel) (by decide +kernel),
    .of (by decide +kernel) ⟨by decide +kernel, by decide +kernel, by decide +kernel, there (by decide +kernel) (by decide +kernel),
      by decide +kernel⟩,
    .of (by decide +kernel) (by decide +kernel)⟩

/-- AccessFaults: a poisoned address, the least one outside the space, the least misaligned one; a page of first touch. -/
theorem wit_access_faults :
    let ld : Instr := .ld (al .b32 (.v 4) (.v 2) .zero .zero) .b32 .weak .wp .dflt false false
    Wit ld (onWarp fun x => x.vput 2 0xFFFFFFFF fun l => ⟨0, l == 31⟩) (fun it _ => it.firstLane (fun l => (it.ea false l).pois) = some 31)
      ∧ Wit ld (onWarp (put [(2, c 0), (3, fun l => if l = 31 then 2 ^ 24 else 0)] [] []))
          (fun it _ => (∀ l ∈ it.lanes, (it.ea false l).pois = false)
            ∧ it.firstLane (fun l => decide (2 ^ 56 ≤ (it.ea false l).v)) = some 31)
      ∧ Wit ld (onWarp (put [(2, fun l => if l = 31 then 0x21001 else 0x21000), (3, c 0)] [] []))
          (fun it _ => (∀ l ∈ it.lanes, (it.ea false l).pois = false ∧ (it.ea false l).v < 2 ^ 56)
            ∧ it.firstLane (fun l => (it.ea false l).v % 4 != 0) = some 31)
      ∧ Wit ld (fun s => poke 0x16018 8 0x40 (onWarp (put [(2, c 0x30000), (3, c 0)] [] []) s)) (fun it s0 =>
          it.lanes.head? = some 0 ∧ (∀ j ∈ it.lanes, (it.ea false j).pois = false ∧ (it.ea false j).v < 2 ^ 56 ∧ (it.ea false j).v % 4 = 0
            ∧ s0.access it.ctx (it.ea false j).v (laneFree s0 j) ⟨false, false, some it.blk⟩ = .error ⟨4, .firstTouch, 0⟩
            ∧ watched s0 it.ctx false true false (it.ea false j).v 4 = false) ∧ waitsForLink it s0 (it.ea false) = false) := by
  and_intros <;> exact .of (by decide +kernel) (by decide +kernel)

/-- What GlobalAtomics asks of a word at addresses 8 B apart. -/
def AtomThere (i : Instr) (n : Nat) (wr koff : Bool) (base : Iss → State → (Nat → Tgt) → State) : Prop :=
  Wit i (addrs 8) fun it s0 =>
    let f := fun l => tgt s0 ⟨wr, false, some 0⟩ (0x21000 + 8 * l)
    it.act ≠ 0 ∧ AtomReady it s0 (base it s0 f) wr koff n f

/-- GlobalAtomics: `atom`. -/
theorem wit_atom : AtomThere (.atom (al .n32 (.v 4) (.v 2) (.v 6) N) .add .acqrel .dev false) 4 true false (fun it s f => atomBase it s .acqrel .dev f 4) :=
  Wit.of (by decide +kernel) ⟨by decide +kernel, ⟨⟨by decide +kernel, by decide +kernel, by decide +kernel, by decide +kernel,
    by decide +kernel, by decide +kernel⟩, by unfold MissRoom; decide +kernel, by unfold Settled; decide +kernel,
    ⟨by decide +kernel, by decide +kernel, by decide +kernel⟩, there (by decide +kernel) (by decide +kernel), by decide +kernel⟩⟩

/-- GlobalAtomics: `atomcas`. -/
theorem wit_atomcas : AtomThere (.atomcas (al .b64 (.v 4) (.v 2) (.v 6) (.v 8)) .acq .sys false) 8 true false (fun it s f => atomBase it s .acq .sys f 8) :=
  Wit.of (by decide +kernel) ⟨by decide +kernel, ⟨⟨by decide +kernel, by decide +kernel, by decide +kernel, by decide +kernel,
    by decide +kernel, by decide +kernel⟩, by unfold MissRoom; decide +kernel, by unfold Settled; decide +kernel,
    ⟨by decide +kernel, by decide +kernel, by decide +kernel⟩, there (by decide +kernel) (by decide +kernel), by decide +kernel⟩⟩

/-- GlobalAtomics: `red`. -/
theorem wit_red : AtomThere (.red (al .f32 N (.v 2) (.v 6) N) .add .rel .dev false) 4 true false (fun it s f => atomBase it s .rel .dev f 4) :=
  Wit.of (by decide +kernel) ⟨by decide +kernel, ⟨⟨by decide +kernel, by decide +kernel, by decide +kernel, by decide +kernel,
    by decide +kernel, by decide +kernel⟩, by unfold MissRoom; decide +kernel, by unfold Settled; decide +kernel,
    ⟨by decide +kernel, by decide +kernel, by decide +kernel⟩, there (by decide +kernel) (by decide +kernel), by decide +kernel⟩⟩

/-- GlobalAtomics: `atomc`. -/
theorem wit_atomc : AtomThere (.atomc (al .f32 N (.v 2) (.v 6) N) .rlx .dev false) 8 true false (fun it s f => atomBase it s .rlx .dev f 8) :=
  Wit.of (by decide +kernel) ⟨by decide +kernel, ⟨⟨by decide +kernel, by decide +kernel, by decide +kernel, by decide +kernel,
    by decide +kernel, by decide +kernel⟩, by unfold MissRoom; decide +kernel, by unfold Settled; decide +kernel,
    ⟨by decide +kernel, by decide +kernel, by decide +kernel⟩, there (by decide +kernel) (by decide +kernel), by decide +kernel⟩⟩

/-- GlobalAtomics: `rdc`. -/
theorem wit_rdc : AtomThere (.rdc (al .f32 (.v 4) (.v 2) N N) .acq .dev false) 8 false false (fun it s f => atomBase it s .acq .dev f 8) :=
  Wit.of (by decide +kernel) ⟨by decide +kernel, ⟨⟨by decide +kernel, by decide +kernel, by decide +kernel, by decide +kernel,
    by decide +kernel, by decide +kernel⟩, by unfold MissRoom; decide +kernel, by unfold Settled; decide +kernel,
    ⟨by decide +kernel, by decide +kernel, by decide +kernel⟩, there (by decide +kernel) (by decide +kernel), by decide +kernel⟩⟩

/-- ScratchpadAtomics: 32 words. -/
theorem wit_scratch_atomics :
    Wit (.atoms (al .s32 (.v 4) (.v 2) (.v 6) N) .min .rlx .blk false)
      (fun s => onWarp (put [(2, fun l => 4 * l)] [] []) (scratch s)) (fun it s0 =>
        let f := fun (l : Nat) => (some 0, 4 * l)
        let s1 := scrSettled it (beforeAtom it s0 .rlx .blk [] 4) 4 f
        it.act ≠ 0 ∧ ScratchReady it s0 true true 4 (it.eaAtoms false) f ∧ (∃ b, s1.block 0 = some b)
          ∧ (∀ l ∈ it.lanes, (scrRead s1 (f l) 4).2 = false) ∧ (∀ l ∈ it.lanes, it.poisB l = false)
          ∧ ∀ l ∈ it.lanes, ∀ j ∈ it.lanes, (it.eaAtoms false l).v ≠ (it.eaAtoms false j).v →
              (f l).1 ≠ (f j).1 ∨ (f l).2 + 4 ≤ (f j).2 ∨ (f j).2 + 4 ≤ (f l).2) :=
  .of (by decide +kernel) ⟨by decide +kernel, by constructor <;> decide +kernel,
    ⟨_, (Option.some_get (by decide +kernel : Option.isSome _ = true)).symm⟩, by decide +kernel, by decide +kernel, by decide +kernel⟩


/-! Witnesses of the copy, bank, vitrine and matrix statements. -/

/-- A block of command words at s8, and a ring address in s20. -/
def command (ws : List Nat) (s : State) : State :=
  onWarp (put [] ((20, 0) :: ((List.range ws.length).zip ws).map fun e => (8 + e.1, e.2)) []) (scratch s)

/-- CopyAndBatchWords: tiles and gathers at the ends of their ranges; one word out of range; one address out of step. -/
theorem wit_copy_words :
    let cpg : Instr := .cpg (al .b32 N (.s 8) (.s 20) N) 3 true
    let cpx : Instr := .cpx (al .b32 N (.s 8) (.s 20) N) 63 true
    let clean := fun (it : Iss) => it.act ≠ 0 ∧ it.o.a = .s 8 ∧ (∀ j, j < 8 → (it.w.sget (8 + j)).pois = false)
      ∧ (it.src .b32 it.o.b 0).pois = false
    let ring := fun (it : Iss) (n : Nat) => some (BitVec.ofNat 32 (num it .b32 it.o.b 0), n)
    Wit cpg (command [0x21000, 0, 0, 4096, 1, 4, 4, 0]) (fun it s0 => clean it
        ∧ chkTile s0 it.blk (copyOf it s0 0 8 (ring it 3)) = none ∧ chkRing (copyOf it s0 0 8 (ring it 3)) = none)
      ∧ Wit cpg (command [0x21000, 0, 0, 65540, 1, 4, 4, 0]) (fun it _ => clean it ∧ 65536 < ((blockWords it 8)[3]?.getD 0).toNat)
      ∧ Wit cpg (command [0x21001, 0, 0, 65536, 4096, 4, 4, 0]) (fun it _ => clean it ∧ ((blockWords it 8)[3]?.getD 0).toNat = 65536
          ∧ ((blockWords it 8)[4]?.getD 0).toNat = 4096 ∧ ((blockWords it 8)[0]?.getD 0).toNat % 4 ≠ 0)
      ∧ Wit (.cps (al .b32 N (.s 8) .zero N)) (command [0x21000, 0, 0, 4, 1024, 4, 4, 0]) (fun it s0 => clean it
        ∧ chkTile s0 it.blk (copyOf it s0 1 8 none) = none)
      ∧ Wit cpx (command [0x21000, 0, 1024, 256, 12, 0, 0, 0]) (fun it s0 => clean it
        ∧ chkGather s0 it.blk (copyOf it s0 2 8 (ring it 63)) = none ∧ chkRing (copyOf it s0 2 8 (ring it 63)) = none)
      ∧ Wit cpx (command [0x21000, 0, 1024, 512, 1, 0, 0, 0]) (fun it _ => clean it ∧ ((blockWords it 8)[3]?.getD 0).toNat = 512)
      ∧ Wit cpx (command [0x21000, 0, 1032, 128, 4096, 0, 0, 0]) (fun it _ => clean it ∧ ((blockWords it 8)[2]?.getD 0).toNat % 64 ≠ 0) := by
  and_intros <;> exact .of (by decide +kernel) (by decide +kernel)

/-- CopyAndBatchWords: 254 closed batches and 255; a batch that is 32,767 and 32,768 numbers back. -/
theorem wit_batches :
    let batches := fun (n : Nat) (x : Warp) => { x with closed := (List.range n).map fun j => ⟨j + 1, [1]⟩ }
    Wit (.cpclose (al .b32 (.s 12) N N N)) (onWarp (batches 254)) (fun it _ => it.act ≠ 0 ∧ it.w.closed.length < 255)
      ∧ Wit (.cpclose (al .b32 (.s 12) N N N)) (onWarp (batches 255)) (fun it _ => it.act ≠ 0 ∧ 255 ≤ it.w.closed.length)
      ∧ Wit (.cpwait (al .b32 N (.s 12) N N)) (fun s => onWarp (batches 1) (onWarp (put [] [(12, 32769)] []) s)) (fun it _ => it.act ≠ 0
          ∧ ∀ b ∈ it.w.closed, 32768 ≤ (num it .b32 it.o.a 0 % 65536 + 65536 - b.num) % 65536)
      ∧ Wit (.cpwait (al .b32 N (.s 12) N N)) (fun s => onWarp (batches 1) (onWarp (put [] [(12, 32768)] []) s)) (fun it _ => it.act ≠ 0
          ∧ ∃ b ∈ it.w.closed, (num it .b32 it.o.a 0 % 65536 + 65536 - b.num) % 65536 < 32768) := by
  and_intros <;> exact .of (by decide +kernel) (by decide +kernel)

/-- A command of warp 0 in core 0's queue: a tile of 8 B at `va`, into scratchpad at 64. -/
def tile (va : Nat) (ring : Option (Word × Nat)) (started : Option Nat) : CopyCmd :=
  ⟨1, 0, 0, [BitVec.ofNat 32 va, 0, 64, 8, 1, 0, 0, 0], ring, started, [], false, false⟩

/-- Core 0 holds the command, of the warp's open batch; scratchpad holds a ring of three slots that expect one arrival. -/
def queued (x : CopyCmd) : State := calm fun s =>
  onBlock (fun b => { b with scr := [(0, 3), (1, 1)] }) <| onWarp (fun w => { w with openBatch := [x.seq] }) ((scratch s).modCore 0 fun k => { k with copies := [x] })

/-- CopyEngine: a command that may start; one that completes, with no ring and with one; one that meets a page with no entry. -/
theorem wit_copy_engine :
    let x := tile 0x21000 none none
    let y := tile 0x21000 (some (0, 2)) (some 0)
    let z := tile 0x400000 none (some 0)
    let runs := fun (x : CopyCmd) => ∃ k, runningCopy (queued x) 0 1 = some k ∧ (copyRun (queued x) k).2.2 = none
      ∧ copyWaits (queued x) k = false ∧ overQuota (queued x) (copyRun (queued x) k).1 (blkOf k.wid) = false
      ∧ (((queued x).warp k.wid).isSome = true)
    (nextCopy (queued x) 0).isSome = true ∧ runs { x with started := some 0 } ∧ runs y
      ∧ (∃ r, ringAt (copyRun (queued y) y).1 0 0 2 = some r ∧ r.bad 2 = false ∧ r.loc.1 = some 0)
      ∧ ((copyRun (queued y) y).1.block 0).isSome = true
      ∧ (∃ k, runningCopy (queued z) 0 1 = some k ∧ (copyRun (queued z) k).2.2.isSome = true
          ∧ ∃ w, (queued z).warp k.wid = some w ∧ w.alive ≠ 0) :=
  ⟨by decide +kernel,
    there (by decide +kernel) ⟨by decide +kernel, by decide +kernel, by decide +kernel, by decide +kernel⟩,
    there (by decide +kernel) ⟨by decide +kernel, by decide +kernel, by decide +kernel, by decide +kernel⟩,
    there (by decide +kernel) (by decide +kernel), by decide +kernel,
    there (by decide +kernel) ⟨by decide +kernel, there (by decide +kernel) (by decide +kernel)⟩⟩

/-- CopyEngine, the data: one row of 8 B at the end of a page. -/
theorem wit_copy_data :
    let x := tile 0x2FFF8 none (some 0)
    let s := queued x
    x.op = 0 ∧ x.moved = [] ∧ x.reg 4 = 1 ∧ x.gaddr % 65536 + x.reg 3 ≤ 65536 ∧ x.gaddr < 2 ^ 56
      ∧ ∃ T, (s.access (s.ctxNo x.wid) x.gaddr s.free ⟨false, false, some (blkOf x.wid)⟩).toOption = some T ∧ linkDown s T.key = false
        ∧ (∀ y ∈ sectors T.key (x.reg 3), (settle (s.used (s.ctxNo x.wid) x.gaddr T) x.wid T.key (x.reg 3)).mem.unknown
              (s.keyId (s.ctxNo x.wid)) y = false
            ∧ (settle (s.used (s.ctxNo x.wid) x.gaddr T) x.wid T.key (x.reg 3)).mem.pois.contains y = false)
        ∧ (∃ b, s.block (blkOf x.wid) = some b ∧ b.plines = [] ∧ b.ppois = [])
        ∧ scrAddr s (blkOf x.wid) (x.reg 2 % 2 ^ 32) (x.reg 3) = some (some 0, 64) :=
  ⟨by decide +kernel, by decide +kernel, by decide +kernel, by decide +kernel, by decide +kernel,
    there (by decide +kernel) ⟨by decide +kernel, by decide +kernel, there (by decide +kernel) (by decide +kernel), by decide +kernel⟩⟩

/-- A bank number in s4; all banks but `n` of the core's cache banks in FIFO mode. -/
def bankNo (n : Nat) (s : State) : State := onWarp (put [] [(4, n)] []) s

/-- Core 0 changed. -/
def onCore (f : Core → Core) (s : State) : State := s.modCore 0 f

/-- BanksAndFifos: `bankcfg` of bank 64; of bank 63 (FIFO at reset) to its own mode, and to another while it is empty and while it
holds a word; of a cache bank while four and five are left; of a scratchpad bank with and without a granule. -/
theorem wit_banks :
    let cfg := fun (mode : BankMode) (n : Nat) (f : Core → Core) (P : Iss → State → BankMode → Prop) =>
      Wit (.bankcfg (al .b32 (.s 3) (.s 4) N N) mode) (fun s => onCore f (bankNo n s)) fun it s0 => it.act ≠ 0
        ∧ num it .b32 it.o.a 0 = n ∧ P it s0 (((s0.core it.core).modes[n]?).getD .cache)
    let inUse := fun (it : Iss) (s0 : State) n => sget [] (s0.core it.core).fifos n ≠ [] ∨ traceBank (s0.cfg it.ctx) n = true
      ∨ proxyBank s0 it.core n = true
    let caches := fun (n : Nat) (k : Core) => { k with modes := List.replicate n .cache ++ List.replicate (64 - n) .fifo }
    let grans := fun (l : Sparse (Nat × Nat)) (k : Core) => { k with modes := List.replicate 64 .scratch, granMap := l }
    cfg .fifo 64 id (fun _ _ _ => True) ∧ cfg .fifo 63 id (fun _ _ m => m = .fifo)
      ∧ cfg .cache 63 id (fun it s0 m => m = .fifo ∧ ¬ inUse it s0 63)
      ∧ cfg .cache 63 (fun k => { k with fifos := [(63, [⟨1, false⟩])] }) (fun it s0 m => m = .fifo ∧ inUse it s0 63)
      ∧ cfg .scratch 0 (caches 4) (fun it s0 m => m = .cache ∧ banksIn s0 it.core .cache ≤ 4)
      ∧ cfg .fifo 0 (caches 5) (fun it s0 m => m = .cache ∧ 4 < banksIn s0 it.core .cache)
      ∧ cfg .cache 1 (grans [(31, (0, 0))]) (fun it s0 m => m = .scratch ∧ bankHeld s0 it.core 1 = true)
      ∧ cfg .cache 2 (grans [(31, (0, 0))]) (fun it s0 m => m = .scratch ∧ bankHeld s0 it.core 2 = false) := by
  and_intros <;> exact .of (by decide +kernel) (by decide +kernel)

/-- BanksAndFifos: `fpush` with room for 32 words and without; `fpop` of enough words and of too few; a cache bank; a poisoned bank number. -/
theorem wit_fifos :
    let push : Instr := .fpush (al .b32 N (.v 2) (.s 4) (.q 1))
    let pop : Instr := .fpop (al .b32 (.v 4) N (.s 4) (.q 2))
    let holds := fun (n : Nat) (s : State) => onCore (fun k => { k with fifos := [(62, List.replicate n ⟨7, false⟩)] }) (bankNo 62 s)
    let ok := fun (it : Iss) => it.act ≠ 0 ∧ (it.src .b32 it.o.b 0).pois = false
    let len := fun (it : Iss) (s0 : State) => (sget [] (s0.core it.core).fifos 62).length
    Wit push (bankNo 62) (fun it s0 => ok it ∧ fifoBank it s0 = some 62)
      ∧ Wit pop (holds 32) (fun it s0 => ok it ∧ fifoBank it s0 = some 62 ∧ it.lanes.length ≤ len it s0)
      ∧ Wit pop (holds 31) (fun it s0 => ok it ∧ fifoBank it s0 = some 62 ∧ len it s0 < it.lanes.length)
      ∧ Wit push (bankNo 61) (fun it s0 => ok it
          ∧ ((s0.core it.core).modes[num it .b32 it.o.b 0 % 64]?).getD .cache ≠ .fifo)
      ∧ Wit pop (bankNo 61) (fun it s0 => ok it
          ∧ ((s0.core it.core).modes[num it .b32 it.o.b 0 % 64]?).getD .cache ≠ .fifo)
      ∧ Wit push (onWarp fun w => w.sput 4 ⟨62, true⟩) (fun it _ => it.act ≠ 0 ∧ (it.src .b32 it.o.b 0).pois = true) := by
  and_intros <;> exact .of (by decide +kernel) (by decide +kernel)

/-- Vitrine `i` of the context: the pages at 0x20000 and 0x30000. -/
def vitrine (i : Nat) (opened : Bool) (writer : Option Nat) (s : State) : State :=
  onWarp (put [] [(4, i)] []) (s.modCtx 0 fun x => { x with vits := [(i,
    ⟨leBytes 8 0x20000 ++ leBytes 8 0x30000 ++ leBytes 4 65536 ++ List.replicate 44 0, false, opened, writer, 0, false⟩)] })

/-- VitrineWords: each word at an entry that is not there (256, and one unused), closed, open for this block, and open for another. -/
theorem wit_vitrine_words :
    let opn := fun (x : Bool) => Instr.vtopen (al .b32 (.s 3) (.s 4) N N) x
    let pub : Instr := .publish (al .b32 (.s 3) (.s 4) N N)
    let drp : Instr := .vtdrop (al .b32 N (.s 4) N N)
    let has := fun (i : Instr) (f : State → State) (P : Iss → State → Vitrine → Prop) => Wit i f fun it s0 => it.act ≠ 0
      ∧ num it .b32 it.o.a 0 ≤ 255 ∧ (s0.vitrine it.ctx (num it .b32 it.o.a 0)).bytes ≠ 0
      ∧ P it s0 (s0.vitrine it.ctx (num it .b32 it.o.a 0))
    Wit (opn false) (vitrine 256 false none) (fun it _ => it.act ≠ 0 ∧ 255 < num it .b32 it.o.a 0)
      ∧ Wit (opn true) id (fun it s0 => it.act ≠ 0 ∧ num it .b32 it.o.a 0 ≤ 255 ∧ (s0.vitrine it.ctx (num it .b32 it.o.a 0)).bytes = 0)
      ∧ has (opn false) (vitrine 255 true (some 7)) (fun _ _ v => v.opened = true)
      ∧ has (opn false) (vitrine 255 false none) (fun _ _ v => v.opened = false)
      ∧ has (opn true) (fun s => poke 0x16018 8 (2 ^ 48 + 0x3020F) (vitrine 255 false none s)) (fun it s0 v => v.opened = false ∧ copyOpenFault s0 it.ctx v = none)
      ∧ has pub (vitrine 255 false none) (fun _ _ v => v.opened = false)
      ∧ has pub (vitrine 255 true (some 0)) (fun it s0 v => v.opened = true ∧ v.writer = some it.blk ∧ copiesUnder s0 it.blk = false)
      ∧ has pub (fun s => onCore (fun k => { k with copies := [{ tile 0x21000 none none with op := 1 }] }) (vitrine 255 true (some 0) s))
          (fun it s0 v => v.opened = true ∧ v.writer = some it.blk ∧ copiesUnder s0 it.blk = true)
      ∧ has drp (vitrine 255 false none) (fun _ _ v => v.opened = false)
      ∧ has drp (vitrine 255 true (some 7)) (fun it _ v => v.opened = true ∧ v.writer ≠ some it.blk)
      ∧ has drp (vitrine 255 true (some 0)) (fun it _ v => v.opened = true ∧ v.writer = some it.blk) := by
  and_intros <;> exact .of (by decide +kernel) (by decide +kernel)

/-- A warp that waits at a vitrine word. -/
def vitWaits (x : Wait) : State := calm fun s => onWarp (fun w => { w with wait := some x }) (vitrine 5 true (some 0) s)

/-- VitrineWords, the events: a warp at `vtopen.copy` (whose shadow has lost its page) and one at `publish`, each with its D. -/
theorem wit_vitrine_events :
    let wo : Wait := .vtopen 5 (.s 3)
    let wp : Wait := .publish 5 (.s 3) (some 1)
    let s := vitWaits wo
    let v := s.vitrine 0 5
    (∃ e, waitingWarp s 0 (fun x => match x with | .vtopen j _ => j == 5 | _ => false) = some e
        ∧ (s.warp e.1).isSome = true ∧ (s.warp e.1).bind Warp.wait = some wo)
      ∧ overQuota s ((List.range (v.bytes / 65536)).foldl
          (fun s k => copyVitPage s 0 0 (v.base + 65536 * k) (v.alt + 65536 * k)) (drainBlock s 0)) 0 = false
      ∧ ∃ e, waitingWarp (vitWaits wp) 0 (fun x => match x with | .publish j _ q => j == 5 && q.isSome | _ => false) = some e
        ∧ ((vitWaits wp).warp e.1).bind Warp.wait = some wp := by
  and_intros <;> decide +kernel

/-- The placed block's accumulator rows, dynamic granules and scratchpad. -/
def grans (l : List Nat) (dyn : Nat) (s : State) : State :=
  onBlock (fun b => { b with mat := { b.mat with grans := l, dyn := dyn } }) (scratch s)

/-- `%fmt` of the running path. -/
def fmt (x : Nat) (s : State) : State := onWarp (fun w => { w with run := { w.run with fmt := BitVec.ofNat 32 x } }) s

/-- MatrixWords: loads; an `mma` of the last row, of one past it, of a pairing that is refused, and one that needs scales. -/
theorem wit_matrix_words :
    let mma := fun (b : Opd) => Instr.mma (al .b32 (.s 20) (.v 0) b (.s 12)) 31 0 5
    let rows := fun (r0 : Nat) (s : State) => onWarp (put [] [(12, r0), (20, 64)] []) (grans [3] 0 s)
    let ok := fun (it : Iss) => it.act ≠ 0 ∧ (it.src .n32 it.o.d 0).pois = false ∧ (it.src .n32 it.o.c 0).pois = false
    Wit (.mldb (al .b32 N (.v 32) N N) 2 1 true) id (fun it _ => it.act ≠ 0)
      ∧ Wit (.mlds (al .b32 N (.v 112) N N) 1 false) id (fun it _ => it.act ≠ 0)
      ∧ Wit (mma .zero) (fun s => rows 32 (fmt 0x22 s)) (fun it s0 => ok it ∧ pairingOk it.w.run.fmt = true ∧ usesA it.w.run.fmt = false
          ∧ 0 < accRows s0 it.blk ∧ num it .n32 it.o.c 0 + 32 = accRows s0 it.blk ∧ num it .n32 it.o.d 0 % 64 = 0)
      ∧ Wit (mma .zero) (fun s => rows 33 (fmt 0x22 s)) (fun it s0 => ok it ∧ pairingOk it.w.run.fmt = true
          ∧ accRows s0 it.blk < num it .n32 it.o.c 0 + 32)
      ∧ Wit (mma .zero) (fun s => rows 0 (fmt 0x02 s)) (fun it _ => ok it ∧ (pairingOk it.w.run.fmt = false
          ∨ (usesA it.w.run.fmt = true ∧ it.o.b = .zero)))
      ∧ Wit (mma .zero) (fun s => rows 0 (fmt 0x4022 s)) (fun it _ => ok it ∧ usesA it.w.run.fmt = true ∧ it.o.b = .zero) := by
  and_intros <;> exact .of (by decide +kernel) (by decide +kernel)

/-- MatrixWords: `mzero` of no row and of the last; `epcfg` and `actld` at a multiple of 64 and beside one; drains of rows in the
allocation, to registers and to scratchpad, in step and out of it, with an activation that needs OUT_FMT and without. -/
theorem wit_drain_words :
    let rows := fun (ss : List (Nat × Nat)) (s : State) => onWarp (put [] ss []) (grans [3] 0 s)
    let zero : Instr := .mzero (al .b32 N N (.s 4) (.s 5))
    let dr : Instr := .mdrain (al .b32 (.v 8) (.s 4) N .zero) true false true 0 0
    let drs : Instr := .mdrains (al .b32 (.s 1) (.s 2) (.s 3) (.s 4)) false false false 1 48
    let clean := fun (it : Iss) => it.act ≠ 0 ∧ ∀ x ∈ [it.o.d, it.o.a, it.o.b, it.o.c], (it.src .n32 x 0).pois = false
    Wit zero (rows [(5, 64)]) (fun it s0 => clean it ∧ num it .n32 it.o.b 0 = 0 ∧ num it .n32 it.o.c 0 = accRows s0 it.blk)
      ∧ Wit zero (rows [(4, 1), (5, 63)]) (fun it s0 => clean it ∧ num it .n32 it.o.b 0 ≠ 0 ∧ 0 < accRows s0 it.blk
          ∧ num it .n32 it.o.c 0 + num it .n32 it.o.b 0 = accRows s0 it.blk)
      ∧ Wit (.epcfg (al .b32 N (.s 4) N N)) (rows [(4, 2944)]) (fun it s0 => clean it ∧ ownsEngine s0 it.blk = true
          ∧ num it .n32 it.o.a 0 % 64 = 0 ∧ num it .n32 it.o.a 0 < 2 ^ 31 ∧ scrAddr s0 it.blk (num it .n32 it.o.a 0) 1088 ≠ none)
      ∧ Wit (.actld (al .b32 N (.s 4) N N)) (rows [(4, 2044)]) (fun it s0 => clean it ∧ ownsEngine s0 it.blk = true
          ∧ num it .n32 it.o.a 0 % 64 ≠ 0 ∧ num it .n32 it.o.a 0 < 2 ^ 31 ∧ scrAddr s0 it.blk (num it .n32 it.o.a 0) 2048 ≠ none)
      ∧ Wit dr (rows [(4, 63)]) (fun it s0 => clean it ∧ 0 < accRows s0 it.blk ∧ num it .n32 it.o.a 0 + 1 = accRows s0 it.blk
          ∧ 8 + (if (matOf s0 it.blk).outFmt = 3 then 4 else 2) ≤ it.w.budget)
      ∧ Wit (.mdrain (al .b32 (.v 8) (.s 4) N .zero) false true false 0 0)
          (rows [(4, 63)]) (fun it s0 => clean it ∧ (matOf s0 it.blk).loHiBad = true)
      ∧ Wit (.mdrain (al .b32 (.v 8) (.s 4) N .zero) false true false 0 0) (fun s => rows [(4, 63)]
          (onBlock (fun b => { b with mat := { b.mat with epCfg := [(0x0E, 0x80), (0x0F, 0x3F)] } }) s)) (fun it s0 => clean it
          ∧ (matOf s0 it.blk).loHiBad = false ∧ num it .n32 it.o.a 0 + 1 = accRows s0 it.blk ∧ 8 + 8 ≤ it.w.budget)
      ∧ Wit drs (rows [(1, 16), (2, 62), (3, 1024)]) (fun it s0 => clean it ∧ num it .n32 it.o.a 0 + 2 = accRows s0 it.blk
          ∧ num it .n32 it.o.d 0 % 16 = 0 ∧ num it .n32 it.o.b 0 = 1024
          ∧ scrAddr s0 it.blk (num it .n32 it.o.d 0) (1024 + 1024) ≠ none)
      ∧ Wit drs (rows [(1, 8), (2, 62), (3, 1024)]) (fun it s0 => clean it ∧ num it .n32 it.o.a 0 + 2 = accRows s0 it.blk
          ∧ num it .n32 it.o.d 0 % 16 ≠ 0) := by
  and_intros <;> exact .of (by decide +kernel) (by decide +kernel)

/-- The placed block holds granules `l`, its pair clears `cl`, and the core's warp asks for `n` in s4. -/
def granules (l : List Nat) (dyn n : Nat) (cl : List Nat) (s : State) : State :=
  onWarp (put [] [(4, n)] []) ((grans l dyn s).modPair 0 fun p => { p with clearing := cl })

/-- AccumulatorGranules: requests of 0, 256 and 257; one with too few free granules, that waits or not, with dynamic granules held
and not; `acfree` of more than there are; granules that are cleared. -/
theorem wit_granules :
    let ac := fun (wait : Bool) (f : State → State) (P : Iss → State → Nat → Prop) => Wit (.acalloc (al .b32 (.s 3) (.s 4) N N) wait) f
      fun it s0 => it.act ≠ 0 ∧ (it.src .n32 it.o.a 0).pois = false ∧ P it s0 (num it .n32 it.o.a 0)
    let now := fun (it : Iss) (s0 : State) (g : Nat) => g ≤ (freeGranules s0 (leaderOf it.core)).length
      ∧ accWaiters s0 (leaderOf it.core) = []
    let in_ := fun (it : Iss) (s0 : State) (g : Nat) => 0 < g ∧ g ≤ 256 - accReserved s0 it.blk
    ac false id (fun _ _ g => g = 0) ∧ ac true (granules [] 0 257 []) (fun it s0 g => 256 - accReserved s0 it.blk < g)
      ∧ ac true (granules [] 0 256 []) (fun it s0 g => in_ it s0 g ∧ now it s0 g ∧ (s0.block it.blk).isSome = true)
      ∧ ac false (granules [] 0 256 [9]) (fun it s0 g => in_ it s0 g ∧ ¬ now it s0 g)
      ∧ ac true (granules [9] 1 256 []) (fun it s0 g => in_ it s0 g ∧ ¬ now it s0 g ∧ (matOf s0 it.blk).dyn ≠ 0)
      ∧ ac true (granules [] 0 256 [9]) (fun it s0 g => in_ it s0 g ∧ ¬ now it s0 g ∧ (matOf s0 it.blk).dyn = 0)
      ∧ Wit (.acfree (al .b32 (.s 3) (.s 4) N N)) (granules [9, 8] 1 5 []) (fun it s0 => it.act ≠ 0 ∧ (it.src .n32 it.o.a 0).pois = false
          ∧ (s0.block it.blk).isSome = true ∧ (matOf s0 it.blk).dyn < num it .n32 it.o.a 0)
      ∧ ((granules [] 0 0 [9] (calm id)).pair 0).clearing = [9] ∧ granulesNamed (granules [] 0 0 [9] (calm id)) 0 [9] = false := by
  and_intros <;> first | decide +kernel | exact .of (by decide +kernel) (by decide +kernel)

/-- A matrix command of warp 0 of the placed block, its rows and its address. -/
def command9 (i : Instr) (started : Option Nat) (addr : Nat) : MatCmd :=
  ⟨1, 0, i, 0x22, [192], List.replicate 2048 ⟨0, false⟩, [], none, addr, 0, started, [], []⟩

/-- Pair 0 with commands in its queues. -/
def engine (mq eq : List MatCmd) (f : State → State) : State :=
  calm fun s => (f (grans [3] 0 s)).modPair 0 fun p => { p with mq := mq, eq := eq }

/-- MatrixEngine: commands that may start; a matrix command that completes, and that of each kind; an `mdrain` of two registers;
an `epcfg` and an `actld` of scratchpad with clean bytes. -/
theorem wit_matrix_engine :
    let ld := Instr.mldb (al .b32 N (.v 32) N N) 2 1 true
    let mma := Instr.mma (al .b32 .zero (.v 0) .zero (.s 12)) 0 0 5
    let zero := Instr.mzero (al .b32 N N (.s 4) (.s 5))
    let dr := Instr.mdrain (al .b32 (.v 8) .zero N .zero) false false true 0 0
    let ep := Instr.epcfg (al .b32 N (.s 4) N N)
    let act := Instr.actld (al .b32 N .k N N)
    let cfg := onBlock fun b => { b with scr := [(0x0E, 0x80), (0x0F, 0x3F)] }
    let starts := engine [command9 ld none 0] [command9 ep none 0] id
    let done := engine [command9 mma (some 0) 0] [] id
    let row := onWarp fun w => { w with pend := [⟨some 3, .mat 1, [(8, 0, ⟨0, false⟩), (9, 0, ⟨0, false⟩)], [], [], 0, []⟩] }
    let drain := engine [command9 zero none 0] [command9 dr (some 0) 8] row
    let loads := fun (i : Instr) => ∃ p, scrAddr (engine [] [command9 i (some 0) 0] cfg) 0 0 2048 = some p
      ∧ (scrRead (engine [] [command9 i (some 0) 0] cfg) p 2048).2 = false
    (starts.pair 0).mq.find? (fun c => c.started.isNone) = some (command9 ld none 0) ∧ (starts.pair 0).engReset = none
      ∧ (starts.pair 0).eq.find? (fun c => c.started.isNone) = some (command9 ep none 0)
      ∧ ((starts.pair 0).eq.head?.map MatCmd.id = some 1)
      ∧ (done.pair 0).mq = [command9 mma (some 0) 0] ∧ (done.pair 0).engReset = none ∧ (done.block 0).isSome = true
      ∧ (done.warp 0).isSome = true ∧ (command9 mma none 0).rows.Nodup
      ∧ (drain.pair 0).eq = [command9 dr (some 0) 8] ∧ (command9 dr (some 0) 8).past = [] ∧ (∀ x ∈ (drain.pair 0).mq, x.started = none)
      ∧ (∃ w, drain.warp 0 = some w
          ∧ (∀ j, j < (((matOf drain 0).drainRow ⟨false, false, true⟩ (List.replicate 256 ⟨0, false⟩)).1).length / 32 →
              ∃ p ∈ w.pend, p.kind = .mat 1 ∧ ∃ e ∈ p.vw, e.1 = 8 + j)
          ∧ drainCells w (command9 dr (some 0) 8) 2 ≤ poolFree drain w.core)
      ∧ loads ep ∧ loads act
      ∧ ∃ p, scrAddr (engine [] [command9 ep (some 0) 0] cfg) 0 0 1088 = some p
          ∧ (scrRead (engine [] [command9 ep (some 0) 0] cfg) p 1088).2 = false
          ∧ badConfig (scrRead (engine [] [command9 ep (some 0) 0] cfg) p 1088).1 = false :=
  by and_intros <;> decide +kernel

/-! Witnesses of the synchronisation and launch statements. -/

/-- Barriers 0 to 15 in a phase with some arrivals; the block has `n` warps. -/
def barrier (n : Nat) (x : Barrier) (no cnt : Nat) (s : State) : State :=
  onWarp (put [] [(4, no), (5, cnt)] []) (onBlock (fun b => { b with nwarps := n, bars := [(15, x)] }) s)

/-- BlockAndGridBarriers: poison; barrier 16; a broken one; a count above the block's warps and one unlike the phase's; arrivals that
complete the phase and that do not; tokens of the current phase, of the one before and of half the range before. -/
theorem wit_block_barriers :
    let bar : Instr := .bar (al .b32 N (.s 4) (.s 5) N)
    let bara : Instr := .bara (al .b32 (.s 3) (.s 4) (.s 5) N)
    let barw : Instr := .barw (al .b32 N (.s 4) (.s 5) N)
    let fresh : Barrier := ⟨7, [], none, false⟩
    let ok := fun (it : Iss) (s0 : State) => it.act ≠ 0 ∧ (s0.block it.blk).isSome = true ∧ (it.src .b32 it.o.a 0).pois = false
      ∧ (it.src .b32 it.o.b 0).pois = false ∧ num it .b32 it.o.a 0 ≤ 15 ∧ (barrierOf s0 it.blk 15).broken = false
    let full := fun (it : Iss) (s0 : State) (n : Nat) => n ≤ (nins (warpNo it.wid) (barrierOf s0 it.blk 15).arrived).length
    let since := fun (it : Iss) (s0 : State) => ((barrierOf s0 it.blk 15).phase - BitVec.ofNat 32 (num it .b32 it.o.b 0)).toNat
    Wit bar (onWarp (foul 4)) (fun it s0 => it.act ≠ 0 ∧ (s0.block it.blk).isSome = true ∧ (it.src .b32 it.o.a 0).pois = true)
      ∧ Wit bara (barrier 2 fresh 16 1) (fun it _ => it.act ≠ 0 ∧ (it.src .b32 it.o.a 0).pois = false ∧ num it .b32 it.o.a 0 = 16)
      ∧ Wit barw (barrier 2 { fresh with broken := true } 15 1) (fun it s0 => num it .b32 it.o.a 0 = 15
          ∧ (barrierOf s0 it.blk 15).broken = true)
      ∧ Wit bar (barrier 2 fresh 15 3) (fun it s0 => ok it s0 ∧ num it .b32 it.o.b 0 = 3)
      ∧ Wit bara (barrier 2 ⟨7, [1], some 2, false⟩ 15 1) (fun it s0 => ok it s0 ∧ (barrierOf s0 it.blk 15).expect ≠ some (num it .b32 it.o.b 0))
      ∧ Wit bara (barrier 2 fresh 15 2) (fun it s0 => ok it s0 ∧ num it .b32 it.o.b 0 = 2)
      ∧ Wit bar (barrier 2 ⟨7, [1], some 2, false⟩ 15 2) (fun it s0 => ok it s0 ∧ full it s0 2)
      ∧ Wit bar (barrier 2 fresh 15 2) (fun it s0 => ok it s0 ∧ ¬ full it s0 2)
      ∧ Wit barw (barrier 2 fresh 15 6) (fun it s0 => ok it s0 ∧ since it s0 = 1)
      ∧ Wit barw (barrier 2 fresh 15 (2 ^ 32 + 7 - 2 ^ 31)) (fun it s0 => ok it s0 ∧ since it s0 = 2 ^ 31)
      ∧ Wit barw (barrier 2 fresh 15 7) (fun it s0 => ok it s0 ∧ since it s0 = 0) := by
  and_intros <;> exact .of (by decide +kernel) (by decide +kernel)

/-- A second block, whose one warp waits as said. -/
def other (x : Option Wait) (s : State) : State :=
  { s with warps := s.warps ++ s.warps.map fun e => (widOf 1 0, { e.2 with wait := x, loc := some (0, 1) }),
           blocks := s.blocks ++ s.blocks.map fun e => (1, { e.2 with idx := 1 }) }

/-- A cooperative grid. -/
def cooperative (s : State) : State := s.modGrid 0 1 fun g => { g with desc := { g.desc with flags := 1 } }

/-- BlockAndGridBarriers, `gbar`: a grid that is not cooperative; the last block to arrive; one before the last. -/
theorem wit_grid_barrier :
    let gb : Instr := .gbar (al .b32 N N N N)
    let P := fun (done : Bool) (it : Iss) (s0 : State) => it.act ≠ 0 ∧ ∃ b, s0.block it.blk = some b
      ∧ ∃ g0, s0.gridOfWarp it.wid = some g0 ∧ wfld g0.desc.flags 0 1 = 1 ∧ g0.gbarBroken = false
        ∧ ∃ g, (releaseAt s0 it.wid .dev).gridOfWarp it.wid = some g ∧ g.joining = [] ∧ g.last ≤ g.next
          ∧ (liveBlocks (releaseAt s0 it.wid .dev) b.ctx b.gid).all (fun e => blockArrived (releaseAt s0 it.wid .dev)
              { g with gbarArrived := nins it.wid g.gbarArrived } e.1) = done
    Wit gb id (fun it s0 => it.act ≠ 0 ∧ ∃ g0, s0.gridOfWarp it.wid = some g0 ∧ wfld g0.desc.flags 0 1 = 0)
      ∧ Wit gb cooperative (P true) ∧ Wit gb (fun s => other none (cooperative s)) (P false) := by
  refine ⟨.of (by decide +kernel) ⟨by decide +kernel, there (by decide +kernel) (by decide +kernel)⟩, ?_, ?_⟩ <;>
    exact .of (by decide +kernel) ⟨by decide +kernel, there (by decide +kernel) (there (by decide +kernel)
      ⟨by decide +kernel, by decide +kernel, there (by decide +kernel) (by decide +kernel)⟩)⟩

/-- What holds of a value that is there. -/
theorem all_of {P : Nat → Prop} [DecidablePred P] {o : Option Nat} (h : (o.all fun a => decide (P a)) = true) :
    ∀ a, o = some a → P a := fun a e => by subst e; simpa using h

/-- The uniform pair s4 names 0x21000, whose doubleword holds `x`; s6 holds `n`. -/
def control (x n : Nat) (s : State) : State := poke 0x21000 8 x (onWarp (put [] [(4, 0x21000), (5, 0), (6, n), (7, n)] []) s)

/-- The word's target. -/
def wordAt0 (s : State) (wr : Bool) : Tgt := tgt s ⟨wr, false, some 0⟩ 0x21000

/-- BarrierWordsAndRings, `arv` in memory: the last arrival of two, and one too many. -/
theorem wit_arv :
    let arv : Instr := .arv (al .b32 (.s 3) (.s 4) (.s 6) N) .dev false
    let P := fun (bad : Bool) (it : Iss) (s0 : State) => it.act ≠ 0 ∧ ControlReady it s0 8 true true devOnly (wordAt0 s0 true)
      ∧ (it.src .b32 it.o.b 0).pois = false
      ∧ (∃ b, Confirmed (ctrlBase it s0 8 (wordAt0 s0 true)) it.blk b)
      ∧ Known it (releaseAt (ctrlBase it s0 8 (wordAt0 s0 true)) it.wid .dev) 8 (wordAt0 s0 true)
      ∧ (arvBad ((ctrlBase it s0 8 (wordAt0 s0 true)).mem.num (wordAt0 s0 true).key 8) (num it .b32 it.o.b 0) ↔ bad = true)
    Wit arv (control 0x10002 1) (P false) ∧ Wit arv (control 0x10002 2) (P true) := by
  refine ⟨.of (by decide +kernel) ⟨by decide +kernel, ?_, by decide +kernel, ?_, by unfold Known; decide +kernel, by unfold arvBad; decide +kernel⟩,
    .of (by decide +kernel) ⟨by decide +kernel, ?_, by decide +kernel, ?_, by unfold Known; decide +kernel, by unfold arvBad; decide +kernel⟩⟩
  all_goals first
    | exact there (by decide +kernel) (by decide +kernel)
    | (constructor <;> first | exact all_of (by decide +kernel) | (unfold Known; decide +kernel) | decide +kernel)

/-- BarrierWordsAndRings, `await` in memory: the phase B waits for has not ended, and it has. -/
theorem wit_await :
    let aw : Instr := .await (al .b32 N (.s 4) (.s 6) N) .dev false
    let P := fun (ph : Nat) (it : Iss) (s0 : State) => it.act ≠ 0 ∧ ControlReady it s0 8 false true devOnly (wordAt0 s0 false)
      ∧ (it.src .b32 it.o.b 0).pois = false
      ∧ (∃ b, Confirmed (settle (ctrlBase it s0 8 (wordAt0 s0 false)) it.wid (wordAt0 s0 false).key 8) it.blk b)
      ∧ Known it (settle (ctrlBase it s0 8 (wordAt0 s0 false)) it.wid (wordAt0 s0 false).key 8) 8 (wordAt0 s0 false)
      ∧ (loadGlobal (settle (ctrlBase it s0 8 (wordAt0 s0 false)) it.wid (wordAt0 s0 false).key 8) it.blk (wordAt0 s0 false) 8).2 = false
      ∧ num it .b32 it.o.b 0 % 2 = ph
      ∧ (settle (ctrlBase it s0 8 (wordAt0 s0 false)) it.wid (wordAt0 s0 false).key 8).mem.num (wordAt0 s0 false).key 8 / 2 ^ 32 % 2 = 1
    Wit aw (control 0x100000002 0) (P 0) ∧ Wit aw (control 0x100000002 1) (P 1) := by
  refine ⟨.of (by decide +kernel) ⟨by decide +kernel, ?_, by decide +kernel, ?_, by unfold Known; decide +kernel, by decide +kernel⟩,
    .of (by decide +kernel) ⟨by decide +kernel, ?_, by decide +kernel, ?_, by unfold Known; decide +kernel, by decide +kernel⟩⟩
  all_goals first
    | exact there (by decide +kernel) (by decide +kernel)
    | (constructor <;> first | exact all_of (by decide +kernel) | (unfold Known; decide +kernel) | decide +kernel)

/-- The doubleword `x` in scratchpad at 64, whose address s4 holds; s6 holds `n`. -/
def scrWord (x n : Nat) (s : State) : State :=
  onWarp (put [] [(4, 64), (6, n)] [])
    (onBlock (fun b => { b with scr := (List.range 8).foldl (fun m i => aput (64 + i) (BitVec.ofNat 8 (x / 2 ^ (8 * i))) m) [] }) (scratch s))

/-- BarrierWordsAndRings, `arv` and `await` in scratchpad. -/
theorem wit_barrier_words_in_scratchpad :
    let arv : Instr := .arv (al .b32 (.s 3) (.s 4) (.s 6) N) .dev true
    let aw : Instr := .await (al .b32 N (.s 4) (.s 6) N) .blk true
    let p : Option Nat × Nat := (some 0, 64)
    let ok := fun (it : Iss) (s0 : State) => it.act ≠ 0 ∧ chkScratch it s0 8 (fun _ => it.src .b32 it.o.a 0) 0 = (0, num it .b32 it.o.a 0, .ok p)
      ∧ (it.src .b32 it.o.b 0).pois = false ∧ (scrRead (settleScr s0 it.wid p 8) p 8).2 = false
      ∧ (scrRead (settleScr (settleScr s0 it.wid p 8) it.wid p 8) p 8).2 = false
      ∧ ((settleScr s0 it.wid p 8).block 0).isSome = true
      ∧ watched (settleScr s0 it.wid p 8) it.ctx true true true (num it .b32 it.o.a 0) 8 = false
      ∧ watched (settleScr s0 it.wid p 8) it.ctx true true false (num it .b32 it.o.a 0) 8 = false
    let word := fun (it : Iss) (s0 : State) => scrNum (settleScr s0 it.wid p 8) p 8
    Wit arv (scrWord 0xFFFEFFFF 1) (fun it s0 => ok it s0 ∧ ¬ arvBad (word it s0) (num it .b32 it.o.b 0))
      ∧ Wit arv (scrWord 0x200000000 1) (fun it s0 => ok it s0 ∧ arvBad (word it s0) (num it .b32 it.o.b 0))
      ∧ Wit aw (scrWord 0xFFFEFFFF 0) (fun it s0 => ok it s0 ∧ word it s0 / 2 ^ 32 % 2 = num it .b32 it.o.b 0 % 2)
      ∧ Wit aw (scrWord 0xFFFEFFFF 1) (fun it s0 => ok it s0 ∧ word it s0 / 2 ^ 32 % 2 ≠ num it .b32 it.o.b 0 % 2) :=
  ⟨.of (by decide +kernel) (by unfold arvBad; decide +kernel), .of (by decide +kernel) (by unfold arvBad; decide +kernel),
    .of (by decide +kernel) (by decide +kernel), .of (by decide +kernel) (by decide +kernel)⟩

/-- BarrierWordsAndRings, rings: out of step; past the window; no slots; an arrival that ends the phase and one that does not; a
phase that has come and one that has not. -/
theorem wit_rings :
    let ra : Instr := .ringa (al .b32 N (.s 4) N N) 63
    let rw_ : Instr := .ringw (al .b32 N (.s 4) (.s 6) N) 63
    let ok := fun (it : Iss) => it.act ≠ 0 ∧ (it.src .b32 it.o.a 0).pois = false ∧ (it.src .b32 it.o.b 0).pois = false
    let good := fun (arrive : Bool) (it : Iss) (s0 : State) (P : Ring → Prop) => ok it ∧ num it .b32 it.o.a 0 % 2 ^ 32 % 64 = 0 ∧
      (∀ l ∈ it.lanes, ∀ e ∈ [(false, 0, 64), (arrive, 0x40 + 4 * 63, 4)],
        watched (settleRing it s0) it.ctx true true e.1 (((it.src .b32 it.o.a l).v + e.2.1) % 2 ^ 32) e.2.2 = false) ∧
      ∃ r, ringAt (settleRing it s0) it.blk (num it .b32 it.o.a 0 % 2 ^ 32) 63 = some r ∧ r.pois = false ∧ r.reserved = false
        ∧ 63 < r.nslots ∧ r.expect ≠ 0 ∧ r.loc.1 = some 0 ∧ P r
    Wit ra (onWarp (put [] [(4, 4)] [])) (fun it _ => ok it ∧ num it .b32 it.o.a 0 % 2 ^ 32 % 64 ≠ 0)
      ∧ Wit ra (fun s => onWarp (put [] [(4, 4096 - 256)] []) (scratch s)) (fun it s0 => ok it
          ∧ ringAt (settleRing it s0) it.blk (num it .b32 it.o.a 0 % 2 ^ 32) 63 = none)
      ∧ Wit rw_ (scrWord 0x0100 0) (fun it s0 => ok it ∧ ∃ r, ringAt (settleRing it s0) it.blk (num it .b32 it.o.a 0 % 2 ^ 32) 63 = some r ∧ r.pois = false
          ∧ r.nslots = 0)
      ∧ Wit ra (scrWord 0x0140 0) (fun it s0 => good true it s0 fun r => (r.phase / 2 % 256 + 1) % 256 = r.expect)
      ∧ Wit ra (scrWord 0xFF40 0) (fun it s0 => good true it s0 fun r => (r.phase / 2 % 256 + 1) % 256 ≠ r.expect)
      ∧ Wit rw_ (scrWord 0x0140 0) (fun it s0 => good false it s0 fun r => r.phase % 2 = num it .b32 it.o.b 0 % 2)
      ∧ Wit rw_ (scrWord 0x0140 1) (fun it s0 => good false it s0 fun r => r.phase % 2 ≠ num it .b32 it.o.b 0 % 2) :=
  ⟨.of (by decide +kernel) (by decide +kernel), .of (by decide +kernel) (by decide +kernel),
    .of (by decide +kernel) ⟨by decide +kernel, there (by decide +kernel) (by decide +kernel)⟩,
    .of (by decide +kernel) ⟨by decide +kernel, by decide +kernel, by decide +kernel, there (by decide +kernel) (by decide +kernel)⟩,
    .of (by decide +kernel) ⟨by decide +kernel, by decide +kernel, by decide +kernel, there (by decide +kernel) (by decide +kernel)⟩,
    .of (by decide +kernel) ⟨by decide +kernel, by decide +kernel, by decide +kernel, there (by decide +kernel) (by decide +kernel)⟩,
    .of (by decide +kernel) ⟨by decide +kernel, by decide +kernel, by decide +kernel, there (by decide +kernel) (by decide +kernel)⟩⟩

/-- The block holds the locks. -/
def holds (l : List Nat) (s : State) : State := onBlock (fun b => { b with locks := l }) s

/-- LocksAndWaits, `lkacq`: a free lock with 15 held, one held here, one held elsewhere, the 17th. -/
theorem wit_lkacq :
    let acq : Instr := .lkacq (al .b32 (.s 3) (.s 4) N N) true
    let P := fun (Q : State → Tgt → Block → Prop) (it : Iss) (s0 : State) => it.act ≠ 0
      ∧ ControlReady it s0 8 true true devOnly (wordAt0 s0 true)
      ∧ ∃ b, Confirmed (ctrlBase it s0 8 (wordAt0 s0 true)) it.blk b ∧ Q (ctrlBase it s0 8 (wordAt0 s0 true)) (wordAt0 s0 true) b
    Wit acq (fun s => holds (List.range 15) (control 0 0 s)) (P fun s1 g b => g.key ∉ b.locks ∧ b.locks.length < 16
        ∧ ¬ ∃ e ∈ s1.blocks, e.1 ≠ 0 ∧ g.key ∈ e.2.locks)
      ∧ Wit acq (fun s => holds [0x21000] (control 1 0 s)) (P fun _ g b => g.key ∈ b.locks)
      ∧ Wit acq (fun s => holds [] (other none (holds [0x21000] (control 9 0 s)))) (P fun s1 g b => g.key ∉ b.locks ∧ b.locks.length < 16
        ∧ ∃ e ∈ s1.blocks, e.1 ≠ 0 ∧ g.key ∈ e.2.locks)
      ∧ Wit acq (fun s => holds (List.range 16) (control 0 0 s)) (P fun _ g b => g.key ∉ b.locks ∧ 16 ≤ b.locks.length) := by
  refine ⟨.of (by decide +kernel) ⟨by decide +kernel, ?_, ?_⟩, .of (by decide +kernel) ⟨by decide +kernel, ?_, ?_⟩,
    .of (by decide +kernel) ⟨by decide +kernel, ?_, ?_⟩, .of (by decide +kernel) ⟨by decide +kernel, ?_, ?_⟩⟩
  all_goals first
    | exact ⟨_, ⟨(Option.some_get (by decide +kernel : Option.isSome _ = true)).symm, by decide +kernel⟩, by decide +kernel⟩
    | (constructor <;> first | exact all_of (by decide +kernel) | (unfold Known; decide +kernel) | decide +kernel)

/-- LocksAndWaits, `lkrel`: a lock that is not held, one that nobody waits for, and one that another block waits for. -/
theorem wit_lkrel :
    let rel : Instr := .lkrel (al .b32 (.s 3) (.s 4) N N)
    let waits : Option Wait := some (.lkacq 0x21000 0x21000 (.s 3) 5)
    let P := fun (Q : State → Tgt → Block → Prop) (it : Iss) (s0 : State) => it.act ≠ 0
      ∧ ControlReady it s0 8 true true devOnly (wordAt0 s0 true) ∧ Known it (releaseAt (ctrlBase it s0 8 (wordAt0 s0 true)) it.wid .dev) 8
          (wordAt0 s0 true)
      ∧ ∃ b, Confirmed (releaseAt (ctrlBase it s0 8 (wordAt0 s0 true)) it.wid .dev) it.blk b
        ∧ Q (releaseAt (ctrlBase it s0 8 (wordAt0 s0 true)) it.wid .dev) (wordAt0 s0 true) b
    Wit rel (control 0 0) (P fun _ g b => g.key ∉ b.locks)
      ∧ Wit rel (fun s => holds [0x21000] (control 1 0 s)) (P fun s2 g b => g.key ∈ b.locks ∧ lockWaiters s2 g.key = [])
      ∧ Wit rel (fun s => holds [0x21000] (other waits (control 5 0 s))) (P fun s2 g b => g.key ∈ b.locks
          ∧ earliest ((lockWaiters s2 g.key).filter fun e => e.2.2 && lockRoom (s2.modBlock 0 fun b => { b with locks := b.locks.filter (· != g.key) }) (blkOf e.1)) = some (widOf 1 0, 5, true) ∧ (s2.block 1).isSome = true) := by
  refine ⟨.of (by decide +kernel) ⟨by decide +kernel, ?_, by unfold Known; decide +kernel, ?_⟩,
    .of (by decide +kernel) ⟨by decide +kernel, ?_, by unfold Known; decide +kernel, ?_⟩,
    .of (by decide +kernel) ⟨by decide +kernel, ?_, by unfold Known; decide +kernel, ?_⟩⟩
  all_goals first
    | exact ⟨_, ⟨(Option.some_get (by decide +kernel : Option.isSome _ = true)).symm, by decide +kernel⟩, by decide +kernel⟩
    | (constructor <;> first | exact all_of (by decide +kernel) | (unfold Known; decide +kernel) | decide +kernel)

/-- LocksAndWaits: `waitv` of a word that differs and of one that equals; `wake` of one waiter. -/
theorem wit_waits :
    let wv : Instr := .waitv (al .b32 (.s 3) (.s 4) (.s 6) N) .sys
    let wk : Instr := .wake (al .b32 (.s 3) (.s 4) (.s 6) .m1) .dev
    let waits : Option Wait := some (.waitv 0x21000 0x21000 9 (.s 3) false 5 .sys)
    let P := fun (eq : Bool) (it : Iss) (s0 : State) => it.act ≠ 0 ∧ ControlReady it s0 4 false true devHost (wordAt0 s0 false)
      ∧ (it.src .b32 it.o.b 0).pois = false ∧ (∃ b, Confirmed (ctrlBase it s0 4 (wordAt0 s0 false)) it.blk b)
      ∧ decide ((ctrlBase it s0 4 (wordAt0 s0 false)).mem.num (wordAt0 s0 false).key 4 = num it .b32 it.o.b 0 % 2 ^ 32) = eq
    Wit wv (control 0xFFFFFFFF 9) (P false) ∧ Wit wv (control 9 9) (P true)
      ∧ Wit wk (fun s => other waits (control 9 8 s)) (fun it s0 => it.act ≠ 0 ∧ ControlReady it s0 4 true false devHost (wordAt0 s0 true)
          ∧ (it.src .b32 it.o.b 0).pois = false ∧ (it.src .b32 it.o.c 0).pois = false
          ∧ (∃ b, Confirmed (releaseAt (ctrlBase it s0 4 (wordAt0 s0 true)) it.wid .dev) it.blk b)
          ∧ Known it (releaseAt (ctrlBase it s0 4 (wordAt0 s0 true)) it.wid .dev) 4 (wordAt0 s0 true)
          ∧ waitvOn (ctrlBase it s0 4 (wordAt0 s0 true)) (wordAt0 s0 true).key = [(widOf 1 0, 5, true)]) := by
  refine ⟨.of (by decide +kernel) ⟨by decide +kernel, ?_, by decide +kernel, ?_, by decide +kernel⟩,
    .of (by decide +kernel) ⟨by decide +kernel, ?_, by decide +kernel, ?_, by decide +kernel⟩,
    .of (by decide +kernel) ⟨by decide +kernel, ?_, by decide +kernel, by decide +kernel, ?_, by unfold Known; decide +kernel, by decide +kernel⟩⟩
  all_goals first
    | exact there (by decide +kernel) (by decide +kernel)
    | (constructor <;> first | exact all_of (by decide +kernel) | (unfold Known; decide +kernel) | decide +kernel)

/-- Queue 5 of the context, of the kind, two slots long, with HEAD 0 and TAIL as said; its block at 0x22000, its slots at 0x23000; s4
names it, and s16 to s31 hold the entry. -/
def queue (kind tail : Nat) (entry : List Nat) (s : State) : State :=
  let words := [(0x22000, 8, tail), (0x22048, 8, 0x23000), (0x22050, 1, 1), (0x22052, 1, kind)]
  let s1 := words.foldl (fun s x => poke x.1 x.2.1 x.2.2 s) s
  onWarp (put [] ((4, 5) :: ((List.range 16).zip entry).map fun e => (16 + e.1, e.2)) [])
    (s1.modCtx 0 fun c => { c with queues := aput 5 ⟨0x22000, 0, [], none, [], [], [], 0⟩ c.queues })

/-- A TASK entry. -/
def entry6 : List Nat := 6 :: List.replicate 15 0

/-- LaunchAndQueues, `qpush`: no queue; an entry that the queue's kind refuses; a full queue; one with a slot left. -/
theorem wit_qpush :
    let push := fun (wait : Bool) => Instr.qpush (al .b32 (.s 3) (.s 16) (.s 4) N) wait
    let ok := fun (it : Iss) => it.act ≠ 0 ∧ (∀ x ∈ it.uniRange it.o.a 16, x.pois = false) ∧ (it.src .n32 it.o.b 0).pois = false
    let bytes := fun (it : Iss) => (it.uniRange it.o.a 16).flatMap fun x => leBytes 4 x.val.toNat
    let ready := fun (it : Iss) (s0 : State) => pushReady s0 it.wid it.ctx (num it .n32 it.o.b 0) (bytes it)
    let q := fun (it : Iss) (s0 : State) (P : Queue → Qcb → Prop) => ok it ∧ ∃ t, queueOpd it (ready it s0) it.o.b [1, 2, 3] = some t
      ∧ P t.2.1 t.2.2
    Wit (push true) id (fun it s0 => ok it ∧ queueOpd it (ready it s0) it.o.b [1, 2, 3] = none)
      ∧ Wit (push true) (queue 1 1 (1 :: List.replicate 15 0)) (fun it s0 => q it s0 fun _ c => pushRefused c (bytes it) = true)
      ∧ Wit (push false) (queue 2 2 entry6) (fun it s0 => q it s0 fun _ c => pushRefused c (bytes it) = false ∧ c.head + 2 ^ c.log2 ≤ c.tail)
      ∧ Wit (push true) (queue 2 1 entry6) (fun it s0 => q it s0 fun x c => pushRefused c (bytes it) = false ∧ c.tail < c.head + 2 ^ c.log2
          ∧ c.kind ≠ 3 ∧ ∃ s1, (pushBase it (ready it s0) x (bytes it)).devWrite it.ctx (c.base + 64 * (c.tail % 2 ^ c.log2)) (bytes it) = some s1
            ∧ (s1.devWrite it.ctx x.qcb.toNat (leBytes 8 (c.tail + 1))).isSome = true) :=
  ⟨.of (by decide +kernel) (by decide +kernel), .of (by decide +kernel) ⟨by decide +kernel, there (by decide +kernel) (by decide +kernel)⟩,
    .of (by decide +kernel) ⟨by decide +kernel, there (by decide +kernel) (by decide +kernel)⟩,
    .of (by decide +kernel) ⟨by decide +kernel, there (by decide +kernel) ⟨by decide +kernel, by decide +kernel, by decide +kernel,
      there (by decide +kernel) (by decide +kernel)⟩⟩⟩

/-- LaunchAndQueues, `launch` with two 8 B parameters: no queue; the greatest depth and one less, with the queue full and with a slot. -/
theorem wit_launch :
    let la := fun (wait : Bool) => Instr.launch (al .b32 (.s 3) (.s 20) (.s 16) (.s 4)) 2 wait false true
    let ok := fun (it : Iss) => it.act ≠ 0 ∧ (it.src .b64 it.o.a 0).pois = false ∧ (∀ x ∈ it.uniRange it.o.b 4, x.pois = false)
      ∧ (it.src .n32 it.o.c 0).pois = false
    let bytes := fun (it : Iss) => launchBytes 2 2 (it.uniRange it.o.b 4) (it.src .b64 it.o.a 0).v
    let deep := fun (n : Nat) (s : State) => s.modGrid 0 1 fun g => { g with depth := n }
    let ready := fun (it : Iss) (s0 : State) => pushReady s0 it.wid it.ctx (num it .n32 it.o.c 0) (bytes it)
    let q := fun (it : Iss) (s0 : State) (P : Queue → Qcb → Grid → Prop) => ok it
      ∧ ∃ t, queueOpd it (ready it s0) it.o.c [1, 3] = some t ∧ ∃ g, (ready it s0).gridOfWarp it.wid = some g ∧ P t.2.1 t.2.2 g
    Wit (la true) id (fun it s0 => ok it ∧ queueOpd it (ready it s0) it.o.c [1, 3] = none)
      ∧ Wit (la true) (fun s => deep 10 (queue 1 0 entry6 s)) (fun it s0 => q it s0 fun _ _ g => 10 ≤ g.depth)
      ∧ Wit (la false) (fun s => deep 9 (queue 1 2 entry6 s)) (fun it s0 => q it s0 fun _ c g => g.depth < 10 ∧ c.head + 2 ^ c.log2 ≤ c.tail)
      ∧ Wit (la false) (fun s => deep 9 (queue 1 1 entry6 s)) (fun it s0 => q it s0 fun x c g => g.depth < 10
          ∧ c.tail < c.head + 2 ^ c.log2 ∧ c.kind = 1
          ∧ ∃ s1, (pushBase it (ready it s0) x (bytes it)).devWrite it.ctx (c.base + 64 * (c.tail % 2 ^ c.log2)) (bytes it) = some s1
            ∧ ∃ s2, s1.devWrite it.ctx x.qcb.toNat (leBytes 8 (c.tail + 1)) = some s2 ∧ (s2.block it.blk).isSome = true) :=
  ⟨.of (by decide +kernel) (by decide +kernel),
    .of (by decide +kernel) ⟨by decide +kernel, there (by decide +kernel) (there (by decide +kernel) (by decide +kernel))⟩,
    .of (by decide +kernel) ⟨by decide +kernel, there (by decide +kernel) (there (by decide +kernel) (by decide +kernel))⟩,
    .of (by decide +kernel) ⟨by decide +kernel, there (by decide +kernel) (there (by decide +kernel)
      ⟨by decide +kernel, by decide +kernel, by decide +kernel, there (by decide +kernel) (there (by decide +kernel) (by decide +kernel))⟩)⟩⟩

/-- LaunchAndQueues, `qpop`: no device queue; an empty one; one that is stopped; one with an entry, into the last registers that hold it. -/
theorem wit_qpop :
    let pop : Instr := .qpop (al .b32 (.s 80) N (.s 4) (.q 1)) false
    let q := fun (it : Iss) (s0 : State) (P : Queue → Qcb → Prop) => it.act ≠ 0 ∧ ∃ t, queueOpd it s0 it.o.b [2] = some t ∧ P t.2.1 t.2.2
    Wit pop (queue 1 1 entry6) (fun it s0 => it.act ≠ 0 ∧ (it.src .n32 it.o.b 0).pois = false ∧ it.o.d = .s 80 ∧ it.o.c = .q 1
        ∧ queueOpd it s0 it.o.b [2] = none)
      ∧ Wit pop (queue 2 0 entry6) (fun it s0 => q it s0 fun _ c => c.tail ≤ c.head)
      ∧ Wit pop (fun s => queue 2 1 entry6 (poke 0x22053 1 1 s)) (fun it s0 => q it s0 fun _ c => c.head < c.tail ∧ c.state ≠ 0)
      ∧ Wit pop (queue 2 1 entry6) (fun it s0 => q it s0 fun _ c => c.state = 0 ∧ workError s0 it.ctx c ≠ 0)
      ∧ Wit pop (fun s => queue 2 1 entry6 (poke 0x23000 1 6 s)) (fun it s0 => q it s0 fun x c => c.state = 0 ∧ workError s0 it.ctx c = 0 ∧ c.head < c.tail
          ∧ ∃ bs, s0.devRead it.ctx (c.base + 64 * (c.head % 2 ^ c.log2)) 64 = some bs ∧ bs.length = 64
            ∧ ((((s0.devTouch it.ctx x.qcb.toNat 128).devTouch it.ctx (c.base + 64 * (c.head % 2 ^ c.log2)) 64).devWrite it.ctx
              (x.qcb.toNat + 0x40) (leBytes 8 (c.head + 1))).isSome = true)) :=
  ⟨.of (by decide +kernel) (by decide +kernel), .of (by decide +kernel) ⟨by decide +kernel, there (by decide +kernel) (by decide +kernel)⟩,
    .of (by decide +kernel) ⟨by decide +kernel, there (by decide +kernel) (by decide +kernel)⟩,
    .of (by decide +kernel) ⟨by decide +kernel, there (by decide +kernel) (by decide +kernel)⟩,
    .of (by decide +kernel) ⟨by decide +kernel, there (by decide +kernel) ⟨by decide +kernel, by decide +kernel, by decide +kernel, there (by decide +kernel) (by decide +kernel)⟩⟩⟩

/-- LaunchAndQueues: `gwait` at a STATUS that has come far enough and at one below it, for either rank; `shape` of a word that no grid
is bound to; `provq` in its three modes. -/
theorem wit_gwait_shape_provq :
    let gw := fun (v : Bool) => Instr.gwait (al .b32 (.s 3) (.s 4) N N) v
    let base := fun (it : Iss) (s0 : State) => settle { ctrlBase it s0 32 (wordAt0 s0 false) with
      cmdNext := (ctrlBase it s0 32 (wordAt0 s0 false)).cmdNext + 1 } it.wid (wordAt0 s0 false).key 32
    let P := fun (lo hi : Nat) (it : Iss) (s0 : State) => it.act ≠ 0 ∧ ControlReady it s0 32 false true (fun _ => true) (wordAt0 s0 false)
      ∧ (∃ b, Confirmed (base it s0) it.blk b) ∧ Known it (base it s0) 32 (wordAt0 s0 false)
      ∧ (loadGlobal (base it s0) it.blk (wordAt0 s0 false) 32).2 = false
      ∧ vouchFirst (base it s0) it.ctx ((it.src .b64 it.o.a 0).v % 2 ^ 64) = false
      ∧ lo ≤ (base it s0).mem.num (wordAt0 s0 false).key 1 ∧ (base it s0).mem.num (wordAt0 s0 false).key 1 ≤ hi
    Wit (gw true) (control 3 0) (P 3 255) ∧ Wit (gw true) (control 2 0) (P 2 2) ∧ Wit (gw false) (control 1 0) (P 0 1)
      ∧ Wit (.shape (al .b32 .zero (.s 4) (.s 6) N)) (control 0 77) (fun it s0 => it.act ≠ 0
          ∧ ControlReady it s0 8 true true (fun _ => true) (wordAt0 s0 true) ∧ (it.src .b32 it.o.b 0).pois = false
          ∧ (∃ b, Confirmed (releaseAt (ctrlBase it s0 8 (wordAt0 s0 true)) it.wid .dev) it.blk b)
          ∧ Known it (releaseAt (ctrlBase it s0 8 (wordAt0 s0 true)) it.wid .dev) 8 (wordAt0 s0 true)
          ∧ ∀ e ∈ gridsOf (releaseAt (ctrlBase it s0 8 (wordAt0 s0 true)) it.wid .dev) it.ctx, e.2.bound = true →
              e.2.desc.shapeAddr.toNat ≠ (it.src .b64 it.o.a 0).v)
      ∧ ∀ m ∈ [ProvqMode.self, .pred, .upd], Wit (.provq (al .b32 (.s 3) (.s 4) (.s 6) N) m) id (fun it s0 => it.act ≠ 0
          ∧ (it.src .b32 it.o.a 0).pois = false ∧ (it.src .b32 it.o.b 0).pois = false ∧ (s0.block it.blk).isSome = true
          ∧ (s0.gridOfWarp it.wid).isSome = true) := by
  refine ⟨.of (by decide +kernel) ⟨by decide +kernel, ?_, ?_, by unfold Known; decide +kernel, by decide +kernel⟩,
    .of (by decide +kernel) ⟨by decide +kernel, ?_, ?_, by unfold Known; decide +kernel, by decide +kernel⟩,
    .of (by decide +kernel) ⟨by decide +kernel, ?_, ?_, by unfold Known; decide +kernel, by decide +kernel⟩,
    .of (by decide +kernel) ⟨by decide +kernel, ?_, by decide +kernel, ?_, by unfold Known; decide +kernel, by decide +kernel⟩, ?_⟩
  case refine_9 =>
    intro m hm
    simp only [List.mem_cons, List.not_mem_nil, or_false] at hm
    rcases hm with rfl | rfl | rfl <;> exact .of (by decide +kernel) (by decide +kernel)
  all_goals first
    | exact there (by decide +kernel) (by decide +kernel)
    | (constructor <;> first | exact all_of (by decide +kernel) | (unfold Known; decide +kernel) | decide +kernel)

/-! Witnesses of the statements about events. -/

/-- The placed warp is in slot 0 of core 0, and meets `P`. -/
def Has (s : State) (P : State → Warp → Prop) : Prop := ∃ w, Here s 0 0 0 w ∧ P s w

theorem Has.of {s : State} {P : State → Warp → Prop} (h : (s.warp 0).isSome = true) (ha : s.warpAt 0 0 = some 0)
    (hp : P s ((s.warp 0).get h)) : Has s P := ⟨_, ⟨ha, (Option.some_get h).symm⟩, hp⟩

/-- The device changed; its clock. -/
def onDev (f : Device → Device) (s : State) : State := { s with dev := f s.dev }
/-- See `onDev`. -/
def now (n : Nat) (s : State) : State := onDev (fun d => { d with now := n }) s
/-- The context changed. -/
def onCtx (f : Ctx → Ctx) (s : State) : State := s.modCtx 0 f
/-- The grid changed. -/
def onGrid (f : Grid → Grid) (s : State) : State := s.modGrid 0 1 f
/-- The warp's scheduling record changed. -/
def onSched (f : Sched → Sched) (s : State) : State := onWarp (fun w => { w with sched := f w.sched }) s
/-- The warp waits. -/
def waits (x : Wait) (s : State) : State := onWarp (fun w => { w with wait := some x }) s

/-- The 8th cycle, with a warp that has asked to be promoted in a grid that allows it. -/
def candidate : State := calm fun s => now 8 (onGrid (fun g => { g with desc := { g.desc with flags := 32 } })
  (onSched (fun x => { x with sprintReq := true }) s))

/-- Lane 0 runs, lane 1 waits; the time is 100,000. -/
def twoPaths (f : Sched → Sched) (resv : List (Nat × Nat)) (s : State) : State :=
  now 100000 (onSched f (onWarp (fun w =>
    let p := w.run
    { w with run := { p with mask := 1 }, waiting := [⟨{ p with mask := 2 }, none⟩], resv := resv }) s))

/-- WarpScheduling: a header; a warp mid-clause; one that has waited 512 cycles; the cycle 1 and the cycle 8 with a candidate; a
demotion; a fairness switch, with and without a reservation held. -/
theorem wit_scheduling_events :
    let ready := fun (s : State) (w : Warp) => cannotIssue w = false ∧ coreHeld s 0 = false ∧ deliver s 0 w = none
      ∧ stopDue s 0 0 w = none ∧ w.sched.engine = .herd ∧ w.sched.frontDue = false ∧ portsUsed s 0 0 = [] ∧ outranked s 0 0 w = false
    Has (calm (onWarp fun w => { w with run := { w.run with pc := 0x20000, widx := 0 } })) (fun s w => ready s w ∧ w.run.widx = 0
        ∧ breakAt s (s.ctxNo 0) w.run.pc = false ∧ w.waiting = []
        ∧ ∃ cl, (fetchClause s 0 w w.run.pc.toNat).toOption = some cl ∧ firstFits s 0 cl = true
          ∧ queueFull s 0 0 w = false ∧ ∀ f, f < 12 → cl.hdr.wait.getLsbD f = true → w.flag f = 0)
      ∧ Has (calm id) (fun s w => ready s w ∧ w.run.widx ≠ 0 ∧ dispatchable s 0 0 w = true)
      ∧ Has (calm fun s => now 512 (onSched (fun x => { x with readySince := some 0 }) s)) (fun s w => w.sched.readySince = some 0
          ∧ 0 + 512 ≤ s.nonStalled 0 ∧ dispatchable s 0 0 w = true ∧ coreHeld s 0 = false)
      ∧ (calm (now 1)).clock 0 % 8 ≠ 0
      ∧ (candidate.clock 0 % 8 = 0
          ∧ (∀ e ∈ candidate.warpsOn 0, e.2.onHerd = true)
          ∧ (candidate.core 0).promoting = none ∧ (candidate.core 0).promotedAt = none
          ∧ ((ranked (candidates154 (noteCands candidate 0) 0)).head?.map fun x => (x.1, (candidate.warp x.1).map (·.sched.port)))
              = some (0, some none))
      ∧ Has (calm (onSched fun x => { x with engine := .demoting })) (fun _ w => w.sched.engine = .demoting)
      ∧ Has (calm (twoPaths (fun x => { x with fairStart := some 0 }) [])) (fun s w => fairPoint s 0 0 w = true ∧ w.waiting.length = 1
          ∧ (w.resv.any fun r => w.run.mask.getLsbD r.1) = false)
      ∧ Has (calm (twoPaths (fun x => { x with fairStart := some 0, deferSince := some 99744 }) [(0, 5)])) (fun s w =>
          fairPoint s 0 0 w = true ∧ w.waiting.length = 1 ∧ ∃ n, w.sched.deferSince = some n ∧ n + 256 ≤ s.nonStalled 0) :=
  ⟨.of (by decide +kernel) (by decide +kernel) ⟨by decide +kernel, by decide +kernel, by decide +kernel, by decide +kernel,
      there (by decide +kernel) (by decide +kernel)⟩,
    .of (by decide +kernel) (by decide +kernel) (by decide +kernel), .of (by decide +kernel) (by decide +kernel) (by decide +kernel),
    by decide +kernel, by decide +kernel, .of (by decide +kernel) (by decide +kernel) (by decide +kernel),
    .of (by decide +kernel) (by decide +kernel) (by decide +kernel),
    .of (by decide +kernel) (by decide +kernel) ⟨by decide +kernel, by decide +kernel, there (by decide +kernel) (by decide +kernel)⟩⟩

/-- WarpCompletions: a load in the air; a slice whose lanes have gone, the last one or not; a spilled cell; a rejected access; each wait
that ends; a nap; an asynchronous fault; invalidations. -/
theorem wit_completions :
    let load : Pend := ⟨some 3, .mem, [(4, 31, ⟨5, true⟩)], [(7, ⟨1, false⟩)], [], 0, []⟩
    let gone := fun (m : BitVec 32) (sl : List (Option Nat)) => onWarp fun w => { w with run := { w.run with mask := m }, slices := sl }
    Has (calm (onWarp fun w => { w with pend := [load] })) (fun s w => w.pend[0]? = some load ∧ landCells w load ≤ poolFree s 0)
      ∧ Has (calm (gone 0xFFFFFF [some 0, some 1, some 2, some 3])) (fun _ w => w.slices[3]? = some (some 3)
          ∧ w.alive &&& sliceMask 3 = 0 ∧ w.slices[0]? = some (some 0) ∧ w.pend.any (writesSlice · 3) = false)
      ∧ Has (calm fun s => other none (gone 0 [none, none, none, some 3] s)) (fun _ w => w.slices[3]? = some (some 3)
          ∧ w.alive &&& sliceMask 3 = 0 ∧ (∀ j, j < 3 → w.slices[j]? = some none) ∧ w.pend = [] ∧ w.heldTrap = none ∧ w.async = [])
      ∧ Has (calm fun s => onWarp (fun w => { w with spilled := [5], spilledAt := some 1 })
            (onCfg (fun x => { x with annexBase := 0x24000 }) s)) (fun s w => w.spilled ≠ [] ∧ w.wait = none ∧ movable w = true
          ∧ unreadCell s 0 w = none ∧ refillAfter s 0 w = false ∧ w.spilled.length ≤ poolFree s 0)
      ∧ (missUsed (calm (onSched fun x => { x with missWait := some 3 })) 0 < 4096
          ∧ nextRejected (rejected (calm (onSched fun x => { x with missWait := some 3 })) 0) none = some (3, 0))
      ∧ (((calm fun s => now 67 (onCore (fun k => { k with missResv := some (0, 3) }) s)).core 0).missResv = some (0, 3)
          ∧ 3 + 64 ≤ (calm fun s => now 67 (onCore (fun k => { k with missResv := some (0, 3) }) s)).dev.now)
      ∧ Has (calm (waits (.fwait 0xFFF))) (fun _ w => movable w = true ∧ w.wait = some (.fwait 0xFFF) ∧ ∀ f, f < 12 → w.flag f = 0)
      ∧ Has (calm (waits (.cpwait 1))) (fun _ w => w.wait = some (.cpwait 1) ∧ batchesDone w 1 = true)
      ∧ Has (calm fun s => waits (.bar 15 6) (barrier 2 ⟨7, [], none, false⟩ 0 0 s)) (fun s _ =>
          phaseDone (barrierOf s (blkOf 0) 15).phase 6 = true)
      ∧ Has (calm (waits .reissue)) (fun _ w => w.wait = some .reissue) ∧ Has (calm (waits .queue)) (fun _ w => w.wait = some .queue)
      ∧ Has (calm fun s => now 9 (waits (.nap 9) s)) (fun s w => w.wait = some (.nap 9) ∧ 9 ≤ s.nonStalled 0)
      ∧ Has (calm (onWarp fun w => { w with async := [goneRec State.reset 0 .address 4 0x1000 7] }))
          (fun _ w => movable w = true ∧ w.heldTrap = none ∧ w.async ≠ [])
      ∧ Has (calm (waits (.tlbinv .all 0 0))) (fun s w => w.wait = some (.tlbinv .all 0 0) ∧ (s.ctx (s.ctxNo 0)).isSome = true)
      ∧ Has (calm (waits (.icinv 0x20000))) (fun _ w => w.wait = some (.icinv 0x20000)) := by
  and_intros <;> first | decide +kernel | exact .of (by decide +kernel) (by decide +kernel) (by decide +kernel)

/-- Queue 5 with an entry in hand. -/
def inHand (kind : Nat) (words : List (Nat × Nat)) (acted done : Bool) (s : State) : State :=
  let bs := words.foldl (fun bs w => bs.take w.1 ++ leBytes 8 w.2 ++ bs.drop (w.1 + 8)) (kind :: List.replicate 63 0 |>.map (BitVec.ofNat 8))
  onCtx (fun c => { c with queues := amod 5 (fun x => { x with entries := [⟨0, bs, acted, done, none, none, none⟩] }) c.queues })
    (queue 0 1 [] s)

/-- A queue's entry is in hand and to be acted on. -/
def ToAct (s : State) (k : Nat) (P : QEntry → Prop) : Prop :=
  ∃ x, s.queue 0 5 = some x ∧ x.stuck = none ∧ ∃ e, nextAct true x.entries = some e ∧ e.kind = k ∧ P e

/-- QueueEvents: TAIL in order and beyond; an entry to consume, valid or not; a work queue whose entry stops it; a restart and a stop; a proxy queue with 64 entries
and one whose timer has run. -/
theorem wit_queues :
    let seen := fun (n : Nat) (s : State) => onCtx (fun c => { c with queues := amod 5 (fun x => { x with seen := n }) c.queues }) s
    let some1 := fun (kind : Nat) => calm fun s => poke 0x23000 1 kind (poke 0x23030 8 2 (poke 0x23028 8 0x24000 (seen 1 (queue 0 1 [] s))))
    let proxy := fun (n : Nat) => calm fun s => now 5000 (poke 0x22458 8 0 (poke 0x22448 8 0x24000 (poke 0x22450 1 6 (poke 0x22050 1 6
      (poke 0x22058 8 0x22400 (queue 3 n [] s))))))
    let takes := fun (s : State) (n : Nat) => ∃ t, s.qcb 0 5 = some t ∧ t.2.kind = 3 ∧ t.2.state = 0 ∧ t.2.head + n ≤ t.2.tail
      ∧ t.1.lastGather + 5000 ≤ s.dev.now ∧ ∃ bs, s.devRead 0 t.2.peer 128 = some bs ∧ (qcbOf bs).state = 0
        ∧ 0 < min (min 64 (t.2.tail - t.2.head)) ((qcbOf bs).head + 2 ^ (qcbOf bs).log2 - (qcbOf bs).tail)
    (∃ t, (calm (queue 0 2 [])).qcb 0 5 = some t ∧ t.2.kind ≤ 1 ∧ t.2.state = 0 ∧ t.1.seen ≤ t.2.tail ∧ t.2.tail = t.2.head + 2 ^ t.2.log2)
      ∧ (∃ t, (calm (queue 1 3 [])).qcb 0 5 = some t ∧ t.2.kind ≤ 1 ∧ t.2.state = 0 ∧ t.2.head + 2 ^ t.2.log2 < t.2.tail
          ∧ ((calm (queue 1 3 [])).devWrite 0 (t.1.qcb.toNat + 0x53)
              (leBytes 1 2 ++ leBytes 4 (t.2.slot t.2.head % 65536 + 65536))).isSome = true)
      ∧ (∃ t, (some1 4).qcb 0 5 = some t ∧ t.2.kind ≤ 1 ∧ t.2.state = 0 ∧ t.2.head < t.1.seen ∧ t.1.stuck = none ∧ toAct t.1 = false
          ∧ alook t.2.head t.1.pushers = none
          ∧ (∃ bs, (some1 4).devRead 0 (t.2.base + 64 * (t.2.head % 2 ^ t.2.log2)) 64 = some bs ∧ entryError (some1 4) 0 t.2.kind bs = 0)
          ∧ (((some1 4).devTouch 0 (t.2.slotAddr t.2.head) 64).devWrite 0 (t.1.qcb.toNat + 0x40) (leBytes 8 (t.2.head + 1))).isSome = true)
      ∧ (∃ t, (some1 6).qcb 0 5 = some t ∧ ∃ bs, (some1 6).devRead 0 (t.2.base + 64 * (t.2.head % 2 ^ t.2.log2)) 64 = some bs
          ∧ entryError (some1 6) 0 t.2.kind bs ≠ 0)
      ∧ (∃ t, (calm (queue 2 1 [])).qcb 0 5 = some t ∧ t.2.kind = 2 ∧ t.2.state = 0 ∧ t.2.head < t.2.tail
          ∧ ∃ bs, (calm (queue 2 1 [])).devRead 0 (t.2.base + 64 * (t.2.head % 2 ^ t.2.log2)) 64 = some bs
            ∧ entryError (calm (queue 2 1 [])) 0 2 bs ≠ 0)
      ∧ (∃ t, (calm (queue 0 1 [])).qcb 0 5 = some t
          ∧ (∃ s1, (calm (queue 0 1 [])).devWrite 0 (t.1.qcb.toNat + 0x54) (leBytes 4 (t.2.err - t.2.err / 2 ^ 24 % 2 * 2 ^ 24)) = some s1
            ∧ (s1.devWrite 0 (t.1.qcb.toNat + 0x53) (leBytes 1 0)).isSome = true)
          ∧ ((calm (queue 0 1 [])).devWrite 0 (t.1.qcb.toNat + 0x53) (leBytes 1 1)).isSome = true)
      ∧ takes (proxy 64) 64 ∧ takes (proxy 1) 1 :=
  ⟨there (by decide +kernel) (by decide +kernel), there (by decide +kernel) (by decide +kernel),
    there (by decide +kernel) ⟨by decide +kernel, by decide +kernel, by decide +kernel, by decide +kernel, by decide +kernel,
      by decide +kernel, there (by decide +kernel) (by decide +kernel), by decide +kernel⟩,
    there (by decide +kernel) (there (by decide +kernel) (by decide +kernel)),
    there (by decide +kernel) ⟨by decide +kernel, by decide +kernel, by decide +kernel, there (by decide +kernel) (by decide +kernel)⟩,
    there (by decide +kernel) ⟨there (by decide +kernel) (by decide +kernel), by decide +kernel⟩,
    there (by decide +kernel) ⟨by decide +kernel, by decide +kernel, by decide +kernel, by decide +kernel,
      there (by decide +kernel) (by decide +kernel)⟩,
    there (by decide +kernel) ⟨by decide +kernel, by decide +kernel, by decide +kernel, by decide +kernel,
      there (by decide +kernel) (by decide +kernel)⟩⟩

/-- QueueEvents, acting: SHAPE, REPLAY, WAITC and SIGNAL entries; a done entry to complete. -/
theorem wit_entries :
    let at8 := fun (k : Nat) => calm (inHand k [(40, 0x24000), (48, 3)] false false)
    let writes := fun (k : Nat) => ToAct (at8 k) k fun e => ∃ g, ((at8 k).access 0 (fieldOf e.bytes 40 8) (at8 k).free ⟨true, false, none⟩).toOption
      = some g ∧ (at8 k).mem.poisonedIn g.key 8 = false ∧ linkDown (at8 k) g.key = false
        ∧ (∀ x ∈ sectors g.key 8, (at8 k).mem.unknown ((at8 k).keyId 0) x = false)
        ∧ ∀ r ∈ gridsOf (at8 k) 0, r.2.bound = true → r.2.desc.shapeAddr.toNat ≠ fieldOf e.bytes 40 8
    writes 2 ∧ ToAct (at8 3) 3 (fun _ => True) ∧ ToAct (at8 4) 4 (fun e => ((at8 4).devRead 0 (fieldOf e.bytes 40 8) 32).isSome = true)
      ∧ writes 5
      ∧ ∃ x, (calm (inHand 5 [] true true)).queue 0 5 = some x ∧ ∃ e, x.entries[0]? = some e ∧ e.acted = true
          ∧ entryOver (calm (inHand 5 [] true true)) 0 e = true :=
  ⟨there (by decide +kernel) ⟨by decide +kernel, there (by decide +kernel) ⟨by decide +kernel, there (by decide +kernel) (by decide +kernel)⟩⟩,
    there (by decide +kernel) ⟨by decide +kernel, there (by decide +kernel) (by decide +kernel)⟩,
    there (by decide +kernel) ⟨by decide +kernel, there (by decide +kernel) (by decide +kernel)⟩,
    there (by decide +kernel) ⟨by decide +kernel, there (by decide +kernel) ⟨by decide +kernel, there (by decide +kernel) (by decide +kernel)⟩⟩,
    there (by decide +kernel) (there (by decide +kernel) (by decide +kernel))⟩

/-- An image at 0x24000 (R9 to R14): its header, a table of code, constants and Catalogue, and a kernel record with a general entry;
a descriptor at 0x25000 of `gx` blocks of one general warp; its LAUNCH entry in hand. -/
def submitted (gx : Nat) (s : State) : State :=
  let words := [(0x24000, 4, 0x31494854), (0x24004, 2, 1), (0x24006, 2, 3), (0x24018, 8, 0x40),
    (0x24040, 1, 1), (0x24048, 8, 0x200), (0x24058, 8, 64), (0x24060, 1, 2), (0x24068, 8, 0x300), (0x24078, 8, 64),
    (0x24080, 1, 4), (0x24088, 8, 0x400), (0x24098, 8, 64), (0x24100, 8, 0x100), (0x24108, 8, 2 ^ 64 - 1), (0x24110, 4, 2 ^ 32 - 1),
    (0x25000, 8, 0x24100), (0x25010, 8, 0x25100), (0x25018, 4, gx), (0x2501C, 2, 1), (0x2501E, 2, 1), (0x25023, 1, 1), (0x25027, 1, 8),
    (0x2502E, 1, 1)]
  words.foldl (fun s x => poke x.1 x.2.1 x.2.2 s) (inHand 1 [(40, 0x25000)] false false (onCtx (fun c => { c with gidNext := 2 }) s))

/-- QueueEvents, LAUNCH: a descriptor of no block fails with code 5; one of one block is the grid 2. -/
theorem wit_launch_entries :
    let reads := fun (s : State) (P : Qcb → List Byte → Ctx → Prop) => ToAct s 1 fun e => alook e.idx [] = (none : Option Nat)
      ∧ ∃ bs, entryDesc s 0 e.bytes = some bs ∧ ∃ t, s.qcb 0 5 = some t ∧ alook e.idx t.1.pushers = none
        ∧ ∃ z, s.ctx 0 = some z ∧ P t.2 bs z
    reads (calm (submitted 0)) (fun _ bs _ => failCode (calm (submitted 0)) 0 bs (descOf bs) (readImage (calm (submitted 0)) 0 (descOf bs)) = 5)
      ∧ reads (calm (submitted 1)) (fun _ bs z => (readImage (calm (submitted 1)) 0 (descOf bs)).isSome = true
          ∧ failCode (calm (submitted 1)) 0 bs (descOf bs) (readImage (calm (submitted 1)) 0 (descOf bs)) = 0
          ∧ (descOf bs).provisional = false ∧ 0 < (descOf bs).gx * (descOf bs).gy * (descOf bs).gz
          ∧ z.gidNext < 2 ^ 24 ∧ (calm (submitted 1)).grid 0 z.gidNext = none) :=
  ⟨there (by decide +kernel) ⟨by decide +kernel, there (by decide +kernel) ⟨by decide +kernel, by decide +kernel,
      there (by decide +kernel) (there (by decide +kernel) ⟨by decide +kernel, there (by decide +kernel) (by decide +kernel)⟩)⟩⟩,
    there (by decide +kernel) ⟨by decide +kernel, there (by decide +kernel) ⟨by decide +kernel, by decide +kernel,
      there (by decide +kernel) (there (by decide +kernel) ⟨by decide +kernel, there (by decide +kernel) (by decide +kernel)⟩)⟩⟩⟩

/-- A block asked to stop for pre-emption, as its request was made. -/
def asked (pages : List Nat) (s : State) : State := onBlock (fun b => { b with preempt := some ⟨0, [(0, 0)], .host, pages⟩ }) s

/-- PlacementAndPreemption, placement: a grid that has waited a period and one that has not; the last block of a grid with room for it; a
block that has ended; gangs killed under RELAUNCH_HOST. -/
theorem wit_placement :
    let waiting := fun (n : Nat) => calm fun s => { now n (onGrid (fun g => { g with next := 0, firstWave := true, status := .pending }) s) with
      blocks := [], warps := [], cores := [] }
    let due := fun (g : Grid) (s : State) => (if g.status = .pending then g.agedFrom else g.lastPlace) + (g.boost + 1) * agePeriod (s.cfg 0)
    let limbo := calm (onGrid fun g => { g with limbo := [0] })
    let has := fun (s : State) (P : Grid → Prop) => ∃ g, s.grid 0 1 = some g ∧ P g
    has (waiting (10 ^ 12)) (fun g => (nextIdx (waiting (10 ^ 12)) 0 1).isSome = true ∧ due g (waiting (10 ^ 12)) ≤ (waiting (10 ^ 12)).ptp)
      ∧ has (waiting 0) (fun g => (nextIdx (waiting 0) 0 1).isSome = true ∧ (waiting 0).ptp < due g (waiting 0))
      ∧ ((∃ c, (waiting 0).ctx 0 = some c ∧ c.resident = true ∧ c.halted = false)
          ∧ has (waiting 0) (fun g => (servedOrder (waiting 0) 0).map (fun e => (e.1, e.2.1)) = [(0, 1)] ∧ g.firstWave = true
            ∧ wfld g.desc.flags 0 1 = 0 ∧ g.desc.gang ≤ 1 ∧ joinedIdx (waiting 0) 0 1 g = [] ∧ g.next + 1 = g.last
            ∧ g.status.finished = false ∧ (∀ e ∈ (waiting 0).ctxs, e.2.childCores = [])
            ∧ ((fromCursor (waiting 0) 0 (candidates (waiting 0) 0 (g.desc.need ((waiting 0).cfg 0)))).findIdx? (fun x =>
                candRoom ((waiting 0).modGrid 0 1 fun g => { g with firstWave := false, joinWave := false }) 0 x
                  (g.desc.need ((waiting 0).cfg 0)) true)).isSome = true))
      ∧ (∃ b, (calm (onBlock fun b => { b with st := .ended })).block 0 = some b ∧ b.st = .ended ∧ b.children = [])
      ∧ has limbo (fun g => 0 ∈ g.limbo ∧ 0 / max 1 g.desc.gang = 0 ∧ sget 0 g.kills 0 ≤ 3 ∧ g.desc.provisional = false)
      ∧ (has { limbo with blocks := [] } (fun g => 0 ∈ g.limbo ∧ g.status.finished = false) ∧ liveBlocks { limbo with blocks := [] } 0 1 = []) :=
  ⟨there (by decide +kernel) (by decide +kernel), there (by decide +kernel) (by decide +kernel),
    ⟨there (by decide +kernel) (by decide +kernel), there (by decide +kernel) (by decide +kernel)⟩,
    there (by decide +kernel) (by decide +kernel), there (by decide +kernel) (by decide +kernel),
    there (by decide +kernel) (by decide +kernel), by decide +kernel⟩

/-- PlacementAndPreemption, pre-emption: a request with save pages and without, decided by the device and by the host; the end of a slice;
a retry; a budget that has run out; a stop point; contexts that leave and come; each answer to a claim. -/
theorem wit_preemption :
    let blk := fun (f : State → State) (P : State → Block → Prop) => ∃ b, (calm f).block 0 = some b ∧ P (calm f) b
    let hosted := onCfg fun x => { x with dutyMode := 8 }
    let late := now 5000000
    let saves := onCfg fun x => { x with saveBytes := 2 ^ 24 }
    let none_ := fun (s : State) => { s with blocks := [], warps := [] }
    let stops := fun (s : State) (w : Warp) => w.stop = none ∧ w.alive ≠ 0 ∧ w.halted = false ∧ dumping s 0 = false ∧ deliver s 0 w = none
    let header := fun (s : State) => onWarp (fun w => { w with run := { w.run with pc := 0x20000, widx := 0 } })
      (onGrid (fun g => { g with image := { g.image with codeBase := 0x20000, codeFirst := 0, codeBytes := 64, catBase := 0x24000, catCount := 1 } }) s)
    let badCat := fun (s : State) => poke 0x24000 4 0x7FFFFFFF (onGrid (fun g => { g with image := { g.image with catBase := 0x24000, catCount := 1 } }) s)
    blk id (fun s b => b.preempt = none ∧ b.cores ≠ [] ∧ triggerHolds s 0 b .host = true ∧ wfld (s.cfg b.ctx).dutyMode 3 1 = 0)
      ∧ blk (fun s => onCfg (fun x => { x with placeCfg := 0x10000 }) <| hosted ({ s with
            cores := s.cores ++ (List.range 31).map fun k => (k + 1, { Core.reset with fenced := true }),
            grids := s.grids ++ s.grids.map fun e => (gridKey 0 2, { e.2 with
              next := 0, basePrio := 9, status := .pending, desc := { e.2.desc with counts := [128, 0, 0, 0], regs := [8, 8, 8, 8] } }) }))
          (fun s b => b.preempt = none ∧ b.cores ≠ [] ∧ triggerHolds s 0 b .priority = true ∧ wfld (s.cfg b.ctx).dutyMode 3 1 = 1)
      ∧ blk late (fun s b => b.preempt = none ∧ b.cores ≠ [] ∧ sliceOver s b = true ∧ wfld (s.cfg b.ctx).dutyMode 3 1 = 0)
      ∧ blk (fun s => late (hosted s)) (fun s b => sliceOver s b = true ∧ wfld (s.cfg b.ctx).dutyMode 3 1 = 1)
      ∧ blk saves (fun s b => b.st = .running ∧ b.prov = false ∧ gangOf s 0 = [0] ∧ preemptGroup s 0 = [0]
          ∧ (freePages s b.ctx (worstPages s b)).isSome = true)
      ∧ blk id (fun s b => gangOf s 0 = [0] ∧ freePages s b.ctx (worstPages s b) = none)
      ∧ blk (fun s => late (asked [] s)) (fun s b => preemptGroup s 0 = [0] ∧ ∃ p, b.preempt = some p ∧ p.pages = []
          ∧ p.at_ + 2500000 ≤ s.dev.now)
      ∧ Has (calm fun s => now 250000 (asked [0] s)) (fun s w => stops s w ∧ midOperation w = false ∧ w.wait = none ∧ 0 + 250000 ≤ s.nonStalled 0)
      ∧ Has (calm fun s => waits .queue (asked [0] s)) (fun s w => stops s w ∧ s.nonStalled 0 < 0 + 250000 ∧ w.handler = none
          ∧ stopsParked .queue = true ∧ w.wait = some .queue)
      ∧ Has (calm fun s => badCat (asked [0] s)) (fun s w => stops s w ∧ s.nonStalled 0 < 0 + 250000 ∧ w.handler = none ∧ w.wait = none
          ∧ w.spilled = [] ∧ (catHere s 0 w).2 = true
          ∧ ((s.gridOfWarp 0).bind fun g => catEntries s 0 g.image).isSome = true)
      ∧ Has (calm fun s => header (asked [0] s)) (fun s w => stops s w ∧ s.nonStalled 0 < 0 + 250000 ∧ w.handler = none ∧ w.wait = none
          ∧ w.spilled = [] ∧ (catHere s 0 w).1.isSome = true ∧ (catHere s 0 w).2 = false ∧ w.pend = [])
      ∧ (∃ c, (calm none_).ctx 0 = some c ∧ c.resident = true ∧ placedBlocks (calm none_) 0 = []
          ∧ (∀ e ∈ (calm none_).blocks, e.2.st ≠ .endedP) ∧ (∀ k ∈ coresOf (calm none_) 0, k ∈ [0] ∨ leaderOf k ∈ [0]) ∧ wfld c.eff.traceCfg 0 1 = 0)
      ∧ ∃ c, (calm (onCtx fun c => { c with resident := false })).ctx 0 = some c ∧ c.resident = false
          ∧ ∀ e ∈ gridsOf (calm (onCtx fun c => { c with resident := false })) 0, e.2.pendingRes = none :=
  ⟨there (by decide +kernel) (by decide +kernel), there (by decide +kernel) (by decide +kernel), there (by decide +kernel) (by decide +kernel),
    there (by decide +kernel) (by decide +kernel), there (by decide +kernel) (by decide +kernel), there (by decide +kernel) (by decide +kernel),
    there (by decide +kernel) ⟨by decide +kernel, there (by decide +kernel) (by decide +kernel)⟩,
    .of (by decide +kernel) (by decide +kernel) (by decide +kernel),
    .of (by decide +kernel) (by decide +kernel) (by decide +kernel), .of (by decide +kernel) (by decide +kernel) (by decide +kernel),
    .of (by decide +kernel) (by decide +kernel) (by decide +kernel),
    there (by decide +kernel) (by decide +kernel), there (by decide +kernel) (by decide +kernel)⟩

/-- PlacementAndPreemption, claims: the page is pinned; the device has it; it is free; it is claimed, and the claim has run out. -/
theorem wit_claims :
    let pinned := onDev (fun d => { d with conflicts := [⟨0, 2, [0], 0, some 0⟩] }) State.reset
    let ours := onDev (fun d => { d with wt := [(0, ⟨0, 2, .handling 0, [], false⟩)] }) State.reset
    let theirs := now 25000000 (onDev (fun d => { d with claims := [⟨0, 2, 0⟩] }) State.reset)
    pagePinned pinned 0 2 = true ∧ pagePinned ours 0 2 = false ∧ (deviceClaim ours 0 2).isSome = true
      ∧ pagePinned State.reset 0 2 = false ∧ deviceClaim State.reset 0 2 = none
      ∧ (∃ x ∈ theirs.dev.claims, (x.ctx = 0 ∧ x.page = 2) ∧ x.at_ + 25000000 ≤ theirs.ptp)
      ∧ ∀ x ∈ (now 25000000 pinned).dev.conflicts, ∀ n, x.pinned = some n → n + 25000000 ≤ (now 25000000 pinned).ptp := by
  decide +kernel

/-- TimeTraceAndDebug: a jump and a slew; a traced stream with 256 bytes to drain, one whose timer has run, and one whose control block
is gone; a hold that escapes; a sample; a sweep; a dump to write; commands of the debugger. -/
theorem wit_time_trace_debug :
    let unit := fun (n : Nat) => onCtx fun c => { c with units := [(0, { TraceUnit.fresh with buf := List.replicate n 7 })] }
    let tr := fun (base : BitVec 64) (n : Nat) (s : State) => poke 0x16018 8 (2 ^ 48 + 0x3020F) <| poke 0x16020 8 (2 ^ 48 + 0x4020F) <| traced (unit n (onCfg (fun x => { x with traceBase := base }) (now 10000 s)))
    let drains := fun (s : State) => recording s 0 = true ∧ ∃ room, segRoom s 0 0 (s.unit 0 0) = some room ∧ (s.unit 0 0).escaped = false
      ∧ (s.unit 0 0).lossless = false
      ∧ ∃ s1, segWrite s 0 0 (s.unit 0 0).wr ((s.unit 0 0).buf.take (min (s.unit 0 0).buf.length room)) = some s1
        ∧ (s1.devWrite 0 (streamBlock (s.cfg 0) 0) (leBytes 8 ((s.unit 0 0).wr + min (s.unit 0 0).buf.length room))).isSome = true
    let held := calm fun s => now (10 ^ 9) (onCtx (fun c => { c with units := [(0, { TraceUnit.fresh with heldSince := some 0 })] }) s)
    let sampled := fun (s : State) => now 256 (onGrid (fun g => { g with desc := { g.desc with trace := 0x805 } }) (traced s))
    let stopped := fun (s : State) => onWarp (fun w => { w with halted := true }) s
    let dump := calm fun s => stopped (onCtx (fun c => { c with dump := some ⟨none, none, true, 0, 0, [], []⟩, halted := true }) s)
    let dbg := calm fun s => stopped s
    (25000001 : Int) > 25000000 ∧ 0 ≤ (State.reset.dev.now : Int) + State.reset.dev.ptpOff ∧ clockHost State.reset = false
      ∧ clockHost (calm (onCfg fun x => { x with dutyMode := 16 })) = true
      ∧ (drains (calm (tr 0x30000 256)) ∧ 256 ≤ ((calm (tr 0x30000 256)).unit 0 0).buf.length)
      ∧ (drains (calm (tr 0x30000 1)) ∧ ((calm (tr 0x30000 1)).unit 0 0).buf ≠ []
          ∧ ((calm (tr 0x30000 1)).unit 0 0).lastDrain + 10000 ≤ (calm (tr 0x30000 1)).ptp)
      ∧ (recording (calm (tr 0x80000 256)) 0 = true ∧ segRoom (calm (tr 0x80000 256)) 0 0 ((calm (tr 0x80000 256)).unit 0 0) = none)
      ∧ ((held.unit 0 0).heldSince = some 0 ∧ 0 + stallLimit (held.cfg 0) ≤ held.ptp)
      ∧ Has (calm sampled) (fun s _ => (∃ b, s.block (blkOf 0) = some b ∧ s.traced b = true) ∧ (∃ g, s.gridOfWarp 0 = some g
          ∧ sampleSlot s 0 true = some 0) ∧ (s.core 0).held = none)
      ∧ Has (calm id) (fun s _ => (∃ b, s.block (blkOf 0) = some b ∧ s.traced b = false) ∧ (s.core 0).held = none)
      ∧ (∃ c, (calm id).ctx 0 = some c ∧ c.resident = true ∧ wfld c.eff.dutyMode 5 1 = 0 ∧ c.dump = none ∧ (calm id).dbgContext = 0)
      ∧ (∃ c, dump.ctx dump.dbgContext = some c ∧ (∃ d, c.dump = some d ∧ d.fatal = none ∧ d.kills = [] ∧ d.resets = [])
          ∧ dumpReady dump dump.dbgContext = true
          ∧ ∀ e ∈ dump.warps, e.2.heldTrap = none)
      ∧ ∀ cmd ∈ ([0, 1 * 2 ^ 19 + 95 * 2 ^ 22, 4 * 2 ^ 19, 5 * 2 ^ 19] : List (BitVec 64)), ∃ e, (dbgWarp dbg cmd).toOption = some e
          ∧ (dbg.warp e.1).isSome = true ∧ e.2.pendV = [] ∧ e.2.pendS = [] ∧ dumping dbg e.1 = false := by
  refine ⟨by decide +kernel, by decide +kernel, by decide +kernel, by decide +kernel,
    ⟨⟨by decide +kernel, there (by decide +kernel) ⟨by decide +kernel, by decide +kernel, there (by decide +kernel) (by decide +kernel)⟩⟩,
      by decide +kernel⟩,
    ⟨⟨by decide +kernel, there (by decide +kernel) ⟨by decide +kernel, by decide +kernel, there (by decide +kernel) (by decide +kernel)⟩⟩,
      by decide +kernel⟩, by decide +kernel, by decide +kernel,
    .of (by decide +kernel) (by decide +kernel) ⟨there (by decide +kernel) (by decide +kernel), there (by decide +kernel) (by decide +kernel),
      by decide +kernel⟩,
    .of (by decide +kernel) (by decide +kernel) ⟨there (by decide +kernel) (by decide +kernel), by decide +kernel⟩,
    there (by decide +kernel) (by decide +kernel), there (by decide +kernel) ⟨there (by decide +kernel) (by decide +kernel), by decide +kernel⟩, ?_⟩
  intro cmd h
  simp only [List.mem_cons, List.not_mem_nil, or_false] at h
  rcases h with rfl | rfl | rfl | rfl <;> exact there (by decide +kernel) (by decide +kernel)

/-- A link that is being reset, since the time. -/
def resets (k n : Nat) (s : State) : State := onDev (fun d => { d with links := [(k, { Link.reset with retrain := some n })] }) s

/-- ContainmentEvents: each visit, scan, error, reset and link event where it applies. -/
theorem wit_containment :
    let draining := fun (s : State) => onCore (fun k => { k with draining := some 0 }) s
    let engine := calm fun s => now (2 ^ 24) (onCore (fun k => { k with copies := [tile 0x21000 none (some 0)] }) s)
    let dumped := calm (onCtx fun c => { c with dump := some ⟨none, none, true, 0, 0, [], []⟩, halted := true })
    let l1 := onCore (fun k => { k with dirty := [⟨.mem 0x24000, [7], [false], 0, 0, 0, 0, 1⟩] }) State.reset
    let failed := fun (n : Nat) (s : State) => onDev (fun d => { d with links := [(25, { Link.reset with fails := n })] }) s
    State.reset.dev.partBusy.contains 7 = false ∧ alook (16 + 7) State.reset.dev.curator = none ∧ (nextVisit State.reset 7).isSome = true
      ∧ visitable State.reset 255 = true ∧ State.reset.dev.partBusy.contains (dieOf 255) = false
      ∧ (runsOn (draining State.reset) 0 = [] ∧ ((draining State.reset).core 0).draining = some 0)
      ∧ (runsOn (calm draining) 0 ≠ [] ∧ (calm draining).nonStalled 0 < 0 + 500000)
      ∧ (((now 250000 (onCore (fun k => { k with scanning := some 0 }) State.reset)).core 0).scanning = some 0)
      ∧ Has (calm id) (fun _ w => w.loc ≠ none)
      ∧ (∃ b, (calm scratch).block 0 = some b ∧ b.cores ≠ [] ∧ 4 * 1023 < (calm scratch).scratchBytes b)
      ∧ Has (calm id) (fun s _ => (∃ b, s.block (blkOf 0) = some b ∧ b.children = []) ∧ dumpHolds s (blkOf 0) = false
          ∧ gangOf s (blkOf 0) = [blkOf 0])
      ∧ Has dumped (fun s _ => dumpHolds s (blkOf 0) = true ∧ ∃ c, s.ctx 0 = some c ∧ c.dump.isSome = true)
      ∧ (∃ b ∈ (l1.core 0).dirty, b.meets (memKey .dev 0x24000 / 32 * 32) 32 = true)
      ∧ ((calm id).ctx 0).isSome = true ∧ resettable (calm id) 0 = true
      ∧ (∀ e ∈ (calm id).blocks, (∃ c ∈ e.2.cores, dieOf c = 0) → dumpHolds (calm id) e.1 = false)
      ∧ (onDev (fun d => { d with partBusy := [7] }) State.reset).dev.partBusy.contains 7 = true
      ∧ ((∃ n ∈ runningSince engine false 0, n + 2 ^ 24 ≤ engine.nonStalled 0)
          ∧ ∀ c ∈ (engine.core 0).copies, (engine.warp c.wid).any (fun w => w.alive != 0) = true)
      ∧ ((State.reset.link 25).down = false ∧ (State.reset.link 25).retrain = none ∧ (State.reset.link 25).fails < 8)
      ∧ ((failed 8 State.reset).link 25).fails = 8
      ∧ ((now 25000000 (resets 18 0 State.reset)).link 18).retrain = some 0 :=
  by
    and_intros
    all_goals first
      | decide +kernel
      | exact .of (by decide +kernel) (by decide +kernel) (by decide +kernel)

/-- A module that has booted. -/
def ready : State := onDev (fun d => { d with bootStatus := bootWord 7 0 true }) State.reset

/-- PackageAndHost: temperatures; limits; a boot that finds no image it may take, and one that does if the images' signatures hold; the
host's and a peer's accesses at the end of memory; contexts made and destroyed. -/
theorem wit_package_and_host :
    let old := onDev (fun d => { d with rollback := 1 }) State.reset
    (100 < 114 ∧ 114 < 115) ∧ (State.reset.dev.flash.length = 2 ∧ State.reset.dev.active < 2)
      ∧ (∃ f, bootBank (resetModule old).dev = .error f)
      ∧ (Config.rsaVerifies emptyImage = true → Config.slhVerifies emptyImage = true → bootBank (resetModule State.reset).dev = .ok (0, 0))
      ∧ isReady ready = true ∧ (∀ sp ∈ [Space.dev, .host], inSpace sp (Config.devBytes - 8) 8 = true)
      ∧ SpecifiedFor ready (memKey .dev (Config.devBytes - 8)) 8 ∧ NoneStuck ready
      ∧ ((ready.link 17).down = false ∧ (ready.link 17).retrain = none)
      ∧ (peerStep (.atom .add .n64) (leBytes 8 1) 0).map Prod.fst = some 8 ∧ (Config.devBytes - 8) % 8 = 0
      ∧ ((calm id).ctx ((calm id).dev.dbgCtx.toNat % 64)).isSome = true
      ∧ (queuesFit ready 63 [] = true ∧ ready.ctx 63 = none ∧ keyFree ready 255 = true) ∧ ((calm id).ctx 0).isSome = true := by
  refine ⟨by decide, by decide +kernel, ?_, ?_, by decide +kernel, by decide +kernel, by unfold SpecifiedFor; decide +kernel,
    by unfold NoneStuck; decide +kernel, by decide +kernel, by decide +kernel, by decide +kernel, by decide +kernel, by decide +kernel,
    by decide +kernel⟩
  · refine ⟨imageFail (resetModule (onDev (fun d => { d with rollback := 1 }) State.reset)).dev emptyImage, ?_⟩
    have h : imageFail (resetModule (onDev (fun d => { d with rollback := 1 }) State.reset)).dev emptyImage ≠ 0 := by
      unfold imageFail
      split
      · decide
      · split
        · decide
        · decide +kernel
    have e : bankImage (resetModule (onDev (fun d => { d with rollback := 1 }) State.reset)).dev
        (resetModule (onDev (fun d => { d with rollback := 1 }) State.reset)).dev.active = emptyImage := by decide +kernel
    unfold bootBank
    rw [if_neg (by decide +kernel), e]
    exact if_neg h
  · intro h1 h2
    have h : imageFail (resetModule State.reset).dev emptyImage = 0 := by
      unfold imageFail
      rw [if_neg (by simp [h1]), if_neg (by simp [h2])]
      decide +kernel
    have e : bankImage (resetModule State.reset).dev (resetModule State.reset).dev.active = emptyImage := by decide +kernel
    unfold bootBank
    rw [if_neg (by decide +kernel), e]
    exact if_pos h

/-- StepRunsTheDecodedWord: a warp whose turn it is, mid-clause and at a header; an event and a stretch of time; a module without power. -/
theorem wit_turns :
    let turn := fun (t : Turn) (s : State) => { s with agenda := [t], cur := none }
    let s := calm fun s => turn (.word 0 0) (onWarp (fun x => { x with clause := some ⟨x.run.pc - 8, ⟨0, false, false, 15, 15, 0, 1⟩,
      [(encode (.nop (al .b32 N N N N))).getD 0]⟩ }) s)
    let h := calm fun s => turn (.word 0 0) (onWarp (fun w => { w with run := { w.run with pc := 0x20000, widx := 0 } }) s)
    let takes := fun (s : State) (n : Nat) => ∃ w, TakesTurn s 0 0 0 w ∧ w.run.widx = n
    takes s 1 ∧ takes h 0
      ∧ (∃ w, s.warp 0 = some w ∧ breakAt s (s.ctxNo 0) w.run.pc = false ∧ (bindPort { s with agenda := [] } 0 0 w).isSome = true
          ∧ ∃ cl, w.clause = some cl ∧ ∃ d, cl.words[w.run.widx - 1]? = some d ∧ (decodeWord d).toOption = some (.nop (al .b32 N N N N)))
      ∧ s.dev.powered = true ∧ (onDev (fun d => { d with powered := false }) s).dev.powered = false
      ∧ isBoot (.time 1) = false := by
  refine ⟨?_, ?_, there (by decide +kernel) ⟨by decide +kernel, by decide +kernel, there (by decide +kernel)
    (there (by decide +kernel) (by decide +kernel))⟩, by decide +kernel, by decide +kernel, by decide +kernel⟩ <;>
    exact ⟨_, ⟨by decide +kernel, (Option.some_get (by decide +kernel : Option.isSome _ = true)).symm, by decide +kernel, by decide +kernel,
      by decide +kernel, by decide +kernel, by decide +kernel⟩, by decide +kernel⟩

/-- MemoryStaysCanonical, TimeNeverDecreases: a state in the form, whose step answers. -/
theorem wit_invariants : WellKept (calm id) ∧ ∃ t, step (calm id) = .next t :=
  ⟨by unfold WellKept; decide +kernel, _, rfl⟩

end Sys2Proof.Tests
end

/-! # Memory stays canonical (O59)

`WellKept s` says that memory lists no default byte and lists its keys in rising order. Memory is written by few operations
(`putBy`, `touch`, `modMem`), whose laws on `Mem` stand in Laws/Memory.lean; everything else of a step calls those or leaves
memory alone. The proof goes up the definitions of the model: one lemma `WellKept.f` for each operation `f` on the state, so that
what an operation composed of others keeps is read off its body (`h.f.g` for `g (f s)`), then `exec_kept` with a case for each
instruction and event, then `step`. -/

/-! ## Memory (Machine/Mem.lean, Machine/Registers.lean) -/

namespace Sys2Proof.Machine

theorem Mem.wf_foldl {α : Type} {f : Mem → α → Mem} {l : List α} {m : Mem} (h : m.wf)
    (hf : ∀ (m : Mem) x, m.wf → (f m x).wf) : (l.foldl f m).wf := by
  induction l generalizing m with
  | nil => exact h
  | cons x l ih => exact ih (hf m x h)

theorem Mem.wf_openWrite {m : Mem} (h : m.wf) (key : Nat → Nat) (free k : Nat) (bs : List Byte) :
    (m.openWrite key free k bs).wf := by
  have settled : ((sectors k bs.length).foldl (fun m t => m.settleSector (key t) free t) m).wf :=
    Mem.wf_foldl h fun m t hm => Mem.wf_settleSector hm _ _ _
  exact Mem.wf_storePois (Mem.wf_setBytes settled k bs) k bs.length false

end Sys2Proof.Machine

/-! ## What it is for a result to be well kept -/

namespace Sys2Proof

open Machine

/-- The state a step goes on to, if it does, is well kept. -/
def OutcomeKept : Host.Outcome State Fault Refusal → Prop
  | .next t => WellKept t
  | _ => True

/-- The state of an operation that may find no way to go on is well kept. -/
def OptionKept : Option State → Prop
  | some t => WellKept t
  | none => True

/-- The state of an operation that may stop at an error is well kept. -/
def ExceptKept {ε : Type} : Except ε State → Prop
  | .ok t => WellKept t
  | .error _ => True

/-- The state in which a wait goes on or ends is well kept. -/
def EvalKept : Eval → Prop
  | .wait t => WellKept t
  | .done t _ _ => WellKept t
  | .trap .. => True

/-- The state a turn comes to, before or in place of an execution, is well kept. -/
def ReadyKept : Ready → Prop
  | .done t => WellKept t
  | .run _ t => WellKept t

section

variable {s t : State}

theorem OutcomeKept.next {o : Host.Outcome State Fault Refusal} (h : OutcomeKept o) (e : o = .next t) : WellKept t := by
  subst e
  exact h

theorem OptionKept.some {o : Option State} (h : OptionKept o) (e : o = some t) : WellKept t := by
  subst e
  exact h

theorem OptionKept.getD {o : Option State} (h : OptionKept o) (hs : WellKept s) : WellKept (o.getD s) := by
  cases o with
  | none => exact hs
  | some t => exact h

theorem OptionKept.map {o : Option State} {f : State → State} (h : OptionKept o) (hf : ∀ t, WellKept t → WellKept (f t)) :
    OptionKept (o.map f) := by
  cases o with
  | none => trivial
  | some t => exact hf t h

theorem OptionKept.bind {o : Option State} {f : State → Option State} (h : OptionKept o)
    (hf : ∀ t, WellKept t → OptionKept (f t)) : OptionKept (o.bind f) := by
  cases o with
  | none => trivial
  | some t => exact hf t h

theorem ExceptKept.ok {ε : Type} {r : Except ε State} (h : ExceptKept r) (e : r = .ok t) : WellKept t := by
  subst e
  exact h

theorem ExceptKept.bind {ε : Type} {r : Except ε State} {f : State → Except ε State} (h : ExceptKept r)
    (hf : ∀ t, WellKept t → ExceptKept (f t)) : ExceptKept (r.bind f) := by
  cases r with
  | error a => trivial
  | ok t => exact hf t h

/-- The state of a result that is taken apart. -/
theorem WellKept.of_eq_mk {α : Type} {r : State × α} {x : α} (h : WellKept r.1) (e : r = (t, x)) : WellKept t := by
  subst e
  exact h

/-- What leaves memory alone keeps it. -/
theorem WellKept.of_mem_eq (h : WellKept s) (e : t.mem = s.mem) : WellKept t := by
  unfold WellKept
  rw [e]
  exact h

theorem WellKept.foldl {α : Type} {f : State → α → State} {l : List α} (h : WellKept s)
    (hf : ∀ s x, WellKept s → WellKept (f s x)) : WellKept (l.foldl f s) := by
  induction l generalizing s with
  | nil => exact h
  | cons x l ih => exact ih (hf s x h)

/-- A fold that carries something beside the state. -/
theorem WellKept.foldl_fst {α β : Type} {f : State × β → α → State × β} {l : List α} {a : State × β} (h : WellKept a.1)
    (hf : ∀ a x, WellKept a.1 → WellKept (f a x).1) : WellKept (l.foldl f a).1 := by
  induction l generalizing a with
  | nil => exact h
  | cons x l ih => exact ih (hf a x h)

theorem WellKept.ite {c : Prop} [Decidable c] (hs : WellKept s) (ht : WellKept t) : WellKept (if c then s else t) := by
  split
  · exact hs
  · exact ht

end

end Sys2Proof

/-! ## Pieces of the state (Machine/Base.lean) -/

namespace Sys2Proof

open Machine

section

variable {s : State} {wid core ctx gid bn lead link n : Nat}

protected theorem WellKept.setWarp {w : Warp} (h : WellKept s) : WellKept (s.setWarp wid w) :=
  h.of_mem_eq (s.setWarp_mem wid w)

protected theorem WellKept.modWarp {f : Warp → Warp} (h : WellKept s) : WellKept (s.modWarp wid f) :=
  h.of_mem_eq (s.modWarp_mem wid f)

protected theorem WellKept.setBlock {b : Block} (h : WellKept s) : WellKept (s.setBlock bn b) :=
  h.of_mem_eq (s.setBlock_mem bn b)

protected theorem WellKept.modBlock {f : Block → Block} (h : WellKept s) : WellKept (s.modBlock bn f) :=
  h.of_mem_eq (s.modBlock_mem bn f)

protected theorem WellKept.modGrid {f : Grid → Grid} (h : WellKept s) : WellKept (s.modGrid ctx gid f) :=
  h.of_mem_eq (s.modGrid_mem ctx gid f)

protected theorem WellKept.modCtx {f : Ctx → Ctx} (h : WellKept s) : WellKept (s.modCtx ctx f) :=
  h.of_mem_eq (s.modCtx_mem ctx f)

protected theorem WellKept.modCore {f : Core → Core} (h : WellKept s) : WellKept (s.modCore core f) :=
  h.of_mem_eq (s.modCore_mem core f)

protected theorem WellKept.modPair {f : Pair → Pair} (h : WellKept s) : WellKept (s.modPair lead f) :=
  h.of_mem_eq (s.modPair_mem lead f)

protected theorem WellKept.modLink {f : Link → Link} (h : WellKept s) : WellKept (s.modLink link f) :=
  h.of_mem_eq (s.modLink_mem link f)

protected theorem WellKept.modDev {f : Device → Device} (h : WellKept s) : WellKept (s.modDev f) :=
  h.of_mem_eq (s.modDev_mem f)

protected theorem WellKept.takeFree (h : WellKept s) : WellKept s.takeFree := h.of_mem_eq s.takeFree_mem

protected theorem WellKept.modWarpsOf {f : Warp → Warp} (h : WellKept s) : WellKept (s.modWarpsOf bn f) :=
  h.of_mem_eq (s.modWarpsOf_mem bn f)

protected theorem WellKept.count (h : WellKept s) : WellKept (count s core n) := h.of_mem_eq (count_mem s core n)

protected theorem WellKept.countR (h : WellKept s) : WellKept (countR s ctx n) := h.of_mem_eq (countR_mem s ctx n)

protected theorem WellKept.hostEvent {e : HostEvent} (h : WellKept s) : WellKept (hostEvent s e) :=
  h.of_mem_eq (hostEvent_mem s e)

protected theorem WellKept.modMem {f : Mem → Mem} (h : WellKept s) (hf : ∀ m : Mem, m.wf → (f m).wf) :
    WellKept (s.modMem f) := State.wf_modMem h hf

end

end Sys2Proof

/-! ## Writes to memory and their traces in caches and buffers (Machine/Coherence.lean, Walk.lean, Access.lean) -/

namespace Sys2Proof

open Machine

section

variable {s : State} {wid core ctx bn key va n : Nat} {who oc : Option Nat} {p : Bool} {bs : List Byte} {t : Tgt}

protected theorem WellKept.remember (h : WellKept s) : WellKept (s.remember oc key n p) := h

protected theorem WellKept.clearResv (h : WellKept s) : WellKept (clearResv s key n) := h

protected theorem WellKept.noteConsts (h : WellKept s) : WellKept (noteConsts s key n) := h

protected theorem WellKept.replayLoads {hit : LoadSrc → Bool} (h : WellKept s) : WellKept (replayLoads s who hit) := by
  unfold Machine.replayLoads
  refine h.foldl fun s e h => ?_
  split
  · exact h.modWarp.foldl fun _ _ h => h.count
  · exact h

/-- A write at a coherence point: memory keeps its form if the write itself does. -/
protected theorem WellKept.putBy {f : Mem → Mem} (h : WellKept s) (hf : ∀ m : Mem, m.wf → (f m).wf) :
    WellKept (s.putBy who oc key n p f) := by
  unfold State.putBy
  split
  · exact h
  · exact (h.remember.noteConsts.modMem hf).takeFree.clearResv.replayLoads

protected theorem WellKept.put {kid : Nat} (h : WellKept s) : WellKept (s.put who oc kid key bs p) :=
  h.putBy fun _ hm => Mem.wf_storePois (Mem.wf_setBytesUnder hm _ _ _ _) _ _ _

protected theorem WellKept.scrWriteBy {pl : Option Nat × Nat} (h : WellKept s) : WellKept (scrWriteBy s who pl bs p) := by
  unfold Machine.scrWriteBy
  split
  · exact h
  · exact h.modBlock.replayLoads

protected theorem WellKept.scrWrite {pl : Option Nat × Nat} (h : WellKept s) : WellKept (scrWrite s pl bs p) := h.scrWriteBy

protected theorem WellKept.acquireAt {sc : Scope} (h : WellKept s) : WellKept (acquireAt s wid sc) := by
  unfold Machine.acquireAt
  split
  · split
    · exact h.modCore
    · exact h
  · exact h

protected theorem WellKept.fillTlb {l : Leaf} (h : WellKept s) : WellKept (s.fillTlb ctx va l) := h.modCtx

protected theorem WellKept.walked (h : WellKept s) : WellKept (s.walked ctx va n) := h.modCtx

/-- An access sets a bit of the page-table entry in memory. -/
protected theorem WellKept.touch {l : Leaf} (h : WellKept s) : WellKept (s.touch l) := by
  unfold State.touch
  split
  · exact h
  · exact h.modMem fun _ hm => Mem.wf_setByte hm _ _

protected theorem WellKept.used (h : WellKept s) : WellKept (s.used ctx va t) := by
  unfold State.used
  refine WellKept.touch (WellKept.fillTlb ?_)
  split
  · exact h
  · split
    · exact h.fillTlb
    · exact h

protected theorem WellKept.writeTgt (h : WellKept s) : WellKept (s.writeTgt who oc ctx t bs p) := by
  unfold State.writeTgt
  split
  · exact h
  · exact h.put

protected theorem WellKept.devTouch (h : WellKept s) : WellKept (s.devTouch ctx va n) := by
  unfold State.devTouch
  split
  · exact h
  · refine (h.foldl fun s p h => ?_).takeFree
    split
    · exact h.touch
    · exact h

protected theorem WellKept.putTargets {ts : List (Tgt × Nat)} (h : WellKept s) : WellKept (putTargets ctx ts bs s) := by
  induction ts generalizing s bs with
  | nil => exact h
  | cons e ts ih => exact ih h.writeTgt.touch

protected theorem WellKept.devWrite (h : WellKept s) : OptionKept (s.devWrite ctx va bs) := by
  unfold State.devWrite
  cases s.devTargets ctx va bs.length true with
  | none => trivial
  | some ts => exact h.putTargets

protected theorem WellKept.errRecord {cls action loc grid blk : Nat} (h : WellKept s) :
    WellKept (errRecord s cls action core ctx loc grid blk) := h.modDev

protected theorem WellKept.lostStore {b : Block} (h : WellKept s) : WellKept (lostStore s b key) := by
  unfold Machine.lostStore
  dsimp only
  split
  · exact h
  · split
    · exact h
    · exact h.errRecord.modGrid

protected theorem WellKept.spoilRings (h : WellKept s) : WellKept (spoilRings s bn key n) := by
  unfold Machine.spoilRings
  split
  · exact h
  · exact h.foldl fun _ _ h => h.modBlock.takeFree

protected theorem WellKept.scrLand {ps : List Bool} (h : WellKept s) : WellKept (scrLand s who bn n bs ps) :=
  h.foldl fun _ _ h => h.scrWriteBy

protected theorem WellKept.land {b : Buffered} (h : WellKept s) : WellKept (s.land b) := by
  unfold State.land
  split
  · exact h.scrLand.spoilRings
  · split
    · split
      · exact h.lostStore
      · exact h
    · dsimp only
      split
      · exact h.put
      · exact h.put

/-- Marks of poison are no bytes. -/
protected theorem WellKept.cleanWhole {l : List Buffered} (h : WellKept s) : WellKept (cleanWhole s l) := by
  unfold Machine.cleanWhole
  split
  · exact h
  · exact h.modMem fun _ hm => hm

protected theorem WellKept.landDirty {f : Buffered → Bool} (h : WellKept s) : WellKept (landDirty s core f) := by
  unfold Machine.landDirty
  dsimp only
  split
  · exact h
  · exact ((h.foldl fun _ _ h => h.modCore).foldl fun _ _ h => h.land).cleanWhole

protected theorem WellKept.releaseCore (h : WellKept s) : WellKept (releaseCore s core n) := by
  unfold Machine.releaseCore
  split
  · exact h
  · exact h.modCore
  · exact h.landDirty

protected theorem WellKept.enterL1 {b : Buffered} (h : WellKept s) : WellKept (s.enterL1 core b) := by
  unfold State.enterL1
  split
  · exact h.releaseCore
  · split
    · exact h.land
    · exact h.modCore

protected theorem WellKept.leaveBuffer {b : Buffered} (h : WellKept s) : WellKept (s.leaveBuffer core b) := by
  unfold State.leaveBuffer
  split
  · split
    · exact h.landDirty.land
    · exact h.enterL1
  · exact h.enterL1

protected theorem WellKept.leaveAs {l : List Buffered} (h : WellKept s) : WellKept (leaveAs s wid l) := by
  refine h.foldl fun s b h => ?_
  split
  · exact h.enterL1
  · exact h.land

protected theorem WellKept.flushSome {f : Buffered → Bool} (h : WellKept s) : WellKept (flushSome s wid f) := by
  unfold Machine.flushSome
  split
  · exact h
  · dsimp only
    split
    · exact h
    · exact h.modWarp.leaveAs

protected theorem WellKept.flushStores (h : WellKept s) : WellKept (flushStores s wid) := by
  unfold Machine.flushStores
  split
  · exact h
  · split
    · exact h
    · exact h.modWarp.leaveAs

protected theorem WellKept.flushPath (h : WellKept s) : WellKept (flushPath s wid) := by
  unfold Machine.flushPath
  split
  · exact h.flushSome
  · exact h

protected theorem WellKept.settle (h : WellKept s) : WellKept (settle s wid key n) := by
  have path : ∀ c : Bool, WellKept (if c then flushPath s wid else s) := fun c => by
    split
    · exact h.flushPath
    · exact h
  unfold Machine.settle
  dsimp only
  split
  · exact (path _).landDirty
  · exact path _

protected theorem WellKept.settleScr {pl : Option Nat × Nat} (h : WellKept s) : WellKept (settleScr s wid pl n) := by
  unfold Machine.settleScr
  split
  · exact h
  · split
    · exact h.flushPath
    · exact h

protected theorem WellKept.releaseAt {sc : Scope} (h : WellKept s) : WellKept (releaseAt s wid sc) := by
  unfold Machine.releaseAt
  dsimp only
  split
  · exact h.flushPath.releaseCore
  · exact h.flushPath

protected theorem WellKept.storeGlobal (h : WellKept s) : WellKept (storeGlobal s wid t bs p) := by
  unfold Machine.storeGlobal
  split
  · split
    · exact h.setBlock.modWarpsOf
    · split
      · exact h.lostStore
      · exact h.settle.put
  · exact h

protected theorem WellKept.observeBy (h : WellKept s) : WellKept (observeBy s wid key n) := by
  unfold Machine.observeBy
  split
  · exact h.modCore
  · exact h

protected theorem WellKept.storeOpen (h : WellKept s) : WellKept (storeOpen s ctx t bs p) := h.writeTgt

protected theorem WellKept.ringArrive {r : Ring} (h : WellKept s) : WellKept (ringArrive s r n) := by
  unfold Machine.ringArrive
  dsimp only
  split
  · exact h.scrWrite.modBlock
  · exact h.scrWrite

protected theorem WellKept.engineRelease {a : Word} (h : WellKept s) : WellKept (engineRelease s wid core a) := h.releaseCore

end

end Sys2Proof
/-! ## Trace packets (Machine/Trace.lean) -/

namespace Sys2Proof

open Machine

section

variable {s : State} {wid core ctx src n sub : Nat} {u : TraceUnit} {pkt : List Byte} {b : Block}

protected theorem WellKept.setUnit (h : WellKept s) : WellKept (s.setUnit ctx src u) := h.modCtx

protected theorem WellKept.countSrc (h : WellKept s) : WellKept (countSrc s ctx src n) := by
  unfold Machine.countSrc
  split
  · exact h.countR
  · exact h.count

protected theorem WellKept.dropPackets {slot : Option Nat} (h : WellKept s) : WellKept (dropPackets s ctx src n u slot) :=
  h.setUnit.foldl fun _ _ h => h.countSrc

protected theorem WellKept.emit {slot : Option (Nat × Bool)} {timed : Bool} (h : WellKept s) :
    WellKept (emit s ctx src slot timed pkt) := by
  unfold Machine.emit
  dsimp only
  split_ifs
  · exact h
  · exact h.dropPackets
  · exact h.setUnit

protected theorem WellKept.flushUnit (h : WellKept s) : WellKept (flushUnit s ctx src) := by
  unfold Machine.flushUnit
  dsimp only
  split_ifs
  · exact h
  · exact h.dropPackets
  · exact h.setUnit

protected theorem WellKept.holdCheck (h : WellKept s) : WellKept (holdCheck s ctx core) := by
  unfold Machine.holdCheck
  dsimp only
  split
  · exact h.modCore.setUnit
  · exact h

protected theorem WellKept.releaseHold (h : WellKept s) : WellKept (releaseHold s core) := by
  unfold Machine.releaseHold
  split
  · exact h
  · exact h.modCore

protected theorem WellKept.setLossless (h : WellKept s) : WellKept (setLossless s ctx core) := by
  unfold Machine.setLossless
  dsimp only
  split_ifs
  · exact h
  · exact h.setUnit
  · exact h.setUnit.releaseHold

protected theorem WellKept.warpPacket (h : WellKept s) : WellKept (warpPacket s wid pkt) := by
  unfold Machine.warpPacket
  split
  · split
    · split
      · exact h.emit.holdCheck
      · exact h
    · exact h
  · exact h

protected theorem WellKept.holdBit {slot : Nat} {hd taken : Bool} (h : WellKept s) :
    WellKept (holdBit s ctx core slot hd taken) := by
  unfold Machine.holdBit
  extract_lets
  split_ifs
  · exact h.setUnit
  · exact h.dropPackets
  · exact h.setUnit

protected theorem WellKept.brBit {taken : Bool} (h : WellKept s) : WellKept (brBit s wid taken) := by
  unfold Machine.brBit
  split
  · split
    · split
      · exact h.holdBit.holdCheck
      · exact h
    · exact h
  · exact h

protected theorem WellKept.divPacket {lanes : Word} (h : WellKept s) : WellKept (divPacket s wid lanes) := h.warpPacket

protected theorem WellKept.mrgPacket {mask : Word} (h : WellKept s) : WellKept (mrgPacket s wid sub mask) := h.warpPacket

protected theorem WellKept.exitlPacket {lanes : Word} (h : WellKept s) : WellKept (exitlPacket s wid lanes) := h.warpPacket

protected theorem WellKept.userPacket {ws : List Nat} (h : WellKept s) : WellKept (userPacket s wid n ws) := h.warpPacket

protected theorem WellKept.engPacket {engine slot wslot sq : Nat} (h : WellKept s) :
    WellKept (engPacket s b core sub engine slot wslot sq) := by
  unfold Machine.engPacket
  split
  · exact h.emit.holdCheck
  · exact h

protected theorem WellKept.provPacket {gid : Nat} (h : WellKept s) : WellKept (provPacket s ctx gid src sub n) := by
  unfold Machine.provPacket
  split
  · split
    · exact h.emit.holdCheck
    · exact h
  · exact h

end

end Sys2Proof

/-! ## The copy engine's bytes (Machine/Copy.lean) -/

namespace Sys2Proof

open Machine

section

variable {s : State} {wid core n : Nat} {bs : List Byte} {c : CopyCmd} {p : CpPiece} {sq : Word}

protected theorem WellKept.cpToScratch {blk sa key : Nat} {bad : Nat → Bool} (h : WellKept s) :
    WellKept (cpToScratch s blk sa key bs bad) := by
  unfold Machine.cpToScratch
  split
  · exact h
  · refine h.scrWrite.foldl fun s i h => ?_
    split
    · exact h.scrWrite
    · exact h

protected theorem WellKept.cpToGlobal {t : Tgt} {pl : Option Nat × Nat} (h : WellKept s) :
    WellKept (cpToGlobal s wid t pl bs) := by
  refine h.storeGlobal.foldl fun s i h => ?_
  split
  · exact h.storeGlobal
  · exact h

/-- One piece of a copy. -/
protected theorem WellKept.cpMove (h : WellKept s) : ExceptKept (cpMove s c p) := by
  unfold Machine.cpMove
  dsimp only
  split
  · split
    · exact h.scrWrite
    · exact h
  · split
    · trivial
    · split
      · trivial
      · split
        · split
          · exact h.used
          · exact h.used.cpToGlobal
        · exact h.used.settle.observeBy.cpToScratch

protected theorem WellKept.cpRun {ps : List (CpPiece × Nat)} {m : List Nat} (h : WellKept s) :
    WellKept (cpRun c ps m s).1 := by
  induction ps generalizing s m with
  | nil => exact h
  | cons p ps ih =>
    unfold Machine.cpRun
    split
    · exact h
    · exact ih (h.cpMove.ok ‹_›)

protected theorem WellKept.copyRun (h : WellKept s) : WellKept (copyRun s c).1 := h.cpRun

protected theorem WellKept.copyStep (h : WellKept s) : WellKept (copyStep s core sq n) := by
  unfold Machine.copyStep
  split
  · exact h
  · split
    · exact h
    · split
      · exact h
      · split
        · exact h
        · exact (h.cpMove.ok ‹_›).modCore

protected theorem WellKept.copyPacket (h : WellKept s) : WellKept (copyPacket s core n c) := by
  unfold Machine.copyPacket
  split
  · exact h
  · exact h.engPacket

protected theorem WellKept.dropCopy (h : WellKept s) : WellKept (dropCopy s core sq) := h.modCore

protected theorem WellKept.copyFinish (h : WellKept s) : WellKept (copyFinish s core c).1 := by
  have h1 : WellKept (copyPacket ((dropCopy s core c.seq).modWarp c.wid fun w => w.copyDone c.seq) core 1 c) :=
    h.dropCopy.modWarp.copyPacket
  unfold Machine.copyFinish
  dsimp only
  split
  · exact h1
  · split
    · exact h1
    · split
      · exact h1
      · exact h1.engineRelease.ringArrive

protected theorem WellKept.stopCopies {blk : Nat} (h : WellKept s) : WellKept (stopCopies s blk core) := by
  refine h.foldl fun s c h => ?_
  split
  · exact h.copyPacket.dropCopy
  · exact h.copyRun.copyFinish

end

end Sys2Proof

/-! ## Paths of a warp (Machine/Frontier.lean) -/

namespace Sys2Proof

open Machine

section

variable {s : State} {wid n : Nat}

protected theorem WellKept.advance (h : WellKept s) : WellKept (advance s wid) := h.modWarp

protected theorem WellKept.spillEntries (h : WellKept s) : ExceptKept (spillEntries n s wid) := by
  induction n generalizing s with
  | zero => exact h
  | succ n ih =>
    unfold Machine.spillEntries
    split
    · exact h
    · dsimp only
      split
      · exact h
      · split
        · exact h
        · split
          · trivial
          · exact ih (h.devWrite.some ‹_›).setWarp

protected theorem WellKept.refillEntries {part : Path → Bool} (h : WellKept s) : ExceptKept (refillEntries s wid part) := by
  unfold Machine.refillEntries
  split
  · exact h
  · dsimp only
    split
    · trivial
    · exact h.setWarp.foldl fun _ _ h => h.devTouch

protected theorem WellKept.refillAt {pc : DWord} (h : WellKept s) : ExceptKept (refillAt s wid pc) := h.refillEntries

protected theorem WellKept.mergeStep (h : WellKept s) : ExceptKept (mergeStep s wid) := by
  unfold Machine.mergeStep
  split
  · exact h
  · split
    · split
      · trivial
      · have h1 := h.refillEntries.ok ‹_›
        split
        · exact h1
        · exact h1.setWarp.mrgPacket
    · exact h

protected theorem WellKept.switchStep (h : WellKept s) : ExceptKept (switchStep s wid) := by
  unfold Machine.switchStep
  split
  · exact h
  · split
    · split
      · trivial
      · have h1 := h.refillEntries.ok ‹_›
        split
        · exact h1
        · split
          · exact h1
          · exact h1.setWarp.mrgPacket.spillEntries
    · exact h

protected theorem WellKept.fairStep (h : WellKept s) : ExceptKept (fairStep s wid) := by
  unfold Machine.fairStep
  split
  · trivial
  · have h1 := h.refillEntries.ok ‹_›
    split
    · exact h1
    · split
      · exact h1
      · exact h1.setWarp.mrgPacket.spillEntries

/-- A merge where a path's header asks for one. -/
theorem WellKept.mergeIf {c : Bool} (h : WellKept s) : ExceptKept (if c then mergeStep s wid else .ok s) := by
  split
  · exact h.mergeStep
  · exact h

protected theorem WellKept.mergeSwitch (h : WellKept s) : ExceptKept (mergeSwitch s wid) := by
  unfold Machine.mergeSwitch
  split
  · exact h
  · split
    · exact h
    · dsimp only
      split
      · trivial
      · exact (h.mergeIf.ok ‹_›).switchStep

protected theorem WellKept.branchTo {gs : List Group} {packet : State → State} (h : WellKept s)
    (hp : ∀ s, WellKept s → WellKept (packet s)) : ExceptKept (branchTo s wid gs packet) := by
  unfold Machine.branchTo
  split
  · exact h
  · dsimp only
    split
    · trivial
    · have h1 := (hp _ h.setWarp).spillEntries.ok ‹_›
      split
      · exact h1.mergeSwitch.ok ‹_›
      · exact h1.modWarp

protected theorem WellKept.leaveLanes {lanes : Word} (h : WellKept s) : ExceptKept (leaveLanes s wid lanes) := by
  unfold Machine.leaveLanes
  split
  · exact h
  · dsimp only
    split
    · exact h.setWarp
    · split
      · trivial
      · have h1 := h.setWarp.refillEntries.ok ‹_›
        split
        · exact h1
        · split
          · exact h1
          · exact h1.setWarp.mrgPacket.spillEntries

end

end Sys2Proof

/-! ## Records, blocks that end, vitrines and locks (Machine/Records.lean) -/

namespace Sys2Proof

open Machine

section

variable {s : State} {wid core ctx gid bn lead key va n : Nat} {bs : List Byte} {sq : Word}

protected theorem WellKept.skipAccess (h : WellKept s) : WellKept (skipAccess s ctx va) := h.errRecord.hostEvent

protected theorem WellKept.devPut (h : WellKept s) : WellKept (s.devPut ctx va bs) := by
  unfold State.devPut
  split
  · exact h.devWrite.some ‹_›
  · exact h.skipAccess

protected theorem WellKept.writeRecord (h : WellKept s) : WellKept (writeRecord s ctx gid) := by
  unfold Machine.writeRecord
  split
  · exact h
  · exact h.devPut

protected theorem WellKept.setGrid {f : Grid → Grid} (h : WellKept s) : WellKept (setGrid s ctx gid f) :=
  h.modGrid.writeRecord

protected theorem WellKept.childDone (h : WellKept s) : WellKept (childDone s ctx gid) := by
  unfold Machine.childDone
  split
  · exact h
  · split
    · exact h
    · exact h.modBlock

protected theorem WellKept.vouchCheck (h : WellKept s) : WellKept (vouchCheck s ctx gid) := by
  unfold Machine.vouchCheck
  split
  · exact h
  · split_ifs
    · exact h
    · exact h.setGrid
    · exact h.setGrid
    · exact h

protected theorem WellKept.gridCheck (h : WellKept s) : WellKept (gridCheck s ctx gid) := by
  unfold Machine.gridCheck
  split
  · exact h
  · split
    · exact h.setGrid.childDone.vouchCheck
    · exact h

protected theorem WellKept.matPacket {sub eng : Nat} {c : MatCmd} (h : WellKept s) :
    WellKept (matPacket s lead sub eng c) := by
  unfold Machine.matPacket
  split
  · exact h
  · exact h.engPacket

protected theorem WellKept.dropMatrix (h : WellKept s) : WellKept (dropMatrix s bn lead) :=
  ((h.foldl fun _ _ h => h.matPacket).foldl fun _ _ h => h.matPacket).modPair

protected theorem WellKept.freeCores {cs : List Nat} (h : WellKept s) : WellKept (freeCores s cs) := h

protected theorem WellKept.drainBlock (h : WellKept s) : WellKept (drainBlock s bn) := by
  unfold Machine.drainBlock
  split
  · exact h
  · exact (h.foldl fun _ _ h => h.flushStores).foldl fun _ _ h => h.landDirty

protected theorem WellKept.leaveCores (h : WellKept s) : WellKept (leaveCores s bn) := by
  unfold Machine.leaveCores
  extract_lets d ws s0
  have h0 : WellKept s0 := h.drainBlock
  split
  · exact h0
  · extract_lets used s1 s2 s3 s4
    have h1 : WellKept s1 := by
      unfold s1
      split
      · exact h0.foldl fun _ _ h => h.dropMatrix.modPair
      · exact h0
    have h2 : WellKept s2 := h1.modGrid
    have h3 : WellKept s3 := h2
    exact (h3.modBlock.foldl fun _ _ h => h.setLossless).freeCores

protected theorem WellKept.dropStores {ks : List Nat} (h : WellKept s) : WellKept (dropStores s ks) := h

protected theorem WellKept.dropVitrine (h : WellKept s) : WellKept (dropVitrine s ctx n) := by
  have h1 : ∀ ks f, WellKept (((dropStores s ks).modMem fun m => m.forget (ks.map fun k => (k / 32, 2048))).modCtx ctx f) :=
    fun _ _ => (h.dropStores.modMem fun _ hm => Mem.wf_forget hm _).modCtx
  unfold Machine.dropVitrine
  dsimp only
  split
  · exact (h1 _ _).modBlock
  · exact h1 _ _

protected theorem WellKept.dropVitrines {leak : Bool} (h : WellKept s) : WellKept (dropVitrines s ctx bn core leak) := by
  refine h.foldl fun s i h => ?_
  dsimp only
  split
  · exact h.dropVitrine.count
  · exact h.dropVitrine

protected theorem WellKept.finishWait {d : Opd} (h : WellKept s) : WellKept (finishWait s wid d n) := h.modWarp

protected theorem WellKept.putWord8 (h : WellKept s) : WellKept (putWord8 s ctx key n) := h.put

protected theorem WellKept.releaseLock {abandoned : Bool} (h : WellKept s) : WellKept (releaseLock s bn key abandoned) := by
  have h0 : ∀ f g, WellKept ((s.modBlock bn f).modWarpsOf bn g) := fun _ _ => h.modBlock.modWarpsOf
  unfold Machine.releaseLock
  extract_lets ctx s0 ws
  split
  · split
    · exact (h0 _ _).putWord8
    · exact (h0 _ _).putWord8.setBlock.finishWait.acquireAt.modWarp
  · exact (h0 _ _).putWord8

protected theorem WellKept.abandonLocks (h : WellKept s) : WellKept (abandonLocks s bn) := by
  unfold Machine.abandonLocks
  split
  · exact h
  · split
    · exact h
    · exact h.drainBlock.foldl fun _ _ h => h.releaseLock

protected theorem WellKept.settleBarriers (h : WellKept s) : WellKept (settleBarriers s bn) := h.modBlock

protected theorem WellKept.settleGbar (h : WellKept s) : WellKept (settleGbar s ctx gid) := by
  unfold Machine.settleGbar
  split
  · exact h
  · split
    · exact h.modGrid
    · exact h

protected theorem WellKept.givePages (h : WellKept s) : WellKept (givePages s bn) := by
  unfold Machine.givePages
  split
  · exact h
  · extract_lets ps
    split
    · exact h.modBlock
    · exact h.modBlock.modCtx

protected theorem WellKept.blockEnded (h : WellKept s) : WellKept (blockEnded s bn) := by
  unfold Machine.blockEnded
  split
  · exact h
  · split
    · exact h.givePages.leaveCores.modBlock
    · dsimp only
      split
      · exact h.abandonLocks.count.givePages.leaveCores.modBlock
      · exact h.abandonLocks.givePages.leaveCores.modBlock

protected theorem WellKept.retireVits (h : WellKept s) : WellKept (retireVits s bn) := by
  unfold Machine.retireVits
  split
  · exact h
  · exact h.dropVitrines

protected theorem WellKept.retireBlock (h : WellKept s) : WellKept (retireBlock s bn) := by
  unfold Machine.retireBlock
  extract_lets d s1
  have hd : WellKept d := h.retireVits
  have h1 : WellKept s1 := hd
  split
  · exact hd
  · extract_lets s2
    have h2 : WellKept s2 := h1.modGrid
    exact h2.settleGbar.gridCheck

end

end Sys2Proof

/-! ## Gangs, kills, provisional blocks (Machine/Gang.lean) -/

namespace Sys2Proof

open Machine

section

variable {s : State} {wid core ctx gid bn n : Nat} {b : Block}

protected theorem WellKept.resumeCopies (h : WellKept s) : WellKept (resumeCopies s wid) := by
  unfold Machine.resumeCopies
  split
  · exact h
  · exact h.modCore.modBlock

protected theorem WellKept.wakeFault (h : WellKept s) : WellKept (wakeFault s wid) := by
  unfold Machine.wakeFault
  split
  · exact h.modWarp.resumeCopies
  · exact h.modWarp
  · exact h

protected theorem WellKept.freeEntry (h : WellKept s) : WellKept (freeEntry s n) := by
  unfold Machine.freeEntry
  split
  · exact h
  · exact h.modDev.foldl fun _ _ h => h.wakeFault

protected theorem WellKept.wakeOverflow (h : WellKept s) : WellKept (wakeOverflow s ctx) := by
  unfold Machine.wakeOverflow
  split
  · exact h
  · exact h.modCtx.foldl fun _ _ h => h.wakeFault

protected theorem WellKept.forgetWarp (h : WellKept s) : WellKept (forgetWarp s wid) :=
  (h.modDev.foldl fun _ _ h => h.freeEntry).modCtx

protected theorem WellKept.forgetBlock (h : WellKept s) : WellKept (forgetBlock s bn) := h.foldl fun _ _ h => h.forgetWarp

protected theorem WellKept.dropWaits (h : WellKept s) : WellKept (dropWaits s bn) := h.forgetBlock.modWarpsOf

protected theorem WellKept.killEffects (h : WellKept s) : WellKept (killEffects s bn) := by
  unfold Machine.killEffects
  split
  · exact h
  · dsimp only
    split
    · exact ((h.foldl fun _ _ h => h.stopCopies).drainBlock.dropVitrines.abandonLocks).count
    · exact (h.foldl fun _ _ h => h.stopCopies).drainBlock.dropVitrines.abandonLocks

protected theorem WellKept.removeBlock (h : WellKept s) : WellKept (removeBlock s bn) := h.givePages.leaveCores

protected theorem WellKept.markKilled (h : WellKept s) : WellKept (markKilled s ctx gid) := by
  unfold Machine.markKilled
  split
  · exact h
  · split
    · exact h
    · exact h.setGrid.childDone

/-- A kill and those of the child grids below it, as deep as the fuel goes. -/
protected theorem WellKept.killBlocks {bs : List Nat} (h : WellKept s) : WellKept (killBlocks n bs s) := by
  induction n generalizing s bs with
  | zero => exact h
  | succ n ih =>
    unfold Machine.killBlocks
    refine (h.foldl fun _ _ h => h.dropWaits).foldl fun s bn h => ?_
    split
    · exact h
    · refine WellKept.removeBlock (WellKept.modGrid (h.killEffects.foldl fun s c h => ?_))
      split
      · exact (ih h).markKilled
      · exact h

protected theorem WellKept.killGrid (h : WellKept s) : WellKept (killGrid s ctx gid) := h.killBlocks.markKilled

protected theorem WellKept.killGang (h : WellKept s) : WellKept (killGang s bn) := by
  unfold Machine.killGang
  split
  · exact h
  · split
    · exact h.removeBlock
    · dsimp only
      split_ifs
      · exact h.killBlocks.modGrid.modGrid.hostEvent
      · exact h.killBlocks.modGrid.modGrid
      · exact h.killBlocks.modGrid.modGrid.gridCheck

protected theorem WellKept.commitSector (h : WellKept s) : WellKept (commitSector b s n) := by
  unfold Machine.commitSector
  split
  · exact h.lostStore
  · refine (h.putBy fun m hm => ?_).foldl fun _ _ h => h.modCore
    have h1 : (((List.range 32).foldl (fun m i =>
        match alook (32 * n + i) b.plines with
        | some x => m.setBytesUnder (s.keyId b.ctx) s.free (32 * n + i) [x]
        | none => m) m)).wf := Mem.wf_foldl hm fun m i hm => by
      split
      · exact Mem.wf_setBytesUnder hm _ _ _ _
      · exact hm
    dsimp only
    split_ifs
    · exact h1
    · exact h1
    · exact h1

protected theorem WellKept.commitLines (h : WellKept s) : WellKept (commitLines s b) := h.foldl fun _ _ h => h.commitSector

protected theorem WellKept.confirmBlock (h : WellKept s) : WellKept (confirmBlock s bn) := by
  unfold Machine.confirmBlock
  split
  · exact h
  · split
    · exact h
    · dsimp only
      split
      · exact h.commitLines.setBlock.modWarpsOf.retireBlock
      · exact h.commitLines.setBlock.modWarpsOf

protected theorem WellKept.discardBlock (h : WellKept s) : WellKept (discardBlock s bn) := by
  unfold Machine.discardBlock
  split
  · exact h
  · exact (h.foldl fun _ _ h => h.stopCopies).dropVitrines.forgetBlock.removeBlock

protected theorem WellKept.trimBlock (h : WellKept s) : WellKept (trimBlock s bn) := by
  unfold Machine.trimBlock
  split
  · exact h
  · exact h.provPacket.discardBlock

protected theorem WellKept.evictGang {pre out : Bool} (h : WellKept s) : WellKept (evictGang s bn pre out) := by
  unfold Machine.evictGang
  split
  · exact h
  · refine h.foldl fun s m h => ?_
    split
    · exact h
    · split
      · exact h.discardBlock.modGrid.countR
      · exact h

end

end Sys2Proof
/-! ## Cells, traps and the issue of a word (Machine/Cells.lean, Ops.lean, Stop.lean) -/

namespace Sys2Proof

open Machine

section

variable {s : State} {wid core ctx gid bn slot n m page : Nat} {w : Warp} {r : TrapRec} {t : TrapReq} {it : Iss} {i : Instr}
  {e : Option Nat}

protected theorem WellKept.annexFault (h : WellKept s) : WellKept (annexFault s wid n) := h.modWarp

protected theorem WellKept.spillCell (h : WellKept s) : OptionKept (spillCell s wid n) := by
  unfold Machine.spillCell
  split
  · trivial
  · exact h.devWrite.map fun _ h => h.modWarp

protected theorem WellKept.spillSome {tried : List (Nat × Nat)} {pick : State → List (Nat × Nat)} (h : WellKept s) :
    WellKept (spillSome m tried pick n s) := by
  induction m generalizing s tried n with
  | zero => exact h
  | succ m ih =>
    cases n with
    | zero => exact h
    | succ n =>
      unfold Machine.spillSome
      split
      · exact h
      · split
        · exact ih (h.spillCell.some ‹_›)
        · exact ih h.annexFault

protected theorem WellKept.spillFor (h : WellKept s) : WellKept (spillFor s core wid n) := h.spillSome

protected theorem WellKept.makeRoom (h : WellKept s) : WellKept (makeRoom s core wid n) := by
  unfold Machine.makeRoom
  split
  · exact h
  · exact h.spillFor

protected theorem WellKept.flogAppend (h : WellKept s) : WellKept (flogAppend s ctx r) := by
  unfold Machine.flogAppend
  dsimp only
  split
  · exact h.skipAccess
  · exact h.devPut.devPut

protected theorem WellKept.faultPacket {entered : Bool} (h : WellKept s) : WellKept (faultPacket s wid r entered) := by
  unfold Machine.faultPacket
  split
  · exact h
  · exact h.warpPacket

protected theorem WellKept.haltPackets (h : WellKept s) : WellKept (haltPackets s ctx e) := by
  refine h.foldl fun s e h => ?_
  split
  · exact h.faultPacket
  · exact h

protected theorem WellKept.haltCtx (h : WellKept s) : WellKept (haltCtx s ctx) := h

protected theorem WellKept.startDump {tr : Option TrapRec} (h : WellKept s) : WellKept (startDump s ctx tr e) := h.haltCtx.modCtx

protected theorem WellKept.fatalNow (h : WellKept s) : WellKept (fatalNow s wid r) := by
  unfold Machine.fatalNow
  extract_lets ctx s1
  have h1 : WellKept s1 := h.flogAppend.hostEvent.faultPacket
  split
  · exact h1.killGang
  · split
    · exact h1.modWarp
    · split
      · exact h1.modWarp.startDump
      · exact h1.killGang

protected theorem WellKept.fatalTrap (h : WellKept s) : WellKept (fatalTrap s wid r) := by
  unfold Machine.fatalTrap
  split
  · split
    · exact h.modWarp
    · exact h.fatalNow
  · exact h

protected theorem WellKept.orphanFault (h : WellKept s) : WellKept (orphanFault s bn r) := by
  unfold Machine.orphanFault
  split
  · exact h
  · extract_lets s1
    have h1 : WellKept s1 := h.flogAppend.hostEvent
    split
    · exact h1.killGang
    · split_ifs
      · exact h1.modBlock
      · exact h1.startDump
      · exact h1.killGang

protected theorem WellKept.orphanTrap (h : WellKept s) : WellKept (orphanTrap s bn r) := by
  unfold Machine.orphanTrap
  split
  · split
    · exact h.modBlock
    · exact h.orphanFault
  · exact h

protected theorem WellKept.deliverOrphans (h : WellKept s) : WellKept (deliverOrphans s bn) := by
  unfold Machine.deliverOrphans
  split
  · split
    · split
      · exact h
      · exact h.modBlock.orphanFault
    · exact h
  · exact h

protected theorem WellKept.parkOn (h : WellKept s) : WellKept (parkOn s wid e) := by
  unfold Machine.parkOn
  dsimp only
  split
  · exact h.modWarp.modDev
  · exact h.modWarp.modCtx

protected theorem WellKept.newEntry {st : WtState} (h : WellKept s) : WellKept (newEntry s n ctx page st) := by
  unfold Machine.newEntry
  dsimp only
  split
  · exact h.modDev.modDev
  · exact h.modDev

protected theorem WellKept.countConflict (h : WellKept s) : WellKept (countConflict s ctx page) := h.modDev

protected theorem WellKept.hostPark (h : WellKept s) : WellKept (hostPark s wid e r n) := by
  unfold Machine.hostPark
  extract_lets ctx s1
  have h1 : WellKept s1 := by
    unfold s1
    split
    · exact h.modDev
    · exact h
  exact h1.parkOn.flogAppend.hostEvent

protected theorem WellKept.enterHandler (h : WellKept s) : OptionKept (enterHandler s wid w t e) := by
  unfold Machine.enterHandler
  dsimp only
  split
  · trivial
  · exact (h.devWrite.some ‹_›).setWarp.faultPacket

protected theorem WellKept.doubleTrap {c : Cause} (h : WellKept s) : WellKept (doubleTrap s wid w t c) := h.fatalTrap

/-- A conflict on a claimed page is counted. -/
theorem WellKept.conflictIf {c : Bool} (h : WellKept s) : WellKept (if c then countConflict s ctx page else s) := by
  split
  · exact h.countConflict
  · exact h

protected theorem WellKept.handledTrap (h : WellKept s) : WellKept (handledTrap s wid w t) := by
  unfold Machine.handledTrap
  extract_lets ctx cfg page host setRpt
  have repeated : ∀ s, WellKept s → WellKept (setRpt s) := fun _ h => h.modWarp
  split
  · exact (repeated _ h).parkOn
  · split
    · split
      · exact h.fatalTrap
      · split
        · exact (repeated _ h.conflictIf.newEntry).faultPacket.hostPark
        · exact (repeated _ h).faultPacket.hostPark
    · split
      · split
        · exact h.conflictIf.newEntry.enterHandler.some ‹_›
        · exact h.doubleTrap
      · split
        · exact h.enterHandler.some ‹_›
        · exact h.doubleTrap

protected theorem WellKept.debugTrap (h : WellKept s) : WellKept (debugTrap s wid w t) := by
  unfold Machine.debugTrap
  dsimp only
  split_ifs
  · exact h.faultPacket.haltPackets.haltCtx.hostEvent
  · exact h.faultPacket.haltCtx.hostEvent
  · exact h.fatalNow

protected theorem WellKept.countWalk {c : Cause} (h : WellKept s) : WellKept (countWalk s core c n) := by
  unfold Machine.countWalk
  split
  · exact h.count
  · exact h

protected theorem WellKept.takeTrap (h : WellKept s) : WellKept (takeTrap s wid t) := by
  unfold Machine.takeTrap
  extract_lets d
  have hd : WellKept d := h.flushStores
  split
  · exact hd
  · extract_lets w s1 s2
    have h2 : WellKept s2 := by
      unfold s2
      split
      · exact hd.setWarp
      · exact hd.setWarp.countWalk
    split
    · split
      · exact h2.debugTrap
      · exact h2.doubleTrap
    · split
      · exact h2.handledTrap
      · exact h2.debugTrap
      · exact h2.fatalTrap

protected theorem WellKept.releaseHandling (h : WellKept s) : WellKept (releaseHandling s wid) :=
  h.foldl fun _ _ h => h.freeEntry

protected theorem WellKept.returnFromHandler (h : WellKept s) : WellKept (returnFromHandler s wid) := by
  unfold Machine.returnFromHandler
  split
  · exact h
  · split
    · exact h
    · extract_lets w1 w2 w3 s1
      have h1 : WellKept s1 := h.setWarp.releaseHandling
      split
      · exact h1.resumeCopies
      · exact h1

protected theorem WellKept.parkFromHandler (h : WellKept s) : WellKept (parkFromHandler s wid n) := by
  unfold Machine.parkFromHandler
  split
  · exact h
  · split
    · exact h
    · exact h.setWarp.hostPark

protected theorem WellKept.parkWait {x : Wait} (h : WellKept s) : WellKept (parkWait s wid x) := h.modWarp

protected theorem WellKept.raise {c : Cause} {lanes : Word} (h : WellKept s) : WellKept (raise it s c n lanes m) := h.takeTrap

protected theorem WellKept.noteStall (h : WellKept s) : WellKept (noteStall s wid core w e) :=
  h.setWarp.foldl fun _ _ h => h.count

protected theorem WellKept.agree (h : WellKept s) : WellKept (agree s core wid) := by
  unfold Machine.agree
  split
  · exact h.modCore
  · exact h

protected theorem WellKept.issued (h : WellKept s) : WellKept (issued i s wid core w) := by
  unfold Machine.issued
  extract_lets s1 s2 s3
  have h2 : WellKept s2 := by
    unfold s2
    split
    · exact h.modWarp.count
    · exact h.modWarp
  have h3 : WellKept s3 := by
    unfold s3
    split
    · exact h2
    · exact h2.agree
  split
  · exact h3.count
  · exact h3

protected theorem WellKept.started (h : WellKept s) : WellKept (started i s wid core w) := by
  unfold Machine.started
  dsimp only
  split
  · exact h.issued
  · exact h.issued.flushPath

/-- A word that comes to its turn: it traps, waits, or takes its own effect. -/
protected theorem WellKept.issueOn {body : Iss → State → State} (h : WellKept s)
    (hb : ∀ it s, WellKept s → WellKept (body it s)) : WellKept (issueOn i s wid core slot w body) := by
  unfold Machine.issueOn
  split
  · exact h.takeTrap
  · split
    · exact h.noteStall
    · extract_lets prov r
      have hr : WellKept r := h.makeRoom
      split
      · exact h
      · split
        · split
          · exact h.takeTrap
          · exact h
        · split_ifs
          · exact h.parkWait
          · exact h.noteStall
          · exact h
          · exact hr.noteStall
          · exact hr
          · exact hb _ _ hr.started

protected theorem WellKept.issue {body : Iss → State → State} (h : WellKept s)
    (hb : ∀ it s, WellKept s → WellKept (body it s)) : OutcomeKept (issue i s body) := by
  unfold Machine.issue
  split
  · trivial
  · split
    · trivial
    · split
      · trivial
      · exact h.issueOn hb

protected theorem WellKept.commit {f : Warp → Warp} (h : WellKept s) : WellKept (commit it s f) := h.modWarp

protected theorem WellKept.pendLong {kind : PendKind} {vw : List (Nat × Nat × PWord)} {sw : List (Nat × PWord)}
    {src : List LoadSrc} (h : WellKept s) : WellKept (pendLong it s kind vw sw src) := h.commit

protected theorem WellKept.orRefill {x : Except Nat State} (h : WellKept s) (hx : ExceptKept x) :
    WellKept (orRefill it s x) := by
  unfold Machine.orRefill
  split
  · exact hx
  · exact h.takeTrap

protected theorem WellKept.deliver (h : WellKept s) : OptionKept (deliver s wid w) := by
  unfold Machine.deliver
  split
  · extract_lets prov r1
    split
    · trivial
    · exact h.setWarp.fatalNow
  · split
    · trivial
    · split
      · trivial
      · exact h.setWarp.takeTrap

protected theorem WellKept.endNaps (h : WellKept s) : WellKept (endNaps s bn) := h.foldl fun _ _ h => h.setWarp

protected theorem WellKept.touchCat (h : WellKept s) : WellKept (touchCat s wid) := by
  unfold Machine.touchCat
  split
  · exact h.devTouch
  · exact h

protected theorem WellKept.stopWarp {x : StopNote} (h : WellKept s) : WellKept (stopWarp s core wid w x) := by
  unfold Machine.stopWarp
  extract_lets s0 s1
  have h0 : WellKept s0 := by
    unfold s0
    split
    · exact h.touchCat
    · exact h
  have h1 : WellKept s1 := by
    unfold s1
    split
    · exact h0.count
    · exact h0
  exact h1.setWarp

end

end Sys2Proof

/-! ## The turn of a warp (Machine/Turn.lean) -/

namespace Sys2Proof

open Machine

section

variable {s : State} {wid core ctx slot n m : Nat} {w : Warp} {cl : Clause}

protected theorem WellKept.bindPort (h : WellKept s) : OptionKept (bindPort s core wid w) := by
  unfold Machine.bindPort
  split
  · exact h
  · trivial
  · split
    · exact h
    · split
      · trivial
      · dsimp only
        split
        · exact h.modWarp
        · split
          · split
            · exact h.modWarp.modWarp
            · trivial
          · trivial

protected theorem WellKept.pathTrap {c : Cause} (h : WellKept s) : WellKept (pathTrap s wid w c n m) := h.takeTrap

protected theorem WellKept.fetchedPage (h : WellKept s) : WellKept (fetchedPage s ctx n) := by
  unfold Machine.fetchedPage
  split
  · exact h.used.takeFree
  · exact h

protected theorem WellKept.fetched (h : WellKept s) : WellKept (fetched s ctx cl) := by
  unfold Machine.fetched
  dsimp only
  split
  · exact h.fetchedPage
  · exact h.fetchedPage.fetchedPage

protected theorem WellKept.fetchTrap {f : Flt} (h : WellKept s) : WellKept (fetchTrap s wid w f n) := by
  unfold Machine.fetchTrap
  dsimp only
  split
  · exact h.walked.count.pathTrap
  · exact h.walked.pathTrap

/-- The trap of a clause that cannot be fetched. -/
protected theorem WellKept.fetchClause {t : State} (h : WellKept s) (e : fetchClause s wid w n = .error t) : WellKept t := by
  unfold Machine.fetchClause at e
  dsimp only at e
  split at e
  · cases e
    exact h.fetchTrap
  · split at e
    · cases e
      exact h.pathTrap
    · cases e
      exact h.pathTrap
    · split at e
      · cases e
        exact h.fetchTrap
      · cases e

/-- The paths of a warp at a clause header: refilled, merged, switched, spilled. -/
theorem WellKept.atHeader {pc : DWord} {fchk fair : Bool} (h : WellKept s) :
    ExceptKept ((refillAt s wid pc).bind fun s => (if fchk then mergeStep s wid else .ok s).bind fun s =>
      (if fair then .ok s else switchStep s wid).bind fun s => spillEntries n s wid) := by
  refine h.refillAt.bind fun _ h => h.mergeIf.bind fun s h => ExceptKept.bind ?_ fun _ h => h.spillEntries
  split
  · exact h
  · exact h.switchStep

protected theorem WellKept.dispatchClause (h : WellKept s) : WellKept (dispatchClause s wid core w) := by
  unfold Machine.dispatchClause
  dsimp only
  split
  · exact h.pathTrap
  · split
    · exact h.fetchClause ‹_›
    · split
      · exact h.takeTrap
      · have h1 := h.atHeader.ok ‹_›
        split
        · exact h1
        · split
          · exact h1
          · split
            · exact h1
            · split
              · exact h1
              · exact (h1.bindPort.some ‹_›).fetched.modWarp

protected theorem WellKept.refetch (h : WellKept s) : WellKept (refetch s wid w) := by
  unfold Machine.refetch
  split
  · exact h.fetchClause ‹_›
  · split
    · exact h.setWarp
    · exact h.fetched.modWarp

protected theorem WellKept.wordReady (h : WellKept s) : ReadyKept (wordReady s wid core w cl) := by
  unfold Machine.wordReady
  split
  · exact h.pathTrap
  · dsimp only
    split
    · exact h.pathTrap
    · exact h.pathTrap
    · exact h.pathTrap
    · split
      · exact h
      · have h1 := h.bindPort.some ‹_›
        exact h1

protected theorem WellKept.midClause (h : WellKept s) : ReadyKept (midClause s wid core w) := by
  unfold Machine.midClause
  split
  · exact h.wordReady
  · extract_lets s1
    have h1 : WellKept s1 := h.refetch
    split
    · exact h1
    · split
      · split
        · exact h1.wordReady
        · exact h1
      · exact h1

protected theorem WellKept.frontTurn (h : WellKept s) : WellKept (frontTurn s wid w) := by
  unfold Machine.frontTurn
  split
  · exact (h.mergeSwitch.ok ‹_›).modWarp
  · exact h.takeTrap

protected theorem WellKept.warpTurn (h : WellKept s) : ReadyKept (warpTurn s core slot) := by
  unfold Machine.warpTurn
  split
  · exact h
  · split
    · exact h
    · rename_i wid _ _ w _
      have delivered : OptionKept (if w.halted || w.stop.isSome then none else deliver s wid w) := by
        split
        · trivial
        · exact h.deliver
      split
      · exact h.stopWarp
      · exact delivered.some ‹_›
      · split_ifs
        · exact h
        · exact h.frontTurn
        · exact h.dispatchClause
        · exact h.midClause

end

end Sys2Proof

/-! ## Words that compute a value (Machine/Values.lean, Integer.lean, Uniform.lean, Bits.lean, Lanes.lean, FloatOps.lean) -/

namespace Sys2Proof

open Machine

section

variable {s : State} {it : Iss} {o : Opnds} {t ta tb tc td : Ty}

protected theorem WellKept.value {f : Nat → PV} (h : WellKept s) : WellKept (value it s t f) := h.commit

protected theorem WellKept.value1 {f : Nat → Nat} (h : WellKept s) : WellKept (value1 it s ta td f) := h.value

protected theorem WellKept.value2 {f : Nat → Nat → Nat} (h : WellKept s) : WellKept (value2 it s ta tb td f) := h.value

protected theorem WellKept.value3 {f : Nat → Nat → Nat → Nat} (h : WellKept s) : WellKept (value3 it s ta tb tc td f) :=
  h.value

protected theorem WellKept.valueW {f : Nat → Nat → PV} (h : WellKept s) : WellKept (valueW it s f) := h.commit

protected theorem WellKept.valueP {v : Nat → Nat} {p : Nat → Nat → Bool} (h : WellKept s) : WellKept (valueP it s v p) :=
  h.valueW

protected theorem WellKept.predicate {pois f : Nat → Bool} (h : WellKept s) : WellKept (predicate it s pois f) := by
  unfold Machine.predicate
  split
  · exact h.raise
  · exact h.commit

protected theorem WellKept.fvalue {f : Nat → FOut} (h : WellKept s) : WellKept (fvalue it s t f) := h.commit

protected theorem WellKept.float1 {f : Fmt → Nat → FRes} (h : WellKept s) : WellKept (float1 it s f) := h.fvalue

protected theorem WellKept.float2 {f : Fmt → Nat → Nat → FRes} (h : WellKept s) : WellKept (float2 it s f) := h.fvalue

protected theorem WellKept.packed {f : Fmt → Nat → Nat → Nat → FRes} (h : WellKept s) : WellKept (packed it s f) := h.fvalue

protected theorem WellKept.execV2p {mask : BitVec 7} (h : WellKept s) : OutcomeKept (execV2p o mask s) := by
  refine h.issue fun it s h => ?_
  dsimp only
  split
  · exact h.raise
  · exact h.commit

protected theorem WellKept.execXlane {mode : XMode} (h : WellKept s) : OutcomeKept (execXlane o mode s) := by
  refine h.issue fun it s h => ?_
  dsimp only
  split
  · exact h.raise
  · exact h.valueW

protected theorem WellKept.execFsetp {cmp : FCmp} {comb : Comb} (h : WellKept s) : OutcomeKept (execFsetp o cmp comb s) := by
  refine h.issue fun it s h => ?_
  dsimp only
  split
  · exact h.raise
  · exact h.commit

end

end Sys2Proof
/-! ## Loads, stores and cache control (Machine/Memory.lean) -/

namespace Sys2Proof

open Machine

section

variable {s k : State} {core bn n : Nat} {it : Iss} {ea : Nat → PV} {ok : List (Nat × Tgt)} {later : Option (Flt × Word × Nat)}

protected theorem WellKept.walkLanes {α : Type} {cs : List (LaneChk α)} (h : WellKept s) : WellKept (walkLanes it s n cs) := by
  unfold Machine.walkLanes
  split
  · exact h.foldl fun _ _ h => h.walked
  · exact h

/-- The checks of an access: a fatal fault is raised, and else the word goes on. -/
protected theorem WellKept.checked {α : Type} {cs : List (LaneChk α)} {k : Checked α → State} (h : WellKept s)
    (hk : ∀ r, WellKept (k r)) : WellKept (checked it s cs k) := by
  unfold Machine.checked
  split
  · exact h.walkLanes.raise
  · exact hk _

protected theorem WellKept.watchFirst {scratch read write : Bool} (h : WellKept s) (hk : WellKept k) :
    WellKept (watchFirst it s scratch read write ea n k) := by
  unfold Machine.watchFirst
  split
  · exact h
  · dsimp only
    split
    · exact h.raise
    · exact hk

protected theorem WellKept.raiseLater (h : WellKept s) : WellKept (raiseLater it s later) := by
  unfold Machine.raiseLater
  split
  · exact h
  · exact h.raise

protected theorem WellKept.orReject (h : WellKept s) (hk : WellKept k) : WellKept (orReject it s n k) := by
  unfold Machine.orReject
  split
  · exact hk
  · exact h.count.modWarp

protected theorem WellKept.loadEnd {kind : PendKind} {vw : List (Nat × Nat × PWord)} {src : List LoadSrc} {done : Bool}
    (h : WellKept s) : WellKept (loadEnd it s kind vw src done later) := by
  unfold Machine.loadEnd
  split
  · exact h.pendLong
  · dsimp only
    split
    · exact h.modWarp.raiseLater
    · exact h.raiseLater

protected theorem WellKept.usedLanes (h : WellKept s) : WellKept (usedLanes it s ea ok) :=
  (h.foldl fun _ _ h => h.used).takeFree

protected theorem WellKept.sighted {xs : List (Nat × Nat × Sight)} (h : WellKept s) : WellKept (sighted it s xs) := by
  unfold Machine.sighted
  split
  · exact h
  · dsimp only
    split
    · exact h.modWarp
    · exact (h.foldl fun _ _ h => h.modCore).modWarp

protected theorem WellKept.settleLanes (h : WellKept s) : WellKept (settleLanes it s ok n) := h.foldl fun _ _ h => h.settle

protected theorem WellKept.lastUse {cache : CacheHint} (h : WellKept s) : WellKept (lastUse it s cache ok) := by
  unfold Machine.lastUse
  split
  · exact h.foldl fun _ _ h => h.landDirty.modCore
  · exact h

protected theorem WellKept.acquired {ord : LdOrd} {sc : Scope} (h : WellKept s) : WellKept (acquired it s ord sc) := by
  unfold Machine.acquired
  split
  · exact h.acquireAt
  · exact h

protected theorem WellKept.globalLoad {w : MemW} {vs spec : Bool} {ord : LdOrd} {sc : Scope} {cache : CacheHint}
    {after : State → List (Nat × Tgt) → State} (h : WellKept s) (ha : ∀ s ok, WellKept s → WellKept (after s ok)) :
    WellKept (globalLoad it s w vs ea ord sc cache spec after) := by
  refine h.checked fun r => ?_
  have hs : WellKept (settleLanes it s r.ok (memBytes w)) := h.settleLanes
  dsimp only
  split
  · exact hs.raise
  · exact hs.watchFirst (hs.orReject (ha _ _ hs.usedLanes).modWarp.sighted.lastUse.loadEnd.acquired)

protected theorem WellKept.settleGranules {gs : List Nat} (h : WellKept s) : WellKept (settleGranules it s gs) := h.landDirty

protected theorem WellKept.quotaEvict (h : WellKept s) : WellKept (quotaEvict s bn) := by
  unfold Machine.quotaEvict
  split
  · exact h.evictGang
  · exact h

protected theorem WellKept.orQuota {keys : List (Nat × Nat)} (h : WellKept s) (hk : WellKept k) :
    WellKept (orQuota it s keys k) := by
  unfold Machine.orQuota
  split
  · exact h
  · split
    · exact hk
    · exact h.parkWait.quotaEvict

protected theorem WellKept.storeEnd (h : WellKept s) : WellKept (storeEnd it s later) := by
  unfold Machine.storeEnd
  split
  · exact h.commit
  · exact h.raiseLater

protected theorem WellKept.laneStore {rel : Bool} {t : Tgt} {ps : List Part} (h : WellKept s) :
    WellKept (laneStore it s rel n t ps) := by
  unfold Machine.laneStore
  dsimp only
  split
  · exact h
  · split
    · exact h.storeGlobal
    · exact h.modWarp

protected theorem WellKept.released {ord : StOrd} {sc : Scope} (h : WellKept s) : WellKept (released it s ord sc) := by
  unfold Machine.released
  split
  · exact h.releaseAt
  · exact h

protected theorem WellKept.partStore {rel : Bool} {p : Option Nat × Nat} {d : Part} (h : WellKept s) :
    WellKept (partStore it rel p s d) := by
  unfold Machine.partStore
  split
  · exact h
  · dsimp only
    split
    · exact h.land
    · exact h.modWarp

protected theorem WellKept.stcLane {acc : State × List (Nat × Nat)} {x : Nat × Tgt} (h : WellKept acc.1) :
    WellKept (stcLane it n acc x).1 := by
  unfold Machine.stcLane
  extract_lets d held bs s1
  have h1 : WellKept s1 := by
    unfold s1
    split
    · exact h.settle.storeGlobal.clearResv
    · exact h.settle
  exact h1.modWarp

protected theorem WellKept.walkAll {ls : List Nat} (h : WellKept s) : WellKept (walkAll it s ea ls) :=
  (h.foldl fun _ _ h => h.walked).takeFree

protected theorem WellKept.cctlLine {inv : Bool} (h : WellKept s) : WellKept (cctlLine core inv s n) := by
  unfold Machine.cctlLine
  dsimp only
  split
  · exact h.landDirty.modCore
  · exact h.landDirty

protected theorem WellKept.execLd {o : Opnds} {w : MemW} {ord : LdOrd} {sc : Scope} {cache : CacheHint} {vs ixs : Bool}
    (h : WellKept s) : OutcomeKept (execLd o w ord sc cache vs ixs s) :=
  h.issue fun _ _ h => h.globalLoad fun _ _ h => h

protected theorem WellKept.execLdr {o : Opnds} {w : MemW} {ord : LdOrd} {sc : Scope} {ixs : Bool} (h : WellKept s) :
    OutcomeKept (execLdr o w ord sc ixs s) :=
  h.issue fun _ _ h => h.globalLoad fun _ _ h => h.settleGranules.modWarp

protected theorem WellKept.execSt {o : Opnds} {w : MemW} {ord : StOrd} {sc : Scope} {cache : CacheHint} {ixs : Bool}
    (h : WellKept s) : OutcomeKept (execSt o w ord sc cache ixs s) :=
  h.issue fun _ _ h => h.checked fun _ => h.watchFirst (h.orQuota (h.orReject
    (h.modWarp.released.foldl fun _ _ h => h.laneStore).usedLanes.lastUse.storeEnd))

protected theorem WellKept.execLds {o : Opnds} {w : MemW} {ord : LdOrd} {sc : Scope} (h : WellKept s) :
    OutcomeKept (execLds o w ord sc s) :=
  h.issue fun _ _ h => h.checked fun _ => h.watchFirst
    (h.foldl fun _ _ h => h.settleScr).takeFree.sighted.pendLong.acquired

protected theorem WellKept.execSts {o : Opnds} {w : MemW} {ord : StOrd} {sc : Scope} (h : WellKept s) :
    OutcomeKept (execSts o w ord sc s) :=
  h.issue fun _ _ h => h.checked fun _ => h.watchFirst
    (h.released.foldl fun _ _ h => h.foldl fun _ _ h => h.partStore).commit

protected theorem WellKept.execLdc {o : Opnds} {w : MemW} {bank : Fin 16} (h : WellKept s) :
    OutcomeKept (execLdc o w bank s) := by
  refine h.issue fun it s h => ?_
  split
  · exact h.commit
  · exact h.checked fun _ => h.orReject h.takeFree.modWarp.pendLong

protected theorem WellKept.execStc {o : Opnds} {w : MemW} {ord : StOrd} {sc : Scope} {ixs : Bool} (h : WellKept s) :
    OutcomeKept (execStc o w ord sc ixs s) := by
  refine h.issue fun it s h => h.checked fun r => h.watchFirst (h.orReject ?_)
  have h1 : WellKept (usedLanes it (r.ok.foldl (stcLane it (memBytes w))
      (released it (s.modWarp it.wid Warp.unmiss) ord sc, [])).1 (it.ea ixs) r.ok) :=
    (WellKept.foldl_fst h.modWarp.released fun _ _ h => h.stcLane).usedLanes
  dsimp only
  split
  · exact h1.commit
  · exact h1.modWarp.raiseLater

protected theorem WellKept.execPref {o : Opnds} {level : PrefLevel} {ixs : Bool} (h : WellKept s) :
    OutcomeKept (execPref o level ixs s) := h.issue fun _ _ h => h.walkAll.commit

protected theorem WellKept.execCctl {o : Opnds} {opr : CctlOp} {ixs : Bool} (h : WellKept s) :
    OutcomeKept (execCctl o opr ixs s) := by
  refine h.issue fun it s h => ?_
  have lines : ∀ inv, WellKept (checked it s (it.lanes.map fun l => chkCctl it s ixs l) fun r =>
      storeEnd it (walkAll it ((r.ok.filterMap Prod.snd).foldl (cctlLine it.core inv) s) (it.ea ixs) (r.ok.map Prod.fst))
        r.later) :=
    fun _ => h.checked fun _ => (h.foldl fun _ _ h => h.cctlLine).walkAll.storeEnd
  cases opr with
  | wball =>
    refine WellKept.commit ?_
    split
    · exact h
    · exact h.landDirty
  | wbinvall =>
    refine WellKept.commit ?_
    split
    · exact h
    · exact h.landDirty.modCore
  | wb => exact lines _
  | wbinv => exact lines _

protected theorem WellKept.execIcinv {o : Opnds} (h : WellKept s) : OutcomeKept (execIcinv o s) := by
  refine h.issue fun it s h => ?_
  split
  · exact h.commit
  · exact h.landDirty.modWarp

protected theorem WellKept.execSld {o : Opnds} {w : SldW} {ord : LdOrd} {sc : Scope} (h : WellKept s) :
    OutcomeKept (execSld o w ord sc s) := by
  refine h.issue fun it s h => ?_
  dsimp only
  split
  · exact h.raise
  · exact h.raise
  · exact h.commit
  · split
    · exact h.settle.raise
    · exact h.settle.watchFirst (h.settle.orReject h.settle.usedLanes.modWarp.sighted.pendLong.acquired)

end

end Sys2Proof

/-! ## Atomics (Machine/Atomics.lean) -/

namespace Sys2Proof

open Machine

section

variable {s : State} {wid n : Nat} {it : Iss} {ord : AtOrd} {sc : Scope} {koff write : Bool} {ok : List (Nat × Tgt)}
  {places : List (Nat × Nat × Place)} {op : Nat → Nat → Nat} {pois : Nat → Bool} {p : Place} {o : Opnds} {opc : AtOp}

protected theorem WellKept.writePlace {x : Nat} {bad : Bool} (h : WellKept s) : WellKept (writePlace s wid p n x bad) := by
  cases p with
  | glob t => exact h.storeGlobal
  | scr a => exact h.scrWrite

/-- One address after another is read, changed and written. -/
protected theorem WellKept.rmwAll (h : WellKept s) : WellKept (rmwAll s wid n places op pois).1 := by
  refine WellKept.foldl_fst h fun a addr h => ?_
  dsimp only
  split
  · exact h
  · exact h.writePlace

protected theorem WellKept.beforeAtom (h : WellKept s) : WellKept (beforeAtom it s ord sc ok n) := by
  unfold Machine.beforeAtom
  dsimp only
  split
  · exact h.releaseAt.settleLanes.sighted
  · exact h.settleLanes.sighted

protected theorem WellKept.afterAtom (h : WellKept s) : WellKept (afterAtom it s ord sc) := by
  unfold Machine.afterAtom
  split
  · exact h.acquireAt
  · exact h

protected theorem WellKept.globalRmw {k : State → List (Nat × Nat × Place) → Option (Flt × Word × Nat) → State} (h : WellKept s)
    (hk : ∀ s ps l, WellKept s → WellKept (k s ps l)) : WellKept (globalRmw it s koff write n ord sc k) :=
  h.checked fun _ => h.watchFirst (h.orReject (hk _ _ _ h.beforeAtom.usedLanes.modWarp).afterAtom)

protected theorem WellKept.scratchRmw {k : State → List (Nat × Nat × Place) → State} (h : WellKept s)
    (hk : ∀ s ps, WellKept s → WellKept (k s ps)) : WellKept (scratchRmw it s koff n ord sc k) :=
  h.checked fun _ => h.watchFirst
    (hk _ _ (h.beforeAtom.foldl fun _ _ h => h.settleScr).takeFree.sighted).afterAtom

protected theorem WellKept.atomReturn (h : WellKept s) : WellKept (atomReturn it s koff ord sc op pois) :=
  h.globalRmw fun _ _ _ h => h.rmwAll.loadEnd

protected theorem WellKept.atomsReturn (h : WellKept s) : WellKept (atomsReturn it s koff ord sc op pois) :=
  h.scratchRmw fun _ _ h => h.rmwAll.pendLong

protected theorem WellKept.atomcGroup {ls : List Nat} (h : WellKept s) : WellKept (atomcGroup it s p ls) := h.writePlace

protected theorem WellKept.execAtom (h : WellKept s) : OutcomeKept (execAtom o opc ord sc koff s) :=
  h.issue fun _ _ h => h.atomReturn

protected theorem WellKept.execAtomcas (h : WellKept s) : OutcomeKept (execAtomcas o ord sc koff s) :=
  h.issue fun _ _ h => h.atomReturn

protected theorem WellKept.execRed (h : WellKept s) : OutcomeKept (execRed o opc ord sc koff s) :=
  h.issue fun _ _ h => h.globalRmw fun _ _ _ h => h.rmwAll.storeEnd

protected theorem WellKept.execAtoms (h : WellKept s) : OutcomeKept (execAtoms o opc ord sc koff s) :=
  h.issue fun _ _ h => h.atomsReturn

protected theorem WellKept.execAtomsc (h : WellKept s) : OutcomeKept (execAtomsc o ord sc koff s) :=
  h.issue fun _ _ h => h.atomsReturn

protected theorem WellKept.execAtomc (h : WellKept s) : OutcomeKept (execAtomc o ord sc koff s) := by
  refine h.issue fun it s h => h.globalRmw fun s ps l h => WellKept.storeEnd (h.foldl fun s a h => ?_)
  split
  · exact h
  · exact h.atomcGroup

protected theorem WellKept.execRdc (h : WellKept s) : OutcomeKept (execRdc o ord sc koff s) :=
  h.issue fun _ _ h => h.globalRmw fun _ _ _ h => h.loadEnd

end

end Sys2Proof

/-! ## Copies, FIFO banks and vitrines (Machine/CopyOps.lean) -/

namespace Sys2Proof

open Machine

section

variable {s : State} {wid core ctx bn n m : Nat} {it : Iss} {o : Opnds} {sq : Word} {c : CopyCmd}

protected theorem WellKept.copyIssue {ring : Option (PV × Nat)} (h : WellKept s) : WellKept (copyIssue it s n ring) := by
  unfold Machine.copyIssue
  split
  · exact h.commit
  · extract_lets base ws sq c
    refine h.raise.ite ?_
    split
    · exact h.raise
    · exact h.releaseAt.modCore.commit

protected theorem WellKept.setBank {mode : BankMode} (h : WellKept s) : WellKept (setBank s core n mode) := by
  unfold Machine.setBank
  dsimp only
  split
  · exact h.landDirty.modCore.modCore
  · exact h.modCore

protected theorem WellKept.modVit {f : Vitrine → Vitrine} (h : WellKept s) : WellKept (s.modVit ctx n f) := h.modCtx

protected theorem WellKept.clearResvIn {ks : List Nat} (h : WellKept s) : WellKept (clearResvIn s ks) := h

protected theorem WellKept.freshPages {ks : List Nat} (h : WellKept s) : WellKept (freshPages s ks) := h

protected theorem WellKept.swapVitrine (h : WellKept s) : WellKept (swapVitrine s bn ctx n).1 :=
  h.drainBlock.modVit.clearResvIn.freshPages

protected theorem WellKept.modCopy {f : CopyCmd → CopyCmd} (h : WellKept s) : WellKept (modCopy s core sq f) := h.modCore

protected theorem WellKept.asyncFault {cause : Cause} (h : WellKept s) : WellKept (asyncFault s wid cause n m sq) := by
  unfold Machine.asyncFault
  split
  · exact h.countWalk.orphanTrap
  · dsimp only
    split
    · exact h.countWalk.orphanTrap
    · exact h.countWalk.modWarp

protected theorem WellKept.ringFault (h : WellKept s) : WellKept (ringFault s c) := by
  unfold Machine.ringFault
  split
  · exact h
  · exact h.asyncFault

protected theorem WellKept.copyVitPage (h : WellKept s) : WellKept (copyVitPage s ctx wid n m) := by
  unfold Machine.copyVitPage
  split
  · exact h.used.used.foldl fun _ _ h => h.storeGlobal
  · exact h.skipAccess

protected theorem WellKept.execCpg {slot : Fin 64} {arrive : Bool} (h : WellKept s) : OutcomeKept (execCpg o slot arrive s) :=
  h.issue fun _ _ h => h.copyIssue

protected theorem WellKept.execCps (h : WellKept s) : OutcomeKept (execCps o s) := h.issue fun _ _ h => h.copyIssue

protected theorem WellKept.execCpx {slot : Fin 64} {arrive : Bool} (h : WellKept s) : OutcomeKept (execCpx o slot arrive s) :=
  h.issue fun _ _ h => h.copyIssue

protected theorem WellKept.execCpclose (h : WellKept s) : OutcomeKept (execCpclose o s) := by
  refine h.issue fun it s h => ?_
  split_ifs
  · exact h.commit
  · exact h.parkWait
  · exact h.commit

protected theorem WellKept.execCpwait (h : WellKept s) : OutcomeKept (execCpwait o s) := by
  refine h.issue fun it s h => ?_
  dsimp only
  split_ifs
  · exact h.commit
  · exact h.acquireAt.commit
  · exact h.parkWait

protected theorem WellKept.execBankcfg {mode : BankMode} (h : WellKept s) : OutcomeKept (execBankcfg o mode s) := by
  refine h.issue fun it s h => ?_
  dsimp only
  split_ifs
  · exact h.commit
  · exact h.setBank.freeCores.commit
  · exact h.commit

protected theorem WellKept.execFpush (h : WellKept s) : OutcomeKept (execFpush o s) := by
  refine h.issue fun it s h => ?_
  split_ifs
  · exact h.commit
  · exact h.raise
  · split
    · exact h.raise
    · dsimp only
      split
      · exact h.modCore.commit
      · exact h.commit

protected theorem WellKept.execFpop (h : WellKept s) : OutcomeKept (execFpop o s) := by
  refine h.issue fun it s h => ?_
  split_ifs
  · exact h.commit
  · exact h.raise
  · split
    · exact h.raise
    · extract_lets q n ok rest s1
      have h1 : WellKept s1 := by
        unfold s1
        split
        · exact h.modCore
        · exact h
      exact h1.commit

protected theorem WellKept.execVtopen {copy : Bool} (h : WellKept s) : OutcomeKept (execVtopen o copy s) := by
  refine h.issue fun it s h => ?_
  split
  · exact h.commit
  · split
    · exact h.raise
    · dsimp only
      split
      · exact h.commit
      · split
        · split
          · exact h.raise
          · exact h.modVit.parkWait
        · exact h.modVit.commit

protected theorem WellKept.execPublish (h : WellKept s) : OutcomeKept (execPublish o s) := by
  refine h.issue fun it s h => ?_
  split
  · exact h.commit
  · split
    · exact h.raise
    · split_ifs
      · exact h.raise
      · exact h.parkWait
      · exact h.swapVitrine.parkWait

protected theorem WellKept.execVtdrop (h : WellKept s) : OutcomeKept (execVtdrop o s) := by
  refine h.issue fun it s h => ?_
  split
  · exact h.commit
  · split
    · exact h.raise
    · split_ifs
      · exact h.commit
      · exact h.raise
      · exact h.dropVitrine.takeFree.commit

protected theorem WellKept.execCopyCommandStart (h : WellKept s) : OutcomeKept (execCopyCommandStart core s) := by
  show WellKept _
  split
  · exact h.modCopy.copyPacket
  · exact h

protected theorem WellKept.execCopyCommandComplete (h : WellKept s) : OutcomeKept (execCopyCommandComplete core sq s) := by
  show WellKept _
  split
  · exact h
  · split
    have h1 := h.copyRun.of_eq_mk ‹_›
    split_ifs
    · exact h
    · exact h.quotaEvict
    · split
      have h2 := h1.copyFinish.of_eq_mk ‹_›
      exact h2.ringFault.ite h2

protected theorem WellKept.execCopyCommandFault (h : WellKept s) : OutcomeKept (execCopyCommandFault core sq s) := by
  show WellKept _
  split
  · exact h
  · split
    · exact h
    · have h1 := h.copyRun.of_eq_mk ‹_›
      dsimp only
      split
      · exact h1.modCopy.asyncFault
      · exact h1.dropCopy.asyncFault

protected theorem WellKept.execVtopenCopyComplete (h : WellKept s) : OutcomeKept (execVtopenCopyComplete ctx n s) := by
  show WellKept _
  split
  · extract_lets v
    split
    extract_lets s1
    have h1 : WellKept s1 := h.drainBlock.foldl fun _ _ h => h.copyVitPage
    split
    · exact h.quotaEvict.ite h1.finishWait
    · exact h
  · exact h

protected theorem WellKept.execPublishAckComplete (h : WellKept s) : OutcomeKept (execPublishAckComplete ctx n s) := by
  show WellKept _
  split
  · dsimp only
    split
    · exact h.modCtx.finishWait
    · exact h
  · exact h

end

end Sys2Proof
/-! ## Shapes and queues (Machine/Resolve.lean, Queues.lean) -/

namespace Sys2Proof

open Machine

section

variable {s : State} {wid core ctx gid q idx n va : Nat} {x : Queue} {c : Qcb} {e : QEntry} {bs : List Byte}
  {rs : List (Nat × Nat)} {t : Tgt}

protected theorem WellKept.predBytes (h : WellKept s) : WellKept (predBytes s ctx n).1 := by
  unfold Machine.predBytes
  split
  · exact h
  · split
    · exact h.skipAccess
    · exact h.devTouch.ite h.devTouch.modCtx

protected theorem WellKept.readPred (h : WellKept s) : WellKept (readPred s ctx n).1 := by
  unfold Machine.readPred
  split
  · exact h.predBytes.of_eq_mk ‹_›
  · have h1 := h.predBytes.of_eq_mk ‹_›
    split
    · exact h1
    · exact h1.countR

protected theorem WellKept.updatePred {key te : Nat} (h : WellKept s) : WellKept (updatePred s ctx key te) :=
  (h.readPred.ite h.readPred.modCtx).devPut

protected theorem WellKept.resolveGrid (h : WellKept s) : WellKept (resolveGrid s ctx gid n) := by
  unfold Machine.resolveGrid
  split
  · exact h
  · extract_lets d te s1 s2 trims s3 s4 s5 s6 s7
    have h1 : WellKept s1 := h.ite h.countR
    have h2 : WellKept s2 := h1.provPacket
    have h3 : WellKept s3 := h2.modGrid
    have h4 : WellKept s4 := h3.foldl fun _ _ h => h.confirmBlock
    have h5 : WellKept s5 := (h4.foldl fun _ _ h => h.trimBlock).foldl fun _ _ h => h.deliverOrphans
    have h6 : WellKept s6 := h5.provPacket.ite h5
    have h7 : WellKept s7 := h6.updatePred.ite h6
    exact h7.gridCheck

protected theorem WellKept.reachGrid (h : WellKept s) : WellKept (reachGrid s ctx gid n) := h.resolveGrid.ite h.modGrid

protected theorem WellKept.resolveWord (h : WellKept s) : WellKept (resolveWord s ctx va t n).1 := by
  refine WellKept.foldl ?_ fun _ _ h => h.reachGrid
  exact h.storeOpen.countR.ite h.storeOpen

protected theorem WellKept.replayAll {k : ReplayKey} (h : WellKept s) : WellKept (replayAll s ctx k) :=
  (h.foldl fun _ _ h => h.freeEntry).wakeOverflow

protected theorem WellKept.modQueue {f : Queue → Queue} (h : WellKept s) : WellKept (s.modQueue ctx q f) := h.modCtx

protected theorem WellKept.putQcb (h : WellKept s) : WellKept (putQcb s ctx x n bs) := h.devPut

protected theorem WellKept.queueError {slot code : Nat} (h : WellKept s) : WellKept (queueError s ctx x c slot code) :=
  h.putQcb.hostEvent

protected theorem WellKept.flushRegions (h : WellKept s) : WellKept (flushRegions s wid rs) := by
  unfold Machine.flushRegions
  split
  · exact h.flushSome
  · exact h

protected theorem WellKept.pushReady (h : WellKept s) : WellKept (pushReady s wid ctx q bs) := h.flushRegions

protected theorem WellKept.writeBack (h : WellKept s) : WellKept (writeBack s core rs) := h.ite h.landDirty

protected theorem WellKept.invalidate (h : WellKept s) : WellKept (invalidate s core rs) := h.ite h.writeBack.modCore

protected theorem WellKept.withdraw (h : WellKept s) : WellKept (withdraw s ctx q idx x bs) := by
  unfold Machine.withdraw
  split
  · exact h
  · exact h.ite h.modQueue.modBlock

/-- An entry of a queue is acted on. -/
protected theorem WellKept.actOn {k : Queue → QEntry → State} (h : WellKept s) (hk : ∀ x e, WellKept (k x e)) :
    OutcomeKept (actOn s ctx q n k) := by
  show WellKept _
  split
  · exact h
  · refine h.ite ?_
    split
    · exact h
    · exact (hk _ _).ite h

protected theorem WellKept.modEntry {f : QEntry → QEntry} (h : WellKept s) : WellKept (modEntry s ctx q idx f) := h.modQueue

protected theorem WellKept.entryDone (h : WellKept s) : WellKept (entryDone s ctx q idx) := h.modEntry

protected theorem WellKept.entryStuck (h : WellKept s) : WellKept (entryStuck s ctx q x e) := by
  unfold Machine.entryStuck
  extract_lets s1
  have h1 : WellKept s1 := h.modQueue
  split
  · exact h1.queueError
  · exact h1

protected theorem WellKept.resumeStuck {skips : Bool} (h : WellKept s) : WellKept (resumeStuck s ctx q skips) := by
  unfold Machine.resumeStuck
  split
  · exact h
  · exact h.modQueue.entryDone.ite h.modQueue.modEntry

protected theorem WellKept.noteQstate {key : Nat} (h : WellKept s) : WellKept (noteQstate s key n) := by
  refine h.foldl fun s e h => h.foldl fun s q h => h.ite ?_
  split
  · exact h.putQcb.resumeStuck.ite h
  · exact h

protected theorem WellKept.putEntries {es : List (List Byte)} (h : WellKept s) : WellKept (putEntries ctx c n es s) := by
  induction es generalizing s n with
  | nil => exact h
  | cons b bs ih => exact ih h.devPut

protected theorem WellKept.forward {due : Qcb → Queue → Bool} (h : WellKept s) : WellKept (forward s ctx q due) := by
  unfold Machine.forward
  split
  · exact h
  · refine h.ite ?_
    split
    · exact h
    · exact h.devTouch.ite h.putEntries.devPut.putQcb.modQueue

protected theorem WellKept.execQueueTailObserve (h : WellKept s) : OutcomeKept (execQueueTailObserve ctx q s) := by
  show WellKept _
  split
  · exact h
  · exact h.ite (h.queueError.ite h.devTouch.modQueue)

protected theorem WellKept.execQueueEntryConsume (h : WellKept s) : OutcomeKept (execQueueEntryConsume ctx q s) := by
  show WellKept _
  split
  · exact h
  · refine h.queueError.ite (h.ite ?_)
    split
    · exact h
    · exact h.queueError.ite h.devTouch.putQcb.withdraw.modQueue

protected theorem WellKept.execShapeEntry (h : WellKept s) : OutcomeKept (execShapeEntry ctx q s) := by
  refine h.actOn fun x e => ?_
  dsimp only
  split
  · exact h.entryStuck
  · exact h.entryStuck.ite h.used.resolveWord.entryDone

protected theorem WellKept.execReplayEntry (h : WellKept s) : OutcomeKept (execReplayEntry ctx q s) :=
  h.actOn fun _ _ => h.replayAll.entryDone

protected theorem WellKept.execWaitcEntry (h : WellKept s) : OutcomeKept (execWaitcEntry ctx q s) := by
  refine h.actOn fun x e => ?_
  dsimp only
  split
  · exact h.entryStuck
  · exact h.devTouch.entryDone.ite h.devTouch.modEntry

protected theorem WellKept.execSignalEntry (h : WellKept s) : OutcomeKept (execSignalEntry ctx q s) := by
  refine h.actOn fun x e => ?_
  dsimp only
  split
  · exact h.entryStuck
  · exact h.used.storeOpen.entryDone

protected theorem WellKept.execQueueEntryComplete (h : WellKept s) : OutcomeKept (execQueueEntryComplete ctx q n s) := by
  show WellKept _
  split
  · exact h
  · split
    · exact h
    · refine h.ite ?_
      extract_lets s1
      have h1 : WellKept s1 := h.modQueue
      split
      · exact h1.hostEvent
      · exact h1

protected theorem WellKept.execQueueRestart {skip : Bool} (h : WellKept s) : OutcomeKept (execQueueRestart ctx q skip s) := by
  show WellKept _
  split
  · exact h
  · exact h.putQcb.putQcb.resumeStuck

protected theorem WellKept.execQueueStop (h : WellKept s) : OutcomeKept (execQueueStop ctx q s) := by
  show WellKept _
  split
  · exact h
  · exact h.putQcb

end

end Sys2Proof

/-! ## Counters and trace streams, cores that change hands (Machine/Counters.lean, MatrixUnit.lean) -/

namespace Sys2Proof

open Machine

section

variable {s : State} {core ctx src n : Nat} {bs : List Byte} {u : TraceUnit}

protected theorem WellKept.addTotal {num : Nat} (h : WellKept s) : WellKept (addTotal s ctx num n) := by
  refine h.ite ?_
  split
  · exact h.skipAccess
  · exact h.devPut

protected theorem WellKept.addTotals {cnt : Sparse Nat} (h : WellKept s) : WellKept (addTotals s ctx cnt) :=
  h.foldl fun _ _ h => h.addTotal

protected theorem WellKept.sweepCore (h : WellKept s) : WellKept (sweepCore s core) := by
  unfold Machine.sweepCore
  split
  · exact h
  · exact h.ite h.modCore.addTotals

protected theorem WellKept.sweepAll (h : WellKept s) : WellKept (sweepAll s ctx) := by
  refine h.ite ?_
  extract_lets s1
  have h1 : WellKept s1 := h.foldl fun _ _ h => h.sweepCore
  split
  · exact h1
  · exact h1.modCtx.addTotals.modCtx

protected theorem WellKept.segWrite (h : WellKept s) : OptionKept (segWrite s ctx src n bs) := by
  refine h.devWrite.bind fun s1 h1 => ?_
  split
  · exact h1
  · exact h1.devWrite

protected theorem WellKept.closeStream (h : WellKept s) : WellKept (closeStream s ctx src u) := by
  unfold Machine.closeStream
  dsimp only
  split
  · exact h
  · have h1 := h.devWrite.some ‹_›
    split
    · exact h1
    · refine h1.ite ?_
      split
      · exact h1
      · have hx := h1.segWrite.some ‹_›
        exact (hx.devWrite.getD hx).setUnit

protected theorem WellKept.traceFail (h : WellKept s) : WellKept (traceFail s ctx src) := by
  unfold Machine.traceFail
  split
  · exact h
  · exact ((h.foldl fun _ _ h => h.closeStream).modCtx.foldl fun _ _ h => h.releaseHold).countSrc.hostEvent

protected theorem WellKept.afterDrain (h : WellKept s) : WellKept (afterDrain s ctx src) :=
  h.setUnit.countSrc.ite (h.setUnit.releaseHold.ite h.setUnit)

protected theorem WellKept.drainUnit (h : WellKept s) : WellKept (drainUnit s ctx src) := by
  unfold Machine.drainUnit
  dsimp only
  split
  · exact h.traceFail
  · split
    · exact h.traceFail
    · exact ((h.segWrite.bind fun _ h => h.devWrite).some ‹_›).setUnit.afterDrain

protected theorem WellKept.drainSource (h : WellKept s) : WellKept (drainSource s ctx src) :=
  WellKept.ite (h.flushUnit.ite h.flushUnit.drainUnit) h

protected theorem WellKept.keepCounts (h : WellKept s) : WellKept (keepCounts s ctx core) := h.ite h.modCtx

protected theorem WellKept.dropCore (h : WellKept s) : WellKept (dropCore s core) := by
  unfold Machine.dropCore
  extract_lets s0
  have h0 : WellKept s0 := by
    unfold s0
    split
    · exact h.drainSource.keepCounts
    · exact h
  exact h0.landDirty.sweepCore.modCore

protected theorem WellKept.takeCore (h : WellKept s) : WellKept (takeCore s ctx core) := by
  refine h.ite ?_
  extract_lets cfg s1 s2
  have h1 : WellKept s1 := h.dropCore.modCore
  have h2 : WellKept s2 := h1.count.ite h1
  exact h2.count.ite h2

protected theorem WellKept.takePair (h : WellKept s) : WellKept (takePair s ctx core) := h.takeCore.takeCore

end

end Sys2Proof

/-! ## The matrix and epilogue engines (Machine/Matrix.lean) -/

namespace Sys2Proof

open Machine

section

variable {s k : State} {bn lead n m : Nat} {it : Iss} {o : Opnds} {c : MatCmd} {os : List Opd}

protected theorem WellKept.uniClean (h : WellKept s) (hk : WellKept k) : WellKept (uniClean it s os k) := h.raise.ite hk

protected theorem WellKept.rowsIn (h : WellKept s) (hk : WellKept k) : WellKept (rowsIn it s n m k) := h.raise.ite hk

protected theorem WellKept.ringAligned {ring : Option (Word × Nat)} (h : WellKept s) (hk : WellKept k) :
    WellKept (ringAligned it s ring k) := by
  unfold Machine.ringAligned
  split
  · exact h.raise.ite hk
  · exact hk

protected theorem WellKept.toMatrixQueue {f : MatCmd → MatCmd} {long : Bool} (h : WellKept s) :
    WellKept (toMatrixQueue it s f long) := h.modPair.pendLong.ite h.modPair.commit

protected theorem WellKept.toEpilogueQueue {f : MatCmd → MatCmd} (h : WellKept s) : WellKept (toEpilogueQueue it s f).1 :=
  h.modPair

protected theorem WellKept.grantGranules (h : WellKept s) : WellKept (grantGranules s bn lead n).1 := h.modBlock

protected theorem WellKept.dismissWaiters (h : WellKept s) : WellKept (dismissWaiters s bn) := by
  refine h.foldl fun s e h => ?_
  split
  · exact h.finishWait
  · exact h

protected theorem WellKept.epilogueLoad (h : WellKept s) : WellKept (epilogueLoad it s n) :=
  h.commit.ite (h.uniClean (h.raise.ite (h.raise.ite (h.raise.ite h.toEpilogueQueue.modWarp))))

protected theorem WellKept.drainChecks {act : Bool} (h : WellKept s) (hk : WellKept k) : WellKept (drainChecks it s act n os k) :=
  h.uniClean (h.raise.ite (h.rowsIn hk))

protected theorem WellKept.matArrive (h : WellKept s) : WellKept (matArrive s lead c) := by
  unfold Machine.matArrive
  split
  · exact h
  · split
    · exact h.asyncFault
    · exact h.asyncFault.ite h.engineRelease.engineRelease.ringArrive

protected theorem WellKept.matDone (h : WellKept s) : WellKept (matDone s c) := h.modWarp

protected theorem WellKept.modMat {f : MatState → MatState} (h : WellKept s) : WellKept (modMat s bn f) := h.modBlock

protected theorem WellKept.runLoad {bad : List Byte → Bool} {put : List Byte → MatState → MatState} (h : WellKept s) :
    WellKept (runLoad s c n bad put) := by
  unfold Machine.runLoad
  split
  · exact h.modWarp.takeTrap.ite (h.modWarp.takeTrap.ite h.modMat.modWarp)
  · exact h

protected theorem WellKept.noteSeen (h : WellKept s) : WellKept (noteSeen s lead c) := h.ite h.modPair

protected theorem WellKept.drainToRegs {ws : List PWord} (h : WellKept s) : WellKept (drainToRegs s c ws) := h.modWarp

protected theorem WellKept.drainToScratch {rows : List (List PWord)} (h : WellKept s) : WellKept (drainToScratch s c rows) :=
  h.foldl fun _ _ h => h.foldl fun _ _ h => h.scrWrite

protected theorem WellKept.execMldb {slab : Fin 4} {lset : Fin 2} {foll : Bool} (h : WellKept s) :
    OutcomeKept (execMldb o slab lset foll s) := h.issue fun _ _ h => h.commit.ite h.toMatrixQueue

protected theorem WellKept.execMlds {lset : Fin 2} {foll : Bool} (h : WellKept s) : OutcomeKept (execMlds o lset foll s) :=
  h.issue fun _ _ h => h.commit.ite h.toMatrixQueue

protected theorem WellKept.execMma {mm1 : Fin 32} {lset : Fin 2} {slot : Fin 64} (h : WellKept s) :
    OutcomeKept (execMma o mm1 lset slot s) :=
  h.issue fun _ _ h => h.commit.ite (h.uniClean (h.raise.ite (h.rowsIn (h.ringAligned h.toMatrixQueue))))

protected theorem WellKept.execMzero (h : WellKept s) : OutcomeKept (execMzero o s) :=
  h.issue fun _ _ h => h.commit.ite (h.uniClean (h.rowsIn (h.commit.ite h.toMatrixQueue)))

protected theorem WellKept.execAcalloc {wait : Bool} (h : WellKept s) : OutcomeKept (execAcalloc o wait s) :=
  h.issue fun _ _ h => h.commit.ite (h.uniClean (h.commit.ite (h.grantGranules.commit.ite
    (h.commit.ite (h.commit.ite (show WellKept _ from h.parkWait))))))

protected theorem WellKept.execAcfree (h : WellKept s) : OutcomeKept (execAcfree o s) :=
  h.issue fun _ _ h => h.commit.ite (h.uniClean (h.modBlock.modPair.commit.modWarp.ite h.modBlock.modPair.commit))

protected theorem WellKept.execEpcfg (h : WellKept s) : OutcomeKept (execEpcfg o s) := h.issue fun _ _ h => h.epilogueLoad

protected theorem WellKept.execActld (h : WellKept s) : OutcomeKept (execActld o s) := h.issue fun _ _ h => h.epilogueLoad

protected theorem WellKept.execMdrain {bias act req : Bool} {rm1 : Fin 8} {slot : Fin 64} (h : WellKept s) :
    OutcomeKept (execMdrain o bias act req rm1 slot s) :=
  h.issue fun _ _ h => h.commit.ite (h.drainChecks (h.raise.ite (h.ringAligned h.toEpilogueQueue.pendLong)))

protected theorem WellKept.execMdrains {bias act req : Bool} {rm1 : Fin 8} {slot : Fin 64} (h : WellKept s) :
    OutcomeKept (execMdrains o bias act req rm1 slot s) :=
  h.issue fun _ _ h => h.commit.ite (h.drainChecks (h.raise.ite (h.raise.ite (h.ringAligned h.toEpilogueQueue.commit))))

protected theorem WellKept.execMatrixCommandExecute (h : WellKept s) : OutcomeKept (execMatrixCommandExecute lead s) := by
  show WellKept _
  split
  · exact h.modPair.matPacket.ite h
  · exact h

protected theorem WellKept.execMatrixCommandComplete (h : WellKept s) : OutcomeKept (execMatrixCommandComplete lead s) := by
  show WellKept _
  split
  · exact h
  · refine h.ite ?_
    extract_lets bn isMma s1 s2
    have h1 : WellKept s1 := h.count.ite h
    have h2 : WellKept s2 := h1.modMat.modPair
    exact h2.matDone.matPacket.matArrive

protected theorem WellKept.execEpilogueCommandExecute (h : WellKept s) : OutcomeKept (execEpilogueCommandExecute lead s) := by
  show WellKept _
  split
  · exact h.modPair.matPacket.ite h
  · exact h

protected theorem WellKept.execEpilogueCommandComplete (h : WellKept s) :
    OutcomeKept (execEpilogueCommandComplete lead s) := by
  show WellKept _
  split
  · exact h
  · refine h.ite ?_
    extract_lets m s1
    have h1 : WellKept s1 := h.noteSeen.modPair.matPacket
    split
    · exact h1.runLoad
    · exact h1.runLoad
    · exact h.makeRoom.ite h1.takeFree.makeRoom.drainToRegs.matDone.matArrive
    · exact h1.takeFree.drainToScratch.matArrive
    · exact h1

protected theorem WellKept.execAccumGranulesCleared (h : WellKept s) : OutcomeKept (execAccumGranulesCleared lead s) := by
  unfold Machine.execAccumGranulesCleared
  extract_lets p done s1 s2
  have h1 : WellKept s1 := h.modPair
  have h2 : WellKept s2 := h1.ite h1.freeCores
  show WellKept _
  split
  · exact h2.modMat
  · exact h2

end

end Sys2Proof

/-! ## Saving a block (Machine/Save.lean) -/

namespace Sys2Proof

open Machine

section

variable {s : State} {ctx bn : Nat} {ps : List Nat} {bs : List Byte}

protected theorem WellKept.putPages (h : WellKept s) : WellKept (putPages s ctx ps bs) := by
  induction ps generalizing s bs with
  | nil => exact h
  | cons p ps ih => exact h.ite (ih h.devPut)

protected theorem WellKept.holdPages (h : WellKept s) : WellKept (holdPages s ctx ps) := h.modCtx

protected theorem WellKept.dropPages (h : WellKept s) : WellKept (dropPages s ctx ps) := h.modCtx

protected theorem WellKept.saveBlock (h : WellKept s) : WellKept (saveBlock s bn) := by
  unfold Machine.saveBlock
  split
  · exact h
  · refine h.ite ?_
    extract_lets d ws copies pages sc kept src mat s1 s2 s3 s4 s5 s6
    have h1 : WellKept s1 := h.drainBlock.putPages
    have h2 : WellKept s2 := h1.foldl fun _ _ h => h.modCore
    have h3 : WellKept s3 := h2.leaveCores
    have h4 : WellKept s4 := h3.foldl fun _ _ h => h.setWarp
    have h5 : WellKept s5 := h4.modBlock
    have h6 : WellKept s6 := h5.modCtx.ite h5
    exact h6.modGrid

protected theorem WellKept.topUp (h : WellKept s) : WellKept (topUp s bn) := by
  unfold Machine.topUp
  split
  · exact h
  · split
    · exact h
    · dsimp only
      split
      · exact h.holdPages.modBlock
      · exact h

protected theorem WellKept.trySave (h : WellKept s) : WellKept (trySave s bn) := by
  have h1 : WellKept ((preemptGroup s bn).foldl topUp s) := h.foldl fun _ _ h => h.topUp
  exact WellKept.ite ((h1.foldl fun _ _ h => h.saveBlock).ite h1) h

end

end Sys2Proof

/-! ## Placing blocks (Machine/Place.lean) -/

namespace Sys2Proof

open Machine

section

variable {s : State} {wid core ctx gid bn idx n no last : Nat} {w : Warp} {g : Grid} {cs bar freed is bs : List Nat}
  {cands cl : List (List Nat)} {l : Option Nat} {c : CopyCmd}

protected theorem WellKept.moveCursor (h : WellKept s) : WellKept (moveCursor s ctx last) := by
  unfold Machine.moveCursor
  dsimp only
  split
  · exact h.modCtx
  · exact h

protected theorem WellKept.seatWarp (h : WellKept s) : WellKept (seatWarp s core wid w) := h.setWarp

protected theorem WellKept.startPacket (h : WellKept s) : WellKept (startPacket s wid) := by
  unfold Machine.startPacket
  split
  · exact h.userPacket
  · exact h

protected theorem WellKept.startWarp (h : WellKept s) : WellKept (startWarp s bn g cs no) := h.seatWarp.startPacket

protected theorem WellKept.noteRelaunch (h : WellKept s) : WellKept (noteRelaunch s ctx gid idx) := by
  unfold Machine.noteRelaunch
  split
  · exact h
  · exact h.setGrid.ite h

protected theorem WellKept.notePlaced (h : WellKept s) : WellKept (notePlaced s ctx gid idx) := by
  unfold Machine.notePlaced
  dsimp only
  split
  · exact h.noteRelaunch.modGrid.setGrid.ite h.noteRelaunch.modGrid
  · exact h.noteRelaunch.modGrid

protected theorem WellKept.takeEngine (h : WellKept s) : WellKept (takeEngine s bn g cs n) :=
  h.ite (h.foldl fun _ _ h => h.modBlock.modPair)

protected theorem WellKept.takeScratch (h : WellKept s) : WellKept (takeScratch bn n s core) := h.ite h.modCore

protected theorem WellKept.enterGrid (h : WellKept s) : WellKept (enterGrid ctx gid g s core) := h.ite h.invalidate

protected theorem WellKept.startBlock (h : WellKept s) : WellKept (startBlock s ctx gid idx cs) := by
  unfold Machine.startBlock
  split
  · exact h
  · extract_lets bn n s1 b src s2 s3
    have h1 : WellKept s1 :=
      ((h.foldl fun _ _ h => h.takePair).foldl fun _ _ h => h.enterGrid).foldl fun _ _ h => h.takeScratch
    have placed : WellKept src := h1.setBlock
    have h2 : WellKept s2 := WellKept.takeEngine (s := { src with blkNext := bn + 1 }) placed
    have h3 : WellKept s3 := h2.foldl fun _ _ h => h.setLossless
    exact (h3.foldl fun _ _ h => h.startWarp).notePlaced

protected theorem WellKept.requeueCopy (h : WellKept s) : WellKept (requeueCopy s core c) := h.modCore.modWarp

protected theorem WellKept.seatCells (h : WellKept s) : WellKept (seatCells s core wid) := by
  unfold Machine.seatCells
  split
  · exact h
  · exact h.ite (h.spillFor.ite h.spillFor.spillSome)

protected theorem WellKept.resumeBlock (h : WellKept s) : WellKept (resumeBlock s bn cs) := by
  unfold Machine.resumeBlock
  split
  · exact h
  · split
    · exact h
    · extract_lets per s1 s2 s3 s4 s5 s6
      have h1 : WellKept s1 := (h.foldl fun _ _ h => h.takePair.modCore).foldl fun _ _ h => h.takeScratch
      have h2 : WellKept s2 := h1.modBlock.takeEngine
      have h3 : WellKept s3 := h2.modBlock
      have h4 : WellKept s4 := h3.foldl fun _ _ h => h.seatWarp.seatCells
      have h5 : WellKept s5 := h4.foldl fun _ _ h => h.requeueCopy
      have h6 : WellKept s6 := h5.modWarpsOf
      exact (h6.dropPages.foldl fun _ _ h => h.setLossless).notePlaced

protected theorem WellKept.placeAt (h : WellKept s) : WellKept (placeAt s ctx gid idx cs) := by
  unfold Machine.placeAt
  split
  · exact h.resumeBlock
  · exact h.startBlock

protected theorem WellKept.wave {join : Bool} (h : WellKept s) : WellKept (wave n s ctx gid join cands l).1 := by
  induction n generalizing s cands l with
  | zero => exact h
  | succ n ih =>
    unfold Machine.wave
    split
    · dsimp only
      split
      · exact h
      · exact ih h.placeAt
    · exact h

protected theorem WellKept.refill (h : WellKept s) : WellKept (refill n s ctx gid cs) := by
  induction n generalizing s with
  | zero => exact h
  | succ n ih =>
    unfold Machine.refill
    split
    · exact (ih h.placeAt).ite h
    · exact h

protected theorem WellKept.gangOn (h : WellKept s) : OptionKept ((gangOn s ctx gid g is cands).map Prod.fst) := by
  induction is generalizing s cands with
  | nil => exact h
  | cons i is ih =>
    unfold Machine.gangOn
    split
    · trivial
    · dsimp only
      rw [Option.map_map]
      exact ih h.placeAt

/-- A result that comes with something beside the state. -/
theorem OptionKept.some_fst {α : Type} {o : Option (State × α)} {r : State × α} (h : OptionKept (o.map Prod.fst))
    (e : o = .some r) : WellKept r.1 := by
  subst e
  exact h

/-- The first result that a search finds. -/
theorem OptionKept.findSome? {α β : Type} {f : α → Option (State × β)} {l : List α}
    (hf : ∀ x, OptionKept ((f x).map Prod.fst)) : OptionKept ((l.findSome? f).map Prod.fst) := by
  induction l with
  | nil => trivial
  | cons x l ih =>
    rw [List.findSome?_cons]
    split
    · exact (hf x).some_fst ‹_›
    · exact ih

protected theorem WellKept.gangs (h : WellKept s) : WellKept (gangs n s ctx gid cands l).1 := by
  induction n generalizing s l with
  | zero => exact h
  | succ n ih =>
    unfold Machine.gangs
    split
    · exact h
    · dsimp only
      split
      · exact h
      · split
        · exact h
        · exact ih ((OptionKept.findSome? fun _ => h.gangOn).some_fst ‹_›)

protected theorem WellKept.evictUntil {ok : State → Bool} (h : WellKept s) : OptionKept (evictUntil ok bs s) := by
  induction bs generalizing s with
  | nil =>
    unfold Machine.evictUntil
    split
    · exact h
    · trivial
  | cons b bs ih =>
    unfold Machine.evictUntil
    split
    · exact h
    · exact ih h.evictGang

protected theorem WellKept.evictFor (h : WellKept s) : OptionKept ((evictFor s ctx gid g cands).map Prod.fst) := by
  unfold Machine.evictFor
  split
  · trivial
  · extract_lets need places size ok
    split
    · trivial
    · refine OptionKept.findSome? fun cl => ?_
      rw [Option.map_map]
      exact h.evictUntil.map fun _ h => h

protected theorem WellKept.placeNext (h : WellKept s) : OptionKept (placeNext s ctx gid cl) := by
  unfold Machine.placeNext
  split
  · split
    · exact h.gangOn
    · cases cl.find? _ with
      | none => trivial
      | some cs => exact h.placeAt
  · trivial

protected theorem WellKept.placeAll (h : WellKept s) : WellKept (placeAll s ctx gid g bar l).1 := by
  unfold Machine.placeAll
  split
  · exact h.gangs
  · exact h.wave

protected theorem WellKept.placeCoop (h : WellKept s) : OptionKept ((placeCoop n s ctx gid bar l).map Prod.fst) := by
  induction n generalizing s l with
  | zero => trivial
  | succ n ih =>
    unfold Machine.placeCoop
    split
    · trivial
    · dsimp only
      split
      · exact h.placeAll
      · split
        · trivial
        · rw [Option.map_bind]
          have h1 := h.placeAll.evictFor.some_fst ‹_›
          exact h1.placeNext.bind fun _ h => ih h

/-- The cursor moves past the last cores that took a block. -/
theorem WellKept.moveLast (h : WellKept s) : WellKept (match l with | some c => moveCursor s ctx c | none => s) := by
  split
  · exact h.moveCursor
  · exact h

protected theorem WellKept.placeGrid (h : WellKept s) : WellKept (placeGrid s ctx gid bar freed) := by
  unfold Machine.placeGrid
  split
  · exact h
  · extract_lets need cands move begun
    have moved : ∀ r : State × Option Nat, WellKept r.1 → WellKept (move r) := fun _ h => h.moveLast
    have hb : WellKept begun := h.modGrid
    split
    · split
      · exact moved _ (h.placeCoop.some_fst ‹_›)
      · exact h
    · split
      · exact (moved _ hb.gangs).ite h.gangs
      · split
        · exact moved _ hb.wave
        · refine WellKept.foldl ((moved _ h.modGrid.wave).ite h) fun s c h => ?_
          split
          · exact h.refill
          · exact h

protected theorem WellKept.placeEvict (h : WellKept s) : WellKept (placeEvict n s ctx gid bar freed) := by
  induction n generalizing s freed with
  | zero => exact h
  | succ n ih =>
    unfold Machine.placeEvict
    dsimp only
    split
    · exact h.placeGrid
    · split
      · exact h.placeGrid
      · split
        · exact h.placeGrid
        · have h2 := h.placeGrid.evictFor.some_fst ‹_›
          split
          · exact h2
          · exact ih (h2.placeNext.some ‹_›)

protected theorem WellKept.placeChild (h : WellKept s) : WellKept (placeChild s ctx gid cs) := by
  unfold Machine.placeChild
  split
  · exact h
  · dsimp only
    split
    · split
      · exact h.placeCoop.some_fst ‹_›
      · exact h
    · exact h.gangs.ite (h.foldl fun _ _ h => h.refill)

protected theorem WellKept.placeChildren {ws : List (Nat × Nat × Grid)} (h : WellKept s) : WellKept (placeChildren s ws) := by
  unfold Machine.placeChildren
  extract_lets s1
  have h1 : WellKept s1 := h.foldl fun s e h => by
    split
    · exact h.ite h.placeChild
    · exact h
  exact h1

protected theorem WellKept.execBlockPlacement (h : WellKept s) : OutcomeKept (execBlockPlacement ctx s) := by
  show WellKept _
  split
  · exact h
  · split
    · exact h
    · extract_lets ws freed s0 s1
      have h0 : WellKept s0 := h.placeChildren.ite h
      have h1 : WellKept s1 := h0.foldl fun _ _ h => h.placeEvict
      exact h1.foldl fun _ _ h => h.modCtx

protected theorem WellKept.execPriorityAgeing (h : WellKept s) : OutcomeKept (execPriorityAgeing ctx gid s) := by
  show WellKept _
  split
  · exact h
  · exact h.modGrid.ite h

protected theorem WellKept.execBlockRetire (h : WellKept s) : OutcomeKept (execBlockRetire bn s) := by
  show WellKept _
  split
  · exact h
  · exact h.retireBlock.ite h

protected theorem WellKept.execHostGangRelaunchOrAbandon {relaunch : Bool} (h : WellKept s) :
    OutcomeKept (execHostGangRelaunchOrAbandon ctx gid n relaunch s) := by
  show WellKept _
  split
  · exact h
  · extract_lets mine s1
    have h1 : WellKept s1 := h.modGrid
    exact h.ite ((h1.modGrid.gridCheck.ite h1.killGrid).ite h1.modGrid.gridCheck)

end

end Sys2Proof

/-! ## Stalls and fairness (Machine/Stall.lean) -/

namespace Sys2Proof

open Machine

section

variable {s : State} {wid core slot n : Nat} {w : Warp} {t : Turn}

protected theorem WellKept.passCycles (h : WellKept s) : WellKept (passCycles s t n) := h

protected theorem WellKept.execClauseDispatch (h : WellKept s) : OutcomeKept (execClauseDispatch core slot s) := by
  show WellKept _
  split
  · exact h
  · split
    · exact h
    · exact h.ite (h.dispatchClause.ite ((h.bindPort.getD h).ite h))

protected theorem WellKept.execWarpAged (h : WellKept s) : OutcomeKept (execWarpAged core slot s) := by
  show WellKept _
  split
  · exact h
  · split
    · exact h
    · split
      · exact h
      · split
        · exact h.setWarp.bindPort.getD h.setWarp
        · exact h

protected theorem WellKept.fairNow (h : WellKept s) : WellKept (fairNow s wid w) := by
  unfold Machine.fairNow
  split
  · exact h.fairStep.ok ‹_›
  · exact h.takeTrap

protected theorem WellKept.execFairnessSwitch (h : WellKept s) : OutcomeKept (execFairnessSwitch core slot s) := by
  show WellKept _
  split
  · exact h
  · split
    · exact h
    · exact h.ite (h.setWarp.ite h.fairNow)

protected theorem WellKept.execFairnessDeferExpiry (h : WellKept s) : OutcomeKept (execFairnessDeferExpiry core slot s) := by
  show WellKept _
  split
  · exact h
  · split
    · exact h
    · split
      · exact h.fairNow.ite h
      · exact h

end

end Sys2Proof

/-! ## Trace and counter events (Machine/Tracing.lean) -/

namespace Sys2Proof

open Machine

section

variable {s : State} {ctx core slot src : Nat}

protected theorem WellKept.execTraceDrain (h : WellKept s) : OutcomeKept (execTraceDrain ctx src s) := h.drainUnit.ite h

protected theorem WellKept.execTraceDrainTimer (h : WellKept s) : OutcomeKept (execTraceDrainTimer ctx src s) :=
  h.drainUnit.ite h

protected theorem WellKept.execLosslessEscape (h : WellKept s) : OutcomeKept (execLosslessEscape ctx src s) :=
  h.setUnit.releaseHold.afterDrain.ite h

protected theorem WellKept.execTraceSample (h : WellKept s) : OutcomeKept (execTraceSample core slot s) := by
  show WellKept _
  split
  · exact h
  · split
    · exact h.modCore.emit.holdCheck.ite h
    · exact h

protected theorem WellKept.execCounterSweep (h : WellKept s) : OutcomeKept (execCounterSweep ctx s) := h.sweepAll.ite h

end

end Sys2Proof

/-! ## Preemption and context switches (Machine/Switch.lean) -/

namespace Sys2Proof

open Machine

section

variable {s : State} {ctx core slot bn n page : Nat} {trig : PreemptTrigger} {ps cores : List Nat} {c : Ctx} {val : BitVec 64}

protected theorem WellKept.askBlock (h : WellKept s) : WellKept (askBlock s bn trig ps) := h.modBlock.endNaps

protected theorem WellKept.requestPreempt (h : WellKept s) : WellKept (requestPreempt s bn trig) := by
  unfold Machine.requestPreempt
  extract_lets grp s1 saves
  have h1 : WellKept s1 := h.evictGang
  split
  · exact h1
  · split
    · exact (h1.ite h1.count).foldl fun _ _ h => h.askBlock
    · exact h1.holdPages.foldl fun _ _ h => h.askBlock.modWarpsOf

protected theorem WellKept.execPreemptionRequest (h : WellKept s) : OutcomeKept (execPreemptionRequest bn trig s) := by
  show WellKept _
  split
  · exact h
  · exact h.ite ((h.hostEvent.ite h).ite h.requestPreempt)

protected theorem WellKept.execTimeSliceExpiry (h : WellKept s) : OutcomeKept (execTimeSliceExpiry bn s) := by
  show WellKept _
  split
  · exact h
  · exact h.ite (h.modBlock.hostEvent.ite h.requestPreempt)

protected theorem WellKept.execPreemptBudgetExpiry (h : WellKept s) : OutcomeKept (execPreemptBudgetExpiry core slot s) := by
  show WellKept _
  split
  · exact h
  · split
    · split
      · exact h.stopWarp.trySave
      · exact h
    · exact h

protected theorem WellKept.execWarpStopPoint (h : WellKept s) : OutcomeKept (execWarpStopPoint core slot s) := by
  show WellKept _
  split
  · exact h
  · split
    · split
      · exact h
      · split
        · exact h.trySave
        · split
          · exact h.stopWarp.trySave
          · exact h
    · exact h

protected theorem WellKept.execSaveSpaceRetry (h : WellKept s) : OutcomeKept (execSaveSpaceRetry bn s) := by
  show WellKept _
  split
  · exact h
  · split
    · exact h
    · exact (h.foldl fun _ _ h => h.modBlock).requestPreempt.ite h

protected theorem WellKept.writeTables (h : WellKept s) : WellKept (writeTables s ctx c) := by
  have vits := h.foldl (f := fun s (e : Nat × Vitrine) => s.devPut ctx (c.eff.vitBase.toNat + 32 * e.1) (e.2.bytesBack s))
    (l := c.vits) fun _ _ h => h.devPut
  exact (vits.ite (vits.foldl fun _ _ h => h.devPut)).modCtx

protected theorem WellKept.readVits (h : WellKept s) : WellKept (readVits s ctx c) := by
  refine h.foldl fun s n h => WellKept.modCtx ?_
  split
  · exact h.devTouch
  · exact h.skipAccess

protected theorem WellKept.requeueEnded (h : WellKept s) : WellKept (requeueEnded s bn) := by
  unfold Machine.requeueEnded
  split
  · exact h.evictGang.ite h
  · exact h

protected theorem WellKept.drainAll {of : Nat → Bool} (h : WellKept s) : WellKept (drainAll s ctx of) := by
  unfold Machine.drainAll
  split
  · exact h.foldl fun _ _ h => h.drainSource
  · exact h

protected theorem WellKept.leaveSome (h : WellKept s) : WellKept (leaveSome s ctx cores) := by
  unfold Machine.leaveSome
  split
  · exact h
  · exact (h.writeTables.sweepAll.foldl fun _ _ h => h.dropCore).modCtx

protected theorem WellKept.execContextSwitchOut {out : SwitchOut} (h : WellKept s) :
    OutcomeKept (execContextSwitchOut out s) := by
  unfold Machine.execContextSwitchOut
  extract_lets cores ctx cs all ended s1 s2 of s3
  have h1 : WellKept s1 := (h.foldl fun _ _ h => h.requeueEnded).ite h
  have h2 : WellKept s2 := h1.foldl fun s e h => by
    split
    · exact h.ite h.requestPreempt
    · exact h
  have h3 : WellKept s3 := h2.drainAll
  show WellKept _
  split
  · exact h
  · exact h.ite ((h3.leaveSome.ite h3).ite h2)

protected theorem WellKept.execContextSwitchIn (h : WellKept s) : OutcomeKept (execContextSwitchIn ctx s) := by
  show WellKept _
  split
  · exact h
  · split
    · exact h
    · refine WellKept.modCtx (h.modCtx.readVits.foldl fun s e h => ?_)
      split
      · exact h.resolveGrid
      · exact h

protected theorem WellKept.migStatus (h : WellKept s) : WellKept (migStatus s n) := h.modDev

protected theorem WellKept.hostClaim (h : WellKept s) : WellKept (hostClaim s ctx page) := by
  unfold Machine.hostClaim
  split
  · exact h.migStatus
  · split
    · exact h.modDev.migStatus.countConflict
    · exact h.modDev.migStatus

protected theorem WellKept.hostRelease (h : WellKept s) : WellKept (hostRelease s ctx page) := h.modDev

protected theorem WellKept.execMigClaim (h : WellKept s) : OutcomeKept (execMigClaim val s) := by
  show WellKept _
  split
  · exact h.hostClaim
  · exact h
  · exact h.migStatus

protected theorem WellKept.execMigRelease (h : WellKept s) : OutcomeKept (execMigRelease val s) := h.hostRelease.ite h

protected theorem WellKept.execMigClaimExpiry (h : WellKept s) : OutcomeKept (execMigClaimExpiry ctx page s) :=
  h.hostRelease.ite h

protected theorem WellKept.execPagePinExpiry (h : WellKept s) : OutcomeKept (execPagePinExpiry ctx page s) := h.modDev

end

end Sys2Proof

/-! ## Containment of errors (Machine/Contain.lean) -/

namespace Sys2Proof

open Machine

section

variable {s : State} {ctx core slot bn die link key cls pa owner index lane n : Nat} {space : Space} {store : ErrStore}
  {matrix : Bool} {val : BitVec 64}

protected theorem WellKept.startVisit (h : WellKept s) : WellKept (startVisit s core) :=
  h.modCore.foldl fun _ _ h => h.endNaps

protected theorem WellKept.execCuratorVisitStart (h : WellKept s) : OutcomeKept (execCuratorVisitStart die s) := by
  refine WellKept.ite h ?_
  split
  · exact h
  · exact h.modDev.startVisit

protected theorem WellKept.execCuratorHostRequest (h : WellKept s) : OutcomeKept (execCuratorHostRequest core s) :=
  h.ite h.startVisit

protected theorem WellKept.postpone (h : WellKept s) : WellKept (postpone s core) :=
  (h.foldl fun _ _ h => h.foldl fun _ _ h => h.modBlock).modCore.count

protected theorem WellKept.execCuratorDrainExpiry (h : WellKept s) : OutcomeKept (execCuratorDrainExpiry core s) := by
  show WellKept _
  split
  · exact h
  · extract_lets s1
    have h1 : WellKept s1 := h.foldl fun s bn h => by
      split
      · exact h.ite h.requestPreempt
      · exact h
    exact h.modCore.ite (h.ite (h1.postpone.ite h1))

protected theorem WellKept.suspectGrid {g : Nat × Nat} (h : WellKept s) : WellKept (suspectGrid s g) := by
  unfold Machine.suspectGrid
  split
  · exact h
  · split
    · exact h.setGrid
    · exact h.setGrid
    · exact h.modGrid
    · exact h.modGrid
    · exact h

protected theorem WellKept.listSuspects {gs : List Nat} (h : WellKept s) : WellKept (listSuspects s gs) := h.modDev

protected theorem WellKept.fenceCore (h : WellKept s) : WellKept (fenceCore s core) :=
  (h.modCore.foldl fun _ _ h => h.suspectGrid).errRecord.listSuspects.modDev.hostEvent

protected theorem WellKept.passScan (h : WellKept s) : WellKept (passScan s core n) :=
  h.modCore.foldl fun _ _ h => h.modGrid.vouchCheck

protected theorem WellKept.execCuratorScanComplete {pass : Bool} (h : WellKept s) :
    OutcomeKept (execCuratorScanComplete core pass s) := by
  show WellKept _
  split
  · exact h
  · exact h.ite (h.modCore.passScan.freeCores.ite h.modCore.fenceCore)

protected theorem WellKept.mismatch (h : WellKept s) : WellKept (mismatch s core slot) := by
  unfold Machine.mismatch
  split
  · exact h
  · exact h.ite (h.modCore.count.fenceCore.ite h.modCore.count)

protected theorem WellKept.counted (h : WellKept s) : WellKept (counted s) := h.modDev

protected theorem WellKept.poisonStore (h : WellKept s) : OptionKept (poisonStore s store owner index lane) := by
  unfold Machine.poisonStore
  split
  · split
    · split
      · exact h.setWarp
      · trivial
    · trivial
  · split
    · split
      · exact h.setWarp
      · trivial
    · trivial
  · split
    · split
      · exact h.setBlock
      · trivial
    · trivial
  · dsimp only
    split
    · exact h.modCore
    · trivial
  · split
    · exact h.setBlock
    · trivial
  · split
    · exact h.setBlock
    · trivial
  · split
    · exact h.setBlock
    · trivial

protected theorem WellKept.execUncorrectableWordError (h : WellKept s) :
    OutcomeKept (execUncorrectableWordError store owner index lane s) := by
  show WellKept _
  split
  · exact h
  · split
    · exact (h.poisonStore.some ‹_›).errRecord
    · exact (h.poisonStore.some ‹_›).errRecord

/-- A mark of poison is no byte. -/
protected theorem WellKept.poisonSector (h : WellKept s) : WellKept (poisonSector s key) :=
  h.remember.modMem fun _ hm => Mem.wf_setPois hm _ _

protected theorem WellKept.badSector (h : WellKept s) : WellKept (badSector s cls space pa) := h.poisonSector.errRecord

protected theorem WellKept.badDirty (h : WellKept s) : WellKept (badDirty s space pa) := by
  unfold Machine.badDirty
  dsimp only
  split
  · exact h.modBlock.errRecord.takeFree
  · exact h.ite (h.badSector.ite h.badSector.takeFree)

protected theorem WellKept.badL1 (h : WellKept s) : WellKept (badL1 s core space pa) := h.landDirty.badSector.ite h

protected theorem WellKept.execCacheSectorError {kind : CacheErr} {a : SectorAddr} (h : WellKept s) :
    OutcomeKept (execCacheSectorError kind a s) := by
  show WellKept _
  split
  · exact h.counted
  · exact h.counted
  · exact h.badSector
  · exact h.badDirty
  · exact h.ite h.badSector
  · exact h.badSector.ite h
  · exact h.badL1

protected theorem WellKept.killAfterDump (h : WellKept s) : WellKept (killAfterDump s bn) := by
  unfold Machine.killAfterDump
  split
  · exact h.modCtx.ite h.killGang
  · exact h

protected theorem WellKept.execFrontierParityError (h : WellKept s) : OutcomeKept (execFrontierParityError core slot s) := by
  show WellKept _
  split
  · exact h
  · split
    · exact h
    · exact h.errRecord.killAfterDump

protected theorem WellKept.execTranslationParityError (h : WellKept s) : OutcomeKept (execTranslationParityError ctx n s) :=
  h.modCtx.counted

protected theorem WellKept.execInstructionCacheParityError (h : WellKept s) :
    OutcomeKept (execInstructionCacheParityError core s) :=
  WellKept.counted (s := { s with warps := _ }) h

protected theorem WellKept.resetDie (h : WellKept s) : WellKept (resetDie s die) := by
  unfold Machine.resetDie
  extract_lets cores bs s1 fresh s2 s3 s4
  have h1 : WellKept s1 := h.foldl fun _ _ h => h.killGang
  have h2 : WellKept s2 := h1.foldl fun _ _ h => h.modCore
  have h3 : WellKept s3 := h2.foldl fun _ _ h => h.modPair
  have h4 : WellKept s4 := h3
  exact h4.modDev

protected theorem WellKept.resetAfterDump (h : WellKept s) : WellKept (resetAfterDump s die) := by
  unfold Machine.resetAfterDump
  split
  · exact h.modCtx
  · exact h.resetDie

protected theorem WellKept.execRegistrarStateError (h : WellKept s) : OutcomeKept (execRegistrarStateError die s) :=
  h.errRecord.resetAfterDump.ite h

protected theorem WellKept.execPartReset (h : WellKept s) : OutcomeKept (execPartReset val s) :=
  h.modDev.resetAfterDump.ite h.modDev

protected theorem WellKept.execPartitionResetComplete {failed : List Nat} (h : WellKept s) :
    OutcomeKept (execPartitionResetComplete die failed s) :=
  h.ite ((h.foldl fun _ _ h => h.ite (h.modCore.fenceCore.ite h.modCore.passScan)).modDev.freeCores)

protected theorem WellKept.resetCopyEngine (h : WellKept s) : WellKept (resetCopyEngine s core) :=
  (h.foldl fun _ _ h => h.copyPacket).modCore.foldl fun _ _ h => h.asyncFault

protected theorem WellKept.resetMatrixEngine (h : WellKept s) : WellKept (resetMatrixEngine s n) := by
  refine WellKept.modPair ?_
  split
  · exact h.killAfterDump
  · exact h

protected theorem WellKept.resetEngine (h : WellKept s) : WellKept (resetEngine s matrix core) := by
  unfold Machine.resetEngine
  split
  · dsimp only
    split
    · exact h.errRecord.resetMatrixEngine
    · exact h.errRecord.resetMatrixEngine
  · exact h.errRecord.resetCopyEngine

protected theorem WellKept.execEngineStateError (h : WellKept s) : OutcomeKept (execEngineStateError matrix core s) :=
  h.resetEngine

protected theorem WellKept.execEngineTimeout (h : WellKept s) : OutcomeKept (execEngineTimeout matrix core s) :=
  h.resetEngine.ite h

protected theorem WellKept.execEngineResetComplete (h : WellKept s) : OutcomeKept (execEngineResetComplete matrix core s) :=
  h.modPair.ite h.modCore

protected theorem WellKept.linkRecord (h : WellKept s) : WellKept (linkRecord s link n) := h.errRecord

protected theorem WellKept.resetLink (h : WellKept s) : WellKept (resetLink s link) := h.modLink.linkRecord

protected theorem WellKept.execFlitCheckFailure {flit : LinkFlit} (h : WellKept s) :
    OutcomeKept (execFlitCheckFailure flit s) := h.ite (h.resetLink.ite h.modLink.linkRecord)

protected theorem WellKept.execLaneFailure (h : WellKept s) : OutcomeKept (execLaneFailure link s) :=
  h.ite h.modLink.modDev.resetLink

protected theorem WellKept.execLinkRetrainComplete (h : WellKept s) : OutcomeKept (execLinkRetrainComplete link s) :=
  h.modLink.ite h

protected theorem WellKept.poisonLoads (h : WellKept s) : WellKept (poisonLoads s link) :=
  WellKept.takeFree (s := { s with warps := _ }) h

protected theorem WellKept.execLinkDownTimeout (h : WellKept s) : OutcomeKept (execLinkDownTimeout link s) := by
  show WellKept _
  split
  · exact h
  · exact h.ite (h.modLink.poisonLoads.linkRecord.ite h.modLink.poisonLoads.linkRecord.modDev)

end

end Sys2Proof

/-! ## Control flow (Machine/Control.lean) -/

namespace Sys2Proof

open Machine

section

variable {s s0 : State} {wid : Nat} {it : Iss} {o : Opnds} {gs : List Group} {off : BitVec 24} {mask : BitVec 12}
  {code : BitVec 8}

protected theorem WellKept.execYield (h : WellKept s) : OutcomeKept (execYield o s) :=
  h.issue fun _ _ h => h.commit.ite h.commit.modWarp

protected theorem WellKept.condBranch {t : DWord} {taken : Word} {cond : Bool} (h0 : WellKept s0) (h : WellKept s) :
    WellKept (condBranch it s0 s t taken cond) := by
  unfold Machine.condBranch
  exact h0.orRefill (h.branchTo fun _ h => h.divPacket.ite (h.brBit.ite h))

protected theorem WellKept.execBra {uni : Bool} (h : WellKept s) : OutcomeKept (execBra o off uni s) :=
  h.issue fun _ _ h => (h.raise.ite (h.condBranch h.count)).ite (h.condBranch h)

protected theorem WellKept.targetPackets (h : WellKept s) : WellKept (targetPackets it s gs) :=
  h.foldl fun _ _ h => h.userPacket

protected theorem WellKept.indirect {k : List Group → State} (h : WellKept s) (hk : ∀ gs, WellKept (k gs)) :
    WellKept (indirect it s k) := by
  unfold Machine.indirect
  split
  · exact h.raise
  · split
    · exact h.raise
    · split
      · exact h.raise
      · exact hk _

protected theorem WellKept.goIndirect (h0 : WellKept s0) (h : WellKept s) : WellKept (goIndirect it s0 s gs) :=
  h0.orRefill (h.modWarp.branchTo fun _ h => h.targetPackets)

protected theorem WellKept.execBri (h : WellKept s) : OutcomeKept (execBri o s) :=
  h.issue fun _ _ h => h.indirect fun _ => h.goIndirect h

protected theorem WellKept.execRet (h : WellKept s) : OutcomeKept (execRet o s) :=
  h.issue fun _ _ h => h.indirect fun _ => h.goIndirect h

protected theorem WellKept.linked (h : WellKept s) : WellKept (linked it s) := h.ite h.modWarp

protected theorem WellKept.execCall (h : WellKept s) : OutcomeKept (execCall o off s) :=
  h.issue fun _ _ h => h.condBranch h.linked

protected theorem WellKept.execCalli (h : WellKept s) : OutcomeKept (execCalli o s) :=
  h.issue fun _ _ h => h.indirect fun _ => h.goIndirect h.linked

protected theorem WellKept.warpGone (h : WellKept s) : WellKept (warpGone s wid) := by
  unfold Machine.warpGone
  split
  · exact h
  · split
    · exact h
    · dsimp only
      split
      · exact h.modWarp.modBlock.settleBarriers.settleGbar
      · exact h.modWarp.modBlock

protected theorem WellKept.handlerEmptied (h : WellKept s) : ExceptKept (handlerEmptied s wid) := by
  unfold Machine.handlerEmptied
  split
  · exact h
  · split
    · exact h
    · split
      · exact h
      · dsimp only
        split
        · exact h.setWarp.releaseHandling.advance.ite h.setWarp.releaseHandling
        · exact h.setWarp.releaseHandling.leaveLanes

protected theorem WellKept.execExit (h : WellKept s) : OutcomeKept (execExit o s) := by
  refine h.issue fun it s h => ?_
  refine h.commit.ite ?_
  extract_lets s1 s2
  have h2 : WellKept s2 := h.exitlPacket.ite h.exitlPacket.advance
  split
  · exact h.takeTrap
  · split
    · exact h.takeTrap
    · exact ((h2.leaveLanes.ok ‹_›).handlerEmptied.ok ‹_›).warpGone

protected theorem WellKept.execNap (h : WellKept s) : OutcomeKept (execNap o s) :=
  h.issue fun _ _ h => h.commit.ite (h.raise.ite (h.commit.modWarp.ite h.parkWait))

protected theorem WellKept.parkFlags (h : WellKept s) : WellKept (parkFlags s wid mask) := h.modWarp

protected theorem WellKept.execFwait (h : WellKept s) : OutcomeKept (execFwait o mask s) :=
  h.issue fun _ _ h => h.commit.ite h.parkFlags

protected theorem WellKept.execSetfmt {form : SetFmtForm} (h : WellKept s) : OutcomeKept (execSetfmt o form s) :=
  h.issue fun _ _ h => h.commit.ite (h.commit.ite (h.raise.ite (h.raise.ite h.commit)))

protected theorem WellKept.codeTrap {c : Cause} (h : WellKept s) : WellKept (codeTrap it s c code) := h.commit.ite h.takeTrap

end

end Sys2Proof

/-! ## Registering a grid (Machine/Register.lean) -/

namespace Sys2Proof

open Machine

section

variable {s : State} {ctx gid q idx n : Nat} {d : Desc} {im : Image}

protected theorem WellKept.predictP (h : WellKept s) : WellKept (predictP s ctx d).1 := by
  unfold Machine.predictP
  split
  · exact h
  · exact h.readPred

protected theorem WellKept.shapeAtReg (h : WellKept s) : WellKept (shapeAtReg s ctx gid d) := by
  unfold Machine.shapeAtReg
  split
  · exact h
  · extract_lets w t te s1 s2 s3 r
    have h1 : WellKept s1 := h.ite h.countR
    have h2 : WellKept s2 := h1.modGrid
    have h3 : WellKept s3 := h2.provPacket
    exact (h3.updatePred.ite h3).ite h.predictP.modGrid.provPacket

protected theorem WellKept.settleChild {g : Option Nat} (h : WellKept s) : WellKept (settleChild s ctx q idx g) := by
  unfold Machine.settleChild
  dsimp only
  split
  · exact h.modQueue
  · exact h.modQueue.modBlock

protected theorem WellKept.failLaunch (h : WellKept s) : WellKept (failLaunch s ctx q idx d im n) :=
  h.devPut.settleChild.entryDone

protected theorem WellKept.countLossless (h : WellKept s) : WellKept (countLossless s ctx d) := h.countR.ite h

protected theorem WellKept.registerGrid {e : QEntry} (h : WellKept s) : WellKept (registerGrid s ctx q e n d im) := by
  unfold Machine.registerGrid
  split
  · exact h
  · extract_lets gid p src g s1 s2 s3 s4
    have h1 : WellKept s1 := h
    have h2 : WellKept s2 := h1.modCtx.settleChild
    have h3 : WellKept s3 := h2.modEntry
    have h4 : WellKept s4 := h3.writeRecord.countLossless.shapeAtReg.gridCheck
    exact h4.markKilled.ite h4

protected theorem WellKept.launchTouched {img : Option (List Byte × Image)} (h : WellKept s) :
    WellKept (launchTouched s ctx n d img) := by
  unfold Machine.launchTouched
  extract_lets s1 s2 s3
  have h1 : WellKept s1 := h.devTouch.devTouch
  have h2 : WellKept s2 := by
    unfold s2
    split
    · exact h1
    · exact h1.devTouch.devTouch.devTouch
  have h3 : WellKept s3 := h2.ite h2.devTouch
  exact h3.devTouch.ite h3

protected theorem WellKept.execLaunchEntry (h : WellKept s) : OutcomeKept (execLaunchEntry ctx q s) := by
  refine h.actOn fun x e => ?_
  split
  · dsimp only
    split
    · exact h.modEntry.ite h.launchTouched.registerGrid
    · exact h.launchTouched.failLaunch
  · exact h.entryStuck

end

end Sys2Proof

/-! ## The Docent (Machine/Docent.lean) -/

namespace Sys2Proof

open Machine

section

variable {s : State} {wid core slot n : Nat}

protected theorem WellKept.demote (h : WellKept s) : WellKept (demote s wid core) := h.modWarp.count

protected theorem WellKept.promote (h : WellKept s) : WellKept (promote s wid core n) := h.modWarp.modCore.count

protected theorem WellKept.noteCands (h : WellKept s) : WellKept (noteCands s core) := h.foldl fun _ _ h => h.modWarp

protected theorem WellKept.demoteIdle (h : WellKept s) : WellKept (demoteIdle s core) := by
  refine h.foldl fun s e h => ?_
  split
  · exact h.demote.ite h
  · exact h

protected theorem WellKept.fillSlot (h : WellKept s) : WellKept (fillSlot s core) := by
  unfold Machine.fillSlot
  extract_lets s1
  have h1 : WellKept s1 := by
    unfold s1
    split
    · exact h.ite h.modCore
    · exact h
  split
  · exact h1.promote
  · exact h1

protected theorem WellKept.displace (h : WellKept s) : WellKept (displace s core) := by
  unfold Machine.displace
  split
  · exact h
  · split
    · exact h
    · split
      · exact h.modCore.demote.ite h
      · exact h

protected theorem WellKept.execDocentEvaluation (h : WellKept s) : OutcomeKept (execDocentEvaluation core s) :=
  h.ite (h.noteCands.demoteIdle.fillSlot.ite h.noteCands.demoteIdle.displace)

protected theorem WellKept.execDemotionComplete (h : WellKept s) : OutcomeKept (execDemotionComplete core slot s) := by
  show WellKept _
  split
  · exact h
  · split
    · exact h
    · exact h.setWarp.fillSlot.ite h

protected theorem WellKept.lockLeft (h : WellKept s) : WellKept (lockLeft s wid core) := by
  unfold Machine.lockLeft
  split
  · exact h
  · split
    · exact h.demote.ite h
    · exact h

end

end Sys2Proof

/-! ## Barriers, rings, locks and waits on words (Machine/Sync.lean) -/

namespace Sys2Proof

open Machine

section

variable {s k : State} {wid core bn key place slot i n since phase : Nat} {it : Iss} {o : Opnds} {scope : Scope} {x : Wait}
  {va : DWord} {d : Opd} {sp wait : Bool}

protected theorem WellKept.parkWord (h : WellKept s) : WellKept (parkWord s wid x) := h.parkWait.modCtx.ite h.parkWait

protected theorem WellKept.waitAcquires (h : WellKept s) : WellKept (waitAcquires s wid x) := by
  unfold Machine.waitAcquires
  split
  · exact h.acquireAt
  · exact h

protected theorem WellKept.orWait {park : State → Nat → Wait → State} {f : State → Eval} (h : WellKept s)
    (hp : ∀ s wid x, WellKept s → WellKept (park s wid x)) (hf : EvalKept (f s)) : WellKept (orWait it s x park f) := by
  unfold Machine.orWait
  generalize f s = e at hf ⊢
  cases e with
  | wait t => exact hp _ _ _ hf
  | done t d v => exact hf.waitAcquires.commit
  | trap c sub addr => exact h.raise

protected theorem WellKept.opsClean {os : List (Ty × Opd)} (h : WellKept s) (hk : WellKept k) :
    WellKept (opsClean it s os k) := h.raise.ite hk

protected theorem WellKept.ctrlWord {a : Opd} {write ctl : Bool} {types : Tgt → Bool} {sub : Nat}
    {k : State → Tgt → Nat → State} (h : WellKept s) (hk : ∀ s t x, WellKept s → WellKept (k s t x)) :
    WellKept (ctrlWord it s a n write ctl types sub k) := by
  unfold Machine.ctrlWord
  dsimp only
  split
  · exact h.raise
  · exact h.raise.ite (h.settle.raise.ite (h.settle.watchFirst (hk _ _ _ h.settle.used.takeFree.observeBy)))

protected theorem WellKept.fenceRel (h : WellKept s) : WellKept (fenceRel it s scope) := h.modWarp.ite h.releaseAt

protected theorem WellKept.execFence {kind : FenceKind} (h : WellKept s) : OutcomeKept (execFence o kind scope s) := by
  refine h.issue fun it s h => ?_
  refine h.commit.ite (WellKept.commit ?_)
  have released : WellKept (match kind with
      | .acq => s
      | .rel | .acqrel => fenceRel it s scope
      | .sc => releaseAt s it.wid scope) := by
    cases kind with
    | acq => exact h
    | rel => exact h.fenceRel
    | acqrel => exact h.fenceRel
    | sc => exact h.releaseAt
  exact released.ite released.acquireAt

protected theorem WellKept.modBarrier {f : Barrier → Barrier} (h : WellKept s) : WellKept (modBarrier s bn i f) := h.modBlock

protected theorem WellKept.evalBar {token : Word} (h : WellKept s) : EvalKept (evalBar s bn i token) := by
  unfold Machine.evalBar
  dsimp only
  split
  · exact h
  · split
    · trivial
    · exact h

protected theorem WellKept.barNumber {k : Nat → State} (h : WellKept s) (hk : ∀ i, WellKept (k i)) :
    WellKept (barNumber it s k) := h.opsClean (h.raise.ite (h.raise.ite (hk _)))

protected theorem WellKept.arrive {k : State → Word → State} (h : WellKept s)
    (hk : ∀ s token, WellKept s → WellKept (k s token)) : WellKept (arrive it s i k) := by
  unfold Machine.arrive
  dsimp only
  split
  · exact h
  · exact h.modBarrier.raise.ite (hk _ _ h.releaseAt.modBarrier)

protected theorem WellKept.execBar (h : WellKept s) : OutcomeKept (execBar o s) :=
  h.issue fun _ _ h => h.commit.ite (h.barNumber fun _ => h.arrive fun _ _ h =>
    h.orWait (fun _ _ _ h => h.parkWait) h.evalBar)

protected theorem WellKept.execBara (h : WellKept s) : OutcomeKept (execBara o s) :=
  h.issue fun _ _ h => h.commit.ite (h.barNumber fun _ => h.arrive fun _ _ h => h.commit)

protected theorem WellKept.execBarw (h : WellKept s) : OutcomeKept (execBarw o s) :=
  h.issue fun _ _ h => h.commit.ite (h.barNumber fun _ => h.orWait (fun _ _ _ h => h.parkWait) h.evalBar)

protected theorem WellKept.evalGbar (h : WellKept s) : EvalKept (evalGbar s wid phase) := by
  unfold Machine.evalGbar
  split
  · exact h
  · split
    · exact h
    · split
      · trivial
      · exact h

protected theorem WellKept.execGbar (h : WellKept s) : OutcomeKept (execGbar o s) := by
  refine h.issue fun it s h => ?_
  split
  · have arrived := h.releaseAt (wid := it.wid) (sc := .dev)
    exact h.commit.ite (h.raise.ite (arrived.modGrid.settleGbar.orWait (fun _ _ _ h => h.parkWait)
      arrived.modGrid.settleGbar.evalGbar))
  · exact h.commit

protected theorem WellKept.ctrlScr {write : Bool} {k : Option Nat × Nat → Nat → State} (h : WellKept s)
    (hk : ∀ p x, WellKept (k p x)) : WellKept (ctrlScr it s write k) := by
  unfold Machine.ctrlScr
  dsimp only
  split
  · exact h.raise
  · exact h.settleScr.raise.ite (h.settleScr.watchFirst (hk _ _))

protected theorem WellKept.execArv (h : WellKept s) : OutcomeKept (execArv o scope sp s) := by
  refine h.issue fun it s h => ?_
  refine h.commit.ite (h.opsClean (WellKept.ite (h.ctrlScr fun p x => ?_) (h.ctrlWord fun s t x h => ?_)))
  · split
    · exact h.raise
    · exact h.releaseAt.scrWrite.wakeOverflow.commit
  · split
    · exact h.raise
    · exact h.orQuota h.releaseAt.storeGlobal.wakeOverflow.commit

protected theorem WellKept.evalAwait {owner : Option Nat} {ph : Bool} (h : WellKept s) :
    EvalKept (evalAwait s wid place sp owner ph va) := by
  unfold Machine.evalAwait
  extract_lets s1 d
  have h1 : WellKept s1 := h.settleScr.ite h.settle
  split
  · trivial
  · split
    · exact h1
    · exact h1.ite h1.observeBy

protected theorem WellKept.execAwait (h : WellKept s) : OutcomeKept (execAwait o scope sp s) :=
  h.issue fun _ _ h => h.commit.ite (h.opsClean (WellKept.ite
    (h.ctrlScr fun _ _ => h.orWait (fun _ _ _ h => h.parkWord) h.evalAwait)
    (h.ctrlWord fun _ _ _ h => h.orWait (fun _ _ _ h => h.parkWord) h.evalAwait)))

protected theorem WellKept.settleRing (h : WellKept s) : WellKept (settleRing it s) := by
  unfold Machine.settleRing
  split
  · exact h.settleScr
  · exact h

protected theorem WellKept.watchRing {write : Bool} (h : WellKept s) (hk : WellKept k) :
    WellKept (watchRing it s slot write k) := h.watchFirst (h.watchFirst hk)

protected theorem WellKept.execRinga {slot : Fin 64} (h : WellKept s) : OutcomeKept (execRinga o slot s) := by
  refine h.issue fun it s h => ?_
  refine h.commit.ite (h.opsClean ?_)
  dsimp only
  split
  · exact h.settleRing.raise
  · exact h.settleRing.watchRing h.settleRing.releaseAt.ringArrive.commit

protected theorem WellKept.evalRing {a : Word} {ph : Bool} (h : WellKept s) : EvalKept (evalRing s bn a slot ph) := by
  unfold Machine.evalRing
  split
  · trivial
  · split
    · exact h
    · exact h

protected theorem WellKept.execRingw {slot : Fin 64} (h : WellKept s) : OutcomeKept (execRingw o slot s) := by
  refine h.issue fun it s h => ?_
  refine h.commit.ite (h.opsClean ?_)
  dsimp only
  split
  · exact h.settleRing.raise
  · exact h.settleRing.watchRing (h.settleRing.orWait (fun _ _ _ h => h.parkWait) h.settleRing.evalRing)

protected theorem WellKept.takeLock (h : WellKept s) : WellKept (takeLock s wid key n).1 := by
  unfold Machine.takeLock
  dsimp only
  split
  · exact h
  · exact h.putWord8.setBlock.modWarp

protected theorem WellKept.evalLock (h : WellKept s) : EvalKept (evalLock s wid key va d) := by
  unfold Machine.evalLock
  extract_lets bn s1 w
  have h1 : WellKept s1 := h.settle
  split
  · trivial
  · split
    · exact h1
    · split
      · exact h1
      · split
        · exact h1.ite h1.putWord8
        · exact h1.takeLock.observeBy

protected theorem WellKept.execLkacq (h : WellKept s) : OutcomeKept (execLkacq o wait s) := by
  refine h.issue fun it s h => ?_
  refine h.commit.ite (h.opsClean (h.ctrlWord fun s t x h => ?_))
  split
  · exact h
  · split
    · exact h.commit
    · split
      · exact h.commit
      · split
        · split
          · exact h.commit
          · exact (h.ite h.putWord8).parkWord.of_mem_eq rfl
        · exact h.takeLock.acquireAt.commit

protected theorem WellKept.execLkrel (h : WellKept s) : OutcomeKept (execLkrel o s) := by
  refine h.issue fun it s h => ?_
  refine h.commit.ite (h.opsClean (h.ctrlWord fun s t x h => ?_))
  split
  · split
    · exact h.releaseAt.releaseLock.wakeOverflow.commit
    · exact h.releaseAt.releaseLock.wakeOverflow.commit.lockLeft
  · exact h.wakeOverflow.commit

protected theorem WellKept.evalWaitv {expect : Word} {woken : Bool} (h : WellKept s) :
    EvalKept (evalWaitv s wid key va expect d woken since scope) := by
  unfold Machine.evalWaitv
  split
  · exact h
  · dsimp only
    split
    · trivial
    · split
      · exact h.settle.modWarp
      · exact h.settle.takeFree.observeBy

protected theorem WellKept.execWaitv (h : WellKept s) : OutcomeKept (execWaitv o scope s) := by
  refine h.issue fun it s h => ?_
  refine h.commit.ite (h.opsClean (h.ctrlWord fun s t x h => ?_))
  split
  · exact h.acquireAt.commit
  · exact h.parkWord.of_mem_eq rfl

protected theorem WellKept.execWake (h : WellKept s) : OutcomeKept (execWake o scope s) :=
  h.issue fun _ _ h => h.commit.ite (h.opsClean (h.ctrlWord fun _ _ _ h =>
    (h.releaseAt.storeGlobal.foldl fun _ _ h => h.wakeFault).wakeOverflow.commit))

end

end Sys2Proof

/-! ## Launches and queues (Machine/Launch.lean) -/

namespace Sys2Proof

open Machine

section

variable {s : State} {wid ctx blk core q bn idx key : Nat} {x : Queue} {c : Qcb} {bs : List Byte} {it : Iss} {o : Opnds}
  {wait : Bool} {va : DWord} {d : Opd}

protected theorem WellKept.pushEntry (h : WellKept s) : OptionKept (pushEntry s ctx blk core q x c bs) := by
  unfold Machine.pushEntry
  extract_lets s1 r
  have h1 : WellKept s1 := h.devTouch.writeBack
  have hr : OptionKept r := by
    unfold r
    split
    · cases proxyBanks s1 ctx core x c with
      | none => trivial
      | some banks => exact h1.modQueue
    · exact h1.devWrite
  exact hr.bind fun _ h => h.devWrite

protected theorem WellKept.pushOrWait {t : Nat × Queue × Qcb} {k : State → State} (h : WellKept s)
    (hk : ∀ s, WellKept s → WellKept (k s)) : WellKept (pushOrWait it s wait t bs k) := by
  unfold Machine.pushOrWait
  dsimp only
  split
  · exact h.parkWait.ite h.commit
  · split
    · exact h.raise
    · exact (hk _ (h.pushEntry.some ‹_›)).commit

protected theorem WellKept.execQpush (h : WellKept s) : OutcomeKept (execQpush o wait s) := by
  refine h.issue fun it s h => ?_
  refine h.commit.ite (h.raise.ite ?_)
  dsimp only
  split
  · exact h.pushReady.raise
  · exact h.pushReady.raise.ite (h.pushReady.pushOrWait fun _ h => h)

protected theorem WellKept.childPushed (h : WellKept s) : WellKept (childPushed s ctx q bn idx bs) := h.modQueue.modBlock

protected theorem WellKept.execLaunch {nreg : Fin 5} {barrier irq : Bool} (h : WellKept s) :
    OutcomeKept (execLaunch o nreg wait barrier irq s) := by
  refine h.issue fun it s h => ?_
  refine h.commit.ite (h.raise.ite ?_)
  dsimp only
  split
  · exact h.pushReady.raise
  · exact h.pushReady.commit.ite (h.pushReady.pushOrWait fun _ h => h.childPushed.ite h)

protected theorem WellKept.popped (h : WellKept s) : WellKept (popped s ctx blk core x c bs) :=
  h.devTouch.devTouch.putQcb.invalidate.hostEvent.ite h.devTouch.devTouch.putQcb.invalidate

protected theorem WellKept.execQpop (h : WellKept s) : OutcomeKept (execQpop o wait s) := by
  refine h.issue fun it s h => ?_
  refine h.commit.ite (h.raise.ite ?_)
  split
  · exact h.raise
  · dsimp only
    split
    · exact (h.queueError.ite h).parkWait.ite (h.queueError.ite h).commit
    · split
      · exact h.raise
      · exact h.popped.commit

protected theorem WellKept.evalGwait {vouch : Bool} (h : WellKept s) : EvalKept (evalGwait s wid key va vouch d) := by
  unfold Machine.evalGwait
  dsimp only
  split
  · trivial
  · split
    · exact h.settle
    · exact h.settle.takeFree

protected theorem WellKept.execGwait {vouch : Bool} (h : WellKept s) : OutcomeKept (execGwait o vouch s) :=
  h.issue fun _ _ h => h.commit.ite (h.opsClean (h.ctrlWord fun s _ _ h =>
    WellKept.orWait (s := { s with cmdNext := s.cmdNext + 1 }) h (fun _ _ _ h => h.parkWait)
      (WellKept.evalGwait (s := { s with cmdNext := s.cmdNext + 1 }) h)))

protected theorem WellKept.execShape (h : WellKept s) : OutcomeKept (execShape o s) :=
  h.issue fun _ _ h => h.commit.ite (h.opsClean (h.ctrlWord fun _ _ _ h => h.releaseAt.resolveWord.commit))

protected theorem WellKept.execProvq {mode : ProvqMode} (h : WellKept s) : OutcomeKept (execProvq o mode s) := by
  refine h.issue fun it s h => ?_
  refine h.commit.ite (h.opsClean ?_)
  cases mode with
  | self => exact h.commit
  | pred => exact h.readPred.commit
  | upd => exact h.updatePred.commit

end

end Sys2Proof

/-! ## Page tables, translation and handlers (Machine/System.lean) -/

namespace Sys2Proof

open Machine

section

variable {s : State} {ctx core slot base log2 head tail before after low n m va level x a : Nat} {it : Iss} {o : Opnds}
  {hd : Handler}

protected theorem WellKept.execRfe (h : WellKept s) : OutcomeKept (execRfe o s) :=
  h.issue fun _ _ h => h.commit.ite (h.raise.ite h.returnFromHandler)

protected theorem WellKept.poolHeader (h : WellKept s) : WellKept (poolHeader s ctx).1 := by
  unfold Machine.poolHeader
  dsimp only
  split
  · exact h.skipAccess
  · exact h.devTouch

protected theorem WellKept.countPool (h : WellKept s) : WellKept (countPool s ctx n) := h.modCtx

protected theorem WellKept.takeFrame (h : WellKept s) : WellKept (takeFrame ctx base log2 tail n head s).1 := by
  induction n generalizing s head with
  | zero => exact h.countPool
  | succ n ih =>
    unfold Machine.takeFrame
    split
    · exact h
    · dsimp only
      split
      · exact h.skipAccess
      · split
        · exact h.devTouch
        · exact ih h.devTouch.countPool

protected theorem WellKept.poolCheck (h : WellKept s) : WellKept (poolCheck s ctx before after low) := h.hostEvent.ite h

/-- A frame taken from the pool is written with zeros. -/
protected theorem WellKept.popFrame (h : WellKept s) : WellKept (popFrame s ctx).1 := by
  unfold Machine.popFrame
  dsimp only
  split
  · exact h.poolHeader.takeFrame.ite h.poolHeader.takeFrame.devPut.poolCheck
  · exact (h.poolHeader.takeFrame.ite h.poolHeader.takeFrame.devPut.poolCheck).putBy fun _ hm => Mem.wf_zeroPage hm _ _

protected theorem WellKept.execPgpop (h : WellKept s) : OutcomeKept (execPgpop o s) :=
  h.issue fun _ _ h => h.commit.ite h.popFrame.acquireAt.commit

/-- A page-table entry is a number written to memory. -/
protected theorem WellKept.mapLeaf (h : WellKept s) : WellKept (mapLeaf s ctx va level x a) := by
  have entry : WellKept (s.putBy none none (memKey .dev a) 8 false fun m => m.setNum (memKey .dev a) 8 x) :=
    h.putBy fun _ hm => Mem.wf_setNum hm _ _ _
  exact (entry.foldl fun _ _ h => h.freeEntry).wakeOverflow

protected theorem WellKept.execPgmap {l : Fin 3} (h : WellKept s) : OutcomeKept (execPgmap o l s) := by
  refine h.issue fun it s h => ?_
  refine h.commit.ite (h.raise.ite ?_)
  split
  · exact h.raise
  · exact (h.releaseAt.mapLeaf.ite h).commit

protected theorem WellKept.execTlbinv {kind : InvKind} (h : WellKept s) : OutcomeKept (execTlbinv o kind s) :=
  h.issue fun _ _ h => h.commit.ite (h.opsClean (h.commit.ite h.releaseAt.modWarp))

protected theorem WellKept.execTlbinvComplete (h : WellKept s) : OutcomeKept (execTlbinvComplete core slot s) := by
  show WellKept _
  split
  · split
    · exact h.modCtx.modWarp
    · exact h
  · exact h

protected theorem WellKept.execReplay {tok : Bool} (h : WellKept s) : OutcomeKept (execReplay o tok s) :=
  h.issue fun _ _ h => h.commit.ite (h.raise.ite h.replayAll.commit)

protected theorem WellKept.execPark (h : WellKept s) : OutcomeKept (execPark o s) :=
  h.issue fun _ _ h => h.commit.ite (h.raise.ite (h.raise.ite h.parkFromHandler))

protected theorem WellKept.csrVal {num : Csr} (h : WellKept s) : WellKept (csrVal it s hd num).1 := by
  cases num with
  | poolAvail => exact h.poolHeader
  | _ => exact h

protected theorem WellKept.execCsrrd {num : Csr} (h : WellKept s) : OutcomeKept (execCsrrd o num s) := by
  refine h.issue fun it s h => ?_
  split
  · exact h.commit
  · exact h.commit.ite h.csrVal.commit

protected theorem WellKept.execCsrwr {num : Csr} (h : WellKept s) : OutcomeKept (execCsrwr o num s) := by
  refine h.issue fun it s h => ?_
  dsimp only
  split
  · exact h.commit
  · refine h.commit.ite (h.raise.ite ?_)
    split
    · exact h.raise
    · exact h.commit

end

end Sys2Proof

/-! ## Trace words and halts (Machine/Nalux.lean) -/

namespace Sys2Proof

open Machine

section

variable {s : State} {ctx core : Nat} {o : Opnds}

protected theorem WellKept.execTrace {tag : BitVec 8} {n : Fin 9} (h : WellKept s) : OutcomeKept (execTrace o tag n s) :=
  h.issue fun _ _ h => h.commit.ite (h.raise.ite h.userPacket.commit)

protected theorem WellKept.syncNow (h : WellKept s) : WellKept (syncNow s ctx core).1 := by
  unfold Machine.syncNow
  dsimp only
  split
  · exact h
  · split
    · exact h.setUnit.count
    · exact h.setUnit.holdCheck

protected theorem WellKept.execTmark (h : WellKept s) : OutcomeKept (execTmark o s) := by
  refine h.issue fun it s h => ?_
  have marked : ∀ on : Bool, WellKept (if on then syncNow s it.ctx it.core else (s, none)).1 := fun on => by
    cases on with
    | false => exact h
    | true => exact h.syncNow
  exact h.commit.ite (marked _).commit

protected theorem WellKept.execHalt {dump : Bool} (h : WellKept s) : OutcomeKept (execHalt o dump s) := by
  refine h.issue fun it s h => ?_
  refine h.commit.ite ?_
  dsimp only
  split
  · exact h.commit.takeTrap.startDump.ite h.commit.takeTrap
  · exact h.commit.takeTrap

end

end Sys2Proof

/-! ## Waits that go on (Machine/Waits.lean) -/

namespace Sys2Proof

open Machine

section

variable {s : State} {wid core slot bn n : Nat} {w : Warp} {d : Opd}

protected theorem WellKept.onWarp {f : Nat → Warp → State} (h : WellKept s) (hf : ∀ wid w, WellKept (f wid w)) :
    WellKept (onWarp s core slot f) := by
  unfold Machine.onWarp
  split
  · exact h
  · split
    · exact h
    · exact hf _ _

protected theorem WellKept.endAcquire (h : WellKept s) : WellKept (endAcquire s wid) := by
  unfold Machine.endAcquire
  split
  · exact h.waitAcquires
  · exact h

protected theorem WellKept.listAgain (h : WellKept s) : WellKept (listAgain s wid) := h.modCtx.ite h

protected theorem WellKept.settleWait {e : Eval} (h : WellKept s) (he : EvalKept e) : WellKept (settleWait s wid e) := by
  cases e with
  | wait t => exact WellKept.listAgain he
  | done t d v => exact (WellKept.endAcquire he).finishWait
  | trap c sub addr =>
    unfold Machine.settleWait
    dsimp only
    split
    · exact h
    · exact h.setWarp.takeTrap

protected theorem WellKept.endWait (h : WellKept s) : WellKept (endWait s wid) := h.endAcquire.finishWait

protected theorem WellKept.reissue (h : WellKept s) : WellKept (reissue s wid) := h.modWarp

protected theorem WellKept.evalAcalloc (h : WellKept s) : WellKept (evalAcalloc s wid core n d) := by
  unfold Machine.evalAcalloc
  dsimp only
  split
  · exact h
  · exact h.grantGranules.finishWait.dismissWaiters.ite h

protected theorem WellKept.evalCpclose {lanes : Word} (h : WellKept s) : WellKept (evalCpclose s wid w d lanes) :=
  h.ite h.setWarp

protected theorem WellKept.evalWait (h : WellKept s) : WellKept (evalWait s wid core w) := by
  unfold Machine.evalWait
  split
  · exact h
  · rename_i x _
    cases x with
    | reissue => exact h.reissue
    | queue => exact h.reissue
    | quota => exact h.reissue.ite h
    | held =>
      dsimp only
      split
      · exact h.ite h.reissue
      · exact h
    | fwait m => exact h.endWait.ite h
    | cpwait n => exact h.endWait.ite h
    | cpclose d lanes => exact h.evalCpclose
    | bar b t => exact h.settleWait h.evalBar
    | gbar p => exact h.settleWait h.evalGbar
    | await place scr owner ph va sc => exact h.ite (h.settleWait h.evalAwait)
    | ringw r slot ph => exact h.settleWait h.evalRing
    | lkacq key va d since => exact h.ite (h.settleWait h.evalLock)
    | waitv key va e d woken since sc => exact h.ite (h.settleWait h.evalWaitv)
    | gwait key va vouch d since => exact h.settleWait h.evalGwait
    | acalloc g d since => exact h.evalAcalloc
    | accClear gs => exact h.ite h.reissue
    | publish i d num =>
      cases num with
      | none => exact h.ite h.swapVitrine.modWarp
      | some n => exact h
    | _ => exact h

protected theorem WellKept.execWaitComplete (h : WellKept s) : OutcomeKept (execWaitComplete core slot s) :=
  h.onWarp fun _ _ => h.evalWait.ite h

protected theorem WellKept.execNapExpiry (h : WellKept s) : OutcomeKept (execNapExpiry core slot s) := by
  refine h.onWarp fun wid w => ?_
  split
  · exact h.endWait.ite h
  · exact h

protected theorem WellKept.execAsyncFaultDelivery (h : WellKept s) : OutcomeKept (execAsyncFaultDelivery core slot s) :=
  h.onWarp fun _ _ => (h.deliver.getD h).ite h

protected theorem WellKept.execIcinvComplete (h : WellKept s) : OutcomeKept (execIcinvComplete core slot s) := by
  refine h.onWarp fun wid w => ?_
  split
  · exact h.endWait.of_mem_eq rfl
  · exact h

protected theorem WellKept.execLongLatencyComplete (h : WellKept s) :
    OutcomeKept (execLongLatencyComplete core slot n s) := by
  refine h.onWarp fun wid w => ?_
  split
  · exact (h.makeRoom.ite h.makeRoom.modWarp).ite h
  · exact h

protected theorem WellKept.leaveFaults (h : WellKept s) : WellKept (leaveFaults s bn w) := by
  unfold Machine.leaveFaults
  split
  · exact h.orphanTrap
  · exact h

protected theorem WellKept.execSliceRetire (h : WellKept s) : OutcomeKept (execSliceRetire core slot n s) := by
  refine h.onWarp fun wid w => ?_
  have gone : ∀ f, WellKept (({ s with warps := adel wid s.warps }).modCore core f) := fun _ => WellKept.modCore h
  exact h.ite (WellKept.ite ((gone _).freeCores.leaveFaults.blockEnded.ite (gone _).freeCores.leaveFaults) h.setWarp.freeCores)

protected theorem WellKept.execCellRefill (h : WellKept s) : OutcomeKept (execCellRefill core slot s) := by
  refine h.onWarp fun wid w => ?_
  refine h.ite ?_
  split
  · exact h.ite h.takeTrap
  · exact h.ite (h.makeRoom.ite h.makeRoom.modWarp)

protected theorem WellKept.reserveMiss {x : Option (Nat × Nat)} (h : WellKept s) : WellKept (reserveMiss s core x) := by
  unfold Machine.reserveMiss
  dsimp only
  split
  · exact h.modCore
  · exact h.modCore.modWarp

protected theorem WellKept.execMissStatusReissue (h : WellKept s) : OutcomeKept (execMissStatusReissue core s) :=
  h.ite h.reserveMiss

protected theorem WellKept.execMissStatusReservationExpiry (h : WellKept s) :
    OutcomeKept (execMissStatusReservationExpiry core s) := by
  show WellKept _
  split
  · exact h
  · exact h.ite h.reserveMiss

end

end Sys2Proof

/-! ## The debugger and dumps (Machine/Debug.lean) -/

namespace Sys2Proof

open Machine

section

variable {s : State} {wid ctx n : Nat} {w : Warp} {bs : List Byte} {cmd : BitVec 64} {r : DumpRun} {d : Dump}

protected theorem WellKept.execDbgHaltBroadcast (h : WellKept s) : OutcomeKept (execDbgHaltBroadcast ctx s) :=
  h.haltPackets.haltCtx.ite h

protected theorem WellKept.liftHalt (h : WellKept s) : WellKept (liftHalt s ctx) := by
  unfold Machine.liftHalt
  extract_lets s1
  have h1 : WellKept s1 := h.modCtx
  exact h1

protected theorem WellKept.execDbgResumeAll (h : WellKept s) : OutcomeKept (execDbgResumeAll ctx s) := by
  show WellKept _
  split
  · exact h.ite h.liftHalt
  · exact h

protected theorem WellKept.execDbgHaltAndDump (h : WellKept s) : OutcomeKept (execDbgHaltAndDump ctx s) := by
  show WellKept _
  split
  · exact h.ite h.haltPackets.startDump
  · exact h

protected theorem WellKept.dbgStatus (h : WellKept s) : WellKept (dbgStatus s n) := h.modDev

protected theorem WellKept.putData (h : WellKept s) : WellKept (putData s n bs) := h.modDev

protected theorem WellKept.execDbgRead (h : WellKept s) : OutcomeKept (execDbgRead cmd s) := by
  show WellKept _
  split
  · exact h.dbgStatus
  · split
    · exact h.dbgStatus
    · exact h.putData.dbgStatus

protected theorem WellKept.unpark (h : WellKept s) : WellKept (unpark s wid) := h.modDev.modCtx

protected theorem WellKept.setPc (h : WellKept s) : WellKept (setPc s wid w) := h.unpark.setWarp

protected theorem WellKept.execDbgWrite (h : WellKept s) : OutcomeKept (execDbgWrite cmd s) := by
  show WellKept _
  split
  · exact h.dbgStatus
  · refine h.setPc.dbgStatus.ite (h.makeRoom.dbgStatus.ite ?_)
    split
    · exact h.makeRoom.dbgStatus
    · exact h.makeRoom.setWarp.dbgStatus

protected theorem WellKept.execDbgSetPc (h : WellKept s) : OutcomeKept (execDbgSetPc cmd s) := by
  show WellKept _
  split
  · exact h.dbgStatus
  · exact h.setPc.dbgStatus

protected theorem WellKept.execDbgResumeWarp (h : WellKept s) : OutcomeKept (execDbgResumeWarp cmd s) := by
  show WellKept _
  split
  · exact h.dbgStatus
  · exact h.dbgStatus.ite h.setWarp.dbgStatus

protected theorem WellKept.execDbgResumePastBreakpoint (h : WellKept s) :
    OutcomeKept (execDbgResumePastBreakpoint cmd s) := by
  show WellKept _
  split
  · exact h.dbgStatus
  · exact h.dbgStatus.ite h.setWarp.dbgStatus

protected theorem WellKept.dumpPieces {ps : List (Nat × Nat)} (h : WellKept r.s) : WellKept (dumpPieces ctx ps bs r).s := by
  induction ps generalizing r bs with
  | nil => exact h
  | cons p ps ih =>
    unfold Machine.dumpPieces
    split
    · exact ih (h.devWrite.some ‹_›)
    · exact h

protected theorem WellKept.dumpPut (h : WellKept r.s) : WellKept (dumpPut ctx r bs).s := by
  unfold Machine.dumpPut
  dsimp only
  split
  · exact h
  · split
    · exact h
    · exact h.dumpPieces

protected theorem WellKept.dumpSection {recs : List (List Byte)} (h : WellKept r.s) :
    WellKept (dumpSection ctx r recs).s := by
  have h1 : WellKept (recs.foldl (dumpPut ctx) r).s := by
    induction recs generalizing r with
    | nil => exact h
    | cons x recs ih => exact ih h.dumpPut
  unfold Machine.dumpSection
  dsimp only
  split
  · exact h1
  · exact h1

/-- The sections of a dump, one after the other. -/
theorem WellKept.dumpSections {l : List (List (List Byte))} (h : WellKept r.s) :
    WellKept (l.foldl (dumpSection ctx) r).s := by
  induction l generalizing r with
  | nil => exact h
  | cons x l ih => exact ih h.dumpSection

protected theorem WellKept.dumpFallback (h : WellKept s) : WellKept (dumpFallback s ctx d r) := h.put

protected theorem WellKept.dumpOut (h : WellKept s) : WellKept (dumpOut s ctx d) := by
  unfold Machine.dumpOut
  extract_lets r0 r1 e
  have h0 : WellKept r0.s := WellKept.dumpPut (r := ⟨s, 0, [], none⟩) h
  have h1 : WellKept r1.s := h0.dumpSections
  have he : WellKept e.s := h1.dumpPieces
  split
  · exact h1.dumpFallback
  · exact he.dumpFallback.ite he

protected theorem WellKept.cancelCopies (h : WellKept s) : WellKept (cancelCopies s ctx) :=
  h.foldl fun _ _ h => h.foldl fun _ _ h => h.foldl fun _ _ h => h.copyPacket

protected theorem WellKept.reissueCopies (h : WellKept s) : WellKept (reissueCopies s ctx) :=
  h.foldl fun _ _ h => h.foldl fun _ _ h => h.foldl fun _ _ h => h.dropCopy.requeueCopy

protected theorem WellKept.execDumpWrite (h : WellKept s) : OutcomeKept (execDumpWrite ctx s) := by
  show WellKept _
  split
  · exact h
  · split
    · exact h
    · split
      · exact h
      · extract_lets s1 s2 later s3 s4 s5
        have h2 : WellKept s2 := h.cancelCopies.dumpOut.hostEvent.modCtx
        have h3 : WellKept s3 := by
          unfold s3
          split
          · exact h2.killGang
          · exact h2
        have h4 : WellKept s4 := h3.foldl fun _ _ h => h.killGang.ite h
        have h5 : WellKept s5 := (h4.liftHalt.ite h4).reissueCopies
        exact h5.foldl fun _ _ h => h.resetAfterDump.ite h

end

end Sys2Proof

/-! ## Time, power, boot (Machine/Package.lean) -/

namespace Sys2Proof

open Machine

section

variable {s : State} {ctx src bank n m : Nat} {ticks : Int} {ev : BootEvent}

protected theorem WellKept.syncUnit (h : WellKept s) : WellKept (syncUnit s ctx src) := h.setUnit.emit

protected theorem WellKept.syncAll (h : WellKept s) : WellKept (syncAll s) :=
  h.foldl fun _ _ h => (h.foldl fun _ _ h => h.syncUnit).ite h

protected theorem WellKept.correctTime (h : WellKept s) : WellKept (correctTime s ticks) := h.modDev.syncAll.ite h.modDev

protected theorem WellKept.execPpsInput {second : BitVec 48} (h : WellKept s) : OutcomeKept (execPpsInput second s) :=
  h.ite h.correctTime

protected theorem WellKept.readPower (h : WellKept s) : WellKept (readPower s n) := h.modDev

protected theorem WellKept.execThermalThrottle (h : WellKept s) : OutcomeKept (execThermalThrottle n m s) :=
  h.modDev.readPower.ite h

protected theorem WellKept.execThermalThrottleRelease (h : WellKept s) : OutcomeKept (execThermalThrottleRelease s) :=
  h.modDev.readPower

protected theorem WellKept.execThermalTrip (h : WellKept s) : OutcomeKept (execThermalTrip s) := h.errRecord.readPower.modDev

protected theorem WellKept.execPowerLimitWrite {val : BitVec 64} (h : WellKept s) : OutcomeKept (execPowerLimitWrite val s) :=
  h.modDev.takeFree.readPower

/-- Memory outlives a reset; its keys do not. -/
protected theorem WellKept.resetModule (h : WellKept s) : WellKept (resetModule s) := Mem.wf_afterReset h

protected theorem WellKept.appendErrors (h : WellKept s) : WellKept (appendErrors s) := h.modDev

protected theorem WellKept.bootFrom (h : WellKept s) : WellKept (bootFrom s ev bank n) :=
  h.modDev.modDev.ite (h.modDev.foldl fun _ _ h => h.fenceCore).modDev.appendErrors

protected theorem WellKept.execBootSequence (h : WellKept s) : OutcomeKept (execBootSequence ev s) := by
  show WellKept _
  dsimp only
  split
  · exact h.resetModule.modDev
  · exact h.resetModule.bootFrom

protected theorem WellKept.execSpdmMeasurementRequest {nonce : BitVec 256} (h : WellKept s) :
    OutcomeKept (execSpdmMeasurementRequest nonce s) := h.modDev.ite h

end

end Sys2Proof

/-! ## Registers, host and peer accesses (Machine/Registers.lean) -/

namespace Sys2Proof

open Machine

section

variable {s : State} {ctx n k : Nat} {bs : List Byte} {val : BitVec 64}

protected theorem WellKept.openRead (h : WellKept s) : WellKept (openRead s k n) := h.modDev.takeFree

protected theorem WellKept.openWrite (h : WellKept s) : WellKept (openWrite s k bs) :=
  h.ite (h.putBy fun _ hm => Mem.wf_openWrite hm _ _ _ _).noteQstate

protected theorem WellKept.peerAtomic {op : PeerOp} (h : WellKept s) : WellKept (peerAtomic s k n op bs) := by
  unfold Machine.peerAtomic
  dsimp only
  split
  · exact h.openRead.openWrite.ite h
  · exact h

protected theorem WellKept.execHostMemoryAccess {acc : HostAccess} (h : WellKept s) :
    OutcomeKept (execHostMemoryAccess acc s) := h.ite (h.openWrite.ite h.openRead)

protected theorem WellKept.execPeerMemoryAccess {acc : PeerAccess} (h : WellKept s) :
    OutcomeKept (execPeerMemoryAccess acc s) := by
  refine WellKept.ite h ?_
  split
  · exact h.openRead
  · exact h.openWrite
  · exact h.peerAtomic

protected theorem WellKept.execRegisterWrite (h : WellKept s) : OutcomeKept (execRegisterWrite n val s) :=
  h.modDev.ite (h.modCtx.ite (h.modCtx.ite (h.putData.ite h)))

protected theorem WellKept.execContextCreation {desc : ContextFields} (h : WellKept s) :
    OutcomeKept (execContextCreation ctx desc s) := by
  refine WellKept.ite h ?_
  split
  · exact h.ite h.modCtx
  · exact h.ite (h.of_mem_eq rfl)

protected theorem WellKept.killAll (h : WellKept s) : WellKept (killAll s ctx) := h.foldl fun _ _ h => h.ite h.killGrid

protected theorem WellKept.execContextDestruction (h : WellKept s) : OutcomeKept (execContextDestruction ctx s) := by
  show WellKept _
  split
  · exact h
  · exact (h.killAll.leaveSome.ite h.killAll).of_mem_eq rfl

end

end Sys2Proof

/-! ## Turns (Machine/Sched.lean) -/

namespace Sys2Proof

open Machine

section

variable {s : State} {core slot n : Nat} {t : Turn}

protected theorem WellKept.nextTurn (h : WellKept s) : WellKept (nextTurn s).2 := by
  unfold Machine.nextTurn
  split
  · exact h
  · exact h

protected theorem WellKept.storeOut (h : WellKept s) : WellKept (storeOut s core slot n) := by
  unfold Machine.storeOut
  split
  · exact h
  · split
    · exact h
    · exact h.ite h.modWarp.leaveBuffer

protected theorem WellKept.evictLine (h : WellKept s) : WellKept (evictLine s core n) := h.ite h.landDirty.modCore

protected theorem WellKept.copyTurn {sq : Word} (h : WellKept s) : WellKept (copyTurn s core sq n) := by
  unfold Machine.copyTurn
  split
  · exact h
  · exact h.ite h.copyStep

protected theorem WellKept.readyOf (h : WellKept s) : ReadyKept (readyOf t s) := by
  cases t with
  | word core slot => exact h.warpTurn
  | event i => exact h
  | time n => exact h
  | mismatch core slot => exact h.mismatch
  | storeOut core slot i => exact h.storeOut
  | copyMove core sq i => exact h.copyTurn
  | evict core line => exact h.evictLine

protected theorem WellKept.tick (h : WellKept s) : WellKept (tick t s) :=
  h.passCycles (t := t) (n := passing s.dev t)

end

end Sys2Proof

/-! ## Every step (Machine/Dispatch.lean, Step.lean) -/

namespace Sys2Proof

open Machine

section

variable {s : State} {i : Instr} {t : Turn} {o : Host.Outcome State Fault Refusal}

/-- Every instruction and every event keeps memory canonical. -/
theorem exec_kept (h : WellKept s) : OutcomeKept (exec i s) := by
  cases i with
  | clauseDispatch => exact h.execClauseDispatch
  | warpAged => exact h.execWarpAged
  | docentEvaluation => exact h.execDocentEvaluation
  | demotionComplete => exact h.execDemotionComplete
  | fairnessSwitch => exact h.execFairnessSwitch
  | fairnessDeferExpiry => exact h.execFairnessDeferExpiry
  | longLatencyComplete => exact h.execLongLatencyComplete
  | sliceRetire => exact h.execSliceRetire
  | cellRefill => exact h.execCellRefill
  | missStatusReissue => exact h.execMissStatusReissue
  | missStatusReservationExpiry => exact h.execMissStatusReservationExpiry
  | waitComplete => exact h.execWaitComplete
  | napExpiry => exact h.execNapExpiry
  | asyncFaultDelivery => exact h.execAsyncFaultDelivery
  | partitionResetComplete => exact h.execPartitionResetComplete
  | linkRetrainComplete => exact h.execLinkRetrainComplete
  | linkDownTimeout => exact h.execLinkDownTimeout
  | curatorScanComplete => exact h.execCuratorScanComplete
  | dumpWrite => exact h.execDumpWrite
  | contextCreation => exact h.execContextCreation
  | contextDestruction => exact h.execContextDestruction
  | bootSequence => exact h.execBootSequence
  | hostMemoryAccess => exact h.execHostMemoryAccess
  | registerWrite => exact h.execRegisterWrite
  | engineResetComplete => exact h.execEngineResetComplete
  | tlbinvComplete => exact h.execTlbinvComplete
  | icinvComplete => exact h.execIcinvComplete
  | copyCommandFault => exact h.execCopyCommandFault
  | bra => exact h.execBra
  | bri => exact h.execBri
  | call => exact h.execCall
  | calli => exact h.execCalli
  | ret => exact h.execRet
  | exit => exact h.execExit
  | yield => exact h.execYield
  | nap => exact h.execNap
  | fwait => exact h.execFwait
  | setfmt => exact h.execSetfmt
  | sld => exact h.execSld
  | v2p => exact h.execV2p
  | fsetp => exact h.execFsetp
  | xlane => exact h.execXlane
  | ld => exact h.execLd
  | st => exact h.execSt
  | lds => exact h.execLds
  | sts => exact h.execSts
  | ldc => exact h.execLdc
  | ldr => exact h.execLdr
  | stc => exact h.execStc
  | pref => exact h.execPref
  | cctl => exact h.execCctl
  | icinv => exact h.execIcinv
  | cpg => exact h.execCpg
  | cps => exact h.execCps
  | cpx => exact h.execCpx
  | cpclose => exact h.execCpclose
  | cpwait => exact h.execCpwait
  | bankcfg => exact h.execBankcfg
  | fpush => exact h.execFpush
  | fpop => exact h.execFpop
  | vtopen => exact h.execVtopen
  | publish => exact h.execPublish
  | vtdrop => exact h.execVtdrop
  | copyCommandStart => exact h.execCopyCommandStart
  | copyCommandComplete => exact h.execCopyCommandComplete
  | vtopenCopyComplete => exact h.execVtopenCopyComplete
  | publishAckComplete => exact h.execPublishAckComplete
  | mldb => exact h.execMldb
  | mlds => exact h.execMlds
  | mma => exact h.execMma
  | mzero => exact h.execMzero
  | acalloc => exact h.execAcalloc
  | acfree => exact h.execAcfree
  | mdrain => exact h.execMdrain
  | mdrains => exact h.execMdrains
  | epcfg => exact h.execEpcfg
  | actld => exact h.execActld
  | matrixCommandExecute => exact h.execMatrixCommandExecute
  | matrixCommandComplete => exact h.execMatrixCommandComplete
  | epilogueCommandExecute => exact h.execEpilogueCommandExecute
  | epilogueCommandComplete => exact h.execEpilogueCommandComplete
  | accumGranulesCleared => exact h.execAccumGranulesCleared
  | atom => exact h.execAtom
  | atomcas => exact h.execAtomcas
  | red => exact h.execRed
  | atoms => exact h.execAtoms
  | atomsc => exact h.execAtomsc
  | atomc => exact h.execAtomc
  | rdc => exact h.execRdc
  | fence => exact h.execFence
  | bar => exact h.execBar
  | bara => exact h.execBara
  | barw => exact h.execBarw
  | gbar => exact h.execGbar
  | arv => exact h.execArv
  | await => exact h.execAwait
  | ringa => exact h.execRinga
  | ringw => exact h.execRingw
  | lkacq => exact h.execLkacq
  | lkrel => exact h.execLkrel
  | waitv => exact h.execWaitv
  | wake => exact h.execWake
  | launch => exact h.execLaunch
  | gwait => exact h.execGwait
  | qpush => exact h.execQpush
  | qpop => exact h.execQpop
  | shape => exact h.execShape
  | provq => exact h.execProvq
  | rfe => exact h.execRfe
  | pgpop => exact h.execPgpop
  | pgmap => exact h.execPgmap
  | tlbinv => exact h.execTlbinv
  | replay => exact h.execReplay
  | park => exact h.execPark
  | csrrd => exact h.execCsrrd
  | csrwr => exact h.execCsrwr
  | trace => exact h.execTrace
  | tmark => exact h.execTmark
  | halt => exact h.execHalt
  | queueTailObserve => exact h.execQueueTailObserve
  | queueEntryConsume => exact h.execQueueEntryConsume
  | launchEntry => exact h.execLaunchEntry
  | shapeEntry => exact h.execShapeEntry
  | replayEntry => exact h.execReplayEntry
  | waitcEntry => exact h.execWaitcEntry
  | signalEntry => exact h.execSignalEntry
  | queueEntryComplete => exact h.execQueueEntryComplete
  | queueRestart => exact h.execQueueRestart
  | queueStop => exact h.execQueueStop
  | priorityAgeing => exact h.execPriorityAgeing
  | blockPlacement => exact h.execBlockPlacement
  | blockRetire => exact h.execBlockRetire
  | preemptionRequest => exact h.execPreemptionRequest
  | timeSliceExpiry => exact h.execTimeSliceExpiry
  | preemptBudgetExpiry => exact h.execPreemptBudgetExpiry
  | warpStopPoint => exact h.execWarpStopPoint
  | saveSpaceRetry => exact h.execSaveSpaceRetry
  | contextSwitchOut => exact h.execContextSwitchOut
  | contextSwitchIn => exact h.execContextSwitchIn
  | migClaim => exact h.execMigClaim
  | migRelease => exact h.execMigRelease
  | migClaimExpiry => exact h.execMigClaimExpiry
  | pagePinExpiry => exact h.execPagePinExpiry
  | ppsInput => exact h.execPpsInput
  | traceDrain => exact h.execTraceDrain
  | traceDrainTimer => exact h.execTraceDrainTimer
  | losslessEscape => exact h.execLosslessEscape
  | traceSample => exact h.execTraceSample
  | counterSweep => exact h.execCounterSweep
  | dbgHaltBroadcast => exact h.execDbgHaltBroadcast
  | dbgResumeAll => exact h.execDbgResumeAll
  | dbgHaltAndDump => exact h.execDbgHaltAndDump
  | dbgRead => exact h.execDbgRead
  | dbgWrite => exact h.execDbgWrite
  | dbgSetPc => exact h.execDbgSetPc
  | dbgResumeWarp => exact h.execDbgResumeWarp
  | dbgResumePastBreakpoint => exact h.execDbgResumePastBreakpoint
  | curatorVisitStart => exact h.execCuratorVisitStart
  | curatorDrainExpiry => exact h.execCuratorDrainExpiry
  | uncorrectableWordError => exact h.execUncorrectableWordError
  | cacheSectorError => exact h.execCacheSectorError
  | frontierParityError => exact h.execFrontierParityError
  | translationParityError => exact h.execTranslationParityError
  | instructionCacheParityError => exact h.execInstructionCacheParityError
  | registrarStateError => exact h.execRegistrarStateError
  | engineStateError => exact h.execEngineStateError
  | engineTimeout => exact h.execEngineTimeout
  | partReset => exact h.execPartReset
  | flitCheckFailure => exact h.execFlitCheckFailure
  | laneFailure => exact h.execLaneFailure
  | thermalThrottle => exact h.execThermalThrottle
  | thermalTrip => exact h.execThermalTrip
  | powerLimitWrite => exact h.execPowerLimitWrite
  | spdmMeasurementRequest => exact h.execSpdmMeasurementRequest
  | peerMemoryAccess => exact h.execPeerMemoryAccess
  | curatorHostRequest => exact h.execCuratorHostRequest
  | hostGangRelaunchOrAbandon => exact h.execHostGangRelaunchOrAbandon
  | thermalThrottleRelease => exact h.execThermalThrottleRelease
  | brk | trap | svc => exact h.issue fun _ _ h => h.codeTrap
  | ssetp | isetp | plop => exact h.issue fun _ _ h => h.predicate
  | proxyForward | proxyForwardTimer => exact h.forward
  | timeCorrection => exact h.correctTime
  | firmwareUpdate => exact h.modDev
  | pairWord | nop | getfmt | sprint | vote | cvt | poisck | rdcnt | rdptp => exact h.issue fun _ _ h => h.commit
  | sread | movi | p2v | fclass | matchv => exact h.issue fun _ _ h => h.value
  | spop | iabs | popc | clz => exact h.issue fun _ _ h => h.value1
  | sadd | ssub | smul | sshf | isub | imul | imin | imax | lea => exact h.issue fun _ _ h => h.value2
  | smad | iadd | imad | isad | idp4 | fwin | bsel => exact h.issue fun _ _ h => h.value3
  | smov | slop | ssel | sel | mov | bitfn => exact h.issue fun _ _ h => h.valueW
  | shl | shr | bfe | bfi | brev => exact h.issue fun _ _ h => h.valueP
  | ffma | fscale | cvts | packq | unpq | escale | redux | scanx => exact h.issue fun _ _ h => h.fvalue
  | frnd | frcp | frsq | fsqrt | fex2 | flg2 | fsin | fcos | ftanh => exact h.issue fun _ _ h => h.float1
  | fadd | fsub | fmul | fmin | fmax => exact h.issue fun _ _ h => h.float2
  | hadd2 | hmul2 | hfma2 | hmin2 | hmax2 => exact h.issue fun _ _ h => h.packed

theorem finish_kept (h : OutcomeKept o) : OutcomeKept (finish t o) := by
  cases o with
  | next s => exact WellKept.tick (s := { s with cur := none }) h
  | fault f => trivial
  | refused r => trivial

theorem step_kept (h : WellKept s) : OutcomeKept (step s) := by
  unfold step
  dsimp only
  split
  · trivial
  · have ready : ReadyKept (readyOf (nextTurn s).1 (nextTurn s).2) := h.nextTurn.readyOf
    generalize readyOf (nextTurn s).1 (nextTurn s).2 = r at ready ⊢
    cases r with
    | done t => exact WellKept.tick ready
    | run i t => exact finish_kept (exec_kept ready)

end

/-- Settles O59: an invariant of `step`, read off `step_kept`. -/
theorem memoryStaysCanonical : Obligations.MemoryStaysCanonical :=
  fun _ _ h e => (step_kept h).next e

end Sys2Proof

/-! # Encoding and decoding (O56, O55)

A full word is the sum of its fields (`Parts.encode`), so each field reads back (`Parts.fields_encode`), and a dword is the
sum of the fields read from it (`dword_eq_fields`). Between the two stand the tables: an operand is read back from its code
where its field accepts it, and `buildWord` gives the instruction of its parts. -/

/-! ## Tables -/

namespace Sys2Proof.Encoding

open Sys2Proof

theorem instr_rebuilt (i : Instr) : Laws.Rebuilt.Statement i := by
  open Laws.Rebuilt in
  exact Instr.casesOn i
    clauseDispatch warpAged docentEvaluation demotionComplete fairnessSwitch fairnessDeferExpiry longLatencyComplete
    sliceRetire cellRefill missStatusReissue missStatusReservationExpiry waitComplete napExpiry asyncFaultDelivery
    partitionResetComplete linkRetrainComplete linkDownTimeout curatorScanComplete dumpWrite contextCreation
    contextDestruction bootSequence hostMemoryAccess registerWrite engineResetComplete tlbinvComplete icinvComplete
    copyCommandFault pairWord nop bra bri call calli ret exit yield nap fwait setfmt getfmt brk trap sprint smov sadd
    ssub smul smad slop sshf ssetp ssel sld sread vote spop iadd isub imul imad imin imax iabs isad isetp sel lea mov
    movi idp4 bitfn shl shr fwin bfe bfi popc clz brev bsel plop p2v v2p fadd fsub fmul ffma fmin fmax fsetp fclass
    frnd fscale hadd2 hmul2 hfma2 hmin2 hmax2 cvt cvts packq unpq escale frcp frsq fsqrt fex2 flg2 fsin fcos ftanh
    xlane matchv redux scanx ld st lds sts ldc ldr stc pref cctl icinv cpg cps cpx cpclose cpwait bankcfg fpush fpop
    vtopen publish vtdrop copyCommandStart copyCommandComplete vtopenCopyComplete publishAckComplete mldb mlds mma
    mzero acalloc acfree mdrain mdrains epcfg actld matrixCommandExecute matrixCommandComplete epilogueCommandExecute
    epilogueCommandComplete accumGranulesCleared atom atomcas red atoms atomsc atomc rdc fence bar bara barw gbar arv
    await ringa ringw lkacq lkrel waitv wake launch gwait qpush qpop shape provq svc rfe pgpop pgmap tlbinv replay park
    csrrd csrwr poisck trace tmark rdcnt rdptp halt queueTailObserve queueEntryConsume launchEntry shapeEntry
    replayEntry waitcEntry signalEntry queueEntryComplete queueRestart queueStop proxyForward proxyForwardTimer
    priorityAgeing blockPlacement blockRetire preemptionRequest timeSliceExpiry preemptBudgetExpiry warpStopPoint
    saveSpaceRetry contextSwitchOut contextSwitchIn migClaim migRelease migClaimExpiry pagePinExpiry ppsInput
    timeCorrection traceDrain traceDrainTimer losslessEscape traceSample counterSweep dbgHaltBroadcast dbgResumeAll
    dbgHaltAndDump dbgRead dbgWrite dbgSetPc dbgResumeWarp dbgResumePastBreakpoint curatorVisitStart curatorDrainExpiry
    uncorrectableWordError cacheSectorError frontierParityError translationParityError instructionCacheParityError
    registrarStateError engineStateError engineTimeout partReset flitCheckFailure laneFailure thermalThrottle
    thermalTrip powerLimitWrite firmwareUpdate spdmMeasurementRequest peerMemoryAccess curatorHostRequest
    hostGangRelaunchOrAbandon thermalThrottleRelease

theorem forall_mem_bind {α β : Type} {x : Option α} {f : α → Option β} {P : β → Prop}
    (h : ∀ a, ∀ i ∈ f a, P i) : ∀ i ∈ x.bind f, P i := by
  intro i hi
  obtain ⟨a, -, ha⟩ := Option.bind_eq_some_iff.1 hi
  exact h a i ha

/-- The words with a 24-bit immediate in place of A, B and C (R43): `bra`, `call` and `movi`. -/
def immOp (op : Nat) : Bool := op == 0x01 || op == 0x03 || op == 0x2c

/-- Whether a field is part of a 24-bit immediate (R43). -/
def isImm (k : Kind) : Bool := k == .imm

@[simp] theorem isImm_ite (c : Prop) [Decidable c] (x y : Kind) :
    isImm (if c then x else y) = if c then isImm x else isImm y := apply_ite ..

@[simp] theorem isImm_imm : isImm .imm = true := rfl

@[simp] theorem isImm_unused : isImm .unused = false := rfl

@[simp] theorem isImm_koff : isImm .koff = false := rfl

@[simp] theorem isImm_pred (p q : Bool) : isImm (.pred p q) = false := rfl

@[simp] theorem isImm_reg (v u z k l : Bool) (al sp : Nat) : isImm (.reg v u z k l al sp) = false := rfl

theorem rowSpec_isSome (op : Nat) (t : Ty) (m : Nat) : (rowSpec op t m).isSome = opAssigned op := by
  unfold opAssigned rowSpec
  split <;> rfl

theorem rowSpec_isImm (op : Nat) (t : Ty) (m : Nat) : ∀ r ∈ rowSpec op t m,
    isImm r.d = false ∧ isImm r.a = immOp op ∧ isImm r.b = immOp op ∧ isImm r.c = immOp op := by
  unfold rowSpec
  split <;> rintro _ ⟨⟩ <;> simp [immOp]

theorem parts_of_buildWord (op : Nat) (o : Opnds) (off : BitVec 24) (m : Nat) : ∀ i ∈ buildWord op o off m,
    ∃ m', i.parts = some ⟨op, o, if immOp op then off else 0, m'⟩ := by
  unfold buildWord
  split <;> (repeat' refine forall_mem_bind fun _ => ?_) <;> rintro _ ⟨⟩ <;> exact ⟨_, rfl⟩

theorem ty_ofCode_code (t : Ty) : Ty.ofCode t.code = some t := by cases t <;> rfl

theorem ty_code_of_ofCode (n : Nat) : ∀ t ∈ Ty.ofCode n, t.code = n := by
  unfold Ty.ofCode
  split <;> rintro _ ⟨⟩ <;> rfl

theorem ty_code_lt (t : Ty) : t.code < 16 := by cases t <;> decide

theorem opd_code_lt (x : Opd) : x.code < 256 := by
  cases x <;> simp only [Opd.code] <;> omega

/-- The operands that name something: not a predicate, not an absent field. -/
def sourceOpd : Opd → Bool
  | .none | .p _ | .q _ => false
  | _ => true

theorem opd_ofCode_code {x : Opd} (h : sourceOpd x = true) : Opd.ofCode x.code = some x := by
  cases x with
  | v r => simp [Opd.code, Opd.ofCode]
  | s r => simp [Opd.code, Opd.ofCode]
  | none | p _ | q _ => simp [sourceOpd] at h
  | _ => rfl

/-- A code that names no operand reads as `Opd.none`, which no operand field accepts. -/
theorem opd_code_of_ofCode {n : Nat} {x : Opd} (hx : Opd.ofCode n = some x) (h0 : x ≠ .none) : x.code = n := by
  rw [Opd.ofCode] at hx
  rcases Nat.lt_or_ge n 128 with h | h
  · rw [dif_pos h] at hx
    obtain rfl := Option.some.inj hx
    rfl
  rw [dif_neg (Nat.not_lt.2 h)] at hx
  rcases Nat.lt_or_ge (n - 128) 96 with h1 | h1
  · rw [dif_pos h1] at hx
    obtain rfl := Option.some.inj hx
    exact Nat.add_sub_cancel' h
  rw [dif_neg (Nat.not_lt.2 h1)] at hx
  split_ifs at hx <;> cases hx
  case neg => exact absurd rfl h0
  all_goals symm; assumption

theorem decodeOpd_code {k : Kind} {x : Opd} (h : k.accepts x = true) : decodeOpd k x.code = some x := by
  cases k with
  | unused => cases x <;> simp_all [Kind.accepts, decodeOpd, Opd.code]
  | imm => cases x <;> simp_all [Kind.accepts, decodeOpd]
  | koff =>
    refine opd_ofCode_code ?_
    cases x <;> simp_all [Kind.accepts, sourceOpd]
  | pred p q => cases x <;> simp_all [Kind.accepts, decodeOpd, Opd.code]
  | reg v u z k l al sp =>
    refine opd_ofCode_code ?_
    cases x <;> simp_all [Kind.accepts, sourceOpd]

theorem code_of_decodeOpd {k : Kind} (hk : isImm k = false) {n : Nat} {x : Opd} (hx : decodeOpd k n = some x)
    (h : k.accepts x = true) : x.code = n := by
  cases k with
  | imm => simp at hk
  | koff => exact opd_code_of_ofCode hx (by rintro rfl; simp [Kind.accepts] at h)
  | reg => exact opd_code_of_ofCode hx (by rintro rfl; simp [Kind.accepts] at h)
  | unused =>
    rw [decodeOpd] at hx
    split_ifs at hx with h0
    cases hx
    exact h0.symm
  | pred p q =>
    simp only [decodeOpd] at hx
    split_ifs at hx <;> cases hx <;> simp only [Opd.code]
    omega

theorem guardOf_code (g : Guard) : guardOf (g.neg.toNat + 2 * g.idx.val) = g := by
  obtain ⟨i, b⟩ := g
  have hi := i.isLt
  have hb := b.toNat_lt
  have h1 : (b.toNat + 2 * i.val) / 2 = i.val := by omega
  have h2 : (b.toNat + 2 * i.val) % 2 = b.toNat := by omega
  simp [guardOf, h1, h2]

theorem guardOf_val {x : Nat} (h : x < 16) : (guardOf x).neg.toNat + 2 * (guardOf x).idx.val = x := by
  have hb : (x % 2 == 1).toNat = x % 2 := by
    rcases Nat.mod_two_eq_zero_or_one x with h | h <;> simp [h]
  simp only [guardOf, Fin.ofNat, hb]
  omega

/-! ## Fields of a dword -/

theorem fld_lt (x lo w : Nat) : fld x lo w < 2 ^ w := Nat.mod_lt _ (by positivity)

theorem fld_bit (x lo : Nat) : (fld x lo 1 == 1).toNat = fld x lo 1 := by
  have h := fld_lt x lo 1
  rcases (by omega : fld x lo 1 = 0 ∨ fld x lo 1 = 1) with h | h <;> simp [h]

/-- The three source codes of a word and its immediate, as the 24 bits they share (R43). -/
def sourceBits (p : Parts) : Nat := p.o.c.code + p.off.toNat + 2 ^ 8 * p.o.b.code + 2 ^ 16 * p.o.a.code


/-- The 24 source bits of a word hold an immediate or three codes, not both (R43). -/
def ImmOrCodes (p : Parts) : Prop :=
  immOp p.op = true ∧ p.o.a.code = 0 ∧ p.o.b.code = 0 ∧ p.o.c.code = 0 ∨ immOp p.op = false ∧ p.off = 0

theorem sourceBits_of_imm {p : Parts} (h : p.o.a.code = 0 ∧ p.o.b.code = 0 ∧ p.o.c.code = 0) :
    sourceBits p = p.off.toNat := by
  obtain ⟨ha, hb, hc⟩ := h
  rw [sourceBits, ha, hb, hc]
  omega

theorem sourceBits_of_codes {p : Parts} (h : p.off = 0) :
    sourceBits p = p.o.c.code + 2 ^ 8 * p.o.b.code + 2 ^ 16 * p.o.a.code := by
  rw [sourceBits, h]
  rfl

theorem sourceBits_lt {p : Parts} (h : ImmOrCodes p) : sourceBits p < 2 ^ 24 := by
  rcases h with ⟨-, h⟩ | ⟨-, h⟩
  · rw [sourceBits_of_imm h]
    exact p.off.isLt
  · have ha := opd_code_lt p.o.a
    have hb := opd_code_lt p.o.b
    have hc := opd_code_lt p.o.c
    rw [sourceBits_of_codes h]
    omega

theorem encode_eq (p : Parts) : p.encode = p.m + 2 ^ 12 * p.o.relB.toNat + 2 ^ 13 * p.o.relA.toNat + 2 ^ 14 * p.o.fsel.toNat
    + 2 ^ 15 * p.o.ty.code + 2 ^ 19 * (p.o.guard.neg.toNat + 2 * p.o.guard.idx.val) + 2 ^ 23 * sourceBits p
    + 2 ^ 47 * p.o.d.code + 2 ^ 55 * p.op := by
  unfold Parts.encode sourceBits
  ring

/-- Each field of a word's dword reads back (R41). -/
theorem fields_encode {p : Parts} (hop : p.op < 2 ^ 8) (hm : p.m < 2 ^ 12) (hs : sourceBits p < 2 ^ 24) :
    p.encode < 2 ^ 63 ∧ fld p.encode 55 8 = p.op ∧ fld p.encode 0 12 = p.m ∧ fld p.encode 15 4 = p.o.ty.code
      ∧ fld p.encode 19 4 = p.o.guard.neg.toNat + 2 * p.o.guard.idx.val ∧ fld p.encode 14 1 = p.o.fsel.toNat
      ∧ fld p.encode 13 1 = p.o.relA.toNat ∧ fld p.encode 12 1 = p.o.relB.toNat
      ∧ fld p.encode 47 8 = p.o.d.code ∧ fld p.encode 23 24 = sourceBits p := by
  have h1 := p.o.relB.toNat_lt
  have h2 := p.o.relA.toNat_lt
  have h3 := p.o.fsel.toNat_lt
  have h4 := ty_code_lt p.o.ty
  have h5 := p.o.guard.neg.toNat_lt
  have h6 := p.o.guard.idx.isLt
  have h7 := opd_code_lt p.o.d
  rw [encode_eq]
  have hg : p.o.guard.neg.toNat + 2 * p.o.guard.idx.val < 16 := by omega
  generalize p.o.guard.neg.toNat + 2 * p.o.guard.idx.val = g at *
  generalize sourceBits p = n at *
  unfold fld
  refine ⟨?_, ?_, ?_, ?_, ?_, ?_, ?_, ?_, ?_, ?_⟩ <;> omega

theorem dword_eq_fields {w : Nat} (h : w < 2 ^ 63) : w = fld w 0 12 + 2 ^ 12 * fld w 12 1 + 2 ^ 13 * fld w 13 1
    + 2 ^ 14 * fld w 14 1 + 2 ^ 15 * fld w 15 4 + 2 ^ 19 * fld w 19 4 + 2 ^ 23 * fld w 23 24 + 2 ^ 47 * fld w 47 8
    + 2 ^ 55 * fld w 55 8 := by
  unfold fld
  omega

/-- The codes of A, B and C in the bits they share with an immediate (R41, R43). -/
theorem sourceBits_fields (w : Nat) : fld w 23 24 = fld w 23 8 + 2 ^ 8 * fld w 31 8 + 2 ^ 16 * fld w 39 8 := by
  unfold fld
  omega

/-! ## Full words -/

theorem wf_of_parts {i : Instr} {p : Parts} (h : i.parts = some p) : i.wf = p.wf := by
  cases i with
  | pairWord => cases h
  | _ => simp [Instr.wf, h]

theorem isWord_of_parts {i : Instr} {p : Parts} (h : i.parts = some p) : i.isWord = true := by
  cases i with
  | pairWord => rfl
  | _ => simp [Instr.isWord, h]

theorem encode_of_parts {i : Instr} {p : Parts} (h : i.parts = some p) : encode i = some (BitVec.ofNat 64 p.encode) := by
  cases i with
  | pairWord => cases h
  | _ => simp [encode, h]

/-- A well-formed word has a row, whose fields accept its operands (R44, R52). -/
theorem row_of_wf {p : Parts} (h : p.wf = true) : ∃ r, rowSpec p.op p.o.ty p.m = some r ∧ r.d.accepts p.o.d = true
    ∧ r.a.accepts p.o.a = true ∧ r.b.accepts p.o.b = true ∧ r.c.accepts p.o.c = true := by
  unfold Parts.wf at h
  split at h
  · cases h
  next r hr =>
    simp only [Bool.and_eq_true] at h
    obtain ⟨⟨⟨⟨⟨⟨⟨⟨⟨-, hd⟩, ha⟩, hb⟩, hc⟩, -⟩, -⟩, -⟩, -⟩, -⟩ := h
    exact ⟨r, hr, hd, ha, hb, hc⟩

theorem code_of_imm {k : Kind} {x : Opd} (hk : isImm k = true) (h : k.accepts x = true) : x.code = 0 := by
  obtain rfl : k = .imm := eq_of_beq hk
  cases x <;> simp [Kind.accepts] at h
  rfl

theorem immOrCodes_of_wf {i : Instr} {p : Parts} (hp : i.parts = some p) (hwf : p.wf = true) : ImmOrCodes p := by
  obtain ⟨r, hr, -, ha, hb, hc⟩ := row_of_wf hwf
  obtain ⟨-, ka, kb, kc⟩ := rowSpec_isImm _ _ _ r hr
  obtain ⟨-, -, -, h⟩ := instr_rebuilt i p hp
  cases himm : immOp p.op with
  | true =>
    rw [himm] at ka kb kc
    exact .inl ⟨himm, code_of_imm ka ha, code_of_imm kb hb, code_of_imm kc hc⟩
  | false =>
    have h0 : ¬(p.op = 0x01 ∨ p.op = 0x03 ∨ p.op = 0x2c) := by simpa [immOp, and_assoc] using himm
    exact .inr ⟨himm, by tauto⟩

theorem decodeOpd_of_accepts {k : Kind} {x : Opd} {n : Nat} (h : k.accepts x = true) (hn : isImm k = false → n = x.code) :
    decodeOpd k n = some x := by
  by_cases hk : isImm k = true
  · obtain rfl : k = .imm := eq_of_beq hk
    exact decodeOpd_code h
  · rw [hn (by simpa using hk)]
    exact decodeOpd_code h

/-- A, B and C of a word without an immediate read back from the bits they share with one. -/
theorem sources_encode {p : Parts} (hop : p.op < 2 ^ 8) (hm : p.m < 2 ^ 12) (h : p.off = 0) :
    fld p.encode 39 8 = p.o.a.code ∧ fld p.encode 31 8 = p.o.b.code ∧ fld p.encode 23 8 = p.o.c.code := by
  have ha := opd_code_lt p.o.a
  have hb := opd_code_lt p.o.b
  have hc := opd_code_lt p.o.c
  have hn : sourceBits p < 2 ^ 24 := by
    rw [sourceBits_of_codes h]
    omega
  obtain ⟨-, -, -, -, -, -, -, -, -, hsrc⟩ := fields_encode hop hm hn
  have h4 := fld_lt p.encode 39 8
  have h5 := fld_lt p.encode 31 8
  have h6 := fld_lt p.encode 23 8
  rw [sourceBits_fields, sourceBits_of_codes h] at hsrc
  omega

theorem decodeOpnds_encode {i : Instr} {p : Parts} (hp : i.parts = some p) (hwf : p.wf = true) {r : RowSpec}
    (hr : rowSpec p.op p.o.ty p.m = some r) : decodeOpnds r p.o.ty p.encode = some p.o := by
  obtain ⟨r', hr', hd, ha, hb, hc⟩ := row_of_wf hwf
  obtain rfl := Option.some.inj (hr.symm.trans hr')
  obtain ⟨-, ka, kb, kc⟩ := rowSpec_isImm _ _ _ r hr
  obtain ⟨hop, hm, -⟩ := instr_rebuilt i p hp
  have himm := immOrCodes_of_wf hp hwf
  obtain ⟨-, -, -, -, hg, hfs, hra, hrb, hfd, -⟩ := fields_encode hop hm (sourceBits_lt himm)
  have hcodes (h : immOp p.op = false) := sources_encode hop hm (by simpa [ImmOrCodes, h] using himm)
  have ea := decodeOpd_of_accepts ha fun h => (hcodes (ka.symm.trans h)).1
  have eb := decodeOpd_of_accepts hb fun h => (hcodes (kb.symm.trans h)).2.1
  have ec := decodeOpd_of_accepts hc fun h => (hcodes (kc.symm.trans h)).2.2
  have ed := decodeOpd_of_accepts hd fun _ => hfd
  rw [decodeOpnds, ea, eb, ec, ed, hg, hfs, hra, hrb]
  simp [guardOf_code]

/-- The decoder reads a well-formed full word back from its dword (R54). -/
theorem decodeFull_encode {i : Instr} {p : Parts} (hp : i.parts = some p) (hwf : p.wf = true) :
    decodeFull p.encode = .ok i := by
  obtain ⟨r, hr, -⟩ := row_of_wf hwf
  obtain ⟨hop, hm, hbuild, hoff⟩ := instr_rebuilt i p hp
  have himm := immOrCodes_of_wf hp hwf
  obtain ⟨-, fop, fm, fty, -, -, -, -, -, hsrc⟩ := fields_encode hop hm (sourceBits_lt himm)
  have hassigned : opAssigned p.op = true := by
    rw [← rowSpec_isSome p.op p.o.ty p.m, hr]
    rfl
  have hi : buildWord p.op p.o (BitVec.ofNat 24 (sourceBits p)) p.m = some i := by
    rcases himm with ⟨-, h⟩ | ⟨h, -⟩
    · simpa [sourceBits_of_imm h] using hbuild
    · have h0 : ¬(p.op = 0x01 ∨ p.op = 0x03 ∨ p.op = 0x2c) := by simpa [immOp, and_assoc] using h
      obtain ⟨-, hany⟩ : p.off = 0 ∧ ∀ off, buildWord p.op p.o off p.m = some i := by tauto
      exact hany _
  have hf : decodeFields p.encode = some i := by
    simp [decodeFields, fop, fm, fty, ty_ofCode_code, hr, decodeOpnds_encode hp hwf hr, hsrc, hi, wf_of_parts hp, hwf, hp]
  rw [decodeFull, fop, if_pos hassigned, hf]

/-- The source bits of the parts that the decoder reads are those of the dword. -/
theorem sourceBits_of_decode {p : Parts} {r : RowSpec} {w : Nat} (hr : rowSpec p.op p.o.ty p.m = some r)
    (aa : r.a.accepts p.o.a = true) (ab : r.b.accepts p.o.b = true) (ac : r.c.accepts p.o.c = true)
    (ha : decodeOpd r.a (fld w 39 8) = some p.o.a) (hb : decodeOpd r.b (fld w 31 8) = some p.o.b)
    (hc : decodeOpd r.c (fld w 23 8) = some p.o.c)
    (hoff : p.off = if immOp p.op then BitVec.ofNat 24 (fld w 23 24) else 0) : sourceBits p = fld w 23 24 := by
  obtain ⟨-, ka, kb, kc⟩ := rowSpec_isImm _ _ _ r hr
  cases himm : immOp p.op with
  | true =>
    rw [himm] at ka kb kc hoff
    rw [sourceBits_of_imm ⟨code_of_imm ka aa, code_of_imm kb ab, code_of_imm kc ac⟩, hoff]
    exact Nat.mod_eq_of_lt (fld_lt w 23 24)
  | false =>
    rw [himm] at ka kb kc hoff
    rw [sourceBits_of_codes hoff, sourceBits_fields, code_of_decodeOpd ka ha aa, code_of_decodeOpd kb hb ab,
      code_of_decodeOpd kc hc ac]

/-- A full word that the decoder takes is the dword of the well-formed word it reads (R54). -/
theorem encode_of_decodeFields {w : Nat} (hw : w < 2 ^ 63) {i : Instr} (h : decodeFields w = some i) :
    i.wf = true ∧ ∃ p, i.parts = some p ∧ p.encode = w := by
  simp only [decodeFields, Option.bind_eq_some_iff, decodeOpnds, Option.some.injEq] at h
  obtain ⟨ty, hty, r, hr, _, ⟨d, hd, a, ha, b, hb, c, hc, rfl⟩, i', hi, h⟩ := h
  split_ifs at h with hok
  cases h
  rw [Bool.and_eq_true] at hok
  obtain ⟨hwf, hm⟩ := hok
  obtain ⟨m', hp⟩ := parts_of_buildWord _ _ _ _ i hi
  obtain rfl : m' = fld w 0 12 := by simpa [hp] using hm
  refine ⟨hwf, _, hp, ?_⟩
  rw [wf_of_parts hp] at hwf
  obtain ⟨r', hr', ad, aa, ab, ac⟩ := row_of_wf hwf
  obtain rfl := Option.some.inj (hr.symm.trans hr')
  obtain ⟨kd, -⟩ := rowSpec_isImm _ _ _ r hr
  have hsrc := sourceBits_of_decode hr aa ab ac ha hb hc rfl
  rw [encode_eq, hsrc]
  simp only [fld_bit, ty_code_of_ofCode _ ty hty, guardOf_val (fld_lt w 19 4), code_of_decodeOpd kd hd ad]
  exact (dword_eq_fields hw).symm

/-! ## Pair words -/

theorem pairOp_ofCode_code (x : PairOp) : PairOp.ofCode x.code = some x := by cases x <;> rfl

theorem pairOp_code_lt (x : PairOp) : x.code < 128 := by cases x <;> decide

theorem pairOp_code_of_ofCode (n : Nat) : ∀ x ∈ PairOp.ofCode n, x.code = n := by
  unfold PairOp.ofCode
  split <;> rintro _ ⟨⟩ <;> rfl

theorem pairTy_ofCode_code (x : PairTy) : PairTy.ofCode x.code = some x := by cases x <;> rfl

theorem pairTy_code_lt (x : PairTy) : x.code < 8 := by cases x <;> decide

theorem pairTy_code_of_ofCode (n : Nat) : ∀ x ∈ PairTy.ofCode n, x.code = n := by
  unfold PairTy.ofCode
  split <;> rintro _ ⟨⟩ <;> rfl

theorem half_encode_lt (h : PairHalf) : h.encode < 2 ^ 31 := by
  have h1 := h.guard.neg.toNat_lt
  have h2 := h.guard.idx.isLt
  have h3 := pairTy_code_lt h.ty
  have h4 := opd_code_lt h.a
  have h5 := h.d.isLt
  have h6 := pairOp_code_lt h.op
  unfold PairHalf.encode
  omega

/-- Each field of a half's bits reads back (R49). -/
theorem fields_half_encode (h : PairHalf) : fld h.encode 24 7 = h.op.code ∧ fld h.encode 6 3 = h.ty.code
    ∧ fld h.encode 9 8 = h.a.code ∧ fld h.encode 0 2 = 0 ∧ fld h.encode 17 7 = h.d.val
    ∧ fld h.encode 2 4 = h.guard.neg.toNat + 2 * h.guard.idx.val := by
  have h1 := h.guard.neg.toNat_lt
  have h2 := h.guard.idx.isLt
  have h3 := pairTy_code_lt h.ty
  have h4 := opd_code_lt h.a
  have h5 := h.d.isLt
  have h6 := pairOp_code_lt h.op
  unfold PairHalf.encode fld
  refine ⟨?_, ?_, ?_, ?_, ?_, ?_⟩ <;> omega

theorem half_eq_fields {x : Nat} (hx : x < 2 ^ 31) (h0 : fld x 0 2 = 0) : x = 2 ^ 2 * fld x 2 4 + 2 ^ 6 * fld x 6 3
    + 2 ^ 9 * fld x 9 8 + 2 ^ 17 * fld x 17 7 + 2 ^ 24 * fld x 24 7 := by
  unfold fld at *
  omega

theorem source_of_half_ok {h : PairHalf} (hok : h.ok = true) : pairSrc.accepts h.a = true := by
  simp only [PairHalf.ok, Bool.and_eq_true] at hok
  obtain ⟨⟨⟨-, ha⟩, -⟩, -⟩ := hok
  exact ha

theorem decodeHalf_encode {h : PairHalf} (hok : h.ok = true) : decodeHalf h.encode = some h := by
  obtain ⟨fop, fty, fa, f0, fd, fg⟩ := fields_half_encode h
  have ha : Opd.ofCode h.a.code = some h.a := decodeOpd_code (source_of_half_ok hok)
  simp [decodeHalf, fop, fty, fa, f0, fd, fg, ha, pairOp_ofCode_code, pairTy_ofCode_code, guardOf_code]

theorem encode_of_decodeHalf {x : Nat} (hx : x < 2 ^ 31) {h : PairHalf} (hh : decodeHalf x = some h) (hok : h.ok = true) :
    h.encode = x := by
  simp only [decodeHalf, Option.bind_eq_some_iff] at hh
  obtain ⟨op, hop, ty, hty, a, ha, hh⟩ := hh
  split_ifs at hh with h0
  cases hh
  have hac : a.code = fld x 9 8 := code_of_decodeOpd (k := pairSrc) rfl ha (source_of_half_ok hok)
  have hg := guardOf_val (fld_lt x 2 4)
  have hd : (Fin.ofNat 128 (fld x 17 7)).val = fld x 17 7 := Nat.mod_eq_of_lt (fld_lt x 17 7)
  have h := half_eq_fields hx h0
  simp only [PairHalf.encode, pairOp_code_of_ofCode _ op hop, pairTy_code_of_ofCode _ ty hty, hac, hd]
  omega

/-- The fields of a pair word's dword are its halves' (R49). -/
theorem fields_pair (x y : Nat) (hx : x < 2 ^ 31) (hy : y < 2 ^ 31) :
    let w := 2 ^ 63 + 2 ^ 32 * x + y
    w < 2 ^ 64 ∧ fld w 63 1 = 1 ∧ fld w 31 1 = 0 ∧ fld w 32 31 = x ∧ fld w 0 31 = y
      ∧ fld w 56 7 = fld x 24 7 ∧ fld w 24 7 = fld y 24 7 := by
  unfold fld
  refine ⟨?_, ?_, ?_, ?_, ?_, ?_, ?_⟩ <;> omega

theorem pair_eq_fields {w : Nat} (hw : w < 2 ^ 64) (h1 : fld w 63 1 = 1) (h0 : fld w 31 1 = 0) :
    w = 2 ^ 63 + 2 ^ 32 * fld w 32 31 + fld w 0 31 := by
  unfold fld at *
  omega

theorem decodePair_encode {h1 h2 : PairHalf} (k1 : h1.ok = true) (k2 : h2.ok = true) (hb : bankOk h1 h2 = true) :
    decodePair (2 ^ 63 + 2 ^ 32 * h1.encode + h2.encode) = .ok (.pairWord h1 h2) := by
  obtain ⟨-, -, f31, fh1, fh2, fop1, fop2⟩ := fields_pair _ _ (half_encode_lt h1) (half_encode_lt h2)
  rw [(fields_half_encode h1).1] at fop1
  rw [(fields_half_encode h2).1] at fop2
  simp only [decodePair, fop1, fop2, fh1, fh2, f31, pairOp_ofCode_code, decodeHalf_encode k1, decodeHalf_encode k2, k1, k2]
  simp [hb]

theorem encode_of_decodePair {w : Nat} (hw : w < 2 ^ 64) (h63 : fld w 63 1 = 1) {i : Instr} (h : decodePair w = .ok i) :
    i.wf = true ∧ i.isWord = true ∧ encode i = some (BitVec.ofNat 64 w) := by
  unfold decodePair at h
  split at h
  swap
  · cases h
  split at h
  swap
  · cases h
  next h1 h2 e1 e2 =>
    split at h
    swap
    · cases h
    next hok =>
      split at h
      swap
      · cases h
      next hb =>
        cases h
        simp only [Bool.and_eq_true, beq_iff_eq] at hok
        obtain ⟨⟨k1, k2⟩, h31⟩ := hok
        have en1 := encode_of_decodeHalf (fld_lt w 32 31) e1 k1
        have en2 := encode_of_decodeHalf (fld_lt w 0 31) e2 k2
        refine ⟨by simp [Instr.wf, k1, k2, hb], rfl, ?_⟩
        rw [encode, en1, en2, ← pair_eq_fields hw h63 h31]

/-! ## Dwords and bytes -/

/-- The decoder reads a well-formed word back from its dword. -/
theorem decodeWord_encode {i : Instr} (hwf : i.wf = true) (hw : i.isWord = true) :
    ∃ w, encode i = some w ∧ decodeWord w = .ok i := by
  by_cases hpair : ∃ h1 h2, i = .pairWord h1 h2
  · obtain ⟨h1, h2, rfl⟩ := hpair
    simp only [Instr.wf, Bool.and_eq_true] at hwf
    obtain ⟨⟨k1, k2⟩, hb⟩ := hwf
    refine ⟨_, rfl, ?_⟩
    obtain ⟨hlt, f63, -⟩ := fields_pair _ _ (half_encode_lt h1) (half_encode_lt h2)
    rw [decodeWord, BitVec.toNat_ofNat, Nat.mod_eq_of_lt hlt, if_pos f63]
    exact decodePair_encode k1 k2 hb
  · obtain ⟨p, hp⟩ : ∃ p, i.parts = some p := by
      cases i with
      | pairWord h1 h2 => exact absurd ⟨h1, h2, rfl⟩ hpair
      | _ => exact Option.isSome_iff_exists.1 hw
    rw [wf_of_parts hp] at hwf
    obtain ⟨hop, hm, -⟩ := instr_rebuilt i p hp
    obtain ⟨hlt, -⟩ := fields_encode hop hm (sourceBits_lt (immOrCodes_of_wf hp hwf))
    have f63 : ¬fld p.encode 63 1 = 1 := by
      unfold fld
      omega
    refine ⟨_, encode_of_parts hp, ?_⟩
    rw [decodeWord, BitVec.toNat_ofNat, Nat.mod_eq_of_lt (by omega), if_neg f63]
    exact decodeFull_encode hp hwf

/-- A dword that the decoder takes is the dword of the well-formed word it reads. -/
theorem encode_of_decodeWord {w : DWord} {i : Instr} (h : decodeWord w = .ok i) :
    i.wf = true ∧ i.isWord = true ∧ encode i = some w := by
  have hw := w.isLt
  have hnat : BitVec.ofNat 64 w.toNat = w := by simp
  unfold decodeWord at h
  split at h
  next h63 => simpa [hnat] using encode_of_decodePair hw h63 h
  next h63 =>
    have hlt : w.toNat < 2 ^ 63 := by
      unfold fld at h63
      omega
    unfold decodeFull at h
    split at h
    swap
    · cases h
    split at h
    swap
    · cases h
    next hf =>
      cases h
      obtain ⟨hwf, p, hp, he⟩ := encode_of_decodeFields hlt hf
      exact ⟨hwf, isWord_of_parts hp, by rw [encode_of_parts hp, he, hnat]⟩

theorem decode_leBytes {w : DWord} {i : Instr} (h : decodeWord w = .ok i) (rest : List Byte) :
    decode (leBytes 8 w.toNat ++ rest) = .ok (i, rest) := by
  have hlen := Machine.leBytes_length 8 w.toNat
  have hw : leNat (leBytes 8 w.toNat) = w.toNat := by
    rw [Machine.leNat_leBytes]
    exact Nat.mod_eq_of_lt w.isLt
  have hlong : ¬(leBytes 8 w.toNat ++ rest).length < 8 := by
    rw [List.length_append]
    omega
  rw [decode, if_neg hlong, List.take_left' hlen, List.drop_left' hlen, hw]
  simp [h, Except.map]

theorem decodeTableWord_of_decodeWord {w : DWord} {i : Instr} (h : decodeWord w = .ok i) :
    decodeTableWord 64 w.toNat = some i := by
  have hd := decode_leBytes h []
  rw [List.append_nil] at hd
  rw [decodeTableWord, if_pos ⟨le_rfl, w.isLt⟩, hd]

/-! ## Clause headers -/

/-- Each field of a header's dword reads back (R32). -/
theorem fields_header_encode (h : Header) : let w := h.encode.toNat
    fld w 32 32 = h.k.toNat ∧ fld w 26 6 = 0 ∧ fld w 25 1 = h.yieldHint.toNat ∧ fld w 24 1 = h.fchk.toNat
      ∧ fld w 20 4 = h.flagB.val ∧ fld w 16 4 = h.flagA.val ∧ fld w 4 12 = h.wait.toNat ∧ fld w 0 4 = h.len.val := by
  have h1 := h.k.isLt
  have h2 := h.yieldHint.toNat_lt
  have h3 := h.fchk.toNat_lt
  have h4 := h.flagB.isLt
  have h5 := h.flagA.isLt
  have h6 := h.wait.isLt
  have h7 := h.len.isLt
  unfold Header.encode fld
  rw [BitVec.toNat_ofNat]
  refine ⟨?_, ?_, ?_, ?_, ?_, ?_, ?_, ?_⟩ <;> omega

theorem header_ofNat_encode (h : Header) : Header.ofNat h.encode.toNat = h := by
  obtain ⟨hk, -, hy, hf, hb, ha, hw, hl⟩ := fields_header_encode h
  simp [Header.ofNat, hk, hy, hf, hb, ha, hw, hl]

/-- A header that passes the checks of R33 reads back from its dword (R32). -/
theorem decodeHeader_encode (h : Header) (hlen : h.len ≠ 0) (ha : h.flagA.val < 12 ∨ h.flagA = 15)
    (hb : h.flagB.val < 12 ∨ h.flagB = 15) : decodeHeader h.encode = .ok h := by
  obtain ⟨-, hr, -⟩ := fields_header_encode h
  have hflags : ¬((12 ≤ h.flagA.val ∧ h.flagA.val ≤ 14) ∨ (12 ≤ h.flagB.val ∧ h.flagB.val ≤ 14)) := by omega
  simp only [decodeHeader, header_ofNat_encode]
  rw [if_neg hlen, if_neg (by simpa using hr), if_neg hflags]

end Sys2Proof.Encoding

namespace Sys2Proof

open Sys2Proof.Encoding

/-- Settles O56: a word's dword is the sum of its fields, so each field reads back, and the tables give each operand back from
its code. -/
theorem encodingsAgree : Obligations.EncodingsAgree := by
  unfold Obligations.EncodingsAgree
  refine ⟨fun i hwf hword => ?_, fun w i h => encode_of_decodeWord h, decodeHeader_encode⟩
  obtain ⟨w, he, hd⟩ := decodeWord_encode hwf hword
  refine ⟨w, he, hd, decodeTableWord_of_decodeWord hd, fun rest => ?_⟩
  rw [encodeBytes, he]
  exact decode_leBytes hd rest

/-- Settles O55. -/
theorem decodedWords : Obligations.DecodedWords := by
  unfold Obligations.DecodedWords
  refine ⟨?_, ?_, ?_, ?_, ?_, ?_, ?_, ?_, ?_, ?_, ?_, ?_, ?_, ?_, ?_, ?_, ?_, ?_, ?_, ?_, ?_, ?_, ?_, ?_, ?_⟩ <;> rfl

end Sys2Proof

/-! # Pair words and words guarded off (O13, O14)

Both say what `commit` leaves of the warp: a pair word writes through `putHalf`, and a word that no active lane passes is
completed with a change that is none. -/

namespace Sys2Proof.Machine

theorem nextRun_congr {w w' : Warp} (hr : w'.run = w.run) (hc : w'.clause = w.clause) : nextRun w' = nextRun w := by
  simp only [nextRun, nextPlace, hr, hc]

/-! ## Pair words -/

/-- What a half of a pair word leaves of a warp: all but its destination and the status bits. -/
structure HalfOnly (w w' : Warp) : Prop where
  kept : WarpKept w w'
  run : w'.run = w.run
  clause : w'.clause = w.clause
  s : w'.s = w.s
  p : w'.p = w.p
  q : w'.q = w.q

theorem HalfOnly.trans {a b c : Warp} (h : HalfOnly a b) (k : HalfOnly b c) : HalfOnly a c :=
  ⟨warpKept_trans h.kept k.kept, k.run.trans h.run, k.clause.trans h.clause, k.s.trans h.s, k.p.trans h.p, k.q.trans h.q⟩

theorem halfOnly_stickFstat (w : Warp) (fl : Nat) : HalfOnly w (stickFstat w fl) :=
  ⟨⟨rfl, rfl, rfl, rfl, rfl, rfl, rfl, rfl, rfl, rfl, rfl, rfl, rfl, rfl, rfl, rfl⟩, rfl, rfl, rfl, rfl, rfl⟩

theorem halfOnly_dput_v (w : Warp) (r : Fin 128) (m : Word) (f : Nat → PV) : HalfOnly w (w.dput .b32 (.v r) m f) := by
  obtain ⟨h, hp, hq⟩ := dput_facts w .b32 (.v r) m f
  exact ⟨h.kept, h.run, h.clause, vput_s .., hp, hq⟩

theorem halfOnly_putHalf (w : Warp) (it : Iss) (h : PairHalf) : HalfOnly w (w.putHalf it h) := by
  unfold Warp.putHalf
  split
  · exact ⟨(RegsOnly.refl w).kept, rfl, rfl, rfl, rfl, rfl⟩
  · exact (halfOnly_dput_v w ..).trans (halfOnly_stickFstat ..)

/-- A half writes its result to its destination, in the lanes of its guard. -/
theorem vget_putHalf (w : Warp) (it : Iss) (h : PairHalf) (x : Nat) {l : Nat} (hl : l < 32) :
    (w.putHalf it h).vget x l =
      if h.op ≠ .nop ∧ x = h.d.val ∧ (it.w.guarded h.guard it.act).getLsbD l = true then
        ⟨BitVec.ofNat 32 (halfOut it h l).bits, (halfOut it h l).pois⟩
      else w.vget x l := by
  by_cases hn : h.op = .nop
  · simp [Warp.putHalf, hn]
  · simp only [Warp.putHalf, hn, ne_eq, not_false_eq_true, true_and]
    exact vget_vput w _ _ _ x hl

/-- The destinations of two halves that keep the bank rules differ (R51). -/
theorem dest_ne_of_bankOk {h1 h2 : PairHalf} (hb : bankOk h1 h2 = true) (n1 : h1.op ≠ .nop) (n2 : h2.op ≠ .nop) :
    h1.d.val ≠ h2.d.val := by
  intro he
  simp [bankOk, PairHalf.writes, n1, n2, he] at hb

theorem releases_pairWord (w : Warp) (h1 h2 : PairHalf) (m : Word) : w.releases (.pairWord h1 h2) m = w := rfl

end Sys2Proof.Machine

namespace Sys2Proof

open Machine

/-- Settles O13: both halves' results are computed from the warp at issue, and each half writes its own register. -/
theorem pairWords : Obligations.PairWords := by
  unfold Obligations.PairWords
  intro h1 h2 s s0 it hi hb
  obtain ⟨now, hw⟩ := warp_at_issue hi (.inl rfl)
  have hbase : baseOf it = it.w := by
    obtain ⟨wid, core, slot, w, -, -, -, rfl, -⟩ := issuing_facts hi
    exact releases_pairWord ..
  obtain ⟨honly, hafter⟩ := commit_facts hw fun w => (w.putHalf it h1).putHalf it h2
  obtain ⟨ak, av, as, ap, aq, -, -, arun, aclause⟩ := atWrites_facts it now
  have hh : HalfOnly it.w (((atWrites it now).putHalf it h1).putHalf it h2) :=
    HalfOnly.trans ⟨ak, arun, aclause, as, ap, aq⟩ ((halfOnly_putHalf _ it h1).trans (halfOnly_putHalf _ it h2))
  obtain ⟨dk, dv, ds, dp, dq, -, -, drun⟩ := advance_facts (((atWrites it now).putHalf it h1).putHalf it h2)
  refine ⟨_, issue_eq hi _, honly, _, hafter, warpKept_trans hh.kept dk, drun.trans (nextRun_congr hh.run hh.clause),
    ds.trans hh.s, dp.trans hh.p, dq.trans hh.q, fun x l hl => ?_⟩
  rw [vget_congr dv, vget_putHalf _ _ _ _ hl, vget_putHalf _ _ _ _ hl, vget_congr av, hbase]
  by_cases c1 : h1.op ≠ .nop ∧ x = h1.d.val ∧ (it.w.guarded h1.guard it.act).getLsbD l = true
  · have c2 : ¬(h2.op ≠ .nop ∧ x = h2.d.val ∧ (it.w.guarded h2.guard it.act).getLsbD l = true) := fun c2 =>
      dest_ne_of_bankOk hb c1.1 c2.1 (c1.2.1.symm.trans c2.2.1)
    rw [if_neg c2, if_pos c1, if_pos c1]
  · simp only [if_neg c1]

end Sys2Proof

/-! ## Words guarded off -/

namespace Sys2Proof.Machine

theorem vput_none {m : Word} (hm : m = 0) (w : Warp) (r : Nat) (f : Nat → PWord) : w.vput r m f = w := if_pos hm

theorem dput_none {m : Word} (hm : m = 0) (w : Warp) (t : Ty) (d : Opd) (f : Nat → PV) : w.dput t d m f = w := by
  cases d with
  | v r => simp only [Warp.dput, Warp.vput64, vput_none hm, ite_self]
  | s r => exact if_pos hm
  | _ => rfl

theorem dputW_none {m : Word} (hm : m = 0) (w : Warp) (t : Ty) (d : Opd) (f : Nat → Nat → PV) : w.dputW t d m f = w := by
  cases d <;> simp only [Warp.dputW, vput_none hm, if_pos hm] <;> exact List.foldl_fixed _

theorem pdput_none {m : Word} (hm : m = 0) (w : Warp) (d : Opd) (f : Nat → Bool) : w.pdput d m f = w := by
  cases d with
  | p r => exact if_neg fun h => h.2 hm
  | q r => exact if_pos hm
  | _ => rfl

/-- No lane of the empty mask. -/
theorem lanesOf_zero : lanesOf 0 = [] := by simp [lanesOf]

/-- A word completed without a change of its own only moves on. -/
theorem commit_passes {it : Iss} {s : State} {now : Noted} (h : s.warp it.wid = some (it.w.atIssue now)) {f : Warp → Warp}
    (hf : ∀ w, f w = w) : Passes it s (commit it s f) := by
  obtain ⟨honly, hafter⟩ := commit_facts h f
  rw [hf] at hafter
  obtain ⟨ak, av, as, ap, aq, apend, af, arun, aclause⟩ := atWrites_facts it now
  obtain ⟨dk, dv, ds, dp, dq, dpend, df, drun⟩ := advance_facts (atWrites it now)
  have hv : ∀ x l, (atWrites it now).advance.vget x l = (baseOf it).vget x l := vget_congr (dv.trans av)
  have hs : (atWrites it now).advance.s = it.w.s := ds.trans as
  refine ⟨honly, _, _, h, hafter, warpKept_atIssue (warpKept_trans ak dk), dpend.trans apend,
    drun.trans (nextRun_congr arun aclause), by simp [df, af], dp.trans ap, dq.trans aq, ?_⟩
  unfold DestWritten
  cases it.o.d with
  | v r => exact ⟨hs, fun h l hh => absurd hh (Nat.not_lt_zero h), fun x l _ _ => hv x l⟩
  | s r => exact ⟨hv, fun h hh => absurd hh (Nat.not_lt_zero h), fun x _ => sget_congr hs x⟩
  | _ => exact ⟨hs, hv⟩

/-- A word that no active lane passes and that is then completed without a change of its own only moves on. -/
theorem passes_of_commit {i : Instr} {s s0 : State} {it : Iss} (h : issuing i s = some (it, s0)) (ha : it.act = 0)
    {body : Iss → State → State} (he : exec i s = issue i s body) {f : Warp → Warp} (hf : ∀ w, f w = w)
    (hb : body it s0 = commit it s0 f) : ∃ t, exec i s = .next t ∧ Passes it s0 t := by
  obtain ⟨now, hw⟩ := warp_at_issue h (.inr ha)
  exact ⟨_, he.trans (issue_eq h body), hb ▸ commit_passes hw hf⟩

end Sys2Proof.Machine

namespace Sys2Proof

open Machine

/-- Settles O14: with no active lane each of these words is completed by `commit` with a change that writes in no lane. -/
theorem guardedOff : Obligations.GuardedOff := by
  unfold Obligations.GuardedOff
  rintro i s s0 it h ha (⟨o, x, rfl⟩ | ⟨o, rfl⟩ | ⟨o, a, b, rfl⟩ | ⟨o, rfl⟩ | ⟨o, rfl⟩ | ⟨o, c, rfl⟩ | ⟨o, f, rfl⟩ | ⟨o, rfl⟩
    | ⟨o, rfl⟩ | ⟨o, c, rfl⟩ | ⟨o, x, rfl⟩ | ⟨o, rfl⟩ | ⟨o, x, rfl⟩ | ⟨o, x, rfl⟩)
  case inl => exact passes_of_commit h ha rfl (fun w => dput_none ha w ..) rfl
  case inr.inl => exact passes_of_commit h ha rfl (fun w => dputW_none ha w ..) rfl
  case inr.inr.inl =>
    have hp : it.firstLane it.poisAB = none := by rw [Iss.firstLane, Iss.lanes, ha, lanesOf_zero]; rfl
    refine passes_of_commit h ha rfl (fun w => pdput_none ha w it.o.d (it.compare a b)) ?_
    rw [predicate, hp]
  case inr.inr.inr.inl => exact passes_of_commit h ha rfl (fun _ => rfl) rfl
  all_goals exact passes_of_commit h ha rfl (fun _ => rfl) (if_pos ha)

end Sys2Proof

/-! # Decode checks and relative branches (O24, O17) -/

/-! ## The decode checks -/

namespace Sys2Proof.Machine

/-- Every full word is executed by issuing it. -/
theorem exec_eq_issue {i : Instr} (h : i.parts ≠ none) (s : State) : ∃ body, exec i s = issue i s body := by
  cases i <;> try exact absurd rfl h
  all_goals exact ⟨_, rfl⟩

/-- A word that fails a decode check takes its trap, for every lane of the running path. -/
theorem exec_of_decodeTrap {i : Instr} {s : State} {wid core slot : Nat} {w : Warp} {c : Cause} (hi : i.parts ≠ none)
    (hc : s.cur = some wid) (hw : s.warp wid = some w) (hl : w.loc = some (core, slot)) (hd : decodeTrap i w = some c) :
    exec i s = .next (takeTrap s wid ⟨c, 0, 0, w.run.mask, 0, 0, false⟩) := by
  obtain ⟨body, he⟩ := exec_eq_issue hi s
  simp only [he, issue, hc, hw, hl, issueOn, hd]

theorem decodeTrap_of_above {i : Instr} {w : Warp} (h : ∃ r ∈ (usesOf i).vr ++ (usesOf i).vw, w.budget ≤ r) :
    decodeTrap i w = some .illegalEncoding :=
  if_pos (by simpa only [List.any_eq_true, decide_eq_true_eq] using h)

/-- The checks that follow the register budget (R54). -/
theorem decodeTrap_of_fits {i : Instr} {w : Warp} (h : ∀ r ∈ (usesOf i).vr ++ (usesOf i).vw, r < w.budget) :
    decodeTrap i w = if callMisplaced (opOf i) w then some .illegalEncoding
      else if privileged (opOf i) && w.handler.isNone then some .privilege
      else if !roleOk (opOf i) w.role then some .role else none :=
  if_neg (by simpa only [List.any_eq_true, decide_eq_true_eq, not_exists, not_and, Nat.not_le] using h)

theorem callMisplaced_of_op {op : Nat} (w : Warp) (h3 : op ≠ 0x03) (h4 : op ≠ 0x04) : callMisplaced op w = false := by
  simp [callMisplaced, h3, h4]

theorem decodeTrap_of_call {i : Instr} {w : Warp} (h : ∀ r ∈ (usesOf i).vr ++ (usesOf i).vw, r < w.budget)
    (hop : opOf i = 0x03 ∨ opOf i = 0x04) (hl : ∃ cl, w.clause = some cl ∧ w.run.widx ≠ cl.hdr.len.val) :
    decodeTrap i w = some .illegalEncoding := by
  obtain ⟨cl, hcl, hne⟩ := hl
  rw [decodeTrap_of_fits h]
  refine if_pos ?_
  rcases hop with hop | hop <;> simp [callMisplaced, hop, hcl, hne]

theorem decodeTrap_of_privileged {i : Instr} {w : Warp} (h : ∀ r ∈ (usesOf i).vr ++ (usesOf i).vw, r < w.budget)
    (hop : (0xD1 ≤ opOf i ∧ opOf i ≤ 0xD8) ∨ opOf i = 0xE4) (hh : w.handler = none) : decodeTrap i w = some .privilege := by
  rw [decodeTrap_of_fits h, callMisplaced_of_op w (by omega) (by omega), if_neg Bool.false_ne_true]
  refine if_pos ?_
  rcases hop with ⟨h1, h2⟩ | hop
  · simp [privileged, h1, h2, hh]
  · simp [privileged, hop, hh]

theorem decodeTrap_of_role {i : Instr} {w : Warp} (h : ∀ r ∈ (usesOf i).vr ++ (usesOf i).vw, r < w.budget)
    (h1 : 0x80 ≤ opOf i) (h2 : opOf i ≤ 0x99) (hr : roleOk (opOf i) w.role = false) : decodeTrap i w = some .role := by
  have hp : privileged (opOf i) = false := by simp [privileged]; omega
  rw [decodeTrap_of_fits h, callMisplaced_of_op w (by omega) (by omega), hp, hr]
  rfl

end Sys2Proof.Machine

namespace Sys2Proof

open Machine

/-- Settles O24: each clause names the first check that fails, and the trap is taken before any effect of the word. -/
theorem decodeTraps : Obligations.DecodeTraps := by
  unfold Obligations.DecodeTraps
  intro i s wid w core slot hi hc hw hl takes op named fits lastWord priv
  have trap {c : Cause} (hd : decodeTrap i w = some c) : takes c := exec_of_decodeTrap hi hc hw hl hd
  refine ⟨fun h => trap (decodeTrap_of_above h), fun h ho hlast => trap (decodeTrap_of_call h ho hlast),
    fun h ho hh => trap (decodeTrap_of_privileged h ho hh), fun h ho r1 r2 => trap ?_, fun h ho r => trap ?_,
    fun h ho r => trap ?_⟩ <;> refine decodeTrap_of_role h (by omega) (by omega) ?_
  · simp [roleOk, show 0x80 ≤ opOf i ∧ opOf i ≤ 0x84 from ho, r1, r2]
  · have h1 : ¬(0x80 ≤ opOf i ∧ opOf i ≤ 0x84) := by omega
    simp only [roleOk, if_neg h1, show 0x90 ≤ opOf i ∧ opOf i ≤ 0x95 from ho]
    simpa using r
  · have h1 : ¬(0x80 ≤ opOf i ∧ opOf i ≤ 0x84) := by omega
    have h2 : ¬(0x90 ≤ opOf i ∧ opOf i ≤ 0x95) := by omega
    simp only [roleOk, if_neg h1, if_neg h2, show 0x96 ≤ opOf i ∧ opOf i ≤ 0x99 from ho]
    simpa using r

end Sys2Proof

/-! ## What packets leave -/

namespace Sys2Proof.Machine

/-- Trace buffers, their counters and the holds they call for are all that changes: cores and contexts alone. -/
structure TraceOnly (s t : State) : Prop where
  agenda : t.agenda = s.agenda
  cur : t.cur = s.cur
  free : t.free = s.free
  dev : t.dev = s.dev
  mem : t.mem = s.mem
  pairs : t.pairs = s.pairs
  grids : t.grids = s.grids
  blocks : t.blocks = s.blocks
  warps : t.warps = s.warps
  blkNext : t.blkNext = s.blkNext
  cmdNext : t.cmdNext = s.cmdNext

namespace TraceOnly

variable {r s t : State} {ctx src core wid n : Nat} {u : TraceUnit} {slot : Option (Nat × Bool)} {timed taken : Bool}
  {pkt : List Byte}

protected theorem refl (s : State) : TraceOnly s s := ⟨rfl, rfl, rfl, rfl, rfl, rfl, rfl, rfl, rfl, rfl, rfl⟩

protected theorem setUnit (h : TraceOnly r s) : TraceOnly r (s.setUnit ctx src u) :=
  ⟨h.agenda, h.cur, h.free, h.dev, h.mem, h.pairs, h.grids, h.blocks, h.warps, h.blkNext, h.cmdNext⟩

protected theorem modCore {f : Core → Core} (h : TraceOnly r s) : TraceOnly r (s.modCore core f) :=
  ⟨h.agenda, h.cur, h.free, h.dev, h.mem, h.pairs, h.grids, h.blocks, h.warps, h.blkNext, h.cmdNext⟩

protected theorem countSrc (h : TraceOnly r s) : TraceOnly r (countSrc s ctx src n) := by
  unfold Machine.countSrc
  split <;> exact ⟨h.agenda, h.cur, h.free, h.dev, h.mem, h.pairs, h.grids, h.blocks, h.warps, h.blkNext, h.cmdNext⟩

protected theorem dropPackets {slot : Option Nat} (h : TraceOnly r s) : TraceOnly r (dropPackets s ctx src n u slot) := by
  unfold Machine.dropPackets
  generalize List.range n = l
  have hs := h.setUnit (ctx := ctx) (src := src)
    (u := { u with lost := u.lost + n, bits := match slot with | some k => adel k u.bits | none => u.bits })
  revert hs
  generalize s.setUnit ctx src _ = s1
  intro hs
  induction l generalizing s1 with
  | nil => exact hs
  | cons x l ih => exact ih _ hs.countSrc

protected theorem emit (h : TraceOnly r s) : TraceOnly r (emit s ctx src slot timed pkt) := by
  unfold Machine.emit
  dsimp only
  split_ifs
  · exact h
  · exact h.dropPackets
  · exact h.setUnit

protected theorem holdCheck (h : TraceOnly r s) : TraceOnly r (holdCheck s ctx core) := by
  unfold Machine.holdCheck
  dsimp only
  split
  · exact h.modCore.setUnit
  · exact h

protected theorem warpPacket (h : TraceOnly r s) : TraceOnly r (warpPacket s wid pkt) := by
  unfold Machine.warpPacket
  split
  · split
    · split
      · exact h.emit.holdCheck
      · exact h
    · exact h
  · exact h

protected theorem holdBit {slot : Nat} {hd : Bool} (h : TraceOnly r s) : TraceOnly r (holdBit s ctx core slot hd taken) := by
  unfold Machine.holdBit
  extract_lets
  split_ifs
  · exact h.setUnit
  · exact h.dropPackets
  · exact h.setUnit

protected theorem brBit (h : TraceOnly r s) : TraceOnly r (brBit s wid taken) := by
  unfold Machine.brBit
  split
  · split
    · split
      · exact h.holdBit.holdCheck
      · exact h
    · exact h
  · exact h

theorem warp (h : TraceOnly s t) (x : Nat) : t.warp x = s.warp x := State.warp_of_warps_eq h.warps x

/-- A warp put before the packets of its word: beside the warp they leave trace buffers and counters. -/
theorem aside {w : Warp} (h : TraceOnly (s.setWarp wid w) t) : AsideTrace wid s t where
  free := h.free
  dev := h.dev
  mem := h.mem
  pairs := h.pairs
  grids := h.grids
  blocks := h.blocks
  blkNext := h.blkNext
  cmdNext := h.cmdNext
  warps x hx := by rw [h.warp, State.warp_setWarp, if_neg hx]

end TraceOnly

/-! ## Branches -/

/-- A table of at most eight waiting entries needs no spill (R162). -/
theorem spillEntries_few {s : State} {wid : Nat} {w : Warp} (hw : s.warp wid = some w) (h : w.waiting.length ≤ 8) (n : Nat) :
    spillEntries n s wid = .ok s := by
  cases n with
  | zero => rfl
  | succ n =>
    have hl : (w.waiting.filter fun e => e.annex.isNone).length ≤ 8 := (List.length_filter_le _ _).trans h
    simp only [spillEntries, hw, hl, if_true]

/-- No waiting entry is at or below the running path: nothing merges, nothing is switched to (R159). -/
def Ahead (w : Warp) : Prop := ∀ e ∈ w.waiting, w.run.pc.toNat < e.path.pc.toNat

theorem mergeStep_ahead {s : State} {wid : Nat} {w : Warp} (hw : s.warp wid = some w) (h : Ahead w) :
    mergeStep s wid = .ok s := by
  have hn : (w.waiting.any fun e => e.path.pc == w.run.pc) = false := by
    rw [List.any_eq_false]
    intro e he heq
    have := h e he
    rw [eq_of_beq heq] at this
    exact lt_irrefl _ this
  simp [mergeStep, hw, hn]

theorem switchStep_ahead {s : State} {wid : Nat} {w : Warp} (hw : s.warp wid = some w) (h : Ahead w) :
    switchStep s wid = .ok s := by
  have hn : (w.waiting.any fun e => decide (e.path.pc.toNat < w.run.pc.toNat)) = false := by
    rw [List.any_eq_false]
    intro e he hlt
    exact lt_asymm (h e he) (of_decide_eq_true hlt)
  simp [switchStep, hw, hn]

theorem mergeSwitch_ahead {s : State} {wid : Nat} {w : Warp} (hw : s.warp wid = some w) (h : Ahead w) :
    mergeSwitch s wid = .ok s := by
  unfold mergeSwitch
  simp only [hw, mergeStep_ahead hw h, ite_self, switchStep_ahead hw h]

/-- A warp with another place in the schedule. -/
def Warp.placed (w : Warp) (sc : Sched) : Warp := { w with sched := sc }

/-- A branch after which no entry is due for a merge, a switch or a spill: what becomes of the warp, and the packet. -/
theorem branchTo_ahead {s : State} {wid : Nat} {w : Warp} (hw : s.warp wid = some w) {gs : List Group} {packet : State → State}
    (hp : ∀ s, TraceOnly s (packet s)) (hfew : (w.split (groupsOf gs)).waiting.length ≤ 8)
    (hah : Ahead (w.split (groupsOf gs))) :
    ∃ sc t, branchTo s wid gs packet = .ok t ∧ TraceOnly (s.setWarp wid ((w.split (groupsOf gs)).placed sc)) t := by
  unfold branchTo
  split
  next h0 => cases hw.symm.trans h0
  next w0 h0 =>
  obtain rfl := Option.some.inj (hw.symm.trans h0)
  extract_lets g w1 sc1 w2 on hint sc2 w3
  obtain ⟨sc, h3⟩ : ∃ sc, w3 = w1.placed sc := by
    unfold w3 w2
    split <;> exact ⟨_, rfl⟩
  have hpw : (packet (s.setWarp wid w3)).warp wid = some w3 := by rw [(hp _).warp, State.warp_setWarp_self]
  have hfew3 : w3.waiting.length ≤ 8 := by rw [h3]; exact hfew
  have hah3 : Ahead w3 := by rw [h3]; exact hah
  refine ⟨sc, packet (s.setWarp wid w3), ?_, h3 ▸ hp _⟩
  rw [spillEntries_few hpw hfew3]
  simp only [mergeSwitch_ahead hpw hah3]

/-- The groups of a branch that some lanes take: the lanes that stay, and those that take it, in the order of their PCs (R158). -/
theorem groupsOf_two {g h : Group} (hg : g.mask ≠ 0) (hh : h.mask ≠ 0) (hne : h.pc ≠ g.pc) :
    groupsOf [g, h] = if h.pc.toNat < g.pc.toNat then [h, g] else [g, h] := by
  have hf : [g, h].filter (fun g => g.mask != 0) = [g, h] := by
    rw [List.filter_cons_of_pos (by simpa using hg), List.filter_cons_of_pos (by simpa using hh), List.filter_nil]
  rw [groupsOf, hf]
  simp only [List.foldl_cons, List.foldl_nil, insGroup, if_neg hne]

/-- What a branch leaves of a warp, its paths and its place in the schedule apart. -/
theorem split_regs (w : Warp) (gs : List Group) :
    (w.split gs).v = w.v ∧ (w.split gs).s = w.s ∧ (w.split gs).p = w.p := by
  unfold Warp.split
  cases gs with
  | nil => exact ⟨rfl, rfl, rfl⟩
  | cons g rest =>
    dsimp only
    split <;> exact ⟨rfl, rfl, rfl⟩

theorem split_one (w : Warp) (g : Group) : (w.split [g]).waiting = w.waiting
    ∧ (w.split [g]).run = { w.run with pc := g.pc, widx := g.widx, mask := g.mask } := ⟨rfl, rfl⟩

theorem split_two (w : Warp) (g h : Group) :
    (w.split [g, h]).waiting = w.waiting ++ [⟨⟨h.pc, h.widx, h.mask, w.run.fmt, w.run.fmt, w.dseq + 1⟩, none⟩]
    ∧ (w.split [g, h]).run = ⟨g.pc, g.widx, g.mask, w.run.fmt, w.run.fmt, w.dseq + 1⟩ := ⟨rfl, rfl⟩

theorem nextPlace_pc (w : Warp) : (nextPlace w).1 = w.run.pc + 8 := by
  unfold nextPlace
  split <;> rfl

/-- A word acts on lanes of the running path alone (R42, R167). -/
theorem activeOf_subset (i : Instr) (w : Warp) {l : Nat} (h : (activeOf i w).getLsbD l = true) :
    w.run.mask.getLsbD l = true := by
  have hl : l < 32 := BitVec.lt_of_getLsbD h
  have key : ∀ m : Word, (m.getLsbD l = true → w.run.mask.getLsbD l = true) →
      (match w.rpt with | some r => m &&& r | none => m).getLsbD l = true → w.run.mask.getLsbD l = true := by
    intro m hm hr
    split at hr
    · rw [BitVec.getLsbD_and, Bool.and_eq_true] at hr
      exact hm hr.1
    · exact hm hr
  have hg : ∀ g : Guard, (w.guarded g w.run.mask).getLsbD l = true → w.run.mask.getLsbD l = true := by
    intro g hm
    rw [Warp.guarded, getLsbD_maskOf _ hl, Bool.and_eq_true] at hm
    exact hm.1
  have hu : ∀ b : Bool, (if b then w.run.mask else 0).getLsbD l = true → w.run.mask.getLsbD l = true := by
    intro b hm
    cases b with
    | true => exact hm
    | false => simp at hm
  refine key _ (fun hm => ?_) h
  split at hm
  · split at hm
    · exact hu _ hm
    · exact hg _ hm
  · exact hg _ ((if_neg Bool.false_ne_true) ▸ hm)

theorem and_not_ne_zero {m a : Word} (hsub : ∀ l, a.getLsbD l = true → m.getLsbD l = true) (h : a ≠ m) : m &&& ~~~a ≠ 0 := by
  intro h0
  refine h (BitVec.eq_of_getLsbD_eq fun l hl => ?_)
  have hb : (m &&& ~~~a).getLsbD l = false := by rw [h0]; exact BitVec.getLsbD_zero
  cases ha : a.getLsbD l with
  | true => exact (hsub l ha).symm
  | false =>
    simp only [BitVec.getLsbD_and, BitVec.getLsbD_not, ha, hl, decide_true, Bool.not_false, Bool.and_true] at hb
    exact hb.symm

/-- Some lane stays where a word does not act on all of them. -/
theorem rest_ne_zero {i : Instr} {w : Warp} (h : activeOf i w ≠ w.run.mask) : w.run.mask &&& ~~~activeOf i w ≠ 0 :=
  and_not_ne_zero (fun _ => activeOf_subset i w) h

/-- The packet of a branch: DIV, a bit, or none. -/
theorem traceOnly_branchPacket (c1 c2 b : Bool) (wid : Nat) (m : Word) (s : State) :
    TraceOnly s (if c1 then divPacket s wid m else if c2 then brBit s wid b else s) := by
  split
  · exact (TraceOnly.refl s).warpPacket
  · split
    · exact (TraceOnly.refl s).brBit
    · exact TraceOnly.refl s

/-- The groups of a conditional branch (R158). -/
def condGroups (it : Iss) (t : DWord) (taken : Word) : List Group :=
  [stayGroup it.w (it.w.run.mask &&& ~~~taken), ⟨t, 0, taken⟩]

/-- What a conditional branch leaves when it splits a warp's paths so that none is to be merged with or switched to (R158, R174):
those paths, the rest of the warp, and packets. -/
theorem condBranch_ahead {it : Iss} {s0 s : State} {w : Warp} (hw : s.warp it.wid = some w) {t : DWord} {taken : Word} {cond : Bool}
    {p : Path} {q : List Waiter} (hrun : (w.split (groupsOf (condGroups it t taken))).run = p)
    (hwait : (w.split (groupsOf (condGroups it t taken))).waiting = q) (hfew : q.length ≤ 8)
    (hah : ∀ e ∈ q, p.pc.toNat < e.path.pc.toNat) :
    AsideTrace it.wid s (condBranch it s0 s t taken cond) ∧ ∃ w', (condBranch it s0 s t taken cond).warp it.wid = some w'
      ∧ w'.run = p ∧ w'.waiting = q ∧ w'.v = w.v ∧ w'.s = w.s ∧ w'.p = w.p := by
  subst hrun hwait
  obtain ⟨sc, t', hb, ht⟩ := branchTo_ahead hw (fun s => traceOnly_branchPacket _ cond _ it.wid taken s) hfew hah
  obtain ⟨hv, hs, hp⟩ := split_regs w (groupsOf (condGroups it t taken))
  have hc : condBranch it s0 s t taken cond = t' := by
    unfold condBranch orRefill
    dsimp only
    rw [show [stayGroup it.w (it.w.run.mask &&& ~~~taken), ⟨t, 0, taken⟩] = condGroups it t taken from rfl, hb]
  rw [hc]
  exact ⟨ht.aside, _, (ht.warp _).trans (State.warp_setWarp_self ..), rfl, rfl, hv, hs, hp⟩

theorem groupsOf_second {g h : Group} (hg : g.mask = 0) (hh : h.mask ≠ 0) : groupsOf [g, h] = [h] := by
  have hf : [g, h].filter (fun g => g.mask != 0) = [h] := by
    rw [List.filter_cons_of_neg (by simp [hg]), List.filter_cons_of_pos (by simpa using hh), List.filter_nil]
  rw [groupsOf, hf]
  rfl

theorem groupsOf_first {g h : Group} (hg : g.mask ≠ 0) (hh : h.mask = 0) : groupsOf [g, h] = [g] := by
  have hf : [g, h].filter (fun g => g.mask != 0) = [g] := by
    rw [List.filter_cons_of_pos (by simpa using hg), List.filter_cons_of_neg (by simp [hh]), List.filter_nil]
  rw [groupsOf, hf]
  rfl

/-- All lanes of the path take the branch. -/
theorem condGroups_all {it : Iss} (t : DWord) (h : it.w.run.mask ≠ 0) :
    groupsOf (condGroups it t it.w.run.mask) = [⟨t, 0, it.w.run.mask⟩] :=
  groupsOf_second (by simp [stayGroup]) h

/-- No lane of the path takes the branch. -/
theorem condGroups_none {it : Iss} (t : DWord) (h : it.w.run.mask ≠ 0) :
    groupsOf (condGroups it t 0) = [stayGroup it.w it.w.run.mask] := by
  have hm : it.w.run.mask &&& ~~~(0 : Word) = it.w.run.mask := BitVec.and_allOnes
  rw [condGroups, hm]
  exact groupsOf_first h rfl

/-- Some lanes of the path take the branch: the group with the lower PC is to run (R158). -/
theorem split_condGroups {it : Iss} {w : Warp} {n : Noted} (hw : w = it.w.atIssue n) (hone : it.w.waiting = []) {t : DWord}
    (hrest : it.w.run.mask &&& ~~~it.act ≠ 0) (h0 : it.act ≠ 0) (ht : t ≠ it.w.run.pc + 8) :
    ∃ lo hi, (w.split (groupsOf (condGroups it t it.act))).run = lo
      ∧ (w.split (groupsOf (condGroups it t it.act))).waiting = [⟨hi, none⟩] ∧ lo.pc.toNat < hi.pc.toNat
      ∧ (lo, hi) = if t.toNat < (it.w.run.pc + 8).toNat then splitPaths it.w t it.act else (splitPaths it.w t it.act).swap := by
  have hpc : t.toNat ≠ (it.w.run.pc + 8).toNat := fun e => ht (BitVec.eq_of_toNat_eq e)
  have hwait : w.waiting = [] := hw ▸ hone
  rw [condGroups, stayGroup, nextPlace_pc, groupsOf_two hrest h0 ht]
  by_cases hlt : t.toNat < (it.w.run.pc + 8).toNat
  · rw [if_pos hlt, if_pos hlt, (split_two ..).1, (split_two ..).2, hwait, hw]
    exact ⟨_, _, rfl, rfl, hlt, rfl⟩
  · rw [if_neg hlt, if_neg hlt, (split_two ..).1, (split_two ..).2, hwait, hw]
    exact ⟨_, _, rfl, rfl, lt_of_le_of_ne (Nat.le_of_not_lt hlt) hpc.symm, rfl⟩

/-- `bra` branches, where it does not raise UNIFORM_DIVERGED or follow the lowest lane (R163, R174). -/
theorem exec_bra {o : Opnds} {off : BitVec 24} {uni : Bool} {s s0 : State} {it : Iss}
    (h : issuing (.bra o off uni) s = some (it, s0)) (hu : uni = true → it.act = 0 ∨ it.act = it.w.run.mask) :
    ∃ cond, exec (.bra o off uni) s = .next (condBranch it s0 s0 (relTarget it.w.run.pc off) it.act cond) := by
  refine ⟨_, (issue_eq h _).trans (congrArg _ (if_neg fun hc => ?_))⟩
  simp only [Bool.and_eq_true, bne_iff_ne] at hc
  obtain ⟨⟨h1, h2⟩, h3⟩ := hc
  exact (hu h1).elim h2 h3

end Sys2Proof.Machine

namespace Sys2Proof

open Machine

/-- Settles O17: `branchTo` of the groups that `bra` makes, on a warp whose one path leaves none to merge with or switch to. -/
theorem relativeBranches : Obligations.RelativeBranches := by
  unfold Obligations.RelativeBranches
  refine ⟨?_, fun o off s s0 it h ha hm hcfg => ?_⟩
  · intro o off uni s s0 it h hone hmask t
    obtain ⟨n, hw⟩ := warp_at_issue h (.inl rfl)
    have hact : it.act = activeOf it.instr it.w := by
      obtain ⟨wid, core, slot, w, -, -, -, rfl, -⟩ := issuing_facts h
      rfl
    refine ⟨fun ha => ?_, fun ha => ?_, fun hu h0 hm ht => ?_⟩
    · obtain ⟨cond, he⟩ := exec_bra h fun _ => .inr ha
      rw [ha] at he
      refine ⟨_, he, condBranch_ahead hw (q := []) ?_ ?_ (Nat.zero_le 8) (by simp)⟩
      · rw [condGroups_all _ hmask]
        rfl
      · rw [condGroups_all _ hmask]
        exact hone
    · obtain ⟨cond, he⟩ := exec_bra h fun _ => .inl ha
      rw [ha] at he
      refine ⟨_, he, condBranch_ahead hw (q := []) ?_ ?_ (Nat.zero_le 8) (by simp)⟩
      · rw [condGroups_none _ hmask, (split_one _ _).2]
        exact congrArg (fun pc => ({ it.w.run with pc := pc, widx := (nextPlace it.w).2 } : Path)) (nextPlace_pc it.w)
      · rw [condGroups_none _ hmask]
        exact hone
    · obtain ⟨cond, he⟩ := exec_bra h fun e => absurd (hu.symm.trans e) Bool.false_ne_true
      have hrest : it.w.run.mask &&& ~~~it.act ≠ 0 := by
        rw [hact] at hm ⊢
        exact rest_ne_zero hm
      obtain ⟨lo, hi, hrun, hwait, hlt, hpaths⟩ := split_condGroups (n := n) rfl hone hrest h0 ht
      obtain ⟨haside, w', hw', hr, hq, hregs⟩ := condBranch_ahead (s0 := s0) (cond := cond) hw hrun hwait (by simp) (by simpa using hlt)
      refine ⟨_, he, haside, w', hw', ?_, hregs⟩
      rw [hr, hq]
      split_ifs at hpaths ⊢ <;> (obtain ⟨rfl, rfl⟩ := Prod.mk.inj hpaths; exact ⟨rfl, rfl⟩)
  · refine (issue_eq h _).trans (congrArg _ ((if_pos ?_).trans (if_pos hcfg)))
    simp only [Bool.true_and, Bool.and_eq_true, bne_iff_ne]
    exact ⟨ha, hm⟩

end Sys2Proof

/-! # What a step does (O57) -/

/-! ## The agenda is read by `nextTurn` alone -/

namespace Sys2Proof.Machine

/-- The state in which the first turn of an agenda is taken. -/
def afterTurn (s : State) (ts : List Turn) : State := { s with agenda := ts }

theorem nextTurn_of_agenda {s : State} {t : Turn} {ts : List Turn} (h : s.agenda = t :: ts) :
    nextTurn s = (t, afterTurn s ts) := by
  simp only [nextTurn, h, afterTurn]

theorem isSome_ite_none {α : Type} (c : Prop) [Decidable c] (x y : α) :
    (if c then none else some x).isSome = (if c then none else some y).isSome := by
  split <;> rfl

/-- Whether something is delivered at a warp's boundary does not depend on the agenda. -/
theorem deliver_afterTurn (s : State) (ts : List Turn) (wid : Nat) (w : Warp) :
    (deliver (afterTurn s ts) wid w).isSome = (deliver s wid w).isSome := by
  unfold deliver
  cases w.heldTrap with
  | some r => exact isSome_ite_none _ _ _
  | none =>
    cases w.async with
    | nil => rfl
    | cons r rs => exact isSome_ite_none _ _ _

theorem stopKind_afterTurn (s : State) (ts : List Turn) (core wid : Nat) (w : Warp) (p : Preempt) :
    stopKind (afterTurn s ts) core wid w p = stopKind s core wid w p := rfl

theorem stopDue_afterTurn (s : State) (ts : List Turn) (core wid : Nat) (w : Warp) :
    stopDue (afterTurn s ts) core wid w = stopDue s core wid w := by
  unfold stopDue
  simp only [deliver_afterTurn, stopKind_afterTurn]
  rfl

theorem takesTurn_afterTurn {s : State} {core slot wid : Nat} {w : Warp} (h : TakesTurn s core slot wid w)
    (ts : List Turn) : TakesTurn (afterTurn s ts) core slot wid w where
  at_ := h.at_
  warp := h.warp
  clean := by
    have hd := deliver_afterTurn s ts wid w
    rw [h.clean] at hd
    exact Option.isNone_iff_eq_none.mp (by simpa using hd)
  still := (stopDue_afterTurn s ts core wid w).trans h.still
  can := h.can
  up := h.up
  front := h.front

/-! ## Steps by their turn -/

theorem step_of_done {s s2 : State} {t : Turn} {ts : List Turn} (h : s.agenda = t :: ts) (hp : s.dev.powered = true)
    (hr : readyOf t (afterTurn s ts) = .done s2) : step s = .next (tick t s2) := by
  simp only [step, nextTurn_of_agenda h, hp, hr, Bool.not_true, Bool.false_and, Bool.false_eq_true, if_false]

theorem step_of_run {s s2 : State} {t : Turn} {ts : List Turn} {i : Instr} (h : s.agenda = t :: ts)
    (hp : s.dev.powered = true) (hr : readyOf t (afterTurn s ts) = .run i s2) : step s = finish t (exec i s2) := by
  simp only [step, nextTurn_of_agenda h, hp, hr, Bool.not_true, Bool.false_and, Bool.false_eq_true, if_false]

theorem step_unpowered {s : State} {t : Turn} {ts : List Turn} (h : s.agenda = t :: ts) (hp : s.dev.powered = false)
    (hb : isBoot t = false) : step s = .fault .poweredOff := by
  simp only [step, nextTurn_of_agenda h, hp, hb, Bool.not_false, Bool.and_self, if_true]

/-- A warp whose turn can be taken comes to its header or to its next word. -/
theorem warpTurn_of_takesTurn {s : State} {core slot wid : Nat} {w : Warp} (h : TakesTurn s core slot wid w) :
    warpTurn s core slot = if w.run.widx = 0 then .done (dispatchClause s wid core w) else midClause s wid core w := by
  simp only [warpTurn, h.at_, h.warp, h.still, h.clean, h.can, h.up, h.front, ite_self, Bool.or_self,
    Bool.false_eq_true, if_false]

theorem execClauseDispatch_header {s : State} {core slot wid : Nat} {w : Warp} (h : TakesTurn s core slot wid w)
    (h0 : w.run.widx = 0) : exec (.clauseDispatch core slot) s = .next (dispatchClause s wid core w) := by
  simp only [exec, execClauseDispatch, h.at_, h.warp, h.still, h.clean, h.can, h.up, h.front, h0, Option.isSome_none,
    Bool.or_self, Bool.false_eq_true, if_false, if_true]

/-- A mid-clause warp with no breakpoint at its word runs what the word decodes to, once it has a port. -/
theorem midClause_runs {s s1 : State} {core wid : Nat} {w : Warp} {cl : Clause} {d : DWord} {i : Instr}
    (hc : w.clause = some cl) (hb : breakAt s (s.ctxNo wid) w.run.pc = false ∨ w.bpSkip = some w.run.pc)
    (hd : cl.words[w.run.widx - 1]? = some d) (hi : decodeWord d = .ok i) (hp : bindPort s core wid w = some s1) :
    midClause s wid core w = .run i { s1 with cur := some wid } := by
  have hbreak : (breakAt s (s.ctxNo wid) w.run.pc && w.bpSkip != some w.run.pc) = false := by
    rcases hb with hb | hb <;> simp [hb]
  simp only [midClause, hc, wordReady, hbreak, Bool.false_eq_true, if_false, hd, Option.getD_some, hi, hp]

/-! ## A fetched clause is what memory holds -/

/-- Bytes of sectors with definite contents are the bytes of memory. -/
theorem bytesUnder_of_known (m : Mem) (key fr : Nat) :
    ∀ (n k : Nat), (∀ j, j < n → m.unknown key ((k + j) / 32) = false) → m.bytesUnder key fr k n = m.bytes k n
  | 0, _, _ => rfl
  | n + 1, k, h => by
    have h0 : m.unknown key (k / 32) = false := h 0 (Nat.succ_pos n)
    have htail := bytesUnder_of_known m key fr n (k + 1) fun j hj => by
      rw [Nat.add_assoc, Nat.add_comm 1 j]
      exact h (j + 1) (Nat.succ_lt_succ hj)
    simp only [Mem.bytesUnder, Mem.bytes, Mem.byteUnder, h0, Bool.false_eq_true, if_false, htail]

theorem sector_mem_sectors {k n j : Nat} (h : j < n) : (k + j) / 32 ∈ sectors k n := by
  have hle : k / 32 ≤ (k + j) / 32 := Nat.div_le_div_right (Nat.le_add_right k j)
  have hle' : (k + j) / 32 ≤ (k + n - 1) / 32 := Nat.div_le_div_right (by omega)
  rw [sectors, if_neg (by omega), List.mem_map]
  exact ⟨(k + j) / 32 - k / 32, List.mem_range.mpr (by omega), by omega⟩

/-- A dword fetched from known sectors is the number memory holds there (R3, R34). -/
theorem fetchDword_eq_num {s : State} {ctx va : Nat} {d : DWord} {g : Tgt} (h : fetchDword s ctx va = .ok d)
    (hg : s.fetchAt ctx va s.free = .ok g) (hk : ∀ x ∈ sectors g.key 8, s.mem.unknown (s.keyId ctx) x = false) :
    d = BitVec.ofNat 64 (s.mem.num g.key 8) := by
  simp only [fetchDword, hg] at h
  split at h
  · cases h
  · rw [bytesUnder_of_known _ _ _ _ _ fun j hj => hk _ (sector_mem_sectors hj)] at h
    exact (Except.ok.inj h).symm

/-- The dwords fetched from an address on: as many as asked for, each fetched from its own address. -/
theorem fetchWords_ok {s : State} {ctx : Nat} :
    ∀ {n va : Nat} {ws : List DWord}, fetchWords s ctx n va = .ok ws →
      ws.length = n ∧ ∀ k, k < n → ∃ d, ws[k]? = some d ∧ fetchDword s ctx (va + 8 * k) = .ok d
  | 0, va, ws, h => by
    cases h
    exact ⟨rfl, fun k hk => absurd hk (Nat.not_lt_zero k)⟩
  | n + 1, va, ws, h => by
    simp only [fetchWords] at h
    split at h
    · cases h
    · next d hd =>
      split at h
      · cases h
      · next ds hds =>
        cases h
        obtain ⟨hlen, hget⟩ := fetchWords_ok hds
        refine ⟨congrArg (· + 1) hlen, fun k hk => ?_⟩
        cases k with
        | zero => exact ⟨d, rfl, hd⟩
        | succ k =>
          obtain ⟨e, he, hf⟩ := hget k (Nat.lt_of_succ_lt_succ hk)
          exact ⟨e, he, by rwa [show va + 8 * (k + 1) = va + 8 + 8 * k by omega]⟩

theorem decodeHeader_len {d : DWord} {h : Header} (hd : decodeHeader d = .ok h) : h.len ≠ 0 := by
  unfold decodeHeader at hd
  simp only at hd
  split_ifs at hd with hlen
  cases hd
  exact hlen

/-- A clause that is fetched: its header passes the checks, and its words follow it. -/
theorem fetchClause_ok {s : State} {wid hdr : Nat} {w : Warp} {cl : Clause} (h : fetchClause s wid w hdr = .ok cl) :
    ∃ d, fetchDword s (s.ctxNo wid) hdr = .ok d ∧ decodeHeader d = .ok cl.hdr ∧ cl.addr = BitVec.ofNat 64 hdr
      ∧ fetchWords s (s.ctxNo wid) cl.hdr.len.val (hdr + 8) = .ok cl.words := by
  simp only [fetchClause] at h
  split at h
  · cases h
  · next d hd =>
    split at h
    · cases h
    · cases h
    · next hd' hdec =>
      split at h
      · cases h
      · next ws hws =>
        cases h
        exact ⟨d, hd, hdec, rfl, hws⟩

end Sys2Proof.Machine

namespace Sys2Proof

open Machine

/-! ## The clauses -/

theorem step_word {s s1 : State} {ts : List Turn} {core slot wid : Nat} {w : Warp} {cl : Clause} {d : DWord} {i : Instr}
    (ha : s.agenda = .word core slot :: ts) (hp : s.dev.powered = true) (ht : TakesTurn s core slot wid w)
    (hm : w.run.widx ≠ 0) (hc : w.clause = some cl)
    (hb : breakAt s (s.ctxNo wid) w.run.pc = false ∨ w.bpSkip = some w.run.pc)
    (hd : cl.words[w.run.widx - 1]? = some d) (hi : decodeWord d = .ok i)
    (hbind : bindPort (afterTurn s ts) core wid w = some s1) :
    step s = finish (.word core slot) (exec i { s1 with cur := some wid }) := by
  refine step_of_run ha hp ?_
  change warpTurn (afterTurn s ts) core slot = _
  rw [warpTurn_of_takesTurn (takesTurn_afterTurn ht ts), if_neg hm]
  exact midClause_runs hc hb hd hi hbind

theorem step_header {s t : State} {ts : List Turn} {core slot wid : Nat} {w : Warp}
    (ha : s.agenda = .word core slot :: ts) (hp : s.dev.powered = true) (ht : TakesTurn s core slot wid w)
    (h0 : w.run.widx = 0) (he : exec (.clauseDispatch core slot) (afterTurn s ts) = .next t) :
    step s = .next (tick (.word core slot) t) := by
  have ht' := takesTurn_afterTurn ht ts
  rw [execClauseDispatch_header ht' h0] at he
  cases he
  refine step_of_done ha hp ?_
  change warpTurn (afterTurn s ts) core slot = _
  rw [warpTurn_of_takesTurn ht', if_pos h0]

/-- The words of a fetched clause are those in memory after its header. -/
theorem fetchClause_words {s : State} {wid : Nat} {w : Warp} {cl : Clause}
    (h : fetchClause s wid w w.run.pc.toNat = .ok cl) :
    cl.hdr.len ≠ 0 ∧ cl.words.length = cl.hdr.len.val ∧ cl.addr = w.run.pc
      ∧ ∀ k g, k ≤ cl.words.length → s.fetchAt (s.ctxNo wid) (w.run.pc.toNat + 8 * k) s.free = .ok g →
        (∀ x ∈ sectors g.key 8, s.mem.unknown (s.keyId (s.ctxNo wid)) x = false) →
        let d := BitVec.ofNat 64 (s.mem.num g.key 8)
        if k = 0 then decodeHeader d = .ok cl.hdr else cl.words[k - 1]? = some d := by
  obtain ⟨dh, hdh, hdec, haddr, hws⟩ := fetchClause_ok h
  obtain ⟨hlen, hget⟩ := fetchWords_ok hws
  refine ⟨decodeHeader_len hdec, hlen, haddr.trans (by simp), fun k g hk hg hkn => ?_⟩
  cases k with
  | zero => exact (if_pos rfl).mpr (fetchDword_eq_num hdh hg hkn ▸ hdec)
  | succ k =>
    obtain ⟨d, hd, hf⟩ := hget k (by omega)
    rw [show w.run.pc.toNat + 8 * (k + 1) = w.run.pc.toNat + 8 + 8 * k by omega] at hg
    exact (if_neg (Nat.succ_ne_zero k)).mpr (hd.trans (congrArg some (fetchDword_eq_num hf hg hkn)))

/-- What issuing a word leaves of the state it was reached in. -/
theorem issuing_starts {i : Instr} {s s0 : State} {it : Iss} (h : issuing i s = some (it, s0)) :
    let s1 := issued i s it.wid it.core it.w
    s.cur = some it.wid ∧ s.warp it.wid = some it.w ∧ it.instr = i ∧ s1.agenda = s.agenda ∧ s1.cur = s.cur
      ∧ s1.free = s.free ∧ s1.dev = s.dev ∧ s1.mem = s.mem ∧ s1.pairs = s.pairs ∧ s1.ctxs = s.ctxs ∧ s1.grids = s.grids
      ∧ s1.blocks = s.blocks ∧ (∀ x, x ≠ it.wid → s1.warp x = s.warp x)
      ∧ (∃ sc dep used, s1.warp it.wid = some { it.w with stall := none, sched := sc, dep := dep, usedAt := used })
      ∧ (∀ c, c ≠ it.core → s1.core c = s.core c) ∧ ((keepsStores i = true ∨ it.act = 0) → s0 = s1) ∧ Drains s1 s0 := by
  obtain ⟨wid, core, slot, w, hcur, hw, -, rfl, rfl⟩ := issuing_facts h
  obtain ⟨hag, hcu, hfr, hdev, hmem, hpairs, hctxs, hgrids, hblocks, -, -, hwarps, hcores⟩ :=
    issued_facts i s wid core w
  obtain ⟨n, hn⟩ := issued_warp w i (activeOf i w) s.dev.now
  have hself : (issued i s wid core w).warp wid = some (w.atIssue n) := by
    rw [hwarps, if_pos rfl, hw]
    exact congrArg some hn
  refine ⟨hcur, hw, rfl, hag, hcu, hfr, hdev, hmem, hpairs, hctxs, hgrids, hblocks,
    fun x hx => (hwarps x).trans (if_neg hx), ⟨n.sched, n.dep, n.usedAt, hself⟩, hcores,
    fun hk => started_eq hk s wid core, drains_started i s wid core w⟩

/-- Settles O57: each clause is the step of its turn, and the state a word starts from is `issuing_starts`. -/
theorem stepRunsTheDecodedWord : Obligations.StepRunsTheDecodedWord := by
  refine ⟨fun s ts => ⟨?_, ?_, ?_, ?_, ?_, ?_⟩, fun i s s0 it h => issuing_starts h⟩
  · intro core slot wid w cl d i s1 ha hp ht hm hc hb hd hi hbind
    have hstep := step_word ha hp ht hm hc hb hd hi hbind
    exact ⟨fun t he => hstep.trans (by rw [he]; rfl), fun f he => hstep.trans (by rw [he]; rfl),
      fun r he => hstep.trans (by rw [he]; rfl)⟩
  · exact fun core slot wid w t ha hp ht h0 he => step_header ha hp ht h0 he
  · exact fun wid w cl h => fetchClause_words h
  · exact fun i t ha hp he => (step_of_run ha hp rfl).trans (congrArg (finish _) he)
  · exact fun n ha hp => step_of_done ha hp rfl
  · exact fun t ha hp hb => step_unpowered ha hp hb

end Sys2Proof

/-! # Clause dispatch, ageing, the Docent and fairness (O48) -/

/-! ## Ports -/

namespace Sys2Proof.Machine

theorem mem_of_alook {α : Type} {k : Nat} {x : α} {m : Sparse α} (h : alook k m = some x) : (k, x) ∈ m := by
  induction m with
  | nil => cases h
  | cons e m ih =>
    simp only [alook] at h
    split at h
    next hk =>
      cases h
      exact hk ▸ List.mem_cons_self
    next => exact List.mem_cons_of_mem _ (ih h)

/-- A warp with another port. -/
def Warp.seatedAt (w : Warp) (p : Option Nat) : Warp := { w with sched := { w.sched with port := p } }

/-- A warp has come to a port: what the port's binding leaves of the state. -/
structure Seated (wid : Nat) (w : Warp) (s t : State) : Prop where
  warp : ∃ p, t.warp wid = some (w.seatedAt (some p))
  mem : t.mem = s.mem
  blocks : t.blocks = s.blocks
  cores : t.cores = s.cores

/-- A binding that succeeds gives a herd warp its port (R140). -/
theorem seated_of_bindPort {s t : State} {core wid : Nat} {w : Warp} (hw : s.warp wid = some w)
    (he : w.sched.engine = .herd) (h : bindPort s core wid w = some t) : Seated wid w s t := by
  simp only [bindPort, he] at h
  split at h
  next hp =>
    cases h
    obtain ⟨p, hp⟩ := Option.isSome_iff_exists.mp hp
    exact ⟨⟨p, hw.trans (by rw [Warp.seatedAt, ← hp])⟩, rfl, rfl, rfl⟩
  next =>
  split at h
  next => cases h
  next =>
  split at h
  next p _ =>
    cases h
    refine ⟨⟨p, ?_⟩, by simp, by simp, by simp⟩
    rw [State.warp_modWarp, if_pos rfl, hw]
    rfl
  next =>
  split at h
  next =>
    split at h
    next p v hv =>
      cases h
      have hne : wid ≠ v := by
        rintro rfl
        have hmem := List.mem_of_find?_eq_some hv
        simp only [portsUsed, List.mem_filterMap] at hmem
        obtain ⟨e, -, hpe⟩ := hmem
        split at hpe
        next => cases hpe
        next hwid =>
          obtain ⟨q, -, hq⟩ := Option.map_eq_some_iff.mp hpe
          exact hwid (Prod.mk.inj hq).2
      refine ⟨⟨p, ?_⟩, by simp, by simp, by simp⟩
      rw [State.warp_modWarp, if_pos rfl, State.warp_modWarp_ne _ _ hne, hw]
      rfl
    next => cases h
  next => cases h

/-- Whether a port is there to take: a free one or, for an aged warp, that of a holder that is not aged (R141). -/
def PortRoom (s : State) (core wid : Nat) (w : Warp) : Prop :=
  (∃ p, p < 2 ∧ ∀ u ∈ portsUsed s core wid, u.1 ≠ p)
    ∨ w.sched.aged = true ∧ ∃ u ∈ portsUsed s core wid, ∃ x, s.warp u.2 = some x ∧ x.sched.aged = false

/-- A herd warp is bound to a port where it holds one, or where none comes before it and there is one to take. -/
theorem bindPort_isSome {s : State} {core wid : Nat} {w : Warp} (he : w.sched.engine = .herd)
    (h : w.sched.port ≠ none ∨ queueFull s core wid w = false ∧ outranked s core wid w = false ∧ PortRoom s core wid w) :
    ∃ t, bindPort s core wid w = some t := by
  simp only [bindPort, he]
  split
  next => exact ⟨s, rfl⟩
  next hport =>
  obtain ⟨hq, ho, hroom⟩ := h.resolve_left (by simpa using hport)
  simp only [hq, ho, Bool.or_self, Bool.false_eq_true, if_false]
  split
  next => exact ⟨_, rfl⟩
  next hfull =>
  rcases hroom with ⟨p, hp, hfree⟩ | ⟨haged, u, hu, x, hx, hxa⟩
  · refine absurd hfull (Option.isSome_iff_ne_none.mp (List.find?_isSome.mpr ⟨p, List.mem_range.mpr hp, ?_⟩))
    simpa using fun a b hab => hfree (a, b) hab
  · rw [if_pos haged]
    split
    next => exact ⟨_, rfl⟩
    next hnone =>
      refine absurd hnone (Option.isSome_iff_ne_none.mp (List.find?_isSome.mpr ⟨u, hu, ?_⟩))
      simp only [hx, hxa, Bool.not_false]

theorem portRoom_of_unused {s : State} {core wid : Nat} {w : Warp} (h : portsUsed s core wid = []) : PortRoom s core wid w :=
  .inl ⟨0, Nat.two_pos, by simp [h]⟩

/-! ## What a change of one warp leaves of the others' standing -/

theorem mem_warpsOn_setWarp {s : State} {core wid : Nat} {w : Warp} {e : Nat × Warp}
    (h : e ∈ (s.setWarp wid w).warpsOn core) (hne : e.1 ≠ wid) : e ∈ s.warpsOn core := by
  obtain ⟨hm, hc⟩ := List.mem_filter.mp h
  rcases mem_aput hm with rfl | hm
  · exact absurd rfl hne
  · exact List.mem_filter.mpr ⟨hm, hc⟩

theorem dispatchable_setWarp (s : State) (core wid x : Nat) (w y : Warp) :
    dispatchable (s.setWarp wid w) core x y = dispatchable s core x y := rfl

theorem queueFull_setWarp (s : State) (core wid x : Nat) (w y : Warp) :
    queueFull (s.setWarp wid w) core x y = queueFull s core x y := rfl

theorem portsUsed_setWarp {s : State} {core wid : Nat} {w : Warp} (h : portsUsed s core wid = []) :
    portsUsed (s.setWarp wid w) core wid = [] := by
  rw [portsUsed, List.filterMap_eq_nil_iff] at h ⊢
  intro e he
  by_cases hwid : e.1 = wid
  · simp only [hwid, if_true]
  · exact h e (mem_warpsOn_setWarp he hwid)

theorem outranked_setWarp {s : State} {core wid : Nat} {w x : Warp} (h : outranked s core wid x = false) :
    outranked (s.setWarp wid w) core wid x = false := by
  rw [outranked, List.any_eq_false] at h ⊢
  intro e he hp
  simp only [dispatchable_setWarp, Bool.and_eq_true, bne_iff_ne] at hp
  obtain ⟨⟨⟨hwid, hport⟩, hbefore⟩, hdis⟩ := hp
  refine h e (mem_warpsOn_setWarp he hwid) ?_
  simp only [Bool.and_eq_true, bne_iff_ne]
  exact ⟨⟨⟨hwid, hport⟩, hbefore⟩, hdis⟩

/-! ## A clause starts -/

/-- With no entry in the annex a refill changes nothing (R162). -/
theorem refillEntries_none {s : State} {wid : Nat} {w : Warp} (hw : s.warp wid = some w)
    (h : ∀ e ∈ w.waiting, e.annex = none) (part : Path → Bool) : refillEntries s wid part = .ok (s.setWarp wid w) := by
  have hdue : (w.waiting.filterMap fun e => if part e.path then e.annex else none) = [] :=
    List.filterMap_eq_nil_iff.mpr fun e he => by rw [h e he, ite_self]
  simp only [refillEntries, hw, hdue, List.find?_nil, List.foldl_nil]
  refine congrArg (fun l => Except.ok (s.setWarp wid { w with waiting := l })) ?_
  exact (List.map_congr_left fun e he => by simp only [h e he, id]).trans (List.map_id _)

/-- Warps, blocks and cores are as they were. -/
structure BesideFetch (s t : State) : Prop where
  warps : t.warps = s.warps
  blocks : t.blocks = s.blocks
  cores : t.cores = s.cores

theorem besideFetch_used (s : State) (ctx va : Nat) (t : Tgt) : BesideFetch s (s.used ctx va t) := by
  have touch : ∀ (s : State) (l : Leaf), BesideFetch s (s.touch l) := by
    intro s l
    unfold State.touch
    split <;> exact ⟨rfl, rfl, rfl⟩
  unfold State.used
  extract_lets s1
  have h1 : BesideFetch s s1 := by
    unfold s1
    split
    · exact ⟨rfl, rfl, rfl⟩
    · split <;> exact ⟨rfl, rfl, rfl⟩
  have h2 := touch (s1.fillTlb ctx t.va t.leaf) t.leaf
  exact ⟨h2.warps.trans h1.warps, h2.blocks.trans h1.blocks, h2.cores.trans h1.cores⟩

theorem besideFetch_fetchedPage (s : State) (ctx va : Nat) : BesideFetch s (fetchedPage s ctx va) := by
  unfold fetchedPage
  split
  next t _ =>
    have h := besideFetch_used s ctx va t
    exact ⟨h.warps, h.blocks, h.cores⟩
  next => exact ⟨rfl, rfl, rfl⟩

/-- A fetch that retires touches the tables alone (R238, R240). -/
theorem besideFetch_fetched (s : State) (ctx : Nat) (cl : Clause) : BesideFetch s (fetched s ctx cl) := by
  unfold fetched
  extract_lets last s1
  have h1 : BesideFetch s s1 := besideFetch_fetchedPage s ctx _
  split
  · exact h1
  · have h2 := besideFetch_fetchedPage s1 ctx last
    exact ⟨h2.warps.trans h1.warps, h2.blocks.trans h1.blocks, h2.cores.trans h1.cores⟩

/-- A warp that has started a clause: on its first word. -/
def Warp.inClause (w : Warp) (cl : Clause) : Warp :=
  { w.passed with clause := some cl, run := { w.run with pc := w.run.pc + 8, widx := 1 }, rpt := none
                  sched := { w.sched with fairRun := false } }

/-- A herd warp with no waiting path starts a clause whose flags are clear, where it can be bound to a port (R33, R139). -/
theorem dispatchClause_starts {s s2 : State} {core wid : Nat} {w : Warp} {cl : Clause} (hw : s.warp wid = some w)
    (hb : breakAt s (s.ctxNo wid) w.run.pc = false ∨ w.bpSkip = some w.run.pc)
    (hf : fetchClause s wid w w.run.pc.toNat = .ok cl) (hwait : w.waiting = []) (h0 : w.run.widx = 0)
    (hclear : waitClear w cl.hdr = true) (hfits : firstFits s core cl = true)
    (hbind : bindPort (s.setWarp wid w) core wid w = some s2) :
    dispatchClause s wid core w = (fetched s2 (s.ctxNo wid) cl).modWarp wid (Warp.inClause · cl) := by
  have hbreak : (breakAt s (s.ctxNo wid) w.run.pc && w.bpSkip != some w.run.pc) = false := by
    rcases hb with hb | hb <;> simp [hb]
  have hw' : (s.setWarp wid w).warp wid = some w := State.warp_setWarp_self s wid w
  have hah : Ahead w := by simp [Ahead, hwait]
  have hrefill : refillAt s wid w.run.pc = .ok (s.setWarp wid w) := refillEntries_none hw (by simp [hwait]) _
  have hmerge := mergeStep_ahead hw' hah
  have hswitch := switchStep_ahead hw' hah
  have hspill := spillEntries_few hw' (by simp [hwait]) 32
  have hfits' : firstFits (s.setWarp wid w) core cl = true := hfits
  simp only [dispatchClause, hbreak, Bool.false_eq_true, if_false, hf, hrefill, Except.bind, hmerge, hswitch, ite_self,
    hspill, hw', h0, ne_eq, not_true, or_self, hclear, hfits', Bool.and_self, Bool.not_true, Bool.and_false, hbind]
  rfl

/-- What starting a clause comes to, once the warp has its port. -/
theorem inClause_of_seated {s s2 : State} {ctx wid : Nat} {w : Warp} {cl : Clause} (h : Seated wid w s s2) :
    ∃ t w', (fetched s2 ctx cl).modWarp wid (Warp.inClause · cl) = t ∧ t.warp wid = some w' ∧ w'.clause = some cl
      ∧ w'.run = { w.run with pc := w.run.pc + 8, widx := 1 } ∧ w'.sched.port ≠ none ∧ w'.v = w.v ∧ w'.s = w.s
      ∧ w'.p = w.p ∧ w'.q = w.q ∧ w'.pend = w.pend ∧ t.blocks = s.blocks ∧ t.cores = s.cores := by
  obtain ⟨p, hp⟩ := h.warp
  have hf := besideFetch_fetched s2 ctx cl
  have hp' : (fetched s2 ctx cl).warp wid = some (w.seatedAt (some p)) :=
    (State.warp_of_warps_eq hf.warps wid).trans hp
  refine ⟨_, (w.seatedAt (some p)).inClause cl, rfl, ?_, rfl, rfl, Option.some_ne_none p, rfl, rfl, rfl, rfl, rfl, ?_, ?_⟩
  · rw [State.warp_modWarp, if_pos rfl, hp']
    rfl
  · rw [State.modWarp_blocks, hf.blocks, h.blocks]
  · rw [State.modWarp_cores, hf.cores, h.cores]

theorem waitClear_of_flags {w : Warp} {h : Header} (hf : ∀ f, f < 12 → h.wait.getLsbD f = true → w.flag f = 0) :
    waitClear w h = true := by
  rw [waitClear, List.all_eq_true]
  intro f hm
  cases hb : h.wait.getLsbD f
  · rfl
  · simp [hf f (List.mem_range.mp hm) hb]

/-- CLAUSE_DISPATCH on a warp that nothing holds up. -/
theorem exec_clauseDispatch {s : State} {core slot wid : Nat} {w : Warp} (h : Here s core slot wid w)
    (hcan : cannotIssue w = false) (hup : coreHeld s core = false) (hd : deliver s wid w = none)
    (hs : stopDue s core wid w = none) (hf : w.sched.frontDue = false) :
    exec (.clauseDispatch core slot) s = .next (if w.run.widx = 0 then dispatchClause s wid core w
      else if dispatchable s core wid w then (bindPort s core wid w).getD s else s) := by
  obtain ⟨hat, hw⟩ := h
  simp only [exec, execClauseDispatch, hat, hw, hcan, hup, hd, hs, hf, Option.isSome_none, Bool.or_self,
    Bool.false_eq_true, if_false]

theorem queueFull_of_dispatchable {s : State} {core wid : Nat} {w : Warp} (h : dispatchable s core wid w = true) :
    queueFull s core wid w = false := by
  simp only [dispatchable, Bool.and_eq_true, Bool.not_eq_true'] at h
  exact h.2

theorem herd_of_onHerd {w : Warp} (h : w.onHerd = true) : w.sched.engine = .herd := by
  unfold Warp.onHerd at h
  split at h
  next he => exact he
  next => cases h

theorem herd_of_dispatchable {s : State} {core wid : Nat} {w : Warp} (h : dispatchable s core wid w = true) :
    w.sched.engine = .herd := by
  simp only [dispatchable, Bool.and_eq_true, Bool.not_eq_true'] at h
  exact herd_of_onHerd h.1.1.2

end Sys2Proof.Machine

/-! ## The Docent -/

namespace Sys2Proof.Machine

/-- A warp with another note of when it became a candidate (R154). -/
def Warp.noteCand (w : Warp) (c : Option Nat) : Warp := { w with sched := { w.sched with candSince := c } }

/-- Notes of candidates are all that changes. -/
structure CandsNoted (s t : State) : Prop where
  warp : ∀ x w, s.warp x = some w → ∃ c, t.warp x = some (w.noteCand c)
  warps : ∀ e ∈ t.warps, ∃ w c, (e.1, w) ∈ s.warps ∧ e.2 = w.noteCand c
  mem : t.mem = s.mem
  cores : t.cores = s.cores
  dev : t.dev = s.dev

theorem CandsNoted.refl (s : State) : CandsNoted s s where
  warp _ w hw := ⟨w.sched.candSince, hw⟩
  warps e he := ⟨e.2, e.2.sched.candSince, he, rfl⟩
  mem := rfl
  cores := rfl
  dev := rfl

theorem CandsNoted.modWarp {r s : State} (h : CandsNoted r s) (wid : Nat) (f : Warp → Option Nat) :
    CandsNoted r (s.modWarp wid fun w => w.noteCand (f w)) where
  warp x w hw := by
    obtain ⟨c, hc⟩ := h.warp x w hw
    rw [State.warp_modWarp]
    split
    next hx =>
      rw [← hx, hc]
      exact ⟨_, rfl⟩
    next => exact ⟨c, hc⟩
  warps e he := by
    unfold State.modWarp at he
    split at he
    next w hw =>
      rcases mem_aput he with rfl | he
      · obtain ⟨u, c, hu, hc⟩ := h.warps _ (mem_of_alook hw)
        exact ⟨u, f w, hu, (congrArg (Warp.noteCand · (f w)) (show w = u.noteCand c from hc)).trans rfl⟩
      · exact h.warps e he
    next => exact h.warps e he
  mem := by rw [State.modWarp_mem, h.mem]
  cores := by rw [State.modWarp_cores, h.cores]
  dev := by rw [State.modWarp_dev, h.dev]

/-- One warp of a core becomes a candidate, or ceases to be. -/
def noteOne (core : Nat) (s : State) (e : Nat × Warp) : State :=
  s.modWarp e.1 fun w => w.noteCand
    (if promotable s e.1 e.2 && decide (docentClass s e.1 core e.2 < 5) then some (w.sched.candSince.getD s.dev.now) else none)

theorem noteCands_eq (s : State) (core : Nat) : noteCands s core = (s.warpsOn core).foldl (noteOne core) s := rfl

theorem candsNoted_noteCands (s : State) (core : Nat) : CandsNoted s (noteCands s core) := by
  rw [noteCands_eq]
  exact List.foldlRecOn _ _ (CandsNoted.refl s) fun r h e _ => h.modWarp e.1 _

theorem CandsNoted.sprinters_nil {s t : State} (h : CandsNoted s t) {core : Nat}
    (hh : ∀ e ∈ s.warpsOn core, e.2.onHerd = true) : sprinters t core = [] := by
  rw [sprinters, List.filter_eq_nil_iff]
  intro e he
  obtain ⟨hm, hc⟩ := List.mem_filter.mp he
  obtain ⟨w, c, hw, hwc⟩ := h.warps e hm
  rw [hwc] at hc ⊢
  have hon : w.onHerd = true := hh (e.1, w) (List.mem_filter.mpr ⟨hw, hc⟩)
  simpa [Warp.onHerd, Warp.noteCand] using hon

/-- A warp with another engine. -/
def Warp.onEngine (w : Warp) (e : Engine) : Warp := { w with sched := { w.sched with engine := e } }

theorem warp_promote (s : State) (x core cls y : Nat) :
    (promote s x core cls).warp y =
      if y = x then (s.warp x).map (·.onEngine (.sprinter (s.nonStalled core) cls)) else s.warp y :=
  (State.warp_of_warps_eq rfl y).trans (State.warp_modWarp s x y _)

theorem promote_mem (s : State) (x core cls : Nat) : (promote s x core cls).mem = s.mem :=
  State.modWarp_mem s x _

/-- With no displacement in progress and all slots free, the best candidate is promoted (R149, R154). -/
theorem fillSlot_best {s : State} {core : Nat} {x : Nat × Nat × Nat × Nat} (hp : (s.core core).promoting = none)
    (hs : sprinters s core = []) (hx : (ranked (candidates154 s core)).head? = some x) (hm : mayPromote s core x.1 = true) :
    fillSlot s core = promote s x.1 core x.2.1 := by
  obtain ⟨cs, hcs⟩ : ∃ cs, ranked (candidates154 s core) = x :: cs := by
    cases hr : ranked (candidates154 s core) with
    | nil => rw [hr] at hx; cases hx
    | cons y cs =>
      rw [hr] at hx
      cases hx
      exact ⟨cs, rfl⟩
  have hline : inLine s core = x :: cs.take 3 := by
    have hall : ∀ l : List (Nat × Nat × Nat × Nat), (l.filter fun y => (none : Option Nat) != some y.1) = l :=
      fun l => List.filter_eq_self.mpr fun _ _ => rfl
    simp only [inLine, hp, hs, hcs, hall]
    simp
  simp only [fillSlot, hp, hline, List.find?_cons, hm]

/-- Filling a slot promotes a warp or leaves it; the warp stays on its path. -/
theorem warp_fillSlot {s : State} {core y : Nat} {w : Warp} (hw : s.warp y = some w) :
    ∃ w', (fillSlot s core).warp y = some w' ∧ w'.run = w.run
      ∧ (w'.sched.engine = w.sched.engine ∨ ∃ t c, w'.sched.engine = .sprinter t c) := by
  unfold fillSlot
  extract_lets s1
  have h1 : s1.warp y = some w := by
    unfold s1
    (repeat' split) <;> exact hw
  clear_value s1
  split
  next x _ =>
    rw [warp_promote]
    split
    next hy =>
      rw [← hy, h1]
      exact ⟨w.onEngine (.sprinter (s1.nonStalled core) x.2.1), rfl, rfl, .inr ⟨_, _, rfl⟩⟩
    next => exact ⟨w, h1, rfl, .inl rfl⟩
  next => exact ⟨w, h1, rfl, .inl rfl⟩

theorem fillSlot_mem (s : State) (core : Nat) : (fillSlot s core).mem = s.mem := by
  unfold fillSlot
  extract_lets s1
  have h1 : s1.mem = s.mem := by
    unfold s1
    (repeat' split) <;> rfl
  split
  · rw [promote_mem, h1]
  · exact h1

/-! ## Fairness switches -/

protected theorem TraceOnly.mrgPacket {r s : State} {wid sub : Nat} {m : Word} (h : TraceOnly r s) :
    TraceOnly r (mrgPacket s wid sub m) := h.warpPacket

/-- A warp whose one waiting path runs in place of the running one (R161). -/
def Warp.fairSwap (w : Warp) (e : Waiter) (now : Nat) : Warp :=
  let w1 := (({ w with waiting := [⟨w.run, none⟩], resv := [] } : Warp).become e.path).restartFair now
  { w1 with sched := { w1.sched with fairRun := e.path.widx == 0 } }

/-- A fairness switch of a warp with one waiting path: that path runs and the other waits, with its reservations lost (R161). -/
theorem fairNow_swaps {s : State} {wid : Nat} {w : Warp} {e : Waiter} (hw : s.warp wid = some w) (he : w.waiting = [e])
    (ha : e.annex = none) : ∃ w', (fairNow s wid w).warp wid = some w' ∧ w'.run = e.path ∧ w'.waiting = [⟨w.run, none⟩]
      ∧ w'.resv = [] ∧ w'.v = w.v ∧ w'.s = w.s ∧ w'.p = w.p ∧ (fairNow s wid w).mem = s.mem := by
  have hrefill : refillEntries s wid (fun _ => true) = .ok (s.setWarp wid w) := refillEntries_none hw (by simp [he, ha]) _
  have hdrop : dropFirst e [e] = [] := by simp [dropFirst]
  have hstep : fairStep s wid = spillEntries 32 (mrgPacket ((s.setWarp wid w).setWarp wid
      (w.fairSwap e (s.nonStalled w.core))) wid 2 e.path.mask) wid := by
    simp only [fairStep, hrefill, State.warp_setWarp_self, he, bestBy, hdrop, List.nil_append]
    rfl
  have ht := (TraceOnly.refl ((s.setWarp wid w).setWarp wid (w.fairSwap e (s.nonStalled w.core)))).mrgPacket
    (wid := wid) (sub := 2) (m := e.path.mask)
  have hwt := (ht.warp wid).trans (State.warp_setWarp_self _ _ _)
  rw [spillEntries_few hwt (by simp [Warp.fairSwap, Warp.restartFair, Warp.become])] at hstep
  simp only [fairNow, hstep]
  exact ⟨_, hwt, rfl, rfl, rfl, rfl, rfl, rfl, ht.mem⟩

end Sys2Proof.Machine

/-! ## The clauses -/

namespace Sys2Proof

open Machine

theorem clauseDispatch_header {s : State} {core slot wid : Nat} {w : Warp} {cl : Clause} (h : Here s core slot wid w)
    (hcan : cannotIssue w = false) (hup : coreHeld s core = false) (hd : deliver s wid w = none)
    (hs : stopDue s core wid w = none) (he : w.sched.engine = .herd) (hf : w.sched.frontDue = false)
    (hport : w.sched.port ≠ none ∨ portsUsed s core wid = [] ∧ outranked s core wid w = false) (h0 : w.run.widx = 0)
    (hb : breakAt s (s.ctxNo wid) w.run.pc = false ∨ w.bpSkip = some w.run.pc)
    (hfetch : fetchClause s wid w w.run.pc.toNat = .ok cl) (hwait : w.waiting = [])
    (hflags : ∀ f, f < 12 → cl.hdr.wait.getLsbD f = true → w.flag f = 0) (hfits : firstFits s core cl = true)
    (hq : queueFull s core wid w = false) :
    ∃ t w', exec (.clauseDispatch core slot) s = .next t ∧ t.warp wid = some w' ∧ w'.clause = some cl
      ∧ w'.run = { w.run with pc := w.run.pc + 8, widx := 1 } ∧ w'.sched.port ≠ none ∧ w'.v = w.v ∧ w'.s = w.s
      ∧ w'.p = w.p ∧ w'.q = w.q ∧ w'.pend = w.pend ∧ t.blocks = s.blocks ∧ t.cores = s.cores := by
  have hw' : (s.setWarp wid w).warp wid = some w := State.warp_setWarp_self s wid w
  obtain ⟨s2, hbind⟩ := bindPort_isSome (s := s.setWarp wid w) (core := core) (wid := wid) he <| hport.imp_right fun ⟨hu, ho⟩ =>
    ⟨(queueFull_setWarp s core wid wid w w).trans hq, outranked_setWarp ho, portRoom_of_unused (portsUsed_setWarp hu)⟩
  obtain ⟨t, w', ht, hstart⟩ := inClause_of_seated (ctx := s.ctxNo wid) (cl := cl) (seated_of_bindPort hw' he hbind)
  refine ⟨t, w', ?_, hstart⟩
  rw [exec_clauseDispatch h hcan hup hd hs hf, if_pos h0,
    dispatchClause_starts h.2 hb hfetch hwait h0 (waitClear_of_flags hflags) hfits hbind, ht]

theorem clauseDispatch_midClause {s : State} {core slot wid : Nat} {w : Warp} (h : Here s core slot wid w)
    (hcan : cannotIssue w = false) (hup : coreHeld s core = false) (hd : deliver s wid w = none)
    (hs : stopDue s core wid w = none) (he : w.sched.engine = .herd) (hf : w.sched.frontDue = false)
    (hport : w.sched.port ≠ none ∨ portsUsed s core wid = [] ∧ outranked s core wid w = false) (h0 : w.run.widx ≠ 0)
    (hdis : dispatchable s core wid w = true) :
    ∃ t w', exec (.clauseDispatch core slot) s = .next t ∧ t.warp wid = some w' ∧ w'.sched.port ≠ none
      ∧ w'.run = w.run ∧ w'.v = w.v ∧ w'.s = w.s ∧ t.mem = s.mem := by
  obtain ⟨t, hbind⟩ := bindPort_isSome (s := s) (core := core) (wid := wid) he <| hport.imp_right fun ⟨hu, ho⟩ =>
    ⟨queueFull_of_dispatchable hdis, ho, portRoom_of_unused hu⟩
  have hseat := seated_of_bindPort h.2 he hbind
  obtain ⟨p, hp⟩ := hseat.warp
  refine ⟨t, _, ?_, hp, Option.some_ne_none p, rfl, rfl, rfl, hseat.mem⟩
  rw [exec_clauseDispatch h hcan hup hd hs hf, if_neg h0, if_pos hdis, hbind, Option.getD_some]

/-- A warp that has aged (R141). -/
def agedOf (w : Warp) : Warp := { w with sched := { w.sched with aged := true } }

theorem exec_warpAged {s : State} {core slot wid n : Nat} {w : Warp} (h : Here s core slot wid w)
    (hr : w.sched.readySince = some n) (hn : n + 512 ≤ s.nonStalled core) (hdis : dispatchable s core wid w = true)
    (hup : coreHeld s core = false) : exec (.warpAged core slot) s =
      .next ((bindPort (s.setWarp wid (agedOf w)) core wid (agedOf w)).getD (s.setWarp wid (agedOf w))) := by
  obtain ⟨hat, hw⟩ := h
  simp only [exec, execWarpAged, hat, hw]
  split
  next h0 => cases hr.symm.trans h0
  next t ht =>
    obtain rfl := Option.some.inj (hr.symm.trans ht)
    simp only [hn, hdis, hup, decide_true, Bool.and_self, Bool.not_false, if_true]
    rfl

theorem warpAged_takesPort {s : State} {core slot wid n : Nat} {w : Warp} (h : Here s core slot wid w)
    (hr : w.sched.readySince = some n) (hn : n + 512 ≤ s.nonStalled core) (hdis : dispatchable s core wid w = true)
    (hup : coreHeld s core = false) :
    let w1 := { w with sched := { w.sched with aged := true } }
    let s1 := s.setWarp wid w1
    let room := (∃ p, p < 2 ∧ ∀ u ∈ portsUsed s1 core wid, u.1 ≠ p)
      ∨ ∃ u ∈ portsUsed s1 core wid, ∃ x, s1.warp u.2 = some x ∧ x.sched.aged = false
    ∃ t w', exec (.warpAged core slot) s = .next t ∧ t.warp wid = some w' ∧ w'.sched.aged = true ∧ w'.run = w.run ∧ w'.v = w.v
      ∧ t.mem = s.mem ∧ (w.sched.port ≠ none ∨ outranked s1 core wid w1 = false ∧ room → w'.sched.port ≠ none) := by
  intro w1 s1 room
  have he : w1.sched.engine = .herd := herd_of_dispatchable hdis
  have hw1 : s1.warp wid = some w1 := State.warp_setWarp_self s wid w1
  have hexec : exec (.warpAged core slot) s = .next ((bindPort s1 core wid w1).getD s1) := exec_warpAged h hr hn hdis hup
  cases hbind : bindPort s1 core wid w1 with
  | none =>
    rw [hbind] at hexec
    refine ⟨s1, w1, hexec, hw1, rfl, rfl, rfl, rfl, fun hport => ?_⟩
    have hq : queueFull s1 core wid w1 = false := queueFull_of_dispatchable (w := w) hdis
    obtain ⟨t, ht⟩ := bindPort_isSome he (hport.imp_right fun ⟨ho, hroom⟩ => ⟨hq, ho, hroom.imp_right fun hr => ⟨rfl, hr⟩⟩)
    cases hbind.symm.trans ht
  | some t =>
    rw [hbind] at hexec
    have hseat := seated_of_bindPort hw1 he hbind
    obtain ⟨p, hp⟩ := hseat.warp
    exact ⟨t, _, hexec, hp, rfl, rfl, rfl, hseat.mem, fun _ => Option.some_ne_none p⟩

/-- At a multiple of 8 cycles, with no promoted warp, the best candidate is promoted. -/
theorem docentEvaluation_promotes {s : State} {core : Nat} {x : Nat × Nat × Nat × Nat} {w : Warp}
    (hc : s.clock core % 8 = 0) (hh : ∀ e ∈ s.warpsOn core, e.2.onHerd = true)
    (hx : (ranked (candidates154 (noteCands s core) core)).head? = some x) (hw : s.warp x.1 = some w)
    (hport : w.sched.port = none) (hp : (s.core core).promoting = none)
    (hat : ∀ n, (s.core core).promotedAt = some n → n + 8 ≤ s.dev.now) :
    ∃ t w', exec (.docentEvaluation core) s = .next t ∧ t.warp x.1 = some w'
      ∧ w'.sched.engine = .sprinter (s.nonStalled core) x.2.1 ∧ w'.run = w.run ∧ t.mem = s.mem := by
  have hn := candsNoted_noteCands s core
  have hs := hn.sprinters_nil hh
  have hidle : demoteIdle (noteCands s core) core = noteCands s core := by
    simp only [demoteIdle, hs, List.foldl_nil]
  have hcore : (noteCands s core).core core = s.core core := congrArg (sget Core.reset · core) hn.cores
  have hclock : (noteCands s core).nonStalled core = s.nonStalled core := by
    simp only [State.nonStalled, State.clock, hcore, hn.dev]
  obtain ⟨c, hw1⟩ := hn.warp x.1 w hw
  have hmay : mayPromote (noteCands s core) core x.1 = true := by
    simp only [mayPromote, hw1, hcore, hn.dev, Bool.and_eq_true]
    constructor
    · exact Option.isNone_iff_eq_none.mpr hport
    · split
      next t ht => exact decide_eq_true (hat t ht)
      next => rfl
  have hfill := fillSlot_best (hcore ▸ hp) hs hx hmay
  refine ⟨fillSlot (noteCands s core) core, (w.noteCand c).onEngine (.sprinter (s.nonStalled core) x.2.1), ?_, ?_, rfl, rfl, ?_⟩
  · simp only [exec, execDocentEvaluation, hc, ne_eq, not_true, if_false, hidle, hs, List.length_nil]
    rfl
  · rw [hfill, warp_promote, if_pos rfl, hw1, hclock]
    rfl
  · rw [fillSlot_mem, hn.mem]

/-- Settles O48: each clause is the lemma of its event, and the fairness clauses share `fairNow_swaps`. -/
theorem warpScheduling : Obligations.WarpScheduling := by
  refine ⟨?_, fun s core slot wid w n h hr hn hdis hup => warpAged_takesPort h hr hn hdis hup, ?_, ?_, ?_, ?_⟩
  · intro s core slot wid w cl h hcan hup hd hs he hf hport
    exact ⟨fun h0 hb hfetch hwait hflags hfits hq =>
        clauseDispatch_header h hcan hup hd hs he hf hport h0 hb hfetch hwait hflags hfits hq,
      fun h0 hdis => clauseDispatch_midClause h hcan hup hd hs he hf hport h0 hdis⟩
  · intro s core hc
    simp only [exec, execDocentEvaluation, hc, ne_eq, not_false_eq_true, if_true]
  · exact fun s core x w hc hh hx hw hport hp hat => docentEvaluation_promotes hc hh hx hw hport hp hat
  · intro s core slot wid w ⟨hat, hw⟩ he
    have hset : (s.setWarp wid (w.onEngine .herd)).warp wid = some (w.onEngine .herd) := State.warp_setWarp_self _ _ _
    obtain ⟨w', hw', hrun, heng⟩ := warp_fillSlot (core := core) hset
    refine ⟨fillSlot (s.setWarp wid (w.onEngine .herd)) core, w', ?_, hw', ?_, hrun, fillSlot_mem _ _⟩
    · simp only [exec, execDemotionComplete, hat, hw, he, if_true]
      rfl
    · rcases heng with heng | ⟨t, c, heng⟩ <;> rw [heng] <;> exact Engine.noConfusion
  · intro s core slot wid w e i ⟨hat, hw⟩ hfair hwait hannex held hi
    have hswap := fairNow_swaps hw hwait hannex
    rcases hi with ⟨rfl, hheld⟩ | ⟨rfl, n, hn, hle⟩
    · refine ⟨fairNow s wid w, ?_⟩
      obtain ⟨w', hw', hrest⟩ := hswap
      refine ⟨w', ?_, hw', hrest⟩
      have hheld' : (w.resv.any fun r => w.run.mask.getLsbD r.1) = false := hheld
      simp only [exec, execFairnessSwitch, hat, hw, hfair, hheld', Bool.not_true, Bool.false_eq_true, if_false]
    · obtain ⟨w', hw', hrest⟩ := hswap
      refine ⟨fairNow s wid w, w', ?_, hw', hrest⟩
      simp only [exec, execFairnessDeferExpiry, hat, hw, hn, hfair, hle, and_self, if_true]

end Sys2Proof

/-! # Completions, retirement and waits that end (O49) -/

/-! ## Writes of an outstanding operation -/

namespace Sys2Proof.Machine

/-- Words written one lane at a time. -/
def Warp.vputAll (w : Warp) (l : List (Nat × Nat × PWord)) : Warp :=
  l.foldl (fun w x => w.vput x.1 (maskOf fun l => l == x.2.1) fun _ => x.2.2) w

/-- Uniform words written in turn. -/
def Warp.sputAll (w : Warp) (l : List (Nat × PWord)) : Warp := l.foldl (fun w x => w.sput x.1 x.2) w

theorem landed_eq (w : Warp) (p : Pend) : w.landed p = (w.vputAll p.vw).sputAll p.sw := rfl

theorem vputAll_kept (w : Warp) (l : List (Nat × Nat × PWord)) :
    RegsOnly w (w.vputAll l) ∧ (w.vputAll l).s = w.s ∧ (w.vputAll l).p = w.p ∧ (w.vputAll l).q = w.q := by
  induction l generalizing w with
  | nil => exact ⟨RegsOnly.refl w, rfl, rfl, rfl⟩
  | cons e l ih =>
    obtain ⟨hr, hs, hp, hq⟩ := ih (w.vput e.1 (maskOf fun l => l == e.2.1) fun _ => e.2.2)
    have hput : ∀ m f, (w.vput e.1 m f).s = w.s ∧ (w.vput e.1 m f).p = w.p ∧ (w.vput e.1 m f).q = w.q := by
      intro m f
      unfold Warp.vput
      split <;> exact ⟨rfl, rfl, rfl⟩
    obtain ⟨hs', hp', hq'⟩ := hput (maskOf fun l => l == e.2.1) fun _ => e.2.2
    exact ⟨(regsOnly_vput w _ _ _).trans hr, hs.trans hs', hp.trans hp', hq.trans hq'⟩

theorem sputAll_kept (w : Warp) (l : List (Nat × PWord)) :
    RegsOnly w (w.sputAll l) ∧ (w.sputAll l).v = w.v ∧ (w.sputAll l).p = w.p ∧ (w.sputAll l).q = w.q := by
  induction l generalizing w with
  | nil => exact ⟨RegsOnly.refl w, rfl, rfl, rfl⟩
  | cons e l ih =>
    obtain ⟨hr, hv, hp, hq⟩ := ih (w.sput e.1 e.2)
    exact ⟨(regsOnly_sput w _ _).trans hr, hv, hp, hq⟩

theorem vget_vputAll_other (l : List (Nat × Nat × PWord)) (w : Warp) {r x : Nat} (hx : x < 32)
    (h : ∀ e ∈ l, e.1 ≠ r ∨ e.2.1 ≠ x) : (w.vputAll l).vget r x = w.vget r x := by
  induction l generalizing w with
  | nil => rfl
  | cons e l ih =>
    have hne : ¬(r = e.1 ∧ (maskOf fun l => l == e.2.1).getLsbD x = true) := by
      rw [getLsbD_maskOf _ hx, beq_iff_eq]
      rintro ⟨rfl, rfl⟩
      exact (h e List.mem_cons_self).elim (absurd rfl) (absurd rfl)
    exact (ih (w.vput e.1 _ _) fun d hd => h d (List.mem_cons_of_mem _ hd)).trans
      ((vget_vput _ _ _ _ _ hx).trans (if_neg hne))

theorem vget_vputAll_mem (l : List (Nat × Nat × PWord)) (w : Warp) (hn : (l.map fun e => (e.1, e.2.1)).Nodup)
    (hl : ∀ e ∈ l, e.2.1 < 32) {e : Nat × Nat × PWord} (he : e ∈ l) : (w.vputAll l).vget e.1 e.2.1 = e.2.2 := by
  induction l generalizing w with
  | nil => cases he
  | cons d l ih =>
    obtain ⟨hd, hn⟩ := List.nodup_cons.mp hn
    rcases List.mem_cons.mp he with rfl | he
    · have hx := hl e List.mem_cons_self
      have hother : ∀ a ∈ l, a.1 ≠ e.1 ∨ a.2.1 ≠ e.2.1 := fun a ha => by
        by_contra hc
        push Not at hc
        exact hd (List.mem_map.mpr ⟨a, ha, Prod.ext hc.1 hc.2⟩)
      exact (vget_vputAll_other l (w.vput e.1 _ _) hx hother).trans
        ((vget_vput _ _ _ _ _ hx).trans (if_pos ⟨rfl, by rw [getLsbD_maskOf _ hx, beq_self_eq_true]⟩))
    · exact ih _ hn (fun a ha => hl a (List.mem_cons_of_mem _ ha)) he

theorem sget_sputAll_other (l : List (Nat × PWord)) (w : Warp) {r : Nat} (h : ∀ e ∈ l, e.1 ≠ r) :
    (w.sputAll l).sget r = w.sget r := by
  induction l generalizing w with
  | nil => rfl
  | cons e l ih =>
    exact (ih (w.sput e.1 e.2) fun d hd => h d (List.mem_cons_of_mem _ hd)).trans
      ((sput_s_get _ _ _ _).trans (if_neg (h e List.mem_cons_self).symm))

theorem sget_sputAll_mem (l : List (Nat × PWord)) (w : Warp) (hn : (l.map Prod.fst).Nodup) {e : Nat × PWord} (he : e ∈ l) :
    (w.sputAll l).sget e.1 = e.2 := by
  induction l generalizing w with
  | nil => cases he
  | cons d l ih =>
    obtain ⟨hd, hn⟩ := List.nodup_cons.mp hn
    rcases List.mem_cons.mp he with rfl | he
    · have hother : ∀ a ∈ l, a.1 ≠ e.1 := fun a ha heq => hd (List.mem_map.mpr ⟨a, ha, heq⟩)
      exact (sget_sputAll_other l (w.sput e.1 e.2) hother).trans ((sput_s_get _ _ _ _).trans (if_pos rfl))
    · exact ih _ hn he

/-! ## Changes of one warp, and waits -/

theorem onlyWarp_modWarp (wid : Nat) (s : State) (f : Warp → Warp) : OnlyWarp wid s (s.modWarp wid f) :=
  ⟨s.modWarp_agenda wid f, s.modWarp_cur wid f, s.modWarp_free wid f, s.modWarp_dev wid f, s.modWarp_mem wid f,
    s.modWarp_cores wid f, s.modWarp_pairs wid f, s.modWarp_ctxs wid f, s.modWarp_grids wid f, s.modWarp_blocks wid f,
    s.modWarp_blkNext wid f, s.modWarp_cmdNext wid f, fun _ hx => State.warp_modWarp_ne s f hx⟩

theorem warp_modWarp_some {s : State} {wid : Nat} {w : Warp} (hw : s.warp wid = some w) (f : Warp → Warp) :
    (s.modWarp wid f).warp wid = some (f w) := by
  rw [State.warp_modWarp, if_pos rfl, hw]
  rfl

theorem onWarp_here {s : State} {core slot wid : Nat} {w : Warp} (h : Here s core slot wid w) (f : Nat → Warp → State) :
    onWarp s core slot f = f wid w := by
  obtain ⟨hat, hw⟩ := h
  simp only [onWarp, hat, hw]

theorem makeRoom_fits {s : State} {core wid n : Nat} (h : n ≤ poolFree s core) : makeRoom s core wid n = s := if_pos h

/-- A warp whose wait ends at the next word. -/
def Warp.moved (w : Warp) : Warp := { w with wait := none }.advance

/-- What moving on leaves of a warp. -/
theorem moved_facts (w : Warp) : w.moved.wait = none ∧ w.moved.run = nextRun w ∧ w.moved.v = w.v ∧ w.moved.s = w.s
    ∧ w.moved.p = w.p := by
  obtain ⟨hk, hv, hs, hp, -, -, -, hrun⟩ := advance_facts { w with wait := none }
  exact ⟨hk.wait, hrun, hv, hs, hp⟩

/-- The end of a wait with no result (R343). -/
theorem finishWait_zero (s : State) (wid : Nat) : finishWait s wid .zero 0 = s.modWarp wid Warp.moved := rfl

theorem endAcquire_eq {s : State} {wid : Nat} {w : Warp} {x : Wait} (hw : s.warp wid = some w) (hx : w.wait = some x) :
    endAcquire s wid = waitAcquires s wid x := by
  simp only [endAcquire, hw, Option.bind_some, hx]

/-- What a wait that acquires at a block's scope leaves of the warps: all of them (R325). -/
theorem acquireAt_warps (s : State) (wid : Nat) (sc : Scope) : (acquireAt s wid sc).warps = s.warps := by
  unfold acquireAt
  (repeat' split) <;> rfl

/-- The warp of a wait that ends has moved on; beside it, all is as after the acquire. -/
def MovesOn (wid : Nat) (w : Warp) (s t : State) : Prop :=
  ∃ w', OnlyWarp wid s t ∧ t.warp wid = some w' ∧ w'.wait = none ∧ w'.run = nextRun w ∧ w'.v = w.v ∧ w'.s = w.s ∧ w'.p = w.p

theorem movesOn_modWarp {s : State} {wid : Nat} {w : Warp} (hw : s.warp wid = some w) :
    MovesOn wid w s (s.modWarp wid Warp.moved) :=
  ⟨w.moved, onlyWarp_modWarp wid s _, warp_modWarp_some hw _, moved_facts w⟩

/-- A wait that acquires nothing ends. -/
theorem endWait_plain {s : State} {wid : Nat} {w : Warp} {x : Wait} (hw : s.warp wid = some w) (hx : w.wait = some x)
    (ha : x.acquires = none) : endWait s wid = s.modWarp wid Warp.moved := by
  rw [endWait, endAcquire_eq hw hx, waitAcquires, ha, finishWait_zero]

/-- A wait that acquires ends. -/
theorem endWait_acquires {s : State} {wid : Nat} {w : Warp} {x : Wait} {sc : Scope} (hw : s.warp wid = some w)
    (hx : w.wait = some x) (ha : x.acquires = some sc) :
    endWait s wid = (acquireAt s wid sc).modWarp wid Warp.moved := by
  rw [endWait, endAcquire_eq hw hx, waitAcquires, ha, finishWait_zero]

theorem movesOn_acquired {s : State} {wid : Nat} {w : Warp} (hw : s.warp wid = some w) (sc : Scope) :
    MovesOn wid w (acquireAt s wid sc) ((acquireAt s wid sc).modWarp wid Warp.moved) :=
  movesOn_modWarp ((State.warp_of_warps_eq (acquireAt_warps s wid sc) wid).trans hw)

theorem flagsClear_of {w : Warp} {m : BitVec 12} (h : ∀ f, f < 12 → m.getLsbD f = true → w.flag f = 0) :
    flagsClear w m = true := by
  rw [flagsClear, List.all_eq_true]
  intro f hm
  cases hb : m.getLsbD f
  · rfl
  · simp [h f (List.mem_range.mp hm) hb]

theorem exec_waitComplete {s : State} {core slot wid : Nat} {w : Warp} (h : Here s core slot wid w) (hm : movable w = true) :
    exec (.waitComplete core slot) s = .next (evalWait s wid core w) :=
  congrArg Host.Outcome.next ((onWarp_here h _).trans (if_pos hm))

/-! ## Slices -/

/-- A register's words with those of a slice at 0. -/
def clearLanes (sl : Nat) (ws : List PWord) : List PWord :=
  (List.range ws.length).map fun l => if l / 8 = sl then PWord.zero else (ws[l]?).getD PWord.zero

/-- A slice that is dropped reads 0; the others stay (R165). -/
theorem vget_dropSlice (w : Warp) (sl r l : Nat) :
    (w.dropSlice sl).vget r l = if l / 8 = sl then PWord.zero else w.vget r l := by
  have hv : alook r (w.dropSlice sl).v = (alook r w.v).map (clearLanes sl) := alook_map (clearLanes sl) r w.v
  simp only [Warp.vget, hv]
  cases alook r w.v with
  | none => simp
  | some ws =>
    simp only [Option.map_some, Option.bind_some, clearLanes, List.getElem?_map]
    by_cases hl : l < ws.length
    · rw [List.getElem?_range hl]
      rfl
    · rw [List.getElem?_eq_none (by simpa using hl), List.getElem?_eq_none (by simpa using hl)]
      simp

theorem dropTlb_all (va n : Nat) (t : Sparse (List Nat)) : dropTlb .all va n t = [] := by
  rw [dropTlb, List.filterMap_eq_nil_iff]
  intro e _
  have hnone : (e.2.filter fun x => !tlbHit .all va n (e.1, x)) = [] := by
    rw [List.filter_eq_nil_iff]
    intro x _
    simp [tlbHit]
  rw [hnone]

end Sys2Proof.Machine

/-! ## The clauses -/

namespace Sys2Proof

open Machine

theorem longLatency_lands {s : State} {core slot wid k : Nat} {w : Warp} {p : Pend} (h : Here s core slot wid w)
    (hp : w.pend[k]? = some p) (hk : ∀ id, p.kind ≠ .mat id) (hroom : landCells w p ≤ poolFree s core)
    (hv : (p.vw.map fun e => (e.1, e.2.1)).Nodup) (hs : (p.sw.map Prod.fst).Nodup) (hl : ∀ e ∈ p.vw, e.2.1 < 32) :
    ∃ t w', exec (.longLatencyComplete core slot k) s = .next t ∧ OnlyWarp wid s t ∧ t.warp wid = some w'
      ∧ w'.pend = w.pend.eraseIdx k ∧ w'.run = w.run ∧ w'.p = w.p ∧ w'.q = w.q
      ∧ (∀ e ∈ p.vw, w'.vget e.1 e.2.1 = e.2.2)
      ∧ (∀ r l, l < 32 → (∀ e ∈ p.vw, e.1 ≠ r ∨ e.2.1 ≠ l) → w'.vget r l = w.vget r l)
      ∧ (∀ e ∈ p.sw, w'.sget e.1 = e.2) ∧ ∀ r, (∀ e ∈ p.sw, e.1 ≠ r) → w'.sget r = w.sget r := by
  obtain ⟨hvr, hvs, hvp, hvq⟩ := vputAll_kept w p.vw
  obtain ⟨hsr, hsv, hsp, hsq⟩ := sputAll_kept (w.vputAll p.vw) p.sw
  have hvget : ∀ r l, (w.landed p).vget r l = (w.vputAll p.vw).vget r l := fun r l => by
    rw [landed_eq, Warp.vget, hsv, Warp.vget]
  have hsget : ∀ r, (w.vputAll p.vw).sget r = w.sget r := fun r => by rw [Warp.sget, hvs, Warp.sget]
  refine ⟨s.modWarp wid fun w => { w.landed p with pend := w.pend.eraseIdx k },
    { w.landed p with pend := w.pend.eraseIdx k }, ?_, onlyWarp_modWarp wid s _, warp_modWarp_some h.2 _, rfl,
    hsr.run.trans hvr.run, hsp.trans hvp, hsq.trans hvq, fun e he => ?_, fun r l hl32 hne => ?_,
    fun e he => sget_sputAll_mem p.sw _ hs he, fun r hne => (sget_sputAll_other p.sw _ hne).trans (hsget r)⟩
  · refine congrArg Host.Outcome.next ((onWarp_here h _).trans ?_)
    cases hkind : p.kind with
    | mat id => exact absurd hkind (hk id)
    | mem => simp only [hp, hkind, makeRoom_fits hroom, if_neg (Nat.not_lt.mpr hroom), if_true]
    | peer _ => simp only [hp, hkind, makeRoom_fits hroom, if_neg (Nat.not_lt.mpr hroom), if_true]
  · exact (hvget e.1 e.2.1).trans (vget_vputAll_mem p.vw w hv hl he)
  · exact (hvget r l).trans (vget_vputAll_other p.vw w hl32 hne)

theorem sliceRetire_drops {s : State} {core slot wid sl k : Nat} {w : Warp} (h : Here s core slot wid w)
    (hsl : w.slices[sl]? = some (some k)) (ha : w.alive &&& sliceMask sl = 0)
    (hother : ∃ j n, j ≠ sl ∧ w.slices[j]? = some (some n)) (hpend : w.pend.any (writesSlice · sl) = false) :
    exec (.sliceRetire core slot sl) s = .next (freeCores (s.setWarp wid (w.dropSlice sl)) [core]) := by
  obtain ⟨j, n, hj, hjn⟩ := hother
  have hlast : (w.slices.set sl none).all Option.isNone = false := by
    rw [List.all_eq_false]
    refine ⟨some n, List.mem_iff_getElem?.mpr ⟨j, ?_⟩, by simp⟩
    rw [List.getElem?_set_ne (Ne.symm hj), hjn]
  refine congrArg Host.Outcome.next ((onWarp_here h _).trans ?_)
  simp only [hsl, ha, hpend, hlast, Option.getD_some, Option.isNone_some, bne_self_eq_false, Bool.or_self, Bool.false_and,
    Bool.false_eq_true, if_false]

theorem sliceRetire_last {s : State} {core slot wid sl k : Nat} {w : Warp} (h : Here s core slot wid w)
    (hsl : w.slices[sl]? = some (some k)) (ha : w.alive &&& sliceMask sl = 0)
    (hother : ∀ j, j ≠ sl → w.slices[j]? = none ∨ w.slices[j]? = some none) (hpend : w.pend = []) (hheld : w.heldTrap = none)
    (hasync : w.async = []) (hmore : (s.warpsOf (blkOf wid)).any (fun e => e.1 != wid) = true) :
    exec (.sliceRetire core slot sl) s = .next (freeCores (({ s with warps := adel wid s.warps } : State).modCore core
      fun c => { c with mismatches := adel slot c.mismatches }) [core]) := by
  have hlast : (w.slices.set sl none).all Option.isNone = true := by
    rw [List.all_eq_true]
    intro x hx
    obtain ⟨j, hj⟩ := List.mem_iff_getElem?.mp hx
    by_cases hjs : j = sl
    · rw [hjs, List.getElem?_set_self (List.getElem?_eq_some_iff.mp hsl).1] at hj
      exact Option.some.inj hj ▸ rfl
    · rw [List.getElem?_set_ne (Ne.symm hjs)] at hj
      rcases hother j hjs with h0 | h0
      · cases hj.symm.trans h0
      · exact Option.some.inj (h0.symm.trans hj) ▸ rfl
  have hmine : ((s.warpsOf (blkOf wid)).all fun e => e.1 == wid) = false := by
    rw [List.all_eq_false]
    obtain ⟨e, he, hne⟩ := List.any_eq_true.mp hmore
    exact ⟨e, he, by simpa using hne⟩
  refine congrArg Host.Outcome.next ((onWarp_here h _).trans ?_)
  simp only [hsl, ha, hpend, hlast, hmine, hheld, hasync, leaveFaults, Option.getD_some, Option.isNone_some, bne_self_eq_false,
    Bool.or_self, Bool.false_and, Bool.and_false, List.any_nil, List.isEmpty_nil, Bool.not_true, Bool.false_eq_true, if_false,
    if_true, List.find?_nil, Option.or_self]

/-- Cells come back to a spilled warp for which the pool has room (R129). -/
theorem cellRefill_refills {s : State} {core slot wid : Nat} {w : Warp} (h : Here s core slot wid w) (hsp : w.spilled ≠ [])
    (hw : w.wait = none) (hm : movable w = true) (hread : unreadCell s wid w = none) (hafter : refillAfter s core w = false)
    (hroom : w.spilled.length ≤ poolFree s core) :
    exec (.cellRefill core slot) s = .next (s.modWarp wid fun w => { w with spilled := [], spilledAt := none }) := by
  have hready : refillReady w = true := by
    simp only [refillReady, hw, hm, Option.isNone_none, Bool.and_true, Bool.not_eq_true', List.isEmpty_eq_false_iff]
    exact hsp
  refine congrArg Host.Outcome.next ((onWarp_here h _).trans ?_)
  simp only [hready, hread, hafter, makeRoom_fits hroom, if_neg (Nat.not_lt.mpr hroom), Bool.not_true, Bool.false_eq_true,
    if_false]

/-- A freed entry is reserved for the warp that was rejected first, whose word issues again (R247). -/
theorem missStatusReissue_reserves {s : State} {core : Nat} {y : Nat × Nat} (hfree : missUsed s core < 4096)
    (hresv : (s.core core).missResv = none) (hy : nextRejected (rejected s core) none = some y) :
    ∃ t, exec (.missStatusReissue core) s = .next t ∧ (t.core core).missResv = some (y.2, s.dev.now)
      ∧ ∀ w, s.warp y.2 = some w → w.wait = some .reissue → ∃ w', t.warp y.2 = some w' ∧ w'.wait = none ∧ w'.run = w.run := by
  refine ⟨reserveMiss s core (some y), ?_, ?_, fun w hw hwait => ⟨{ w with wait := none }, ?_, rfl, rfl⟩⟩
  · simp only [exec, execMissStatusReissue, hresv, hy, Nat.not_le.mpr hfree, decide_false, Bool.or_self, Bool.false_eq_true, if_false]
  · have hcore := State.core_modCore s core core fun c => { c with missResv := some (y.2, s.dev.now) }
    rw [if_pos rfl] at hcore
    exact (congrArg Core.missResv ((congrArg (sget Core.reset · core) (State.modWarp_cores _ _ _)).trans hcore)).trans rfl
  · have hw' : (s.modCore core fun c => { c with missResv := some (y.2, s.dev.now) }).warp y.2 = some w := hw
    exact (warp_modWarp_some hw' _).trans (congrArg some (if_pos hwait))

/-- A reservation of 64 cycles passes to the next rejected warp (R247). -/
theorem missReservation_passes {s : State} {core wid n m : Nat} {w : Warp} (hresv : (s.core core).missResv = some (wid, n))
    (hn : n + 64 ≤ s.dev.now) (hw : s.warp wid = some w) (hm : w.sched.missWait = some m) :
    ∃ t, exec (.missStatusReservationExpiry core) s = .next t
      ∧ (t.core core).missResv = (nextRejected (rejected s core) (some (m, wid))).map fun y => (y.2, s.dev.now) := by
  refine ⟨reserveMiss s core (nextRejected (rejected s core) (some (m, wid))), ?_, ?_⟩
  · simp only [exec, execMissStatusReservationExpiry, hresv, Nat.not_lt.mpr hn, if_false, hw, Option.bind_some, hm,
      Option.map_some]
  · have hcore : ∀ f : Core → Core, (s.modCore core f).core core = f (s.core core) := fun f => by
      rw [State.core_modCore, if_pos rfl]
    cases nextRejected (rejected s core) (some (m, wid)) with
    | none => exact congrArg Core.missResv (hcore _)
    | some y => exact (congrArg Core.missResv ((congrArg (sget Core.reset · core) (State.modWarp_cores _ _ _)).trans (hcore _)))

/-- What ends the waits for flags, for batches, for a barrier and for a word that is to be issued again (R343). -/
theorem waitComplete_moves {s : State} {core slot wid : Nat} {w : Warp} (h : Here s core slot wid w) (hm : movable w = true) :
    let moves := fun (s0 : State) => ∃ t w', exec (.waitComplete core slot) s = .next t ∧ OnlyWarp wid s0 t
      ∧ t.warp wid = some w' ∧ w'.wait = none ∧ w'.run = nextRun w ∧ w'.v = w.v ∧ w'.s = w.s ∧ w'.p = w.p
    (∀ m, w.wait = some (.fwait m) → (∀ f, f < 12 → m.getLsbD f = true → w.flag f = 0) → moves s)
      ∧ (∀ n, w.wait = some (.cpwait n) → batchesDone w n = true → moves (acquireAt s wid .blk))
      ∧ (∀ i tk, w.wait = some (.bar i tk) → phaseDone (barrierOf s (blkOf wid) i).phase tk = true →
          moves (acquireAt s wid .blk))
      ∧ ((w.wait = some .reissue ∨ w.wait = some .queue) → ∃ t, exec (.waitComplete core slot) s = .next t
          ∧ OnlyWarp wid s t ∧ t.warp wid = some { w with wait := none }) := by
  have hexec := exec_waitComplete h hm
  refine ⟨fun m hw hf => ?_, fun n hw hb => ?_, fun i tk hw hp => ?_, fun hw => ?_⟩
  · have heval : evalWait s wid core w = s.modWarp wid Warp.moved := by
      simp only [evalWait, hw, flagsClear_of hf, if_true, endWait_plain h.2 hw rfl]
    obtain ⟨w', hmoves⟩ := movesOn_modWarp h.2
    exact ⟨_, w', hexec.trans (congrArg _ heval), hmoves⟩
  · have heval : evalWait s wid core w = (acquireAt s wid .blk).modWarp wid Warp.moved := by
      simp only [evalWait, hw, hb, if_true, endWait_acquires h.2 hw rfl]
    obtain ⟨w', hmoves⟩ := movesOn_acquired h.2 .blk
    exact ⟨_, w', hexec.trans (congrArg _ heval), hmoves⟩
  · have heval : evalWait s wid core w = (acquireAt s wid .blk).modWarp wid Warp.moved := by
      simp only [evalWait, hw, evalBar, hp, if_true, settleWait]
      exact endWait_acquires h.2 hw rfl
    obtain ⟨w', hmoves⟩ := movesOn_acquired h.2 .blk
    exact ⟨_, w', hexec.trans (congrArg _ heval), hmoves⟩
  · have heval : evalWait s wid core w = reissue s wid := by
      rcases hw with hw | hw <;> simp only [evalWait, hw]
    exact ⟨_, hexec.trans (congrArg _ heval), onlyWarp_modWarp wid s _, warp_modWarp_some h.2 _⟩

theorem napExpiry_moves {s : State} {core slot wid n : Nat} {w : Warp} (h : Here s core slot wid w)
    (hw : w.wait = some (.nap n)) (hn : n ≤ s.nonStalled core) :
    exec (.napExpiry core slot) s = .next (s.modWarp wid Warp.moved) := by
  refine congrArg Host.Outcome.next ((onWarp_here h _).trans ?_)
  simp only [hw, hn, true_or, if_true]
  exact endWait_plain h.2 hw rfl

theorem asyncFaultDelivery_traps {s : State} {core slot wid : Nat} {w : Warp} {r : TrapRec} {rs : List TrapRec}
    (h : Here s core slot wid w) (hm : movable w = true) (hh : w.heldTrap = none) (ha : w.async = r :: rs)
    (hr : asyncReady w = true) : exec (.asyncFaultDelivery core slot) s =
      .next (takeTrap (s.setWarp wid { w with async := rs }) wid
        ⟨r.cause, r.subcode, 0, w.run.mask, r.addr.toNat, r.cmdSeq, true⟩) := by
  refine congrArg Host.Outcome.next ((onWarp_here h _).trans ?_)
  simp only [hm, if_true, deliver, hh, ha, hr, Bool.not_true, Bool.false_eq_true, if_false, Option.getD_some]

theorem exec_tlbinvComplete {s : State} {core slot wid : Nat} {w : Warp} {va : DWord} {n : Nat} (h : Here s core slot wid w)
    (hw : w.wait = some (.tlbinv .all va n)) : exec (.tlbinvComplete core slot) s =
      .next ((s.modCtx (s.ctxNo wid) fun c => { c with tlb := [] }).modWarp wid Warp.moved) := by
  obtain ⟨hat, hwarp⟩ := h
  simp only [exec, execTlbinvComplete, hat, hwarp, Option.bind_some, Option.map_some, hw, dropTlb_all]
  rfl

theorem tlbinvComplete_moves {s : State} {core slot wid : Nat} {w : Warp} {va : DWord} {n : Nat} {c : Ctx}
    (h : Here s core slot wid w) (hw : w.wait = some (.tlbinv .all va n)) (hc : s.ctx (s.ctxNo wid) = some c) :
    ∃ t w', exec (.tlbinvComplete core slot) s = .next t ∧ t.warp wid = some w' ∧ w'.wait = none ∧ w'.run = nextRun w
      ∧ t.ctx (s.ctxNo wid) = some { c with tlb := [] } ∧ t.mem = s.mem := by
  have hw' : (s.modCtx (s.ctxNo wid) fun c => { c with tlb := [] }).warp wid = some w := h.2
  obtain ⟨hwait, hrun, -⟩ := moved_facts w
  refine ⟨_, w.moved, exec_tlbinvComplete h hw, warp_modWarp_some hw' _, hwait, hrun, ?_, by simp⟩
  have hctx := State.ctx_modCtx s (s.ctxNo wid) (s.ctxNo wid) fun c => { c with tlb := [] }
  rw [if_pos rfl, hc] at hctx
  exact (congrArg (alook (s.ctxNo wid)) (State.modWarp_ctxs _ _ _)).trans hctx

/-- A warp of a die drops a clause that touches a line (R274). -/
def dropClause (die va : Nat) (w : Warp) : Warp :=
  if w.loc.isSome && dieOf w.core == die then { w with clause := w.clause.filter fun c => !c.touches va } else w

theorem exec_icinvComplete {s : State} {core slot wid : Nat} {w : Warp} {va : DWord} (h : Here s core slot wid w)
    (hw : w.wait = some (.icinv va)) : exec (.icinvComplete core slot) s =
      .next { s.modWarp wid Warp.moved with
        warps := (s.modWarp wid Warp.moved).warps.map fun e => (e.1, dropClause (dieOf core) va.toNat e.2) } := by
  refine congrArg Host.Outcome.next ((onWarp_here h _).trans ?_)
  simp only [hw, endWait_plain h.2 hw rfl]
  rfl

theorem dropClause_kept (die va : Nat) (w : Warp) :
    (dropClause die va w).wait = w.wait ∧ (dropClause die va w).run = w.run ∧ (dropClause die va w).loc = w.loc := by
  unfold dropClause
  split <;> exact ⟨rfl, rfl, rfl⟩

theorem dropClause_touches {die va : Nat} {w : Warp} {cl : Clause} (hl : w.loc ≠ none) (hd : dieOf w.core = die)
    (hc : (dropClause die va w).clause = some cl) : cl.touches va = false := by
  have hcond : (w.loc.isSome && dieOf w.core == die) = true := by
    rw [Bool.and_eq_true, beq_iff_eq]
    exact ⟨Option.isSome_iff_ne_none.mpr hl, hd⟩
  rw [dropClause, if_pos hcond] at hc
  simpa using (Option.filter_eq_some_iff.mp hc).2

theorem icinvComplete_clears {s : State} {core slot wid : Nat} {w : Warp} {va : DWord} (h : Here s core slot wid w)
    (hw : w.wait = some (.icinv va)) :
    ∃ t w', exec (.icinvComplete core slot) s = .next t ∧ t.warp wid = some w' ∧ w'.wait = none ∧ w'.run = nextRun w
      ∧ t.mem = s.mem ∧ ∀ x w2 cl, t.warp x = some w2 → w2.loc ≠ none → dieOf w2.core = dieOf core → w2.clause = some cl →
          cl.touches va.toNat = false := by
  obtain ⟨hwait, hrun, -⟩ := moved_facts w
  obtain ⟨hdwait, hdrun, -⟩ := dropClause_kept (dieOf core) va.toNat w.moved
  refine ⟨_, dropClause (dieOf core) va.toNat w.moved, exec_icinvComplete h hw, ?_, hdwait.trans hwait, hdrun.trans hrun,
    State.modWarp_mem s wid _, fun x w2 cl hx hl hd hc => ?_⟩
  · exact (alook_map _ wid _).trans (congrArg (Option.map _) (warp_modWarp_some h.2 Warp.moved))
  · obtain ⟨u, -, rfl⟩ := Option.map_eq_some_iff.mp ((alook_map _ x _).symm.trans hx)
    obtain ⟨-, -, hloc⟩ := dropClause_kept (dieOf core) va.toNat u
    have hcore : (dropClause (dieOf core) va.toNat u).core = u.core := by rw [Warp.core, hloc, Warp.core]
    exact dropClause_touches (hloc ▸ hl) (hcore ▸ hd) hc

/-- Settles O49: one lemma for each clause. -/
theorem warpCompletions : Obligations.WarpCompletions := by
  refine ⟨?_, ?_, ?_, ?_, ?_, ?_, ?_, ?_, ?_, ?_⟩
  · exact fun s core slot wid w k p h hp hk hroom hv hs hl => longLatency_lands h hp hk hroom hv hs hl
  · intro s core slot wid w sl k h hsl ha
    refine ⟨fun hother hpend => ?_, fun hother hpend hheld hasync hmore => ?_⟩
    · exact ⟨_, w.dropSlice sl, sliceRetire_drops h hsl ha hother hpend, State.warp_setWarp_self s wid _, rfl, rfl, rfl, rfl,
        vget_dropSlice w sl⟩
    · exact ⟨_, sliceRetire_last h hsl ha hother hpend hheld hasync hmore, alook_adel_self wid s.warps, rfl, rfl⟩
  · intro s core slot wid w h hsp hw hm hread hafter hroom
    exact ⟨_, cellRefill_refills h hsp hw hm hread hafter hroom, onlyWarp_modWarp wid s _, warp_modWarp_some h.2 _⟩
  · exact fun s core y hfree hresv hy => missStatusReissue_reserves hfree hresv hy
  · exact fun s core wid n w m hresv hn hw hm => missReservation_passes hresv hn hw hm
  · exact fun s core slot wid w h hm => waitComplete_moves h hm
  · intro s core slot wid w n h hw hn
    obtain ⟨hwait, hrun, hv, hs, -⟩ := moved_facts w
    exact ⟨_, w.moved, napExpiry_moves h hw hn, onlyWarp_modWarp wid s _, warp_modWarp_some h.2 _, hwait, hrun, hv, hs⟩
  · exact fun s core slot wid w r rs h hm hh ha hr => asyncFaultDelivery_traps h hm hh ha hr
  · exact fun s core slot wid w va n c h hw hc => tlbinvComplete_moves h hw hc
  · exact fun s core slot wid w va h hw => icinvComplete_clears h hw

end Sys2Proof

/-! # Floating arithmetic (O7)

Each word completes by one write of D that also raises status bits, so `fvalue_computes` states what it leaves. What a word
adds to that is its own function of the sources as read under FLUSH. -/

namespace Sys2Proof.Machine

/-- A word whose effect is `fvalue` computes its values and raises the status bits of its active lanes (R69, R203). -/
theorem computes_of_fvalue {i : Instr} {s s0 : State} {it : Iss} {body : Iss → State → State} {td : Ty}
    {bits fl : Nat → Nat} {pois : Nat → Bool} (hi : issuing i s = some (it, s0)) (hk : keepsStores i = true)
    (he : exec i s = issue i s body) (hb : body it s0 = fvalue it s0 td fun l => ⟨bits l, fl l, pois l⟩) :
    ∃ t, exec i s = .next t ∧ Computes it s0 t (tw td) (wordsOf fun l => ⟨bits l, pois l⟩) (allFl it fl) := by
  obtain ⟨now, hw⟩ := warp_at_issue hi (.inl hk)
  refine ⟨body it s0, he.trans (issue_eq hi body), ?_⟩
  rw [hb]
  exact fvalue_computes hw td _ _

/-- A word whose effect is `value` computes its values and raises no status bit. -/
theorem yields_of_value {i : Instr} {td : Iss → Ty} {f : Iss → State → Nat → PV} (hk : keepsStores i = true)
    (he : ∀ s, exec i s = issue i s fun it s => value it s (td it) (f it s)) : Yields i td f fun _ => 0 := by
  intro s s0 it hi
  obtain ⟨now, hw⟩ := warp_at_issue hi (.inl hk)
  exact ⟨_, (he s).trans (issue_eq hi _), value_computes hw (td it) (f it s0)⟩

theorem floatYields1_of_float1 {i : Instr} {f : Fmt → Nat → FRes} (hk : keepsStores i = true)
    (he : ∀ s, exec i s = issue i s fun it s => float1 it s f) : FloatYields1 i f :=
  fun s _ _ hi => computes_of_fvalue hi hk (he s) rfl

theorem floatYields2_of_float2 {i : Instr} {f : Fmt → Nat → Nat → FRes} (hk : keepsStores i = true)
    (he : ∀ s, exec i s = issue i s fun it s => float2 it s f) : FloatYields2 i f :=
  fun s _ _ hi => computes_of_fvalue hi hk (he s) rfl

end Sys2Proof.Machine

namespace Sys2Proof

open Machine

/-- Settles O7: a word of two sources or of one is `float2` or `float1` of its function; `ffma` and `fscale`, whose sources are
others, write through `fvalue` themselves; `fclass` raises no status bit. -/
theorem floatArithmetic : Obligations.FloatArithmetic := by
  unfold Obligations.FloatArithmetic
  intro o
  refine ⟨fun rm => ?fadd, fun rm => ?fsub, fun rm => ?fmul, fun nan => ?fmin, fun nan => ?fmax, fun rm => ?frnd,
    fun rm s s0 it hi => ?ffma, fun rm s s0 it hi => ?fscale, ?fclass⟩
  case fadd | fsub | fmul | fmin | fmax => exact floatYields2_of_float2 rfl fun _ => rfl
  case frnd => exact floatYields1_of_float1 rfl fun _ => rfl
  case ffma | fscale => exact computes_of_fvalue hi rfl rfl rfl
  case fclass => exact yields_of_value rfl fun _ => rfl

end Sys2Proof

/-! # Placement and pre-emption (O51) -/

namespace Sys2Proof

open Machine

/-- A running grid of one block that has yet to be placed. -/
def unplacedGrid : Grid :=
  { Grid.started (Desc.one [0, 0, 0, 1]) with next := 0, firstWave := true }

/-- A context whose only grid has two records of block 0: one saved, the other still on core 0 and being pre-empted. The latter
keeps `joinedIdx` from listing the saved one (R396), so block 0 counts as the grid's next unstarted block. -/
def twinBlocks : State :=
  { State.reset with
    ctxs := [(0, Ctx.fresh CtxCfg.reset 1)]
    grids := [(gridKey 0 1, unplacedGrid)]
    blocks := [(0, { Block.placed 0 1 0 1 [] false 0 with st := .saved }),
      (1, { Block.placed 0 1 0 1 [0] false 0 with preempt := some ⟨0, [], .host, [0]⟩ })]
    blkNext := 2 }

/-- Placement resumes the saved record of block 0 (R402) and creates none. -/
theorem blockPlacement_twinBlocks :
    ∃ t, exec (.blockPlacement 0) twinBlocks = .next t ∧ t.blkNext = 2 := ⟨_, rfl, by decide +kernel⟩

/-- The grid waits alone, for its last block, in its first wave. -/
theorem servedOrder_twinBlocks : servedOrder twinBlocks 0 = [(0, 1, unplacedGrid)] := by decide +kernel

theorem joinedIdx_twinBlocks : joinedIdx twinBlocks 0 1 unplacedGrid = [] := by decide +kernel

/-- Core 0, the first candidate, has room for a new block. -/
theorem roomFor_twinBlocks :
    let need := unplacedGrid.desc.need (twinBlocks.cfg 0)
    let begun := twinBlocks.modGrid 0 1 fun g => { g with firstWave := false, joinWave := false }
    let cands := fromCursor twinBlocks 0 (candidates twinBlocks 0 need)
    cands.findIdx? (fun x => candRoom begun 0 x need true) = some 0 ∧ cands[0]? = some [0] := by decide +kernel

/-- Refutes O51: its placement clause supposes no saved block of the grid's next index. Where one stands, hidden by a record of
the same index that is being pre-empted, placement resumes it, and no new block appears (`twinBlocks`). -/
theorem not_placementAndPreemption : ¬ Obligations.PlacementAndPreemption := by
  unfold Obligations.PlacementAndPreemption
  rintro ⟨-, hplace, -⟩
  obtain ⟨hroom, hcand⟩ := roomFor_twinBlocks
  obtain ⟨t, -, hexec, -, hnext, -⟩ := hplace twinBlocks 0 (Ctx.fresh CtxCfg.reset 1) 1 unplacedGrid 0 [0] rfl rfl rfl
    servedOrder_twinBlocks rfl rfl rfl (Nat.le_refl 1) joinedIdx_twinBlocks rfl rfl (by decide) hroom hcand
  obtain ⟨t', hexec', hnext'⟩ := blockPlacement_twinBlocks
  obtain rfl : t = t' := Host.Outcome.next.inj (hexec.symm.trans hexec')
  exact absurd (hnext.symm.trans hnext') (by decide)

end Sys2Proof

/-! # Queues and launches (O50, O47) -/

/-! ## What the device's own accesses leave -/

namespace Sys2Proof.Machine

/-- What every step of a fold keeps, the fold keeps. -/
theorem foldl_keeps {α β : Type} (π : State → β) {f : State → α → State} (h : ∀ s x, π (f s x) = π s) (l : List α) (s : State) :
    π (l.foldl f s) = π s := by
  induction l generalizing s with
  | nil => rfl
  | cons x l ih => exact (ih (f s x)).trans (h s x)

/-- A grid with other bytes of its constants section noted as stored to (R236). -/
def Grid.noted (l : Grid → List Nat) (g : Grid) : Grid := { g with image := { g.image with constStored := l g } }

/-- A warp whose buffered stores, reservations and outstanding operations are others. -/
def Warp.drained (b : List Buffered) (r : Sparse Nat) (p : List Pend) (w : Warp) : Warp :=
  { w with sbuf := b, resv := r, pend := p }

/-- What the device's accesses to memory leave (R488): contexts and blocks, grids but for the noted bytes of their constants
sections (R236), and warps but for reservations lost and loads replayed (R148, R270). -/
structure DevAccess (s t : State) : Prop where
  ctxs : t.ctxs = s.ctxs
  blocks : t.blocks = s.blocks
  grids : ∃ l, t.grids = s.grids.map fun e => (e.1, e.2.noted l)
  warps : ∀ x, ∃ b r p, t.warp x = (s.warp x).map (Warp.drained b r p)

namespace DevAccess

variable {r s t : State}

theorem of_eq (hc : t.ctxs = s.ctxs) (hb : t.blocks = s.blocks) (hg : t.grids = s.grids) (hw : t.warps = s.warps) :
    DevAccess s t where
  ctxs := hc
  blocks := hb
  grids := ⟨fun g => g.image.constStored, hg.trans (List.map_id _).symm⟩
  warps x := by
    rw [State.warp_of_warps_eq hw x]
    cases s.warp x with
    | none => exact ⟨[], [], [], rfl⟩
    | some w => exact ⟨w.sbuf, w.resv, w.pend, rfl⟩

protected theorem refl (s : State) : DevAccess s s := of_eq rfl rfl rfl rfl

protected theorem trans (h : DevAccess r s) (k : DevAccess s t) : DevAccess r t where
  ctxs := k.ctxs.trans h.ctxs
  blocks := k.blocks.trans h.blocks
  grids := by
    obtain ⟨l, hl⟩ := h.grids
    obtain ⟨m, hm⟩ := k.grids
    refine ⟨fun g => m (g.noted l), ?_⟩
    rw [hm, hl, List.map_map]
    rfl
  warps x := by
    obtain ⟨b, r, p, hx⟩ := h.warps x
    obtain ⟨b', r', p', hx'⟩ := k.warps x
    refine ⟨b', r', p', ?_⟩
    rw [hx', hx, Option.map_map]
    rfl

theorem queue (h : DevAccess s t) (ctx q : Nat) : t.queue ctx q = s.queue ctx q := by
  unfold State.queue State.ctx
  rw [h.ctxs]

theorem ctx (h : DevAccess s t) (n : Nat) : t.ctx n = s.ctx n := congrArg (alook n) h.ctxs

/-- A grid keeps all but the noted bytes of its constants section. -/
theorem grid (h : DevAccess s t) : ∃ l, ∀ k, alook k t.grids = (alook k s.grids).map (Grid.noted l) := by
  obtain ⟨l, hl⟩ := h.grids
  exact ⟨l, fun k => hl ▸ alook_map (Grid.noted l) k s.grids⟩

theorem gridsKept (h : DevAccess s t) : GridsKept s t := by
  intro k
  obtain ⟨l, hl⟩ := h.grid
  rw [hl k]
  cases alook k s.grids with
  | none => exact ⟨[], rfl⟩
  | some g => exact ⟨l g, rfl⟩

end DevAccess

/-- A replay of loads changes warps and counters alone (R148). -/
theorem replayLoads_leaves (s : State) (who : Option Nat) (hit : LoadSrc → Bool) :
    (replayLoads s who hit).mem = s.mem ∧ (replayLoads s who hit).ctxs = s.ctxs ∧ (replayLoads s who hit).grids = s.grids
      ∧ (replayLoads s who hit).blocks = s.blocks := by
  have h := foldl_keeps (fun s => (s.mem, s.ctxs, s.grids, s.blocks)) (f := fun s (e : Nat × Warp) =>
    if e.2.promoted && some e.1 != who && e.2.pend.any (fun p => p.src.any hit) then
      let r := replayPends hit (fun x => x.words s e.1) false e.2.pend
      (List.range r.2).foldl (fun s _ => count s e.2.core evLoadReplay) (s.modWarp e.1 fun w => { w with pend := r.1 })
    else s) (fun s e => by
      split_ifs
      · exact (foldl_keeps (fun s => (s.mem, s.ctxs, s.grids, s.blocks)) (f := fun s (_ : Nat) => count s e.2.core evLoadReplay)
          (fun _ _ => rfl) _ (s.modWarp _ _)).trans (by simp)
      · rfl) s.warps s
  obtain ⟨hm, hc, hg, hb⟩ : _ ∧ _ ∧ _ ∧ _ := by simpa only [Prod.mk.injEq] using h
  exact ⟨hm, hc, hg, hb⟩

/-- A write of some bytes reaches memory as written. -/
theorem put_mem (s : State) (who core : Option Nat) (kid key : Nat) {bs : List Byte} (p : Bool) (h : bs.length ≠ 0) :
    (s.put who core kid key bs p).mem = (s.mem.setBytesUnder kid s.free key bs).storePois key bs.length p := by
  simp only [State.put, State.putBy, if_neg h]
  exact (replayLoads_leaves _ _ _).1

theorem devAccess_put (s : State) (who core : Option Nat) (kid key : Nat) (bs : List Byte) (p : Bool) :
    DevAccess s (s.put who core kid key bs p) := by
  have hw := (drains_put s who core kid key bs p).warps
  by_cases h : bs.length = 0
  · have he : s.put who core kid key bs p = s := by simp only [State.put, State.putBy, if_pos h]
    exact he.symm ▸ DevAccess.refl s
  · obtain ⟨-, hc, hg, hb⟩ := replayLoads_leaves (clearResv (((noteConsts (s.remember (core.or (s.cur.bind (coreOf s))) key
      bs.length p) key bs.length).modMem fun m => (m.setBytesUnder kid s.free key bs).storePois key bs.length p).takeFree) key
      bs.length) who (LoadSrc.inMem key bs.length)
    have he : s.put who core kid key bs p = _ := if_neg h
    refine ⟨?_, ?_, ⟨fun g => (if g.status = .running then g.image.noteStore key bs.length else g.image).constStored, ?_⟩, hw⟩
    · rw [he]; exact hc
    · rw [he]; exact hb
    · rw [he]
      refine hg.trans (List.map_congr_left fun e _ => ?_)
      by_cases hr : e.2.status = .running
      · simp only [Grid.noted, if_pos hr]
        rfl
      · simp only [Grid.noted, if_neg hr]

theorem devAccess_touch (s : State) (l : Leaf) : DevAccess s (s.touch l) := by
  unfold State.touch
  split
  · exact DevAccess.refl s
  · exact DevAccess.of_eq rfl rfl rfl rfl

/-- A device read touches memory alone (R238). -/
theorem devTouch_leaves (s : State) (ctx va n : Nat) :
    (s.devTouch ctx va n).ctxs = s.ctxs ∧ (s.devTouch ctx va n).blocks = s.blocks ∧ (s.devTouch ctx va n).grids = s.grids
      ∧ (s.devTouch ctx va n).warps = s.warps ∧ (s.devTouch ctx va n).dev = s.dev := by
  unfold State.devTouch
  split
  · exact ⟨rfl, rfl, rfl, rfl, rfl⟩
  · have h := foldl_keeps (fun s => (s.ctxs, s.blocks, s.grids, s.warps, s.dev)) (f := fun s (p : Nat × Nat) =>
      match s.access ctx p.1 s.free ⟨false, false, none⟩ with
      | .ok t => s.touch t.leaf
      | .error _ => s) (fun s p => by
        split
        · unfold State.touch
          split <;> rfl
        · rfl) (pieces va n) s
    obtain ⟨hc, hb, hg, hw, hd⟩ : _ ∧ _ ∧ _ ∧ _ ∧ _ := by simpa only [Prod.mk.injEq] using h
    exact ⟨hc, hb, hg, hw, hd⟩

theorem devAccess_devTouch (s : State) (ctx va n : Nat) : DevAccess s (s.devTouch ctx va n) :=
  let ⟨hc, hb, hg, hw, _⟩ := devTouch_leaves s ctx va n
  .of_eq hc hb hg hw

theorem devAccess_writeTgt (s : State) (who core : Option Nat) (ctx : Nat) (t : Tgt) (bs : List Byte) (p : Bool) :
    DevAccess s (s.writeTgt who core ctx t bs p) := by
  unfold State.writeTgt
  split
  · exact DevAccess.refl s
  · exact devAccess_put s who core _ _ bs p

theorem devAccess_putTargets (ctx : Nat) (ts : List (Tgt × Nat)) (bs : List Byte) (s : State) :
    DevAccess s (putTargets ctx ts bs s) := by
  induction ts generalizing bs s with
  | nil => exact DevAccess.refl s
  | cons t ts ih => exact ((devAccess_writeTgt s none none ctx t.1 _ false).trans (devAccess_touch _ _)).trans (ih _ _)

theorem devAccess_devWrite {s t : State} {ctx va : Nat} {bs : List Byte} (h : s.devWrite ctx va bs = some t) :
    DevAccess s t := by
  obtain ⟨ts, -, rfl⟩ := Option.map_eq_some_iff.mp h
  exact devAccess_putTargets ctx ts bs s

theorem devPut_of_devWrite {s t : State} {ctx va : Nat} {bs : List Byte} (h : s.devWrite ctx va bs = some t) :
    s.devPut ctx va bs = t := by rw [State.devPut, h]

theorem devAccess_skipAccess (s : State) (ctx va : Nat) : DevAccess s (skipAccess s ctx va) := .of_eq rfl rfl rfl rfl

/-- A device write, whether it is made or skipped. -/
theorem devAccess_devPut (s : State) (ctx va : Nat) (bs : List Byte) : DevAccess s (s.devPut ctx va bs) := by
  unfold State.devPut
  split
  next h => exact devAccess_devWrite h
  next => exact devAccess_skipAccess s ctx va

/-! ## A known word that the device writes -/

/-- A specified sector stays so as specified sectors are taken over. -/
theorem Mem.unknown_claimSector {m : Mem} {key u t : Nat} (fr : Nat) (hu : m.unknown key u = false)
    (ht : m.unknown key t = false) : (m.claimSector key fr u).unknown key t = false := by
  simp only [Mem.claimSector, Mem.settleSector, hu, Bool.false_eq_true, if_false]
  split
  · exact ht
  · simp only [Mem.unknown, Mem.foreign, alook_aput, Bool.or_eq_false_iff] at ht ⊢
    refine ⟨?_, ht.2⟩
    by_cases h : t = u
    · simp [h]
    · rw [if_neg h]
      exact ht.1

theorem Mem.byte_claimSectors {m : Mem} {key : Nat} (fr j : Nat) {l : List Nat} (h : ∀ t ∈ l, m.unknown key t = false) :
    (l.foldl (fun m t => m.claimSector key fr t) m).byte j = m.byte j := by
  induction l generalizing m with
  | nil => rfl
  | cons u l ih =>
    have hu := h u List.mem_cons_self
    exact (ih fun t ht => Mem.unknown_claimSector fr hu (h t (List.mem_cons_of_mem u ht))).trans (m.byte_claimSector key fr u j hu)

/-- Bytes written under a key to specified sectors. -/
theorem Mem.byte_setBytesUnder {m : Mem} {key k : Nat} {bs : List Byte} (fr j : Nat)
    (h : ∀ t ∈ sectors k bs.length, m.unknown key t = false) :
    (m.setBytesUnder key fr k bs).byte j = (m.setBytes k bs).byte j := by
  simp only [Mem.setBytesUnder, Mem.byte_setBytes, Mem.byte_claimSectors fr j h]

/-- A word written to specified sectors over a link that is up holds the number; every byte outside it stays. -/
theorem wordSet_storeOpen {s : State} {ctx n : Nat} {g : Tgt} (h : Writable s ctx n g) (hn : n ≠ 0) (y : Nat) :
    WordSet s (storeOpen s ctx g (leBytes n y) false) g n y := by
  have hmem : ∀ j, (storeOpen s ctx g (leBytes n y) false).mem.byte j = (s.mem.setBytes g.key (leBytes n y)).byte j := by
    intro j
    simp only [storeOpen, State.writeTgt, h.up, Bool.false_eq_true, if_false]
    rw [put_mem _ _ _ _ _ _ (by rwa [leBytes_length]), Mem.byte_storePois]
    exact Mem.byte_setBytesUnder _ j (by rw [leBytes_length]; exact h.known)
  have hbytes := s.mem.bytes_setBytes g.key (leBytes n y)
  rw [leBytes_length] at hbytes
  refine ⟨?_, fun k hk => (hmem k).trans (Mem.byte_setBytes_outside _ (by rwa [leBytes_length]))⟩
  rw [Mem.num, Mem.bytes_congr fun j _ _ => hmem j, hbytes, leNat_leBytes]

end Sys2Proof.Machine

/-! ## What changes a registered queue -/

namespace Sys2Proof.Machine

section
variable {s t : State} {ctx q idx : Nat} {x : Queue} {c : Qcb}

theorem queue_of_qcb (h : s.qcb ctx q = some (x, c)) : s.queue ctx q = some x := by
  unfold State.qcb at h
  split at h
  · cases h
  next y hy =>
    obtain ⟨_, _, he⟩ := Option.map_eq_some_iff.mp h
    cases he
    exact hy

theorem queue_of_ctxs (h : t.ctxs = s.ctxs) (n m : Nat) : t.queue n m = s.queue n m := by
  unfold State.queue State.ctx
  rw [h]

theorem queue_modQueue (h : s.queue ctx q = some x) (f : Queue → Queue) : (s.modQueue ctx q f).queue ctx q = some (f x) := by
  obtain ⟨z, hz, hx⟩ := Option.bind_eq_some_iff.mp h
  simp only [State.queue, State.modQueue, State.ctx_modCtx, if_true, hz, Option.map_some, Option.bind_some, alook_amod, hx]

/-- A change of a context that keeps its queues. -/
theorem queue_modCtx {f : Ctx → Ctx} (hf : ∀ c, (f c).queues = c.queues) (s : State) (k n m : Nat) :
    (s.modCtx k f).queue n m = s.queue n m := by
  unfold State.queue
  rw [State.ctx_modCtx]
  split_ifs with hn
  · rw [hn]
    cases s.ctx k with
    | none => rfl
    | some c => simp only [Option.map_some, Option.bind_some, hf]
  · rfl

theorem queue_countR (s : State) (k ev n m : Nat) : (countR s k ev).queue n m = s.queue n m :=
  queue_modCtx (f := fun c => { c with rcnt := aput ev ((sget 0 c.rcnt ev + 1) % 2 ^ 32) c.rcnt }) (fun _ => rfl) s k n m

theorem queue_entryDone (h : s.queue ctx q = some x) :
    (entryDone s ctx q idx).queue ctx q = some (marked x idx true) := queue_modQueue h _

theorem entryDone_mem (s : State) (ctx q idx : Nat) : (entryDone s ctx q idx).mem = s.mem := rfl

theorem mem_events_hostEvent (s : State) (e : HostEvent) : e ∈ (hostEvent s e).dev.events :=
  List.mem_append_right s.dev.events List.mem_cons_self

theorem putQcb_of_devWrite {off : Nat} {bs : List Byte} (h : s.devWrite ctx (x.qcb.toNat + off) bs = some t) :
    putQcb s ctx x off bs = t := devPut_of_devWrite h

theorem devAccess_putQcb (s : State) (ctx : Nat) (x : Queue) (off : Nat) (bs : List Byte) :
    DevAccess s (putQcb s ctx x off bs) := devAccess_devPut s ctx _ bs

end

end Sys2Proof.Machine

namespace Sys2Proof
open Machine

section
variable {s s1 s2 t : State} {ctx q : Nat} {x : Queue} {c : Qcb} {e : QEntry} {bs : List Byte}

/-! ## TAIL observed, an entry consumed -/

theorem queueTailObserve_eq (h : s.qcb ctx q = some (x, c)) (hs : c.state = 0) :
    exec (.queueTailObserve ctx q) s = .next (if c.tail < max x.seen c.head ∨ c.head + 2 ^ c.log2 < c.tail
      then queueError s ctx x c (c.slot c.head) 1
      else (s.devTouch ctx x.qcb.toNat 128).modQueue ctx q fun x => { x with seen := c.tail }) := by
  change execQueueTailObserve ctx q s = _
  simp only [execQueueTailObserve, h, hs, ne_eq, not_true, if_false]

/-- A queue that stops with an error has its block written and the host told (R79). -/
theorem queueError_facts {slot code : Nat} (h : s.devWrite ctx (x.qcb.toNat + 0x53)
    (leBytes 1 2 ++ leBytes 4 (slot % 65536 + code * 65536)) = some t) :
    (queueError s ctx x c slot code).mem = t.mem ∧ HostEvent.msi ctx c.msi ∈ (queueError s ctx x c slot code).dev.events := by
  rw [queueError, putQcb_of_devWrite h]
  exact ⟨rfl, mem_events_hostEvent t _⟩

theorem workError_of_kind_ne (s : State) (ctx : Nat) (h : c.kind ≠ 2) : workError s ctx c = 0 := by
  simp only [workError, h, false_and, if_false]

theorem workError_of_read (hk : c.kind = 2) (ht : c.head < c.tail)
    (hr : s.devRead ctx (c.base + 64 * (c.head % 2 ^ c.log2)) 64 = some bs) : workError s ctx c = entryError s ctx 2 bs := by
  have hr' : s.devRead ctx (c.slotAddr c.head) 64 = some bs := hr
  simp only [workError, hk, ht, and_self, if_true, hr']

/-- A work queue stops at an entry that does not validate (R76, R79, R361). -/
theorem queueEntryConsume_workError (h : s.qcb ctx q = some (x, c)) (hs : c.state = 0) (hw : workError s ctx c ≠ 0) :
    exec (.queueEntryConsume ctx q) s = .next (queueError s ctx x c (c.slot c.head) (workError s ctx c)) := by
  change execQueueEntryConsume ctx q s = _
  simp only [execQueueEntryConsume, h, hs, hw, ne_eq, not_false_eq_true, and_self, if_true]

theorem withdraw_of_unpushed {idx : Nat} (h : alook idx x.pushers = none) (s : State) (ctx q : Nat) (bs : List Byte) :
    withdraw s ctx q idx x bs = s := by
  simp only [withdraw, h]

/-- What the Registrar does with the entry at HEAD of a host or child queue (R78, R79). -/
theorem queueEntryConsume_eq (h : s.qcb ctx q = some (x, c)) (hk : c.kind ≤ 1) (hs : c.state = 0) (hh : c.head < x.seen)
    (hx : x.stuck = none) (ha : toAct x = false) (hr : s.devRead ctx (c.base + 64 * (c.head % 2 ^ c.log2)) 64 = some bs) :
    exec (.queueEntryConsume ctx q) s = .next (if entryError s ctx c.kind bs ≠ 0
      then queueError s ctx x c (c.slot c.head) (entryError s ctx c.kind bs)
      else (withdraw (putQcb (s.devTouch ctx (c.slotAddr c.head) 64) ctx x 0x40 (leBytes 8 (c.head + 1))) ctx q c.head x bs).modQueue
        ctx q fun x => { x with entries := x.entries ++ [⟨c.head, bs, false, false, none, none, none⟩] }) := by
  have hr' : s.devRead ctx (c.slotAddr c.head) 64 = some bs := hr
  have hgo : ¬ (1 < c.kind ∨ c.state ≠ 0 ∨ x.seen ≤ c.head ∨ x.stuck.isSome ∨ toAct x) := by
    simp only [hs, hx, ha, Option.isSome_none, Bool.false_eq_true, ne_eq, not_true, or_false, false_or]
    omega
  change execQueueEntryConsume ctx q s = _
  simp only [execQueueEntryConsume, h, workError_of_kind_ne s ctx (show c.kind ≠ 2 by omega), ne_eq, not_true, and_false,
    if_false]
  rw [if_neg hgo]
  simp only [hr']

/-! ## An entry acted on -/

/-- What acting on the entry in hand comes to (R81). -/
theorem actOn_eq {kind : Nat} (h : s.queue ctx q = some x) (hx : x.stuck = none) (he : nextAct true x.entries = some e)
    (hk : e.kind = kind) (k : Queue → QEntry → State) : actOn s ctx q kind k = .next (k x e) := by
  simp only [actOn, h, hx, Option.isSome_none, Bool.false_eq_true, if_false, he, hk, if_true]

/-- A WAITC reads its record's STATUS, and is done once that has come far enough (R80, R81). -/
theorem waitcEntry_facts (h : s.queue ctx q = some x) (hx : x.stuck = none) (he : nextAct true x.entries = some e)
    (hk : e.kind = 4) (hr : s.devRead ctx (fieldOf e.bytes 40 8) 32 = some bs) :
    let least := if vouchFirst s ctx (fieldOf e.bytes 40 8) = true then 3 else fieldOf e.bytes 48 1
    ∃ t, exec (.waitcEntry ctx q) s = .next t ∧ t.mem = (s.devTouch ctx (fieldOf e.bytes 40 8) 32).mem
      ∧ t.queue ctx q = some (marked x e.idx (decide (least ≤ fieldOf bs 0 1))) := by
  intro least
  have hq := (devAccess_devTouch s ctx (fieldOf e.bytes 40 8) 32).queue ctx q
  have heq : exec (.waitcEntry ctx q) s = _ := actOn_eq h hx he hk _
  simp only [hr] at heq
  by_cases hl : least ≤ fieldOf bs 0 1
  · refine ⟨_, heq.trans (congrArg _ (if_pos hl)), entryDone_mem _ _ _ _, ?_⟩
    rw [decide_eq_true hl]
    exact queue_entryDone (hq.trans h)
  · refine ⟨_, heq.trans (congrArg _ (if_neg hl)), rfl, ?_⟩
    rw [decide_eq_false hl]
    exact queue_modQueue (hq.trans h) _

end

end Sys2Proof

/-! ## Words resolved and signalled -/

namespace Sys2Proof.Machine

section
variable {s t : State} {ctx n : Nat} {g : Tgt}

theorem linkDown_of_links (h : t.dev.links = s.dev.links) (key : Nat) : linkDown t key = linkDown s key := by
  have hl : t.link = s.link := funext fun l => by rw [State.link, State.link, h]
  unfold linkDown linkOf hostModules
  rw [hl]

/-- What using an access's translation leaves: it caches translations and sets U bits (R238, R240). -/
structure Touches (s t : State) : Prop where
  dev : t.dev = s.dev
  grids : t.grids = s.grids
  queue : ∀ ctx q, t.queue ctx q = s.queue ctx q
  keyId : ∀ ctx, t.keyId ctx = s.keyId ctx
  keys : t.mem.keys = s.mem.keys
  vague : t.mem.vague = s.mem.vague

namespace Touches

protected theorem refl (s : State) : Touches s s := ⟨rfl, rfl, fun _ _ => rfl, fun _ => rfl, rfl, rfl⟩

protected theorem trans {r : State} (h : Touches r s) (k : Touches s t) : Touches r t where
  dev := k.dev.trans h.dev
  grids := k.grids.trans h.grids
  queue n m := (k.queue n m).trans (h.queue n m)
  keyId n := (k.keyId n).trans (h.keyId n)
  keys := k.keys.trans h.keys
  vague := k.vague.trans h.vague

theorem unknown (h : Touches s t) (key x : Nat) : t.mem.unknown key x = s.mem.unknown key x := by
  unfold Mem.unknown Mem.foreign
  rw [h.keys, h.vague]

theorem writable (h : Touches s t) (hw : Writable s ctx n g) : Writable t ctx n g where
  up := (linkDown_of_links (congrArg Device.links h.dev) g.key).trans hw.up
  known x hx := by
    rw [h.keyId, h.unknown]
    exact hw.known x hx

end Touches

theorem keyId_modCtx {f : Ctx → Ctx} (hf : ∀ c, (f c).key = c.key) (s : State) (k m : Nat) :
    (s.modCtx k f).keyId m = s.keyId m := by
  unfold State.keyId
  rw [State.ctx_modCtx]
  split_ifs with hm
  · rw [hm]
    cases s.ctx k with
    | none => rfl
    | some c => exact hf c
  · rfl

theorem touches_fillTlb (s : State) (ctx va : Nat) (l : Leaf) : Touches s (s.fillTlb ctx va l) where
  dev := rfl
  grids := rfl
  queue := queue_modCtx (f := fun c => { c with tlb := ((tlbKey l.level va, l.entry) :: l.via).foldl addTlb c.tlb })
    (fun _ => rfl) s ctx
  keyId := keyId_modCtx (f := fun c => { c with tlb := ((tlbKey l.level va, l.entry) :: l.via).foldl addTlb c.tlb })
    (fun _ => rfl) s ctx
  keys := rfl
  vague := rfl

theorem touches_touch (s : State) (l : Leaf) : Touches s (s.touch l) := by
  unfold State.touch
  split
  · exact .refl s
  · exact ⟨rfl, rfl, fun _ _ => rfl, fun _ => rfl, rfl, rfl⟩

/-- What an access that is carried out leaves. -/
theorem touches_used (s : State) (ctx va : Nat) (g : Tgt) : Touches s (s.used ctx va g) := by
  unfold State.used
  extract_lets s1
  have h1 : Touches s s1 := by
    unfold s1
    split
    · exact .refl s
    · split
      · exact touches_fillTlb s ctx va _
      · exact .refl s
  exact (h1.trans (touches_fillTlb s1 ctx g.va g.leaf)).trans (touches_touch _ _)

theorem devAccess_storeOpen (s : State) (ctx : Nat) (g : Tgt) (bs : List Byte) (p : Bool) :
    DevAccess s (storeOpen s ctx g bs p) := devAccess_writeTgt s none none ctx g bs p

/-- The device's accesses bind no grid and change no descriptor. -/
theorem DevAccess.unbound {va : Nat} (h : DevAccess s t)
    (hs : ∀ r ∈ gridsOf s ctx, r.2.bound = true → r.2.desc.shapeAddr.toNat ≠ va) :
    ∀ r ∈ gridsOf t ctx, r.2.bound = true → r.2.desc.shapeAddr.toNat ≠ va := by
  obtain ⟨l, hl⟩ := h.grids
  intro r hr
  obtain ⟨e, he, rfl⟩ := List.mem_map.mp hr
  rw [List.mem_filter, hl] at he
  obtain ⟨he, hc⟩ := he
  obtain ⟨e', he', rfl⟩ := List.mem_map.mp he
  exact hs (e'.1 % 2 ^ 24, e'.2) (List.mem_map.mpr ⟨e', List.mem_filter.mpr ⟨he', hc⟩, rfl⟩)

/-- The resolution of a shape word that no bound grid waits on (R98, R100): the word is written, and a repeat counted. -/
theorem resolveWord_unbound {va : Nat} (hs : ∀ r ∈ gridsOf s ctx, r.2.bound = true → r.2.desc.shapeAddr.toNat ≠ va) (x : Nat) :
    let old := fld (leNat (s.mem.bytesUnder (s.keyId ctx) s.free g.key 8)) 63 1 == 1
    let w := storeOpen s ctx g (leBytes 8 (2 ^ 63 + x)) false
    resolveWord s ctx va g x = (if old then countR w ctx evRepeatRes else w, old) := by
  intro old w
  have hw : ∀ r ∈ gridsOf (if old then countR w ctx evRepeatRes else w) ctx, r.2.bound = true →
      r.2.desc.shapeAddr.toNat ≠ va := by
    have hw' := (devAccess_storeOpen s ctx g (leBytes 8 (2 ^ 63 + x)) false).unbound hs
    split_ifs
    · exact hw'
    · exact hw'
  have hf : (gridsOf (if old then countR w ctx evRepeatRes else w) ctx).filter
      (fun e => e.2.bound && e.2.desc.shapeAddr.toNat == va) = [] := by
    rw [List.filter_eq_nil_iff]
    intro r hr hb
    rw [Bool.and_eq_true, beq_iff_eq] at hb
    exact hw r hr hb.1 hb.2
  change (List.foldl (fun s e => reachGrid s ctx e.1 x) (if old then countR w ctx evRepeatRes else w)
    ((gridsOf (if old then countR w ctx evRepeatRes else w) ctx).filter
      fun e => e.2.bound && e.2.desc.shapeAddr.toNat == va), old) = _
  rw [hf]
  rfl

theorem resolveWord_mem {va : Nat} (hs : ∀ r ∈ gridsOf s ctx, r.2.bound = true → r.2.desc.shapeAddr.toNat ≠ va) (x : Nat) :
    (resolveWord s ctx va g x).1.mem = (storeOpen s ctx g (leBytes 8 (2 ^ 63 + x)) false).mem := by
  rw [resolveWord_unbound hs]
  dsimp only
  split_ifs <;> rfl

theorem resolveWord_queue {va : Nat} (hs : ∀ r ∈ gridsOf s ctx, r.2.bound = true → r.2.desc.shapeAddr.toNat ≠ va)
    (x k q : Nat) : (resolveWord s ctx va g x).1.queue k q = s.queue k q := by
  have hq := (devAccess_storeOpen s ctx g (leBytes 8 (2 ^ 63 + x)) false).queue k q
  rw [resolveWord_unbound hs]
  dsimp only
  split_ifs
  · exact (queue_countR _ ctx evRepeatRes k q).trans hq
  · exact hq

/-- What a sector's poison under a key says of it without one. -/
theorem Mem.poisonedUnder_of_clean {m : Mem} {k n : Nat} (h : m.poisonedIn k n = false) (key : Nat) :
    m.poisonedUnder key k n = false := by
  unfold Mem.poisonedIn at h
  unfold Mem.poisonedUnder
  rw [List.any_eq_false] at h ⊢
  intro x hx hp
  rw [Bool.and_eq_true] at hp
  exact h x hx hp.1

/-! ## Replays -/

theorem resumeCopies_leaves (s : State) (wid : Nat) :
    (resumeCopies s wid).mem = s.mem ∧ (resumeCopies s wid).ctxs = s.ctxs ∧ (resumeCopies s wid).dev = s.dev := by
  unfold resumeCopies
  split
  · exact ⟨rfl, rfl, rfl⟩
  · simp

/-- A warp that is woken leaves memory, contexts and the device (R392). -/
theorem wakeFault_leaves (s : State) (wid : Nat) :
    (wakeFault s wid).mem = s.mem ∧ (wakeFault s wid).ctxs = s.ctxs ∧ (wakeFault s wid).dev = s.dev := by
  unfold wakeFault
  split
  · obtain ⟨hm, hc, hd⟩ := resumeCopies_leaves (s.modWarp wid fun w => { w with wait := w.under, under := none }) wid
    exact ⟨hm.trans (by simp), hc.trans (by simp), hd.trans (by simp)⟩
  · simp
  · exact ⟨rfl, rfl, rfl⟩

theorem wakeFaults_leaves (l : List Nat) (s : State) :
    (l.foldl wakeFault s).mem = s.mem ∧ (l.foldl wakeFault s).ctxs = s.ctxs ∧ (l.foldl wakeFault s).dev = s.dev := by
  have h := foldl_keeps (fun s => (s.mem, s.ctxs, s.dev)) (f := wakeFault) (fun s w => by
    obtain ⟨hm, hc, hd⟩ := wakeFault_leaves s w
    simp only [hm, hc, hd]) l s
  simpa only [Prod.mk.injEq] using h

/-- A freed entry leaves the wait table; memory and contexts stay (R392). -/
theorem freeEntry_facts (s : State) (i : Nat) :
    (freeEntry s i).mem = s.mem ∧ (freeEntry s i).ctxs = s.ctxs
      ∧ ∀ j, alook j (freeEntry s i).dev.wt = if j = i then none else alook j s.dev.wt := by
  unfold freeEntry
  split
  next h =>
    refine ⟨rfl, rfl, fun j => ?_⟩
    split_ifs with hj
    · exact hj ▸ h
    · rfl
  next e h =>
    obtain ⟨hm, hc, hd⟩ := wakeFaults_leaves e.parked (s.modDev fun d => { d with wt := adel i d.wt })
    refine ⟨hm, hc, fun j => ?_⟩
    rw [hd]
    split_ifs with hj
    · rw [hj]
      exact alook_adel_self i s.dev.wt
    · exact alook_adel_ne s.dev.wt hj

theorem freeEntries_facts (l : List Nat) (s : State) :
    (l.foldl freeEntry s).mem = s.mem ∧ (l.foldl freeEntry s).ctxs = s.ctxs
      ∧ ∀ j, alook j (l.foldl freeEntry s).dev.wt = if j ∈ l then none else alook j s.dev.wt := by
  induction l generalizing s with
  | nil => exact ⟨rfl, rfl, fun j => (if_neg List.not_mem_nil).symm⟩
  | cons i l ih =>
    obtain ⟨hm, hc, hw⟩ := freeEntry_facts s i
    obtain ⟨hm', hc', hw'⟩ := ih (freeEntry s i)
    refine ⟨hm'.trans hm, hc'.trans hc, fun j => ?_⟩
    rw [List.foldl_cons, hw', hw]
    by_cases hi : j = i
    · simp [hi]
    · simp [hi]

/-- A replay leaves memory and the queues, and the entries it names leave the wait table (R393). -/
theorem replayAll_facts (s : State) (ctx : Nat) (k : ReplayKey) :
    (replayAll s ctx k).mem = s.mem ∧ (∀ n q, (replayAll s ctx k).queue n q = s.queue n q)
      ∧ ∀ i ∈ replayHits s ctx k, alook i (replayAll s ctx k).dev.wt = none := by
  obtain ⟨hm, hc, hw⟩ := freeEntries_facts (replayHits s ctx k) s
  unfold replayAll wakeOverflow
  split
  · exact ⟨hm, queue_of_ctxs hc, fun i hi => (hw i).trans (if_pos hi)⟩
  next c _ =>
    obtain ⟨hm', hc', hd'⟩ := wakeFaults_leaves c.overflow
      (((replayHits s ctx k).foldl freeEntry s).modCtx ctx fun c => { c with overflow := [] })
    refine ⟨hm'.trans hm, fun n q => ?_, fun i hi => ?_⟩
    · exact (queue_of_ctxs hc' n q).trans
        ((queue_modCtx (f := fun c => { c with overflow := [] }) (fun _ => rfl) _ ctx n q).trans (queue_of_ctxs hc n q))
    · rw [hd']
      exact (hw i).trans (if_pos hi)

end

end Sys2Proof.Machine

namespace Sys2Proof
open Machine

section
variable {s s1 s2 t : State} {ctx q k : Nat} {x : Queue} {c : Qcb} {e : QEntry} {bs : List Byte} {g : Tgt}

/-! ## Entries that resolve, replay and signal -/

/-- A SHAPE entry resolves its word (R98). -/
theorem shapeEntry_facts (h : s.queue ctx q = some x) (hx : x.stuck = none) (he : nextAct true x.entries = some e)
    (hk : e.kind = 2) (ha : s.access ctx (fieldOf e.bytes 40 8) s.free ⟨true, false, none⟩ = .ok g)
    (hp : s.mem.poisonedIn g.key 8 = false) (hw : Writable s ctx 8 g)
    (hs : ∀ r ∈ gridsOf s ctx, r.2.bound = true → r.2.desc.shapeAddr.toNat ≠ fieldOf e.bytes 40 8) :
    ∃ t, exec (.shapeEntry ctx q) s = .next t
      ∧ WordSet (s.used ctx (fieldOf e.bytes 40 8) g) t g 8 (2 ^ 63 + fieldOf e.bytes 48 4)
      ∧ t.queue ctx q = some (marked x e.idx true) := by
  have hu := touches_used s ctx (fieldOf e.bytes 40 8) g
  have hs' : ∀ r ∈ gridsOf (s.used ctx (fieldOf e.bytes 40 8) g) ctx, r.2.bound = true →
      r.2.desc.shapeAddr.toNat ≠ fieldOf e.bytes 40 8 := by
    unfold gridsOf
    rw [hu.grids]
    exact hs
  have heq : exec (.shapeEntry ctx q) s = _ := actOn_eq h hx he hk _
  simp only [ha, Mem.poisonedUnder_of_clean hp, Bool.false_eq_true, if_false] at heq
  refine ⟨_, heq, ?_, queue_entryDone ((resolveWord_queue hs' _ ctx q).trans ((hu.queue ctx q).trans h))⟩
  have hword := wordSet_storeOpen (hu.writable hw) (by decide) (2 ^ 63 + fieldOf e.bytes 48 4)
  unfold WordSet
  rw [entryDone_mem, resolveWord_mem hs']
  exact hword

/-- A REPLAY entry frees what it names (R80, R393). -/
theorem replayEntry_facts (h : s.queue ctx q = some x) (hx : x.stuck = none) (he : nextAct true x.entries = some e)
    (hk : e.kind = 3) :
    ∃ t, exec (.replayEntry ctx q) s = .next t ∧ t.mem = s.mem ∧ t.queue ctx q = some (marked x e.idx true)
      ∧ ∀ i ∈ replayHits s ctx (if fieldOf e.bytes 48 1 % 2 = 1 then .token (BitVec.ofNat 32 (fieldOf e.bytes 40 8))
          else .page (fieldOf e.bytes 40 8)), alook i t.dev.wt = none := by
  obtain ⟨hm, hq, hw⟩ := replayAll_facts s ctx (if fieldOf e.bytes 48 1 % 2 = 1
    then .token (BitVec.ofNat 32 (fieldOf e.bytes 40 8)) else .page (fieldOf e.bytes 40 8))
  exact ⟨_, actOn_eq h hx he hk _, hm, queue_entryDone ((hq ctx q).trans h), hw⟩

/-- A SIGNAL entry writes its word (R80, R81). -/
theorem signalEntry_facts (h : s.queue ctx q = some x) (hx : x.stuck = none) (he : nextAct true x.entries = some e)
    (hk : e.kind = 5) (ha : s.access ctx (fieldOf e.bytes 40 8) s.free ⟨true, false, none⟩ = .ok g) (hw : Writable s ctx 8 g) :
    ∃ t, exec (.signalEntry ctx q) s = .next t
      ∧ WordSet (s.used ctx (fieldOf e.bytes 40 8) g) t g 8 (fieldOf e.bytes 48 8)
      ∧ t.queue ctx q = some (marked x e.idx true) := by
  have hu := touches_used s ctx (fieldOf e.bytes 40 8) g
  have heq : exec (.signalEntry ctx q) s = _ := actOn_eq h hx he hk _
  simp only [ha] at heq
  refine ⟨_, heq, wordSet_storeOpen (hu.writable hw) (by decide) _, queue_entryDone ?_⟩
  exact ((devAccess_storeOpen _ ctx g _ false).queue ctx q).trans ((hu.queue ctx q).trans h)

/-! ## Completion, restart, stop -/

/-- An entry that is over leaves its queue, and with IRQ the host is told (R81). -/
theorem queueEntryComplete_facts (h : s.queue ctx q = some x) (hk : x.entries[k]? = some e) (ha : e.acted = true)
    (ho : entryOver s ctx e = true) :
    ∃ t, exec (.queueEntryComplete ctx q k) s = .next t ∧ t.mem = s.mem
      ∧ t.queue ctx q = some { x with entries := x.entries.filter fun y => y.idx != e.idx }
      ∧ ∀ y c, fieldOf e.bytes 1 1 / 2 % 2 = 1 → s.qcb ctx q = some (y, c) → HostEvent.msi ctx c.msi ∈ t.dev.events := by
  have hq := queue_modQueue h fun x => { x with entries := x.entries.filter fun y => y.idx != e.idx }
  have heq : exec (.queueEntryComplete ctx q k) s = execQueueEntryComplete ctx q k s := rfl
  simp only [execQueueEntryComplete, h, hk, ha, ho, Bool.not_true, Bool.or_false, Bool.false_eq_true, if_false] at heq
  refine ⟨_, heq, ?_, ?_, fun y c hi hc => ?_⟩
  · split <;> rfl
  · split
    · exact hq
    · exact hq
  · simp only [if_pos hi, hc]
    exact mem_events_hostEvent _ _

/-- A queue that is restarted has SKIP and QSTATE cleared, and its failed entry goes on (R79). -/
theorem queueRestart_eq (skip : Bool) (h : s.qcb ctx q = some (x, c))
    (h1 : s.devWrite ctx (x.qcb.toNat + 0x54) (leBytes 4 (c.err - c.err / 2 ^ 24 % 2 * 2 ^ 24)) = some s1)
    (h2 : s1.devWrite ctx (x.qcb.toNat + 0x53) (leBytes 1 0) = some s2) :
    exec (.queueRestart ctx q skip) s = .next (resumeStuck s2 ctx q (skip || c.err / 2 ^ 24 % 2 == 1)) := by
  change execQueueRestart ctx q skip s = _
  simp only [execQueueRestart, h]
  have hb : fld c.err 24 1 = c.err / 2 ^ 24 % 2 := rfl
  rw [hb, putQcb_of_devWrite h1, putQcb_of_devWrite h2]

theorem resumeStuck_mem (s : State) (ctx q : Nat) (skips : Bool) : (resumeStuck s ctx q skips).mem = s.mem := by
  unfold resumeStuck
  split
  · rfl
  · cases skips <;> rfl

theorem resumeStuck_of_running (skips : Bool) (h : s.queue ctx q = some x) (hx : x.stuck = none) :
    resumeStuck s ctx q skips = s := by
  simp only [resumeStuck, h, Option.bind_some, hx]

/-- A queue held on an entry goes on: past the entry, or at the entry again (R79). -/
theorem queue_resumeStuck {i : Nat} (skips : Bool) (h : s.queue ctx q = some x) (hx : x.stuck = some i) :
    (resumeStuck s ctx q skips).queue ctx q = some (if skips then marked { x with stuck := none } i true else
      { x with stuck := none, entries := x.entries.map fun y => if y.idx = i then { y with acted := false } else y }) := by
  have hq := queue_modQueue h fun x => { x with stuck := none }
  simp only [resumeStuck, h, Option.bind_some, hx]
  cases skips
  · exact queue_modQueue hq _
  · exact queue_entryDone hq

/-! ## Proxy queues -/

theorem devAccess_putEntries (ctx : Nat) (c : Qcb) (i : Nat) (l : List (List Byte)) (s : State) :
    DevAccess s (putEntries ctx c i l s) := by
  induction l generalizing i s with
  | nil => exact .refl s
  | cons b l ih => exact (devAccess_devPut s ctx (c.slotAddr i) b).trans (ih (i + 1) _)

/-- Entries gathered in a proxy queue reach the true queue (R83). -/
theorem forward_facts {due : Qcb → Queue → Bool} (h : s.qcb ctx q = some (x, c)) (hk : c.kind = 3) (hs : c.state = 0)
    (hd : due c x = true) (hr : s.devRead ctx c.peer 128 = some bs) (hp : (qcbOf bs).state = 0)
    {n : Nat} (hn : min (min 64 (c.tail - c.head)) ((qcbOf bs).head + 2 ^ (qcbOf bs).log2 - (qcbOf bs).tail) = n) (h0 : 0 < n) :
    (forward s ctx q due).queue ctx q = some { x with
        lastGather := s.dev.now, banks := if c.tail = c.head + n then [] else x.banks }
      ∧ (forward s ctx q due).mem = (((putEntries ctx (qcbOf bs) (qcbOf bs).tail ((List.range n).map fun j =>
          (alook (c.slot (c.head + j)) x.slots).getD (List.replicate 64 0)) s).devPut ctx c.peer
            (leBytes 8 ((qcbOf bs).tail + n))).devPut ctx (x.qcb.toNat + 0x40) (leBytes 8 (c.head + n))).mem := by
  have hgo : ¬ (n = 0 ∨ (qcbOf bs).state ≠ 0) := by omega
  have hrun : (decide (c.kind ≠ 3) || c.state != 0 || !due c x) = false := by simp [hk, hs, hd]
  simp only [forward, h, hrun, Bool.false_eq_true, if_false, hr, hn]
  rw [if_neg hgo]
  refine ⟨queue_modQueue ((DevAccess.queue ?_ ctx q).trans (queue_of_qcb h)) _, rfl⟩
  exact ((devAccess_putEntries ctx (qcbOf bs) (qcbOf bs).tail _ s).trans (devAccess_devPut _ ctx c.peer _)).trans
    (devAccess_putQcb _ ctx x 0x40 (leBytes 8 (c.head + n)))

end

end Sys2Proof

/-! ## Launches -/

namespace Sys2Proof.Machine

section
variable {s t : State} {ctx q idx gid : Nat} {x : Queue} {d : Desc} {im : Image} {e : QEntry} {z : Ctx}

theorem devAccess_launchTouched (s : State) (ctx a : Nat) (d : Desc) (img : Option (List Byte × Image)) :
    DevAccess s (launchTouched s ctx a d img) := by
  unfold launchTouched
  extract_lets s1 s2 s3
  have h1 : DevAccess s s1 := (devAccess_devTouch s ctx a 128).trans (devAccess_devTouch _ ctx _ 64)
  have h2 : DevAccess s s2 := by
    unfold s2
    split
    · exact h1
    · exact ((h1.trans (devAccess_devTouch _ ctx _ 64)).trans (devAccess_devTouch _ ctx _ _)).trans
        (devAccess_devTouch _ ctx _ _)
  have h3 : DevAccess s s3 := by
    unfold s3
    split
    · exact h2
    · exact h2.trans (devAccess_devTouch _ ctx _ 4096)
  split
  · exact h3.trans (devAccess_devTouch _ ctx _ 8)
  · exact h3

/-- An entry that no block pushed by `launch` (R93). -/
theorem pusherOf_none (h : s.queue ctx q = some x) (hp : alook idx x.pushers = none) : pusherOf s ctx q idx = (none, false) := by
  simp only [pusherOf, h, Option.bind_some, hp]

theorem settleChild_none (h : s.queue ctx q = some x) (hp : alook idx x.pushers = none) (gid : Option Nat) :
    settleChild s ctx q idx gid = s.modQueue ctx q fun x => { x with pushers := adel idx x.pushers } := by
  simp only [settleChild, pusherOf_none h hp]

/-- The record of a grid whose launch fails (R88). -/
def failedGrid (s : State) (ctx q idx : Nat) (d : Desc) (im : Image) (code : Nat) : Grid :=
  { newGrid s ctx 0 d im none (q, idx) with status := .failed, failcode := code, fin := timeForm s.ptp, params := [] }

/-- A launch that fails writes its record, and its entry is done (R88). -/
theorem failLaunch_facts (h : s.queue ctx q = some x) (hp : alook idx x.pushers = none) (d : Desc) (im : Image) (code : Nat) :
    let t := failLaunch s ctx q idx d im code
    t.grids = (s.devPut ctx d.completion.toNat (failedGrid s ctx q idx d im code).recordBytes).grids
      ∧ t.mem = (s.devPut ctx d.completion.toNat (failedGrid s ctx q idx d im code).recordBytes).mem
      ∧ t.queue ctx q = some (marked { x with pushers := adel idx x.pushers } idx true) := by
  intro t
  have hacc := devAccess_devPut s ctx d.completion.toNat (failedGrid s ctx q idx d im code).recordBytes
  have hq := (hacc.queue ctx q).trans h
  have ht : t = entryDone (settleChild (s.devPut ctx d.completion.toNat (failedGrid s ctx q idx d im code).recordBytes)
    ctx q idx none) ctx q idx := rfl
  rw [ht, settleChild_none hq hp]
  exact ⟨rfl, rfl, queue_entryDone (queue_modQueue hq _)⟩

theorem freeGid_of_free (hi : idx < 2 ^ 24) (h : s.grid ctx idx = none) : ∀ n, freeGid s ctx n idx = idx
  | 0 => Nat.mod_eq_of_lt hi
  | n + 1 => by simp only [freeGid, Nat.mod_eq_of_lt hi, h]

theorem ctx_modCtx_self {f : Ctx → Ctx} (h : s.ctx ctx = some z) : (s.modCtx ctx f).ctx ctx = some (f z) := by
  rw [State.ctx_modCtx, if_pos rfl, h, Option.map_some]

/-- What counting a lossless request leaves (R415). -/
theorem countLossless_facts (h : s.ctx ctx = some z) (d : Desc) :
    (countLossless s ctx d).grids = s.grids ∧ ∃ z', (countLossless s ctx d).ctx ctx = some z' ∧ z'.gidNext = z.gidNext := by
  unfold countLossless
  split
  · exact ⟨rfl, _, ctx_modCtx_self h, rfl⟩
  · exact ⟨rfl, z, h, rfl⟩

/-- A grid with blocks to start is not over (R91). -/
theorem gridCheck_of_unstarted {g : Grid} (h : s.grid ctx gid = some g) (hn : g.next < g.last) : gridCheck s ctx gid = s := by
  have ho : gridOver s ctx gid g = false := by
    simp only [gridOver, Nat.not_le.mpr hn, decide_false, Bool.and_false, Bool.false_and]
  simp only [gridCheck, h, ho, Bool.and_false, Bool.false_eq_true, if_false]

/-- A grid as a LAUNCH entry that no block pushed registers it (R91). -/
def freshGrid (s : State) (ctx q qprio : Nat) (e : QEntry) (d : Desc) (im : Image) : Grid :=
  { newGrid s ctx qprio d im none (q, e.idx) with agedFrom := e.heldAt.getD s.ptp }

/-- A grid entered under an identifier, its entry acted on and pending no more. -/
def entered (s : State) (ctx q gid : Nat) (e : QEntry) (g : Grid) : State :=
  modEntry ((({ s with grids := aput (gridKey ctx gid) g s.grids } : State).modCtx ctx
    fun c => { c with gidNext := (gid + 1) % 2 ^ 24 }).modQueue ctx q fun x => { x with pushers := adel e.idx x.pushers })
    ctx q e.idx fun x => { x with acted := true, grid := some gid }

theorem entered_grid (s : State) (ctx q gid : Nat) (e : QEntry) (g : Grid) : (entered s ctx q gid e g).grid ctx gid = some g :=
  alook_aput_self (gridKey ctx gid) g s.grids

theorem entered_ctx (hz : s.ctx ctx = some z) (q gid : Nat) (e : QEntry) (g : Grid) :
    ∃ z', (entered s ctx q gid e g).ctx ctx = some z' ∧ z'.gidNext = (gid + 1) % 2 ^ 24 :=
  ⟨_, ctx_modCtx_self (ctx_modCtx_self (ctx_modCtx_self hz)), rfl⟩

/-- What a grid newly entered becomes as its record is written, its lossless request counted and its end looked for. -/
theorem gridCheck_entered {g : Grid} (hg : s.grid ctx gid = some g) (hn : g.next < g.last) (hz : s.ctx ctx = some z) (d : Desc) :
    let t := gridCheck (countLossless (writeRecord s ctx gid) ctx d) ctx gid
    ∃ l z', t.grid ctx gid = some (g.noted l) ∧ t.ctx ctx = some z' ∧ z'.gidNext = z.gidNext := by
  intro t
  have hacc : DevAccess s (writeRecord s ctx gid) := by
    simp only [writeRecord, hg]
    exact devAccess_devPut s ctx _ _
  obtain ⟨hgs, z', hz', hnext⟩ := countLossless_facts ((hacc.ctx ctx).trans hz) d
  obtain ⟨l, hl⟩ := hacc.grid
  have hg' : (countLossless (writeRecord s ctx gid) ctx d).grid ctx gid = some (g.noted l) := by
    rw [State.grid, hgs, hl]
    exact congrArg (Option.map (Grid.noted l)) hg
  have ht : t = countLossless (writeRecord s ctx gid) ctx d := gridCheck_of_unstarted hg' hn
  exact ⟨l, z', ht ▸ hg', ht ▸ hz', hnext⟩

/-- The registration of a grid that is not provisional and that no block pushed (R84, R91, R193). -/
theorem registerGrid_eq (qprio : Nat) (hz : s.ctx ctx = some z) (hq : s.queue ctx q = some x)
    (hp : alook e.idx x.pushers = none) (hd : d.provisional = false) (hi : z.gidNext < 2 ^ 24)
    (hg : s.grid ctx z.gidNext = none) :
    registerGrid s ctx q e qprio d im = gridCheck (countLossless (writeRecord (entered s ctx q z.gidNext e
      (freshGrid s ctx q qprio e d im)) ctx z.gidNext) ctx d) ctx z.gidNext := by
  have hq1 (g : Grid) : (({ s with grids := aput (gridKey ctx z.gidNext) g s.grids } : State).modCtx ctx
      fun c => { c with gidNext := (z.gidNext + 1) % 2 ^ 24 }).queue ctx q = some x :=
    (queue_modCtx (f := fun c => { c with gidNext := (z.gidNext + 1) % 2 ^ 24 }) (fun _ => rfl) _ ctx ctx q).trans hq
  simp only [registerGrid, hz, freeGid_of_free hi hg, pusherOf_none hq hp, Bool.false_and, Bool.false_eq_true, if_false,
    settleChild_none (hq1 _) hp, shapeAtReg, hd, Bool.not_false, if_true]
  rfl

end

end Sys2Proof.Machine

namespace Sys2Proof
open Machine

section
variable {s : State} {ctx q : Nat} {x y : Queue} {c : Qcb} {e : QEntry} {bs k : List Byte} {im : Image} {z : Ctx}

/-- A LAUNCH entry that fails a check (R88). -/
theorem launchEntry_fails {code : Nat} (h : s.queue ctx q = some x) (hx : x.stuck = none) (he : nextAct true x.entries = some e)
    (hk : e.kind = 1) (hd : entryDesc s ctx e.bytes = some bs) (hc : s.qcb ctx q = some (y, c))
    (hcode : failCode s ctx bs (descOf bs) (readImage s ctx (descOf bs)) = code) (h0 : code ≠ 0)
    (hp : alook e.idx x.pushers = none) :
    ∃ (t : State) (g : Grid), exec (.launchEntry ctx q) s = .next t ∧ GridsKept s t ∧ g.status = .failed ∧ g.failcode = code
      ∧ t.mem = ((launchTouched s ctx (fieldOf e.bytes 40 8) (descOf bs) (readImage s ctx (descOf bs))).devPut ctx
          (descOf bs).completion.toNat g.recordBytes).mem
      ∧ t.queue ctx q = some (marked { x with pushers := adel e.idx x.pushers } e.idx true) := by
  have hacc := devAccess_launchTouched s ctx (fieldOf e.bytes 40 8) (descOf bs) (readImage s ctx (descOf bs))
  have hq := (hacc.queue ctx q).trans h
  obtain ⟨n, rfl⟩ := Nat.exists_eq_succ_of_ne_zero h0
  have heq : exec (.launchEntry ctx q) s = _ := actOn_eq h hx he hk _
  simp only [hd, hc, hcode, Nat.succ_ne_zero, if_false] at heq
  obtain ⟨hg, hm, hqt⟩ := failLaunch_facts hq hp (descOf bs) _ (n + 1)
  refine ⟨_, _, heq, fun i => ?_, rfl, rfl, hm, hqt⟩
  rw [hg]
  exact (hacc.trans (devAccess_devPut _ ctx _ _)).gridsKept i

/-- A LAUNCH entry that passes the checks registers its grid (R84, R91). -/
theorem launchEntry_registers (h : s.queue ctx q = some x) (hx : x.stuck = none) (he : nextAct true x.entries = some e)
    (hk : e.kind = 1) (hd : entryDesc s ctx e.bytes = some bs) (hc : s.qcb ctx q = some (y, c)) (hz : s.ctx ctx = some z)
    (hi : readImage s ctx (descOf bs) = some (k, im)) (hcode : failCode s ctx bs (descOf bs) (some (k, im)) = 0)
    (hprov : (descOf bs).provisional = false) (ht : 0 < (descOf bs).total) (hp : alook e.idx x.pushers = none)
    (hn : z.gidNext < 2 ^ 24) (hg : s.grid ctx z.gidNext = none) :
    ∃ t g z', exec (.launchEntry ctx q) s = .next t ∧ t.grid ctx z.gidNext = some g ∧ g.desc = descOf bs
      ∧ { g.image with constStored := im.constStored } = im
      ∧ g.status = .pending ∧ g.next = 0 ∧ g.last = (descOf bs).total
      ∧ t.ctx ctx = some z' ∧ z'.gidNext = (z.gidNext + 1) % 2 ^ 24 := by
  have hacc := devAccess_launchTouched s ctx (fieldOf e.bytes 40 8) (descOf bs) (some (k, im))
  have heq : exec (.launchEntry ctx q) s = _ := actOn_eq h hx he hk _
  simp only [hd, hc, hi, hcode, hprov, Bool.false_and, Bool.false_eq_true, if_false] at heq
  have hg' : (launchTouched s ctx (fieldOf e.bytes 40 8) (descOf bs) (some (k, im))).grid ctx z.gidNext = none := by
    obtain ⟨l, hl⟩ := hacc.grid
    exact (hl (gridKey ctx z.gidNext)).trans (congrArg (Option.map (Grid.noted l)) hg)
  rw [registerGrid_eq c.prio ((hacc.ctx ctx).trans hz) ((hacc.queue ctx q).trans h) hp hprov hn hg'] at heq
  obtain ⟨z1, hz1, hn1⟩ := entered_ctx ((hacc.ctx ctx).trans hz) q z.gidNext e
    (freshGrid (launchTouched s ctx (fieldOf e.bytes 40 8) (descOf bs) (some (k, im))) ctx q c.prio e (descOf bs) im)
  obtain ⟨l, z2, hgt, hzt, hnt⟩ := gridCheck_entered (entered_grid _ ctx q z.gidNext e _) ht hz1 (descOf bs)
  exact ⟨_, _, z2, heq, hgt, rfl, rfl, rfl, rfl, rfl, hzt, hnt.trans hn1⟩

end

end Sys2Proof

namespace Sys2Proof
open Machine

/-! ## The clauses of O50 -/

/-- Settles O50, clause by clause: what the device's accesses leave (`DevAccess`) carries the queue's record past them, and each
event is the equation of its function in the case that the clause names. -/
theorem queueEvents : Obligations.QueueEvents := by
  unfold Obligations.QueueEvents
  refine ⟨?tail, ?consume, ?work, ?act, ?complete, ?restart, ?stop, ?forward⟩
  case tail =>
    intro s ctx q x c h hs bad
    refine ⟨fun hb => ⟨_, (queueTailObserve_eq h hs).trans (congrArg _ (if_neg hb)), rfl, ?_⟩, fun s1 hb hw => ?_⟩
    · exact queue_modQueue (((devAccess_devTouch s ctx x.qcb.toNat 128).queue ctx q).trans (queue_of_qcb h)) _
    · exact ⟨_, (queueTailObserve_eq h hs).trans (congrArg _ (if_pos hb)), queueError_facts hw⟩
  case consume =>
    intro s ctx q x c bs h hk hs hh hx ha hr
    have heq := queueEntryConsume_eq h hk hs hh hx ha hr
    refine ⟨fun s1 he hp hw => ?_, fun he => heq.trans (congrArg _ (if_pos he))⟩
    rw [if_neg (not_not.mpr he), putQcb_of_devWrite hw, withdraw_of_unpushed hp] at heq
    refine ⟨_, heq, rfl, queue_modQueue ?_ _⟩
    exact (((devAccess_devTouch s ctx _ 64).trans (devAccess_devWrite hw)).queue ctx q).trans (queue_of_qcb h)
  case work =>
    intro s ctx q x c bs h hk hs ht hr he
    have hw := workError_of_read hk ht hr
    rw [← hw] at he ⊢
    exact queueEntryConsume_workError h hs he
  case act =>
    intro s ctx q x e h hx he a
    refine ⟨fun y c bs code hk hd hc _ hcode h0 hp => launchEntry_fails h hx he hk hd hc hcode h0 hp, ?_, ?_, ?_, ?_, ?_⟩
    · exact fun y c bs k im z hk hd hc hz hi hcode hprov ht hp hn hg =>
        launchEntry_registers h hx he hk hd hc hz hi hcode hprov ht hp hn hg
    · exact fun g hk ha hp hw hs => shapeEntry_facts h hx he hk ha hp hw hs
    · exact fun hk => replayEntry_facts h hx he hk
    · exact fun bs hk hr => waitcEntry_facts h hx he hk hr
    · exact fun g hk ha hw => signalEntry_facts h hx he hk ha hw
  case complete => exact fun s ctx q k x e h hk ha ho => queueEntryComplete_facts h hk ha ho
  case restart =>
    intro s ctx q x c skip s1 s2 h h1 h2
    have hq : s2.queue ctx q = some x :=
      (((devAccess_devWrite h1).trans (devAccess_devWrite h2)).queue ctx q).trans (queue_of_qcb h)
    refine ⟨_, queueRestart_eq skip h h1 h2, resumeStuck_mem s2 ctx q _, fun hx => ?_, fun i hx hskip => ?_, fun i hx h0 hb => ?_⟩
    · rw [resumeStuck_of_running _ hq hx]
      exact hq
    · have : (skip || c.err / 2 ^ 24 % 2 == 1) = true := by simpa using hskip
      rw [queue_resumeStuck _ hq hx, this, if_pos rfl]
    · have : (skip || c.err / 2 ^ 24 % 2 == 1) = false := by rw [h0, hb]; rfl
      rw [queue_resumeStuck _ hq hx, this]
      rfl
  case stop =>
    intro s ctx q x s1 h hw
    change execQueueStop ctx q s = _
    simp only [execQueueStop, h, putQcb_of_devWrite hw]
  case forward =>
    intro s ctx q x c bs i h hk hs hr p n hp hn hi
    rcases hi with ⟨rfl, hd⟩ | ⟨rfl, hd, hl⟩
    · exact ⟨_, rfl, forward_facts h hk hs (decide_eq_true hd) hr hp rfl hn⟩
    · exact ⟨_, rfl, forward_facts h hk hs (by simp [hd, hl]) hr hp rfl hn⟩

end Sys2Proof

/-! ## The warp a word completes on -/

namespace Sys2Proof.Machine

section
variable {s t : State} {it : Iss}

/-- The warp of a word that acts: as it issued, but for what was noted of it, stores that have left and loads replayed. -/
def AsIssued (it : Iss) (s : State) : Prop := ∃ n b r p, s.warp it.wid = some ((it.w.atIssue n).drained b r p)

theorem asIssued_of_issuing {i : Instr} {s0 : State} (h : issuing i s = some (it, s0)) : AsIssued it s0 := warp_started h

namespace AsIssued

theorem mapped (h : AsIssued it s) (ht : ∃ b r p, t.warp it.wid = (s.warp it.wid).map (Warp.drained b r p)) : AsIssued it t := by
  obtain ⟨n, b, r, p, hw⟩ := h
  obtain ⟨b', r', p', hw'⟩ := ht
  exact ⟨n, b', r', p', hw'.trans (congrArg (Option.map (Warp.drained b' r' p')) hw)⟩

theorem drains (h : AsIssued it s) (d : Drains s t) : AsIssued it t := h.mapped (d.warps it.wid)

theorem devAccess (h : AsIssued it s) (d : DevAccess s t) : AsIssued it t := h.mapped (d.warps it.wid)

theorem of_warps (h : AsIssued it s) (e : t.warps = s.warps) : AsIssued it t := by
  obtain ⟨n, b, r, p, hw⟩ := h
  exact ⟨n, b, r, p, (State.warp_of_warps_eq e it.wid).trans hw⟩

end AsIssued

/-- Releases clear registers alone, whatever the warp's stores, reservations and loads are. -/
theorem releases_drained (w : Warp) (b : List Buffered) (r : Sparse Nat) (p : List Pend) (i : Instr) (m : Word) :
    (w.drained b r p).releases i m = (w.releases i m).drained b r p := by
  have one (w : Warp) (x : Nat) : (w.drained b r p).vrelease x m = (w.vrelease x m).drained b r p := by
    unfold Warp.vrelease Warp.drained Warp.vget
    simp only
    split <;> rfl
  have fold (xs : List Nat) (w : Warp) : xs.foldl (fun w x => w.vrelease x m) (w.drained b r p)
      = (xs.foldl (fun w x => w.vrelease x m) w).drained b r p := by
    induction xs generalizing w with
    | nil => rfl
    | cons x xs ih => simp only [List.foldl_cons, one, ih]
  unfold Warp.releases
  split
  next q x _ _ =>
    have e : (w.drained b r p).uguard q.o.guard = w.uguard q.o.guard := rfl
    by_cases h : (x.uguard && !w.uguard q.o.guard) = true
    · simp only [e, h, if_true]
    · simp only [e, h]
      exact fold _ w
  · rfl

/-- A word as it finds its warp once stores have left. -/
def Iss.drained (it : Iss) (b : List Buffered) (r : Sparse Nat) (p : List Pend) : Iss := { it with w := it.w.drained b r p }

theorem vget_baseOf_drained (it : Iss) (b : List Buffered) (r : Sparse Nat) (p : List Pend) (x l : Nat) :
    (baseOf (it.drained b r p)).vget x l = (baseOf it).vget x l :=
  vget_congr (congrArg Warp.v (releases_drained it.w b r p it.instr it.w.run.mask)) x l

theorem destWritten_of_drained {b : List Buffered} {r : Sparse Nat} {p : List Pend} {w : Warp} {n : Nat} {out : Nat → Nat → PWord}
    (h : DestWritten (it.drained b r p) w n out) : DestWritten it w n out := by
  unfold DestWritten at h ⊢
  simp only [vget_baseOf_drained] at h
  exact h

/-- A word that completes changes its warp alone: releases, its writes, the next word. -/
theorem commit_asIssued (h : AsIssued it s) (f : Warp → Warp) :
    OnlyWarp it.wid s (commit it s f) ∧ ∃ w0 w1, s.warp it.wid = some w0 ∧ (commit it s f).warp it.wid = some (f w1).advance
      ∧ WarpKept w0 w1 ∧ w1.s = it.w.s ∧ w1.p = it.w.p ∧ w1.q = it.w.q ∧ w1.run = it.w.run ∧ w1.clause = it.w.clause := by
  obtain ⟨n, b, r, p, hw⟩ := h
  obtain ⟨ho, hc⟩ := commit_facts (it := it.drained b r p) (now := n) hw f
  obtain ⟨hk, -, hs, hp, hq, -, -, hr, hcl⟩ := atWrites_facts (it.drained b r p) n
  exact ⟨ho, _, _, hw, hc, warpKept_atIssue hk, hs, hp, hq, hr, hcl⟩

/-- A word that writes one value per active lane computes it. -/
theorem computes_asIssued (h : AsIssued it s) (t : Ty) (f : Nat → PV) :
    Computes it s (commit it s fun w => w.dput t it.o.d it.act f) (tw t) (wordsOf f) 0 := by
  obtain ⟨n, b, r, p, hw⟩ := h
  obtain ⟨ho, w, w', h0, h1, hk, hpend, hrun, hf, hp, hq, hd⟩ := value_computes (it := it.drained b r p) (now := n) hw t f
  exact ⟨ho, w, w', h0, h1, hk, hpend, hrun, hf, hp, hq, destWritten_of_drained hd⟩

theorem delivers_of_computes {n fl : Nat} {out : Nat → Nat → PWord} (h : Computes it s t n out fl) : Delivers it t n out :=
  let ⟨_, _, w', _, ht, _, _, hrun, _, hp, hq, hd⟩ := h
  ⟨w', ht, hrun, hp, hq, hd⟩

/-- A word that parks keeps its place. -/
theorem parkWait_asIssued (h : AsIssued it s) (x : Wait) :
    WarpBecomes it s (parkWait s it.wid x) fun w' => w'.run = it.w.run ∧ w'.wait = some x := by
  obtain ⟨n, b, r, p, hw⟩ := h
  exact ⟨onlyWarp_modWarp it.wid s _, _, warp_modWarp_some hw _, rfl, rfl⟩

theorem opsClean_of_clean {os : List (Ty × Opd)} (h : ∀ o ∈ os, (it.src o.1 o.2 0).pois = false) (s k : State) :
    opsClean it s os k = k := by
  have : (os.any fun o => (it.src o.1 o.2 0).pois) = false := by
    rw [List.any_eq_false]
    intro o ho
    rw [h o ho]
    decide
  simp only [opsClean, this, Bool.false_eq_true, if_false]

end

end Sys2Proof.Machine

namespace Sys2Proof.Machine

section
variable {s t s1 s2 : State} {it : Iss} {q : Nat} {x : Queue} {c : Qcb} {bs : List Byte} {wait : Bool}

/-! ## Pushes -/

theorem drains_pushReady (s : State) (wid ctx q : Nat) (bs : List Byte) : Drains s (pushReady s wid ctx q bs) := by
  unfold pushReady flushRegions
  split
  · exact drains_flushSome s wid _
  · exact .refl s

theorem drains_writeBack (s : State) (core : Nat) (rs : List (Nat × Nat)) : Drains s (writeBack s core rs) := by
  unfold writeBack
  split
  · exact .refl s
  · exact drains_landDirty s core _

theorem any_pois_eq_false {l : List PWord} (h : ∀ x ∈ l, x.pois = false) : l.any PWord.pois = false := by
  rw [List.any_eq_false]
  intro x hx
  rw [h x hx]
  decide

/-- The state after a push finds the issuing warp as it issued. -/
theorem asIssued_pushed (h : AsIssued it s) {k m : Nat} {bs' : List Byte} (h1 : (pushBase it s x bs).devWrite it.ctx k bs = some s1)
    (h2 : s1.devWrite it.ctx m bs' = some s2) : AsIssued it s2 :=
  (((h.devAccess (devAccess_devTouch s it.ctx _ 128)).drains (drains_writeBack _ it.core _)).devAccess
    (devAccess_devWrite h1)).devAccess (devAccess_devWrite h2)

/-- A push to a full queue waits, or answers 2 (R362). -/
theorem pushOrWait_full (hf : c.head + 2 ^ c.log2 ≤ c.tail) (s : State) (k : State → State) :
    pushOrWait it s wait (q, x, c) bs k = if wait then parkWait s it.wid .queue
      else commit it s fun w => w.dput .b32 it.o.d it.act fun _ => ⟨2, false⟩ := by
  have hr : c.room = false := decide_eq_false (Nat.not_lt.mpr hf)
  simp only [pushOrWait, pushRoom, hr, Bool.false_and, Bool.not_false, if_true]

/-- A push that finds room writes the entry, then TAIL, and answers 0 (R362). -/
theorem pushOrWait_room (hf : c.tail < c.head + 2 ^ c.log2) (hk : c.kind ≠ 3) (k : State → State)
    (h1 : (pushBase it s x bs).devWrite it.ctx (c.base + 64 * (c.tail % 2 ^ c.log2)) bs = some s1)
    (h2 : s1.devWrite it.ctx x.qcb.toNat (leBytes 8 (c.tail + 1)) = some s2) :
    pushOrWait it s wait (q, x, c) bs k = commit it (k s2) fun w => w.dput .b32 it.o.d it.act fun _ => ⟨0, false⟩ := by
  have hr : pushRoom s it.ctx it.core x c = true := by
    simp only [pushRoom, Qcb.room, hf, decide_true, bne_iff_ne.mpr hk, Bool.true_or, Bool.and_self]
  have hp : pushEntry s it.ctx it.blk it.core q x c bs = some s2 := by
    simp only [pushEntry, if_neg hk]
    exact (congrArg (Option.bind · _) h1).trans h2
  simp only [pushOrWait, hr, Bool.not_true, Bool.false_eq_true, if_false, hp]

/-- What a push answers on a full queue. -/
theorem pushOrWait_full_computes (h : AsIssued it s) (hf : c.head + 2 ^ c.log2 ≤ c.tail) (k : State → State) :
    Computes it s (pushOrWait it s false (q, x, c) bs k) 1 (wordsOf fun _ => ⟨2, false⟩) 0 := by
  rw [pushOrWait_full hf]
  exact computes_asIssued h .b32 _

theorem pushOrWait_full_parks (h : AsIssued it s) (hf : c.head + 2 ^ c.log2 ≤ c.tail) (k : State → State) :
    WarpBecomes it s (pushOrWait it s true (q, x, c) bs k) fun w' => w'.run = it.w.run ∧ w'.wait = some .queue := by
  rw [pushOrWait_full hf]
  exact parkWait_asIssued h .queue

/-- What a `qpush` comes to once its operands are clean and its path's stores have left (R361). -/
def qpushOn (it : Iss) (wait : Bool) (bs : List Byte) (s : State) : State :=
  match queueOpd it s it.o.b [1, 2, 3] with
  | none => raise it s .queue 0 it.act 0
  | some t => if pushRefused t.2.2 bs then raise it s .queue 0 it.act 0 else pushOrWait it s wait t bs id

theorem qpush_eq {o : Opnds} {s0 : State} (hi : issuing (.qpush o wait) s = some (it, s0)) (ha : it.act ≠ 0)
    (hx : ∀ x ∈ it.uniRange it.o.a 16, x.pois = false) (hb : (it.src .n32 it.o.b 0).pois = false) :
    let bs := (it.uniRange it.o.a 16).flatMap fun x => leBytes 4 x.val.toNat
    exec (.qpush o wait) s = .next (qpushOn it wait bs (pushReady s0 it.wid it.ctx (num it .n32 it.o.b 0) bs)) := by
  intro bs
  refine (issue_eq hi _).trans (congrArg _ ?_)
  simp only [if_neg ha, any_pois_eq_false hx, hb, Bool.or_self, Bool.false_eq_true, if_false]
  rfl

/-- What a `launch` comes to once its operands are clean and its path's stores have left (R361, R363). -/
def launchOn (it : Iss) (wait : Bool) (bs : List Byte) (s : State) : State :=
  match queueOpd it s it.o.c [1, 3] with
  | none => raise it s .queue 0 it.act 0
  | some t =>
    if 10 ≤ (match s.gridOfWarp it.wid with | some g => g.depth | none => 1)
    then commit it s fun w => w.dput .b32 it.o.d it.act fun _ => ⟨1, false⟩
    else pushOrWait it s wait t bs fun s =>
      if t.2.2.kind = 1 then childPushed s it.ctx t.1 it.blk t.2.2.tail bs else s

theorem launch_eq {o : Opnds} {nreg : Fin 5} {barrier irq : Bool} {s0 : State}
    (hi : issuing (.launch o nreg wait barrier irq) s = some (it, s0)) (ha : it.act ≠ 0)
    (hd : (it.src .b64 it.o.a 0).pois = false) (hx : ∀ x ∈ it.uniRange it.o.b (2 * nreg.val), x.pois = false)
    (hc : (it.src .n32 it.o.c 0).pois = false) :
    let bs := launchBytes (barrier.toNat + 2 * irq.toNat) nreg.val (it.uniRange it.o.b (2 * nreg.val)) (it.src .b64 it.o.a 0).v
    exec (.launch o nreg wait barrier irq) s
      = .next (launchOn it wait bs (pushReady s0 it.wid it.ctx (num it .n32 it.o.c 0) bs)) := by
  intro bs
  refine (issue_eq hi _).trans (congrArg _ ?_)
  simp only [if_neg ha, any_pois_eq_false hx, hd, hc, Bool.or_self, Bool.false_eq_true, if_false]
  rfl

theorem childPushed_facts (s : State) (ctx q bn idx : Nat) (bs : List Byte) :
    (childPushed s ctx q bn idx bs).mem = s.mem ∧ (childPushed s ctx q bn idx bs).warps = s.warps
      ∧ ∀ b, s.block bn = some b →
        (childPushed s ctx q bn idx bs).block bn = some { b with children := b.children ++ [(q + 1, idx)] } := by
  refine ⟨State.modBlock_mem _ _ _, State.modBlock_warps _ _ _, fun b hb => ?_⟩
  have hb' : (s.modQueue ctx q fun x => { x with pushers := aput idx (bn, bs) x.pushers }).block bn = some b := hb
  rw [childPushed, State.block_modBlock, if_pos rfl, hb']
  rfl

/-- `qpush` past its operands: refused, full, or pushed (R82, R361, R362). -/
theorem qpushOn_facts (h : AsIssued it s) (wait : Bool) (bs : List Byte) :
    (queueOpd it s it.o.b [1, 2, 3] = none → qpushOn it wait bs s = raise it s .queue 0 it.act 0)
    ∧ ∀ q x c, queueOpd it s it.o.b [1, 2, 3] = some (q, x, c) →
      (pushRefused c bs = true → qpushOn it wait bs s = raise it s .queue 0 it.act 0)
      ∧ (pushRefused c bs = false → c.head + 2 ^ c.log2 ≤ c.tail → wait = false →
          Computes it s (qpushOn it wait bs s) 1 (wordsOf fun _ => ⟨2, false⟩) 0)
      ∧ (pushRefused c bs = false → c.head + 2 ^ c.log2 ≤ c.tail → wait = true →
          WarpBecomes it s (qpushOn it wait bs s) fun w' => w'.run = it.w.run ∧ w'.wait = some .queue)
      ∧ ∀ s1 s2, pushRefused c bs = false → c.tail < c.head + 2 ^ c.log2 → c.kind ≠ 3 →
          (pushBase it s x bs).devWrite it.ctx (c.base + 64 * (c.tail % 2 ^ c.log2)) bs = some s1 →
          s1.devWrite it.ctx x.qcb.toNat (leBytes 8 (c.tail + 1)) = some s2 →
          (qpushOn it wait bs s).mem = s2.mem ∧ (qpushOn it wait bs s).blocks = s2.blocks
            ∧ Delivers it (qpushOn it wait bs s) 1 (wordsOf fun _ => ⟨0, false⟩) := by
  refine ⟨fun hq => by simp only [qpushOn, hq], fun q x c hq => ?_⟩
  have taken (hr : pushRefused c bs = false) : qpushOn it wait bs s = pushOrWait it s wait (q, x, c) bs id := by
    simp only [qpushOn, hq, hr, Bool.false_eq_true, if_false]
  refine ⟨fun hr => by simp only [qpushOn, hq, hr, if_true], fun hr hf hw => ?_, fun hr hf hw => ?_, fun s1 s2 hr hf hk h1 h2 => ?_⟩
  · rw [taken hr, hw]
    exact pushOrWait_full_computes h hf id
  · rw [taken hr, hw]
    exact pushOrWait_full_parks h hf id
  · rw [taken hr, pushOrWait_room hf hk id h1 h2]
    have hc := computes_asIssued (asIssued_pushed h h1 h2) .b32 fun _ => ⟨0, false⟩
    exact ⟨hc.1.mem, hc.1.blocks, delivers_of_computes hc⟩

/-- `launch` past its operands: too deep, full, or pushed (R82, R93, R361, R363). -/
theorem launchOn_facts (h : AsIssued it s) (wait : Bool) (bs : List Byte) :
    (queueOpd it s it.o.c [1, 3] = none → launchOn it wait bs s = raise it s .queue 0 it.act 0)
    ∧ ∀ q x c g, queueOpd it s it.o.c [1, 3] = some (q, x, c) → s.gridOfWarp it.wid = some g →
      (10 ≤ g.depth → Computes it s (launchOn it wait bs s) 1 (wordsOf fun _ => ⟨1, false⟩) 0)
      ∧ (g.depth < 10 → c.head + 2 ^ c.log2 ≤ c.tail → wait = false →
          Computes it s (launchOn it wait bs s) 1 (wordsOf fun _ => ⟨2, false⟩) 0)
      ∧ (g.depth < 10 → c.head + 2 ^ c.log2 ≤ c.tail → wait = true →
          WarpBecomes it s (launchOn it wait bs s) fun w' => w'.run = it.w.run ∧ w'.wait = some .queue)
      ∧ ∀ s1 s2 b, g.depth < 10 → c.tail < c.head + 2 ^ c.log2 → c.kind = 1 → s2.block it.blk = some b →
          (pushBase it s x bs).devWrite it.ctx (c.base + 64 * (c.tail % 2 ^ c.log2)) bs = some s1 →
          s1.devWrite it.ctx x.qcb.toNat (leBytes 8 (c.tail + 1)) = some s2 →
          (launchOn it wait bs s).mem = s2.mem
            ∧ (launchOn it wait bs s).block it.blk = some { b with children := b.children ++ [(q + 1, c.tail)] }
            ∧ Delivers it (launchOn it wait bs s) 1 (wordsOf fun _ => ⟨0, false⟩) := by
  refine ⟨fun hq => by simp only [launchOn, hq], fun q x c g hq hg => ?_⟩
  have taken (hd : g.depth < 10) : launchOn it wait bs s = pushOrWait it s wait (q, x, c) bs fun s =>
      if c.kind = 1 then childPushed s it.ctx q it.blk c.tail bs else s := by
    simp only [launchOn, hq, hg, if_neg (Nat.not_le.mpr hd)]
  refine ⟨fun hd => ?_, fun hd hf hw => ?_, fun hd hf hw => ?_, fun s1 s2 b hd hf hk hb h1 h2 => ?_⟩
  · simp only [launchOn, hq, hg, if_pos hd]
    exact computes_asIssued h .b32 _
  · rw [taken hd, hw]
    exact pushOrWait_full_computes h hf _
  · rw [taken hd, hw]
    exact pushOrWait_full_parks h hf _
  · rw [taken hd, pushOrWait_room hf (by omega) _ h1 h2, if_pos hk]
    obtain ⟨hm, hw, hb'⟩ := childPushed_facts s2 it.ctx q it.blk c.tail bs
    have hc := computes_asIssued ((asIssued_pushed h h1 h2).of_warps hw) .b32 fun _ => ⟨0, false⟩
    exact ⟨hc.1.mem.trans hm, (congrArg (alook it.blk) hc.1.blocks).trans (hb' b hb), delivers_of_computes hc⟩

end

end Sys2Proof.Machine

/-! ## Pops -/

namespace Sys2Proof.Machine

section
variable {s t s1 s2 : State} {it : Iss} {q : Nat} {x : Queue} {c : Qcb} {bs : List Byte} {d : Fin 96} {p : Fin 4}

/-! ### Registers that a pop writes -/

theorem regsOnly_sputRange (w : Warp) (o : Opd) (ws : List PWord) :
    RegsOnly w (w.sputRange o ws) ∧ (w.sputRange o ws).p = w.p ∧ (w.sputRange o ws).q = w.q := by
  have fold (r : Nat) (l : List Nat) (w : Warp) :
      let w' := l.foldl (fun w i => w.sput (r + i) ((ws[i]?).getD PWord.zero)) w
      RegsOnly w w' ∧ w'.p = w.p ∧ w'.q = w.q := by
    induction l generalizing w with
    | nil => exact ⟨RegsOnly.refl w, rfl, rfl⟩
    | cons i l ih =>
      obtain ⟨hr, hp, hq⟩ := ih (w.sput (r + i) ((ws[i]?).getD PWord.zero))
      exact ⟨(regsOnly_sput w _ _).trans hr, hp, hq⟩
  unfold Warp.sputRange
  split
  · exact fold _ _ w
  · exact ⟨RegsOnly.refl w, rfl, rfl⟩

/-- Words put into uniform registers from a register on. -/
theorem sget_sputRange (w : Warp) (d : Fin 96) (ws : List PWord) (j : Nat) :
    (w.sputRange (.s d) ws).sget j =
      if d.val ≤ j ∧ j < d.val + ws.length then (ws[j - d.val]?).getD PWord.zero else w.sget j := by
  have fold (n : Nat) : ((List.range n).foldl (fun w i => w.sput (d.val + i) ((ws[i]?).getD PWord.zero)) w).sget j =
      if d.val ≤ j ∧ j < d.val + n then (ws[j - d.val]?).getD PWord.zero else w.sget j := by
    induction n with
    | zero => exact (if_neg (by omega)).symm
    | succ n ih =>
      rw [List.range_succ, List.foldl_append, List.foldl_cons, List.foldl_nil, sput_s_get, ih]
      by_cases hj : j = d.val + n
      · rw [if_pos hj, if_pos (by omega), hj, Nat.add_sub_cancel_left]
      · rw [if_neg hj]
        exact if_congr (by omega) rfl rfl
  exact fold ws.length

theorem plainWords_length (h : bs.length = 64) : (plainWords bs).length = 16 := by
  simp only [plainWords, h, List.length_map, List.length_range]

theorem plainWords_getD (h : bs.length = 64) {i : Nat} (hi : i < 16) :
    ((plainWords bs)[i]?).getD PWord.zero = ⟨BitVec.ofNat 32 (fieldOf bs (4 * i) 4), false⟩ := by
  have hr : (List.range ((bs.length + 3) / 4))[i]? = some i := List.getElem?_range (by omega)
  rw [plainWords, List.getElem?_map, hr]
  rfl

/-- The STATUS predicate after a pop; the other predicates stay (R364). -/
def PopAnswers (it : Iss) (p : Fin 4) (t : State) (v : Bool) : Prop :=
  ∀ w', t.warp it.wid = some w' → ∀ n, n < 4 → w'.qget n = if n = p.val ∧ n < 3 then v else it.w.qget n

/-- A pop that completes: words in uniform registers, the STATUS predicate, the next word. -/
theorem commit_pop (h : AsIssued it s) (hd : it.o.d = .s d) (hc : it.o.c = .q p) (ws : List PWord) (v : Bool) :
    let t := commit it s fun w => (w.sputRange it.o.d ws).statusC it.o.c v
    OnlyWarp it.wid s t ∧ PopAnswers it p t v ∧ ∃ w0 w', s.warp it.wid = some w0 ∧ t.warp it.wid = some w' ∧ WarpKept w0 w'
      ∧ w'.run = nextRun it.w ∧ w'.p = it.w.p ∧ ∃ w1 : Warp, w1.s = it.w.s ∧ w'.s = (w1.sputRange (.s d) ws).s := by
  intro t
  obtain ⟨ho, w0, w1, h0, h1, hk, hs, hp, hq, hr, hcl⟩ := commit_asIssued h fun w => (w.sputRange it.o.d ws).statusC it.o.c v
  have h1' : t.warp it.wid = some ((w1.sputRange (.s d) ws).qput p.val v).advance := by
    rw [h1, hd, hc]
    rfl
  obtain ⟨hreg, hp2, hq2⟩ := regsOnly_sputRange w1 (.s d) ws
  have hreg := hreg.trans (regsOnly_qput (w1.sputRange (.s d) ws) p.val v)
  obtain ⟨hk3, -, hs3, hp3, hq3, -, -, hr3⟩ := advance_facts ((w1.sputRange (.s d) ws).qput p.val v)
  refine ⟨ho, fun w' hw' n hn => ?_, w0, _, h0, h1', warpKept_trans hk (warpKept_trans hreg.kept hk3), ?_, ?_, w1, hs, ?_⟩
  · cases h1'.symm.trans hw'
    exact (qget_congr hq3 n).trans ((qget_qput _ _ _ hn).trans
      (if_congr (and_congr_right fun e => by rw [e]) rfl (qget_congr (hq2.trans hq) n)))
  · exact hr3.trans (nextRun_congr (hreg.run.trans hr) (hreg.clause.trans hcl))
  · exact hp3.trans ((qput_p _ _ _).trans (hp2.trans hp))
  · exact hs3.trans (qput_s _ _ _)

/-- A pop that gives nothing. -/
theorem commit_noPop (h : AsIssued it s) (hd : it.o.d = .s d) (hc : it.o.c = .q p) (v : Bool) :
    let t := commit it s fun w => w.statusC it.o.c v
    t.mem = s.mem ∧ PopAnswers it p t v ∧ WarpBecomes it s t fun w' => w'.run = nextRun it.w ∧ w'.s = it.w.s ∧ w'.p = it.w.p
      ∧ ∃ w, s.warp it.wid = some w ∧ WarpKept w w' := by
  intro t
  have hf : (fun w : Warp => w.statusC it.o.c v) = fun w => (w.sputRange it.o.d []).statusC it.o.c v := by
    rw [hd]
    rfl
  have ht : t = commit it s fun w => (w.sputRange it.o.d []).statusC it.o.c v := congrArg (commit it s) hf
  obtain ⟨ho, hn, w0, w', h0, h1, hk, hr, hp, w1, hs1, hs⟩ := commit_pop h hd hc [] v
  rw [ht]
  exact ⟨ho.mem, hn, ho, w', h1, hr, hs.trans hs1, hp, w0, h0, hk⟩

/-! ### What a pop does -/

theorem asIssued_queueError (h : AsIssued it s) (ctx : Nat) (x : Queue) (c : Qcb) (slot code : Nat) :
    AsIssued it (queueError s ctx x c slot code) :=
  (h.devAccess (devAccess_putQcb s ctx x 0x53 _)).of_warps rfl

theorem invalidate_facts (s : State) (core : Nat) (rs : List (Nat × Nat)) :
    (invalidate s core rs).mem = (writeBack s core rs).mem ∧ (invalidate s core rs).warps = (writeBack s core rs).warps := by
  unfold invalidate
  split
  next h => simp only [writeBack, h, if_true, and_self]
  next => exact ⟨rfl, rfl⟩

/-- A pop's effects beside the registers, where HEAD can be written (R81, R82, R364). -/
theorem popped_facts {ctx blk core : Nat}
    (hw : ((s.devTouch ctx x.qcb.toNat 128).devTouch ctx (c.base + 64 * (c.head % 2 ^ c.log2)) 64).devWrite ctx
      (x.qcb.toNat + 0x40) (leBytes 8 (c.head + 1)) = some s1) :
    (popped s ctx blk core x c bs).mem = (writeBack s1 core (entryMem s1 ctx (some blk) bs)).mem
      ∧ (popped s ctx blk core x c bs).warps = (writeBack s1 core (entryMem s1 ctx (some blk) bs)).warps := by
  have hq : putQcb ((s.devTouch ctx x.qcb.toNat 128).devTouch ctx (c.slotAddr c.head) 64) ctx x 0x40 (leBytes 8 (c.head + 1)) = s1 :=
    putQcb_of_devWrite hw
  unfold popped
  rw [hq]
  split
  · exact invalidate_facts s1 core _
  · exact invalidate_facts s1 core _

/-- What a `qpop` comes to once its operand is clean (R361, R364). -/
def qpopOn (it : Iss) (wait : Bool) (s : State) : State :=
  match queueOpd it s it.o.b [2] with
  | none => raise it s .queue 0 it.act 0
  | some (_, x, c) =>
    let code := workError s it.ctx c
    let stops := c.state = 0 && code != 0
    if c.state ≠ 0 ∨ stops ∨ c.tail ≤ c.head then
      let s1 := if stops then queueError s it.ctx x c (c.slot c.head) code else s
      if wait then parkWait s1 it.wid .queue else commit it s1 fun w => w.statusC it.o.c false
    else match s.devRead it.ctx (c.slotAddr c.head) 64 with
      | none => raise it s .queue 0 it.act 0
      | some bs => commit it (popped s it.ctx it.blk it.core x c bs) fun w =>
          (w.sputRange it.o.d (plainWords bs)).statusC it.o.c true

theorem qpop_eq {o : Opnds} {wait : Bool} {s0 : State} (hi : issuing (.qpop o wait) s = some (it, s0)) (ha : it.act ≠ 0)
    (hb : (it.src .n32 it.o.b 0).pois = false) : exec (.qpop o wait) s = .next (qpopOn it wait s0) := by
  refine (issue_eq hi _).trans (congrArg _ ?_)
  simp only [if_neg ha, hb, Bool.false_eq_true, if_false]
  rfl

theorem qpopOn_none (wait : Bool) (hq : queueOpd it s it.o.b [2] = none) :
    qpopOn it wait s = raise it s .queue 0 it.act 0 := by
  simp only [qpopOn, hq]

/-- With no entry to give, or from a queue that is stopped, a pop waits or says so (R364). -/
theorem qpopOn_empty (wait : Bool) (hq : queueOpd it s it.o.b [2] = some (q, x, c)) (hn : c.tail ≤ c.head ∨ c.state ≠ 0) :
    qpopOn it wait s = if wait then parkWait s it.wid .queue else commit it s fun w => w.statusC it.o.c false := by
  have hstops : (decide (c.state = 0) && workError s it.ctx c != 0) = false := by
    rcases hn with hn | hn
    · have hw : workError s it.ctx c = 0 := by
        simp only [workError, Nat.not_lt.mpr hn, and_false, if_false]
      rw [hw, bne_self_eq_false, Bool.and_false]
    · rw [decide_eq_false hn, Bool.false_and]
  simp only [qpopOn, hq, hstops, Bool.false_eq_true, if_false, false_or]
  rw [if_pos hn.symm]

/-- A queue that stops at its entry gives none (R79, R361). -/
theorem qpopOn_stops (wait : Bool) (hq : queueOpd it s it.o.b [2] = some (q, x, c)) (hs : c.state = 0)
    (hw : workError s it.ctx c ≠ 0) :
    let s1 := queueError s it.ctx x c (c.slot c.head) (workError s it.ctx c)
    qpopOn it wait s = if wait then parkWait s1 it.wid .queue else commit it s1 fun w => w.statusC it.o.c false := by
  have hstops : (decide (c.state = 0) && workError s it.ctx c != 0) = true := by
    rw [decide_eq_true hs, bne_iff_ne.mpr hw, Bool.and_self]
  simp only [qpopOn, hq, hstops, true_or, or_true, if_true]

/-- An entry that a pop gives (R364). -/
theorem qpopOn_gives (wait : Bool) (hq : queueOpd it s it.o.b [2] = some (q, x, c)) (hs : c.state = 0)
    (hw : workError s it.ctx c = 0) (ht : c.head < c.tail)
    (hr : s.devRead it.ctx (c.base + 64 * (c.head % 2 ^ c.log2)) 64 = some bs) :
    qpopOn it wait s = commit it (popped s it.ctx it.blk it.core x c bs) fun w =>
      (w.sputRange it.o.d (plainWords bs)).statusC it.o.c true := by
  have hr' : s.devRead it.ctx (c.slotAddr c.head) 64 = some bs := hr
  have hgo : ¬ (c.state ≠ 0 ∨ (decide (c.state = 0) && workError s it.ctx c != 0) = true ∨ c.tail ≤ c.head) := by
    simp only [hs, hw, bne_self_eq_false, Bool.and_false, Bool.false_eq_true, ne_eq, not_true, false_or]
    omega
  simp only [qpopOn, hq]
  rw [if_neg hgo]
  simp only [hr']

/-- The registers that a pop gives its entry in (R364). -/
theorem qpopOn_gives_facts (wait : Bool) (h : AsIssued it s) (hd : it.o.d = .s d) (hp : it.o.c = .q p)
    (hq : queueOpd it s it.o.b [2] = some (q, x, c)) (hs : c.state = 0) (he : workError s it.ctx c = 0) (ht : c.head < c.tail)
    (hr : s.devRead it.ctx (c.base + 64 * (c.head % 2 ^ c.log2)) 64 = some bs) (hl : bs.length = 64)
    (hw : ((s.devTouch it.ctx x.qcb.toNat 128).devTouch it.ctx (c.base + 64 * (c.head % 2 ^ c.log2)) 64).devWrite it.ctx
      (x.qcb.toNat + 0x40) (leBytes 8 (c.head + 1)) = some s1) :
    let t := qpopOn it wait s
    ∃ w', PopAnswers it p t true ∧ t.mem = (writeBack s1 it.core (entryMem s1 it.ctx (some it.blk) bs)).mem
      ∧ t.warp it.wid = some w' ∧ w'.run = nextRun it.w ∧ w'.p = it.w.p
      ∧ (∀ i, i < 16 → w'.sget (d.val + i) = ⟨BitVec.ofNat 32 (fieldOf bs (4 * i) 4), false⟩)
      ∧ ∀ j, (j < d.val ∨ d.val + 16 ≤ j) → w'.sget j = it.w.sget j := by
  intro t
  obtain ⟨hm, hwp⟩ := popped_facts (bs := bs) (blk := it.blk) (core := it.core) hw
  have h2 : AsIssued it (popped s it.ctx it.blk it.core x c bs) :=
    (((h.devAccess ((devAccess_devTouch s it.ctx _ 128).trans (devAccess_devTouch _ it.ctx _ 64))).devAccess
      (devAccess_devWrite hw)).drains (drains_writeBack s1 it.core _)).of_warps hwp
  obtain ⟨ho, hn, w0, w', h0, h1, hk, hr', hp', w1, hs1, hsr⟩ := commit_pop h2 hd hp (plainWords bs) true
  have ht' : t = _ := qpopOn_gives wait hq hs he ht hr
  have hget (j : Nat) := (sget_congr hsr j).trans (sget_sputRange w1 d (plainWords bs) j)
  rw [plainWords_length hl] at hget
  rw [ht']
  refine ⟨w', hn, ho.mem.trans hm, h1, hr', hp', fun i hi => ?_, fun j hj => ?_⟩
  · rw [hget, if_pos ⟨Nat.le_add_right _ _, by omega⟩, Nat.add_sub_cancel_left, plainWords_getD hl hi]
  · rw [hget, if_neg (by omega)]
    exact sget_congr hs1 j

end

end Sys2Proof.Machine

/-! ## Control words -/

namespace Sys2Proof.Machine

section
variable {s t : State} {it : Iss} {n : Nat} {write ctl : Bool} {types : Tgt → Bool} {g : Tgt} {b : Block}

theorem drains_linkDown (d : Drains s t) (key : Nat) : linkDown t key = linkDown s key :=
  linkDown_of_links ((congrArg Device.links d.dev).trans rfl) key

theorem drains_ctxNo (d : Drains s t) (wid : Nat) : t.ctxNo wid = s.ctxNo wid := by
  obtain ⟨m, p, hb⟩ := d.blocks (blkOf wid)
  unfold State.ctxNo
  rw [hb]
  cases s.block (blkOf wid) <;> rfl

theorem ctxNo_of_blocks (h : t.blocks = s.blocks) (wid : Nat) : t.ctxNo wid = s.ctxNo wid := by
  unfold State.ctxNo State.block
  rw [h]

/-- A word acts for the context of its warp's block. -/
theorem ctxNo_of_issuing {i : Instr} {s0 : State} (h : issuing i s = some (it, s0)) : s0.ctxNo it.wid = it.ctx := by
  obtain ⟨wid, core, slot, w, _, _, _, rfl, rfl⟩ := issuing_facts h
  obtain ⟨-, -, -, -, -, -, -, -, hb, -⟩ := issued_facts i s wid core w
  exact (drains_ctxNo (drains_started i s wid core w) wid).trans (ctxNo_of_blocks hb wid)

theorem blk_of_issuing {i : Instr} {s0 : State} (h : issuing i s = some (it, s0)) : it.blk = blkOf it.wid := by
  obtain ⟨wid, core, slot, w, _, _, _, rfl, rfl⟩ := issuing_facts h
  rfl

/-- What a core has observed is noted in its own record (R326). -/
theorem observeBy_leaves (s : State) (wid key n : Nat) : (observeBy s wid key n).warps = s.warps
    ∧ (observeBy s wid key n).blocks = s.blocks ∧ (observeBy s wid key n).dev = s.dev := by
  unfold observeBy
  split <;> exact ⟨rfl, rfl, rfl⟩

theorem acquireAt_mem (s : State) (wid : Nat) (sc : Scope) : (acquireAt s wid sc).mem = s.mem := by
  unfold acquireAt
  split
  · split <;> rfl
  · rfl

/-- What the state that a control word acts in keeps, beside what its own stores did as they left (R238, R326). -/
theorem ctrlBase_leaves (s : State) (n : Nat) (g : Tgt) :
    (ctrlBase it s n g).warps = (settle s it.wid g.key n).warps ∧ (ctrlBase it s n g).blocks = (settle s it.wid g.key n).blocks
      ∧ (ctrlBase it s n g).dev = (settle s it.wid g.key n).dev := by
  obtain ⟨hw, hb, hd⟩ := observeBy_leaves ((settle s it.wid g.key n).used it.ctx (it.src .b64 it.o.a 0).v g).takeFree it.wid g.key n
  have hu := besideFetch_used (settle s it.wid g.key n) it.ctx (it.src .b64 it.o.a 0).v g
  exact ⟨hw.trans hu.warps, hb.trans hu.blocks, hd.trans (touches_used _ _ _ _).dev⟩

theorem asIssued_ctrlBase (h : AsIssued it s) (n : Nat) (g : Tgt) : AsIssued it (ctrlBase it s n g) :=
  (h.drains (drains_settle s it.wid g.key n)).of_warps (ctrlBase_leaves s n g).1

theorem ctrlBase_ctxNo (s : State) (n : Nat) (g : Tgt) (wid : Nat) : (ctrlBase it s n g).ctxNo wid = s.ctxNo wid :=
  (ctxNo_of_blocks (ctrlBase_leaves s n g).2.1 wid).trans (drains_ctxNo (drains_settle s it.wid g.key n) wid)

theorem ctrlBase_linkDown (s : State) (n : Nat) (g : Tgt) (key : Nat) : linkDown (ctrlBase it s n g) key = linkDown s key :=
  (linkDown_of_links (congrArg Device.links (ctrlBase_leaves s n g).2.2) key).trans
    (drains_linkDown (drains_settle s it.wid g.key n) key)

/-- No watchpoint matches, and no link is being reset: the accesses go on (R260, R428). -/
theorem watchFirst_unwatched {ea : Nat → PV} {read : Bool} (hl : waitsForLink it s ea = false)
    (hw : ∀ l, watched s it.ctx false read write (ea l).v n = false) (k : State) :
    watchFirst it s false read write ea n k = k := by
  have hm : watchLanes it s false read write ea n = 0 := by
    have : (fun l => it.act.getLsbD l && watched s it.ctx false read write (ea l).v n) = fun _ => false :=
      funext fun l => by rw [hw l, Bool.and_false]
    rw [watchLanes, Iss.maskWhere, this]
    rfl
  simp only [watchFirst, hl, Bool.and_false, Bool.false_eq_true, if_false, hm, lanesOf_zero]

/-- A control word that finds what it needs acts on its word (R264, R344). -/
theorem ctrlWord_ready (h : ControlReady it s n write ctl types g) (sub : Nat) (k : State → Tgt → Nat → State) :
    ctrlWord it s it.o.a n write ctl types sub k
      = k (ctrlBase it s n g) g (leNat (loadGlobal (settle s it.wid g.key n) it.blk g n).1) := by
  have hchk : chkGlobal it s ⟨write, false, some it.blk⟩ n (fun _ => it.src .b64 it.o.a 0) 0
      = (0, (it.src .b64 it.o.a 0).v, .ok g) := by
    simp only [chkGlobal, chkAddr, h.clean, Nat.not_le.mpr h.inside, h.aligned, h.target, Bool.false_eq_true, if_false,
      bne_self_eq_false]
  have hp : (ctl && (loadGlobal (settle s it.wid g.key n) it.blk g n).2) = false := by
    cases hc : ctl
    · rfl
    · exact h.word hc
  simp only [ctrlWord, hchk, h.type, hp, Bool.not_true, Bool.false_eq_true, if_false]
  exact watchFirst_unwatched h.link (fun _ => h.unwatched) _

/-! ## Words of specified contents -/

theorem bytesUnder_known {m : Mem} {key fr k n : Nat} (h : ∀ x ∈ sectors k n, m.unknown key x = false) :
    m.bytesUnder key fr k n = m.bytes k n := bytesUnder_of_known m key fr n k fun _ hj => h _ (sector_mem_sectors hj)

/-- The first byte a confirmed block loads of a word of specified contents. -/
theorem loadGlobal_first (hb : Confirmed s it.blk b) (hc : b.ctx = it.ctx) (hk : Known it s n g) (hn : 0 < n) :
    fieldOf (loadGlobal s it.blk g n).1 0 1 = s.mem.num g.key 1 := by
  obtain ⟨hblk, -, hpl⟩ := hb
  obtain ⟨m, rfl⟩ := Nat.exists_eq_add_of_lt hn
  have hbs : s.mem.bytesUnder (s.keyId b.ctx) s.free g.key (0 + m + 1) = s.mem.bytes g.key (0 + m + 1) := by
    rw [hc]
    exact bytesUnder_known hk
  simp only [loadGlobal, loadKey, hblk, hbs, provByte, hpl, alook_nil, Option.getD_none]
  rw [List.range_succ_eq_map]
  rfl

/-- What a `gwait` finds in a record of specified contents (R365). -/
theorem evalGwait_known {va : DWord} {vouch : Bool} {d : Opd} (hblk : it.blk = blkOf it.wid) (hctx : s.ctxNo it.wid = it.ctx) :
    let s2 := settle s it.wid g.key 32
    Confirmed s2 it.blk b → Known it s2 32 g → (loadGlobal s2 it.blk g 32).2 = false →
    evalGwait s it.wid g.key va vouch d = if s2.mem.num g.key 1 < gwaitMin s2 it.ctx va.toNat vouch then .wait s2
      else .done s2.takeFree d (s2.mem.num g.key 1) := by
  intro s2 hb hk hp
  have hctx : s2.ctxNo it.wid = it.ctx := (drains_ctxNo (drains_settle s it.wid g.key 32) it.wid).trans hctx
  have hbc : b.ctx = it.ctx := by
    rw [← hctx, State.ctxNo, ← hblk, hb.1]
  have hst := loadGlobal_first hb hbc hk (by decide)
  rw [hblk] at hst hp
  change (if (loadGlobal s2 (blkOf it.wid) g 32).2 then _ else
    if fieldOf (loadGlobal s2 (blkOf it.wid) g 32).1 0 1 < gwaitMin s2 (s2.ctxNo it.wid) va.toNat vouch then _
    else Eval.done s2.takeFree d (fieldOf (loadGlobal s2 (blkOf it.wid) g 32).1 0 1)) = _
  rw [hp, hst, hctx]
  rfl

theorem toNat_beq_one (x : Nat) : (x % 2 == 1).toNat = x % 2 := by
  rcases Nat.mod_two_eq_zero_or_one x with h | h <;> rw [h] <;> rfl

end

end Sys2Proof.Machine

namespace Sys2Proof
open Machine

section
variable {s s0 : State} {it : Iss} {o : Opnds} {g : Tgt} {b : Block}

/-- `shape` resolves its word and gives what RESOLVED was (R98, R366). -/
theorem shape_facts (hi : issuing (.shape o) s = some (it, s0)) (ha : it.act ≠ 0)
    (hr : ControlReady it s0 8 true true (fun _ => true) g) (hp : (it.src .b32 it.o.b 0).pois = false) :
    let s1 := releaseAt (ctrlBase it s0 8 g) it.wid .dev
    Known it s1 8 g →
    (∀ e ∈ gridsOf s1 it.ctx, e.2.bound = true → e.2.desc.shapeAddr.toNat ≠ (it.src .b64 it.o.a 0).v) →
    ∃ t, exec (.shape o) s = .next t ∧ WordSet s1 t g 8 (2 ^ 63 + num it .b32 it.o.b 0)
      ∧ Delivers it t 1 (wordsOf fun _ => ⟨s1.mem.num g.key 8 / 2 ^ 63 % 2, false⟩) := by
  intro s1 hk hs
  let x := num it .b32 it.o.b 0
  have hd := drains_releaseAt (ctrlBase it s0 8 g) it.wid .dev
  have hw : Writable s1 it.ctx 8 g := ⟨(drains_linkDown hd g.key).trans ((ctrlBase_linkDown s0 8 g g.key).trans hr.up), hk⟩
  have hops : ∀ o ∈ [(Ty.b64, it.o.a), (Ty.b32, it.o.b)], (it.src o.1 o.2 0).pois = false := by
    simp only [List.mem_cons, List.not_mem_nil, or_false, forall_eq_or_imp, forall_eq]
    exact ⟨hr.clean, hp⟩
  have heq : exec (.shape o) s = .next (commit it (resolveWord s1 it.ctx (it.src .b64 it.o.a 0).v g x).1 fun w =>
      w.dput .b32 it.o.d it.act fun _ => ⟨(resolveWord s1 it.ctx (it.src .b64 it.o.a 0).v g x).2.toNat, false⟩) := by
    refine (issue_eq hi _).trans (congrArg _ ?_)
    rw [if_neg ha, opsClean_of_clean hops, ctrlWord_ready hr]
    rfl
  have hiss : AsIssued it (resolveWord s1 it.ctx (it.src .b64 it.o.a 0).v g x).1 := by
    have h1 := (((asIssued_ctrlBase (asIssued_of_issuing hi) 8 g).drains hd).devAccess
      (devAccess_storeOpen s1 it.ctx g (leBytes 8 (2 ^ 63 + x)) false))
    rw [resolveWord_unbound hs]
    dsimp only
    split_ifs
    · exact h1.of_warps rfl
    · exact h1
  have hold : (resolveWord s1 it.ctx (it.src .b64 it.o.a 0).v g x).2.toNat = s1.mem.num g.key 8 / 2 ^ 63 % 2 := by
    rw [resolveWord_unbound hs, bytesUnder_known hk]
    exact toNat_beq_one _
  rw [hold] at heq
  have hc := computes_asIssued hiss .b32 fun _ => ⟨s1.mem.num g.key 8 / 2 ^ 63 % 2, false⟩
  refine ⟨_, heq, ?_, delivers_of_computes hc⟩
  unfold WordSet
  rw [hc.1.mem, resolveWord_mem hs]
  exact wordSet_storeOpen hw (by decide) _

/-- `gwait` gives a STATUS that has come far enough, and waits otherwise (R365). -/
theorem gwait_facts {vouch : Bool} (hi : issuing (.gwait o vouch) s = some (it, s0)) (ha : it.act ≠ 0)
    (hr : ControlReady it s0 32 false true (fun _ => true) g) :
    let s1 := ctrlBase it s0 32 g
    let s2 := settle { s1 with cmdNext := s1.cmdNext + 1 } it.wid g.key 32
    Confirmed s2 it.blk b → Known it s2 32 g → (loadGlobal s2 it.blk g 32).2 = false →
    let st := s2.mem.num g.key 1
    let least := if vouch = true ∨ vouchFirst s2 it.ctx ((it.src .b64 it.o.a 0).v % 2 ^ 64) = true then 3 else 2
    (least ≤ st → ∃ t, exec (.gwait o vouch) s = .next t ∧ t.mem = s2.mem ∧ Delivers it t 1 (wordsOf fun _ => ⟨st, false⟩))
    ∧ (st < least → ∃ t w', exec (.gwait o vouch) s = .next t ∧ t.mem = s2.mem ∧ t.warp it.wid = some w' ∧ w'.run = it.w.run
        ∧ w'.wait = some (.gwait g.key (BitVec.ofNat 64 (it.src .b64 it.o.a 0).v) vouch it.o.d s1.cmdNext)) := by
  intro s1 s2 hb hk hp st least
  let va := BitVec.ofNat 64 (it.src .b64 it.o.a 0).v
  let x := Wait.gwait g.key va vouch it.o.d s1.cmdNext
  have hops : ∀ o ∈ [(Ty.b64, it.o.a)], (it.src o.1 o.2 0).pois = false := by
    simp only [List.mem_cons, List.not_mem_nil, or_false, forall_eq]
    exact hr.clean
  have heq : exec (.gwait o vouch) s = .next (orWait it { s1 with cmdNext := s1.cmdNext + 1 } x parkWait
      fun s => evalGwait s it.wid g.key va vouch it.o.d) := by
    refine (issue_eq hi _).trans (congrArg _ ?_)
    rw [if_neg ha, opsClean_of_clean hops, ctrlWord_ready hr]
  have hleast : gwaitMin s2 it.ctx va.toNat vouch = least := by
    simp only [gwaitMin, va, BitVec.toNat_ofNat, Bool.or_eq_true]
    rfl
  have heval := evalGwait_known (s := { s1 with cmdNext := s1.cmdNext + 1 }) (va := va) (vouch := vouch) (d := it.o.d)
    (blk_of_issuing hi) ((ctrlBase_ctxNo s0 32 g it.wid).trans (ctxNo_of_issuing hi)) hb hk hp
  rw [hleast] at heval
  have hiss : AsIssued it s2 := ((asIssued_ctrlBase (asIssued_of_issuing hi) 32 g).of_warps
    (t := { s1 with cmdNext := s1.cmdNext + 1 }) rfl).drains (drains_settle _ it.wid g.key 32)
  refine ⟨fun hl => ?_, fun hl => ?_⟩
  · have hc := computes_asIssued (hiss.of_warps (t := acquireAt s2.takeFree it.wid .sys) (acquireAt_warps s2.takeFree it.wid .sys))
      .b32 fun _ => ⟨st, false⟩
    rw [orWait, heval, if_neg (Nat.not_lt.mpr hl)] at heq
    refine ⟨_, heq, hc.1.mem.trans ?_, delivers_of_computes hc⟩
    exact acquireAt_mem s2.takeFree it.wid .sys
  · obtain ⟨ho, w', hw', hrun, hwait⟩ := parkWait_asIssued hiss x
    rw [orWait, heval, if_pos hl] at heq
    exact ⟨_, w', heq, ho.mem, hw', hrun, hwait⟩

/-! ## The provisional machinery -/

theorem readPred_warps (s : State) (ctx i : Nat) : (readPred s ctx i).1.warps = s.warps := by
  have hb : (predBytes s ctx i).1.warps = s.warps := by
    unfold predBytes
    split
    · rfl
    · split
      · rfl
      · obtain ⟨-, -, -, hw, -⟩ := devTouch_leaves s ctx (predAddr s ctx i) 32
        simp only
        split
        · exact hw
        · exact hw
  unfold readPred
  split
  next h => exact (congrArg (fun r => r.1.warps) h).symm.trans hb
  next h =>
    split
    · exact (congrArg (fun r => r.1.warps) h).symm.trans hb
    · exact (congrArg (fun r => r.1.warps) h).symm.trans hb

theorem asIssued_updatePred (h : AsIssued it s) (ctx key te : Nat) : AsIssued it (updatePred s ctx key te) := by
  have h1 := h.of_warps (readPred_warps s ctx (key % 1024))
  unfold updatePred
  extract_lets i r bs s1
  have h2 : AsIssued it s1 := by
    unfold s1
    split
    · exact h1
    · exact h1.of_warps rfl
  exact h2.devAccess (devAccess_devPut s1 ctx _ bs)

/-- `provq` answers from the block, from the predictor, or updates it (R367). -/
theorem provq_facts {mode : ProvqMode} (hi : issuing (.provq o mode) s = some (it, s0)) (ha : it.act ≠ 0)
    (hpa : (it.src .b32 it.o.a 0).pois = false) (hpb : (it.src .b32 it.o.b 0).pois = false) :
    let key := num it .b32 it.o.a 0 % 65536
    let e := (readPred s0 it.ctx (key % 1024)).2
    (∀ b g, mode = .self → s0.block it.blk = some b → s0.gridOfWarp it.wid = some g → ∃ t, exec (.provq o mode) s = .next t
        ∧ Computes it s0 t 1 (wordsOf fun _ => ⟨b.prov.toNat + 2 * g.resolved.toNat, false⟩) 0)
    ∧ (mode = .pred → ∃ t, exec (.provq o mode) s = .next t
        ∧ t.mem = (readPred s0 it.ctx (key % 1024)).1.mem ∧ Delivers it t 1 (wordsOf fun _ =>
        ⟨if e.key = key ∧ 0 < e.count then (e.ts.take e.count).foldl max 0 else 0, false⟩))
    ∧ (mode = .upd → ∃ t, exec (.provq o mode) s = .next t ∧ Delivers it t 1 (wordsOf fun _ => ⟨0, false⟩)
        ∧ t.mem = (updatePred s0 it.ctx key (num it .b32 it.o.b 0)).mem) := by
  intro key e
  have hiss := asIssued_of_issuing hi
  have hops : ∀ o ∈ [(Ty.b32, it.o.a), (Ty.b32, it.o.b)], (it.src o.1 o.2 0).pois = false := by
    simp only [List.mem_cons, List.not_mem_nil, or_false, forall_eq_or_imp, forall_eq]
    exact ⟨hpa, hpb⟩
  refine ⟨fun b g hm hb hg => ?_, fun hm => ?_, fun hm => ?_⟩
  all_goals subst hm
  · have heq : exec (.provq o .self) s = .next (commit it s0 fun w =>
        w.dput .b32 it.o.d it.act fun _ => ⟨b.prov.toNat + 2 * g.resolved.toNat, false⟩) := by
      refine (issue_eq hi _).trans (congrArg _ ?_)
      rw [if_neg ha, opsClean_of_clean hops]
      simp only [hb, hg]
      rfl
    exact ⟨_, heq, computes_asIssued hiss .b32 _⟩
  · have heq : exec (.provq o .pred) s = .next (commit it (readPred s0 it.ctx (key % 1024)).1 fun w =>
        w.dput .b32 it.o.d it.act fun _ => ⟨(e.most key).getD 0, false⟩) := by
      refine (issue_eq hi _).trans (congrArg _ ?_)
      rw [if_neg ha, opsClean_of_clean hops]
      rfl
    have hmost : (e.most key).getD 0 = if e.key = key ∧ 0 < e.count then (e.ts.take e.count).foldl max 0 else 0 := by
      unfold PredEntry.most
      split <;> rfl
    rw [hmost] at heq
    have hc := computes_asIssued (hiss.of_warps (readPred_warps s0 it.ctx (key % 1024))) .b32 fun _ =>
      ⟨if e.key = key ∧ 0 < e.count then (e.ts.take e.count).foldl max 0 else 0, false⟩
    exact ⟨_, heq, hc.1.mem, delivers_of_computes hc⟩
  · have heq : exec (.provq o .upd) s = .next (commit it (updatePred s0 it.ctx key (num it .b32 it.o.b 0)) fun w =>
        w.dput .b32 it.o.d it.act fun _ => ⟨0, false⟩) := by
      refine (issue_eq hi _).trans (congrArg _ ?_)
      rw [if_neg ha, opsClean_of_clean hops]
      rfl
    have hc := computes_asIssued (asIssued_updatePred hiss it.ctx key (num it .b32 it.o.b 0)) .b32 fun _ => ⟨0, false⟩
    exact ⟨_, heq, delivers_of_computes hc, hc.1.mem⟩

end

end Sys2Proof

namespace Sys2Proof
open Machine

/-! ## The clauses of O47 -/

/-- Settles O47, instruction by instruction: each is the equation of its function in the case that the clause names, and the warp it
completes on is the one that issued, but for stores that have left (`AsIssued`). -/
theorem launchAndQueues : Obligations.LaunchAndQueues := by
  unfold Obligations.LaunchAndQueues
  refine ⟨?push, ?launch, ?pop, ?wait, ?shape, ?query⟩
  case push =>
    intro o wait s s0 it hi ha hx hb bs s1
    have heq := qpush_eq hi ha hx hb
    obtain ⟨hnone, htaken⟩ := qpushOn_facts ((asIssued_of_issuing hi).drains (drains_pushReady s0 it.wid it.ctx _ bs)) wait bs
    refine ⟨fun hq => heq.trans (congrArg _ (hnone hq)), fun q x c hq => ?_⟩
    obtain ⟨hrefused, hfull, hparks, hpushed⟩ := htaken q x c hq
    exact ⟨fun hr => heq.trans (congrArg _ (hrefused hr)), fun hr hf hw => ⟨_, heq, hfull hr hf hw⟩,
      fun hr hf hw => ⟨_, heq, hparks hr hf hw⟩, fun s2 s3 hr hf hk h1 h2 => ⟨_, heq, hpushed s2 s3 hr hf hk h1 h2⟩⟩
  case launch =>
    intro o nreg wait barrier irq s s0 it hi ha hd hx hc bs s1 ex
    have heq := launch_eq hi ha hd hx hc
    obtain ⟨hnone, htaken⟩ := launchOn_facts ((asIssued_of_issuing hi).drains (drains_pushReady s0 it.wid it.ctx _ bs)) wait bs
    refine ⟨fun hq => heq.trans (congrArg _ (hnone hq)), fun q x c g hq hg => ?_⟩
    obtain ⟨hdeep, hfull, hparks, hpushed⟩ := htaken q x c g hq hg
    exact ⟨fun h => ⟨_, heq, hdeep h⟩, fun h hf hw => ⟨_, heq, hfull h hf hw⟩, fun h hf hw => ⟨_, heq, hparks h hf hw⟩,
      fun s2 s3 b h hf hk hb h1 h2 => ⟨_, heq, hpushed s2 s3 b h hf hk hb h1 h2⟩⟩
  case pop =>
    intro o wait s s0 it d p hi ha hb hd hp popped
    have heq := qpop_eq hi ha hb
    refine ⟨fun hq => heq.trans (congrArg _ (qpopOn_none wait hq)), fun q x c hq => ?_⟩
    have hiss := asIssued_of_issuing hi
    intro none_
    refine ⟨fun hn hw => ?_, fun hn hw => ?_, fun hs he => ?_, fun bs s1 hs he ht hr hl hw _ => ?_⟩
    · subst hw
      exact ⟨_, heq.trans (congrArg _ (qpopOn_empty true hq hn)), parkWait_asIssued hiss .queue⟩
    · subst hw
      exact ⟨_, heq.trans (congrArg _ (qpopOn_empty false hq hn)), (commit_noPop hiss hd hp false).2⟩
    · intro s1
      have h1 : AsIssued it s1 := asIssued_queueError hiss it.ctx x c _ _
      have heq := heq.trans (congrArg _ (qpopOn_stops wait hq hs he))
      refine ⟨fun hw => ⟨_, heq.trans (congrArg _ (if_pos hw)), State.modWarp_mem _ _ _, parkWait_asIssued h1 .queue⟩, fun hw => ?_⟩
      obtain ⟨hm, hn, -⟩ := commit_noPop h1 hd hp false
      exact ⟨_, heq.trans (congrArg _ (if_neg (ne_true_of_eq_false hw))), hm, hn⟩
    · obtain ⟨w', hgiven⟩ := qpopOn_gives_facts wait hiss hd hp hq hs he ht hr hl hw
      exact ⟨_, w', heq, hgiven⟩
  case wait => exact fun o vouch s s0 it g b hi ha hr => gwait_facts hi ha hr
  case shape => exact fun o s s0 it g b hi ha hr hp _ hk hs => shape_facts hi ha hr hp hk hs
  case query => exact fun o mode s s0 it hi ha hpa hpb => provq_facts hi ha hpa hpb

end Sys2Proof

/-! # exit (O20) -/

/-! ## Changes of one warp beside packets -/

namespace Sys2Proof

open Machine

namespace AsideTrace

variable {wid : Nat} {s t : State}

theorem of_traceOnly (h : TraceOnly s t) : AsideTrace wid s t :=
  ⟨h.free, h.dev, h.mem, h.pairs, h.grids, h.blocks, h.blkNext, h.cmdNext, fun x _ => h.warp x⟩

theorem trans_onlyWarp {u : State} (h : AsideTrace wid s t) (k : OnlyWarp wid t u) : AsideTrace wid s u where
  free := k.free.trans h.free
  dev := k.dev.trans h.dev
  mem := k.mem.trans h.mem
  pairs := k.pairs.trans h.pairs
  grids := k.grids.trans h.grids
  blocks := k.blocks.trans h.blocks
  blkNext := k.blkNext.trans h.blkNext
  cmdNext := k.cmdNext.trans h.cmdNext
  warps x hx := (k.warps x hx).trans (h.warps x hx)

end AsideTrace

end Sys2Proof

namespace Sys2Proof.Machine

theorem onlyWarp_setWarp (wid : Nat) (s : State) (w : Warp) : OnlyWarp wid s (s.setWarp wid w) :=
  ⟨rfl, rfl, rfl, rfl, rfl, rfl, rfl, rfl, rfl, rfl, rfl, rfl, fun x hx => by rw [State.warp_setWarp, if_neg hx]⟩

theorem mem_nins_self (k : Nat) (l : List Nat) : k ∈ nins k l := by
  induction l with
  | nil => exact List.mem_singleton_self k
  | cons j l ih =>
    unfold nins
    split_ifs with he hlt
    · exact he ▸ List.mem_cons_self
    · exact List.mem_cons_self
    · exact List.mem_cons_of_mem j ih

/-! ## Lanes leave the one path of a warp -/

section
variable {s : State} {wid : Nat} {w : Warp}

/-- A warp with one path, once lanes have left it with their reservations (R164, R178). -/
def Warp.without (w : Warp) (lanes : Word) : Warp :=
  { w with run := { w.run with mask := w.run.mask &&& ~~~lanes }, waiting := []
           resv := w.resv.filter fun e => !lanes.getLsbD e.1 }

/-- Where no path waits, none takes the place of the running one (R164). -/
theorem leaveLanes_onePath (hw : s.warp wid = some w) (hone : w.waiting = []) (lanes : Word) :
    leaveLanes s wid lanes = .ok (s.setWarp wid (w.without lanes)) := by
  simp [leaveLanes, hw, hone, Warp.without]

theorem handlerEmptied_outside (hw : s.warp wid = some w) (hh : w.handler = none) : handlerEmptied s wid = .ok s := by
  simp only [handlerEmptied, hw, hh]

/-- A warp outside its handler has the lanes of its paths alone (R157): those that stay. -/
theorem alive_without (hh : w.handler = none) (lanes : Word) : (w.without lanes).alive = w.run.mask &&& ~~~lanes := by
  simp only [Warp.alive, Warp.without, hh, List.foldl_nil]

/-! ## The end of a warp -/

/-- A warp out of the schedule, as the last of its lanes leaves it. -/
def Warp.ended (w : Warp) : Warp :=
  { w with clause := none, wait := none, sched := { w.sched with port := none, engine := .herd, sprintReq := false } }

/-- A block that counts one more of its warps as exited. -/
def Block.withExited (n : Nat) (b : Block) : Block := { b with exited := nins n b.exited }

/-- A warp's exit as its block counts it, before barriers settle. -/
def exitCounted (s : State) (wid : Nat) : State :=
  (s.modWarp wid Warp.ended).modBlock (blkOf wid) (Block.withExited (warpNo wid))

theorem warpGone_alive (hw : s.warp wid = some w) (h : w.alive ≠ 0) : warpGone s wid = s := by
  simp only [warpGone, hw, if_pos h]

theorem warpGone_dead {b : Block} (hw : s.warp wid = some w) (h : w.alive = 0) (hb : s.block (blkOf wid) = some b) :
    warpGone s wid = settleGbar (settleBarriers (exitCounted s wid) (blkOf wid)) b.ctx b.gid := by
  simp only [warpGone, hw, if_neg (not_not_intro h), hb]
  rfl

/-- Barriers of a grid that settle change the grid alone (R352). -/
theorem settleGbar_leaves (s : State) (ctx gid : Nat) : (settleGbar s ctx gid).mem = s.mem
    ∧ (settleGbar s ctx gid).warps = s.warps ∧ (settleGbar s ctx gid).blocks = s.blocks := by
  unfold settleGbar
  split
  · exact ⟨rfl, rfl, rfl⟩
  · split_ifs <;> exact ⟨rfl, rfl, rfl⟩

/-- Barriers of a block that settle leave memory, warps and the block's exited warps (R351). -/
theorem settleBarriers_leaves (s : State) (bn : Nat) : (settleBarriers s bn).mem = s.mem
    ∧ (settleBarriers s bn).warps = s.warps
    ∧ ∀ b, s.block bn = some b → ∃ b', (settleBarriers s bn).block bn = some b' ∧ b'.exited = b.exited := by
  refine ⟨State.modBlock_mem _ _ _, State.modBlock_warps _ _ _, fun b hb => ?_⟩
  refine ⟨{ b with bars := b.bars.map fun e => (e.1, e.2.settle b.exited) }, ?_, rfl⟩
  rw [settleBarriers, State.block_modBlock, if_pos rfl, hb, Option.map_some]

/-- A warp that no lane is left in keeps its paths and counts as exited (R164). -/
theorem warpGone_facts {b : Block} (hw : s.warp wid = some w) (h : w.alive = 0) (hb : s.block (blkOf wid) = some b) :
    (warpGone s wid).mem = s.mem ∧ (warpGone s wid).warp wid = some w.ended
      ∧ ∃ b', (warpGone s wid).block (blkOf wid) = some b' ∧ warpNo wid ∈ b'.exited := by
  have hcount : (exitCounted s wid).block (blkOf wid) = some (b.withExited (warpNo wid)) := by
    rw [exitCounted, State.block_modBlock, if_pos rfl, State.block, State.modWarp_blocks]
    exact congrArg (Option.map _) hb
  rw [warpGone_dead hw h hb]
  obtain ⟨hgm, hgw, hgb⟩ := settleGbar_leaves (settleBarriers (exitCounted s wid) (blkOf wid)) b.ctx b.gid
  obtain ⟨hbm, hbw, hbb⟩ := settleBarriers_leaves (exitCounted s wid) (blkOf wid)
  obtain ⟨b', hb', he⟩ := hbb _ hcount
  refine ⟨?_, ?_, b', (congrArg (alook _) hgb).trans hb', he ▸ mem_nins_self _ _⟩
  · rw [hgm, hbm, exitCounted, State.modBlock_mem, State.modWarp_mem]
  · rw [State.warp_of_warps_eq hgw, State.warp_of_warps_eq hbw, exitCounted, State.warp_of_warps_eq (State.modBlock_warps _ _ _),
      warp_modWarp_some hw]

end

/-! ## The word -/

section
variable {o : Opnds} {s s0 : State} {it : Iss}

/-- Where the lanes of an `exit` leave: after its packet, at the next word if some lanes stay (R178). -/
def exitPlace (it : Iss) (s : State) : State :=
  let s1 := exitlPacket s it.wid it.act
  if it.w.run.mask &&& ~~~it.act = 0 then s1 else advance s1 it.wid

/-- `exit` on a warp with one path outside its handler (R164, R178). -/
theorem exec_exit {w : Warp} (h : issuing (.exit o) s = some (it, s0)) (ha : it.act ≠ 0)
    (hw : (exitPlace it s0).warp it.wid = some w) (hone : w.waiting = []) (hh : w.handler = none) :
    exec (.exit o) s = .next (warpGone ((exitPlace it s0).setWarp it.wid (w.without it.act)) it.wid) := by
  refine (issue_eq h _).trans (congrArg _ ((if_neg ha).trans ?_))
  have hl := leaveLanes_onePath hw hone it.act
  have he := handlerEmptied_outside ((exitPlace it s0).warp_setWarp_self it.wid (w.without it.act)) hh
  unfold exitPlace at hl he ⊢
  simp only [hl, he]

/-- Where a word acts on some lanes of its path, others stay. -/
theorem rest_of_issuing {i : Instr} (h : issuing i s = some (it, s0)) (hm : it.act ≠ it.w.run.mask) :
    it.w.run.mask &&& ~~~it.act ≠ 0 := by
  obtain ⟨wid, core, slot, w, -, -, -, rfl, -⟩ := issuing_facts h
  exact rest_ne_zero hm

/-- Where some lanes stay, the warp is at the next word. -/
theorem exitPlace_some {w : Warp} (hw : s.warp it.wid = some w) (h : it.w.run.mask &&& ~~~it.act ≠ 0) :
    AsideTrace it.wid s (exitPlace it s) ∧ (exitPlace it s).warp it.wid = some w.advance := by
  have ht : TraceOnly s (exitlPacket s it.wid it.act) := (TraceOnly.refl s).warpPacket
  rw [exitPlace, if_neg h]
  exact ⟨(AsideTrace.of_traceOnly ht).trans_onlyWarp (onlyWarp_modWarp _ _ _), warp_modWarp_some ((ht.warp _).trans hw) _⟩

/-- Where none stays, the packet is all. -/
theorem exitPlace_all (h : it.act = it.w.run.mask) : TraceOnly s (exitPlace it s) := by
  rw [exitPlace, if_pos (by rw [h, BitVec.and_not_self])]
  exact (TraceOnly.refl s).warpPacket

end

end Sys2Proof.Machine

namespace Sys2Proof

open Machine

/-- Settles O20: `exec_exit`, with the warp past the word where some lanes stay, and its end where none does. -/
theorem exitWords : Obligations.ExitWords := by
  unfold Obligations.ExitWords
  intro o s s0 it h hone hh ha
  obtain ⟨n, b, r, p, hw⟩ := asIssued_of_issuing h
  set w := (it.w.atIssue n).drained b r p
  refine ⟨fun hm => ?some, fun hm blk hblk => ?all⟩
  case some =>
    have hrest := rest_of_issuing h hm
    obtain ⟨hkept, hv, hs, -, -, -, -, hrun⟩ := advance_facts w
    obtain ⟨haside, hplace⟩ := exitPlace_some hw hrest
    have hh' := hkept.handler.trans hh
    have hleft := (exitPlace it s0).warp_setWarp_self it.wid (w.advance.without it.act)
    have hlanes : (w.advance.without it.act).alive ≠ 0 := by
      rw [alive_without hh', hrun]
      exact hrest
    have hexit := exec_exit h ha hplace (hkept.waiting.trans hone) hh'
    rw [warpGone_alive hleft hlanes] at hexit
    refine ⟨_, hexit, haside.trans_onlyWarp (onlyWarp_setWarp _ _ _), _, hleft, ?_, hv, hs⟩
    rw [Warp.without, hrun]
    rfl
  case all =>
    have ht := exitPlace_all (s := s0) hm
    have hleft := (exitPlace it s0).warp_setWarp_self it.wid (w.without it.act)
    have hnone : it.w.run.mask &&& ~~~it.act = 0 := by rw [hm, BitVec.and_not_self]
    rw [blk_of_issuing h] at hblk ⊢
    have hb : ((exitPlace it s0).setWarp it.wid (w.without it.act)).block (blkOf it.wid) = some blk :=
      (congrArg (alook _) ht.blocks).trans hblk
    obtain ⟨hmem, hgone, hexited⟩ := warpGone_facts hleft ((alive_without hh it.act).trans hnone) hb
    exact ⟨_, exec_exit h ha ((ht.warp _).trans hw) hone hh, hmem.trans ht.mem, ⟨_, hgone, hnone, rfl⟩, hexited⟩

end Sys2Proof

/-! # Words that compute and words that test (O1, O2, O3, O5)

A word that computes is completed by one write of D, whole or word by word; a word that tests by one write of a predicate. What the
statements add is the function of the sources. -/

namespace Sys2Proof.Machine

/-! ## Words by the write that completes them -/

/-- A word whose effect is `valueW` computes its words and raises no status bit. -/
theorem yieldsWords_of_valueW {i : Instr} {f : Iss → Nat → Nat → PV} (hk : keepsStores i = true)
    (he : ∀ s, exec i s = issue i s fun it s => valueW it s (f it)) : YieldsWords i f := by
  intro s s0 it hi
  obtain ⟨now, hw⟩ := warp_at_issue hi (.inl hk)
  exact ⟨_, (he s).trans (issue_eq hi _), valueW_computes hw (f it)⟩

/-- A word whose effect is a write of a predicate and of status bits tests. -/
theorem decides_of_pdput {i : Instr} {clean : Iss → Prop} {f : Iss → Nat → Bool} {fl : Iss → Nat}
    {body : Iss → State → State} (hk : keepsStores i = true) (he : ∀ s, exec i s = issue i s body)
    (hb : ∀ it s, clean it → body it s = commit it s fun w => stickFstat (w.pdput it.o.d it.act (f it)) (fl it)) :
    Decides i clean f fl := by
  intro s s0 it hi hc
  obtain ⟨now, hw⟩ := warp_at_issue hi (.inl hk)
  refine ⟨body it s0, (he s).trans (issue_eq hi body), ?_⟩
  rw [hb it s0 hc]
  exact pdput_tests hw (f it) (fl it)

theorem stickFstat_zero (w : Warp) : stickFstat w 0 = w := by simp [stickFstat]

theorem firstLane_eq_none {it : Iss} {f : Nat → Bool} (h : ∀ l ∈ it.lanes, f l = false) : it.firstLane f = none :=
  List.find?_eq_none.mpr fun l hl => by simp [h l hl]

/-- A word whose effect is `predicate` tests where no active lane finds a poisoned source. -/
theorem decides_of_predicate {i : Instr} {clean : Iss → Prop} {pois f : Iss → Nat → Bool} (hk : keepsStores i = true)
    (hc : ∀ it, clean it → ∀ l ∈ it.lanes, pois it l = false)
    (he : ∀ s, exec i s = issue i s fun it s => predicate it s (pois it) (f it)) : Decides i clean f fun _ => 0 :=
  decides_of_pdput hk he fun it s h => by simp only [predicate, firstLane_eq_none (hc it h), stickFstat_zero]

/-- A selection gives the words of the operand chosen (R191, R199). -/
theorem selected_eq (it : Iss) (negc : Bool) : it.selected negc = fun h l =>
    if it.w.psrc it.o.c l != negc then it.srcW it.o.ty it.o.a h l else it.srcW it.o.ty it.o.b h l := by
  funext h l
  unfold Iss.selected
  split <;> rfl

/-! ## Lanes that vote -/

theorem mem_lanesOf {m : Word} {l : Nat} : l ∈ lanesOf m ↔ m.getLsbD l = true := by
  rw [lanesOf, List.mem_filter, List.mem_range]
  exact and_iff_right_of_imp BitVec.lt_of_getLsbD

section
variable {it : Iss} {f : Nat → Bool}

theorem getLsbD_maskWhere {l : Nat} (hl : l < 32) : (it.maskWhere f).getLsbD l = (it.act.getLsbD l && f l) := getLsbD_maskOf _ hl

theorem maskWhere_eq_iff {m : Word} (hm : ∀ l, it.act.getLsbD l = false → m.getLsbD l = false) :
    it.maskWhere f = m ↔ ∀ l ∈ it.lanes, f l = m.getLsbD l := by
  constructor
  · intro h l hl
    have ha := mem_lanesOf.mp hl
    rw [← h, getLsbD_maskWhere (BitVec.lt_of_getLsbD ha), ha, Bool.true_and]
  · intro h
    refine BitVec.eq_of_getLsbD_eq fun l hl => ?_
    rw [getLsbD_maskWhere hl]
    cases ha : it.act.getLsbD l with
    | false => exact (hm l ha).symm
    | true => exact h l (mem_lanesOf.mpr ha)

theorem maskWhere_eq_zero : it.maskWhere f = 0 ↔ ∀ l ∈ it.lanes, f l = false := by
  rw [maskWhere_eq_iff (m := 0) fun _ _ => BitVec.getLsbD_zero]
  exact forall₂_congr fun l _ => Eq.congr_right BitVec.getLsbD_zero

theorem maskWhere_eq_act : it.maskWhere f = it.act ↔ ∀ l ∈ it.lanes, f l = true := by
  rw [maskWhere_eq_iff fun _ h => h]
  exact forall₂_congr fun l hl => by rw [mem_lanesOf.mp hl]

end

section
variable (it : Iss) (nega : Bool)

/-- `vote.any` (R194). -/
theorem votes_some : (it.votes nega != 0) = it.lanes.any fun l => it.w.psrc it.o.a l != nega := by
  have h : it.votes nega = 0 ↔ _ := maskWhere_eq_zero
  rw [Bool.eq_iff_iff, bne_iff_ne, ne_eq, h]
  simp

/-- `vote.all` (R194). -/
theorem votes_all : (it.votes nega == it.act) = it.lanes.all fun l => it.w.psrc it.o.a l != nega := by
  have h : it.votes nega = it.act ↔ _ := maskWhere_eq_act
  rw [Bool.eq_iff_iff, beq_iff_eq, h]
  simp

/-- No active lane's predicate holds, for `vote.uni` (R194). -/
theorem votes_none : (it.votes nega == 0) = it.lanes.all fun l => it.w.psrc it.o.a l == nega := by
  have h : it.votes nega = 0 ↔ _ := maskWhere_eq_zero
  rw [Bool.eq_iff_iff, beq_iff_eq, h]
  simp

end

end Sys2Proof.Machine

namespace Sys2Proof

open Machine

/-- Settles O1: each word is `value2`, `value3` or `value1` of its function. -/
theorem uniformArithmetic : Obligations.UniformArithmetic := by
  unfold Obligations.UniformArithmetic
  intro o
  refine ⟨fun sat => ?sadd, fun sat => ?ssub, fun mode => ?smul, fun mode => ?smad, fun kind => ?sshf, ?spop⟩
  case sadd | ssub | smul | smad | sshf | spop => exact yields_of_value rfl fun _ => rfl

/-- Settles O2: each word is `valueW` of its words or `value` of its number; a selection takes the words of the operand chosen. -/
theorem movesAndTables : Obligations.MovesAndTables := by
  unfold Obligations.MovesAndTables
  intro o
  refine ⟨?smov, ?mov, fun negc => ?ssel, fun negc => ?sel, fun fn => ?slop, fun fn => ?bitfn, fun off => ?movi,
    fun r => ?sread⟩
  case smov | mov | slop | bitfn => exact yieldsWords_of_valueW rfl fun _ => rfl
  case ssel | sel =>
    exact yieldsWords_of_valueW rfl fun s => congrArg (issue _ s)
      (funext₂ fun it s => congrArg (valueW it s) (selected_eq it negc))
  case movi | sread => exact yields_of_value rfl fun _ => rfl

/-- Settles O3: each word is `value1`, `value2` or `value3` of its function. -/
theorem integerArithmetic : Obligations.IntegerArithmetic := by
  unfold Obligations.IntegerArithmetic
  intro o
  refine ⟨fun sat => ?iadd, fun sat => ?isub, fun mode => ?imul, fun mode => ?imad, ?imin, ?imax, fun sat => ?iabs, ?isad,
    fun bsign sat => ?idp4, fun sh => ?lea⟩
  case iabs =>
    simp only [Int.abs_eq_natAbs]
    exact yields_of_value rfl fun _ => rfl
  case iadd | isub | imul | imad | imin | imax | isad | idp4 | lea => exact yields_of_value rfl fun _ => rfl

/-- Settles O5: comparisons and `plop` are `predicate` of their test, and `fsetp` adds status bits; a vote counts the lanes whose
predicate holds. -/
theorem predicateWords : Obligations.PredicateWords := by
  unfold Obligations.PredicateWords
  intro o
  refine ⟨fun cmp comb => ?ssetp, fun cmp comb => ?isetp, fun cmp comb => ?fsetp, fun fn => ?plop, fun nega => ?any,
    fun nega => ?all, fun nega => ?uni, fun nega => ?ballot⟩
  case ssetp | isetp => exact decides_of_predicate rfl (fun _ h => h) fun _ => rfl
  case fsetp => exact decides_of_pdput rfl (fun _ => rfl) fun it s h => by simp only [firstLane_eq_none h]; rfl
  case plop => exact decides_of_predicate (pois := fun _ _ => false) rfl (fun _ _ _ _ => rfl) fun _ => rfl
  case any => exact decides_of_pdput rfl (fun _ => rfl) fun it s _ => by simp only [votes_some, stickFstat_zero]
  case all => exact decides_of_pdput rfl (fun _ => rfl) fun it s _ => by simp only [votes_all, stickFstat_zero]
  case uni =>
    exact decides_of_pdput rfl (fun _ => rfl) fun it s _ => by simp only [votes_none, votes_all, Bool.or_comm, stickFstat_zero]
  case ballot =>
    intro s s0 it hi
    obtain ⟨now, hw⟩ := warp_at_issue hi (.inl rfl)
    exact ⟨_, issue_eq hi _, value_computes hw .b32 _⟩

end Sys2Proof

/-! # Scheduling and format words (O15, O16)

Each of these words completes by `commit` with a change of its own that writes no register, parks, or takes a trap. -/

namespace Sys2Proof.Machine

theorem onlyWarp_trans {wid : Nat} {r s t : State} (h : OnlyWarp wid r s) (k : OnlyWarp wid s t) : OnlyWarp wid r t where
  agenda := k.agenda.trans h.agenda
  cur := k.cur.trans h.cur
  free := k.free.trans h.free
  dev := k.dev.trans h.dev
  mem := k.mem.trans h.mem
  cores := k.cores.trans h.cores
  pairs := k.pairs.trans h.pairs
  ctxs := k.ctxs.trans h.ctxs
  grids := k.grids.trans h.grids
  blocks := k.blocks.trans h.blocks
  blkNext := k.blkNext.trans h.blkNext
  cmdNext := k.cmdNext.trans h.cmdNext
  warps x hx := (k.warps x hx).trans (h.warps x hx)

/-- The path, the status bits and the place in the schedule are none of what a computing word keeps. -/
theorem warpKept_with (w : Warp) (r : Path) (f : Word) (sc : Sched) : WarpKept w { w with run := r, fstat := f, sched := sc } :=
  ⟨rfl, rfl, rfl, rfl, rfl, rfl, rfl, rfl, rfl, rfl, rfl, rfl, rfl, rfl, rfl, rfl⟩

theorem advance_run (w : Warp) : w.advance.run = nextRun w :=
  let ⟨_, _, _, _, _, _, _, hrun⟩ := advance_facts w
  hrun

theorem advance_fstat (w : Warp) : w.advance.fstat = w.fstat :=
  let ⟨_, _, _, _, _, _, hf, _⟩ := advance_facts w
  hf

theorem advance_sprintReq (w : Warp) : w.advance.sched.sprintReq = w.sched.sprintReq := by
  unfold Warp.advance Warp.passed
  dsimp only
  split
  · split_ifs <;> rfl
  · rfl

/-- The place after a word does not depend on its releases. -/
theorem nextRun_atWrites (it : Iss) (now : Noted) : nextRun (atWrites it now) = nextRun it.w :=
  let ⟨_, _, _, _, _, _, _, hrun, hcl⟩ := atWrites_facts it now
  nextRun_congr hrun hcl

theorem atWrites_fstat (it : Iss) (now : Noted) : (atWrites it now).fstat = it.w.fstat :=
  let ⟨_, _, _, _, _, _, hf, _, _⟩ := atWrites_facts it now
  hf

section
variable {it : Iss} {s : State} {now : Noted}

/-- A word that completes with a change of its own, which writes no register. -/
theorem commit_becomes (h : s.warp it.wid = some (it.w.atIssue now)) {f : Warp → Warp}
    (hf : ∀ w, WarpKept w (f w) ∧ (f w).s = w.s ∧ (f w).p = w.p ∧ (f w).q = w.q) :
    WarpBecomes it s (commit it s f) fun w' => w' = (f (atWrites it now)).advance ∧ WarpKept it.w w'
      ∧ w'.s = it.w.s ∧ w'.p = it.w.p ∧ w'.q = it.w.q := by
  obtain ⟨honly, hafter⟩ := commit_facts h f
  obtain ⟨ak, -, as, ap, aq, -, -, -, -⟩ := atWrites_facts it now
  obtain ⟨fk, fs, fp, fq⟩ := hf (atWrites it now)
  obtain ⟨dk, -, ds, dp, dq, -, -, -⟩ := advance_facts (f (atWrites it now))
  exact ⟨honly, _, hafter, rfl, warpKept_trans ak (warpKept_trans fk dk), ds.trans (fs.trans as), dp.trans (fp.trans ap),
    dq.trans (fq.trans aq)⟩

/-- A word that completes and gives the port up (R173, R179). -/
theorem commit_yields (h : s.warp it.wid = some (it.w.atIssue now)) (n : Nat) :
    WarpBecomes it s ((commit it s id).modWarp it.wid fun w => w.yieldPort n) fun w' => w'.run = nextRun it.w
      ∧ w'.sched.port = none ∧ w'.sched.lastIssue = n ∧ WarpKept it.w w' ∧ w'.s = it.w.s ∧ w'.p = it.w.p ∧ w'.q = it.w.q := by
  obtain ⟨honly, w', hw', he, hk, hs, hp, hq⟩ := commit_becomes h (f := id) fun w => ⟨(RegsOnly.refl w).kept, rfl, rfl, rfl⟩
  have hrun : w'.run = nextRun it.w := by rw [he, advance_run, id, nextRun_atWrites]
  exact ⟨onlyWarp_trans honly (onlyWarp_modWarp _ _ _), _, warp_modWarp_some hw' _, hrun, rfl, rfl,
    warpKept_trans hk (warpKept_with ..), hs, hp, hq⟩

end

theorem flagsClear_eq_false {w : Warp} {m : BitVec 12} {f : Nat} (hf : f < 12) (hm : m.getLsbD f = true) (h : w.flag f ≠ 0) :
    flagsClear w m = false := by
  rw [flagsClear, List.all_eq_false]
  exact ⟨f, List.mem_range.mpr hf, by simp [hm, h]⟩

section
variable {o : Opnds} {s s0 : State} {it : Iss}

/-- `nap` with a clean count (R179). -/
theorem exec_nap (h : issuing (.nap o) s = some (it, s0)) (ha : it.act ≠ 0) (hp : (it.src .n32 it.o.a 0).pois = false) :
    exec (.nap o) s = .next (if min (num it .n32 it.o.a 0) (2 ^ 20) = 0 ∨ napOver s0 it.wid it.w then
        (commit it s0 id).modWarp it.wid fun w => w.yieldPort s0.dev.now
      else parkWait s0 it.wid (.nap (s0.nonStalled it.core + min (num it .n32 it.o.a 0) (2 ^ 20)))) := by
  refine (issue_eq h _).trans (congrArg _ ((if_neg ha).trans (if_neg ?_)))
  rw [hp]
  exact Bool.false_ne_true

/-- `setfmt` of a value (R181). -/
theorem exec_setfmt {form : SetFmtForm} (h : issuing (.setfmt o form) s = some (it, s0)) (ha : it.act ≠ 0)
    (hf : form ≠ .clear) :
    exec (.setfmt o form) s = .next (if (it.src .b32 it.o.a 0).pois then raise it s0 .poison 0 it.act 0
      else if badFmt (num it .b32 it.o.a 0) then raise it s0 .format 0 it.act 0
      else commit it s0 fun w => { w with
        run := { w.run with fmt := BitVec.ofNat 32 (num it .b32 it.o.a 0) }
        fstat := if form = .writeClear then 0 else w.fstat }) :=
  (issue_eq h _).trans (congrArg _ ((if_neg ha).trans (if_neg hf)))

theorem badFmt_of_reserved {v : Nat} (h : 2 ^ 16 ≤ v ∨ v / 2 ^ 12 % 4 = 3) : badFmt v = true := by
  rw [badFmt, Bool.or_eq_true, bne_iff_ne, beq_iff_eq]
  exact h.imp_left fun hv => by omega

end

end Sys2Proof.Machine

namespace Sys2Proof

open Machine

/-- Settles O15: `nop` and `fwait` on clear flags complete without a change, `yield` and a `nap` of 0 by `commit_yields`; the waits
park the warp; `sprint` changes the request alone. -/
theorem schedulingWords : Obligations.SchedulingWords := by
  unfold Obligations.SchedulingWords
  refine ⟨fun o s s0 it h => ?nop, fun o s s0 it h ha => ?yield, fun o m s s0 it h ha hm => ?clear,
    fun o m s s0 it f h ha hf hm hn => ?raised, fun o s s0 it h ha hp hn ho => ?naps, fun o s s0 it h ha hp hn => ?noNap,
    fun o clr s s0 it h ha => ?sprint⟩
  all_goals obtain ⟨now, hw⟩ := warp_at_issue h (.inl rfl)
  case nop => exact ⟨_, issue_eq h _, commit_passes hw fun _ => rfl⟩
  case yield => exact ⟨_, (issue_eq h _).trans (congrArg _ (if_neg ha)), commit_yields hw _⟩
  case clear =>
    refine ⟨_, (issue_eq h _).trans (congrArg _ (if_pos ?_)), commit_passes hw fun _ => rfl⟩
    rw [flagsClear_of hm, Bool.or_true]
  case raised =>
    refine ⟨_, (issue_eq h _).trans (congrArg _ (if_neg ?_)), onlyWarp_modWarp _ _ _, _, warp_modWarp_some hw _, rfl, rfl⟩
    simpa [flagsClear_eq_false hf hm hn] using ha
  case naps =>
    have hpark : ¬(min (num it .n32 it.o.a 0) (2 ^ 20) = 0 ∨ napOver s0 it.wid it.w = true) := by
      rintro (h0 | hover)
      · omega
      · exact Bool.false_ne_true (ho.symm.trans hover)
    refine ⟨_, (exec_nap h ha hp).trans (congrArg _ (if_neg hpark)), onlyWarp_modWarp _ _ _, _, warp_modWarp_some hw _, ?_⟩
    exact ⟨rfl, rfl, rfl, rfl, rfl, rfl⟩
  case noNap =>
    have hover : min (num it .n32 it.o.a 0) (2 ^ 20) = 0 ∨ napOver s0 it.wid it.w = true := hn.imp_left fun h0 => by simp [h0]
    obtain ⟨honly, w', hw', hrun, hport, -⟩ := commit_yields hw s0.dev.now
    exact ⟨_, (exec_nap h ha hp).trans (congrArg _ (if_pos hover)), honly, w', hw', hrun, hport⟩
  case sprint =>
    obtain ⟨honly, w', hw', he, hk, -⟩ := commit_becomes hw (f := fun w => if it.act = 0 then w else
      { w with sched := { w.sched with sprintReq := !clr } }) fun w => by
        rw [if_neg ha]
        exact ⟨warpKept_with .., rfl, rfl, rfl⟩
    rw [if_neg ha] at he
    refine ⟨_, issue_eq h _, honly, w', hw', ?_, ?_, hk⟩
    · rw [he, advance_sprintReq]
    · rw [he, advance_run]
      exact nextRun_atWrites it now

/-- Settles O16: `setfmt` is `exec_setfmt` in each of its cases, and `getfmt` writes one value. -/
theorem formatWords : Obligations.FormatWords := by
  unfold Obligations.FormatWords
  refine ⟨fun o form s s0 it h ha hf hp hb => ?write, fun o s s0 it h ha => ?clear, fun o s s0 it h => ?getfmt,
    fun o form s s0 it h ha hf => ⟨fun hp => ?poison, fun hp hv => ?format⟩⟩
  case write =>
    obtain ⟨now, hw⟩ := warp_at_issue h (.inl rfl)
    have he := exec_setfmt h ha hf
    rw [hp, hb, if_neg Bool.false_ne_true, if_neg Bool.false_ne_true] at he
    obtain ⟨honly, w', hw', hadv, hk, hs, hp, hq⟩ := commit_becomes hw (f := fun w => { w with
      run := { w.run with fmt := BitVec.ofNat 32 (num it .b32 it.o.a 0) }
      fstat := if form = .writeClear then 0 else w.fstat }) fun w => ⟨warpKept_with .., rfl, rfl, rfl⟩
    refine ⟨_, he, honly, w', hw', ?_, ?_, hk, hs, hp, hq⟩
    · rw [hadv, advance_run, ← nextRun_atWrites it now]
      rfl
    · rw [hadv, advance_fstat]
      dsimp only
      rw [atWrites_fstat]
  case clear =>
    obtain ⟨now, hw⟩ := warp_at_issue h (.inl rfl)
    obtain ⟨honly, w', hw', hadv, hk, -⟩ :=
      commit_becomes hw (f := fun w => { w with fstat := 0 }) fun w => ⟨warpKept_with .., rfl, rfl, rfl⟩
    refine ⟨_, (issue_eq h _).trans (congrArg _ ((if_neg ha).trans (if_pos rfl))), honly, w', hw', ?_, ?_, hk⟩
    · rw [hadv, advance_run, ← nextRun_atWrites it now]
      rfl
    · rw [hadv, advance_fstat]
  case getfmt =>
    obtain ⟨now, hw⟩ := warp_at_issue h (.inl rfl)
    exact ⟨_, issue_eq h _, value_computes hw .b32 _⟩
  case poison => exact (exec_setfmt h ha hf).trans (congrArg _ (if_pos hp))
  case format =>
    refine (exec_setfmt h ha hf).trans (congrArg _ ((if_neg ?_).trans (if_pos (badFmt_of_reserved hv))))
    rw [hp]
    exact Bool.false_ne_true

end Sys2Proof

/-! # Calls, returns and indirect branches (O18, O19) -/

namespace Sys2Proof.AsideTrace

open Machine

variable {wid : Nat} {r s t : State}

theorem of_onlyWarp (h : OnlyWarp wid s t) : AsideTrace wid s t :=
  ⟨h.free, h.dev, h.mem, h.pairs, h.grids, h.blocks, h.blkNext, h.cmdNext, h.warps⟩

protected theorem trans (h : AsideTrace wid r s) (k : AsideTrace wid s t) : AsideTrace wid r t where
  free := k.free.trans h.free
  dev := k.dev.trans h.dev
  mem := k.mem.trans h.mem
  pairs := k.pairs.trans h.pairs
  grids := k.grids.trans h.grids
  blocks := k.blocks.trans h.blocks
  blkNext := k.blkNext.trans h.blkNext
  cmdNext := k.cmdNext.trans h.cmdNext
  warps x hx := (k.warps x hx).trans (h.warps x hx)

end Sys2Proof.AsideTrace

namespace Sys2Proof.Machine

/-! ## The groups of lanes that name one target -/

/-- A lane of an indirect branch and its target (R175). -/
def laneGroup (t : DWord) (l : Nat) : Group := ⟨t, 0, maskOf (· == l)⟩

theorem getLsbD_laneGroup (t : DWord) {l j : Nat} (hj : j < 32) : (laneGroup t l).mask.getLsbD j = (j == l) := getLsbD_maskOf _ hj

theorem laneGroup_ne_zero (t : DWord) {l : Nat} (hl : l < 32) : (laneGroup t l).mask ≠ 0 := by
  intro h
  have hb := getLsbD_laneGroup t (l := l) hl
  rw [h, beq_self_eq_true] at hb
  exact Bool.false_ne_true (BitVec.getLsbD_zero.symm.trans hb)

/-- Groups with one PC join (R158). -/
theorem insGroup_joins (t : DWord) (m : Word) (ls : List Nat) :
    ∃ m', (ls.map (laneGroup t)).foldl (fun l g => insGroup g l) [⟨t, 0, m⟩] = [⟨t, 0, m'⟩]
      ∧ ∀ j, j < 32 → m'.getLsbD j = (m.getLsbD j || ls.contains j) := by
  induction ls generalizing m with
  | nil => exact ⟨m, rfl, fun j _ => by simp⟩
  | cons l ls ih =>
    obtain ⟨m', hf, hm⟩ := ih (m ||| (laneGroup t l).mask)
    have hins : insGroup (laneGroup t l) [⟨t, 0, m⟩] = [⟨t, 0, m ||| (laneGroup t l).mask⟩] := if_pos rfl
    refine ⟨m', ?_, fun j hj => ?_⟩
    · rw [List.map_cons, List.foldl_cons, hins, hf]
    · rw [hm j hj, BitVec.getLsbD_or, getLsbD_laneGroup t hj, List.contains_cons, Bool.or_assoc]

/-- Lanes that all name one target make one group. -/
theorem groupsOf_sameTarget (t : DWord) {m : Word} (hm : m ≠ 0) : groupsOf ((lanesOf m).map (laneGroup t)) = [⟨t, 0, m⟩] := by
  have hkeep : ((lanesOf m).map (laneGroup t)).filter (fun g => g.mask != 0) = (lanesOf m).map (laneGroup t) := by
    rw [List.filter_eq_self]
    intro g hg
    obtain ⟨l, hl, rfl⟩ := List.mem_map.mp hg
    exact bne_iff_ne.mpr (laneGroup_ne_zero t (BitVec.lt_of_getLsbD (mem_lanesOf.mp hl)))
  rw [groupsOf, hkeep]
  cases hls : lanesOf m with
  | nil =>
    refine absurd (BitVec.eq_of_getLsbD_eq fun j hj => ?_) hm
    have hj' : j ∉ lanesOf m := by rw [hls]; exact List.not_mem_nil
    rw [mem_lanesOf, Bool.not_eq_true] at hj'
    exact hj'.trans BitVec.getLsbD_zero.symm
  | cons l ls =>
    obtain ⟨m', hf, hm'⟩ := insGroup_joins t (laneGroup t l).mask ls
    have he : m' = m := BitVec.eq_of_getLsbD_eq fun j hj => by
      rw [hm' j hj, getLsbD_laneGroup t hj, ← List.contains_cons, ← hls, Bool.eq_iff_iff, List.contains_iff_mem, mem_lanesOf]
    rw [List.map_cons, List.foldl_cons]
    exact he ▸ hf

/-- An empty group changes nothing. -/
theorem groupsOf_cons_empty {g : Group} (h : g.mask = 0) (gs : List Group) : groupsOf (g :: gs) = groupsOf gs := by
  rw [groupsOf, List.filter_cons_of_neg (by simp [h]), groupsOf]

/-! ## Where an indirect branch goes -/

theorem TraceOnly.foldl {α : Type} {r s : State} {f : State → α → State} (h : TraceOnly r s)
    (hf : ∀ s x, TraceOnly r s → TraceOnly r (f s x)) (l : List α) : TraceOnly r (l.foldl f s) := by
  induction l generalizing s with
  | nil => exact h
  | cons x l ih => exact ih (hf s x h)

theorem traceOnly_targetPackets (it : Iss) (s : State) (gs : List Group) : TraceOnly s (targetPackets it s gs) :=
  (TraceOnly.refl s).foldl (fun _ _ h => h.warpPacket) gs

theorem placed_keeps (w : Warp) (sc : Sched) : (w.placed sc).run = w.run ∧ (w.placed sc).s = w.s := ⟨rfl, rfl⟩

section
variable {it : Iss} {s0 s : State} {w : Warp}

/-- An indirect branch of every lane of a warp's one path to one target (R158, R175). -/
theorem goIndirect_ahead (hw : s.warp it.wid = some w) (hrun : w.run = it.w.run) (hone : w.waiting = [])
    (hall : it.act = it.w.run.mask) (hmask : it.w.run.mask ≠ 0) (t : DWord) :
    AsideTrace it.wid s (goIndirect it s0 s (it.lanes.map (laneGroup t))) ∧ ∃ w',
      (goIndirect it s0 s (it.lanes.map (laneGroup t))).warp it.wid = some w'
        ∧ w'.run = { it.w.run with pc := t, widx := 0 } ∧ w'.s = w.s := by
  set gs := it.lanes.map (laneGroup t)
  set w1 := w.releases it.instr w.run.mask
  set all := stayGroup it.w (it.w.run.mask &&& ~~~it.act) :: gs
  obtain ⟨hk, hs, -, -⟩ := releases_facts w it.instr w.run.mask
  have hg : groupsOf all = [⟨t, 0, it.w.run.mask⟩] := by
    rw [groupsOf_cons_empty (by rw [hall, stayGroup, BitVec.and_not_self])]
    exact hall ▸ groupsOf_sameTarget t (hall ▸ hmask)
  have hwait : (w1.split (groupsOf all)).waiting = [] := by rw [hg, (split_one _ _).1, hk.kept.waiting, hone]
  obtain ⟨sc, t', hb, ht⟩ := branchTo_ahead (gs := all) (warp_modWarp_some hw fun w => w.releases it.instr w.run.mask)
    (fun s => traceOnly_targetPackets it s (groupsOf gs)) (by rw [hwait]; exact Nat.zero_le 8)
    (fun e he => by rw [hwait] at he; exact absurd he List.not_mem_nil)
  have hgo : goIndirect it s0 s gs = t' := by
    unfold goIndirect orRefill
    dsimp only
    rw [hb]
  rw [hgo]
  have hpath : (w1.split (groupsOf all)).run = { it.w.run with pc := t, widx := 0 } := by
    rw [hg, (split_one _ _).2, hk.run, hrun]
  obtain ⟨-, hsplit, -⟩ := split_regs w1 (groupsOf all)
  obtain ⟨prun, ps⟩ := placed_keeps (w1.split (groupsOf all)) sc
  exact ⟨(AsideTrace.of_onlyWarp (onlyWarp_modWarp _ _ _)).trans ht.aside, _,
    (ht.warp _).trans (State.warp_setWarp_self ..), prun.trans hpath, ps.trans (hsplit.trans hs)⟩

/-- The checks of R175 let targets that are one aligned address of the space pass. -/
theorem indirect_goes {tgt : DWord} (h8 : tgt.toNat % 8 = 0) (h56 : tgt.toNat < 2 ^ 56)
    (ht : ∀ l ∈ it.lanes, it.target l = ⟨tgt.toNat, false⟩) (k : List Group → State) :
    indirect it s k = k (it.lanes.map (laneGroup tgt)) := by
  have hpois : (it.firstLane fun l => (it.target l).pois) = none := firstLane_eq_none fun l hl => by rw [ht l hl]
  have haddr : (it.firstLane fun l => decide (2 ^ 56 ≤ (it.target l).v)) = none :=
    firstLane_eq_none fun l hl => by rw [ht l hl, decide_eq_false_iff_not]; exact Nat.not_le.mpr h56
  have halign : (it.firstLane fun l => (it.target l).v % 8 != 0) = none :=
    firstLane_eq_none fun l hl => by rw [ht l hl, h8]; rfl
  have hgroups : (it.lanes.map fun l => (⟨BitVec.ofNat 64 (it.target l).v, 0, maskOf (· == l)⟩ : Group))
      = it.lanes.map (laneGroup tgt) := List.map_congr_left fun l hl => by
    rw [ht l hl, BitVec.ofNat_toNat, BitVec.setWidth_eq, laneGroup]
  simp only [indirect, hpois, haddr, halign, hgroups]

/-! ## The link -/

/-- A pair of uniform registers holds the value written to it. -/
theorem sget_sput64 (w : Warp) (r : Nat) (x : PV) (y : Nat) : (w.sput64 r x).sget y =
    if y = r + 1 then ⟨BitVec.ofNat 32 (x.v / 2 ^ 32), x.pois⟩ else if y = r then ⟨BitVec.ofNat 32 x.v, x.pois⟩
      else w.sget y := by
  rw [Warp.sput64, sput_s_get, sput_s_get]

theorem words_toNat (x : Nat) : (BitVec.ofNat 32 x).toNat + 2 ^ 32 * (BitVec.ofNat 32 (x / 2 ^ 32)).toNat = x % 2 ^ 64 := by
  rw [BitVec.toNat_ofNat, BitVec.toNat_ofNat]
  omega

/-- The address of the next word, as a warp's link (R176). -/
def Warp.linkTo (w : Warp) (pc : DWord) : Warp := w.sput64 94 ⟨pc.toNat, false⟩

/-- A link changes uniform registers alone. -/
theorem linkTo_keeps (w : Warp) (pc : DWord) :
    (w.linkTo pc).run = w.run ∧ (w.linkTo pc).waiting = w.waiting ∧ (w.linkTo pc).v = w.v := by
  dsimp only [Warp.linkTo, Warp.sput64, Warp.sput]
  exact ⟨rfl, rfl, rfl⟩

theorem linkTo_words (w : Warp) (pc : DWord) :
    ((w.linkTo pc).sget 94).val.toNat + 2 ^ 32 * ((w.linkTo pc).sget 95).val.toNat = pc.toNat := by
  rw [Warp.linkTo, sget_sput64, sget_sput64, if_neg (by decide), if_pos rfl, if_pos rfl, words_toNat, Nat.mod_eq_of_lt pc.isLt]

theorem sget_linkTo (w : Warp) (pc : DWord) {x : Nat} (h94 : x ≠ 94) (h95 : x ≠ 95) : (w.linkTo pc).sget x = w.sget x := by
  rw [Warp.linkTo, sget_sput64, if_neg h95, if_neg h94]

theorem linked_facts (hw : s.warp it.wid = some w) (ha : it.act ≠ 0) :
    OnlyWarp it.wid s (linked it s) ∧ (linked it s).warp it.wid = some (w.linkTo (it.w.run.pc + 8)) := by
  rw [linked, if_neg ha]
  exact ⟨onlyWarp_modWarp _ _ _, warp_modWarp_some hw _⟩

/-! ## The checks of the targets -/

theorem firstLane_some {f : Nat → Bool} (h : ∃ l ∈ it.lanes, f l = true) : ∃ l, it.firstLane f = some l :=
  Option.isSome_iff_exists.mp (List.find?_isSome.mpr h)

theorem indirect_poison (h : ∃ l ∈ it.lanes, (it.target l).pois = true) (k : List Group → State) :
    ∃ m, indirect it s k = takeTrap s it.wid ⟨.poison, 0, 0, m, 0, 0, false⟩ := by
  obtain ⟨l, hl⟩ := firstLane_some h
  simp only [indirect, hl]
  exact ⟨_, rfl⟩

theorem indirect_address (hp : ∀ l ∈ it.lanes, (it.target l).pois = false) (h : ∃ l ∈ it.lanes, 2 ^ 56 ≤ (it.target l).v)
    (k : List Group → State) : ∃ m a, indirect it s k = takeTrap s it.wid ⟨.address, 0, 0, m, a, 0, false⟩ := by
  obtain ⟨l, hl⟩ := firstLane_some (it := it) (f := fun l => decide (2 ^ 56 ≤ (it.target l).v)) (by simpa using h)
  simp only [indirect, firstLane_eq_none hp, hl]
  exact ⟨_, _, rfl⟩

theorem indirect_misaligned (hp : ∀ l ∈ it.lanes, (it.target l).pois = false ∧ (it.target l).v < 2 ^ 56)
    (h : ∃ l ∈ it.lanes, (it.target l).v % 8 ≠ 0) (k : List Group → State) :
    ∃ m a, indirect it s k = takeTrap s it.wid ⟨.misaligned, 0, 0, m, a, 0, false⟩ := by
  have haddr : (it.firstLane fun l => decide (2 ^ 56 ≤ (it.target l).v)) = none :=
    firstLane_eq_none fun l hl => decide_eq_false (Nat.not_le.mpr (hp l hl).2)
  obtain ⟨l, hl⟩ := firstLane_some (it := it) (f := fun l => (it.target l).v % 8 != 0) (by simpa using h)
  simp only [indirect, firstLane_eq_none fun l hl => (hp l hl).1, haddr, hl]
  exact ⟨_, _, rfl⟩

end

/-- An indirect branch checks its targets before it goes to them. -/
theorem exec_indirect {o : Opnds} {i : Instr} {s s0 : State} {it : Iss} (hi : i = .bri o ∨ i = .ret o ∨ i = .calli o)
    (h : issuing i s = some (it, s0)) : ∃ k, exec i s = .next (indirect it s0 k) := by
  rcases hi with rfl | rfl | rfl <;> exact ⟨_, issue_eq h _⟩

end Sys2Proof.Machine

namespace Sys2Proof

open Machine

/-- Settles O18: `call` is a branch that all lanes take, from the linked warp; the others pass their checks and go to one group. -/
theorem callsAndReturns : Obligations.CallsAndReturns := by
  unfold Obligations.CallsAndReturns
  intro o s s0 it hone hmask hall
  have ha : it.act ≠ 0 := hall ▸ hmask
  refine ⟨fun off h => ?call, fun tgt h8 h56 ht => ⟨fun h => ?bri, fun h => ?ret, fun h => ?calli⟩⟩
  all_goals obtain ⟨now, hw⟩ := warp_at_issue h (.inl rfl)
  case call =>
    obtain ⟨honly, hlink⟩ := linked_facts hw ha
    obtain ⟨krun, kwait, kv⟩ := linkTo_keeps (it.w.atIssue now) (it.w.run.pc + 8)
    obtain ⟨haside, w', hw', hrun, -, hv, hs, -⟩ := condBranch_ahead (s0 := s0) (t := relTarget it.w.run.pc off)
      (taken := it.w.run.mask) (cond := it.o.guard.idx != 7) (q := []) hlink
      (by rw [condGroups_all _ hmask, (split_one _ _).2, krun])
      (by rw [condGroups_all _ hmask, (split_one _ _).1, kwait]; exact hone) (Nat.zero_le 8) (by simp)
    have he : exec (.call o off) s = .next (condBranch it s0 (linked it s0) (relTarget it.w.run.pc off) it.act
      (it.o.guard.idx != 7)) := issue_eq h _
    rw [hall] at he
    refine ⟨_, he, (AsideTrace.of_onlyWarp honly).trans haside, w', hw', hrun, ?_, fun x h94 h95 => ?_, hv.trans kv⟩
    · rw [sget_congr hs, sget_congr hs, linkTo_words]
    · rw [sget_congr hs, sget_linkTo _ _ h94 h95]
      rfl
  case bri | ret =>
    obtain ⟨haside, w', hw', hrun, hs⟩ := goIndirect_ahead (s0 := s0) hw rfl hone hall hmask tgt
    exact ⟨_, (issue_eq h _).trans (congrArg _ (indirect_goes h8 h56 ht _)), haside, w', hw', hrun, hs⟩
  case calli =>
    obtain ⟨honly, hlink⟩ := linked_facts hw ha
    obtain ⟨krun, kwait, -⟩ := linkTo_keeps (it.w.atIssue now) (it.w.run.pc + 8)
    obtain ⟨haside, w', hw', hrun, hs⟩ := goIndirect_ahead (s0 := s0) hlink krun (kwait.trans hone) hall hmask tgt
    refine ⟨_, (issue_eq h _).trans (congrArg _ (indirect_goes h8 h56 ht _)), (AsideTrace.of_onlyWarp honly).trans haside,
      w', hw', hrun, ?_, fun x h94 h95 => ?_⟩
    · rw [sget_congr hs, sget_congr hs, linkTo_words]
    · rw [sget_congr hs, sget_linkTo _ _ h94 h95]
      rfl

/-- Settles O19: `indirect` decides each check for all lanes before the next. -/
theorem indirectTargetChecks : Obligations.IndirectTargetChecks := by
  unfold Obligations.IndirectTargetChecks
  intro o i s s0 it hi h
  obtain ⟨k, he⟩ := exec_indirect hi h
  rw [he]
  refine ⟨fun hp => ?poison, fun hp hv => ?address, fun hp hv => ?misaligned⟩
  case poison =>
    obtain ⟨m, hm⟩ := indirect_poison hp k
    exact ⟨m, congrArg _ hm⟩
  case address =>
    obtain ⟨m, a, hm⟩ := indirect_address hp hv k
    exact ⟨m, a, congrArg _ hm⟩
  case misaligned =>
    obtain ⟨m, a, hm⟩ := indirect_misaligned hp hv k
    exact ⟨m, a, congrArg _ hm⟩

end Sys2Proof

/-! # svc, brk and trap (O21) -/

namespace Sys2Proof.Machine

theorem drains_cfg {s t : State} (d : Drains s t) (ctx : Nat) : t.cfg ctx = s.cfg ctx := by
  rw [State.cfg, State.cfg, State.ctx, State.ctx, d.ctxs]

/-! ## Entry to the handler -/

section
variable {s t : State} {wid : Nat} {w : Warp} {r : TrapReq} {e : Option Nat}

/-- What the device keeps of a trapped warp (R387, R388). -/
def trapHandler (s : State) (wid : Nat) (w : Warp) (t : TrapReq) (e : Option Nat) : Handler :=
  { trap := mkRec s wid w t 0, lanes := t.lanes, aside := w.run.mask &&& ~~~t.lanes
    savedS := (List.range 16).map fun i => w.settledS (80 + i), savedQ := w.q, savedFmt := w.run.fmt
    resumePc := if t.cause == .service then w.run.pc + 8 else w.run.pc
    resumeWidx := if t.cause == .service then w.run.widx + 1 else w.run.widx
    frozen := w.waiting, entry := e, frame := BitVec.ofNat 64 (frameOf s wid w), path := w.run
    copy := t.async && tableCause t, wait := w.wait, rpt := w.rpt, frontDue := w.sched.frontDue
    fairStart := w.sched.fairStart.map (s.nonStalled w.core - ·) }

/-- A warp at the first header of its handler, before its registers are set (R388). -/
def atHandler (s : State) (wid : Nat) (w : Warp) (t : TrapReq) (e : Option Nat) : Warp :=
  { w.dropPendS 83 with
    handler := some (trapHandler s wid w t e)
    run := ⟨(s.cfg (s.ctxNo wid)).handlerPc, 0, t.lanes, w.run.fmt, w.run.fmt, w.dseq⟩
    waiting := [], clause := none, resv := [], rpt := none, wait := none
    sched := { w.sched with engine := .herd, port := none, fairStart := none, deferSince := none, frontDue := false } }

/-- A warp as its handler starts, with the frame's address and the cause in s80 to s82 (R388). -/
def inHandler (s : State) (wid : Nat) (w : Warp) (t : TrapReq) (e : Option Nat) : Warp :=
  ((atHandler s wid w t e).sput64 80 ⟨frameOf s wid w, false⟩).sput 82 ⟨BitVec.ofNat 32 (t.cause.codeNo + t.sub * 256), false⟩

theorem inHandler_handler (s : State) (wid : Nat) (w : Warp) (t : TrapReq) (e : Option Nat) :
    (inHandler s wid w t e).handler = some (trapHandler s wid w t e) := rfl

theorem inHandler_run (s : State) (wid : Nat) (w : Warp) (t : TrapReq) (e : Option Nat) :
    (inHandler s wid w t e).run = ⟨(s.cfg (s.ctxNo wid)).handlerPc, 0, t.lanes, w.run.fmt, w.run.fmt, w.dseq⟩
      ∧ (inHandler s wid w t e).waiting = [] := ⟨rfl, rfl⟩

/-- Vector registers, predicates and status bits stay (R388). -/
theorem inHandler_regs (s : State) (wid : Nat) (w : Warp) (t : TrapReq) (e : Option Nat) :
    (inHandler s wid w t e).v = w.v ∧ (inHandler s wid w t e).p = w.p ∧ (inHandler s wid w t e).q = w.q
      ∧ (inHandler s wid w t e).fstat = w.fstat := by
  dsimp only [inHandler, Warp.sput64, Warp.sput, atHandler, Warp.dropPendS]
  exact ⟨rfl, rfl, rfl, rfl⟩

/-- No uniform register but s80 to s82 changes (R388). -/
theorem sget_inHandler (s : State) (wid : Nat) (w : Warp) (t : TrapReq) (e : Option Nat) (x : Nat) :
    (inHandler s wid w t e).sget x = if x = 82 then ⟨BitVec.ofNat 32 (t.cause.codeNo + t.sub * 256), false⟩
      else if x = 81 then ⟨BitVec.ofNat 32 (frameOf s wid w / 2 ^ 32), false⟩
      else if x = 80 then ⟨BitVec.ofNat 32 (frameOf s wid w), false⟩ else w.sget x := by
  rw [inHandler, sput_s_get, sget_sput64]
  rfl

/-- s80 and s81 hold the frame's address (R388). -/
theorem inHandler_frame (s : State) (wid : Nat) (w : Warp) (t : TrapReq) (e : Option Nat) :
    ((inHandler s wid w t e).sget 80).val.toNat + 2 ^ 32 * ((inHandler s wid w t e).sget 81).val.toNat
      = frameOf s wid w % 2 ^ 64 := by
  rw [sget_inHandler, sget_inHandler]
  exact words_toNat (frameOf s wid w)

/-- Entry writes the frame, sets the warp up and makes its packet (R388). -/
theorem enterHandler_eq (s : State) (wid : Nat) (w : Warp) (t : TrapReq) (e : Option Nat) :
    enterHandler s wid w t e = (s.devWrite (s.ctxNo wid) (frameOf s wid w) (frameBytes (trapHandler s wid w t e))).map fun s1 =>
      faultPacket (s1.setWarp wid (inHandler s wid w t e)) wid (mkRec s wid w t 0) true := by
  unfold enterHandler
  dsimp only
  split
  next h => exact (congrArg (Option.map _) h).symm
  next s1 h =>
    have hw : s.devWrite (s.ctxNo wid) (frameOf s wid w) (frameBytes (trapHandler s wid w t e)) = some s1 := h
    rw [hw]
    rfl

/-- A trap record is 64 B (R385). -/
theorem TrapRec.bytes_length (r : TrapRec) : r.bytes.length = 64 := by
  unfold TrapRec.bytes
  generalize r.blkIdx % 2 ^ 32 = low, r.blkIdx / 2 ^ 32 % 2 ^ 31 = high
  simp only [List.length_append, leBytes_length]

/-- A frame is 256 B (R386). -/
theorem frameBytes_length {h : Handler} (hs : h.savedS.length = 16) : (frameBytes h).length = 256 := by
  have hregs : (h.savedS.flatMap fun x => leBytes 4 x.val.toNat).length = 64 := by
    simp [List.length_flatMap, hs]
  simp only [frameBytes, TrapRec.bytes_length, List.length_append, leBytes_length, List.length_replicate, hregs]

theorem devWrite_of_targets {ctx va : Nat} {bs : List Byte} (h : (s.devTargets ctx va bs.length true).isSome = true) :
    ∃ t, s.devWrite ctx va bs = some t :=
  Option.isSome_iff_exists.mp ((Option.isSome_map).trans h)

theorem traceOnly_faultPacket (s : State) (wid : Nat) (r : TrapRec) (entered : Bool) :
    TraceOnly s (faultPacket s wid r entered) := by
  unfold faultPacket
  split
  · exact TraceOnly.refl s
  · exact (TraceOnly.refl s).warpPacket

/-- Where the frame is mapped and writable the handler is entered (R388). -/
theorem enterHandler_enters (h : (s.devTargets (s.ctxNo wid) (frameOf s wid w) 256 true).isSome = true) (t : TrapReq)
    (e : Option Nat) : ∃ s1, enterHandler s wid w t e = some s1 ∧ s1.warp wid = some (inHandler s wid w t e) := by
  have hlen : (frameBytes (trapHandler s wid w t e)).length = 256 := frameBytes_length (by simp [trapHandler])
  obtain ⟨s1, hs1⟩ := devWrite_of_targets (bs := frameBytes (trapHandler s wid w t e)) (hlen ▸ h)
  refine ⟨_, (enterHandler_eq s wid w t e).trans (congrArg (Option.map _) hs1), ?_⟩
  rw [(traceOnly_faultPacket _ _ _ _).warp, State.warp_setWarp_self]

/-! ## SERVICE -/

/-- A warp that takes a trap has lost its reservations (R270). -/
def Warp.unreserved (w : Warp) : Warp := { w with resv := [] }

/-- SERVICE outside the handler, where there is one that is not the host (R387, R436); `d` is the state once the warp's stores have
left its buffer. -/
theorem takeTrap_service {d : State} (hd : flushStores s wid = d) (hw : d.warp wid = some w) (hh : w.handler = none)
    (hc : r.cause = .service) (ha : r.async = false) (hpc : (d.cfg (d.ctxNo wid)).handlerPc ≠ 0)
    (hhost : wfld (d.cfg (d.ctxNo wid)).dutyMode 0 1 = 0)
    (hf : (d.devTargets (d.ctxNo wid) (frameOf d wid w) 256 true).isSome = true) :
    (takeTrap s wid r).warp wid = some (inHandler (d.setWarp wid w.unreserved) wid w.unreserved r none) := by
  have htrap : takeTrap s wid r = handledTrap (d.setWarp wid w.unreserved) wid w.unreserved r := by
    simp only [takeTrap, hd, hw, hh, ha, hc, dispOf, countWalk, Warp.unreserved, reduceCtorEq, false_and, if_false,
      Bool.false_eq_true]
  have htable : tableCause r = false := by simp [tableCause, hc]
  have hown : (((d.setWarp wid w.unreserved).cfg ((d.setWarp wid w.unreserved).ctxNo wid)).handlerPc == 0
      || wfld ((d.setWarp wid w.unreserved).cfg ((d.setWarp wid w.unreserved).ctxNo wid)).dutyMode 0 1 == 1) = false :=
    Bool.or_eq_false_iff.mpr ⟨beq_eq_false_iff_ne.mpr hpc, beq_eq_false_iff_ne.mpr fun h1 => Nat.zero_ne_one (hhost.symm.trans h1)⟩
  obtain ⟨s1, he, hw1⟩ := enterHandler_enters (s := d.setWarp wid w.unreserved) (wid := wid) (w := w.unreserved) hf r none
  rw [htrap]
  simpa only [handledTrap, htable, hown, he, Bool.false_eq_true, if_false] using hw1

end

/-- A word that acts raises its trap with its code (R183, R436). -/
theorem codeTrap_acts {it : Iss} (ha : it.act ≠ 0) (s : State) (c : Cause) (code : BitVec 8) :
    codeTrap it s c code = takeTrap s it.wid ⟨c, 0, code.toNat, it.act, 0, 0, false⟩ := if_neg ha

/-- The trap of `svc` (R436). -/
def svcTrap (it : Iss) (code : BitVec 8) : TrapReq := ⟨.service, 0, code.toNat, it.act, 0, 0, false⟩

/-- `svc` outside the handler, where there is one that is not the host and its frame is mapped and writable, enters it (R436). -/
theorem svc_enters {o : Opnds} {code : BitVec 8} {s s0 : State} {it : Iss} (h : issuing (.svc o code) s = some (it, s0))
    (ha : it.act ≠ 0) (hh : it.w.handler = none) (hpc : (s0.cfg it.ctx).handlerPc ≠ 0)
    (hhost : wfld (s0.cfg it.ctx).dutyMode 0 1 = 0)
    (hf : ((flushStores s0 it.wid).devTargets it.ctx (frameOf s0 it.wid it.w) 256 true).isSome = true) :
    ∃ t d n b p, exec (.svc o code) s = .next t
      ∧ t.warp it.wid = some (inHandler d it.wid ((it.w.atIssue n).drained b [] p) (svcTrap it code) none)
      ∧ d.cfg (d.ctxNo it.wid) = s0.cfg it.ctx
      ∧ frameOf d it.wid ((it.w.atIssue n).drained b [] p) = frameOf s0 it.wid it.w := by
  obtain ⟨d, hfl, hd⟩ : ∃ d, flushStores s0 it.wid = d ∧ Drains s0 d := ⟨_, rfl, drains_flushStores s0 it.wid⟩
  obtain ⟨n, b, r, p, hw⟩ := (asIssued_of_issuing h).drains hd
  have hctx : d.ctxNo it.wid = it.ctx := (drains_ctxNo hd _).trans (ctxNo_of_issuing h)
  have hcfg : d.cfg (d.ctxNo it.wid) = s0.cfg it.ctx := by rw [hctx, drains_cfg hd]
  have hframe : frameOf d it.wid ((it.w.atIssue n).drained b r p) = frameOf s0 it.wid it.w := by
    rw [frameOf, frameOf, hcfg, ctxNo_of_issuing h]
    rfl
  have hmapped : (d.devTargets (d.ctxNo it.wid) (frameOf d it.wid ((it.w.atIssue n).drained b r p)) 256 true).isSome = true := by
    rw [hctx, hframe, ← hfl]
    exact hf
  have htrap := takeTrap_service (r := svcTrap it code) hfl hw hh rfl rfl (by rw [hcfg]; exact hpc) (by rw [hcfg]; exact hhost)
    hmapped
  refine ⟨_, _, n, b, p, (issue_eq h _).trans (congrArg _ (codeTrap_acts ha ..)), htrap, ?_, ?_⟩
  · exact hcfg
  · exact hframe

end Sys2Proof.Machine

namespace Sys2Proof

open Machine

/-- Settles O21: `brk` and `trap` are `codeTrap`; the warp that `svc` leaves is `inHandler` of the warp it issued on. -/
theorem trapWords : Obligations.TrapWords := by
  unfold Obligations.TrapWords
  intro o code s s0 it ha
  refine ⟨fun h hh hpc hhost hf => ?svc, fun h => (issue_eq h _).trans (congrArg _ (codeTrap_acts ha ..)),
    fun h => (issue_eq h _).trans (congrArg _ (codeTrap_acts ha ..))⟩
  obtain ⟨t, d, n, b, p, he, hw, hcfg, hframe⟩ := svc_enters h ha hh hpc hhost hf
  obtain ⟨hrun, hwait⟩ := inHandler_run d it.wid ((it.w.atIssue n).drained b [] p) (svcTrap it code) none
  obtain ⟨hv, hp, hq, hfstat⟩ := inHandler_regs d it.wid ((it.w.atIssue n).drained b [] p) (svcTrap it code) none
  refine ⟨t, _, _, he, hw, inHandler_handler .., ?_, hwait, rfl, rfl, rfl, rfl, rfl, rfl, ?_, ?_,
    fun x h80 h81 h82 => ?_, hv, hp, hq, hfstat⟩
  · rw [hrun, hcfg]
    rfl
  · rw [inHandler_frame, hframe]
  · rw [sget_inHandler, if_pos rfl]
    simp only [svcTrap, Cause.codeNo, Nat.zero_mul, Nat.add_zero]
    rfl
  · rw [sget_inHandler, if_neg h82, if_neg h81, if_neg h80]
    rfl

end Sys2Proof

/-! # Bits, predicates, packed arithmetic, conversions, special functions, lane words (O4, O6, O8 to O12)

A word of these classes is completed by one write of D or of predicates. The rules of shared writes that were missing come first: a
destination written word by word together with status bits, and the predicates of a mask. -/

namespace Sys2Proof.Machine

/-! ## Completing writes -/

/-- A word that writes D word by word and raises status bits computes its words (R69, R203). -/
theorem fvalueW_computes {it : Iss} {s : State} {now : Noted} (h : s.warp it.wid = some (it.w.atIssue now)) (t : Ty)
    (f : Nat → Nat → PV) (fl : Nat) :
    Computes it s (commit it s fun w => stickFstat (w.dputW t it.o.d it.act f) fl) (tw t) (wordsBy f) fl := by
  obtain ⟨honly, hafter⟩ := commit_facts h fun w => stickFstat (w.dputW t it.o.d it.act f) fl
  obtain ⟨ak, -, -, ap, aq, apend, af, arun, acl⟩ := atWrites_facts it now
  obtain ⟨hregs, hp, hq⟩ := dputW_facts (atWrites it now) t it.o.d it.act f
  obtain ⟨dk, dv, ds, dp, dq, dpend, df, drun⟩ := advance_facts (stickFstat ((atWrites it now).dputW t it.o.d it.act f) fl)
  have hkept := warpKept_trans ak (warpKept_trans hregs.kept (warpKept_trans (halfOnly_stickFstat _ fl).kept dk))
  refine ⟨honly, _, _, h, hafter, warpKept_atIssue hkept, dpend.trans (hregs.pend.trans apend),
    drun.trans (nextRun_congr (hregs.run.trans arun) (hregs.clause.trans acl)), df.trans ?_, dp.trans (hp.trans ap),
    dq.trans (hq.trans aq), dputW_written it _ now t f dv ds⟩
  simp only [stickFstat, hregs.fstat, af]

/-- A word whose effect is `valueP` computes its number word by word, each word with its own poison (R204). -/
theorem yieldsWords_of_valueP {i : Instr} {v : Iss → Nat → Nat} {pois pois' : Iss → Nat → Nat → Bool}
    (hk : keepsStores i = true) (he : ∀ s, exec i s = issue i s fun it s => valueP it s (v it) (pois it))
    (hp : ∀ it h l, pois it h l = pois' it h l) : YieldsWords i fun it h l => wordPV (v it l) h (pois' it h l) := by
  obtain rfl : pois = pois' := funext fun it => funext₂ (hp it)
  exact yieldsWords_of_valueW hk he

/-- A word whose effect is `packed` computes its function on each of two elements (R221). -/
theorem packedYields_of_packed {i : Instr} {f : Fmt → Nat → Nat → Nat → FRes} (hk : keepsStores i = true)
    (he : ∀ s, exec i s = issue i s fun it s => packed it s f) : PackedYields i f :=
  fun s _ _ hi => computes_of_fvalue hi hk (he s) rfl

/-! ## The source words that a shift brings into a word (R204) -/

section
variable (it : Iss) (o : Opd) (h l : Nat)

theorem poisIn_singleton : it.poisIn o [h] l = (it.srcW it.o.ty o h l).pois := Bool.or_false _

theorem poisIn_upTo : it.poisIn o (upTo h) l = poisWords it o 0 (h + 1) l := by
  simp only [Iss.poisIn, upTo, poisWords, Nat.zero_le, decide_true, Bool.true_and]

theorem poisIn_aboveIn : it.poisIn o (aboveIn it.o.ty h) l = poisWords it o h (tw it.o.ty) l := by
  simp only [Iss.poisIn, aboveIn, poisWords, List.any_filter]

end

/-- The registers that a conversion writes (R222). -/
theorem tw_dstTy (c : CFmt) : tw (dstTy c) = if c.width = 64 then 2 else 1 := by
  unfold dstTy
  split <;> rfl

/-! ## The predicates of a mask (R213) -/

/-- Write, of some predicates, those that a mask names. -/
def Warp.pputs (w : Warp) (mask : BitVec 7) (m : Word) (f : Nat → Nat → Bool) (rs : List Nat) : Warp :=
  rs.foldl (fun w i => if mask.getLsbD i then w.pput i m (f i) else w) w

section
variable (w : Warp) (mask : BitVec 7) (m : Word) (f : Nat → Nat → Bool)

theorem pputs_cons (r : Nat) (rs : List Nat) :
    w.pputs mask m f (r :: rs) = (if mask.getLsbD r then w.pput r m (f r) else w).pputs mask m f rs := rfl

/-- Writing predicates leaves all else of a warp. -/
theorem pputs_facts (rs : List Nat) : RegsOnly w (w.pputs mask m f rs) ∧ (w.pputs mask m f rs).s = w.s
    ∧ (w.pputs mask m f rs).v = w.v ∧ (w.pputs mask m f rs).q = w.q := by
  induction rs generalizing w with
  | nil => exact ⟨RegsOnly.refl w, rfl, rfl, rfl⟩
  | cons r rs ih =>
    rw [pputs_cons]
    split
    · obtain ⟨hk, hs, hv, hq⟩ := ih (w.pput r m (f r))
      exact ⟨(regsOnly_pput ..).trans hk, hs.trans (pput_s ..), hv.trans (pput_v ..), hq.trans (pput_q ..)⟩
    · exact ih w

/-- The predicates written are those of the list that the mask names, in the lanes of `m`. -/
theorem pget_pputs (rs : List Nat) {x l : Nat} (hx : x < 8) (hl : l < 32) :
    (w.pputs mask m f rs).pget x l =
      if x ∈ rs ∧ x < 7 ∧ mask.getLsbD x = true ∧ m.getLsbD l = true then f x l else w.pget x l := by
  induction rs generalizing w with
  | nil => simp [Warp.pputs]
  | cons r rs ih =>
    rw [pputs_cons, ih]
    by_cases hr : mask.getLsbD r = true
    · rw [if_pos hr, pget_pput _ _ _ _ _ hx hl]
      grind
    · rw [if_neg hr]
      grind

end

/-- `v2p` of a source that is clean in the active lanes (R213). -/
theorem exec_v2p {o : Opnds} {mask : BitVec 7} {s s0 : State} {it : Iss} (h : issuing (.v2p o mask) s = some (it, s0))
    (hc : ∀ l ∈ it.lanes, (it.src .b32 it.o.a l).pois = false) :
    exec (.v2p o mask) s = .next (commit it s0 fun w =>
      w.pputs mask it.act (fun i l => (num it .b32 it.o.a l).testBit i) (List.range 7)) := by
  refine (issue_eq h _).trans (congrArg _ ?_)
  simp only [firstLane_eq_none hc]
  rfl

/-! ## Lane words (R231 to R233) -/

/-- `xlane` whose amounts are clean in the active lanes (R231). -/
theorem exec_xlane {o : Opnds} {mode : XMode} {s s0 : State} {it : Iss} (h : issuing (.xlane o mode) s = some (it, s0))
    (hc : ∀ l ∈ it.lanes, (it.src .n32 it.o.b l).pois = false ∧ (it.src .n32 it.o.c l).pois = false) :
    exec (.xlane o mode) s = .next (valueW it s0 fun h l =>
      it.srcW it.o.ty it.o.a h (match sourceLane mode (num it .n32 it.o.c l) (num it .n32 it.o.b l) l with
        | some src => if it.w.run.mask.getLsbD src then src else l
        | none => l)) := by
  have hn : it.firstLane (fun l => (it.src .n32 it.o.b l).pois || (it.src .n32 it.o.c l).pois) = none :=
    firstLane_eq_none fun l hl => by rw [(hc l hl).1, (hc l hl).2, Bool.or_false]
  refine (issue_eq h _).trans (congrArg _ ?_)
  simp only [hn]
  rfl

/-- The status bits of a scan are those of its last fold (R69, R233). -/
theorem lastFl_eq (fs : List FOut) :
    (match fs.getLast? with | some r => r.fl | none => 0) = (fs.getLast?.getD ⟨0, 0, false⟩).fl := by
  cases fs.getLast? <;> rfl

end Sys2Proof.Machine

namespace Sys2Proof

open Machine

/-- Settles O4: each word is `valueP` of its number, with the source words named as a range, or `value` of it. -/
theorem bitOperations : Obligations.BitOperations := by
  unfold Obligations.BitOperations
  intro o
  refine ⟨fun wrap => ?shl, fun wrap => ?shr, fun wrap sfill => ?fwin, ?bfe, ?bfi, ?popc, ?clz, ?brev, ?bsel, fun mask => ?p2v⟩
  case shl => exact yieldsWords_of_valueP rfl (fun _ => rfl) fun it h l => by rw [poisIn_upTo]
  case shr =>
    simp only [← ite_apply]
    exact yieldsWords_of_valueP rfl (fun _ => rfl) fun it h l => by rw [poisIn_aboveIn]
  case bfe => exact yieldsWords_of_valueP rfl (fun _ => rfl) fun it h l => by rw [poisIn_aboveIn]
  case bfi => exact yieldsWords_of_valueP rfl (fun _ => rfl) fun it h l => by rw [poisIn_singleton, poisIn_upTo]
  case brev => exact yieldsWords_of_valueP rfl (fun _ => rfl) fun it h l => poisIn_singleton ..
  case fwin | popc | clz | bsel | p2v => exact yields_of_value rfl fun _ => rfl

/-- Settles O6: `exec_v2p` writes the predicates of MASK one after another. -/
theorem vectorToPredicates : Obligations.VectorToPredicates := by
  unfold Obligations.VectorToPredicates
  intro o mask s s0 it hi hc
  obtain ⟨now, hw⟩ := warp_at_issue hi (.inl rfl)
  obtain ⟨honly, hafter⟩ := commit_facts hw fun w =>
    w.pputs mask it.act (fun i l => (num it .b32 it.o.a l).testBit i) (List.range 7)
  obtain ⟨ak, av, as, ap, aq, -, af, arun, acl⟩ := atWrites_facts it now
  obtain ⟨hregs, hs, hv, hq⟩ := pputs_facts (atWrites it now) mask it.act
    (fun i l => (num it .b32 it.o.a l).testBit i) (List.range 7)
  obtain ⟨dk, dv, ds, dp, dq, -, df, drun⟩ := advance_facts ((atWrites it now).pputs mask it.act
    (fun i l => (num it .b32 it.o.a l).testBit i) (List.range 7))
  refine ⟨_, exec_v2p hi hc, honly, _, hafter, warpKept_trans ak (warpKept_trans hregs.kept dk),
    drun.trans (nextRun_congr (hregs.run.trans arun) (hregs.clause.trans acl)), ds.trans (hs.trans as), dq.trans (hq.trans aq),
    df.trans (hregs.fstat.trans af), vget_congr (dv.trans (hv.trans av)), fun n l hn hl => ?_⟩
  rw [pget_congr dp, pget_pputs _ _ _ _ _ hn hl, pget_congr ap]
  refine if_congr ?_ rfl rfl
  rw [List.mem_range]
  tauto

/-- Settles O8: each word is `packed` of its scalar operation. -/
theorem packedArithmetic : Obligations.PackedArithmetic := by
  unfold Obligations.PackedArithmetic
  intro o
  refine ⟨fun rm => ?hadd2, fun rm => ?hmul2, fun rm => ?hfma2, fun nan => ?hmin2, fun nan => ?hmax2⟩
  case hadd2 | hmul2 | hfma2 | hmin2 | hmax2 => exact packedYields_of_packed rfl fun _ => rfl

/-- Settles O9: `cvt` writes its extended pattern word by word; the others are `fvalue` of their patterns. -/
theorem conversions : Obligations.Conversions := by
  unfold Obligations.Conversions
  intro o
  refine ⟨fun d sf rm sat usefmt s s0 it hi => ?cvt, fun d pos rm sat usefmt s s0 it hi => ?cvts, fun s s0 it hi => ?packq,
    fun s s0 it hi => ?unpq, fun tf op s s0 it hi => ?escale⟩
  case cvt =>
    obtain ⟨now, hw⟩ := warp_at_issue hi (.inl rfl)
    rw [← tw_dstTy]
    exact ⟨_, issue_eq hi _, fvalueW_computes hw (dstTy (cfmtOf d)) _ _⟩
  case cvts | packq | unpq | escale => exact computes_of_fvalue hi rfl rfl rfl

/-- Settles O10: each word is `float1` of its function. -/
theorem specialFunctions : Obligations.SpecialFunctions := by
  unfold Obligations.SpecialFunctions
  intro o
  refine ⟨fun rm => ?frcp, fun rm => ?fsqrt, ?frsq, ?fex2, ?flg2, ?fsin, ?fcos, ?ftanh⟩
  case frcp | fsqrt | frsq | fex2 | flg2 | fsin | fcos | ftanh => exact floatYields1_of_float1 rfl fun _ => rfl

/-- Settles O12: `exec_xlane`; `match` counts the lanes of equal value; `redux` and `scanx` are `fvalue` of the running folds. -/
theorem laneWords : Obligations.LaneWords := by
  unfold Obligations.LaneWords
  intro o
  refine ⟨fun mode s s0 it hi hc => ?xlane, fun all => ?matchv, fun op s s0 it hi => ?redux, fun op excl s s0 it hi => ?scanx⟩
  case xlane =>
    obtain ⟨now, hw⟩ := warp_at_issue hi (.inl rfl)
    exact ⟨_, exec_xlane hi hc, valueW_computes hw _⟩
  case matchv => exact yields_of_value rfl fun _ => rfl
  case redux => exact computes_of_fvalue hi rfl rfl rfl
  case scanx =>
    intro below r
    rw [← lastFl_eq]
    exact computes_of_fvalue hi rfl rfl rfl

end Sys2Proof

/-! # The approximate functions within their bounds (O11)

Sine, cosine and hyperbolic tangent pass through `boundBy`, whatever value is free. `fex2` of an integer rests on two exact
roundings: of the integer itself, whose pattern decodes to it again, and of the power of two. -/

namespace Sys2Proof.Machine

/-! ## Kept within ±1.0 -/

theorem signed_mod (n : Bool) {mag : Nat} (h : mag < 2 ^ 31) : fmt32.signed n mag % 2 ^ 31 = mag := by
  cases n with
  | false => exact Nat.mod_eq_of_lt h
  | true => exact (Nat.add_mod_left ..).trans (Nat.mod_eq_of_lt h)

theorem boundBy_le {top : Nat} (h : top < 2 ^ 31) (x : Word) : boundBy top x % 2 ^ 31 ≤ top := by
  unfold boundBy
  dsimp only
  split
  · exact (signed_mod _ h).le
  · omega

theorem unitBy_le (free : Word) (exact : Int) : unitBy free exact % 2 ^ 31 ≤ 0x3F800000 := boundBy_le (by decide) _

theorem circular_le (free : Word) (n : Bool) (m : Nat) (e : Int) (quarter : Nat) :
    circular free n m e quarter % 2 ^ 31 ≤ 0x3F800000 := by
  unfold circular
  dsimp only
  split
  · exact boundBy_le (by decide) _
  · exact unitBy_le ..

section
variable {x m : Nat} {n : Bool} {e : Int}

/-- `fsin` of a finite number (R229). -/
theorem fsinOf_fin (h : fmt32.decode x = .fin n m e) :
    fsinOf x = if m = 0 then ⟨fmt32.signed n 0, 0⟩ else
      ⟨circular (Config.fsin (BitVec.ofNat 32 x)) n m e 0, unitFl (circular (Config.fsin (BitVec.ofNat 32 x)) n m e 0)⟩ := by
  rw [fsinOf, h]

/-- `fcos` of a finite number (R229). -/
theorem fcosOf_fin (h : fmt32.decode x = .fin n m e) :
    fcosOf x = if m = 0 then ⟨0x3F800000, 0⟩ else
      ⟨circular (Config.fcos (BitVec.ofNat 32 x)) n m e 1, unitFl (circular (Config.fcos (BitVec.ofNat 32 x)) n m e 1)⟩ := by
  rw [fcosOf, h]

/-- `ftanh` of a finite number: a zero of its sign, ±1.0, or a bounded value (R229). -/
theorem ftanhOf_fin (h : fmt32.decode x = .fin n m e) :
    ∃ free exact, ftanhOf x = if m = 0 then ⟨fmt32.signed n 0, 0⟩
      else if 0x41180000 ≤ x % 2 ^ 31 then ⟨fmt32.signed n 0x3F800000, 0⟩
      else ⟨unitBy free exact, unitFl (unitBy free exact)⟩ := by
  rw [ftanhOf, h]
  exact ⟨_, _, rfl⟩

theorem fsinOf_le (h : fmt32.decode x = .fin n m e) : (fsinOf x).bits % 2 ^ 31 ≤ 0x3F800000 := by
  rw [fsinOf_fin h]
  split
  · exact (signed_mod n (by decide)).trans_le (Nat.zero_le _)
  · exact circular_le ..

theorem fcosOf_le (h : fmt32.decode x = .fin n m e) : (fcosOf x).bits % 2 ^ 31 ≤ 0x3F800000 := by
  rw [fcosOf_fin h]
  split
  · exact Nat.mod_le ..
  · exact circular_le ..

theorem ftanhOf_le (h : fmt32.decode x = .fin n m e) : (ftanhOf x).bits % 2 ^ 31 ≤ 0x3F800000 := by
  obtain ⟨free, exact, ht⟩ := ftanhOf_fin h
  rw [ht]
  split_ifs
  · exact (signed_mod n (by decide)).trans_le (Nat.zero_le _)
  · exact (signed_mod n (by decide)).le
  · exact unitBy_le ..

/-! ## Powers of two -/

theorem fex2Of_zero (h : fmt32.decode x = .fin n 0 e) : fex2Of x = ⟨0x3F800000, 0⟩ := by
  rw [fex2Of, h]
  exact if_pos rfl

/-- `fex2` of an integer from -149 to 127: the power of two (R229). -/
theorem fex2Of_int (h : fmt32.decode x = .fin n m e) (hm : m ≠ 0) (hbig : m * 2 ^ e.toNat / 2 ^ (-e).toNat < 128) {v : Int}
    (hv : intOf m e n = some v) (hrange : -149 ≤ v ∧ v ≤ 127) :
    fex2Of x = ⟨(fmt32.roundFin .rne false false 1 v).bits, 0⟩ := by
  have hsmall : (!n && decide (128 ≤ m * 2 ^ e.toNat / 2 ^ (-e).toNat)) = false := by
    rw [decide_eq_false (Nat.not_le.mpr hbig), Bool.and_false]
  rw [fex2Of, h]
  dsimp only
  rw [if_neg hm, hsmall, if_neg Bool.false_ne_true, hv]
  exact if_pos hrange

end

/-- A multiple of the spacing is left as it is by every rounding (R59). -/
theorem roundAt_multiple (mode : RMode) (neg : Bool) (m : Nat) {e q : Int} (h : q ≤ e) :
    roundAt mode neg m e q = (m * 2 ^ (e - q).toNat, true) := if_pos h

/-- A finite value that the format holds is its own rounding (R59). -/
theorem roundFin_exact {f : Fmt} {m : Nat} {e q : Int} (mode : RMode) (sat neg : Bool) (hm : m ≠ 0)
    (hq : max (expOf m e) f.emin - f.fb = q) (he : q ≤ e) (hmax : f.pack (m * 2 ^ (e - q).toNat) q ≤ f.maxBits) :
    f.roundFin mode sat neg m e = ⟨f.signed neg (f.pack (m * 2 ^ (e - q).toNat) q), 0⟩ := by
  rw [Fmt.roundFin, if_neg hm]
  dsimp only
  rw [hq, roundAt_multiple mode neg m he]
  exact if_neg (Nat.not_lt.mpr hmax)

/-- A normal binary32 magnitude: the implicit bit and the fraction, and the exponent field (R56). -/
theorem pack32_normal {n : Nat} {q : Int} (hn : 2 ^ 23 ≤ n) : fmt32.pack n q = n + (q + 149).toNat * 2 ^ 23 := by
  rw [Fmt.pack]
  exact if_neg (Nat.not_lt.mpr hn)

/-- A normal binary32 pattern decodes to its significand and exponent (R56). -/
theorem decode32_normal {n ex : Nat} (hn : 2 ^ 23 ≤ n) (hn' : n < 2 ^ 24) (hex : ex < 254) :
    fmt32.decode (n + ex * 2 ^ 23) = .fin false n ((ex : Int) - 149) := by
  have hfield : (n + ex * 2 ^ 23) / 2 ^ 23 % 2 ^ 8 = ex + 1 := by omega
  have hfrac : (n + ex * 2 ^ 23) % 2 ^ 23 = n - 2 ^ 23 := by omega
  have hneg : fmt32.neg (n + ex * 2 ^ 23) = false := beq_eq_false_iff_ne.mpr (by
    rw [show fmt32.eb + fmt32.fb = 31 from rfl]
    omega)
  unfold Fmt.decode
  rw [show fmt32.eb = 8 from rfl, show fmt32.fb = 23 from rfl, show fmt32.bias = 127 from rfl]
  simp only [hfield, hfrac, hneg]
  rw [if_neg (by omega), if_neg (by simp [fmt32]), if_neg (by omega), show 2 ^ 23 + (n - 2 ^ 23) = n by omega]
  congr 1
  omega

/-- An integer of at most 24 bits, shifted to have its leading bit at place 23. -/
theorem scaled_bounds {k : Nat} (hk : k ≠ 0) (h : k < 2 ^ 24) :
    2 ^ 23 ≤ k * 2 ^ (23 - k.log2) ∧ k * 2 ^ (23 - k.log2) < 2 ^ 24 := by
  have hlog : k.log2 ≤ 23 := Nat.lt_succ_iff.mp ((Nat.log2_lt hk).mpr h)
  have hsplit : ∀ j, 2 ^ (j + k.log2) * 2 ^ (23 - k.log2) = 2 ^ (j + 23) := fun j => by
    rw [← pow_add]
    congr 1
    omega
  constructor
  · calc 2 ^ 23 = 2 ^ k.log2 * 2 ^ (23 - k.log2) := by simpa using (hsplit 0).symm
      _ ≤ k * 2 ^ (23 - k.log2) := Nat.mul_le_mul_right _ (Nat.log2_self_le hk)
  · calc k * 2 ^ (23 - k.log2) < 2 ^ (k.log2 + 1) * 2 ^ (23 - k.log2) :=
          Nat.mul_lt_mul_of_pos_right Nat.lt_log2_self (Nat.two_pow_pos _)
      _ = 2 ^ 24 := by rw [Nat.add_comm k.log2 1, hsplit 1]

/-- An integer of at most 24 bits reads back from its binary32 pattern (R56, R63). -/
theorem decode_convert_ofInt {k : Nat} (hk : k ≠ 0) (h : k < 2 ^ 24) :
    fmt32.decode (fmt32.convert .rne false (ofInt k)).bits = .fin false (k * 2 ^ (23 - k.log2)) (-((23 - k.log2 : Nat) : Int)) := by
  have hlog : k.log2 ≤ 23 := Nat.lt_succ_iff.mp ((Nat.log2_lt hk).mpr h)
  obtain ⟨hlo, hhi⟩ := scaled_bounds hk h
  have hof : ofInt k = .fin false k 0 := by
    rw [ofInt, Int.natAbs_natCast, decide_eq_false (by omega)]
  have hq : max (expOf k 0) fmt32.emin - fmt32.fb = (k.log2 : Int) - 23 := by
    rw [expOf, show fmt32.emin = -126 from rfl, show (fmt32.fb : Int) = 23 from rfl]
    omega
  have hshift : (0 - ((k.log2 : Int) - 23)).toNat = 23 - k.log2 := by omega
  have hpack : fmt32.pack (k * 2 ^ (0 - ((k.log2 : Int) - 23)).toNat) ((k.log2 : Int) - 23)
      = k * 2 ^ (23 - k.log2) + (k.log2 + 126) * 2 ^ 23 := by
    rw [hshift, pack32_normal hlo, show ((k.log2 : Int) - 23 + 149).toNat = k.log2 + 126 by omega]
  have hmax : fmt32.maxBits = 0x7F7FFFFF := rfl
  have hround := roundFin_exact .rne false false hk hq (by omega) (by rw [hpack, hmax]; omega)
  rw [hpack] at hround
  have hbits : (fmt32.convert .rne false (ofInt k)).bits = k * 2 ^ (23 - k.log2) + (k.log2 + 126) * 2 ^ 23 := by
    rw [hof]
    exact congrArg FRes.bits hround
  rw [hbits, decode32_normal hlo hhi (by omega), show ((k.log2 + 126 : Nat) : Int) - 149 = -((23 - k.log2 : Nat) : Int) by omega]

/-- A value whose binary point lies at a multiple of its spacing is an integer. -/
theorem intOf_scaled (k j : Nat) : intOf (k * 2 ^ j) (-(j : Int)) false = some (k : Int) := by
  have hround : roundAt .rz false (k * 2 ^ j) (-(j : Int)) 0 = (k, true) := by
    rcases Nat.eq_zero_or_pos j with rfl | hj
    · rw [roundAt_multiple _ _ _ (by omega)]
      simp
    · rw [roundAt, if_neg (by omega)]
      simp [roundUp]
  rw [intOf, roundInt, hround]
  rfl

/-- A power of two of a normal exponent is exact (R56). -/
theorem roundFin_two_pow {k : Nat} (hk : k ≤ 127) : (fmt32.roundFin .rne false false 1 k).bits = (k + 127) * 2 ^ 23 := by
  have hq : max (expOf 1 k) fmt32.emin - fmt32.fb = (k : Int) - 23 := by
    rw [expOf, show Nat.log2 1 = 0 from rfl, show fmt32.emin = -126 from rfl, show (fmt32.fb : Int) = 23 from rfl]
    omega
  have hpack : fmt32.pack (1 * 2 ^ ((k : Int) - ((k : Int) - 23)).toNat) ((k : Int) - 23) = (k + 127) * 2 ^ 23 := by
    rw [show ((k : Int) - ((k : Int) - 23)).toNat = 23 by omega, pack32_normal (by omega),
      show ((k : Int) - 23 + 149).toNat = k + 126 by omega]
    omega
  have hmax : fmt32.maxBits = 0x7F7FFFFF := rfl
  rw [roundFin_exact .rne false false one_ne_zero hq (by omega) (by rw [hpack, hmax]; omega), hpack]
  rfl

/-- `fex2` of an integer from 0 to 127 (R229). -/
theorem fex2Of_ofInt {k : Nat} (hk : k ≤ 127) :
    (fex2Of (fmt32.convert .rne false (ofInt k)).bits).bits = (k + 127) * 2 ^ 23 := by
  rcases Nat.eq_zero_or_pos k with rfl | hpos
  · exact congrArg FRes.bits (fex2Of_zero (n := false) (e := -149) rfl)
  · have hne : k ≠ 0 := hpos.ne'
    have hdec := decode_convert_ofInt hne (by omega)
    have hbig : k * 2 ^ (23 - k.log2) * 2 ^ (-((23 - k.log2 : Nat) : Int)).toNat / 2 ^ (- -((23 - k.log2 : Nat) : Int)).toNat
        < 128 := by
      rw [Int.toNat_neg_natCast, neg_neg, Int.toNat_natCast, pow_zero, Nat.mul_one, Nat.mul_div_cancel _ (Nat.two_pow_pos _)]
      omega
    rw [fex2Of_int hdec (by positivity) hbig (intOf_scaled k _) (by omega), roundFin_two_pow hk]

end Sys2Proof.Machine

namespace Sys2Proof

open Machine

/-- Settles O11: the bounds hold by `boundBy`; a zero and an infinity are the functions' own cases; `fex2Of_ofInt` gives the powers
of two. -/
theorem unitFunctionsBounded : Obligations.UnitFunctionsBounded := by
  unfold Obligations.UnitFunctionsBounded
  refine ⟨fun x n m e h => ⟨fsinOf_le h, fcosOf_le h, ftanhOf_le h⟩, fun x hx => ?zero, fun x n h => ?inf,
    fun k => fex2Of_ofInt⟩
  case zero =>
    obtain ⟨n, e, hdec, hsign⟩ : ∃ n e, fmt32.decode x = .fin n 0 e ∧ fmt32.signed n 0 = x := by
      rcases hx with rfl | rfl
      · exact ⟨false, -149, rfl, rfl⟩
      · exact ⟨true, -149, rfl, rfl⟩
    obtain ⟨free, exact, ht⟩ := ftanhOf_fin hdec
    rw [fcosOf_fin hdec, fsinOf_fin hdec, ht, fex2Of_zero hdec]
    exact ⟨rfl, hsign, hsign, rfl⟩
  case inf =>
    rw [fsinOf, fcosOf, ftanhOf, h]
    refine ⟨rfl, rfl, ?_⟩
    cases n <;> rfl

end Sys2Proof

/-! # Global loads, global stores and the order of an access's faults (O30, O31, O34)

The checks of R264 come first: what `checked` comes to where every lane passes, where some lanes meet the first cause, where
all lanes meet one handler cause. -/

namespace Sys2Proof.Machine

/-! ## Faults of a translation come at step 4 of R264 or later -/

theorem usedEntry_step {m : Mem} {tlb : Sparse (List Nat)} {va fr level a : Nat} {g : Flt}
    (h : usedEntry m tlb va fr level a = .error g) : 4 ≤ g.step := by
  unfold usedEntry at h
  simp only at h
  split at h
  · cases h
  · unfold readEntry at h
    split_ifs at h
    · cases h; decide
    · cases h; decide
    · cases h

theorem invalidEntry_step (e : Nat) : 4 ≤ (invalidEntry e).step := by
  unfold invalidEntry
  split_ifs <;> decide

/-- A faulty entry met on the way faults the walk. -/
theorem map_error_step {f : Leaf → Leaf} {x : Except Flt Leaf} {g : Flt} (hx : x = .error g → 4 ≤ g.step)
    (h : x.map f = .error g) : 4 ≤ g.step := by
  cases x with
  | ok l => cases h
  | error e => cases h; exact hx rfl

theorem walkFrom_step {m : Mem} {tlb : Sparse (List Nat)} {va fr level table : Nat} {g : Flt}
    (h : walkFrom m tlb va fr level table = .error g) : 4 ≤ g.step := by
  have hlast {l : Leaf} {c : Bool} (hl : (if c then Except.ok l else Except.error walkError) = .error g) : 4 ≤ g.step := by
    cases c <;> cases hl
    decide
  induction level generalizing table with
  | zero =>
    unfold walkFrom at h
    split at h
    next hu => cases h; exact usedEntry_step hu
    next =>
      split at h
      next => cases h; exact invalidEntry_step _
      next =>
        split at h
        next => exact hlast h
        next => cases h; decide
  | succ level ih =>
    unfold walkFrom at h
    split at h
    next hu => cases h; exact usedEntry_step hu
    next =>
      split at h
      next => cases h; exact invalidEntry_step _
      next =>
        split at h
        next => exact hlast h
        next =>
          split_ifs at h
          · exact map_error_step ih h
          · cases h; decide

theorem leaf_step {s : State} {ctx va fr : Nat} {g : Flt} (h : s.leaf ctx va fr = .error g) : 4 ≤ g.step := walkFrom_step h

theorem vitRoute_step {v : Vitrine} {k : AccKind} {va : Nat} {g : Flt} (h : vitRoute v k va = .error g) : 4 ≤ g.step := by
  unfold vitRoute at h
  simp only at h
  split_ifs at h <;> cases h <;> decide

theorem permit_step {key : Nat} {write : Bool} {l : Leaf} {g : Flt} (h : permit key write l = some g) : 4 ≤ g.step := by
  unfold permit at h
  split_ifs at h <;> cases h <;> decide

theorem route_step {s : State} {ctx va fr : Nat} {k : AccKind} {g : Flt} (h : s.route ctx va fr k = .error g) : 4 ≤ g.step := by
  unfold State.route at h
  split at h
  next hl => cases h; exact leaf_step hl
  next =>
    split_ifs at h
    split at h
    next hv =>
      split_ifs at h
      cases h; exact vitRoute_step hv
    next =>
      split_ifs at h
      split at h
      next hl => cases h; exact leaf_step hl
      next => cases h

theorem route_vitrine_step {s : State} {ctx va fr : Nat} {k : AccKind} {t : Tgt} {g : Flt}
    (h : s.route ctx va fr k = .ok (t, some g)) : 4 ≤ g.step := by
  unfold State.route at h
  split at h
  next => cases h
  next =>
    split_ifs at h
    · cases h
    split at h
    next hv =>
      split_ifs at h
      cases h; exact vitRoute_step hv
    next =>
      split_ifs at h
      · cases h
      split at h <;> cases h

theorem access_step {s : State} {ctx va fr : Nat} {k : AccKind} {g : Flt} (h : s.access ctx va fr k = .error g) :
    4 ≤ g.step := by
  unfold State.access at h
  split at h
  next hr => cases h; exact route_step hr
  next hr =>
    split at h
    next hp => cases h; exact permit_step hp
    next =>
      split at h
      next => cases h; exact route_vitrine_step hr
      next => cases h

/-! ## What the checks of some lanes come to -/

section
variable {α : Type} {it : Iss} {c : Nat → LaneChk α} {F : Flt} {p : Nat → Bool} {l : Nat}

/-- The fatal fault found so far, after one more lane. -/
def fatalStep (best : Option (Flt × Nat)) (c : LaneChk α) : Option (Flt × Nat) :=
  match chkFlt c with
  | none => best
  | some f =>
    if f.handler then best
    else match best with
      | none => some (f, c.2.1)
      | some (g, a) => if f.step < g.step then some (f, c.2.1) else some (g, a)

theorem fatalOf_eq_foldl (cs : List (LaneChk α)) : fatalOf cs = cs.foldl fatalStep none := rfl

theorem fatalStep_none {x : LaneChk α} (h : chkFlt x = none) (best : Option (Flt × Nat)) : fatalStep best x = best := by
  simp only [fatalStep, h]

theorem fatalStep_handler {x : LaneChk α} (h : chkFlt x = some F) (hF : F.handler = true) (best : Option (Flt × Nat)) :
    fatalStep best x = best := by
  simp only [fatalStep, h, hF, if_true]

/-- A fault of the least step stands. -/
theorem fatalStep_least {x : LaneChk α} (h : ∀ g, chkFlt x = some g → F.step ≤ g.step) (a : Nat) :
    fatalStep (some (F, a)) x = some (F, a) := by
  cases hx : chkFlt x with
  | none => exact fatalStep_none hx _
  | some g =>
    simp only [fatalStep, hx, if_neg (Nat.not_lt.mpr (h g hx)), ite_self]

theorem foldl_fatalStep_least {cs : List (LaneChk α)} (h : ∀ x ∈ cs, ∀ g, chkFlt x = some g → F.step ≤ g.step) (a : Nat) :
    cs.foldl fatalStep (some (F, a)) = some (F, a) := by
  induction cs with
  | nil => rfl
  | cons x cs ih =>
    rw [List.foldl_cons, fatalStep_least (h x List.mem_cons_self)]
    exact ih fun y hy => h y (List.mem_cons_of_mem x hy)

/-- The fatal fault that R264 reports: the cause of the first step, at the lowest of its lanes. -/
theorem foldl_fatalStep_first (hF : F.handler = false) {ls : List Nat} (hp : ∀ j ∈ ls, p j = true → chkFlt (c j) = some F)
    (hn : ∀ j ∈ ls, p j = false → ∀ g, chkFlt (c j) = some g → F.step < g.step) (hl : ls.find? p = some l)
    {best : Option (Flt × Nat)} (hb : ∀ g a, best = some (g, a) → F.step < g.step) :
    (ls.map c).foldl fatalStep best = some (F, (c l).2.1) := by
  induction ls generalizing best with
  | nil => cases hl
  | cons j ls ih =>
    rw [List.map_cons, List.foldl_cons]
    have hp' := fun i hi => hp i (List.mem_cons_of_mem j hi)
    have hn' := fun i hi => hn i (List.mem_cons_of_mem j hi)
    cases hj : p j with
    | true =>
      rw [List.find?_cons_of_pos hj, Option.some.injEq] at hl
      subst hl
      have hstep : fatalStep best (c j) = some (F, (c j).2.1) := by
        simp only [fatalStep, hp j List.mem_cons_self hj, hF, Bool.false_eq_true, if_false]
        cases best with
        | none => rfl
        | some b => exact if_pos (hb b.1 b.2 rfl)
      rw [hstep]
      refine foldl_fatalStep_least (fun x hx g hg => ?_) _
      obtain ⟨i, hi, rfl⟩ := List.mem_map.mp hx
      cases hpi : p i with
      | true => rw [hp' i hi hpi, Option.some.injEq] at hg; exact hg ▸ le_rfl
      | false => exact (hn' i hi hpi g hg).le
    | false =>
      rw [List.find?_cons_of_neg (by rw [hj]; decide)] at hl
      refine ih hp' hn' hl fun g a hg => ?_
      have hlt := hn j List.mem_cons_self hj
      cases hc : chkFlt (c j) with
      | none => exact hb g a ((fatalStep_none hc best).symm.trans hg)
      | some f =>
        cases hh : f.handler with
        | true => exact hb g a ((fatalStep_handler hc hh best).symm.trans hg)
        | false =>
          simp only [fatalStep, hc, hh, Bool.false_eq_true, if_false] at hg
          cases best with
          | none => cases hg; exact hlt _ hc
          | some b =>
            simp only at hg
            split_ifs at hg
            · cases hg; exact hlt _ hc
            · cases hg; exact hb b.1 b.2 rfl

/-- The lanes whose faults satisfy a test. -/
theorem chkMask_map (hc : ∀ j, (c j).1 = j) (q : Flt → Bool) :
    chkMask (it.lanes.map c) q = it.maskWhere fun j => ((chkFlt (c j)).map q).getD false := by
  refine BitVec.eq_of_getLsbD_eq fun j hj => ?_
  rw [getLsbD_maskWhere hj, chkMask, getLsbD_maskOf _ hj, Bool.eq_iff_iff, List.any_eq_true, Bool.and_eq_true, ← mem_lanesOf]
  constructor
  · rintro ⟨x, hx, hq⟩
    obtain ⟨i, hi, rfl⟩ := List.mem_map.mp hx
    rw [hc i, Bool.and_eq_true, beq_iff_eq] at hq
    obtain ⟨rfl, hq⟩ := hq
    exact ⟨hi, hq⟩
  · rintro ⟨hj, hq⟩
    exact ⟨c j, List.mem_map.mpr ⟨j, hj, rfl⟩, by rw [hc j, beq_self_eq_true, Bool.true_and, hq]⟩

/-- A cause of steps 1 to 3 of R264 that no lane meets an earlier one than: raised at its lowest lane, for its lanes. -/
theorem checked_raises (hc : ∀ j, (c j).1 = j) (hstep : F.step < 4) (hF : F.handler = false)
    (hp : ∀ j ∈ it.lanes, p j = true → chkFlt (c j) = some F)
    (hn : ∀ j ∈ it.lanes, p j = false → ∀ g, chkFlt (c j) = some g → F.step < g.step) (hl : it.firstLane p = some l)
    (s : State) (k : Checked α → State) :
    checked it s (it.lanes.map c) k = raise it s F.cause F.sub (it.maskWhere p) (c l).2.1 := by
  have hfatal : fatalOf (it.lanes.map c) = some (F, (c l).2.1) :=
    foldl_fatalStep_first hF hp hn hl fun g a h => by cases h
  have hmask : chkMask (it.lanes.map c) (fun g => g == F) = it.maskWhere p := by
    rw [chkMask_map hc, maskWhere_eq_iff fun j hj => ?_]
    · intro j hj
      rw [getLsbD_maskWhere (BitVec.lt_of_getLsbD (mem_lanesOf.mp hj)), mem_lanesOf.mp hj, Bool.true_and]
      cases hpj : p j with
      | true => rw [hp j hj hpj, Option.map_some, Option.getD_some, beq_self_eq_true]
      | false =>
        cases hg : chkFlt (c j) with
        | none => rfl
        | some g =>
          rw [Option.map_some, Option.getD_some, beq_eq_false_iff_ne]
          rintro rfl
          exact lt_irrefl _ (hn j hj hpj g hg)
    · by_cases hj32 : j < 32
      · rw [getLsbD_maskWhere hj32, hj, Bool.false_and]
      · exact BitVec.getLsbD_of_ge _ _ (Nat.not_lt.mp hj32)
  simp only [checked, hfatal, hmask, walkLanes, if_neg (Nat.not_le.mpr hstep)]

/-- Every lane passes. -/
theorem checked_passes {f : Nat → α} (h : ∀ j ∈ it.lanes, (c j).1 = j ∧ (c j).2.2 = .ok (f j)) (s : State)
    (k : Checked α → State) : checked it s (it.lanes.map c) k = k ⟨it.lanes.map fun j => (j, f j), none⟩ := by
  have hflt : ∀ x ∈ it.lanes.map c, chkFlt x = none := by
    intro x hx
    obtain ⟨j, hj, rfl⟩ := List.mem_map.mp hx
    simp only [chkFlt, (h j hj).2]
  have hfatal : fatalOf (it.lanes.map c) = none := by
    rw [fatalOf_eq_foldl]
    generalize it.lanes.map c = cs at hflt
    induction cs with
    | nil => rfl
    | cons x cs ih =>
      rw [List.foldl_cons, fatalStep_none (hflt x List.mem_cons_self)]
      exact ih fun y hy => hflt y (List.mem_cons_of_mem x hy)
  have hhandler : handlerOf (it.lanes.map c) = none := by
    have : (it.lanes.map c).find? (fun x => (chkFlt x).isSome) = none :=
      List.find?_eq_none.mpr fun x hx => by rw [hflt x hx]; decide
    simp only [handlerOf, this]
  have hok : okLanes (it.lanes.map c) = it.lanes.map fun j => (j, f j) := by
    rw [okLanes, List.filterMap_map, ← List.filterMap_eq_map]
    refine List.filterMap_congr fun j hj => ?_
    simp only [Function.comp_apply, (h j hj).1, (h j hj).2]
  simp only [checked, hfatal, hhandler, hok]

/-- Every lane meets one handler cause: it is left for after the word's effect, on no lane (R264). -/
theorem checked_all_handler (hc : ∀ j, (c j).1 = j) (hF : F.handler = true)
    (h : ∀ j ∈ it.lanes, (c j).2.2 = .error F) (hl : it.lanes.head? = some l) (s : State) (k : Checked α → State) :
    checked it s (it.lanes.map c) k = k ⟨[], some (F, it.act, (c l).2.1)⟩ := by
  have hflt : ∀ j ∈ it.lanes, chkFlt (c j) = some F := fun j hj => by simp only [chkFlt, h j hj]
  have hfatal : fatalOf (it.lanes.map c) = none := by
    rw [fatalOf_eq_foldl, List.foldl_map]
    generalize it.lanes = ls at hflt
    induction ls with
    | nil => rfl
    | cons j ls ih =>
      rw [List.foldl_cons, fatalStep_handler (hflt j List.mem_cons_self) hF]
      exact ih fun i hi => hflt i (List.mem_cons_of_mem j hi)
  have hmask : chkMask (it.lanes.map c) (fun _ => true) = it.act := by
    rw [chkMask_map hc, maskWhere_eq_act]
    intro j hj
    rw [hflt j hj]
    rfl
  have hhandler : handlerOf (it.lanes.map c) = some (F, it.act, (c l).2.1) := by
    obtain ⟨ls, hls⟩ := List.head?_eq_some_iff.mp hl
    have hfl : chkFlt (c l) = some F := hflt l (hls ▸ List.mem_cons_self)
    have hfind : (it.lanes.map c).find? (fun x => (chkFlt x).isSome) = some (c l) := by
      rw [hls, List.map_cons]
      exact List.find?_cons_of_pos (by rw [hfl]; rfl)
    simp only [handlerOf, hfind, hfl, hmask]
  have hok : okLanes (it.lanes.map c) = [] := by
    rw [okLanes, List.filterMap_map, List.filterMap_eq_nil_iff]
    intro j hj
    simp only [Function.comp_apply, h j hj]
  simp only [checked, hfatal, hhandler, hok]

end

/-! ## The checks of a global access -/

section
variable {it : Iss} {s : State} {k : AccKind} {n : Nat} {ea : Nat → PV} {l : Nat}

theorem chkFlt_of_chkAddr {g : Flt} (h : chkAddr (ea l) n = .error g) : chkFlt (chkGlobal it s k n ea l) = some g := by
  simp only [chkFlt, chkGlobal, h]

/-- An address that meets none of steps 1 to 3. -/
theorem chkGlobal_of_address (hp : (ea l).pois = false) (hv : (ea l).v < 2 ^ 56) (hn : (ea l).v % n = 0) :
    (chkGlobal it s k n ea l).2.2 = s.access it.ctx (ea l).v (laneFree s l) k := by
  simp only [chkGlobal, chkAddr, hp, Nat.not_le.mpr hv, hn, Bool.false_eq_true, if_false, bne_self_eq_false]

/-- What steps 1 to 3 find in an address. -/
theorem chkAddr_cases (a : PV) (n : Nat) :
    (a.pois = true ∧ chkAddr a n = .error ⟨1, .poison, 0⟩)
      ∨ (a.pois = false ∧ 2 ^ 56 ≤ a.v ∧ chkAddr a n = .error ⟨2, .address, 0⟩)
      ∨ (a.pois = false ∧ a.v < 2 ^ 56 ∧ a.v % n ≠ 0 ∧ chkAddr a n = .error ⟨3, .misaligned, 0⟩)
      ∨ (a.pois = false ∧ a.v < 2 ^ 56 ∧ a.v % n = 0) := by
  by_cases hp : a.pois = true
  · exact .inl ⟨hp, if_pos hp⟩
  · rw [Bool.not_eq_true] at hp
    by_cases hv : 2 ^ 56 ≤ a.v
    · exact .inr (.inl ⟨hp, hv, by simp only [chkAddr, hp, hv, Bool.false_eq_true, if_false, if_true]⟩)
    · have hlt := Nat.not_le.mp hv
      by_cases hn : a.v % n = 0
      · exact .inr (.inr (.inr ⟨hp, hlt, hn⟩))
      · exact .inr (.inr (.inl ⟨hp, hlt, hn, by
          simp only [chkAddr, hp, hv, Bool.false_eq_true, if_false, bne_iff_ne, ne_eq, hn, not_false_eq_true, if_true]⟩))

/-- A lane's fault, by the first step it fails. -/
theorem chkFlt_cases {g : Flt} (h : chkFlt (chkGlobal it s k n ea l) = some g) :
    ((ea l).pois = true ∧ g = ⟨1, .poison, 0⟩) ∨ (2 ^ 56 ≤ (ea l).v ∧ g = ⟨2, .address, 0⟩)
      ∨ ((ea l).v % n ≠ 0 ∧ g = ⟨3, .misaligned, 0⟩) ∨ 4 ≤ g.step := by
  obtain ⟨hp, he⟩ | ⟨-, hv, he⟩ | ⟨-, -, hn, he⟩ | ⟨hp, hv, hn⟩ := chkAddr_cases (ea l) n
  · rw [chkFlt_of_chkAddr he, Option.some.injEq] at h
    exact .inl ⟨hp, h.symm⟩
  · rw [chkFlt_of_chkAddr he, Option.some.injEq] at h
    exact .inr (.inl ⟨hv, h.symm⟩)
  · rw [chkFlt_of_chkAddr he, Option.some.injEq] at h
    exact .inr (.inr (.inl ⟨hn, h.symm⟩))
  · have hacc := chkGlobal_of_address (it := it) (s := s) (k := k) hp hv hn
    cases ha : s.access it.ctx (ea l).v (laneFree s l) k with
    | ok t => simp only [chkFlt, hacc, ha, reduceCtorEq] at h
    | error f =>
      simp only [chkFlt, hacc, ha, Option.some.injEq] at h
      exact .inr (.inr (.inr (h ▸ access_step ha)))

end

end Sys2Proof.Machine

namespace Sys2Proof

open Sys2Proof.Machine

/-- A word that makes the checks of R264 on global addresses before anything else meets their causes in order. -/
theorem addressTraps_of_checked {i : Instr} {ea : Iss → Nat → PV} {n : Iss → Nat}
    (h : ∀ s s0 it, issuing i s = some (it, s0) → ∃ kind k,
      exec i s = .next (checked it s0 (it.lanes.map fun l => chkGlobal it s0 kind (n it) (ea it) l) k)) :
    AddressTraps i ea n := by
  intro s s0 it l hi bad
  obtain ⟨kind, k, he⟩ := h s s0 it hi
  refine ⟨fun hl => ?poison, fun hclean hl => ?address, fun hclean hl => ?misaligned⟩
  case poison =>
    rw [he, checked_raises (F := ⟨1, .poison, 0⟩) (fun _ => rfl) (by decide) rfl ?_ ?_ hl]
    · rfl
    · exact fun j _ hj => chkFlt_of_chkAddr (if_pos hj)
    · intro j _ hj g hg
      obtain ⟨hp, -⟩ | ⟨-, rfl⟩ | ⟨-, rfl⟩ | hs := chkFlt_cases hg
      · exact absurd (hj.symm.trans hp) (by decide)
      · decide
      · decide
      · exact Nat.lt_of_lt_of_le (by decide) hs
  case address =>
    rw [he, checked_raises (F := ⟨2, .address, 0⟩) (fun _ => rfl) (by decide) rfl ?_ ?_ hl]
    · rfl
    · intro j hj hv
      refine chkFlt_of_chkAddr ?_
      simp only [chkAddr, hclean j hj, of_decide_eq_true hv, Bool.false_eq_true, if_false, if_true]
    · intro j hjl hj g hg
      obtain ⟨hp, -⟩ | ⟨hv, -⟩ | ⟨-, rfl⟩ | hs := chkFlt_cases hg
      · exact absurd ((hclean j hjl).symm.trans hp) (by decide)
      · exact absurd hv (of_decide_eq_false hj)
      · decide
      · exact Nat.lt_of_lt_of_le (by decide) hs
  case misaligned =>
    rw [he, checked_raises (F := ⟨3, .misaligned, 0⟩) (fun _ => rfl) (by decide) rfl ?_ ?_ hl]
    · rfl
    · intro j hj hv
      obtain ⟨hp, hin⟩ := hclean j hj
      refine chkFlt_of_chkAddr ?_
      simp only [chkAddr, hp, Nat.not_le.mpr hin, Bool.false_eq_true, if_false, hv, if_true]
    · intro j hjl hj g hg
      obtain ⟨hp, hin⟩ := hclean j hjl
      obtain ⟨hp', -⟩ | ⟨hv, -⟩ | ⟨hn, -⟩ | hs := chkFlt_cases hg
      · exact absurd (hp.symm.trans hp') (by decide)
      · exact absurd hv (Nat.not_le.mpr hin)
      · exact absurd (by simpa using hj) hn
      · exact Nat.lt_of_lt_of_le (by decide) hs

end Sys2Proof

namespace Sys2Proof.Machine

/-! ## The issuing warp through a word's effect -/

section
variable {it : Iss} {s t : State} {b b' : List Buffered} {r r' : Sparse Nat} {p p' : List Pend}

/-- The issuing warp is as it issued, but for what was noted of it; these are its buffered stores, reservations and outstanding
operations. -/
def IssuedWith (it : Iss) (b : List Buffered) (r : Sparse Nat) (p : List Pend) (s : State) : Prop :=
  ∃ n, s.warp it.wid = some ((it.w.atIssue n).drained b r p)

theorem issuedWith_of_keepsStores {i : Instr} {s0 : State} (h : issuing i s = some (it, s0)) (hk : keepsStores i = true) :
    IssuedWith it it.w.sbuf it.w.resv it.w.pend s0 := warp_at_issue h (.inl hk)

namespace IssuedWith

theorem asIssued (h : IssuedWith it b r p s) : AsIssued it s :=
  let ⟨n, hw⟩ := h
  ⟨n, b, r, p, hw⟩

theorem of_warps (h : IssuedWith it b r p s) (e : t.warps = s.warps) : IssuedWith it b r p t :=
  let ⟨n, hw⟩ := h
  ⟨n, (State.warp_of_warps_eq e it.wid).trans hw⟩

/-- A change of the issuing warp. -/
theorem modWarp (h : IssuedWith it b r p s) {f : Warp → Warp}
    (hf : ∀ n, ∃ n', f ((it.w.atIssue n).drained b r p) = (it.w.atIssue n').drained b' r' p') :
    IssuedWith it b' r' p' (s.modWarp it.wid f) := by
  obtain ⟨n, hw⟩ := h
  obtain ⟨n', hn⟩ := hf n
  exact ⟨n', hn ▸ warp_modWarp_some hw f⟩

/-- A word that got its miss-status entry. -/
theorem unmiss (h : IssuedWith it b r p s) : IssuedWith it b r p (s.modWarp it.wid Warp.unmiss) :=
  h.modWarp fun n => ⟨{ n with sched := { n.sched with missWait := none } }, rfl⟩

end IssuedWith

theorem AsIssued.issuedWith (h : AsIssued it s) : ∃ b r p, IssuedWith it b r p s :=
  let ⟨n, b, r, p, hw⟩ := h
  ⟨b, r, p, n, hw⟩

theorem advance_keeps (w : Warp) : w.advance.sbuf = w.sbuf ∧ w.advance.resv = w.resv ∧ w.advance.pend = w.pend
    ∧ w.advance.v = w.v := by
  unfold Warp.advance Warp.passed
  cases w.clause with
  | none => exact ⟨rfl, rfl, rfl, rfl⟩
  | some cl =>
    simp only
    split_ifs <;> exact ⟨rfl, rfl, rfl, rfl⟩

/-- The warp of a word that completes. -/
theorem warp_commit (h : IssuedWith it b r p s) (f : Warp → Warp) :
    ∃ n, (commit it s f).warp it.wid = some (f ((atWrites it n).drained b r p)).advance := by
  obtain ⟨n, hw⟩ := h
  refine ⟨n, (warp_modWarp_some hw _).trans ?_⟩
  rw [releases_drained, releases_atIssue]
  rfl

/-- A word that completes without a write: its place and registers, and what its warp holds still. -/
theorem storeMovesOn_commit (h : IssuedWith it b r p s) :
    StoreMovesOn it (commit it s id) ∧ ∃ w', (commit it s id).warp it.wid = some w' ∧ w'.sbuf = b ∧ w'.resv = r ∧ w'.pend = p := by
  obtain ⟨n, hw⟩ := warp_commit h id
  obtain ⟨-, hv, hs, hp, hq, -, -, hrun, hcl⟩ := atWrites_facts it n
  obtain ⟨-, av, as, ap, aq, -, -, arun⟩ := advance_facts ((atWrites it n).drained b r p)
  obtain ⟨ab, ar, apend, -⟩ := advance_keeps ((atWrites it n).drained b r p)
  exact ⟨⟨_, hw, arun.trans (nextRun_congr hrun hcl), as.trans hs, ap.trans hp, aq.trans hq,
    fun x l => vget_congr (av.trans hv) x l⟩, _, hw, ab, ar, apend⟩

/-- A load that is outstanding with the words it will write (R36). -/
theorem outstanding_pendLong (h0 : IssuedWith it b r p s) (h : IssuedWith it b' r' p t) (ha : it.act ≠ 0) (kind : PendKind)
    (vw : List (Nat × Nat × PWord)) (sw : List (Nat × PWord)) (src : List LoadSrc) :
    Outstanding it s (pendLong it t kind vw sw src) kind vw sw src
      ∧ ∃ w', (pendLong it t kind vw sw src).warp it.wid = some w' ∧ w'.resv = r' := by
  obtain ⟨n0, hw0⟩ := h0
  obtain ⟨n, hw⟩ := warp_commit h fun w => if it.act = 0 then w else
    { w with pend := w.pend ++ [⟨flagOf it.w it.o.fsel, kind, vw, sw, src, renames it.instr it.w, []⟩] }
  rw [if_neg ha] at hw
  obtain ⟨-, hv, hs, hp, hq, -, -, hrun, hcl⟩ := atWrites_facts it n
  obtain ⟨-, av, as, ap, aq, -, -, arun⟩ := advance_facts ((atWrites it n).drained b' r'
    (p ++ [⟨flagOf it.w it.o.fsel, kind, vw, sw, src, renames it.instr it.w, []⟩]))
  obtain ⟨-, ar, apend, -⟩ := advance_keeps ((atWrites it n).drained b' r'
    (p ++ [⟨flagOf it.w it.o.fsel, kind, vw, sw, src, renames it.instr it.w, []⟩]))
  exact ⟨⟨_, _, hw0, hw, arun.trans (nextRun_congr hrun hcl), as.trans hs, ap.trans hp,
    aq.trans hq, fun x l => vget_congr (av.trans hv) x l, apend⟩, _, hw, ar⟩

end

/-! ## What accesses leave of the state -/

/-- What accesses to memory leave: all but memory, what cores may still read and their counters, noted bytes of constants
sections, cached translations, reservations and replayed loads (R148, R236, R240, R270); and the warp of `own`. No core gets a
dirty byte. -/
structure Aside (own : Option Nat) (s t : State) : Prop where
  agenda : t.agenda = s.agenda
  cur : t.cur = s.cur
  dev : t.dev = s.dev
  pairs : t.pairs = s.pairs
  blocks : t.blocks = s.blocks
  blkNext : t.blkNext = s.blkNext
  cmdNext : t.cmdNext = s.cmdNext
  cores : ∀ c, ∃ o n, t.core c = { s.core c with old := o, cnt := n }
  dirt : ∀ e ∈ t.cores, ∀ b ∈ e.2.dirty, ∃ e' ∈ s.cores, b ∈ e'.2.dirty
  grids : GridsKept s t
  ctxs : ∀ c, ∃ l, t.ctx c = (s.ctx c).map fun x => { x with tlb := l }
  warps : ∀ x, some x ≠ own → ∃ r p, t.warp x = (s.warp x).map fun w => { w with resv := r, pend := p }

namespace Aside

variable {own : Option Nat} {r s t : State}

theorem gridsKept_of_eq (h : t.grids = s.grids) : GridsKept s t := by
  intro k
  rw [h]
  cases alook k s.grids with
  | none => exact ⟨[], rfl⟩
  | some g => exact ⟨g.image.constStored, rfl⟩

theorem ctx_of_eq (h : t.ctxs = s.ctxs) (c : Nat) : ∃ l, t.ctx c = (s.ctx c).map fun x => { x with tlb := l } := by
  have h' : t.ctx c = s.ctx c := congrArg (alook c) h
  rw [h']
  cases s.ctx c with
  | none => exact ⟨[], rfl⟩
  | some x => exact ⟨x.tlb, rfl⟩

theorem warp_of_eq {x : Nat} (h : t.warp x = s.warp x) :
    ∃ r p, t.warp x = (s.warp x).map fun w => { w with resv := r, pend := p } := by
  rw [h]
  cases s.warp x with
  | none => exact ⟨[], [], rfl⟩
  | some w => exact ⟨w.resv, w.pend, rfl⟩

protected theorem refl (own : Option Nat) (s : State) : Aside own s s where
  agenda := rfl
  cur := rfl
  dev := rfl
  pairs := rfl
  blocks := rfl
  blkNext := rfl
  cmdNext := rfl
  cores _ := ⟨_, _, rfl⟩
  dirt e he _ hb := ⟨e, he, hb⟩
  grids := gridsKept_of_eq rfl
  ctxs := ctx_of_eq rfl
  warps _ _ := warp_of_eq rfl

protected theorem trans (h : Aside own r s) (k : Aside own s t) : Aside own r t where
  agenda := k.agenda.trans h.agenda
  cur := k.cur.trans h.cur
  dev := k.dev.trans h.dev
  pairs := k.pairs.trans h.pairs
  blocks := k.blocks.trans h.blocks
  blkNext := k.blkNext.trans h.blkNext
  cmdNext := k.cmdNext.trans h.cmdNext
  cores c := by
    obtain ⟨o, n, hs⟩ := h.cores c
    obtain ⟨o', n', ht⟩ := k.cores c
    exact ⟨o', n', by rw [ht, hs]⟩
  dirt e he b hb := by
    obtain ⟨e', he', hb'⟩ := k.dirt e he b hb
    exact h.dirt e' he' b hb'
  grids x := by
    obtain ⟨l, hl⟩ := h.grids x
    obtain ⟨m, hm⟩ := k.grids x
    exact ⟨m, by rw [hm, hl, Option.map_map]; rfl⟩
  ctxs c := by
    obtain ⟨l, hl⟩ := h.ctxs c
    obtain ⟨m, hm⟩ := k.ctxs c
    exact ⟨m, by rw [hm, hl, Option.map_map]; rfl⟩
  warps x hx := by
    obtain ⟨l, m, hl⟩ := h.warps x hx
    obtain ⟨l', m', hl'⟩ := k.warps x hx
    exact ⟨l', m', by rw [hl', hl, Option.map_map]; rfl⟩

protected theorem foldl {α : Type} {f : State → α → State} {l : List α} (h : ∀ s, ∀ x ∈ l, Aside own s (f s x)) (s : State) :
    Aside own s (l.foldl f s) := by
  induction l generalizing s with
  | nil => exact .refl own s
  | cons x l ih =>
    exact (h s x List.mem_cons_self).trans (ih (fun s y hy => h s y (List.mem_cons_of_mem x hy)) _)

/-- What leaves every warp leaves all but one. -/
theorem weaken (h : Aside none s t) (own : Option Nat) : Aside own s t :=
  { h with warps := fun x _ => h.warps x (Option.some_ne_none x) }

theorem keyId (h : Aside own s t) (c : Nat) : t.keyId c = s.keyId c := by
  obtain ⟨l, hl⟩ := h.ctxs c
  unfold State.keyId
  rw [hl]
  cases s.ctx c <;> rfl

theorem linkDown (h : Aside own s t) (key : Nat) : linkDown t key = linkDown s key :=
  linkDown_of_links (congrArg Device.links h.dev) key

theorem block (h : Aside own s t) (n : Nat) : t.block n = s.block n := congrArg (alook n) h.blocks

theorem besideMem {wid : Nat} (h : Aside (some wid) s t) : BesideMem wid s t where
  agenda := h.agenda
  cur := h.cur
  dev := h.dev
  cores c := by
    obtain ⟨o, n, e⟩ := h.cores c
    rw [e]
  pairs := h.pairs
  grids := h.grids
  blkNext := h.blkNext
  cmdNext := h.cmdNext
  ctxs c x hx := by
    obtain ⟨l, hl⟩ := h.ctxs c
    exact ⟨{ x with tlb := l }, by rw [hl, hx]; rfl, rfl⟩
  warps x hx := by
    obtain ⟨r, p, hw⟩ := h.warps x fun e => hx (Option.some.inj e)
    rw [hw, Option.map_map]
    rfl

end Aside

/-! ### Changes of one piece of the state -/

section
variable {own : Option Nat} {wid : Nat}

theorem aside_mem (own : Option Nat) (s : State) (m : Mem) (n : Nat) : Aside own s { s with mem := m, free := n } :=
  let h := Aside.refl own s
  ⟨rfl, rfl, rfl, rfl, rfl, rfl, rfl, h.cores, h.dirt, h.grids, h.ctxs, h.warps⟩

theorem mem_cores_of_dirty {s : State} {c : Nat} {b : Buffered} (h : b ∈ (s.core c).dirty) : ∃ e ∈ s.cores, b ∈ e.2.dirty := by
  unfold State.core sget at h
  cases hc : alook c s.cores with
  | none => rw [hc] at h; exact absurd h List.not_mem_nil
  | some x => rw [hc] at h; exact ⟨(c, x), mem_of_alook hc, h⟩

theorem aside_modCore (own : Option Nat) (s : State) (c : Nat) {f : Core → Core}
    (hf : ∀ x, ∃ o n, f x = { x with old := o, cnt := n }) : Aside own s (s.modCore c f) :=
  let h := Aside.refl own s
  { h with
    cores := fun x => by
      rw [State.core_modCore]
      split_ifs with e
      · subst e; exact hf _
      · exact ⟨_, _, rfl⟩
    dirt := fun e he b hb => by
      rcases mem_aput he with rfl | he
      · obtain ⟨o, n, hd⟩ := hf (s.core c)
        rw [hd] at hb
        exact mem_cores_of_dirty hb
      · exact ⟨e, he, hb⟩
    grids := h.grids
    ctxs := h.ctxs
    warps := h.warps }

theorem aside_count (own : Option Nat) (s : State) (c ev : Nat) : Aside own s (count s c ev) :=
  aside_modCore own s c fun _ => ⟨_, _, rfl⟩

theorem aside_of_onlyWarp {s t : State} (h : OnlyWarp wid s t) : Aside (some wid) s t where
  agenda := h.agenda
  cur := h.cur
  dev := h.dev
  pairs := h.pairs
  blocks := h.blocks
  blkNext := h.blkNext
  cmdNext := h.cmdNext
  cores c := by
    have e : t.core c = s.core c := by rw [State.core, State.core, h.cores]
    exact ⟨_, _, e⟩
  dirt e he b hb := ⟨e, h.cores ▸ he, hb⟩
  grids := Aside.gridsKept_of_eq h.grids
  ctxs := Aside.ctx_of_eq h.ctxs
  warps x hx := Aside.warp_of_eq (h.warps x fun e => hx (congrArg some e))

theorem aside_modWarp (wid : Nat) (s : State) (f : Warp → Warp) : Aside (some wid) s (s.modWarp wid f) :=
  aside_of_onlyWarp (onlyWarp_modWarp wid s f)

/-- A load of any warp is replayed. -/
theorem aside_modPend (own : Option Nat) (s : State) (x : Nat) {f : Warp → Warp} (hf : ∀ w, f w = { w with pend := (f w).pend }) :
    Aside own s (s.modWarp x f) :=
  { (aside_modWarp x s f) with
    warps := fun y _ => by
      rw [State.warp_modWarp]
      split_ifs with e
      · subst e
        cases s.warp y with
        | none => exact ⟨[], [], rfl⟩
        | some w => exact ⟨w.resv, (f w).pend, congrArg some (hf w)⟩
      · exact Aside.warp_of_eq rfl }

theorem aside_mapWarps (own : Option Nat) (s : State) {f : Warp → Warp} (hf : ∀ w, f w = { w with resv := (f w).resv }) :
    Aside own s { s with warps := s.warps.map fun e => (e.1, f e.2) } :=
  let h := Aside.refl own s
  { h with
    cores := h.cores, dirt := h.dirt, grids := h.grids, ctxs := h.ctxs
    warps := fun x _ => by
      have e : alook x (s.warps.map fun e => (e.1, f e.2)) = (s.warp x).map f := alook_map f x s.warps
      refine (show ∃ r p, alook x (s.warps.map fun e => (e.1, f e.2)) = (s.warp x).map _ from ?_)
      rw [e]
      cases s.warp x with
      | none => exact ⟨[], [], rfl⟩
      | some w => exact ⟨(f w).resv, w.pend, congrArg some (hf w)⟩ }

/-- Each core changes by itself, in what it may still read alone. -/
theorem aside_mapCores (own : Option Nat) (s : State) {g : Nat → Core → Core} (hg : ∀ i x, ∃ o, g i x = { x with old := o }) :
    Aside own s { s with cores := s.cores.map fun e => (e.1, g e.1 e.2) } :=
  let h := Aside.refl own s
  { h with
    cores := fun c => by
      have key (l : Sparse Core) : ∃ o n, (alook c (l.map fun e => (e.1, g e.1 e.2))).getD Core.reset
          = { (alook c l).getD Core.reset with old := o, cnt := n } := by
        induction l with
        | nil => exact ⟨_, _, rfl⟩
        | cons e l ih =>
          simp only [List.map_cons, alook]
          split_ifs
          · obtain ⟨o, ho⟩ := hg e.1 e.2
            exact ⟨o, e.2.cnt, ho⟩
          · exact ih
      exact key s.cores
    dirt := fun e he b hb => by
      obtain ⟨e', he', rfl⟩ := List.mem_map.mp he
      obtain ⟨o, ho⟩ := hg e'.1 e'.2
      rw [ho] at hb
      exact ⟨e', he', hb⟩
    grids := h.grids, ctxs := h.ctxs, warps := h.warps }

theorem aside_fillTlb (own : Option Nat) (s : State) (ctx va : Nat) (l : Leaf) : Aside own s (s.fillTlb ctx va l) :=
  let h := Aside.refl own s
  { h with
    cores := h.cores, dirt := h.dirt, grids := h.grids, warps := h.warps
    ctxs := fun c => by
      refine (show ∃ m, (s.modCtx ctx _).ctx c = _ from ?_)
      rw [State.ctx_modCtx]
      split_ifs with e
      · subst e
        cases s.ctx c with
        | none => exact ⟨[], rfl⟩
        | some x => exact ⟨_, rfl⟩
      · exact Aside.ctx_of_eq rfl c }

theorem aside_touch (own : Option Nat) (s : State) (l : Leaf) : Aside own s (s.touch l) := by
  unfold State.touch
  split
  · exact .refl own s
  · exact aside_mem own s _ s.free

/-! ### A write that reaches memory -/

theorem aside_remember (own : Option Nat) (s : State) (core : Option Nat) (key n : Nat) (p : Bool) :
    Aside own s (s.remember core key n p) := by
  unfold State.remember
  refine aside_mapCores own s (g := fun i x => if (p || s.mem.poisonedIn key n || (sectors key n).any (inSpans s.mem.vague))
    then x.refreshLines key n else if some i == core then x.observe key n (s.dev.now + 1)
    else if x.ctx.isSome then x.remember s.dev.now key (s.mem.bytes key n) else x) fun i x => ?_
  split_ifs <;> exact ⟨_, rfl⟩

theorem aside_noteConsts (own : Option Nat) (s : State) (key n : Nat) : Aside own s (noteConsts s key n) :=
  let h := Aside.refl own s
  { h with
    cores := h.cores, dirt := h.dirt, ctxs := h.ctxs, warps := h.warps
    grids := fun k => by
      have e : alook k (noteConsts s key n).grids
          = (alook k s.grids).map fun g => { g with image := if g.status = .running then g.image.noteStore key n else g.image } :=
        alook_map (fun g : Grid =>
          ({ g with image := if g.status = .running then g.image.noteStore key n else g.image } : Grid)) k s.grids
      rw [e]
      cases alook k s.grids with
      | none => exact ⟨[], rfl⟩
      | some g =>
        by_cases hr : g.status = .running
        · exact ⟨(g.image.noteStore key n).constStored, by simp only [Option.map_some, if_pos hr]; rfl⟩
        · exact ⟨g.image.constStored, by simp only [Option.map_some, if_neg hr]⟩ }

theorem aside_clearResv (own : Option Nat) (s : State) (key n : Nat) : Aside own s (clearResv s key n) :=
  aside_mapWarps own s (f := fun w => w.loseResv key n) fun _ => rfl

theorem aside_replayLoads (own : Option Nat) (s : State) (who : Option Nat) (hit : LoadSrc → Bool) :
    Aside own s (replayLoads s who hit) := by
  unfold replayLoads
  refine Aside.foldl (fun s e _ => ?_) s
  split_ifs
  · exact (aside_modPend own s e.1 fun _ => rfl).trans (Aside.foldl (fun s _ _ => aside_count own s _ _) _)
  · exact .refl own s

/-- A write to memory (R326, R333). -/
theorem aside_put (own : Option Nat) (s : State) (who core : Option Nat) (kid key : Nat) (bs : List Byte) (p : Bool) :
    Aside own s (s.put who core kid key bs p) := by
  unfold State.put State.putBy
  split_ifs
  · exact .refl own s
  · exact ((((aside_remember own s _ key _ p).trans (aside_noteConsts own _ key _)).trans (aside_mem own _ _ _)).trans
      (aside_clearResv own _ key _)).trans (aside_replayLoads own _ who _)

end

end Sys2Proof.Machine

namespace Sys2Proof.Machine

/-! ## What a load does beside its result -/

/-- What a load's translations and sights leave: memory keeps its poison and every byte but some (here the TCH bits of the leaves,
R238), and grids stay. -/
structure Reads (wid : Nat) (tch : Nat → Prop) (s t : State) : Prop extends Aside (some wid) s t where
  sameGrids : t.grids = s.grids
  bytes : ∀ k, ¬ tch k → t.mem.byte k = s.mem.byte k
  pois : t.mem.pois = s.mem.pois

namespace Reads

variable {wid : Nat} {tch : Nat → Prop} {r s t : State}

theorem of_mem_eq (h : Aside (some wid) s t) (hg : t.grids = s.grids) (hm : t.mem = s.mem) : Reads wid tch s t :=
  ⟨h, hg, fun _ _ => by rw [hm], by rw [hm]⟩

protected theorem refl (s : State) : Reads wid tch s s := of_mem_eq (.refl _ s) rfl rfl

protected theorem trans (h : Reads wid tch r s) (k : Reads wid tch s t) : Reads wid tch r t where
  toAside := h.toAside.trans k.toAside
  sameGrids := k.sameGrids.trans h.sameGrids
  bytes j hj := (k.bytes j hj).trans (h.bytes j hj)
  pois := k.pois.trans h.pois

protected theorem foldl {α : Type} {f : State → α → State} {l : List α} (h : ∀ s, ∀ x ∈ l, Reads wid tch s (f s x)) (s : State) :
    Reads wid tch s (l.foldl f s) := by
  induction l generalizing s with
  | nil => exact .refl s
  | cons x l ih => exact (h s x List.mem_cons_self).trans (ih (fun s y hy => h s y (List.mem_cons_of_mem x hy)) _)

theorem of_onlyWarp (h : OnlyWarp wid s t) : Reads wid tch s t := of_mem_eq (aside_of_onlyWarp h) h.grids h.mem

theorem modWarp (s : State) (f : Warp → Warp) : Reads wid tch s (s.modWarp wid f) := of_onlyWarp (onlyWarp_modWarp wid s f)

theorem modCore (s : State) (c : Nat) {f : Core → Core} (hf : ∀ x, ∃ o n, f x = { x with old := o, cnt := n }) :
    Reads wid tch s (s.modCore c f) := of_mem_eq (aside_modCore _ s c hf) rfl rfl

end Reads

section
variable {it : Iss} {s t : State} {f : Nat → Tgt} {ls : List Nat} {ea : Nat → PV} {n l : Nat} {wid : Nat} {tch : Nat → Prop}

theorem reads_touch (s : State) {g : Leaf} (h : ∀ a, g.at_ = some a → tch (a + 1)) : Reads wid tch s (s.touch g) := by
  refine ⟨aside_touch _ s g, ?_, fun k hk => ?_, ?_⟩ <;> unfold State.touch <;> split
  · rfl
  · rfl
  · rfl
  next a ha =>
    refine (Mem.byte_setByte _ _ _ _).trans (if_neg fun e => hk ?_)
    rw [e]
    exact h a ha
  · rfl
  · rfl

/-- A translated access that retires (R238, R240). -/
theorem reads_used (s : State) (ctx va : Nat) {g : Tgt} (h : ∀ a, g.leaf.at_ = some a → tch (a + 1)) :
    Reads wid tch s (s.used ctx va g) := by
  unfold State.used
  extract_lets s1
  have h1 : Reads wid tch s s1 := by
    unfold s1
    split
    · exact .refl s
    · split
      · exact .of_mem_eq (aside_fillTlb _ s ctx va _) rfl rfl
      · exact .refl s
  exact (h1.trans (.of_mem_eq (aside_fillTlb _ s1 ctx g.va g.leaf) rfl rfl)).trans (reads_touch _ h)

theorem used_warps (s : State) (ctx va : Nat) (g : Tgt) : (s.used ctx va g).warps = s.warps := by
  have ht (s : State) (l : Leaf) : (s.touch l).warps = s.warps := by
    unfold State.touch
    split <;> rfl
  unfold State.used
  rw [ht]
  split
  · rfl
  · split <;> rfl

theorem usedLanes_warps (s : State) (ok : List (Nat × Tgt)) : (usedLanes it s ea ok).warps = s.warps :=
  foldl_keeps State.warps (f := fun s (x : Nat × Tgt) => s.used it.ctx (ea x.1).v x.2) (fun s _ => used_warps s _ _ _) ok s

/-- The lanes' translations retire. -/
theorem reads_usedLanes (s : State) (ls : List Nat) :
    Reads it.wid (TchByte f ls) s (usedLanes it s ea (ls.map fun l => (l, f l))) := by
  have h1 : Reads it.wid (TchByte f ls) s ((ls.map fun l => (l, f l)).foldl (fun s x => s.used it.ctx (ea x.1).v x.2) s) := by
    refine Reads.foldl (fun s x hx => reads_used s _ _ fun a ha => ?_) s
    obtain ⟨l, hl, rfl⟩ := List.mem_map.mp hx
    exact ⟨l, hl, a, ha, rfl⟩
  exact h1.trans (.of_mem_eq (aside_mem _ _ _ _) rfl rfl)

/-! ### Sights -/

/-- A core reads nothing older than what a load saw (R326). -/
def observed (it : Iss) (s : State) (xs : List (Nat × Nat × Sight)) : State :=
  if (s.core it.core).old.isEmpty then s
  else xs.foldl (fun s x => s.modCore it.core fun c => c.observe x.1 x.2.1 x.2.2.seen) s

/-- What a word writes comes from what took effect at a time (R327). -/
def Warp.dates (w : Warp) (i : Instr) (t : Nat) : Warp :=
  { w with dep := (dstKeys i).foldl (fun d k => Machine.sput 0 d k (max t (Machine.sget 0 d k))) w.dep }

theorem sighted_eq (ha : it.act ≠ 0) (s : State) (xs : List (Nat × Nat × Sight)) : sighted it s xs
    = (observed it s xs).modWarp it.wid fun w => w.dates it.instr (xs.foldl (fun m x => max m x.2.2.at_) 0) := if_neg ha

theorem reads_observed (s : State) (xs : List (Nat × Nat × Sight)) : Reads it.wid tch s (observed it s xs) := by
  unfold observed
  split
  · exact .refl s
  · exact Reads.foldl (fun s x _ => Reads.modCore s it.core fun _ => ⟨_, _, rfl⟩) s

theorem observed_leaves (s : State) (xs : List (Nat × Nat × Sight)) : (observed it s xs).warps = s.warps
    ∧ (observed it s xs).mem = s.mem := by
  unfold observed
  split
  · exact ⟨rfl, rfl⟩
  · have h := foldl_keeps (fun s => (s.warps, s.mem))
      (f := fun s (x : Nat × Nat × Sight) => s.modCore it.core fun c => c.observe x.1 x.2.1 x.2.2.seen) (fun _ _ => rfl) xs s
    exact Prod.mk.inj h

theorem sighted_mem (ha : it.act ≠ 0) (s : State) (xs : List (Nat × Nat × Sight)) : (sighted it s xs).mem = s.mem := by
  rw [sighted_eq ha, State.modWarp_mem, (observed_leaves s xs).2]

theorem reads_sighted (ha : it.act ≠ 0) (s : State) (xs : List (Nat × Nat × Sight)) : Reads it.wid tch s (sighted it s xs) := by
  rw [sighted_eq ha]
  exact (reads_observed s xs).trans (Reads.modWarp _ _)

theorem IssuedWith.sighted {b : List Buffered} {r : Sparse Nat} {p : List Pend} (h : IssuedWith it b r p s) (ha : it.act ≠ 0)
    (xs : List (Nat × Nat × Sight)) : IssuedWith it b r p (sighted it s xs) := by
  rw [sighted_eq ha]
  refine (h.of_warps (observed_leaves s xs).1).modWarp fun n => ⟨{ n with dep := (dstKeys it.instr).foldl (fun d k =>
    Machine.sput 0 d k (max (xs.foldl (fun m x => max m x.2.2.at_) 0) (Machine.sget 0 d k))) n.dep }, rfl⟩

/-! ### Nothing to write back -/

/-- No dirty byte of an L1 is one of those a test selects. -/
def NoDirt (f : Buffered → Bool) (s : State) : Prop := ∀ e ∈ s.cores, ∀ b ∈ e.2.dirty, f b = false

theorem NoDirt.aside {own : Option Nat} {f : Buffered → Bool} (h : NoDirt f s) (k : Aside own s t) : NoDirt f t := by
  intro e he b hb
  obtain ⟨e', he', hb'⟩ := k.dirt e he b hb
  exact h e' he' b hb'

theorem landDirty_noDirt {f : Buffered → Bool} (h : NoDirt f s) (core : Nat) : landDirty s core f = s := by
  have hown : (s.core core).dirty.filter f = [] := by
    rw [List.filter_eq_nil_iff]
    intro b hb
    obtain ⟨e, he, hb⟩ := mem_cores_of_dirty hb
    rw [h e he b hb]
    decide
  have hnear : dirtyOf s core f = [] := by
    have hnone : (s.cores.flatMap fun e =>
        if e.1 ≠ core ∧ clusterOf e.1 = clusterOf core then
          (e.2.dirty.filter fun b => decide (0 < b.reach) && (f b || [].any b.overlaps)).map fun b => (e.1, b)
        else []) = [] := by
      rw [List.flatMap_eq_nil_iff]
      intro e he
      split_ifs
      · rw [List.map_eq_nil_iff, List.filter_eq_nil_iff]
        intro b hb
        rw [h e he b hb, List.any_nil, Bool.or_false, Bool.and_false]
        decide
      · rfl
    rw [dirtyOf]
    simp only [hown, hnone]
    rfl
  rw [landDirty]
  simp only [hnear, List.isEmpty_nil, if_true]

/-- A buffered store to the line of a key. -/
def Buffered.onLine (g : Nat) (b : Buffered) : Bool := match b.spot with | .mem k => lineOf k == lineOf g | .scr _ _ => false

theorem onLine_eq_false {g : Nat} {b : Buffered} (h : ∀ k, b.spot = .mem k → lineOf k ≠ lineOf g) : b.onLine g = false := by
  unfold Buffered.onLine
  split
  next k hs => exact beq_eq_false_iff_ne.mpr (h k hs)
  next => rfl

/-- A last use in one lane (R261). -/
def lastUseLine (it : Iss) (s : State) (g : Nat) : State :=
  (landDirty s it.core (Buffered.onLine g)).modCore it.core fun c => c.refreshLines g 1

theorem lastUse_lu (s : State) (ok : List (Nat × Tgt)) : lastUse it s .lu ok = ok.foldl (fun s x => lastUseLine it s x.2.key) s := rfl

theorem lastUse_nil (s : State) (cache : CacheHint) : lastUse it s cache [] = s := ite_self s

theorem foldl_lastUseLine_clean {ok : List (Nat × Tgt)} (h : ∀ x ∈ ok, NoDirt (Buffered.onLine x.2.key) s) :
    Reads it.wid tch s (ok.foldl (fun s x => lastUseLine it s x.2.key) s)
      ∧ (ok.foldl (fun s x => lastUseLine it s x.2.key) s).warps = s.warps := by
  induction ok generalizing s with
  | nil => exact ⟨.refl s, rfl⟩
  | cons x ok ih =>
    have hx : lastUseLine it s x.2.key = s.modCore it.core fun c => c.refreshLines x.2.key 1 := by
      rw [lastUseLine, landDirty_noDirt (h x List.mem_cons_self)]
    have h1 : Reads it.wid tch s (lastUseLine it s x.2.key) := hx ▸ Reads.modCore s _ fun _ => ⟨_, _, rfl⟩
    obtain ⟨hr, hw⟩ := ih fun y hy => (h y (List.mem_cons_of_mem x hy)).aside h1.toAside
    exact ⟨h1.trans hr, hw.trans (hx ▸ rfl)⟩

/-- An access marked as a last use that finds no dirty bytes drops what the core may still read of its lines (R261). -/
theorem lastUse_clean {cache : CacheHint} (h : LastUseClean it s cache f) :
    Reads it.wid tch s (lastUse it s cache (it.lanes.map fun l => (l, f l)))
      ∧ (lastUse it s cache (it.lanes.map fun l => (l, f l))).warps = s.warps := by
  by_cases hc : cache = .lu
  · rw [hc, lastUse_lu]
    refine foldl_lastUseLine_clean fun x hx => ?_
    obtain ⟨l, hl, rfl⟩ := List.mem_map.mp hx
    exact fun e he b hb => onLine_eq_false (h hc l hl e he b hb)
  · rw [lastUse, if_neg hc]
    exact ⟨.refl s, rfl⟩

theorem lastUseClean_aside {own : Option Nat} {cache : CacheHint} (h : LastUseClean it s cache f) (k : Aside own s t) :
    LastUseClean it t cache f := by
  intro hc l hl e he b hb
  obtain ⟨e', he', hb'⟩ := k.dirt e he b hb
  exact h hc l hl e' he' b hb'

/-! ### Before a word acts: watchpoints, links, miss-status entries -/

/-- No watchpoint matches an active lane's access, and no link is being reset: the accesses go on (R260, R428). -/
theorem watchFirst_unwatchedLanes {rd wr : Bool} (hl : waitsForLink it s ea = false)
    (hw : ∀ l ∈ it.lanes, watched s it.ctx false rd wr (ea l).v n = false) (k : State) :
    watchFirst it s false rd wr ea n k = k := by
  have hm : watchLanes it s false rd wr ea n = 0 := maskWhere_eq_zero.mpr hw
  simp only [watchFirst, hl, hm, lanesOf_zero, Bool.and_false, Bool.false_eq_true, if_false]

theorem orReject_of_room {m : Nat} (h : m = 0 ∨ missUsed s it.core + m + missKept s it.core it.wid ≤ 4096) (k : State) :
    orReject it s m k = k := if_pos h

/-- Each lane passes the checks of R264. -/
theorem checked_globalReady {s1 : State} {k : AccKind} {rd wr : Bool} (h : GlobalReady it s s1 k rd wr n ea f)
    (c : Checked Tgt → State) : checked it s (it.lanes.map fun l => chkGlobal it s k n ea l) c
      = c ⟨it.lanes.map fun l => (l, f l), none⟩ :=
  checked_passes (fun l hl => ⟨rfl, (chkGlobal_of_address (h.clean l hl) (h.inside l hl) (h.aligned l hl)).trans (h.target l hl)⟩) s c

theorem act_ne_zero (h : l ∈ it.lanes) : it.act ≠ 0 := by
  intro h0
  rw [Iss.lanes, h0, lanesOf_zero] at h
  cases h

theorem lanes_pos (ha : it.act ≠ 0) : 0 < it.lanes.length := by
  refine List.length_pos_of_ne_nil fun h => ha (BitVec.eq_of_getLsbD_eq fun l _ => ?_)
  have hl : l ∉ lanesOf it.act := by
    rw [show lanesOf it.act = [] from h]
    exact List.not_mem_nil
  rw [mem_lanesOf, Bool.not_eq_true] at hl
  exact hl.trans BitVec.getLsbD_zero.symm

end

/-! ## Loads by their stages -/

section
variable {it : Iss} {s : State} {w : MemW} {ord : LdOrd} {sc : Scope} {cache : CacheHint} {ea : Nat → PV}

/-- A load whose accesses go on: translations retire and `after` acts; its sights are taken into account; it is outstanding with what
the lanes that passed read, or its lanes' fault is raised. -/
def loadActs (it : Iss) (s : State) (w : MemW) (ea : Nat → PV) (ord : LdOrd) (sc : Scope) (cache : CacheHint) (spec : Bool)
    (after : State → List (Nat × Tgt) → State) (r : Checked Tgt) : State :=
  let n := memBytes w
  let got := r.ok.map fun x => (x, laneSights s it ord sc x.2.key n)
  let vw := got.flatMap fun g =>
    Machine.laneWords it.o.d g.1.1 (loadWords w (g.2.flatMap fun p => p.2.2.bytes) fun _ => (loadGlobal s it.blk g.1.2 n).2)
  let src := if spec then loadSrcs it w (r.ok.map fun x => (x.1, .mem x.2.key)) else []
  let s1 := sighted it ((after (usedLanes it s ea r.ok) r.ok).modWarp it.wid Warp.unmiss) (got.flatMap Prod.snd)
  acquired it (loadEnd it (lastUse it s1 cache r.ok) (loadKind s r.ok) vw src (!r.ok.isEmpty) r.later) ord sc

/-- A load past the checks of R264: poison at the load, watchpoints, miss-status entries, then its effect. -/
def loadOn (it : Iss) (s0 : State) (w : MemW) (ea : Nat → PV) (ord : LdOrd) (sc : Scope) (cache : CacheHint) (spec : Bool)
    (after : State → List (Nat × Tgt) → State) (r : Checked Tgt) : State :=
  let n := memBytes w
  let s := settleLanes it s0 r.ok n
  match r.ok.find? fun x => trapsAtLoad s it.blk x.2 n with
  | some x => raise it s .poison 0 (maskOf fun l => r.ok.any fun y => y.1 == l && trapsAtLoad s it.blk y.2 n) (ea x.1).v
  | none => watchFirst it s false true false ea n (orReject it s r.ok.length (loadActs it s w ea ord sc cache spec after r))

theorem globalLoad_eq (it : Iss) (s0 : State) (w : MemW) (vs : Bool) (ea : Nat → PV) (ord : LdOrd) (sc : Scope) (cache : CacheHint)
    (spec : Bool) (after : State → List (Nat × Tgt) → State) : globalLoad it s0 w vs ea ord sc cache spec after
      = checked it s0 (it.lanes.map fun l => chkGlobal it s0 ⟨false, vs, some it.blk⟩ (memBytes w) ea l)
        (loadOn it s0 w ea ord sc cache spec after) := rfl

theorem exec_ld {o : Opnds} {vs ixs : Bool} {s0 : State} (h : issuing (.ld o w ord sc cache vs ixs) s = some (it, s0)) :
    exec (.ld o w ord sc cache vs ixs) s
      = .next (globalLoad it s0 w vs (it.ea ixs) ord sc cache (ord != .acq) fun s _ => s) := issue_eq h _

/-- A load of no lane: its lanes have met a handler cause (R264). -/
theorem loadActs_noLane {m : Word} {F : Flt} {a : Nat} {spec : Bool} :
    loadActs it s w ea ord sc cache spec (fun s _ => s) ⟨[], some (F, m, a)⟩
      = acquired it (raise it (sighted it (s.takeFree.modWarp it.wid Warp.unmiss) []) F.cause F.sub m a) ord sc := by
  simp only [loadActs, List.map_nil, List.flatMap_nil, lastUse_nil]
  rfl

theorem globalRmw_eq (it : Iss) (s : State) (koff write : Bool) (n : Nat) (ord : AtOrd) (sc : Scope)
    (k : State → List (Nat × Nat × Place) → Option (Flt × Word × Nat) → State) : ∃ c, globalRmw it s koff write n ord sc k
      = checked it s (it.lanes.map fun l => chkGlobal it s ⟨write, false, some it.blk⟩ n (it.eaAtom koff) l) c := by
  unfold globalRmw
  exact ⟨_, rfl⟩

end

end Sys2Proof.Machine

namespace Sys2Proof

open Sys2Proof.Machine

/-- Settles O34: the checks of the lanes are those of R264, and a fault of a step outweighs those of later ones (`checked_raises`); a
load whose lanes all meet FIRST_TOUCH acts on no lane (`checked_all_handler`). -/
theorem accessFaults : Obligations.AccessFaults := by
  unfold Obligations.AccessFaults
  refine ⟨fun o w ord scope cache vs ixs => ?ld, fun o w ord scope cache ixs => ?st, fun o opc ord scope koff => ?atom,
    fun o w ord scope cache vs ixs s s0 it l hi hl hlanes hlink => ?touch⟩
  case ld => exact addressTraps_of_checked fun s s0 it hi => ⟨_, _, (exec_ld hi).trans (congrArg _ (globalLoad_eq ..))⟩
  case st =>
    exact addressTraps_of_checked fun s s0 it hi => ⟨⟨true, false, some it.blk⟩, _,
      (issue_eq hi _ : execSt o w ord scope cache ixs s = _)⟩
  case atom =>
    refine addressTraps_of_checked fun s s0 it hi => ?_
    obtain ⟨c, hc⟩ := globalRmw_eq it s0 koff true it.tyBytes ord scope fun s ok later =>
      let r := rmwAll s it.wid it.tyBytes ok (it.opStep opc) it.poisB
      loadEnd it r.1 .mem (oldWords it.o.d it.tyBytes r.2) [] (!ok.isEmpty) later
    exact ⟨_, c, (issue_eq hi _ : execAtom o opc ord scope koff s = _).trans (congrArg _ hc)⟩
  case touch =>
    have ha := act_ne_zero (List.mem_of_mem_head? hl)
    have hload : globalLoad it s0 w vs (it.ea ixs) ord scope cache (ord != .acq) (fun s _ => s)
        = loadActs it s0 w (it.ea ixs) ord scope cache (ord != .acq) (fun s _ => s)
          ⟨[], some (⟨4, .firstTouch, 0⟩, it.act, (it.ea ixs l).v)⟩ := by
      rw [globalLoad_eq, checked_all_handler (F := ⟨4, .firstTouch, 0⟩) (fun _ => rfl) rfl (fun j hj => ?_) hl]
      · have hwatch : ∀ j ∈ it.lanes, watched s0 it.ctx false true false (it.ea ixs j).v (memBytes w) = false := by
          intro j hj
          obtain ⟨-, -, -, -, hw⟩ := hlanes j hj
          exact hw
        exact (watchFirst_unwatchedLanes hlink hwatch _).trans (orReject_of_room (.inl rfl) _)
      · obtain ⟨hp, hv, hn, hacc, -⟩ := hlanes j hj
        exact (chkGlobal_of_address hp hv hn).trans hacc
    have hw := (((issuedWith_of_keepsStores hi rfl).of_warps (State.takeFree_warps s0)).unmiss).sighted ha []
    have hr : Reads it.wid (fun _ => False) s0 (sighted it (s0.takeFree.modWarp it.wid Warp.unmiss) []) :=
      ((Reads.of_mem_eq (aside_mem _ s0 s0.mem (s0.free + 1)) rfl rfl).trans (Reads.modWarp _ _)).trans (reads_sighted ha _ [])
    refine ⟨_, (exec_ld hi).trans (congrArg _ (hload.trans loadActs_noLane)), ?_, hr.blocks, ?_⟩
    · rw [sighted_mem ha, State.modWarp_mem, State.takeFree_mem]
    · obtain ⟨n, hn⟩ := hw
      exact ⟨_, hn, rfl, rfl, rfl⟩

end Sys2Proof

namespace Sys2Proof.Machine

/-! ## A load is outstanding with what it read -/

section
variable {it : Iss} {s t u : State} {b b' : List Buffered} {r r' : Sparse Nat} {p : List Pend} {tch : Nat → Prop} {kind : PendKind}
  {vw : List (Nat × Nat × PWord)} {sw : List (Nat × PWord)} {src : List LoadSrc} {ord : LdOrd} {sc : Scope} {f : Nat → Tgt}
  {ea : Nat → PV} {w : MemW} {cache : CacheHint} {spec : Bool} {after : State → List (Nat × Tgt) → State}

theorem acquireAt_reads (s : State) (wid n : Nat) (sc : Scope) : Reads wid tch s (acquireAt s n sc) := by
  unfold acquireAt
  split_ifs
  · split
    · exact Reads.modCore s _ fun _ => ⟨_, _, rfl⟩
    · exact .refl s
  · exact .refl s

theorem acquired_leaves (s : State) (ord : LdOrd) (sc : Scope) :
    Reads it.wid tch s (acquired it s ord sc) ∧ (acquired it s ord sc).warps = s.warps := by
  unfold acquired
  split_ifs
  · exact ⟨acquireAt_reads s _ _ sc, acquireAt_warps s it.wid sc⟩
  · exact ⟨.refl s, rfl⟩

theorem outstanding_of_warps (h : Outstanding it s t kind vw sw src) (e : u.warps = t.warps) : Outstanding it s u kind vw sw src := by
  obtain ⟨w, w', hs, ht, h⟩ := h
  exact ⟨w, w', hs, (State.warp_of_warps_eq e it.wid).trans ht, h⟩

/-- What a load comes to once it is outstanding: `s` is the state that it read, `u` the one it left. -/
def LoadDone (it : Iss) (tch : Nat → Prop) (s : State) (kind : PendKind) (vw : List (Nat × Nat × PWord)) (sw : List (Nat × PWord))
    (src : List LoadSrc) (r : Sparse Nat) (t : State) : Prop :=
  Reads it.wid tch s t ∧ Outstanding it s t kind vw sw src ∧ ∃ w', t.warp it.wid = some w' ∧ w'.resv = r

theorem loadDone_pendLong (ha : it.act ≠ 0) (h0 : IssuedWith it b r p s) (hr : Reads it.wid tch s u)
    (h : IssuedWith it b' r' p u) : LoadDone it tch s kind vw sw src r' (acquired it (pendLong it u kind vw sw src) ord sc) := by
  obtain ⟨ho, w', hw, hv⟩ := outstanding_pendLong h0 h ha kind vw sw src
  obtain ⟨hq, hqw⟩ := acquired_leaves (it := it) (tch := tch) (pendLong it u kind vw sw src) ord sc
  have hc : Reads it.wid tch u (pendLong it u kind vw sw src) := Reads.modWarp u _
  exact ⟨(hr.trans hc).trans hq, outstanding_of_warps ho hqw, w',
    (State.warp_of_warps_eq hqw it.wid).trans hw, hv⟩

/-- A load that every lane passes to, where `after` leaves what its translations leave. -/
theorem loadActs_done {ρ : State → Sparse Nat} (ha : it.act ≠ 0) (h0 : IssuedWith it b r p s) (hlu : LastUseClean it s cache f)
    (hafter : ∀ u, Reads it.wid (TchByte f it.lanes) s u → IssuedWith it b r p u →
      Reads it.wid (TchByte f it.lanes) u (after u (it.lanes.map fun l => (l, f l)))
        ∧ IssuedWith it b (ρ u) p (after u (it.lanes.map fun l => (l, f l)))) :
    LoadDone it (TchByte f it.lanes) s (loadKind s (it.lanes.map fun l => (l, f l)))
      (it.lanes.flatMap (sightWords it s w ord sc f)) []
      (if spec then loadSrcs it w (it.lanes.map fun l => (l, .mem (f l).key)) else [])
      (ρ (usedLanes it s ea (it.lanes.map fun l => (l, f l))))
      (loadActs it s w ea ord sc cache spec after ⟨it.lanes.map fun l => (l, f l), none⟩) := by
  have hvw : ((it.lanes.map fun l => (l, f l)).map fun x => (x, laneSights s it ord sc x.2.key (memBytes w))).flatMap (fun g =>
      Machine.laneWords it.o.d g.1.1 (loadWords w (g.2.flatMap fun p => p.2.2.bytes) fun _ => (loadGlobal s it.blk g.1.2 (memBytes w)).2))
      = it.lanes.flatMap (sightWords it s w ord sc f) := by
    rw [List.flatMap_map, List.flatMap_map]
    rfl
  have hsrc : (it.lanes.map fun l => (l, f l)).map (fun x => (x.1, Spot.mem x.2.key)) = it.lanes.map fun l => (l, .mem (f l).key) :=
    List.map_map
  have hused := reads_usedLanes (it := it) (ea := ea) (f := f) s it.lanes
  obtain ⟨hra, hwa⟩ := hafter _ hused (h0.of_warps (usedLanes_warps s _))
  have hrs := ((hused.trans hra).trans (Reads.modWarp _ Warp.unmiss)).trans
    (reads_sighted ha _ (((it.lanes.map fun l => (l, f l)).map fun x => (x, laneSights s it ord sc x.2.key (memBytes w))).flatMap Prod.snd))
  obtain ⟨hrl, hwl⟩ := lastUse_clean (tch := TchByte f it.lanes) (lastUseClean_aside hlu hrs.toAside)
  have hdone := loadDone_pendLong (ord := ord) (sc := sc) (kind := loadKind s (it.lanes.map fun l => (l, f l)))
    (vw := it.lanes.flatMap (sightWords it s w ord sc f)) (sw := [])
    (src := if spec then loadSrcs it w (it.lanes.map fun l => (l, .mem (f l).key)) else [])
    ha h0 (hrs.trans hrl) ((hwa.unmiss.sighted ha _).of_warps hwl)
  rw [← hvw, ← hsrc] at hdone ⊢
  exact hdone

/-- A load that finds its lanes ready acts. -/
theorem globalLoad_ready {s0 : State} {vs : Bool} (hg : GlobalReady it s0 (settledFor it s0 (memBytes w) f) ⟨false, vs, some it.blk⟩
      true false (memBytes w) ea f) (hm : MissRoom it (settledFor it s0 (memBytes w) f) 1)
    (ht : ∀ l ∈ it.lanes, trapsAtLoad (settledFor it s0 (memBytes w) f) it.blk (f l) (memBytes w) = false) :
    globalLoad it s0 w vs ea ord sc cache spec after
      = loadActs it (settledFor it s0 (memBytes w) f) w ea ord sc cache spec after ⟨it.lanes.map fun l => (l, f l), none⟩ := by
  have hfind : (it.lanes.map fun l => (l, f l)).find? (fun x => trapsAtLoad (settledFor it s0 (memBytes w) f) it.blk x.2 (memBytes w))
      = none := by
    rw [List.find?_eq_none]
    intro x hx
    obtain ⟨l, hl, rfl⟩ := List.mem_map.mp hx
    rw [ht l hl]
    decide
  have hroom : missUsed (settledFor it s0 (memBytes w) f) it.core + (it.lanes.map fun l => (l, f l)).length
      + missKept (settledFor it s0 (memBytes w) f) it.core it.wid ≤ 4096 := by
    have := hm
    rw [MissRoom, Nat.mul_one] at this
    rwa [List.length_map]
  rw [globalLoad_eq, checked_globalReady hg, loadOn]
  change (match (it.lanes.map fun l => (l, f l)).find? fun x => trapsAtLoad (settledFor it s0 (memBytes w) f) it.blk x.2 (memBytes w) with
    | some x => raise it (settledFor it s0 (memBytes w) f) .poison 0 _ _
    | none => watchFirst it (settledFor it s0 (memBytes w) f) _ _ _ _ _ _) = _
  rw [hfind]
  exact (watchFirst_unwatchedLanes hg.link hg.unwatched _).trans (orReject_of_room (.inr hroom) _)

/-! ### Loads that acquire read what is there -/

theorem bytesUnder_eq_map (m : Mem) (key fr k n : Nat) :
    m.bytesUnder key fr k n = (List.range n).map fun i => m.byteUnder key fr (k + i) := by
  induction n generalizing k with
  | zero => rfl
  | succ n ih =>
    rw [Mem.bytesUnder, ih, List.range_succ_eq_map, List.map_cons, List.map_map]
    refine congrArg₂ _ rfl (List.map_congr_left fun i _ => ?_)
    rw [Function.comp_apply, Nat.add_right_comm, Nat.add_assoc]

/-- A block's read of memory, byte by byte (R109). -/
theorem loadKey_bytes (s : State) (blk key n : Nat) : (loadKey s blk key n).1 = (List.range n).map fun i => match s.block blk with
    | none => 0
    | some b => provByte b (key + i) (s.mem.byteUnder (s.keyId b.ctx) s.free (key + i)) := by
  unfold loadKey
  cases s.block blk with
  | none => simp only [List.map_const', List.length_range]
  | some b =>
    refine List.map_congr_left fun i hi => ?_
    rw [bytesUnder_eq_map, List.getElem?_map, List.getElem?_range (List.mem_range.mp hi)]
    rfl

theorem loadKey_append (s : State) (blk key m n : Nat) :
    (loadKey s blk key m).1 ++ (loadKey s blk (key + m) n).1 = (loadKey s blk key (m + n)).1 := by
  rw [loadKey_bytes, loadKey_bytes, loadKey_bytes, List.range_add, List.map_append, List.map_map]
  simp only [Function.comp_def, Nat.add_assoc]

theorem sightOf_acq (s : State) (floor key n : Nat) : (sightOf s it .acq sc floor key n).bytes = (loadKey s it.blk key n).1 := by
  have hlag : lagTimes s it .acq sc floor key n = [] := if_neg Bool.false_ne_true
  simp only [sightOf, hlag, List.getElem?_nil]

theorem laneSights_acq (s : State) (key n : Nat) :
    (laneSights s it .acq sc key n).flatMap (fun p => p.2.2.bytes) = (loadKey s it.blk key n).1 := by
  simp only [laneSights, List.flatMap_map, sightOf_acq, parts8]
  split_ifs with h
  · subst h
    simp only [List.flatMap_cons, List.flatMap_nil, List.append_nil, Nat.add_zero]
    exact loadKey_append s it.blk key 8 8
  · simp only [List.flatMap_cons, List.flatMap_nil, List.append_nil, Nat.add_zero]

theorem sightWords_acq (s : State) (l : Nat) : sightWords it s w .acq sc f l
    = Machine.laneWords it.o.d l (loadWords w (loadGlobal s it.blk (f l) (memBytes w)).1 fun _ =>
      (loadGlobal s it.blk (f l) (memBytes w)).2) := by
  rw [sightWords, laneSights_acq]
  rfl

/-! ### Reservations -/

/-- Each of some lanes puts its own number. -/
theorem alook_foldl_aput {l : Nat} (g : Nat → Nat) (ls : List Nat) (r : Sparse Nat) :
    alook l (ls.foldl (fun r j => aput j (g j) r) r) = if l ∈ ls then some (g l) else alook l r := by
  induction ls generalizing r with
  | nil => rfl
  | cons j ls ih =>
    rw [List.foldl_cons, ih, alook_aput]
    by_cases hl : l ∈ ls
    · rw [if_pos hl, if_pos (List.mem_cons_of_mem j hl)]
    · rw [if_neg hl]
      by_cases hj : l = j
      · rw [if_pos hj, if_pos (hj ▸ List.mem_cons_self), hj]
      · rw [if_neg hj, if_neg fun h => (List.mem_cons.mp h).elim hj hl]

/-- What `ldr` does to the lanes that passed (R270). -/
def reserve (it : Iss) (ea : Nat → PV) (s : State) (ok : List (Nat × Tgt)) : State :=
  let gs := ok.map fun x => (x.1, resvGranule it s (ea x.1).v x.1 x.2)
  (settleGranules it s (gs.map Prod.snd)).modWarp it.wid fun w =>
    { w with resv := gs.foldl (fun r x => aput x.1 x.2 r) w.resv }

/-- The reservations of a warp after `ldr`. -/
def reserved (it : Iss) (ea : Nat → PV) (f : Nat → Tgt) (r : Sparse Nat) (s : State) : Sparse Nat :=
  it.lanes.foldl (fun r l => aput l (resvGranule it s (ea l).v l (f l)) r) r

theorem reserve_leaves (hd : ∀ e ∈ s.cores, e.2.dirty = []) (hu : Aside (some it.wid) s u) (h : IssuedWith it b r p u) :
    Reads it.wid tch u (reserve it ea u (it.lanes.map fun l => (l, f l)))
      ∧ IssuedWith it b (reserved it ea f r u) p (reserve it ea u (it.lanes.map fun l => (l, f l))) := by
  have hclean (g : Buffered → Bool) : NoDirt g s := fun e he b hb => absurd (hd e he ▸ hb : b ∈ []) List.not_mem_nil
  have hland (gs : List Nat) : settleGranules it u gs = u := landDirty_noDirt ((hclean _).aside hu) it.core
  simp only [reserve, hland]
  refine ⟨Reads.modWarp _ _, h.modWarp fun n => ⟨n, ?_⟩⟩
  rw [List.map_map, List.foldl_map]
  rfl

theorem exec_ldr {o : Opnds} {ixs : Bool} {s0 : State} (h : issuing (.ldr o w ord sc ixs) s = some (it, s0)) :
    exec (.ldr o w ord sc ixs) s = .next (globalLoad it s0 w false (it.ea ixs) .acq (if ord = .acq then sc else .wp) .dflt false
      (reserve it (it.ea ixs))) := issue_eq h _

theorem resvGranule_own {l va : Nat} {g : Tgt} (hva : g.va = va) (hv : g.leaf.bits 7 1 = 0) (s : State) :
    resvGranule it s va l g = g.key / 64 := if_pos ⟨hva, hv⟩

/-! ### `sld` -/

theorem exec_sld {o : Opnds} {w : SldW} {s0 : State} {g : Tgt} (hi : issuing (.sld o w ord sc) s = some (it, s0)) (ha : it.act ≠ 0)
    (hp : it.eaU.pois = false) (hv : it.eaU.v < 2 ^ 56) (hn : it.eaU.v % memBytes (sldWidth w) = 0)
    (hacc : s0.access it.ctx it.eaU.v (laneFree s0 0) ⟨false, false, some it.blk⟩ = .ok g)
    (hs : settle s0 it.wid g.key (memBytes (sldWidth w)) = u)
    (hw : watched u it.ctx false true false it.eaU.v (memBytes (sldWidth w)) = false)
    (hl : waitsForLink it u (fun _ => it.eaU) = false) (ht : trapsAtLoad u it.blk g (memBytes (sldWidth w)) = false)
    (hm : MissRoom it u 1) :
    exec (.sld o w ord sc) s = .next (acquired it (pendLong it (sighted it
      ((usedLanes it u (fun _ => it.eaU) ([0].map fun l => (l, g))).modWarp it.wid Warp.unmiss)
      (laneSights u it ord sc g.key (memBytes (sldWidth w)))) (loadKind u [(0, g)]) []
      (uniWords it.o.d (loadWords (sldWidth w) ((laneSights u it ord sc g.key (memBytes (sldWidth w))).flatMap fun p => p.2.2.bytes)
        fun _ => (loadGlobal u it.blk g (memBytes (sldWidth w))).2))) ord sc) := by
  have hchk : chkGlobal it s0 ⟨false, false, some it.blk⟩ (memBytes (sldWidth w)) (fun _ => it.eaU) 0 = (0, it.eaU.v, .ok g) :=
    Prod.ext rfl (Prod.ext rfl ((chkGlobal_of_address hp hv hn).trans hacc))
  have hroom : missUsed u it.core + 1 + missKept u it.core it.wid ≤ 4096 := by
    have := hm
    rw [MissRoom, Nat.mul_one] at this
    have := lanes_pos ha
    omega
  refine (issue_eq hi _ : execSld o w ord sc s = _).trans (congrArg _ ?_)
  simp only [if_neg ha, hchk]
  change (if trapsAtLoad (settle s0 it.wid g.key (memBytes (sldWidth w))) it.blk g (memBytes (sldWidth w)) then _ else _) = _
  rw [hs, if_neg (ht ▸ Bool.false_ne_true)]
  exact (watchFirst_unwatchedLanes hl (fun _ _ => hw) _).trans (orReject_of_room (.inr hroom) _)

end

end Sys2Proof.Machine

namespace Sys2Proof

open Sys2Proof.Machine

/-- Settles O30: the checks pass (`globalLoad_ready`), and what the word does beside its result leaves memory but for the TCH bits
(`loadActs_done`); `ldr` acquires, so that it reads what is there (`sightWords_acq`). -/
theorem globalLoads : Obligations.GlobalLoads := by
  unfold Obligations.GlobalLoads
  refine ⟨fun o w ord scope cache vs ixs s s0 it f hi ha => ?ld, fun o w ord scope ixs s s0 it f hi ha => ?ldr,
    fun o w ord scope s s0 it g hi ha => ?sld⟩
  case ld =>
    intro n s1 hg hm ht hlu
    obtain ⟨b, r, p, h1⟩ : ∃ b r p, IssuedWith it b r p s1 :=
      ((asIssued_of_issuing hi).drains (drains_settleLanes it s0 _ n)).issuedWith
    obtain ⟨hr, hout, -⟩ := loadActs_done (ea := it.ea ixs) (w := w) (ord := ord) (sc := scope) (spec := ord != .acq)
      (after := fun s _ => s) (ρ := fun _ => r) ha h1 hlu fun u _ h => ⟨.refl u, h⟩
    refine ⟨_, (exec_ld hi).trans (congrArg _ (globalLoad_ready hg hm ht)), hr.besideMem, hr.blocks, hr.sameGrids, hr.bytes, ?_⟩
    cases ord <;> exact hout
  case ldr =>
    intro n s1 hg hm ht hd
    obtain ⟨b, r, p, h1⟩ : ∃ b r p, IssuedWith it b r p s1 :=
      ((asIssued_of_issuing hi).drains (drains_settleLanes it s0 _ n)).issuedWith
    have hlu : LastUseClean it s1 .dflt f := fun h => by cases h
    obtain ⟨hr, hout, w', hw', hresv⟩ := loadActs_done (ea := it.ea ixs) (w := w) (ord := .acq)
      (sc := if ord = .acq then scope else .wp) (spec := false) (after := reserve it (it.ea ixs))
      (ρ := reserved it (it.ea ixs) f r) ha h1 hlu fun u hu h => reserve_leaves hd hu.toAside h
    refine ⟨_, (exec_ldr hi).trans (congrArg _ (globalLoad_ready hg hm ht)), hr.besideMem, hr.blocks, hr.sameGrids, hr.bytes, ?_,
      w', hw', fun l hl hva hv => ?_⟩
    · rw [show sightWords it s1 w .acq _ f = _ from funext fun l => sightWords_acq s1 l] at hout
      exact hout
    · rw [hresv, reserved, alook_foldl_aput, if_pos hl, resvGranule_own hva hv]
  case sld =>
    intro n s1 hp hv hn hacc hw hl ht hm
    obtain ⟨b, r, p, h1⟩ := ((asIssued_of_issuing hi).drains (drains_settle s0 it.wid g.key n)).issuedWith
    have hused := reads_usedLanes (it := it) (ea := fun _ => it.eaU) (f := fun _ => g) s1 [0]
    obtain ⟨hr, hout, -⟩ := loadDone_pendLong (ord := ord) (sc := scope) (kind := loadKind s1 [(0, g)]) (vw := [])
      (sw := uniWords it.o.d (loadWords (sldWidth w) ((laneSights s1 it ord scope g.key n).flatMap fun p => p.2.2.bytes)
        fun _ => (loadGlobal s1 it.blk g n).2)) (src := [])
      ha h1 ((hused.trans (Reads.modWarp _ Warp.unmiss)).trans (reads_sighted ha _ (laneSights s1 it ord scope g.key n)))
      ((h1.of_warps (usedLanes_warps s1 _)).unmiss.sighted ha _)
    exact ⟨_, exec_sld hi ha hp hv hn hacc rfl hw hl ht hm, hr.besideMem, hr.blocks, hr.sameGrids, hr.bytes, hout⟩

end Sys2Proof

namespace Sys2Proof.Machine

/-! ## Stores that leave a buffer leave the buffers as they then are -/

/-- The buffered stores of every warp stay: only reservations are lost and loads replayed. -/
def BuffersKept (s t : State) : Prop := ∀ x, ∃ r p, t.warp x = (s.warp x).map fun w => { w with resv := r, pend := p }

namespace BuffersKept

variable {r s t : State}

theorem of_warps (h : t.warps = s.warps) : BuffersKept s t := fun x => Aside.warp_of_eq (State.warp_of_warps_eq h x)

protected theorem refl (s : State) : BuffersKept s s := of_warps rfl

protected theorem trans (h : BuffersKept r s) (k : BuffersKept s t) : BuffersKept r t := by
  intro x
  obtain ⟨a, p, ha⟩ := h x
  obtain ⟨b, q, hb⟩ := k x
  exact ⟨b, q, by rw [hb, ha, Option.map_map]; rfl⟩

protected theorem foldl {α : Type} {f : State → α → State} (h : ∀ s x, BuffersKept s (f s x)) (l : List α) (s : State) :
    BuffersKept s (l.foldl f s) := by
  induction l generalizing s with
  | nil => exact .refl s
  | cons x l ih => exact (h s x).trans (ih _)

theorem of_aside (h : Aside none s t) : BuffersKept s t := fun x => h.warps x (Option.some_ne_none x)

theorem pathStores (h : BuffersKept s t) (wid : Nat) (g : Buffered → Bool) : pathStores t wid g = pathStores s wid g := by
  obtain ⟨r, p, hw⟩ := h wid
  unfold Machine.pathStores
  rw [hw]
  cases s.warp wid <;> rfl

end BuffersKept

theorem buffersKept_scrWriteBy (s : State) (who : Option Nat) (at_ : Option Nat × Nat) (bs : List Byte) (p : Bool) :
    BuffersKept s (scrWriteBy s who at_ bs p) := by
  unfold scrWriteBy
  cases at_.1 with
  | none => exact .refl s
  | some b => exact (BuffersKept.of_warps (State.modBlock_warps s b _)).trans (.of_aside (aside_replayLoads _ _ who _))

theorem buffersKept_spoilRings (s : State) (b off n : Nat) : BuffersKept s (spoilRings s b off n) := by
  unfold spoilRings
  cases s.block b with
  | none => exact .refl s
  | some x => exact BuffersKept.foldl (fun s w => .of_warps ((State.takeFree_warps _).trans (State.modBlock_warps s b _))) _ _

theorem lostStore_leaves (s : State) (b : Block) (key : Nat) : (lostStore s b key).warps = s.warps ∧ (lostStore s b key).mem = s.mem := by
  unfold lostStore
  cases s.gridOf b with
  | none => exact ⟨rfl, rfl⟩
  | some g =>
    simp only
    split_ifs <;> exact ⟨rfl, rfl⟩

theorem buffersKept_land (s : State) (b : Buffered) : BuffersKept s (s.land b) := by
  unfold State.land
  split
  · exact (BuffersKept.foldl (fun s _ => buffersKept_scrWriteBy s _ _ _ _) _ s).trans (buffersKept_spoilRings _ _ _ _)
  · split_ifs
    · split
      · exact .of_warps (lostStore_leaves s _ _).1
      · exact .refl s
    · exact .of_aside (aside_put _ s _ _ _ _ _ _)
    · exact (BuffersKept.of_aside (aside_put _ s _ _ _ _ _ _)).trans (.of_warps rfl)

/-- Dirty bytes of an L1 that are written back. -/
theorem buffersKept_landDirty (s : State) (core : Nat) (f : Buffered → Bool) : BuffersKept s (landDirty s core f) := by
  have hclean (s : State) (l : List Buffered) : BuffersKept s (cleanWhole s l) := by
    unfold cleanWhole
    split_ifs
    · exact .refl s
    · exact .of_warps rfl
  unfold landDirty
  simp only
  split_ifs
  · exact .refl s
  · exact ((BuffersKept.foldl (fun s (x : Nat × Buffered) => .of_warps (State.modCore_warps s x.1 _)) _ s).trans
      (BuffersKept.foldl buffersKept_land _ _)).trans (hclean _ _)

theorem buffersKept_releaseCore (s : State) (core n : Nat) : BuffersKept s (releaseCore s core n) := by
  unfold releaseCore
  split
  · exact .refl s
  · exact .of_warps rfl
  · exact buffersKept_landDirty s core _

theorem buffersKept_leaveAs (s : State) (wid : Nat) (l : List Buffered) : BuffersKept s (leaveAs s wid l) := by
  refine BuffersKept.foldl (fun s b => ?_) l s
  split
  · unfold State.enterL1
    split_ifs
    · exact buffersKept_releaseCore s _ _
    · exact buffersKept_land s b
    · exact .of_warps rfl
  · exact buffersKept_land s b

/-! ### A path whose stores have left -/

section
variable {f : Buffered → Bool} {l : List Buffered} {s : State} {wid key n : Nat} {g : Buffered → Bool}

theorem splitBuffer_cons (b : Buffered) (l : List Buffered) : splitBuffer f (b :: l)
    = if f b || (splitBuffer f l).1.any b.before then (b :: (splitBuffer f l).1, (splitBuffer f l).2)
      else ((splitBuffer f l).1, b :: (splitBuffer f l).2) := rfl

theorem mem_splitBuffer {b : Buffered} (hb : b ∈ l) (hf : f b = true) : b ∈ (splitBuffer f l).1 := by
  induction l with
  | nil => exact absurd hb List.not_mem_nil
  | cons a l ih =>
    rw [splitBuffer_cons]
    rcases List.mem_cons.mp hb with rfl | hb
    · rw [hf, Bool.true_or, if_pos rfl]
      exact List.mem_cons_self
    · split_ifs
      · exact List.mem_cons_of_mem a (ih hb)
      · exact ih hb

theorem splitBuffer_stays {b : Buffered} (hb : b ∈ (splitBuffer f l).2) : f b = false := by
  induction l with
  | nil => exact absurd hb List.not_mem_nil
  | cons a l ih =>
    rw [splitBuffer_cons] at hb
    split_ifs at hb with h
    · exact ih hb
    · rcases List.mem_cons.mp hb with rfl | hb
      · rw [Bool.not_eq_true, Bool.or_eq_false_iff] at h
        exact h.1
      · exact ih hb

theorem pathStores_none (hw : s.warp wid = none) (g : Buffered → Bool) : pathStores s wid g = false := by
  rw [pathStores, hw]

theorem pathStores_eq_false {w : Warp} (hw : s.warp wid = some w) (h : ∀ b ∈ w.sbuf, (b.lanes &&& w.run.mask != 0) = false)
    (g : Buffered → Bool) : pathStores s wid g = false := by
  rw [pathStores, hw]
  refine List.any_eq_false.mpr fun b hb => ?_
  rw [h b hb, Bool.false_and]
  exact Bool.false_ne_true

/-- Once a path's stores have left, its warp buffers none of them (R322). -/
theorem pathStores_flushPath (s : State) (wid : Nat) (g : Buffered → Bool) : pathStores (flushPath s wid) wid g = false := by
  cases hw : s.warp wid with
  | none =>
    have he : flushPath s wid = s := by rw [flushPath, hw]
    rw [he]
    exact pathStores_none hw g
  | some w =>
    have he : flushPath s wid = flushSome s wid fun b => b.lanes &&& w.run.mask != 0 := by rw [flushPath, hw]; rfl
    rw [he, flushSome, hw]
    simp only
    split_ifs with hp
    · refine pathStores_eq_false hw (fun b hb => ?_) g
      by_contra hf
      rw [Bool.not_eq_false] at hf
      exact absurd (mem_splitBuffer hb hf) (List.isEmpty_iff.mp hp ▸ List.not_mem_nil)
    · rw [(buffersKept_leaveAs _ wid _).pathStores]
      exact pathStores_eq_false (warp_modWarp_some hw _) (fun b hb => splitBuffer_stays hb) g

theorem pathStores_releaseAt (s : State) (wid : Nat) (sc : Scope) (g : Buffered → Bool) :
    pathStores (releaseAt s wid sc) wid g = false := by
  unfold releaseAt
  simp only
  split
  · rw [(buffersKept_releaseCore _ _ _).pathStores]
    exact pathStores_flushPath s wid g
  · exact pathStores_flushPath s wid g

theorem pathStores_settle (s : State) (wid key n : Nat) :
    pathStores (settle s wid key n) wid (fun b => b.meets key n) = false := by
  have h1 : pathStores (if pathStores s wid (fun b => b.meets key n) then flushPath s wid else s) wid (fun b => b.meets key n)
      = false := by
    split_ifs with h
    · exact pathStores_flushPath s wid _
    · exact Bool.not_eq_true _ ▸ h
  unfold settle
  simp only
  split
  · rw [(buffersKept_landDirty _ _ _).pathStores]
    exact h1
  · exact h1

/-- Nothing comes before an access whose bytes neither its path nor an L1 holds (R326). -/
theorem settle_clean (hp : pathStores s wid (fun b => b.meets key n) = false) (hd : NoDirt (fun b => b.meets key n) s) :
    settle s wid key n = s := by
  unfold settle
  simp only [hp, Bool.false_eq_true, if_false]
  split
  · exact landDirty_noDirt hd _
  · rfl

end

/-! ## A write to specified sectors -/

section
variable {m : Mem} {kid fr k n j : Nat} {bs : List Byte} {p : Bool}

theorem Mem.unknown_of_eq {m m' : Mem} (hk : m'.keys = m.keys) (hv : m'.vague = m.vague) (kid t : Nat) :
    m'.unknown kid t = m.unknown kid t := by
  unfold Mem.unknown Mem.foreign
  rw [hk, hv]

theorem Mem.setBytes_leaves (m : Mem) (k : Nat) (bs : List Byte) : (m.setBytes k bs).keys = m.keys
    ∧ (m.setBytes k bs).vague = m.vague ∧ (m.setBytes k bs).pois = m.pois := by
  induction bs generalizing m k with
  | nil => exact ⟨rfl, rfl, rfl⟩
  | cons b bs ih => exact ih (m.setByte k b) (k + 1)

theorem Mem.storePois_leaves (m : Mem) (k n : Nat) (p : Bool) : (m.storePois k n p).keys = m.keys
    ∧ (m.storePois k n p).vague = m.vague := by
  unfold Mem.storePois
  induction sectors k n generalizing m with
  | nil => exact ⟨rfl, rfl⟩
  | cons t l ih =>
    rw [List.foldl_cons]
    obtain ⟨hk, hv⟩ := ih (if p then m.setPois t true else if k ≤ 32 * t ∧ 32 * t + 32 ≤ k + n then m.setPois t false else m)
    rw [hk, hv]
    split_ifs <;> exact ⟨rfl, rfl⟩

/-- Specified sectors that are taken over keep their poison, and stay specified. -/
theorem Mem.claimSectors_leaves {l : List Nat} (h : ∀ t ∈ l, m.unknown kid t = false) :
    (l.foldl (fun m t => m.claimSector kid fr t) m).pois = m.pois
      ∧ ∀ x, m.unknown kid x = false → (l.foldl (fun m t => m.claimSector kid fr t) m).unknown kid x = false := by
  induction l generalizing m with
  | nil => exact ⟨rfl, fun _ hx => hx⟩
  | cons t l ih =>
    have ht := h t List.mem_cons_self
    have hp : (m.claimSector kid fr t).pois = m.pois := by
      simp only [Mem.claimSector, Mem.settleSector, ht, Bool.false_eq_true, if_false]
      split_ifs <;> rfl
    obtain ⟨h1, h2⟩ := ih fun x hx => Mem.unknown_claimSector fr ht (h x (List.mem_cons_of_mem t hx))
    exact ⟨h1.trans hp, fun x hx => h2 x (Mem.unknown_claimSector fr ht hx)⟩

theorem mem_nins {x t : Nat} {l : List Nat} : x ∈ nins t l ↔ x = t ∨ x ∈ l := by
  induction l with
  | nil => exact List.mem_singleton.trans (or_iff_left List.not_mem_nil).symm
  | cons y l ih =>
    unfold nins
    split_ifs with he
    · rw [List.mem_cons, he]
      exact (or_iff_right_of_imp .inl).symm
    · exact List.mem_cons
    · rw [List.mem_cons, ih, List.mem_cons]
      exact or_left_comm

theorem Mem.mem_pois_storePois_true {x : Nat} : x ∈ (m.storePois k n true).pois ↔ x ∈ sectors k n ∨ x ∈ m.pois := by
  unfold Mem.storePois
  induction sectors k n generalizing m with
  | nil => exact (or_iff_right List.not_mem_nil).symm
  | cons t l ih =>
    rw [List.foldl_cons, ih, List.mem_cons]
    simp only [if_true, Mem.setPois, mem_nins]
    exact or_left_comm.trans (or_assoc).symm

theorem Mem.mem_pois_of_storePois_false {x : Nat} (h : x ∈ (m.storePois k n false).pois) : x ∈ m.pois := by
  unfold Mem.storePois at h
  generalize sectors k n = l at h
  induction l generalizing m with
  | nil => exact h
  | cons t l ih =>
    have hx := ih h
    simp only [Bool.false_eq_true, if_false] at hx
    split_ifs at hx
    · exact List.mem_of_mem_filter hx
    · exact hx

theorem Mem.poisoned_iff (m : Mem) (j : Nat) : m.poisoned j = true ↔ j / 32 ∈ m.pois := List.contains_iff_mem

end

/-- A replay changes outstanding loads alone. -/
theorem warp_replayLoads (s : State) (who : Option Nat) (hit : LoadSrc → Bool) (x : Nat) :
    ∃ p, (replayLoads s who hit).warp x = (s.warp x).map fun w => { w with pend := p } := by
  have hrefl (s : State) : ∃ p, s.warp x = (s.warp x).map fun w => { w with pend := p } := by
    cases s.warp x with
    | none => exact ⟨[], rfl⟩
    | some w => exact ⟨w.pend, rfl⟩
  unfold replayLoads
  generalize s.warps = l
  induction l generalizing s with
  | nil => exact hrefl s
  | cons e l ih =>
    rw [List.foldl_cons]
    obtain ⟨p, hp⟩ := ih (if e.2.promoted && some e.1 != who && e.2.pend.any (fun p => p.src.any hit) then
      let r := replayPends hit (fun x => x.words s e.1) false e.2.pend
      (List.range r.2).foldl (fun s _ => count s e.2.core evLoadReplay) (s.modWarp e.1 fun w => { w with pend := r.1 })
      else s)
    rw [hp]
    split_ifs
    · have hc (l : List Nat) (s : State) : (l.foldl (fun s _ => count s e.2.core evLoadReplay) s).warps = s.warps :=
        foldl_keeps State.warps (f := fun s (_ : Nat) => count s e.2.core evLoadReplay) (fun _ _ => rfl) l s
      rw [State.warp_of_warps_eq (hc _ _) x, State.warp_modWarp]
      split_ifs with hx
      · subst hx
        exact ⟨p, by rw [Option.map_map]; rfl⟩
      · exact ⟨p, rfl⟩
    · exact ⟨p, rfl⟩

theorem mem_loseResv {w : Warp} {key n : Nat} {e : Nat × Nat} (h : e ∈ (w.loseResv key n).resv) :
    e ∈ w.resv ∧ (e.2 < key / 64 ∨ (key + n - 1) / 64 < e.2) := by
  obtain ⟨he, hd⟩ := List.mem_filter.mp h
  rw [Bool.not_eq_true', decide_eq_false_iff_not, not_and_or, Nat.not_le, Nat.not_le] at hd
  exact ⟨he, hd⟩

theorem warp_clearResv (s : State) (key n x : Nat) : (clearResv s key n).warp x = (s.warp x).map fun w => w.loseResv key n :=
  alook_map (fun w : Warp => w.loseResv key n) x s.warps

section
variable {s : State} {who core : Option Nat} {kid key : Nat} {bs : List Byte} {p : Bool}

/-- A write takes the reservations on its granules from every warp (R270). -/
theorem warp_put (h : bs.length ≠ 0) (x : Nat) : ∃ q, (s.put who core kid key bs p).warp x
    = (s.warp x).map fun w => { w.loseResv key bs.length with pend := q } := by
  unfold State.put State.putBy
  rw [if_neg h]
  obtain ⟨q, hq⟩ := warp_replayLoads (clearResv (((noteConsts (s.remember (core.or (s.cur.bind (coreOf s))) key bs.length p)
    key bs.length).modMem fun m => (m.setBytesUnder kid s.free key bs).storePois key bs.length p).takeFree) key bs.length) who
    (LoadSrc.inMem key bs.length) x
  refine ⟨q, hq.trans ?_⟩
  rw [warp_clearResv, Option.map_map]
  rfl

/-- What is left of reservations after a write. -/
theorem resv_put (h : bs.length ≠ 0) {x : Nat} {y : Warp} (hy : (s.put who core kid key bs p).warp x = some y) :
    ∃ w, s.warp x = some w ∧ ∀ r ∈ y.resv, r ∈ w.resv ∧ (r.2 < key / 64 ∨ (key + bs.length - 1) / 64 < r.2) := by
  obtain ⟨q, hq⟩ := warp_put (s := s) (who := who) (core := core) (kid := kid) (key := key) (p := p) h x
  rw [hq] at hy
  obtain ⟨w, hw, rfl⟩ := Option.map_eq_some_iff.mp hy
  exact ⟨w, hw, fun r hr => mem_loseResv hr⟩

section
variable (h : bs.length ≠ 0) (hk : ∀ x ∈ sectors key bs.length, s.mem.unknown kid x = false)
include h hk

theorem byte_put (j : Nat) : (s.put who core kid key bs p).mem.byte j
    = if key ≤ j ∧ j < key + bs.length then (bs[j - key]?).getD 0 else s.mem.byte j := by
  rw [put_mem _ _ _ _ _ _ h, Mem.byte_storePois, Mem.byte_setBytesUnder _ j hk, Mem.byte_setBytes]

theorem unknown_put {x : Nat} (hx : s.mem.unknown kid x = false) : (s.put who core kid key bs p).mem.unknown kid x = false := by
  obtain ⟨hpk, hpv⟩ := Mem.storePois_leaves (s.mem.setBytesUnder kid s.free key bs) key bs.length p
  obtain ⟨hbk, hbv, -⟩ := Mem.setBytes_leaves ((sectors key bs.length).foldl (fun m t => m.claimSector kid s.free t) s.mem) key bs
  rw [put_mem _ _ _ _ _ _ h, Mem.unknown_of_eq hpk hpv, Mem.setBytesUnder, Mem.unknown_of_eq hbk hbv]
  exact (Mem.claimSectors_leaves hk).2 x hx

omit h in
theorem pois_setBytesUnder : (s.mem.setBytesUnder kid s.free key bs).pois = s.mem.pois :=
  (Mem.setBytes_leaves _ key bs).2.2.trans (Mem.claimSectors_leaves hk).1

theorem mem_pois_put_true {x : Nat} : x ∈ (s.put who core kid key bs true).mem.pois ↔ x ∈ sectors key bs.length ∨ x ∈ s.mem.pois := by
  rw [put_mem _ _ _ _ _ _ h, Mem.mem_pois_storePois_true, pois_setBytesUnder hk]

theorem mem_pois_of_put_false {x : Nat} (hx : x ∈ (s.put who core kid key bs false).mem.pois) : x ∈ s.mem.pois := by
  rw [put_mem _ _ _ _ _ _ h] at hx
  exact pois_setBytesUnder hk ▸ Mem.mem_pois_of_storePois_false hx

end

end

end Sys2Proof.Machine

namespace Sys2Proof.Machine

/-! ## A buffered store reaches memory -/

section
variable {s : State} {b : Buffered} {k : Nat}

theorem land_of_linkDown (hk : b.spot = .mem k) (hl : linkDown s k = true) : (s.land b).mem = s.mem := by
  unfold State.land
  rw [hk]
  simp only [hl, if_true]
  split
  · exact (lostStore_leaves s _ k).2
  · rfl

/-- Over a link that is up it writes; what it leaves to its cluster to see changes cores alone. -/
theorem land_of_linkUp (hk : b.spot = .mem k) (hl : linkDown s k = false) :
    (s.land b).mem = (s.put (some b.wid) (coreOf s b.wid) b.kid k b.bytes (b.pois.any id)).mem
      ∧ (s.land b).warps = (s.put (some b.wid) (coreOf s b.wid) b.kid k b.bytes (b.pois.any id)).warps := by
  unfold State.land
  rw [hk]
  simp only [hl, Bool.false_eq_true, if_false]
  split_ifs <;> exact ⟨rfl, rfl⟩

theorem storesLand : StoresLand := by
  intro s b k hk hb
  have hn : b.bytes.length ≠ 0 := fun h => hb (List.length_eq_zero_iff.mp h)
  refine ⟨land_of_linkDown hk, fun hl hu => ?_⟩
  obtain ⟨hm, hw⟩ := land_of_linkUp hk hl
  rw [hm]
  refine ⟨byte_put hn hu, fun hp x hx => ?_, fun hp j hj => ?_, fun x y hy => ?_⟩
  · rw [hp, Mem.poisoned_iff, Nat.mul_div_cancel_left x (by decide)]
    exact (mem_pois_put_true hn hu).mpr (.inl hx)
  · rw [hp, Mem.poisoned_iff] at hj
    exact (Mem.poisoned_iff _ _).mpr (mem_pois_of_put_false hn hu hj)
  · obtain ⟨w, -, h⟩ := resv_put hn ((State.warp_of_warps_eq hw x).symm.trans hy)
    exact fun r hr => (h r hr).2

end

/-! ## Stores by their stages -/

section
variable {it : Iss} {s s0 : State} {o : Opnds} {w : MemW} {ord : StOrd} {sc : Scope} {cache : CacheHint} {f : Nat → Tgt} {b : Block}
  {n : Nat} {l q : List Buffered} {r : Sparse Nat} {p : List Pend}

/-- A store's lanes store, in ascending order (R266). -/
def storeLanes (it : Iss) (s : State) (n : Nat) (ord : StOrd) (sc : Scope) (cache : CacheHint) (ok : List (Nat × Tgt)) : State :=
  ok.foldl (fun s x => laneStore it s (ord == .rel) (storeReach s it ord sc cache) x.2 (it.dataParts it.o.d n x.1)) s

/-- After its lanes have stored, a store's translations retire, the lines of a last use leave the L1, and the next word comes. -/
def storeDone (it : Iss) (ea : Nat → PV) (cache : CacheHint) (ok : List (Nat × Tgt)) (s : State) : State :=
  commit it (lastUse it (usedLanes it s ea ok) cache ok) id

theorem orQuota_confirmed (hb : s.block it.blk = some b) (hp : b.prov = false) (keys : List (Nat × Nat)) (k : State) :
    orQuota it s keys k = k := by
  simp only [orQuota, hb, Block.isProv, hp, Bool.not_false, Bool.true_or, if_true]

/-- A confirmed block's store that finds its lanes ready. -/
theorem exec_st {ixs : Bool} (hi : issuing (.st o w ord sc cache ixs) s = some (it, s0)) (hb : s0.block it.blk = some b)
    (hp : b.prov = false) (hg : GlobalReady it s0 s0 ⟨true, false, some it.blk⟩ false true (memBytes w) (it.ea ixs) f)
    (hm : MissRoom it s0 (parts8 (memBytes w)).length) :
    exec (.st o w ord sc cache ixs) s = .next (storeDone it (it.ea ixs) cache (it.lanes.map fun l => (l, f l))
      (storeLanes it (released it (s0.modWarp it.wid Warp.unmiss) ord sc) (memBytes w) ord sc cache
        (it.lanes.map fun l => (l, f l)))) := by
  refine (issue_eq hi _ : execSt o w ord sc cache ixs s = _).trans (congrArg _ ?_)
  simp only [checked_globalReady hg]
  refine (watchFirst_unwatchedLanes hg.link hg.unwatched _).trans ((orQuota_confirmed hb hp _ _).trans (orReject_of_room (.inr ?_) _))
  rwa [List.length_map]

/-! ### Stores that are buffered -/

/-- A part of a lane's store in the store buffer (R267, R326). -/
def bufferedPart (it : Iss) (s : State) (ord : StOrd) (sc : Scope) (cache : CacheHint) (t : Tgt) (d : Part) : Buffered :=
  ⟨.mem (t.key + d.off), d.bytes, d.pois, s.keyId it.ctx, it.wid, storeReach s it ord sc cache, s.dev.now, it.w.run.mask⟩

theorem bufferedPart_congr (h : OnlyWarp it.wid s0 s) (t : Tgt) (d : Part) :
    bufferedPart it s ord sc cache t d = bufferedPart it s0 ord sc cache t d := by
  have hk : s.keyId it.ctx = s0.keyId it.ctx := by unfold State.keyId State.ctx; rw [h.ctxs]
  have hr : storeReach s it ord sc cache = storeReach s0 it ord sc cache := by
    have hb : s.block = s0.block := funext fun n => congrArg (alook n) h.blocks
    unfold storeReach reachOf
    rw [hb]
  rw [bufferedPart, hk, hr, h.dev, bufferedPart]

theorem foldl_bufferStore (g : Part → Buffered) (ps : List Part) (w : Warp) :
    ps.foldl (fun w d => w.bufferStore (g d)) w = { w with sbuf := w.sbuf ++ ps.map g } := by
  induction ps generalizing w with
  | nil => rw [List.map_nil, List.append_nil]; rfl
  | cons d ps ih =>
    rw [List.foldl_cons, ih, List.map_cons]
    simp only [Warp.bufferStore, List.append_assoc, List.singleton_append]

/-- A confirmed block's store that is no release enters the store buffer in a lane. -/
theorem laneStore_buffers (h : IssuedWith it l r p s) (hb : s.block it.blk = some b) (hp : b.prov = false) (t : Tgt) (ps : List Part) :
    OnlyWarp it.wid s (laneStore it s false (storeReach s it ord sc cache) t ps)
      ∧ ∃ r', IssuedWith it (l ++ ps.map (bufferedPart it s ord sc cache t)) r' p
        (laneStore it s false (storeReach s it ord sc cache) t ps) := by
  have he : laneStore it s false (storeReach s it ord sc cache) t ps = s.modWarp it.wid fun w =>
      ps.foldl (fun w d => w.bufferStore (bufferedPart it s ord sc cache t d)) (w.loseResv t.key (ps.flatMap Part.bytes).length) := by
    simp only [laneStore, hb, Block.isProv, hp, Bool.or_false, Bool.false_eq_true, if_false]
    rfl
  rw [he]
  exact ⟨onlyWarp_modWarp _ _ _, ((it.w.drained l r p).loseResv t.key (ps.flatMap Part.bytes).length).resv,
    h.modWarp fun n => ⟨n, foldl_bufferStore _ _ _⟩⟩

theorem storeLanes_buffers (hord : ord ≠ .rel) (hb : s0.block it.blk = some b) (hp : b.prov = false) (ok : List (Nat × Tgt))
    (ho : OnlyWarp it.wid s0 s) (h : IssuedWith it l r p s) :
    OnlyWarp it.wid s0 (storeLanes it s n ord sc cache ok) ∧ ∃ r', IssuedWith it
      (l ++ ok.flatMap fun x => (it.dataParts it.o.d n x.1).map (bufferedPart it s0 ord sc cache x.2)) r' p
      (storeLanes it s n ord sc cache ok) := by
  have hrel : (ord == .rel) = false := beq_eq_false_iff_ne.mpr hord
  induction ok generalizing s l r with
  | nil => exact ⟨ho, r, by rw [List.flatMap_nil, List.append_nil]; exact h⟩
  | cons x ok ih =>
    have hbs : s.block it.blk = some b := (congrArg (alook it.blk) ho.blocks).trans hb
    obtain ⟨ho1, r1, h1⟩ := laneStore_buffers (ord := ord) (sc := sc) (cache := cache) h hbs hp x.2 (it.dataParts it.o.d n x.1)
    obtain ⟨ho2, r2, h2⟩ := ih (onlyWarp_trans ho ho1) h1
    rw [show bufferedPart it s ord sc cache x.2 = _ from funext (bufferedPart_congr ho x.2)] at h2
    rw [storeLanes, List.foldl_cons, List.flatMap_cons, ← List.append_assoc, hrel]
    rw [storeLanes, hrel] at ho2 h2
    exact ⟨ho2, r2, h2⟩

/-- Warps hold the reservations they held, at most. -/
def FewerResv (s t : State) : Prop := ∀ x y, t.warp x = some y → ∃ w, s.warp x = some w ∧ ∀ e ∈ y.resv, e ∈ w.resv

namespace FewerResv

variable {s t u : State}

theorem of_warps (h : t.warps = s.warps) : FewerResv s t := fun x y hy => ⟨y, (State.warp_of_warps_eq h x).symm.trans hy, fun _ h => h⟩

protected theorem trans (h : FewerResv s t) (k : FewerResv t u) : FewerResv s u := by
  intro x y hy
  obtain ⟨w, hw, hr⟩ := k x y hy
  obtain ⟨v, hv, hq⟩ := h x w hw
  exact ⟨v, hv, fun e he => hq e (hr e he)⟩

/-- One warp's change. -/
theorem of_onlyWarp {wid : Nat} {w w' : Warp} (h : OnlyWarp wid s t) (hs : s.warp wid = some w) (ht : t.warp wid = some w')
    (hr : ∀ e ∈ w'.resv, e ∈ w.resv) : FewerResv s t := by
  intro x y hy
  by_cases hx : x = wid
  · subst hx
    obtain rfl : w' = y := Option.some.inj (ht.symm.trans hy)
    exact ⟨w, hs, hr⟩
  · exact ⟨y, (h.warps x hx).symm.trans hy, fun _ h => h⟩

end FewerResv

/-- A store's end where its last uses find nothing to write back. -/
theorem storeDone_clean {ea : Nat → PV} (h : IssuedWith it l r p s) (hlu : LastUseClean it s cache f) :
    Reads it.wid (TchByte f it.lanes) s (storeDone it ea cache (it.lanes.map fun l => (l, f l)) s)
      ∧ StoreMovesOn it (storeDone it ea cache (it.lanes.map fun l => (l, f l)) s)
      ∧ FewerResv s (storeDone it ea cache (it.lanes.map fun l => (l, f l)) s)
      ∧ ∃ w', (storeDone it ea cache (it.lanes.map fun l => (l, f l)) s).warp it.wid = some w'
        ∧ w'.sbuf = l ∧ w'.resv = r ∧ w'.pend = p := by
  have hused := reads_usedLanes (it := it) (ea := ea) (f := f) s it.lanes
  obtain ⟨hrl, hwl⟩ := lastUse_clean (tch := TchByte f it.lanes) (lastUseClean_aside hlu hused.toAside)
  have hws := hwl.trans (usedLanes_warps (it := it) (ea := ea) s (it.lanes.map fun l => (l, f l)))
  obtain ⟨hmoves, w', hw', hsb, hres, hpend⟩ := storeMovesOn_commit (h.of_warps hws)
  obtain ⟨ho, -⟩ := commit_asIssued (h.of_warps hws).asIssued id
  obtain ⟨m, hm⟩ := h.of_warps hws
  exact ⟨(hused.trans hrl).trans (.of_onlyWarp ho), hmoves,
    (FewerResv.of_warps hws).trans (.of_onlyWarp ho hm hw' fun e he => hres ▸ he), w', hw', hsb, hres, hpend⟩

theorem storeBuffers : StoreBuffers := by
  intro o w ord sc cache ixs s s0 it f b hi hord hb hp n hg hm hlu
  obtain ⟨ho, r, h⟩ := storeLanes_buffers (n := n) (sc := sc) (cache := cache) hord hb hp (it.lanes.map fun l => (l, f l))
    (onlyWarp_modWarp it.wid s0 Warp.unmiss) (issuedWith_of_keepsStores hi rfl).unmiss
  have hrel : released it (s0.modWarp it.wid Warp.unmiss) ord sc = s0.modWarp it.wid Warp.unmiss := if_neg fun h => hord h.1
  obtain ⟨hend, hmoves, -, w', hw', hsb, -, hpend⟩ := storeDone_clean (ea := it.ea ixs) h
    (lastUseClean_aside hlu (aside_of_onlyWarp ho))
  have hr := (Reads.of_onlyWarp ho).trans hend
  refine ⟨_, (exec_st hi hb hp hg hm).trans (by rw [hrel]), hr.besideMem, hr.blocks, hr.sameGrids, hr.bytes, hmoves, w', hw',
    hpend, ?_⟩
  rw [hsb, List.flatMap_map]
  rfl

end

end Sys2Proof.Machine

namespace Sys2Proof.Machine

/-! ## Stores that every agent sees at once -/

section
variable {it : Iss} {s t : State} {ord : StOrd} {sc : Scope} {cache : CacheHint} {f : Nat → Tgt} {b : Block} {n : Nat} {w : MemW}
  {ok : List (Nat × Tgt)} {ls : List Nat} {l : Nat}

/-- The word's block is confirmed, and of the word's context. -/
structure ConfirmedFor (it : Iss) (s : State) : Prop where
  blk : it.blk = blkOf it.wid
  own : ∃ b, s.block it.blk = some b ∧ b.prov = false ∧ b.ctx = it.ctx

namespace ConfirmedFor

theorem of_issuing {i : Instr} {s0 : State} (h : issuing i s = some (it, s0)) (hb : s0.block it.blk = some b) (hp : b.prov = false) :
    ConfirmedFor it s0 := by
  have hblk := blk_of_issuing h
  have hctx := ctxNo_of_issuing h
  rw [State.ctxNo, ← hblk, hb] at hctx
  exact ⟨hblk, b, hb, hp, hctx⟩

theorem drains (h : ConfirmedFor it s) (d : Drains s t) : ConfirmedFor it t := by
  obtain ⟨b, hb, hp, hctx⟩ := h.own
  obtain ⟨m, q, ht⟩ := d.blocks it.blk
  exact ⟨h.blk, _, ht.trans (congrArg _ hb), hp, hctx⟩

theorem of_blocks (h : ConfirmedFor it s) (e : t.blocks = s.blocks) : ConfirmedFor it t := by
  obtain ⟨b, hb, h'⟩ := h.own
  exact ⟨h.blk, b, (congrArg (alook it.blk) e).trans hb, h'⟩

end ConfirmedFor

theorem storeGlobal_linkDown (h : ConfirmedFor it s) {g : Tgt} (hl : linkDown s g.key = true) (bs : List Byte) (p : Bool) :
    ∃ b, storeGlobal s it.wid g bs p = lostStore s b g.key := by
  obtain ⟨b, hb, hp, -⟩ := h.own
  rw [h.blk] at hb
  refine ⟨b, ?_⟩
  simp only [storeGlobal, hb, Block.isProv, hp, hl, Bool.false_eq_true, if_false, if_true]

theorem storeGlobal_linkUp (h : ConfirmedFor it s) {g : Tgt} (hl : linkDown s g.key = false) (bs : List Byte) (p : Bool) :
    storeGlobal s it.wid g bs p
      = (settle s it.wid g.key bs.length).put (some it.wid) (coreOf s it.wid) (s.keyId it.ctx) g.key bs p := by
  obtain ⟨b, hb, hp, hctx⟩ := h.own
  rw [h.blk] at hb
  simp only [storeGlobal, hb, Block.isProv, hp, hl, hctx, Bool.false_eq_true, if_false]

theorem drains_storeGlobal (h : ConfirmedFor it s) (g : Tgt) (bs : List Byte) (p : Bool) : Drains s (storeGlobal s it.wid g bs p) := by
  cases hl : linkDown s g.key with
  | true =>
    obtain ⟨b, he⟩ := storeGlobal_linkDown h hl bs p
    exact he ▸ drains_lostStore s b g.key
  | false =>
    rw [storeGlobal_linkUp h hl]
    exact (drains_settle s _ _ _).trans (drains_put _ _ _ _ _ _ _)

theorem laneStore_releases (h : ConfirmedFor it s) (reach : Nat) (g : Tgt) :
    laneStore it s true reach g (it.dataParts it.o.d n l)
      = storeGlobal s it.wid g (it.dataBytes it.o.d n l).1 (it.dataBytes it.o.d n l).2 := by
  obtain ⟨b, hb, -⟩ := h.own
  simp only [laneStore, hb, Bool.or_true, if_true, Iss.dataBytes]

theorem storeLanes_concat {x : Nat × Tgt} (h : ConfirmedFor it (storeLanes it s n .rel sc cache ok)) :
    storeLanes it s n .rel sc cache (ok ++ [x])
      = storeGlobal (storeLanes it s n .rel sc cache ok) it.wid x.2 (it.dataBytes it.o.d n x.1).1 (it.dataBytes it.o.d n x.1).2 := by
  rw [← laneStore_releases h (storeReach (storeLanes it s n .rel sc cache ok) it .rel sc cache), storeLanes, List.foldl_append]
  rfl

theorem drains_storeLanes (h : ConfirmedFor it s) (ok : List (Nat × Tgt)) : Drains s (storeLanes it s n .rel sc cache ok) := by
  induction ok using List.reverseRecOn with
  | nil => exact .refl s
  | append_singleton ok x ih =>
    rw [storeLanes_concat (h.drains ih)]
    exact ih.trans (drains_storeGlobal (h.drains ih) x.2 _ _)

theorem drains_lastUse (s : State) (cache : CacheHint) (ok : List (Nat × Tgt)) : Drains s (lastUse it s cache ok) := by
  unfold lastUse
  split_ifs
  · exact Drains.foldl (fun s x => (drains_landDirty s it.core _).trans (drains_modCore _ it.core _ fun _ => rfl)) ok s
  · exact .refl s

/-! ### The bytes of a store's lanes -/

theorem dataBytes_length (it : Iss) (d : Opd) (w : MemW) (l : Nat) : (it.dataBytes d (memBytes w) l).1.length = memBytes w := by
  cases w <;> simp [Iss.dataBytes, Iss.dataParts, parts8, memBytes, List.range_succ]

/-- A byte of memory after some lanes have stored `n` bytes each: the highest lane's that stores it, or as it was. -/
def storedByte (m : Mem) (n : Nat) (f : Nat → Tgt) (data : Nat → List Byte) (ls : List Nat) (k : Nat) : Byte :=
  (ls.filter fun l => decide ((f l).key ≤ k ∧ k < (f l).key + n)).getLast?.elim (m.byte k) fun l => ((data l)[k - (f l).key]?).getD 0

theorem storedByte_append (m : Mem) (data : Nat → List Byte) (k : Nat) : storedByte m n f data (ls ++ [l]) k
    = if (f l).key ≤ k ∧ k < (f l).key + n then ((data l)[k - (f l).key]?).getD 0 else storedByte m n f data ls k := by
  unfold storedByte
  rw [List.filter_append, List.filter_singleton]
  split_ifs with h
  · rw [decide_eq_true h, cond_true, List.getLast?_concat, Option.elim_some]
  · rw [decide_eq_false h, cond_false, List.append_nil]

theorem storedBytes_of {data : Nat → List Byte} (h : ∀ k, ¬ TchByte f ls k → t.mem.byte k = storedByte s.mem n f data ls k) : StoredBytes s t n f data ls := by
  intro k hk
  rw [h k hk, storedByte]
  cases (ls.filter fun l => decide ((f l).key ≤ k ∧ k < (f l).key + n)).getLast? <;> rfl

/-- The lanes `ls` have stored at once: their bytes are in memory and nothing else, it is poisoned by poisoned data alone, their
sectors stay specified, and no reservation stands on the granules they begin in (R266, R270, R472). -/
structure Stored (it : Iss) (n : Nat) (f : Nat → Tgt) (data : Nat → List Byte × Bool) (ls : List Nat) (s t : State) : Prop
    extends Aside none s t where
  bytes : ∀ k, t.mem.byte k = storedByte s.mem n f (fun l => (data l).1) ls k
  known : ∀ x, s.mem.unknown (s.keyId it.ctx) x = false → t.mem.unknown (s.keyId it.ctx) x = false
  clean : (∀ l ∈ ls, (data l).2 = false) → ∀ k, t.mem.poisoned k = true → s.mem.poisoned k = true
  spoilt : (∀ l ∈ ls, (data l).2 = true) → ∀ l ∈ ls, t.mem.poisoned (f l).key = true
  unheld : ∀ l ∈ ls, ∀ x y, t.warp x = some y → ∀ r ∈ y.resv, r.2 ≠ (f l).key / 64

theorem stored_nil (data : Nat → List Byte × Bool) (s : State) : Stored it n f data [] s s where
  toAside := .refl none s
  bytes _ := rfl
  known _ h := h
  clean _ _ h := h
  spoilt _ _ hl := absurd hl List.not_mem_nil
  unheld _ hl := absurd hl List.not_mem_nil

/-- One more lane's write. -/
theorem Stored.put {data : Nat → List Byte × Bool} (h : Stored it n f data ls s t) (hn : n ≠ 0) (hd : (data l).1.length = n)
    (hk : ∀ x ∈ sectors (f l).key n, s.mem.unknown (s.keyId it.ctx) x = false) (who core : Option Nat) :
    Stored it n f data (ls ++ [l]) s (t.put who core (s.keyId it.ctx) (f l).key (data l).1 (data l).2) := by
  have hn' : (data l).1.length ≠ 0 := hd ▸ hn
  have hk' : ∀ x ∈ sectors (f l).key (data l).1.length, t.mem.unknown (s.keyId it.ctx) x = false :=
    fun x hx => h.known x (hk x (hd ▸ hx))
  refine ⟨h.toAside.trans (aside_put none t _ _ _ _ _ _), fun k => ?bytes, fun x hx => unknown_put hn' hk' (h.known x hx),
    fun hp k hpk => ?clean, fun hp j hj => ?spoilt, fun j hj x y hy r hr => ?unheld⟩
  case bytes => rw [byte_put hn' hk', storedByte_append, h.bytes, hd]
  case clean =>
    rw [hp l (List.mem_append_right ls List.mem_cons_self)] at hpk
    refine h.clean (fun j hj => hp j (List.mem_append_left _ hj)) k ?_
    exact (Mem.poisoned_iff _ k).mpr (mem_pois_of_put_false hn' hk' ((Mem.poisoned_iff _ k).mp hpk))
  case spoilt =>
    rw [hp l (List.mem_append_right ls List.mem_cons_self), Mem.poisoned_iff, mem_pois_put_true hn' hk']
    rcases List.mem_append.mp hj with hj | hj
    · exact .inr ((Mem.poisoned_iff _ _).mp (h.spoilt (fun i hi => hp i (List.mem_append_left _ hi)) j hj))
    · rw [List.mem_singleton.mp hj]
      exact .inl (sector_mem_sectors (j := 0) (Nat.pos_of_ne_zero hn'))
  case unheld =>
    obtain ⟨w, hw, hres⟩ := resv_put hn' hy
    obtain ⟨hr', hout⟩ := hres r hr
    rcases List.mem_append.mp hj with hj | hj
    · exact h.unheld j hj x w hw r hr'
    · rw [List.mem_singleton.mp hj]
      omega

/-- What comes after the stores takes reservations at most. -/
theorem Stored.unreserved {data : Nat → List Byte × Bool} {u : State} (h : Stored it n f data it.lanes s u) (k : FewerResv u t) :
    Unreserved it t f := by
  intro l hl x y hy e he
  obtain ⟨w, hw, hr⟩ := k x y hy
  exact h.unheld l hl x w hw e (hr e he)

theorem poisoned_of_pois {m m' : Mem} (h : m'.pois = m.pois) (k : Nat) : m'.poisoned k = m.poisoned k :=
  congrArg (fun l => l.contains (k / 32)) h

/-- A store at once finds nothing before it where its path's stores have left and no L1 holds its bytes (R326). -/
theorem storeGlobal_clean (h : ConfirmedFor it s) {g : Tgt} {bs : List Byte} (hl : linkDown s g.key = false)
    (hp : pathStores s it.wid (fun b => b.meets g.key bs.length) = false) (hd : NoDirt (fun b => b.meets g.key bs.length) s) (p : Bool) :
    storeGlobal s it.wid g bs p = s.put (some it.wid) (coreOf s it.wid) (s.keyId it.ctx) g.key bs p := by
  rw [storeGlobal_linkUp h hl, settle_clean hp hd]

theorem Stored.storeGlobal {d : Opd} (h : Stored it (memBytes w) f (fun l => it.dataBytes d (memBytes w) l) ls s t) (hc : ConfirmedFor it s)
    (hl : linkDown s (f l).key = false) (hk : ∀ x ∈ sectors (f l).key (memBytes w), s.mem.unknown (s.keyId it.ctx) x = false)
    (hp : pathStores s it.wid (fun b => b.meets (f l).key (memBytes w)) = false)
    (hd : NoDirt (fun b => b.meets (f l).key (memBytes w)) s) :
    Stored it (memBytes w) f (fun l => it.dataBytes d (memBytes w) l) (ls ++ [l]) s
      (storeGlobal t it.wid (f l) (it.dataBytes d (memBytes w) l).1 (it.dataBytes d (memBytes w) l).2) := by
  have hlen := dataBytes_length it d w l
  have hpt := ((BuffersKept.of_aside h.toAside).pathStores _ _).trans hp
  have hdt := hd.aside h.toAside
  rw [← hlen] at hpt hdt
  have hn : memBytes w ≠ 0 := by cases w <;> decide
  rw [storeGlobal_clean (hc.of_blocks h.blocks) ((h.linkDown _).trans hl) hpt hdt, h.keyId]
  exact h.put hn hlen hk (some it.wid) _

theorem storeLanes_stored (hc : ConfirmedFor it s) (hp : ∀ g, pathStores s it.wid g = false) (hs : Settled it s (memBytes w) f)
    (hd : L1Apart it s (memBytes w) f) (hls : ∀ l ∈ ls, l ∈ it.lanes) :
    Stored it (memBytes w) f (fun l => it.dataBytes it.o.d (memBytes w) l) ls s
      (storeLanes it s (memBytes w) .rel sc cache (ls.map fun l => (l, f l))) := by
  induction ls using List.reverseRecOn with
  | nil => exact stored_nil _ s
  | append_singleton ls l ih =>
    have h := ih fun j hj => hls j (List.mem_append_left _ hj)
    have hl := hls l (List.mem_append_right ls List.mem_cons_self)
    rw [List.map_append, List.map_singleton, storeLanes_concat (hc.of_blocks h.blocks)]
    exact h.storeGlobal hc (hs l hl).1 (hs l hl).2 (hp _) (hd l hl)

theorem storeReleases : StoreReleases := by
  intro o w sc cache ixs s s0 it f b hi ha hb hp n data s1 hg hm
  have hrel : released it (s0.modWarp it.wid Warp.unmiss) .rel sc = s1 := if_pos ⟨rfl, ha⟩
  have h1 : AsIssued it s1 := by
    obtain ⟨_, _, _, h⟩ := (asIssued_of_issuing hi).issuedWith
    exact h.unmiss.asIssued.drains (drains_releaseAt _ it.wid sc)
  have hc : ConfirmedFor it s1 :=
    ((ConfirmedFor.of_issuing hi hb hp).of_blocks (State.modWarp_blocks s0 it.wid Warp.unmiss)).drains (drains_releaseAt _ it.wid sc)
  have h2 := h1.drains (drains_storeLanes (n := n) (sc := sc) (cache := cache) hc (it.lanes.map fun l => (l, f l)))
  have hexec := exec_st hi hb hp hg hm
  rw [hrel] at hexec
  refine ⟨_, hexec, ?moves, fun hs hd hlu => ?clean⟩
  case moves =>
    obtain ⟨_, _, _, h⟩ := ((h2.of_warps (usedLanes_warps _ _)).drains (drains_lastUse _ cache _)).issuedWith
    exact (storeMovesOn_commit h).1
  case clean =>
    have hst := storeLanes_stored (cache := cache) (sc := sc) hc (pathStores_releaseAt _ it.wid sc) hs hd fun l hl => hl
    obtain ⟨l, r, p, h⟩ := h2.issuedWith
    obtain ⟨hend, -, hfewer, -⟩ := storeDone_clean (ea := it.ea ixs) h (lastUseClean_aside hlu hst.toAside)
    have hr := (hst.toAside.weaken (some it.wid)).trans hend.toAside
    have hpois := poisoned_of_pois hend.pois
    exact ⟨hr.besideMem, hr.blocks, storedBytes_of fun k hk => (hend.bytes k hk).trans (hst.bytes k),
      fun hd k hk => hst.clean hd k (hpois k ▸ hk), fun hd l hl => (hpois _).trans (hst.spoilt hd l hl),
      hst.unreserved hfewer⟩

end

end Sys2Proof.Machine

namespace Sys2Proof.Machine

/-! ## `stc` of one lane -/

section
variable {it : Iss} {s s0 t u : State} {i : Instr} {o : Opnds} {w : MemW} {ord : StOrd} {sc : Scope} {f : Nat → Tgt} {b : Block}
  {ea : Nat → PV} {n l v : Nat} {w1 : Warp}

/-- A word that a provisional block holds acts for a confirmed one (R108). -/
theorem confirmed_of_held (h : issuing i s = some (it, s0)) (hh : heldInstr i = true) (ha : it.act ≠ 0)
    (hb : s0.block it.blk = some b) : b.prov = false := by
  obtain ⟨wid, core, slot, w, hc, hw, hl, rfl, rfl⟩ := issuing_facts h
  obtain ⟨m, p, hd⟩ := (drains_started i s wid core w).blocks (blkOf wid)
  obtain ⟨-, -, -, -, -, -, -, -, hblocks, -⟩ := issued_facts i s wid core w
  have hi : (issued i s wid core w).block = s.block := funext fun n => congrArg (alook n) hblocks
  have hs : (s.block (blkOf wid)).map (fun x => { x with scr := m, scrPois := p }) = some b := hi ▸ hd.symm.trans hb
  obtain ⟨b', hb', rfl⟩ := Option.map_eq_some_iff.mp hs
  cases hp : b'.prov with
  | false => rfl
  | true =>
    simp only [issuing, hc, hw, hl, hb', Block.isProv, hp, hh, Bool.and_self, forall_const] at h
    split_ifs at h with hg
    obtain ⟨-, -, -, -, hact, -⟩ := hg
    exact absurd hact ha

theorem maskOf_lane (h : it.lanes = [l]) : maskOf (fun j => l == j) = it.act := by
  refine BitVec.eq_of_getLsbD_eq fun j hj => ?_
  rw [getLsbD_maskOf _ hj, Bool.eq_iff_iff, beq_iff_eq, ← mem_lanesOf, ← Iss.lanes, h, List.mem_singleton, eq_comm]

/-- A lane's reservation ends (R271). -/
def endResv (it : Iss) (l : Nat) (s : State) : State := s.modWarp it.wid fun w => { w with resv := adel l w.resv }

theorem stcLane_held (hs : settle s it.wid (f l).key n = u) (hw : u.warp it.wid = some w1)
    (hr : alook l w1.resv = some ((f l).key / 64)) : stcLane it n (s, []) (l, f l)
      = (endResv it l (clearResv (storeGlobal u it.wid (f l) (it.dataBytes it.o.c n l).1 (it.dataBytes it.o.c n l).2) (f l).key n),
        [(l, 1)]) := by
  simp only [stcLane, hs, hw, hr, BEq.rfl, if_true]
  rfl

theorem stcLane_unheld (hs : settle s it.wid (f l).key n = u) (hw : u.warp it.wid = some w1)
    (hr : alook l w1.resv ≠ some ((f l).key / 64)) : stcLane it n (s, []) (l, f l) = (endResv it l u, [(l, 0)]) := by
  simp only [stcLane, hs, hw, beq_eq_false_iff_ne.mpr hr, Bool.false_eq_true, if_false]
  rfl

/-- The end of `stc` of one lane: its translation retires and its status is written. -/
def stcEnd (it : Iss) (ea : Nat → PV) (f : Nat → Tgt) (l v : Nat) (s : State) : State :=
  commit it (usedLanes it s ea (it.lanes.map fun l => (l, f l))) fun w =>
    w.dput .b32 it.o.d it.act fun j => ⟨(([(l, v)].find? fun e => e.1 == j).map Prod.snd).getD 0, false⟩

theorem exec_stc {ixs : Bool} (hi : issuing (.stc o w ord sc ixs) s = some (it, s0)) (hl : it.lanes = [l])
    (hg : GlobalReady it s0 s0 ⟨true, false, some it.blk⟩ false true (memBytes w) (it.ea ixs) f) (hm : MissRoom it s0 1)
    (hq : stcLane it (memBytes w) (released it (s0.modWarp it.wid Warp.unmiss) ord sc, []) (l, f l) = (u, [(l, v)])) :
    exec (.stc o w ord sc ixs) s = .next (stcEnd it (it.ea ixs) f l v u) := by
  refine (issue_eq hi _ : execStc o w ord sc ixs s = _).trans (congrArg _ ?_)
  simp only [checked_globalReady hg]
  refine (watchFirst_unwatchedLanes hg.link hg.unwatched _).trans ((orReject_of_room (.inr ?_) _).trans ?_)
  · rw [MissRoom, Nat.mul_one] at hm
    rwa [List.length_map]
  · have hmask : maskOf (fun j => [(l, v)].any fun e => e.1 == j) = it.act := by
      rw [← maskOf_lane hl]
      simp only [List.any_cons, List.any_nil, Bool.or_false]
    simp only [stcEnd, hl, List.map_cons, List.map_nil, List.foldl_cons, List.foldl_nil, hq, hmask]

/-- What a word writes depends on its active lanes alone, where its D is no uniform register. -/
theorem destWritten_lanes {out out' : Nat → Nat → PWord} {w' : Warp} (hd : ∀ r, it.o.d ≠ .s r)
    (h : ∀ j, it.act.getLsbD j = true → ∀ k, out k j = out' k j) (hw : DestWritten it w' n out) : DestWritten it w' n out' := by
  unfold DestWritten at hw ⊢
  split at hw
  next r _ =>
    obtain ⟨hs, hin, hout⟩ := hw
    exact ⟨hs, fun k j hk hj ha => (hin k j hk hj ha).trans (h j ha k), hout⟩
  next r hr => exact absurd hr (hd r)
  next => exact hw

theorem delivers_lanes {out out' : Nat → Nat → PWord} (hd : ∀ r, it.o.d ≠ .s r)
    (h : ∀ j, it.act.getLsbD j = true → ∀ k, out k j = out' k j) (k : Delivers it t n out) : Delivers it t n out' :=
  let ⟨w', ht, hrun, hp, hq, hw⟩ := k
  ⟨w', ht, hrun, hp, hq, destWritten_lanes hd h hw⟩

/-- `stc` writes its lane's status, and its reservation has ended (R271). -/
theorem stcEnd_facts (hl : it.lanes = [l]) (hd : ∀ r, it.o.d ≠ .s r) (h : AsIssued it s) :
    Reads it.wid (TchByte f it.lanes) s (stcEnd it ea f l v (endResv it l s))
      ∧ FewerResv s (stcEnd it ea f l v (endResv it l s))
      ∧ Delivers it (stcEnd it ea f l v (endResv it l s)) 1 (wordsOf fun _ => ⟨v, false⟩)
      ∧ ∃ w', (stcEnd it ea f l v (endResv it l s)).warp it.wid = some w' ∧ alook l w'.resv = none := by
  obtain ⟨q, r, p, hi⟩ := h.issuedWith
  have he : IssuedWith it q (adel l r) p (endResv it l s) := hi.modWarp fun n => ⟨n, rfl⟩
  have hu := he.of_warps (usedLanes_warps (it := it) (ea := ea) _ (it.lanes.map fun l => (l, f l)))
  have hc := computes_asIssued hu.asIssued .b32 fun j => ⟨(([(l, v)].find? fun e => e.1 == j).map Prod.snd).getD 0, false⟩
  have hdel := delivers_of_computes hc
  obtain ⟨ho, w, w', hw, hw', hk, -⟩ := hc
  obtain ⟨m0, hm0⟩ := hi
  obtain ⟨m1, hm1⟩ := he
  obtain ⟨m2, hm2⟩ := hu
  have hres : w'.resv = adel l r := by
    rw [hk.resv, ← Option.some.inj (hm2.symm.trans hw)]
    rfl
  have hfewer : FewerResv s (endResv it l s) :=
    .of_onlyWarp (onlyWarp_modWarp it.wid s _) hm0 hm1 fun e he => List.mem_of_mem_filter he
  refine ⟨((Reads.modWarp s _).trans (reads_usedLanes _ it.lanes)).trans (.of_onlyWarp ho),
    (hfewer.trans (.of_warps (usedLanes_warps _ _))).trans (.of_onlyWarp ho hm2 hw' fun e he => hres ▸ he),
    delivers_lanes hd (fun j hj k => ?_) hdel, w', hw', ?_⟩
  · obtain rfl : j = l := List.mem_singleton.mp (hl ▸ mem_lanesOf.mpr hj)
    simp only [wordsOf, List.find?_cons, BEq.rfl, Option.map_some, Option.getD_some]
  · rw [hres, alook_adel_self]

theorem fewerResv_clearResv (s : State) (key n : Nat) : FewerResv s (clearResv s key n) := by
  intro x y hy
  obtain ⟨w, hw, rfl⟩ := Option.map_eq_some_iff.mp (warp_clearResv s key n x ▸ hy)
  exact ⟨w, hw, fun e he => (mem_loseResv he).1⟩

theorem drains_released (s : State) (ord : StOrd) (sc : Scope) : Drains s (released it s ord sc) := by
  unfold released
  split_ifs
  · exact drains_releaseAt s it.wid sc
  · exact .refl s

end

end Sys2Proof.Machine

namespace Sys2Proof

open Sys2Proof.Machine

/-- Settles O31: a store that is no release is buffered (`storeBuffers`), a release's lanes write one after another (`storeReleases`), and
what is buffered is written as it lands (`storesLand`); `stc` of one lane is one lane's write, or none. -/
theorem globalStores : Obligations.GlobalStores := by
  unfold Obligations.GlobalStores
  refine ⟨storeBuffers, storeReleases, storesLand, fun o w ord sc ixs s s0 it f l w1 hi hl hd => ?_⟩
  intro n s1 hb hg hm hw1
  obtain ⟨b, hb⟩ := hb
  have hlane : l ∈ it.lanes := hl ▸ List.mem_cons_self
  have ha := act_ne_zero hlane
  have hdr : Drains (s0.modWarp it.wid Warp.unmiss) s1 := (drains_released _ ord sc).trans (drains_settle _ it.wid _ n)
  have hc : ConfirmedFor it s1 :=
    ((ConfirmedFor.of_issuing hi hb (confirmed_of_held hi rfl ha hb)).of_blocks (State.modWarp_blocks s0 it.wid Warp.unmiss)).drains hdr
  have h1 : AsIssued it s1 := by
    obtain ⟨_, _, _, h⟩ := (asIssued_of_issuing hi).issuedWith
    exact h.unmiss.asIssued.drains hdr
  refine ⟨fun hr => ?held, fun hr => ?unheld⟩
  case held =>
    have hclear := drains_clearResv (storeGlobal s1 it.wid (f l) (it.dataBytes it.o.c n l).1 (it.dataBytes it.o.c n l).2) (f l).key n
    obtain ⟨hreads, hfewer, hdel, w', hw', hnone⟩ := stcEnd_facts (ea := it.ea ixs) (f := f) (v := 1) hl hd
      ((h1.drains (drains_storeGlobal hc _ _ _)).drains hclear)
    refine ⟨_, w', exec_stc hi hl hg hm (stcLane_held rfl hw1 hr), hdel, hw', hnone, fun hs hd1 => ?_⟩
    have hst : Stored it n f (fun l => it.dataBytes it.o.c n l) it.lanes s1 _ :=
      hl ▸ (stored_nil _ s1).storeGlobal hc (hs l hlane).1 (hs l hlane).2 (pathStores_settle _ it.wid (f l).key n) (hd1 l hlane)
    have haside := ((hst.toAside.trans (aside_clearResv none _ (f l).key n)).weaken (some it.wid)).trans hreads.toAside
    exact ⟨haside.besideMem, hst.unreserved ((fewerResv_clearResv _ _ _).trans hfewer),
      hl ▸ storedBytes_of fun k hk => (hreads.bytes k hk).trans (hst.bytes k)⟩
  case unheld =>
    obtain ⟨hreads, -, hdel, w', hw', hnone⟩ := stcEnd_facts (ea := it.ea ixs) (f := f) (v := 0) hl hd h1
    exact ⟨_, w', exec_stc hi hl hg hm (stcLane_unheld rfl hw1 hr), hreads.besideMem, hl ▸ hreads.bytes, hdel, hw', hnone⟩

end Sys2Proof
